-- ==== Sys2Proof/Word.lean ====
section
/-!
DEFINITION. The words the machine computes with. IBM numbering (00_scope section 5): bit 0 is the most significant bit
of every register, so the bit called i here is `BitVec.getMsbD v i`.
-/

namespace Sys2Proof

/-- 8 bits, the smallest addressable unit (R100). -/
abbrev Byte := BitVec 8

/-- 16 bits (R102). -/
abbrev Half := BitVec 16

/-- 32 bits (R102): a register, an effective address, an instruction. -/
abbrev Word := BitVec 32

/-- 64 bits (R102): a floating-point register. -/
abbrev DWord := BitVec 64

/-- The number of a general, floating-point or condition bit register: a five-bit field of an instruction. -/
abbrev RegNum := BitVec 5

/-- The number of a condition register field. -/
abbrev CrField := BitVec 3

end Sys2Proof
end

