-- ==== Sys2Proof/Machine/Bits.lean ====
section
/-!
DEFINITION. Bit fields in IBM numbering (00_scope section 5): `bitsAt v i n` are the n bits of a word that start at bit
i, bit 0 the most significant; and the byte order of scalars (R118).
-/

namespace Sys2Proof.Machine

/-- `v[i : i+n-1]` of a 32-bit word. -/
def bitsAt (v : Word) (i n : Nat) : BitVec n := v.extractLsb' (32 - i - n) n

/-- Bit i of a 32-bit word. -/
def bitAt (v : Word) (i : Nat) : Bool := v.getMsbD i

/-- The word with only bit i set. -/
def bitMask (i : Nat) : Word := 1#32 <<< (31 - i)

/-- `v` with bit i replaced. -/
def setBit (v : Word) (i : Nat) (b : Bool) : Word :=
  if b then v ||| bitMask i else v &&& ~~~ bitMask i

/-- The n ones of a word that start at bit i. -/
def fieldMask (i n : Nat) : Word := (BitVec.allOnes n).setWidth 32 <<< (32 - i - n)

/-- `v` with `v[i : i+n-1]` replaced. -/
def setBits (v : Word) (i n : Nat) (f : BitVec n) : Word :=
  (v &&& ~~~ fieldMask i n) ||| (f.setWidth 32 <<< (32 - i - n))

/-- The bytes of a scalar of n bytes, most significant first (R118). -/
def toBytes (n : Nat) (v : BitVec w) : List Byte :=
  (List.range n).map fun i => v.extractLsb' (8 * (n - 1 - i)) 8

/-- The scalar whose bytes are these, most significant first (R118); of too many bytes the last ones count. -/
def ofBytes (w : Nat) (l : List Byte) : BitVec w :=
  l.foldl (fun acc b => (acc <<< 8) ||| b.setWidth w) 0

/-- The word of four bytes. -/
def wordOfBytes (l : List Byte) : Word := ofBytes 32 l

/-- A 16-bit immediate sign extended (R106, R255). -/
def sext16 (d : BitVec 16) : Word := d.signExtend 32

end Sys2Proof.Machine
end

