-- ==== Sys2Proof/Config.lean ====
section
/-!
DEFINITION. What an implementation fixes (93_implementation_defined section 2.1): the plain-data parameters, held in
the state and never changed by a step, and the parameters that are functions and the free values, which are opaque
constants: nothing in Lean can evaluate them, so a statement is true whatever they are.
-/

namespace Sys2Proof.Config

/-- `IMPL` (00_scope): the two implementations of the architecture. -/
inductive Impl where
  | power
  | power2
  deriving DecidableEq, Repr

/-- `IOCC_RMW` (R886): how the IOCC keeps the bytes of a line that a device did not write. -/
inductive Rmw where
  | prefetch
  | postfetch
  deriving DecidableEq, Repr

/-- The IOCC facilities whose effective addresses were in lost figures (R825, R914). -/
inductive Lost where
  /-- A channel register set; the index is the set, EA bits 28-29 the register (R882). -/
  | channelReg
  /-- The Load and Store Limit register (R839). -/
  | limit
  /-- Board configuration data; the index is the slot, EA bits 29-31 the byte (R934). -/
  | board
  /-- Enable (load) and disable (store); the channel is EA bits 12-15 (R917, R918). -/
  | enable
  /-- DMA slave buffer flush; the channel is EA bits 12-15 (R920). -/
  | slaveFlush
  /-- Next buffer invalidate; the index is the buffer (R922). -/
  | nextInvalidate
  /-- End of interrupt for all sixteen levels (R916, decision D47). -/
  | eoiAll
  /-- End of interrupt for the level that is the index (R916). -/
  | eoiLevel
  /-- Time delay issued with I = 1 (R915). -/
  | timeDelay
  deriving DecidableEq, Repr

/-- One row of the address map of the lost facilities: an address EA[4:31] belongs to `fac` when its bits under `mask`
are `value`; its index is the four bits that start `shift` bits above its least significant bit. -/
structure LostAddr where
  mask : BitVec 28
  value : BitVec 28
  fac : Lost
  shift : Nat
  deriving DecidableEq, Repr

/-- The implementation parameters that are data. -/
structure Machine where
  /-- `IMPL`. -/
  impl : Impl
  /-- The base 2 logarithm of `CACHE_LINE` (R130). -/
  lineLog : Nat
  /-- `REAL_MEM`: base and length of each extent of memory (R122). -/
  ram : List (Nat × Nat)
  /-- Base and length of each extent of ROM (R124). -/
  rom : List (Nat × Nat)
  /-- `SPR_ILCR` (R52, decision D5). -/
  sprIlcr : BitVec 5
  /-- `PEIS_READ_CLEARS` (R787). -/
  peisReadClears : Bool
  /-- `ILCR_SETTLE` (R789). -/
  ilcrSettle : Nat
  /-- `FPI_DELAY` (R720). -/
  fpiDelay : Nat
  /-- `FPA_LEVEL` is the level with the frsp erratum (R539). -/
  fpaErratum : Bool
  /-- `HAS_OCS` (R1002). -/
  hasOcs : Bool
  /-- Some implementations raise Alignment for an unaligned access to an I/O segment (R117). -/
  alignIo : Bool
  /-- The vector table exists and interrupts are mapped through it (R924, R928). -/
  vectorTable : Bool
  /-- Programmable burst control (R935, CFG bits 2-3). -/
  burstControl : Bool
  /-- `DEV_CSR15_STICKY` (R856). -/
  devCsr15Sticky : Bool
  /-- `DEV_INVOP_LOST` (R856). -/
  devInvopLost : Bool
  /-- A system address error after a TCW reload leaves the page out of the channel's register (R856, R890). -/
  devReloadAddr : Bool
  /-- No 'chck' on the cycles of a bus master that follow a data parity error (R891, R965). -/
  devParityQuiet : Bool
  /-- The time delay command has no delays of 7 and 8 microseconds (R915, R965). -/
  devDelaySix : Bool
  /-- I/O bus protocol errors are not logged in the Channel Status registers (R836, R892). -/
  devProtocolUnlogged : Bool
  /-- A bus master buffer flush through a load is supported (R919, R965). -/
  flushByLoad : Bool
  /-- `IOCC_RMW` (R886). -/
  rmw : Rmw
  /-- `DMA_FLUSH_ZERO_FILL` (R904). -/
  flushZeroFill : Bool
  /-- `NVRAM_BYTES` (R946). -/
  nvramBytes : Nat
  /-- Where the facilities of lost addresses are (R825, R914). -/
  lost : List LostAddr
  /-- The most steps of the processor between two ticks of the time base: any number is one that decision D29 allows
  (R799, log entry 60). -/
  tickEvery : Nat
  deriving DecidableEq, Repr

/-- What the lock rule of a special segment answers for one access (R210). -/
inductive Lock where
  /-- The access is allowed. -/
  | allow
  /-- The access is allowed and the lock words of the table entry become these two. -/
  | update (w2 w3 : Word)
  /-- The access is not permitted by the data-locking mechanism. -/
  | deny
  deriving DecidableEq, Repr, Inhabited

/-- `LOCK_RULE` (R210, decision D18): from the two lock words of the table entry (zero on POWER2, whose entries have
none), the TID register, the 128-byte line of the page and whether the access is a store. Uninterpreted. -/
opaque lockRule : Word → Word → Word → BitVec 5 → Bool → Lock

/-- `ALIGN_HW` (R114, decision D8): the hardware performs the unaligned access of this width at this address by the
instruction with this word. Uninterpreted. -/
opaque alignHw : Nat → Word → Word → Bool

/-- `TD_US` (R915): the delay selector of a time delay command at this address with this length. Uninterpreted. -/
opaque tdUs : Word → Nat → BitVec 3

/-- `FLUSH_MASK` (R919): the new R, C and control bits a bus master flush address carries. Uninterpreted. -/
opaque flushMask : Word → BitVec 4

/-- The starting address of the TCW and tag tables in system memory that the anchor register specifies (R939); its format is in a
lost figure. Uninterpreted. -/
opaque tableStart : Word → Word

/-- Whether the tag table comes before the TCW table there, of which R939 says nothing. Uninterpreted. -/
opaque tagsFirst : Bool

/-- The free word number n. -/
opaque freeWord : Nat → BitVec 32

/-- The free bit number n. -/
opaque freeBit : Nat → Bool

/-- The free byte number n. -/
opaque freeByte : Nat → BitVec 8

/-- The free doubleword number n. -/
opaque freeDWord : Nat → BitVec 64

end Sys2Proof.Config
end

