-- ==== Sys2Proof/Syntax.lean ====
section
/-!
DEFINITION. The instructions: one constructor for each row of the opcode table (R263 to R267), with the fields of its
format (R222 to R262) as operands. The record, overflow and link forms are the same row with the bit as an operand.
Ignored bits (R270) are not operands.
-/

namespace Sys2Proof

/-- An instruction. Operands stand in the order of their bits in the word. -/
inductive Instr where
  /-- `b`, I-form (R286). -/
  | b (li : BitVec 24) (aa lk : Bool)
  /-- `bc`, B-form (R287). -/
  | bc (bo bi : BitVec 5) (bd : BitVec 14) (aa lk : Bool)
  /-- `bcr`, XL-form (R289). -/
  | bcr (bo bi : BitVec 5) (lk : Bool)
  /-- `bcc`, XL-form (R290). -/
  | bcc (bo bi : BitVec 5) (lk : Bool)
  /-- `svc`, SC-form (R291). -/
  | svc (fl1 : BitVec 4) (lev : BitVec 7) (fl2 : BitVec 3) (sa lk : Bool)
  /-- `rfi`, XL-form (R292). -/
  | rfi
  /-- `rfsvc`, XL-form (R311). -/
  | rfsvc (lk : Bool)
  /-- `mcrf`, XL-form (R293). -/
  | mcrf (bf bfa : CrField)
  /-- `crand`, XL-form (R294). -/
  | crand (bt ba bb : BitVec 5)
  /-- `cror`, XL-form (R295). -/
  | cror (bt ba bb : BitVec 5)
  /-- `crxor`, XL-form (R296). -/
  | crxor (bt ba bb : BitVec 5)
  /-- `crnand`, XL-form (R297). -/
  | crnand (bt ba bb : BitVec 5)
  /-- `crnor`, XL-form (R298). -/
  | crnor (bt ba bb : BitVec 5)
  /-- `creqv`, XL-form (R299). -/
  | creqv (bt ba bb : BitVec 5)
  /-- `crandc`, XL-form (R300). -/
  | crandc (bt ba bb : BitVec 5)
  /-- `crorc`, XL-form (R301). -/
  | crorc (bt ba bb : BitVec 5)
  /-- `t`, X-form (R302). -/
  | t (cond : BitVec 5) (ra rb : RegNum)
  /-- `ti`, D-form (R303). -/
  | ti (cond : BitVec 5) (ra : RegNum) (si : BitVec 16)
  /-- `lbz`, D-form (R322). -/
  | lbz (rt ra : RegNum) (d : BitVec 16)
  /-- `lbzu`, D-form (R323). -/
  | lbzu (rt ra : RegNum) (d : BitVec 16)
  /-- `lbzx`, X-form (R324). -/
  | lbzx (rt ra rb : RegNum)
  /-- `lbzux`, X-form (R325). -/
  | lbzux (rt ra rb : RegNum)
  /-- `lhz`, D-form (R326). -/
  | lhz (rt ra : RegNum) (d : BitVec 16)
  /-- `lhzu`, D-form (R327). -/
  | lhzu (rt ra : RegNum) (d : BitVec 16)
  /-- `lhzx`, X-form (R328). -/
  | lhzx (rt ra rb : RegNum)
  /-- `lhzux`, X-form (R329). -/
  | lhzux (rt ra rb : RegNum)
  /-- `lha`, D-form (R330). -/
  | lha (rt ra : RegNum) (d : BitVec 16)
  /-- `lhau`, D-form (R331). -/
  | lhau (rt ra : RegNum) (d : BitVec 16)
  /-- `lhax`, X-form (R332). -/
  | lhax (rt ra rb : RegNum)
  /-- `lhaux`, X-form (R333). -/
  | lhaux (rt ra rb : RegNum)
  /-- `l`, D-form (R334). -/
  | l (rt ra : RegNum) (d : BitVec 16)
  /-- `lu`, D-form (R335). -/
  | lu (rt ra : RegNum) (d : BitVec 16)
  /-- `lx`, X-form (R336). -/
  | lx (rt ra rb : RegNum)
  /-- `lux`, X-form (R337). -/
  | lux (rt ra rb : RegNum)
  /-- `stb`, D-form (R338). -/
  | stb (rs ra : RegNum) (d : BitVec 16)
  /-- `stbu`, D-form (R339). -/
  | stbu (rs ra : RegNum) (d : BitVec 16)
  /-- `stbx`, X-form (R340). -/
  | stbx (rs ra rb : RegNum)
  /-- `stbux`, X-form (R341). -/
  | stbux (rs ra rb : RegNum)
  /-- `sth`, D-form (R342). -/
  | sth (rs ra : RegNum) (d : BitVec 16)
  /-- `sthu`, D-form (R343). -/
  | sthu (rs ra : RegNum) (d : BitVec 16)
  /-- `sthx`, X-form (R344). -/
  | sthx (rs ra rb : RegNum)
  /-- `sthux`, X-form (R345). -/
  | sthux (rs ra rb : RegNum)
  /-- `st`, D-form (R346). -/
  | st (rs ra : RegNum) (d : BitVec 16)
  /-- `stu`, D-form (R347). -/
  | stu (rs ra : RegNum) (d : BitVec 16)
  /-- `stx`, X-form (R348). -/
  | stx (rs ra rb : RegNum)
  /-- `stux`, X-form (R349). -/
  | stux (rs ra rb : RegNum)
  /-- `lhbrx`, X-form (R350). -/
  | lhbrx (rt ra rb : RegNum)
  /-- `lbrx`, X-form (R351). -/
  | lbrx (rt ra rb : RegNum)
  /-- `sthbrx`, X-form (R352). -/
  | sthbrx (rs ra rb : RegNum)
  /-- `stbrx`, X-form (R353). -/
  | stbrx (rs ra rb : RegNum)
  /-- `lm`, D-form (R354). -/
  | lm (rt ra : RegNum) (d : BitVec 16)
  /-- `stm`, D-form (R355). -/
  | stm (rs ra : RegNum) (d : BitVec 16)
  /-- `lsi`, X-form (R356). -/
  | lsi (rt ra : RegNum) (nb : BitVec 5)
  /-- `lsx`, X-form (R357). -/
  | lsx (rt ra rb : RegNum)
  /-- `lscbx`, X-form (R358). -/
  | lscbx (rt ra rb : RegNum) (rc : Bool)
  /-- `stsi`, X-form (R359). -/
  | stsi (rs ra : RegNum) (nb : BitVec 5)
  /-- `stsx`, X-form (R360). -/
  | stsx (rs ra rb : RegNum)
  /-- `cal`, D-form (R402). -/
  | cal (rt ra : RegNum) (d : BitVec 16)
  /-- `cau`, D-form (R403). -/
  | cau (rt ra : RegNum) (ui : BitVec 16)
  /-- `ai.`, D-form (R404). -/
  | aiDot (rt ra : RegNum) (si : BitVec 16)
  /-- `ai`, D-form (R405). -/
  | ai (rt ra : RegNum) (si : BitVec 16)
  /-- `sfi`, D-form (R406). -/
  | sfi (rt ra : RegNum) (si : BitVec 16)
  /-- `muli`, D-form (R407). -/
  | muli (rt ra : RegNum) (si : BitVec 16)
  /-- `dozi`, D-form (R408). -/
  | dozi (rt ra : RegNum) (si : BitVec 16)
  /-- `cax`, XO-form (R409). -/
  | cax (rt ra rb : RegNum) (oe rc : Bool)
  /-- `a`, XO-form (R410). -/
  | a (rt ra rb : RegNum) (oe rc : Bool)
  /-- `ae`, XO-form (R411). -/
  | ae (rt ra rb : RegNum) (oe rc : Bool)
  /-- `ame`, XO-form (R412). -/
  | ame (rt ra : RegNum) (oe rc : Bool)
  /-- `aze`, XO-form (R413). -/
  | aze (rt ra : RegNum) (oe rc : Bool)
  /-- `sf`, XO-form (R414). -/
  | sf (rt ra rb : RegNum) (oe rc : Bool)
  /-- `sfe`, XO-form (R415). -/
  | sfe (rt ra rb : RegNum) (oe rc : Bool)
  /-- `sfme`, XO-form (R416). -/
  | sfme (rt ra : RegNum) (oe rc : Bool)
  /-- `sfze`, XO-form (R417). -/
  | sfze (rt ra : RegNum) (oe rc : Bool)
  /-- `neg`, XO-form (R418). -/
  | neg (rt ra : RegNum) (oe rc : Bool)
  /-- `abs`, XO-form (R419). -/
  | abs (rt ra : RegNum) (oe rc : Bool)
  /-- `nabs`, XO-form (R420). -/
  | nabs (rt ra : RegNum) (oe rc : Bool)
  /-- `doz`, XO-form (R421). -/
  | doz (rt ra rb : RegNum) (oe rc : Bool)
  /-- `mul`, XO-form (R422). -/
  | mul (rt ra rb : RegNum) (oe rc : Bool)
  /-- `muls`, XO-form (R423). -/
  | muls (rt ra rb : RegNum) (oe rc : Bool)
  /-- `div`, XO-form (R424). -/
  | div (rt ra rb : RegNum) (oe rc : Bool)
  /-- `divs`, XO-form (R425). -/
  | divs (rt ra rb : RegNum) (oe rc : Bool)
  /-- `cmpi`, D-form (R426). -/
  | cmpi (bf : CrField) (ra : RegNum) (si : BitVec 16)
  /-- `cmpli`, D-form (R427). -/
  | cmpli (bf : CrField) (ra : RegNum) (ui : BitVec 16)
  /-- `cmp`, X-form (R428). -/
  | cmp (bf : CrField) (ra rb : RegNum)
  /-- `cmpl`, X-form (R429). -/
  | cmpl (bf : CrField) (ra rb : RegNum)
  /-- `andil.`, D-form (R430). -/
  | andilDot (rs ra : RegNum) (ui : BitVec 16)
  /-- `andiu.`, D-form (R431). -/
  | andiuDot (rs ra : RegNum) (ui : BitVec 16)
  /-- `oril`, D-form (R432). -/
  | oril (rs ra : RegNum) (ui : BitVec 16)
  /-- `oriu`, D-form (R433). -/
  | oriu (rs ra : RegNum) (ui : BitVec 16)
  /-- `xoril`, D-form (R434). -/
  | xoril (rs ra : RegNum) (ui : BitVec 16)
  /-- `xoriu`, D-form (R435). -/
  | xoriu (rs ra : RegNum) (ui : BitVec 16)
  /-- `and`, X-form (R436). -/
  | and (rs ra rb : RegNum) (rc : Bool)
  /-- `or`, X-form (R437). -/
  | or (rs ra rb : RegNum) (rc : Bool)
  /-- `xor`, X-form (R438). -/
  | xor (rs ra rb : RegNum) (rc : Bool)
  /-- `nand`, X-form (R439). -/
  | nand (rs ra rb : RegNum) (rc : Bool)
  /-- `nor`, X-form (R440). -/
  | nor (rs ra rb : RegNum) (rc : Bool)
  /-- `eqv`, X-form (R441). -/
  | eqv (rs ra rb : RegNum) (rc : Bool)
  /-- `andc`, X-form (R442). -/
  | andc (rs ra rb : RegNum) (rc : Bool)
  /-- `orc`, X-form (R443). -/
  | orc (rs ra rb : RegNum) (rc : Bool)
  /-- `exts`, X-form (R444). -/
  | exts (rs ra : RegNum) (rc : Bool)
  /-- `cntlz`, X-form (R445). -/
  | cntlz (rs ra : RegNum) (rc : Bool)
  /-- `rlimi`, M-form (R447). -/
  | rlimi (rs ra : RegNum) (sh mb me : BitVec 5) (rc : Bool)
  /-- `rlinm`, M-form (R448). -/
  | rlinm (rs ra : RegNum) (sh mb me : BitVec 5) (rc : Bool)
  /-- `rlmi`, M-form (R449). -/
  | rlmi (rs ra rb : RegNum) (mb me : BitVec 5) (rc : Bool)
  /-- `rlnm`, M-form (R450). -/
  | rlnm (rs ra rb : RegNum) (mb me : BitVec 5) (rc : Bool)
  /-- `rrib`, X-form (R451). -/
  | rrib (rs ra rb : RegNum) (rc : Bool)
  /-- `maskg`, X-form (R452). -/
  | maskg (rs ra rb : RegNum) (rc : Bool)
  /-- `maskir`, X-form (R453). -/
  | maskir (rs ra rb : RegNum) (rc : Bool)
  /-- `sl`, X-form (R454). -/
  | sl (rs ra rb : RegNum) (rc : Bool)
  /-- `sr`, X-form (R455). -/
  | sr (rs ra rb : RegNum) (rc : Bool)
  /-- `slq`, X-form (R456). -/
  | slq (rs ra rb : RegNum) (rc : Bool)
  /-- `srq`, X-form (R457). -/
  | srq (rs ra rb : RegNum) (rc : Bool)
  /-- `sliq`, X-form (R458). -/
  | sliq (rs ra : RegNum) (sh : BitVec 5) (rc : Bool)
  /-- `sriq`, X-form (R459). -/
  | sriq (rs ra : RegNum) (sh : BitVec 5) (rc : Bool)
  /-- `slliq`, X-form (R460). -/
  | slliq (rs ra : RegNum) (sh : BitVec 5) (rc : Bool)
  /-- `srliq`, X-form (R461). -/
  | srliq (rs ra : RegNum) (sh : BitVec 5) (rc : Bool)
  /-- `sllq`, X-form (R462). -/
  | sllq (rs ra rb : RegNum) (rc : Bool)
  /-- `srlq`, X-form (R463). -/
  | srlq (rs ra rb : RegNum) (rc : Bool)
  /-- `sle`, X-form (R464). -/
  | sle (rs ra rb : RegNum) (rc : Bool)
  /-- `sre`, X-form (R465). -/
  | sre (rs ra rb : RegNum) (rc : Bool)
  /-- `sleq`, X-form (R466). -/
  | sleq (rs ra rb : RegNum) (rc : Bool)
  /-- `sreq`, X-form (R467). -/
  | sreq (rs ra rb : RegNum) (rc : Bool)
  /-- `sra`, X-form (R468). -/
  | sra (rs ra rb : RegNum) (rc : Bool)
  /-- `srai`, X-form (R469). -/
  | srai (rs ra : RegNum) (sh : BitVec 5) (rc : Bool)
  /-- `sraq`, X-form (R470). -/
  | sraq (rs ra rb : RegNum) (rc : Bool)
  /-- `sraiq`, X-form (R471). -/
  | sraiq (rs ra : RegNum) (sh : BitVec 5) (rc : Bool)
  /-- `srea`, X-form (R472). -/
  | srea (rs ra rb : RegNum) (rc : Bool)
  /-- `mtspr`, XFX-form (R497). -/
  | mtspr (rs : RegNum) (spr : BitVec 5)
  /-- `mfspr`, XFX-form (R498). -/
  | mfspr (rt : RegNum) (spr : BitVec 5)
  /-- `mcrxr`, X-form (R499). -/
  | mcrxr (bf : CrField)
  /-- `mtcrf`, XFX-form (R500). -/
  | mtcrf (rs : RegNum) (fxm : BitVec 8)
  /-- `mfcr`, X-form (R501). -/
  | mfcr (rt : RegNum)
  /-- `mfmsr`, X-form (R502). -/
  | mfmsr (rt : RegNum)
  /-- `mtmsr`, X-form (R503). -/
  | mtmsr (rs : RegNum)
  /-- `lfs`, D-form (R565). -/
  | lfs (frt ra : RegNum) (d : BitVec 16)
  /-- `lfsu`, D-form (R566). -/
  | lfsu (frt ra : RegNum) (d : BitVec 16)
  /-- `lfsx`, X-form (R567). -/
  | lfsx (frt ra rb : RegNum)
  /-- `lfsux`, X-form (R568). -/
  | lfsux (frt ra rb : RegNum)
  /-- `lfd`, D-form (R569). -/
  | lfd (frt ra : RegNum) (d : BitVec 16)
  /-- `lfdu`, D-form (R570). -/
  | lfdu (frt ra : RegNum) (d : BitVec 16)
  /-- `lfdx`, X-form (R571). -/
  | lfdx (frt ra rb : RegNum)
  /-- `lfdux`, X-form (R572). -/
  | lfdux (frt ra rb : RegNum)
  /-- `stfs`, D-form (R573). -/
  | stfs (frs ra : RegNum) (d : BitVec 16)
  /-- `stfsu`, D-form (R574). -/
  | stfsu (frs ra : RegNum) (d : BitVec 16)
  /-- `stfsx`, X-form (R575). -/
  | stfsx (frs ra rb : RegNum)
  /-- `stfsux`, X-form (R576). -/
  | stfsux (frs ra rb : RegNum)
  /-- `stfd`, D-form (R577). -/
  | stfd (frs ra : RegNum) (d : BitVec 16)
  /-- `stfdu`, D-form (R578). -/
  | stfdu (frs ra : RegNum) (d : BitVec 16)
  /-- `stfdx`, X-form (R579). -/
  | stfdx (frs ra rb : RegNum)
  /-- `stfdux`, X-form (R580). -/
  | stfdux (frs ra rb : RegNum)
  /-- `lfq`, DS-form (R581; POWER2 only). -/
  | lfq (frt ra : RegNum) (ds : BitVec 14)
  /-- `lfqu`, DS-form (R582; POWER2 only). -/
  | lfqu (frt ra : RegNum) (ds : BitVec 14)
  /-- `lfqx`, X-form (R583; POWER2 only). -/
  | lfqx (frt ra rb : RegNum)
  /-- `lfqux`, X-form (R584; POWER2 only). -/
  | lfqux (frt ra rb : RegNum)
  /-- `stfq`, DS-form (R585; POWER2 only). -/
  | stfq (frs ra : RegNum) (ds : BitVec 14)
  /-- `stfqu`, DS-form (R586; POWER2 only). -/
  | stfqu (frs ra : RegNum) (ds : BitVec 14)
  /-- `stfqx`, X-form (R587; POWER2 only). -/
  | stfqx (frs ra rb : RegNum)
  /-- `stfqux`, X-form (R588; POWER2 only). -/
  | stfqux (frs ra rb : RegNum)
  /-- `fmr`, X-form (R589). -/
  | fmr (frt frb : RegNum) (rc : Bool)
  /-- `fneg`, X-form (R590). -/
  | fneg (frt frb : RegNum) (rc : Bool)
  /-- `fabs`, X-form (R591). -/
  | fabs (frt frb : RegNum) (rc : Bool)
  /-- `fnabs`, X-form (R592). -/
  | fnabs (frt frb : RegNum) (rc : Bool)
  /-- `fa`, A-form (R593). -/
  | fa (frt fra frb : RegNum) (rc : Bool)
  /-- `fs`, A-form (R594). -/
  | fs (frt fra frb : RegNum) (rc : Bool)
  /-- `fm`, A-form (R595). -/
  | fm (frt fra frc : RegNum) (rc : Bool)
  /-- `fd`, A-form (R596). -/
  | fd (frt fra frb : RegNum) (rc : Bool)
  /-- `fma`, A-form (R597). -/
  | fma (frt fra frb frc : RegNum) (rc : Bool)
  /-- `fms`, A-form (R598). -/
  | fms (frt fra frb frc : RegNum) (rc : Bool)
  /-- `fnma`, A-form (R599). -/
  | fnma (frt fra frb frc : RegNum) (rc : Bool)
  /-- `fnms`, A-form (R600). -/
  | fnms (frt fra frb frc : RegNum) (rc : Bool)
  /-- `frsp`, X-form (R601). -/
  | frsp (frt frb : RegNum) (rc : Bool)
  /-- `fcir`, X-form (R602; POWER2 only). -/
  | fcir (frt frb : RegNum) (rc : Bool)
  /-- `fcirz`, X-form (R603; POWER2 only). -/
  | fcirz (frt frb : RegNum) (rc : Bool)
  /-- `fsqrt`, A-form (R604; POWER2 only). -/
  | fsqrt (frt frb : RegNum) (rc : Bool)
  /-- `fcmpu`, X-form (R605). -/
  | fcmpu (bf : CrField) (fra frb : RegNum)
  /-- `fcmpo`, X-form (R606). -/
  | fcmpo (bf : CrField) (fra frb : RegNum)
  /-- `mffs`, X-form (R630). -/
  | mffs (frt : RegNum) (rc : Bool)
  /-- `mcrfs`, X-form (R631). -/
  | mcrfs (bf bfa : CrField)
  /-- `mtfsf`, XFL-form (R632). -/
  | mtfsf (flm : BitVec 8) (frb : RegNum) (rc : Bool)
  /-- `mtfsfi`, X-form (R633). -/
  | mtfsfi (bf : CrField) (i : BitVec 4) (rc : Bool)
  /-- `mtfsb0`, X-form (R634). -/
  | mtfsb0 (bt : BitVec 5) (rc : Bool)
  /-- `mtfsb1`, X-form (R635). -/
  | mtfsb1 (bt : BitVec 5) (rc : Bool)
  /-- `dcs`, X-form (R640). -/
  | dcs
  /-- `ics`, XL-form (R641). -/
  | ics
  /-- `clf`, X-form (R642). -/
  | clf (ra rb : RegNum)
  /-- `cli`, X-form (R643). -/
  | cli (ra rb : RegNum)
  /-- `dclst`, X-form (R644). -/
  | dclst (ra rb : RegNum)
  /-- `dclz`, X-form (R654). -/
  | dclz (ra rb : RegNum)
  /-- `mtsr`, X-form (R655). -/
  | mtsr (rs : RegNum) (sr : BitVec 4)
  /-- `mtsri`, X-form (R656). -/
  | mtsri (rs ra rb : RegNum)
  /-- `mfsr`, X-form (R657). -/
  | mfsr (rt : RegNum) (sr : BitVec 4)
  /-- `mfsri`, X-form (R658). -/
  | mfsri (rs ra rb : RegNum)
  /-- `clcs`, X-form (R659). -/
  | clcs (rt ra : RegNum)
  /-- `tlbi`, X-form (R660). -/
  | tlbi (ra rb : RegNum)
  /-- `rac`, X-form (R661). -/
  | rac (rt ra rb : RegNum) (rc : Bool)
  deriving DecidableEq, Repr

end Sys2Proof
end

