-- ==== Sys2Proof/Machine/State.lean ====
section
/-!
DEFINITION. The state of the machine as plain data: every piece of state the spec gives the processor, its caches and
TLB, the memory, the I/O Channel Controllers and the platform behind them (10_state, 20_memory, 21_translation,
61_extint_timers, 62 to 64), and the schedule of the agents. INVENTORY.md lists each field with its rule and its reset
value.
-/

namespace Sys2Proof.Machine

/-- A line of the data cache (R133): the real address divided by the line size, its bytes, and whether it was
modified. -/
structure DLine where
  line : Nat
  bytes : List Byte
  modified : Bool
  deriving DecidableEq, Repr

/-- A line of the instruction cache (R133). -/
structure ILine where
  line : Nat
  bytes : List Byte
  deriving DecidableEq, Repr

/-- A store-back begun and not finished (R664). -/
structure StoreBack where
  line : Nat
  bytes : List Byte
  deriving DecidableEq, Repr

/-- An entry of the TLB (R200): a stale copy of a table entry. `word` is the real address of the table word that holds
its reference and change bits, `lock2` and `lock3` the lock words of a PFT entry (zero on POWER2), `f` and `c` the
reference and change bits as this entry knows them. -/
structure TlbEntry where
  sid : BitVec 24
  vpi : BitVec 16
  rpn : BitVec 20
  pp : BitVec 2
  f : Bool
  c : Bool
  word : Word
  lock2 : Word
  lock3 : Word
  deriving DecidableEq, Repr

/-- An IOCC buffer (R886): its 64 bytes, the copy of memory it was loaded from, which bytes a device has written (bit j
from the least significant end for byte j), and the copy of the next line that dual buffers have read ahead, if any,
with the real address it was taken from (R893). -/
structure Buffer where
  bytes : List Byte
  snapshot : List Byte
  written : BitVec 64
  ahead : List Byte
  aheadAt : Nat
  deriving DecidableEq, Repr

/-- What an agent on the bus asks for (R841). -/
inductive BusOp where
  /-- A bus master reads n bytes at a bus address (R886). -/
  | masterRead (ba : Word) (n : Nat)
  /-- A bus master writes bytes at a bus address (R886). -/
  | masterWrite (ba : Word) (bytes : List Byte)
  /-- A DMA slave of this width asks for service; the bytes are what the device supplies (R901). -/
  | slave (width : Nat) (bytes : List Byte)
  deriving DecidableEq, Repr

/-- A request for the bus that has not been granted (R841): the slot of the device, its arbitration level, and what it
does with the bus. -/
structure BusRequest where
  slot : BitVec 4
  level : BitVec 4
  op : BusOp
  deriving DecidableEq, Repr

/-- One I/O Channel Controller (62 to 64). -/
structure Iocc where
  /-- CFG, the Configuration register (R935). -/
  cfgReg : Word
  /-- CRR, the Component Reset register (R940). -/
  crr : Word
  /-- Register 0 of each set: the Channel Status registers (R883, R899); set 15 is CSR15 (R836). -/
  r0 : Vector Word 16
  /-- Register 4 of each set (R884, R899). -/
  r4 : Vector Word 16
  /-- Register 8 of each set (R885, R900). -/
  r8 : Vector Word 16
  /-- The sixteen buffers (R829). -/
  bufs : Vector Buffer 16
  /-- The TCW table: the words that are not zero, by index (R850). -/
  tcw : List (Nat × Word)
  /-- The tag table: the words that are not zero, two words to a tag (R897). -/
  tag : List (Nat × Word)
  /-- LIMIT_LO (R839). -/
  limitLo : Half
  /-- LIMIT_HI (R839). -/
  limitHi : Half
  /-- EN, the Interrupt Enable register; bit 0 of the register is the most significant (R926). -/
  en : Half
  /-- MISC, the Miscellaneous Interrupt register (R927). -/
  misc : BitVec 3
  /-- VEC, the interrupt vector table (R928). -/
  vec : Vector (BitVec 6) 16
  /-- The presentation mask (R925). -/
  pm : Half
  /-- The interrupt request lines that each slot drives now, by board configuration slot number: inputs (R925, R940). -/
  lines : Vector Half 16
  /-- The latches of the Bus Status register (R938). -/
  bsr : Byte
  /-- The Bus Mapping registers 0, 4 and 8 (R941). -/
  busMap : Vector Word 3
  /-- The TCW and Tag Anchor Address register (R939). -/
  anchor : Word
  /-- Ticks the next load or store through this IOCC still waits for a time delay command (R915). -/
  delay : Nat
  /-- The slots that must still be held in reset, with the ticks (R940). -/
  hold : List (BitVec 4 × Nat)
  /-- The requests for the bus, oldest first (R841). -/
  requests : List BusRequest
  /-- The code of a hardware fault that the next access it can concern reports; 0 when there is none: an input (R836, R886,
  R901, R912). -/
  fault : BitVec 4
  deriving DecidableEq, Repr

/-- What an IOCC drives: cycles to a space (R823, R827, R934, R945), or a pulse of a signal to a channel. -/
inductive BusSpace where
  | io
  | memory
  | setup
  | sysReg
  /-- A pulse of 'tc' (R901, R909). -/
  | terminalCount
  /-- A pulse of 'chck' (R890, R891). -/
  | channelCheck
  deriving DecidableEq, Repr

/-- One cycle on the bus of an IOCC (R831, R650), or one pulse, whose address is the channel: the trace a device sees.
`feedback` says that 'sfdbkrtn' was not withheld (R890, R891). -/
structure BusEvent where
  iocc : Nat
  space : BusSpace
  addr : Word
  store : Bool
  feedback : Bool
  bytes : List Byte
  deriving DecidableEq, Repr

/-- The width of a device (R831). -/
inductive BusWidth where
  | byte
  | half
  | word
  deriving DecidableEq, Repr

/-- The width in bytes. -/
def BusWidth.bytes : BusWidth → Nat
  | .byte => 1
  | .half => 2
  | .word => 4

/-- How a cycle of the processor ends on the bus (R834, R836, R847, R848). -/
inductive BusReply where
  /-- The address is answered; a load takes these bytes. -/
  | data (bytes : List Byte)
  /-- No card selected feedback (R834). -/
  | silent
  /-- The device indicates a channel check (R836, code 1000). -/
  | channelCheck
  /-- Bad parity on the data of a load (R836, code 1001). -/
  | parity
  /-- Another error of the Micro Channel (R836, code 1010). -/
  | busError
  /-- The bus times out (R848); the byte is what the Bus Status register latches. -/
  | timeout (signals : Byte)
  deriving DecidableEq, Repr

/-- The answer to one cycle (R831): an input of the host. The device is in a slot and has a width. -/
structure BusAnswer where
  slot : BitVec 4
  width : BusWidth
  reply : BusReply
  deriving DecidableEq, Repr

/-- Whether a system reset is cold or warm: the host input `reset_kind` (R982, decision D54). -/
inductive ResetKind where
  | cold
  | warm
  deriving DecidableEq, Repr

/-- The positions of the keylock (R945, R983). -/
inductive Keylock where
  | normal
  | secure
  | service
  deriving DecidableEq, Repr

/-- What the agents can do between two instructions. -/
inductive Move where
  /-- The processor runs one step (R731). -/
  | cpu
  /-- The time base advances by one unit (R799). -/
  | tick
  /-- The word at an effective address is prefetched (R133, R645). -/
  | prefetch (ea : Word)
  /-- A data cache line is evicted (R133). -/
  | evictData (line : Nat)
  /-- A data cache line is loaded from memory (R133, decision D10). -/
  | fillData (line : Nat)
  /-- The store-back at this place of the queue is finished (R664). -/
  | finishStoreBack (n : Nat)
  /-- An instruction cache line is evicted (R133). -/
  | evictInstr (line : Nat)
  /-- An instruction cache line is filled from memory (R133). -/
  | fillInstr (line : Nat)
  /-- The TLB entry at this place is dropped (R200). -/
  | dropTlb (n : Nat)
  /-- Hardware reports a machine check condition (R694). -/
  | machineCheck
  /-- Hardware fails in a way that check stops the processor (R695, R838). -/
  | checkStop
  /-- External check, on POWER2 (R786). -/
  | externalCheck
  /-- Early power-off warning, on POWER2 (R786). -/
  | epow
  /-- The reset button (R1003); whether the reset is cold or warm (R982). -/
  | resetButton (kind : ResetKind)
  /-- The keylock is turned (R983). -/
  | turnKey (k : Keylock)
  /-- The on-card sequencer restarts the machine after a check stop (R1003). -/
  | ocsRestart
  /-- The on-card sequencer writes a byte of NVRAM (R946). -/
  | ocsWrite (offset : Nat) (b : Byte)
  /-- Power-on (R1001). -/
  | powerOn
  /-- The device in a slot drives an interrupt request line of an IOCC (R925). -/
  | line (iocc : Nat) (slot : BitVec 4) (level : BitVec 4) (up : Bool)
  /-- An IOCC presents a level that is ready (R925). -/
  | present (iocc : Nat) (level : BitVec 4)
  /-- The device in a slot drives a channel check that no transfer reports (R927). -/
  | asyncCheck (iocc : Nat) (slot : BitVec 4)
  /-- The keyboard's Ctrl-Alt sequence (R927). -/
  | keyboard (iocc : Nat)
  /-- The device in a slot holds the bus past the timeout (R848). -/
  | busTimeout (iocc : Nat) (slot : BitVec 4) (signals : Byte)
  /-- A device requests the bus (R841). -/
  | request (iocc : Nat) (r : BusRequest)
  /-- The IOCC grants the bus to the request of the lowest numbered level (R842). -/
  | grant (iocc : Nat)
  /-- Dual buffers read the next line ahead of the device (R893). -/
  | readAhead (iocc : Nat) (b : BitVec 4)
  /-- A cycle of the device in a slot on a channel ends in a hardware fault with this code (R892, R911); it is at this bus
  address, and a write or a read. A bus master's system memory error awaits a cycle that reaches system memory (R886). -/
  | channelFault (iocc : Nat) (slot c : BitVec 4) (code : BitVec 4) (ba : Word) (store : Bool)
  /-- A hardware fault with this code awaits the next access of the processor, access of a mapped cycle to system memory, or
  reload from a tag, that it can concern (R836, R886, R901, R912). -/
  | accessFault (iocc : Nat) (code : BitVec 4)
  /-- A device gives the answer to a coming cycle. -/
  | answer (a : BusAnswer)
  deriving DecidableEq, Repr

/-- The state of the machine. -/
structure State where
  /-- What the implementation fixes; no step changes it. -/
  cfg : Config.Machine
  /-- The general purpose registers (R1). -/
  gpr : Vector Word 32
  /-- MQ (R2). -/
  mq : Word
  /-- XER (R3). -/
  xer : Word
  /-- The address of the instruction to run (R7). -/
  pc : Word
  /-- The Condition register (R8). -/
  cr : Word
  /-- The Link register (R12). -/
  lr : Word
  /-- The Count register (R13). -/
  ctr : Word
  /-- The Machine State register (R14). -/
  msr : Word
  /-- SRR0 (R29). -/
  srr0 : Word
  /-- SRR1 (R30). -/
  srr1 : Word
  /-- DSISR (R31). -/
  dsisr : Word
  /-- DAR (R32). -/
  dar : Word
  /-- The floating-point registers (R33). -/
  fpr : Vector DWord 32
  /-- The Floating-Point Status and Control register (R34). -/
  fpscr : Word
  /-- Targets of floating-point arithmetic instructions after which fewer than two nondependent ones have run, with their
  number (R539). -/
  fpRecent : List (RegNum × Nat)
  /-- Instructions completed since the Floating-Point Imprecise condition arose (R720). -/
  fpiWait : Nat
  /-- The segment registers (R41). -/
  sr : Vector Word 16
  /-- SDR0 (R44). -/
  sdr0 : Word
  /-- SDR1 (R45). -/
  sdr1 : Word
  /-- SDR0 and SDR1 before each mtspr to one of them with MSR(IR) = 1 since prefetched instructions were last discarded: the
  walks of instruction fetches may use them (R653). -/
  sdrBefore : List (Word × Word)
  /-- TID (R46). -/
  tid : Word
  /-- RTCU (R47). -/
  rtcu : Word
  /-- RTCL (R48). -/
  rtcl : Word
  /-- DEC (R49). -/
  dec : Word
  /-- EIM (R50). -/
  eim : BitVec 64
  /-- EIS on POWER, the pending levels on POWER2; bit n is `getMsbD n` (R50, R53). -/
  eis : BitVec 64
  /-- The CIL field of ILCR (R52). -/
  cil : Byte
  /-- The EISBID of the Decrementer (R51). -/
  eisbidDec : BitVec 6
  /-- The EISBID of External Check (R786). -/
  eisbidCheck : BitVec 6
  /-- The EISBID of EPOW (R786). -/
  eisbidEpow : BitVec 6
  /-- Instructions that must complete, the mtspr itself among them, before an mfspr of ILCR obtains the actual values
  (R789). -/
  ilcrSettle : Nat
  /-- Main memory and ROM: the bytes that are not zero, by real address (R100). -/
  mem : List Host.Cell
  /-- The data cache (R133). -/
  dc : List DLine
  /-- The instruction cache (R133). -/
  ic : List ILine
  /-- The prefetched words, by effective address (R133). -/
  pf : List (Word × Word)
  /-- The store-backs begun and not finished, oldest first (R664). -/
  wb : List StoreBack
  /-- The TLB (R200). -/
  tlb : List TlbEntry
  /-- A system reset request is pending (R730). -/
  sysReset : Bool
  /-- A machine check condition is pending (R730). -/
  machineCheck : Bool
  /-- The processor is check stopped (R66). -/
  checkstopped : Bool
  /-- The I/O Channel Controllers, BUID X'20' first (R821). -/
  ioccs : List Iocc
  /-- NVRAM: the bytes that are not zero, by offset (R946). -/
  nvram : List Host.Cell
  /-- The keylock (R945). -/
  keylock : Keylock
  /-- The answers of the devices to the coming cycles. -/
  busIn : List BusAnswer
  /-- The cycles on the buses of the IOCCs, newest first. -/
  busLog : List BusEvent
  /-- What the agents do next; the processor when it is empty. -/
  agenda : List Move
  /-- Ticks of the time base since the processor's last step (R804). -/
  ticksRun : Nat
  /-- Steps of the processor since the last tick (R799). -/
  stepsRun : Nat
  /-- The number of the next free value. -/
  draws : Nat
  /-- The last instruction that completed accessed a Channel Status register (R856). -/
  lastCsr : Bool
  /-- The instruction being run has accessed a Channel Status register (R856). -/
  csrTouched : Bool
  /-- The instruction being run has entered an interrupt (R718). -/
  entered : Bool
  deriving DecidableEq, Repr

/-- Why the machine stops. -/
inductive Fault where
  /-- The processor is check stopped and executes nothing until a reset (R695, R1004). Raised by `step`. Safe: the
  machine itself is stuck. -/
  | checkStop
  deriving DecidableEq, Repr

/-- Why the model gives no next state. Each is an access whose effect the spec does not give; stopping is safe. -/
inductive Refusal where
  /-- An instruction without its meaning. Raised by `exec`. Safe. -/
  | notModelled (mnemonic : String)
  /-- An access to BUID 0 that is not an aligned whole number of words (R762, decision D31). Raised by loads and
  stores. Safe. -/
  | eicrForm
  /-- BUID 0 addresses X'1000' to X'10D0': memory control registers the source does not define (R762, decision D30).
  Raised by loads and stores. Safe. -/
  | memoryControl
  /-- A set or clear command of ILCR for a level above 63 (R785, decision D32). Raised by mtspr. Safe. -/
  | ilcrLevel
  /-- A reserved bit of an I/O segment register is 1 (R830, decision D35). Raised by loads and stores. Safe. -/
  | segmentReserved
  /-- RT compatibility mode below 64K of bus memory (R824, decision D36). Raised by loads and stores. Safe. -/
  | rtLow
  /-- A TCW table, tag table or command access that is not an aligned word (R855, R897, R913, decision D43). Raised by
  loads and stores. Safe. -/
  | tableForm
  /-- An IOCC register access that is not an aligned word (R933, decision D50). Raised by loads and stores. Safe. -/
  | registerForm
  /-- The four bytes after the Interrupt Request register's neighbour, X'040008C' (R926, decision D50). Raised by loads
  and stores. Safe. -/
  | interruptHole
  /-- A store of 1 to a reserved bit of the Configuration register (R935, decision D51). Raised by stores. Safe. -/
  | configReserved
  /-- Configuration codes 110 and 111 with tags, or the unbuffered code the table calls reserved (R937). Raised by
  loads, stores and bus cycles. Safe. -/
  | configCode
  /-- A store to the Bus Status register (R938). Raised by stores. Safe. -/
  | busStatusStore
  /-- A Bus Mapping register where the option is absent (R941). Raised by loads and stores. Safe. -/
  | busMapAbsent
  /-- NVRAM above the implemented size (R946). Raised by loads and stores. Safe. -/
  | nvramSize
  /-- Board configuration data other than one byte (R934). Raised by loads and stores. Safe. -/
  | boardLength
  /-- A time delay command of a length other than 1, 2 or 4, or of 7 or 8 microseconds on the listed models, which R915
  says is refused. Raised by loads and stores. Safe. -/
  | timeDelay
  /-- A bus master buffer flush by a load where it is not supported (R919). Raised by loads. Safe. -/
  | flushByLoad
  /-- A cycle of a bus master on a level personalised for a DMA slave (R886). Raised by bus cycles. Safe. -/
  | channelKind
  /-- A slot is released from reset less than 100 milliseconds after it was put into it (R940). Raised by stores. Safe. -/
  | resetHold
  /-- A DMA slave channel number above the number supported (R906, R907). Raised by bus cycles. Safe. -/
  | slaveChannel
  deriving DecidableEq, Repr

/-- An IOCC right after power-on (R961): master enable and the Component Reset register 0; the rest of log entry 38. -/
def Iocc.reset : Iocc where
  cfgReg := 0
  crr := 0
  r0 := Vector.replicate 16 0
  r4 := Vector.replicate 16 0
  r8 := Vector.replicate 16 0
  bufs := Vector.replicate 16 ⟨List.replicate 64 0, List.replicate 64 0, 0, [], 0⟩
  tcw := []
  tag := []
  limitLo := 0
  limitHi := 0
  en := 0
  misc := 0
  vec := Vector.replicate 16 0
  pm := BitVec.allOnes 16
  lines := Vector.replicate 16 0
  bsr := 0
  busMap := Vector.replicate 3 0
  anchor := 0
  delay := 0
  hold := []
  requests := []
  fault := 0

/-- The addresses the model gives the facilities of lost addresses (log entry 37): EA bits 12-15 are the channel, set
or slot, and the low digits tell the facilities apart. -/
def resetLost : List Config.LostAddr :=
  [⟨0xFF0FFF0#28, 0x0400060#28, .channelReg, 16⟩,
   ⟨0xFFFFFFF#28, 0x0400014#28, .limit, 0⟩,
   ⟨0xFF0FEF8#28, 0x0400048#28, .board, 16⟩,
   ⟨0xFF0FFFF#28, 0x0400070#28, .enable, 16⟩,
   ⟨0xFF0FFFF#28, 0x0400050#28, .slaveFlush, 16⟩,
   ⟨0xFF0FFFF#28, 0x0400054#28, .nextInvalidate, 16⟩,
   ⟨0xFF0FFFF#28, 0x0400058#28, .eoiLevel, 16⟩,
   ⟨0xFFFFFFF#28, 0x040005C#28, .eoiAll, 0⟩,
   ⟨0xFFFFFF8#28, 0x04000A0#28, .timeDelay, 0⟩]

/-- The implementation the reset state has (log entry 22). -/
def resetConfig : Config.Machine where
  impl := .power2
  lineLog := 6
  ram := [(0, 0x1000000)]
  rom := [(0xFFF00000, 0x100000)]
  sprIlcr := 28
  peisReadClears := false
  ilcrSettle := 1
  fpiDelay := 0
  fpaErratum := false
  hasOcs := false
  alignIo := false
  vectorTable := true
  burstControl := true
  devCsr15Sticky := true
  devInvopLost := true
  devReloadAddr := true
  devParityQuiet := true
  devDelaySix := true
  devProtocolUnlogged := true
  flushByLoad := false
  rmw := .prefetch
  flushZeroFill := false
  nvramBytes := 0x8000
  lost := resetLost
  tickEvery := 0x100000

/-- The machine right after power-on reset (R91, R1001). Registers the spec gives no value hold 0 (log entry 1). -/
def State.reset : State where
  cfg := resetConfig
  gpr := Vector.replicate 32 0
  mq := 0
  xer := 0
  pc := 0xFFF00100
  cr := 0
  lr := 0
  ctr := 0
  msr := 0x00000040
  srr0 := 0
  srr1 := 0
  dsisr := 0
  dar := 0
  fpr := Vector.replicate 32 0
  fpscr := 0
  fpRecent := []
  fpiWait := 0
  sr := Vector.replicate 16 0
  sdr0 := 0
  sdr1 := 0
  sdrBefore := []
  tid := 0
  rtcu := 0
  rtcl := 0
  dec := 0
  eim := 0
  eis := 0
  cil := 0
  eisbidDec := 0
  eisbidCheck := 0
  eisbidEpow := 0
  ilcrSettle := 0
  mem := []
  dc := []
  ic := []
  pf := []
  wb := []
  tlb := []
  sysReset := false
  machineCheck := false
  checkstopped := false
  ioccs := [Iocc.reset]
  nvram := []
  keylock := .normal
  busIn := []
  busLog := []
  agenda := []
  ticksRun := 0
  stepsRun := 0
  draws := 0
  lastCsr := false
  csrTouched := false
  entered := false

end Sys2Proof.Machine
end

