-- ==== Sys2Proof/Machine/Ops.lean ====
section
/-!
DEFINITION. The named operations over registers, sparse storage and free values; taking an interrupt and returning from
one (60_exceptions R680 to R722).
-/

namespace Sys2Proof.Machine

/-! ### Sparse storage -/

/-- What a sparse list holds at `k`; an unlisted key holds `d`. -/
def cellRead {α : Type} (d : α) : List (Nat × α) → Nat → α
  | [], _ => d
  | (a, v) :: l, k => if a = k then v else cellRead d l k

/-- A sparse list with `v` at `k`, in canonical form: keys rising, no entry equal to `d`. -/
def cellWrite {α : Type} [DecidableEq α] (d : α) : List (Nat × α) → Nat → α → List (Nat × α)
  | [], k, v => if v = d then [] else [(k, v)]
  | (a, x) :: l, k, v =>
    if k < a then (if v = d then (a, x) :: l else (k, v) :: (a, x) :: l)
    else if k = a then (if v = d then l else (k, v) :: l)
    else (a, x) :: cellWrite d l k v

/-- The canonical form from key `lo` on. -/
def cellsFrom {α : Type} [DecidableEq α] (d : α) : Nat → List (Nat × α) → Bool
  | _, [] => true
  | lo, (a, v) :: l => decide (lo ≤ a) && decide (v ≠ d) && cellsFrom d (a + 1) l

/-- The canonical form of a byte memory: addresses strictly rising, no entry equal to what an unlisted address reads
as. -/
def Memory.wf (m : List Host.Cell) : Bool := cellsFrom 0 0 m

/-- What an unlisted byte of memory reads as (log entry 6). -/
def Memory.unlisted : Byte := 0

/-- A list with `v` at place i, padded with zeros up to it. -/
def setPad : List Byte → Nat → Byte → List Byte
  | [], 0, v => [v]
  | [], i + 1, v => 0 :: setPad [] i v
  | _ :: l, 0, v => v :: l
  | x :: l, i + 1, v => x :: setPad l i v

/-! ### Free values (00_scope section 5.2, `undefined(n)`) -/

/-- The next free word, and the state that has drawn it. -/
def State.drawWord (s : State) : Word × State := (Config.freeWord s.draws, { s with draws := s.draws + 1 })

/-- The next free bit. -/
def State.drawBit (s : State) : Bool × State := (Config.freeBit s.draws, { s with draws := s.draws + 1 })

/-- The next free doubleword. -/
def State.drawDWord (s : State) : DWord × State := (Config.freeDWord s.draws, { s with draws := s.draws + 1 })

/-- n free bytes. -/
def State.drawBytes (s : State) (n : Nat) : List Byte × State :=
  ((List.range n).map fun i => Config.freeByte (s.draws + i), { s with draws := s.draws + n })

/-! ### Registers -/

/-- GPR[r] (R1). -/
def State.reg (s : State) (r : RegNum) : Word := s.gpr[r.toNat]'r.isLt

/-- GPR[r] <- v. -/
def State.setReg (s : State) (r : RegNum) (v : Word) : State := { s with gpr := s.gpr.set r.toNat v r.isLt }

/-- (RA|0) (R103). -/
def State.regOr0 (s : State) (r : RegNum) : Word := if r = 0 then 0 else s.reg r

/-- FPR[r] (R33). -/
def State.freg (s : State) (r : RegNum) : DWord := s.fpr[r.toNat]'r.isLt

/-- FPR[r] <- v; the register is no longer the target of an earlier arithmetic instruction (R539). -/
def State.setFreg (s : State) (r : RegNum) (v : DWord) : State :=
  { s with fpr := s.fpr.set r.toNat v r.isLt, fpRecent := s.fpRecent.filter fun e => e.1 != r }

/-- SR[n] as it was stored (R41, R655). -/
def State.segment (s : State) (n : BitVec 4) : Word := s.sr[n.toNat]'n.isLt

/-- A segment register as mfsr and mfsri return it: the reserved bits read 0, bits 3-7 with T = 0 (R42), bits 2-3 with
T = 1 (R43). -/
def segmentRead (v : Word) : Word := if bitAt v 0 then v &&& 0xCFFFFFFF else v &&& 0xE0FFFFFF

/-- SR[n] <- v: all 32 bits (R655); an access to an I/O segment sees the reserved ones (decision D35). -/
def State.setSegment (s : State) (n : BitVec 4) (v : Word) : State := { s with sr := s.sr.set n.toNat v n.isLt }

/-- The segment register an effective address selects: SR[EA[0:3]] (R41). -/
def State.segmentOf (s : State) (ea : Word) : Word := s.segment (bitsAt ea 0 4)

/-- The bits of MSR that exist (R14): the others read 0. -/
def msrMask : Config.Impl → Word
  | .power => 0x0000F8F0
  | .power2 => 0x0000FFF4

/-- MSR <- v; reserved bits stay 0 (R28). -/
def State.setMsr (s : State) (v : Word) : State := { s with msr := v &&& msrMask s.cfg.impl }

/-- MSR(EE) (R15). -/
def State.msrEE (s : State) : Bool := bitAt s.msr 16
/-- MSR(PR) (R16). -/
def State.msrPR (s : State) : Bool := bitAt s.msr 17
/-- MSR(FP) (R17). -/
def State.msrFP (s : State) : Bool := bitAt s.msr 18
/-- MSR(ME) (R18). -/
def State.msrME (s : State) : Bool := bitAt s.msr 19
/-- MSR(FE) (R19). -/
def State.msrFE (s : State) : Bool := bitAt s.msr 20
/-- MSR(SE) (R20). -/
def State.msrSE (s : State) : Bool := bitAt s.msr 21
/-- MSR(BE) (R21). -/
def State.msrBE (s : State) : Bool := bitAt s.msr 22
/-- MSR(IE) (R22). -/
def State.msrIE (s : State) : Bool := bitAt s.msr 23
/-- MSR(AL) (R23). -/
def State.msrAL (s : State) : Bool := bitAt s.msr 24
/-- MSR(IP) (R24). -/
def State.msrIP (s : State) : Bool := bitAt s.msr 25
/-- MSR(IR) (R25). -/
def State.msrIR (s : State) : Bool := bitAt s.msr 26
/-- MSR(DR) (R26). -/
def State.msrDR (s : State) : Bool := bitAt s.msr 27

/-- The bits of TID that exist (R46): the others read 0 and have no effect. -/
def tidMask : Word := 0x0000FFFF

/-- The bits of XER that exist (R3). -/
def xerMask : Word := 0xE000FF7F

/-- XER <- v; reserved bits stay 0. -/
def State.setXer (s : State) (v : Word) : State := { s with xer := v &&& xerMask }

/-- XER(SO) (R4). -/
def State.xerSO (s : State) : Bool := bitAt s.xer 0
/-- XER(CA) (R6). -/
def State.xerCA (s : State) : Bool := bitAt s.xer 2

/-- The address of the next sequential instruction: CIA + 4 modulo 2^32 (R7). -/
def State.nia (s : State) : Word := s.pc + 4

/-- The instruction completes and the next sequential one follows (R7). -/
def State.advance (s : State) : State := { s with pc := s.pc + 4 }

/-- The bits of an instruction address that count: the two low-order bits are 0 (R7). -/
def wordAlign (v : Word) : Word := v &&& 0xFFFFFFFC

/-! ### Interrupts (60_exceptions section 1) -/

/-- The interrupts other than Supervisor Call (R680). -/
inductive IntKind where
  | systemReset
  | machineCheck
  | dataStorage
  | instrStorage
  | external
  | alignment
  | program
  | fpUnavailable
  | trace
  | fpImprecise
  deriving DecidableEq, Repr

/-- The vector offset (R680, R686). -/
def vectorOffset : IntKind → Word
  | .systemReset => 0x00100
  | .machineCheck => 0x00200
  | .dataStorage => 0x00300
  | .instrStorage => 0x00400
  | .external => 0x00500
  | .alignment => 0x00600
  | .program => 0x00700
  | .fpUnavailable => 0x00800
  | .trace => 0x00900
  | .fpImprecise => 0x00A00

/-- The prefix MSR(IP) chooses (R24, R686). -/
def vectorPrefix (ip : Bool) : Word := if ip then 0xFFF00000 else 0

/-- The MSR bits an interrupt sets to 0: EE PR FP FE AL IR DR (R684), on POWER2 also SE BE IE PM (R685, decision D3),
and ME for a machine check. -/
def clearedMsr (m : Config.Impl) (k : IntKind) : Word :=
  0x0000E8B0
    ||| (match m with
      | .power => 0
      | .power2 => 0x00000704)
    ||| (if k = .machineCheck then 0x00001000 else 0)

/-- Taking an interrupt (R682): the address and the old MSR are saved, the MSR takes its new value, prefetched
instructions are discarded, execution goes to the vector. -/
def State.interrupt (s : State) (k : IntKind) (addr : Word) (info : Half) : State :=
  { s with
    srr0 := wordAlign addr
    srr1 := info ++ s.msr.extractLsb' 0 16
    msr := s.msr &&& ~~~ clearedMsr s.cfg.impl k
    pf := []
    sdrBefore := []
    pc := vectorPrefix s.msrIP + vectorOffset k
    entered := true }

/-- The kinds of Program interrupt (R709). -/
inductive ProgKind where
  | fpEnabled
  | invalid
  | privileged
  | trap
  deriving DecidableEq, Repr

/-- SRR1 bits 0-15 of a Program interrupt (R709): bit 11, 12, 13 or 14. -/
def programInfo : ProgKind → Half
  | .fpEnabled => 0x0010
  | .invalid => 0x0008
  | .privileged => 0x0004
  | .trap => 0x0002

/-- A Program interrupt of the instruction at `pc` (R707 to R709). -/
def State.program (s : State) (k : ProgKind) : State := s.interrupt .program s.pc (programInfo k)

/-- A Floating-Point Unavailable interrupt (R716). -/
def State.fpUnavailable (s : State) : State := s.interrupt .fpUnavailable s.pc 0

/-- The causes of a Data Storage interrupt (R697, R698). -/
inductive DsiCause where
  | io
  | notFound
  | lock
  | floatIo
  | protection
  | loop
  | crossing
  deriving DecidableEq, Repr

/-- DSISR bits 0-14 for a cause; bit 6 says store (R698). -/
def dsiBits (c : DsiCause) (store : Bool) : BitVec 15 :=
  (match c with
    | .io => 0x4000#15
    | .notFound => 0x2000#15
    | .lock => 0x1000#15
    | .floatIo => 0x0800#15
    | .protection => 0x0400#15
    | .loop => 0x0200#15
    | .crossing => 0x0080#15)
  ||| (if store then 0x0100#15 else 0#15)

/-- A Data Storage interrupt (R697): DSISR bits 15-31 are a free value (R698), DAR the address (R699). -/
def State.dataStorage (s : State) (c : DsiCause) (store : Bool) (dar : Word) : State :=
  let (w, s1) := s.drawWord
  { s1 with dsisr := dsiBits c store ++ w.extractLsb' 0 17, dar := dar }.interrupt .dataStorage s.pc 0

/-- DSISR after an Alignment interrupt for the instruction with this word (R705); `t` is the T bit of the segment. -/
def alignDsisr (w : Word) (t : Bool) : Word :=
  let f : BitVec 7 :=
    if bitsAt w 0 6 = 31 then bitsAt w 29 2 ++ bitsAt w 25 1 ++ bitsAt w 21 4
    else 0#2 ++ bitsAt w 5 1 ++ bitsAt w 1 4
  0#14 ++ BitVec.ofBool t ++ f ++ bitsAt w 6 10

/-- An Alignment interrupt (R704, R705): `ea` is the effective address of the instruction, which DAR takes, `access` that of
the storage access, whose segment DSISR bit 14 tells of. They differ for the second doubleword of a quad alone (log entry
32). -/
def State.alignment (s : State) (w ea : Word) (access : Word := ea) : State :=
  { s with dsisr := alignDsisr w (bitAt (s.segmentOf access) 0), dar := ea }.interrupt .alignment s.pc 0

/-- FPSCR(FEX) (R36). -/
def State.fex (s : State) : Bool := bitAt s.fpscr 1

/-- What an instruction that can set MSR does last (R710 item 2, R731 item 8): with the new MSR(FE) = 1 and
FPSCR(FEX) = 1 a Program interrupt whose SRR0 is the address of the instruction that would have executed next. -/
def State.afterMsr (s : State) : State :=
  if s.msrFE && s.fex then s.interrupt .program s.pc (programInfo .fpEnabled) else s

/-- `SerializeFetch` (R641): prefetched instructions are discarded; everything earlier has completed in program
order. -/
def State.serializeFetch (s : State) : State := { s with pf := [], sdrBefore := [] }

/-- Return from an interrupt (R292, R687): MSR[16:31] from SRR1, execution goes on at SRR0. -/
def State.returnFromInterrupt (s : State) : State :=
  ({ s.setMsr (setBits s.msr 16 16 (s.srr1.extractLsb' 0 16)) with pc := wordAlign s.srr0 }.serializeFetch).afterMsr

/-! ### Results of an access -/

/-- What an operation that may trap answers. -/
inductive Res (α : Type) where
  /-- It completes with a value. -/
  | ok (a : α) (s : State)
  /-- An interrupt has been taken. -/
  | trap (s : State)
  /-- The spec gives no behaviour. -/
  | refused (r : Refusal)
  deriving Repr

/-- Go on with the value. -/
def Res.andThen {α β : Type} (x : Res α) (f : α → State → Res β) : Res β :=
  match x with
  | .ok a s => f a s
  | .trap s => .trap s
  | .refused r => .refused r

/-- The outcome of an instruction that goes on with `f` and then completes. -/
def Res.outcome {α : Type} (x : Res α) (f : α → State → State) : Host.Outcome State Fault Refusal :=
  match x with
  | .ok a s => .next (f a s)
  | .trap s => .next s
  | .refused r => .refused r

/-- A privileged instruction (R708): in problem state the Program interrupt, before anything else. -/
def privileged (s : State) (f : Host.Outcome State Fault Refusal) : Host.Outcome State Fault Refusal :=
  if s.msrPR then .next (s.program .privileged) else f

/-- A floating-point instruction (R716): with MSR(FP) = 0 the Floating-Point Unavailable interrupt, before anything
else. -/
def needFp (s : State) (f : Host.Outcome State Fault Refusal) : Host.Outcome State Fault Refusal :=
  if s.msrFP then f else .next s.fpUnavailable

end Sys2Proof.Machine
end

