-- ==== Sys2Proof/Machine/Flags.lean ====
section
/-!
DEFINITION. The flag computations: condition register fields (10_state R8 to R11), and the carry, overflow and summary
overflow bits of XER (R4 to R6).
-/

namespace Sys2Proof.Machine

/-! ### The condition register (R8) -/

/-- CR field n (R8). -/
def State.crField (s : State) (n : CrField) : BitVec 4 := bitsAt s.cr (4 * n.toNat) 4

/-- CR field n <- v. -/
def State.setCrField (s : State) (n : CrField) (v : BitVec 4) : State :=
  { s with cr := setBits s.cr (4 * n.toNat) 4 v }

/-- CR bit i (R8). -/
def State.crBit (s : State) (i : BitVec 5) : Bool := bitAt s.cr i.toNat

/-- CR bit i <- v. -/
def State.setCrBit (s : State) (i : BitVec 5) (v : Bool) : State := { s with cr := setBit s.cr i.toNat v }

/-- The field LT || GT || EQ || fourth bit. -/
def crNibble (lt gt eq last : Bool) : BitVec 4 :=
  BitVec.ofBool lt ++ BitVec.ofBool gt ++ BitVec.ofBool eq ++ BitVec.ofBool last

/-- Comparison of two words, signed, with the fourth bit SO (R10, R426). -/
def compareSigned (a b : Word) (so : Bool) : BitVec 4 := crNibble (a.slt b) (b.slt a) (a == b) so

/-- Comparison of two words, unsigned (R427). -/
def compareUnsigned (a b : Word) (so : Bool) : BitVec 4 := crNibble (a.ult b) (b.ult a) (a == b) so

/-- `SetCR0(result)` (R10): the result as a signed word against zero, and SO as the instruction leaves it. -/
def State.setCR0 (s : State) (result : Word) : State := s.setCrField 0 (compareSigned result 0 s.xerSO)

/-- The Rc bit of a fixed-point instruction (R10). -/
def State.record (s : State) (rc : Bool) (result : Word) : State := if rc then s.setCR0 result else s

/-- The Rc bit of a floating-point instruction: CR field 1 gets FPSCR[0:3] (R11). -/
def State.recordFp (s : State) (rc : Bool) : State := if rc then s.setCrField 1 (bitsAt s.fpscr 0 4) else s

/-! ### XER (R4 to R6) -/

/-- CA <- v (R6). -/
def State.setCA (s : State) (v : Bool) : State := { s with xer := setBit s.xer 2 v }

/-- OV <- v, and SO stays 1 once an overflow has been (R4, R5). -/
def State.setOV (s : State) (v : Bool) : State :=
  { s with xer := setBit (setBit s.xer 1 v) 0 (s.xerSO || v) }

/-- The OE bit (R5): without it OV and SO keep their values. -/
def State.overflow (s : State) (oe v : Bool) : State := if oe then s.setOV v else s

/-- The carry out of bit 0 of the sum of two words and a carry (R6). -/
def carryOut (a b : Word) (c : Bool) : Bool := decide (2 ^ 32 ≤ a.toNat + b.toNat + c.toNat)

/-- The sum of two words and a carry. -/
def sum3 (a b : Word) (c : Bool) : Word := a + b + (BitVec.ofBool c).setWidth 32

/-- The sum of two signed words and a carry is not a signed word (R5). -/
def overflowOut (a b : Word) (c : Bool) : Bool :=
  let t := a.toInt + b.toInt + c.toNat
  decide (t < -2 ^ 31) || decide (2 ^ 31 ≤ t)

end Sys2Proof.Machine
end

