-- ==== Sys2Proof/Machine/Cache.lean ====
section
/-!
DEFINITION. Main memory, the two caches, the prefetch buffer and the store-back queue (20_memory R122, R130 to R135;
45_storage_control_instr R664). Real addresses are words; lines are numbers.
-/

namespace Sys2Proof.Machine

/-! ### Main memory -/

/-- The address lies in one of the extents. -/
def inExtents (l : List (Nat × Nat)) (a : Nat) : Bool := l.any fun e => decide (e.1 ≤ a) && decide (a < e.1 + e.2)

/-- There is memory at this real address (R122). -/
def State.isRam (s : State) (a : Nat) : Bool := inExtents s.cfg.ram a

/-- There is ROM at this real address (R124). -/
def State.isRom (s : State) (a : Nat) : Bool := inExtents s.cfg.rom a

/-- There is memory or ROM at this real address (R122). -/
def State.isBacked (s : State) (a : Nat) : Bool := s.isRam a || s.isRom a

/-- The byte of main memory or ROM at a real address. -/
def State.memByte (s : State) (a : Nat) : Byte := cellRead Memory.unlisted s.mem a

/-- Main memory with a byte replaced; ROM and addresses with nothing behind them do not change (R122). -/
def State.setMemByte (s : State) (a : Nat) (v : Byte) : State :=
  if s.isRam a then { s with mem := cellWrite Memory.unlisted s.mem a v } else s

/-- n bytes of main memory from a real address. -/
def State.memBytes (s : State) (a n : Nat) : List Byte := (List.range n).map fun i => s.memByte (a + i)

/-- Main memory with bytes replaced from a real address on. -/
def State.setMemBytes : List Byte → Nat → State → State
  | [], _, s => s
  | b :: l, a, s => State.setMemBytes l (a + 1) (s.setMemByte a b)

/-! ### Lines -/

/-- The size of a cache line in bytes: `CACHE_LINE` (R130). -/
def State.lineSize (s : State) : Nat := 2 ^ s.cfg.lineLog

/-- line(ra) (R133): the caches are indexed by the real address, whatever effective address named the byte and whether it was
translated, which is how R134 has its model of cache addressing, one without synonyms (decision D10, log entry 10). -/
def State.lineOf (s : State) (ra : Word) : Nat := ra.toNat / s.lineSize

/-- The place of a real byte in its line. -/
def State.lineOff (s : State) (ra : Word) : Nat := ra.toNat % s.lineSize

/-- The real address of the first byte of a line. -/
def State.lineBase (s : State) (line : Nat) : Nat := line * s.lineSize

/-- Every byte of the line has memory or ROM behind it. -/
def State.lineBacked (s : State) (line : Nat) : Bool :=
  (List.range s.lineSize).all fun i => s.isBacked (s.lineBase line + i)

/-- The data cache line of a line number, which is a real one, if present: a byte has one copy (R133, R134). -/
def State.dataLine (s : State) (line : Nat) : Option DLine := s.dc.find? fun d => d.line == line

/-- The instruction cache line of a line number, which is a real one, if present (R133, R134). -/
def State.instrLine (s : State) (line : Nat) : Option ILine := s.ic.find? fun d => d.line == line

/-! ### Store-backs (R664) -/

/-- One store-back reaches memory: bytes of memory are written; a byte with no memory behind it, or in ROM, is a
machine check condition (R122, decision D11). -/
def State.finishStoreBack (s : State) (e : StoreBack) : State :=
  let bytes := (List.range s.lineSize).map fun i => e.bytes.getD i 0
  let ok := (List.range s.lineSize).all fun i => s.isRam (s.lineBase e.line + i)
  { State.setMemBytes bytes (s.lineBase e.line) s with machineCheck := s.machineCheck || !ok }

/-- Every store-back of the list is finished, in order. -/
def State.finishAll : List StoreBack → State → State
  | [], s => s
  | e :: l, s => State.finishAll l (s.finishStoreBack e)

/-- Every store-back of a line is finished, in the order begun. -/
def State.finishLine (s : State) (line : Nat) : State :=
  { State.finishAll (s.wb.filter fun e => e.line == line) s with wb := s.wb.filter fun e => e.line != line }

/-- Every store-back is finished, in the order begun: `dcs` (R640). -/
def State.finishWb (s : State) : State := { State.finishAll s.wb s with wb := [] }

/-- A store-back of a line with these bytes is begun. -/
def State.beginStoreBack (s : State) (line : Nat) (bytes : List Byte) : State :=
  { s with wb := s.wb ++ [⟨line, bytes⟩] }

/-! ### The data cache -/

/-- A line is reloaded from memory (R133): its bytes, and the state. A line that is not wholly memory and ROM is a
machine check condition (R122); its missing bytes are free values, and whether it stays in the cache is free. -/
def State.reload (s1 : State) (line : Nat) : List Byte × State :=
  if s1.lineBacked line then
    let bytes := s1.memBytes (s1.lineBase line) s1.lineSize
    (bytes, { s1 with dc := ⟨line, bytes, false⟩ :: s1.dc })
  else
    let (free, s2) := s1.drawBytes s1.lineSize
    let bytes := (List.range s1.lineSize).map fun i =>
      if s1.isBacked (s1.lineBase line + i) then s1.memByte (s1.lineBase line + i) else free.getD i 0
    let (keep, s3) := s2.drawBit
    (bytes, { s3 with dc := if keep then ⟨line, bytes, false⟩ :: s3.dc else s3.dc, machineCheck := true })

/-- The line of a data access: its store-backs are finished first (R133, R664), and it is reloaded when it is not in the
cache. -/
def State.touchLine (s : State) (line : Nat) : List Byte × State :=
  let s1 := s.finishLine line
  match s1.dataLine line with
  | some d => (d.bytes, s1)
  | none => s1.reload line

/-- A load of one real byte (R133). -/
def State.loadReal (s : State) (ra : Word) : Byte × State :=
  let (bytes, s1) := s.touchLine (s.lineOf ra)
  (bytes.getD (s.lineOff ra) 0, s1)

/-- The data cache with one byte of a line replaced and the line modified. -/
def putByte (line off : Nat) (v : Byte) (d : DLine) : DLine :=
  if d.line == line then { d with bytes := setPad d.bytes off v, modified := true } else d

/-- A store of one real byte (R133). A store to ROM is a machine check condition and writes nothing (R122,
decision D11), but for the store-backs of the line, which it waits for like every store (R664). -/
def State.storeReal (s : State) (ra : Word) (v : Byte) : State :=
  if s.isRom ra.toNat then { s.finishLine (s.lineOf ra) with machineCheck := true }
  else
    let s1 := (s.touchLine (s.lineOf ra)).2
    { s1 with dc := s1.dc.map (putByte (s.lineOf ra) (s.lineOff ra) v) }

/-- n real bytes from an address (R135: a table look-up is an ordinary real-mode load). -/
def State.loadRealBytes : Nat → Word → State → List Byte × State
  | 0, _, s => ([], s)
  | n + 1, ra, s =>
    let (b, s1) := s.loadReal ra
    let (l, s2) := State.loadRealBytes n (ra + 1) s1
    (b :: l, s2)

/-- Real bytes are stored from an address on. -/
def State.storeRealBytes : List Byte → Word → State → State
  | [], _, s => s
  | b :: l, ra, s => State.storeRealBytes l (ra + 1) (s.storeReal ra b)

/-- `RealRead(ra, 4)`. -/
def State.realReadWord (s : State) (ra : Word) : Word × State :=
  let (l, s1) := State.loadRealBytes 4 ra s
  (wordOfBytes l, s1)

/-- `RealWrite` of a word. -/
def State.realWriteWord (s : State) (ra v : Word) : State := State.storeRealBytes (toBytes 4 v) ra s

/-- What a load of a real byte returns now, without changing the caches: the data cache's byte, else the newest
store-back's, else main memory's. This is the read of one byte that statements about memory speak of. -/
def State.dataByte (s : State) (ra : Word) : Byte :=
  match s.dataLine (s.lineOf ra) with
  | some d => d.bytes.getD (s.lineOff ra) 0
  | none =>
    match (s.wb.filter fun e => e.line == s.lineOf ra).getLast? with
    | some e => if s.isRam ra.toNat then e.bytes.getD (s.lineOff ra) 0 else s.memByte ra.toNat
    | none => s.memByte ra.toNat

/-! ### The cache instructions' effects (R642, R643, R644, R654) -/

/-- The line leaves the data cache. -/
def State.dropData (s : State) (line : Nat) : State := { s with dc := s.dc.filter fun d => d.line != line }

/-- The line leaves the instruction cache. -/
def State.dropInstr (s : State) (line : Nat) : State := { s with ic := s.ic.filter fun d => d.line != line }

/-- A modified line is stored back. -/
def State.storeBackIfModified (s : State) (line : Nat) : State :=
  match s.dataLine line with
  | some d => if d.modified then s.beginStoreBack line d.bytes else s
  | none => s

/-- `clf` (R642): stored back if modified, then removed from both caches. -/
def State.flushLine (s : State) (line : Nat) : State := ((s.storeBackIfModified line).dropData line).dropInstr line

/-- `cli` (R643): removed from both caches; modified data is discarded. -/
def State.invalidateLine (s : State) (line : Nat) : State := (s.dropData line).dropInstr line

/-- `dclst` (R644): stored back if modified; the line stays, clean. -/
def State.storeLine (s : State) (line : Nat) : State :=
  { s.storeBackIfModified line with
    dc := s.dc.map fun d => if d.line == line then { d with modified := false } else d }

/-- `dclz` (R654): the line becomes zeros, modified, without a read of memory. -/
def State.zeroLine (s : State) (line : Nat) : State :=
  let s1 := (s.finishLine line).dropData line
  { s1 with dc := ⟨line, List.replicate s.lineSize 0, true⟩ :: s1.dc }

/-- A line is evicted from the data cache by hardware (R133). -/
def State.evictData (s : State) (line : Nat) : State := (s.storeBackIfModified line).dropData line

/-- A line is loaded into the data cache by hardware, clean, as a load of it would reload it (decision D10: lines may be
loaded at any time; R133's own list has no such transition, log entry 61). A line that is not wholly memory and ROM is
not. -/
def State.fillData (s : State) (line : Nat) : State :=
  if s.lineBacked line then (s.touchLine line).2 else s

/-! ### Instruction fetch (R133, R134, R664: it does not wait for store-backs) -/

/-- A line is filled into the instruction cache from memory; `none` when it is not wholly memory and ROM. -/
def State.fillInstr (s : State) (line : Nat) : Option State :=
  if s.lineBacked line then
    some { s with ic := ⟨line, s.memBytes (s.lineBase line) s.lineSize⟩ :: s.ic }
  else none

/-- One byte through the instruction cache; `none` when its line cannot be reloaded (R122). -/
def State.fetchByte (s : State) (ra : Word) : Option (Byte × State) :=
  match s.instrLine (s.lineOf ra) with
  | some d => some (d.bytes.getD (s.lineOff ra) 0, s)
  | none =>
    match s.fillInstr (s.lineOf ra) with
    | some s1 => some (s1.memByte ra.toNat, s1)
    | none => none

/-- n bytes through the instruction cache. -/
def State.fetchBytes : Nat → Word → State → Option (List Byte × State)
  | 0, _, s => some ([], s)
  | n + 1, ra, s =>
    match s.fetchByte ra with
    | none => none
    | some (b, s1) =>
      match State.fetchBytes n (ra + 1) s1 with
      | none => none
      | some (l, s2) => some (b :: l, s2)

/-- The prefetched words of an effective address: more than one when the bytes or the context changed in between. -/
def State.prefetched (s : State) (ea : Word) : List Word := (s.pf.filter fun p => p.1 == ea).map fun p => p.2

end Sys2Proof.Machine
end

