-- ==== Sys2Proof/Machine/Timers.lean ====
section
/-!
DEFINITION. The external interrupt mechanisms of the processor and the timers (61_extint_timers).
-/

namespace Sys2Proof.Machine

/-! ### External interrupts -/

/-- Bit n of EIS, EIM or the pending set; bit 0 is the leftmost (R50, R53). -/
def levelBit (n : BitVec 6) : BitVec 64 := 1#64 <<< (63 - n.toNat)

/-- A source asks for service under the number n: sets EIS[n] on POWER (R772), posts level n on POWER2 (R781). -/
def State.signal (s : State) (n : BitVec 6) : State := { s with eis := s.eis ||| levelBit n }

/-- The Decrementer asks for service (R806). -/
def State.signalDec (s : State) : State := s.signal s.eisbidDec

/-- The most favored level pending, from level n on (R780). -/
def firstLevel (v : BitVec 64) : Nat → Nat → Option Nat
  | 0, _ => none
  | k + 1, n => if v.getMsbD n then some n else firstLevel v k (n + 1)

/-- The most favored pending level: the smallest (R780). -/
def State.minPending (s : State) : Option Nat := firstLevel s.eis 64 0

/-- The External Interrupt signal: EIRS on POWER (R761), a pending level below CIL on POWER2 (R782). -/
def State.externalSignal (s : State) : Bool :=
  match s.cfg.impl with
  | .power => s.eis &&& s.eim != 0
  | .power2 =>
    match s.minPending with
    | some l => decide (l < s.cil.toNat)
    | none => false

/-! ### The Real-Time Clock and the Decrementer -/

/-- The implemented bits of RTCL and DEC: 0 to 23 (R48, R49). -/
def timerMask : Word := 0xFFFFFF00

/-- `RTCL_TERMINAL` (R800). -/
def rtclTerminal : Word := 0x3B9AC900

/-- `RTCtick` (R800, R801): above the terminal count, when RTCL becomes 0 and whether RTCU then counts are free. -/
def State.rtcTick (s : State) : State :=
  if s.rtcl = rtclTerminal then { s with rtcl := 0, rtcu := s.rtcu + 1 }
  else if s.rtcl < rtclTerminal then { s with rtcl := s.rtcl + 256 }
  else
    let (toZero, s1) := s.drawBit
    let (carry, s2) := s1.drawBit
    let next : Word := if toZero then 0 else s.rtcl + 256
    { s2 with rtcl := next, rtcu := if next = 0 && carry then s.rtcu + 1 else s.rtcu }

/-- `DECtick` (R805): one unit down; a request when bit 0 changes from 0 to 1. -/
def State.decTick (s : State) : State :=
  let s1 := { s with dec := s.dec - 256 }
  if !bitAt s.dec 0 && bitAt s1.dec 0 then s1.signalDec else s1

/-- One tick less of the waits of an IOCC: for time delay commands (R915), for the reset of slots (R940). -/
def Iocc.tick (x : Iocc) : Iocc :=
  { x with
    delay := x.delay - 1
    hold := x.hold.filterMap fun e => if e.2 ≤ 1 then none else some (e.1, e.2 - 1) }

/-- `tick` (R799): the time base advances by one unit, and the waits of the IOCCs run down with it. -/
def State.tick (s : State) : State :=
  { s.rtcTick.decTick with
    ioccs := s.ioccs.map Iocc.tick
    ticksRun := s.ticksRun + 1
    stepsRun := 0 }

/-- The most ticks between two consecutive instructions: one second's worth (R804, decision D29). -/
def tickLimit : Nat := 3906250

/-- The time base may advance before the processor's next step (R804); a check stopped processor takes none. -/
def State.mayTick (s : State) : Bool := s.checkstopped || decide (s.ticksRun < tickLimit)

/-- The time base must advance before the processor's next step: time does not stop (R799, decision D29). -/
def State.tickDue (s : State) : Bool := decide (s.cfg.tickEvery < s.stepsRun)

/-- The processor takes a step: it ends a run of ticks (R804). -/
def State.countStep (s : State) : State := { s with ticksRun := 0, stepsRun := s.stepsRun + 1 }

/-- n ticks. -/
def State.ticks : Nat → State → State
  | 0, s => s
  | n + 1, s => State.ticks n s.tick

/-- mtspr to DEC (R807): the implemented bits are replaced; a request when bit 0 changes from 0 to 1. -/
def State.writeDec (s : State) (v : Word) : State :=
  let s1 := { s with dec := v &&& timerMask }
  if !bitAt s.dec 0 && bitAt s1.dec 0 then s1.signalDec else s1

/-! ### ILCR (POWER2) -/

/-- mfspr from ILCR (R784): X'0000' || CIL || PIL; the level returned is no longer pending. -/
def State.readIlcr (s : State) : Word × State :=
  match s.minPending with
  | none => (0#16 ++ s.cil ++ 255#8, s)
  | some l => (0#16 ++ s.cil ++ BitVec.ofNat 8 l, { s with eis := s.eis &&& ~~~ levelBit (BitVec.ofNat 6 l) })

/-- mtspr to ILCR (R785): the command in bits 0-7 of the source; `none` for a level above 63 (decision D32). -/
def State.ilcrCommand (s : State) (v : Word) : Option State :=
  let level := bitsAt v 24 8
  if bitsAt v 0 8 = 0 then some { s with cil := bitsAt v 16 8 }
  else if bitsAt v 0 8 = 1 then
    if level.toNat < 64 then some { s with eis := s.eis &&& ~~~ levelBit (level.setWidth 6) } else none
  else if bitsAt v 0 8 = 2 then
    if level.toNat < 64 then some { s with eis := s.eis ||| levelBit (level.setWidth 6) } else none
  else some s

end Sys2Proof.Machine
end

