-- ==== Sys2Proof/Machine/Iocc.lean ====
section
/-!
DEFINITION. The I/O Channel Controller as an agent: its registers and errors, the TCW and tag tables, buffers, bus master
and DMA slave channels, arbitration, the bus cycles of the processor, interrupt presentation, reset (62_iocc,
63_iocc_channels, 64_iocc_facilities). The load and store path of the processor is in Machine/IoAccess.lean.
-/

namespace Sys2Proof.Machine

/-! ### Access to one IOCC -/

/-- IOCC number k; an absent one reads as a reset one. -/
def State.iocc (s : State) (k : Nat) : Iocc := s.ioccs.getD k Iocc.reset

/-- IOCC number k replaced. -/
def State.setIocc (s : State) (k : Nat) (x : Iocc) : State := { s with ioccs := s.ioccs.set k x }

/-- IOCC number k changed by f. -/
def State.onIocc (s : State) (k : Nat) (f : Iocc → Iocc) : State := s.setIocc k (f (s.iocc k))

/-- Register 0 of a set: the Channel Status register of channel c (R882). -/
def Iocc.csr (x : Iocc) (c : BitVec 4) : Word := x.r0[c.toNat]'c.isLt
/-- Register 4 of a set (R884). -/
def Iocc.reg4 (x : Iocc) (c : BitVec 4) : Word := x.r4[c.toNat]'c.isLt
/-- Register 8 of a set (R885). -/
def Iocc.reg8 (x : Iocc) (c : BitVec 4) : Word := x.r8[c.toNat]'c.isLt
/-- Buffer c (R829). -/
def Iocc.buf (x : Iocc) (c : BitVec 4) : Buffer := x.bufs[c.toNat]'c.isLt
/-- The vector of level L (R928). -/
def Iocc.vector (x : Iocc) (l : BitVec 4) : BitVec 6 := x.vec[l.toNat]'l.isLt

/-- A Channel Status register replaced. -/
def Iocc.setCsr (x : Iocc) (c : BitVec 4) (v : Word) : Iocc := { x with r0 := x.r0.set c.toNat v c.isLt }
/-- A register 4 replaced. -/
def Iocc.setReg4 (x : Iocc) (c : BitVec 4) (v : Word) : Iocc := { x with r4 := x.r4.set c.toNat v c.isLt }
/-- A register 8 replaced. -/
def Iocc.setReg8 (x : Iocc) (c : BitVec 4) (v : Word) : Iocc := { x with r8 := x.r8.set c.toNat v c.isLt }
/-- A buffer replaced. -/
def Iocc.setBuf (x : Iocc) (c : BitVec 4) (b : Buffer) : Iocc := { x with bufs := x.bufs.set c.toNat b c.isLt }
/-- A vector replaced. -/
def Iocc.setVector (x : Iocc) (l : BitVec 4) (v : BitVec 6) : Iocc := { x with vec := x.vec.set l.toNat v l.isLt }

/-- Bit L of a 16-bit register whose bit 0 is the most significant. -/
def levelOf (v : Half) (l : BitVec 4) : Bool := v.getMsbD l.toNat

/-- A 16-bit register with bit L replaced. -/
def setLevel (v : Half) (l : BitVec 4) (b : Bool) : Half :=
  if b then v ||| (0x8000#16 >>> l.toNat) else v &&& ~~~ (0x8000#16 >>> l.toNat)

/-! ### The Configuration register (R935, R937) -/

/-- CFG(0), Master Enable. -/
def Iocc.masterEnable (x : Iocc) : Bool := bitAt x.cfgReg 0

/-- How the buffers work: CFG bits 26-27; the codes 10 and 11 are reserved (R935). -/
inductive BufferMode where
  | buffered
  | unbuffered
  | reserved
  deriving DecidableEq, Repr

/-- See `BufferMode`. -/
def Iocc.bufferMode (x : Iocc) : BufferMode :=
  if bitsAt x.cfgReg 26 2 = 0 then .buffered else if bitsAt x.cfgReg 26 2 = 1 then .unbuffered else .reserved

/-- DMA slaves use TCWs, and there are no tags (R937): CFG bit 25. -/
def Iocc.withoutTags (x : Iocc) : Bool := bitAt x.cfgReg 25

/-- The code of the table's size (R937): CFG bits 9-11. -/
def Iocc.sizeCode (x : Iocc) : Nat := (bitsAt x.cfgReg 9 3).toNat

/-- The TCWs beside a tag table: the memory of the tables but for the words of 4096 tags (R937). -/
def Iocc.tcwsWithTags (x : Iocc) : Nat := (32 * 2 ^ x.sizeCode - 8) * 1024

/-- `NTCW` (R937); `none` for the codes the table does not list. -/
def Iocc.ntcw (x : Iocc) : Option Nat :=
  if x.withoutTags then some (8 * 1024 * 2 ^ x.sizeCode)
  else if x.sizeCode < 6 then some x.tcwsWithTags
  else none

/-- The TCW and tag tables are in system memory (R935, R939): CFG bit 23. -/
def Iocc.tablesInMemory (x : Iocc) : Bool := bitAt x.cfgReg 23

/-- The words of the tag table (R897): 4096 tags of two. -/
def tagWords : Nat := 2 * 4096

/-- The real address of word n of the tables in system memory (R939): they are continuous from the starting address on, and
the address wraps as every real address does. -/
def Iocc.tablePlace (x : Iocc) (n : Nat) : Word := Config.tableStart x.anchor + BitVec.ofNat 32 (4 * n)

/-- The place of TCW p in system memory: the TCWs come first, or after the tags where there are tags (log entry 47). -/
def Iocc.tcwPlace (x : Iocc) (p : Nat) : Word :=
  x.tablePlace (if Config.tagsFirst && !x.withoutTags then tagWords + p else p)

/-- The place of word n of the tag table in system memory: after the TCWs, or first. -/
def Iocc.tagPlace (x : Iocc) (n : Nat) : Word := x.tablePlace (if Config.tagsFirst then n else x.tcwsWithTags + n)

/-- The tag table is in system memory (R939). Without tags all the memory of the tables holds TCWs (R937), and the tag storage is
the IOCC's own (log entry 62). -/
def Iocc.tagsInMemory (x : Iocc) : Bool := x.tablesInMemory && !x.withoutTags

/-- A word of a table in system memory (R939); `none` where there is no memory, a table access error. -/
def State.tableRead (s : State) (a : Word) : Option Word :=
  if (List.range 4).all fun i => s.isRam (a.toNat + i) then some (wordOfBytes (s.memBytes a.toNat 4)) else none

/-- A word of a table in system memory replaced. -/
def State.tableWrite (s : State) (a v : Word) : State := State.setMemBytes (toBytes 4 v) a.toNat s

/-- What a look-up of a TCW answers (R850). -/
inductive TcwLook where
  | tcw (t : Word)
  | absent
  /-- A TCW access error (R939). -/
  | error
  | refused (r : Refusal)
  deriving DecidableEq, Repr

/-- `TCWLookup(p)` (R850, R855): in the IOCC's own RAM, or in system memory at the anchor (R939). -/
def tcwLookup (k p : Nat) (s : State) : TcwLook :=
  let x := s.iocc k
  match x.ntcw with
  | none => .refused .configCode
  | some n =>
    if n ≤ p then .absent
    else if x.tablesInMemory then
      match s.tableRead (x.tcwPlace p) with
      | some t => .tcw t
      | none => .error
    else .tcw (cellRead 0 x.tcw p)

/-- TCW[p] <- t. -/
def setTcw (k p : Nat) (t : Word) (s : State) : State :=
  if (s.iocc k).tablesInMemory then s.tableWrite ((s.iocc k).tcwPlace p) t
  else s.onIocc k fun x => { x with tcw := cellWrite 0 x.tcw p t }

/-- TCW[p] changed by f, if there is such a TCW. -/
def updateTcw (k p : Nat) (f : Word → Word) (s : State) : State :=
  match tcwLookup k p s with
  | .tcw t => setTcw k p (f t) s
  | _ => s

/-- Word n of the tag table (R897, R939), two words to a tag; `none` is a tag access error. -/
def tagWord (k n : Nat) (s : State) : Option Word :=
  let x := s.iocc k
  if x.tagsInMemory then s.tableRead (x.tagPlace n) else some (cellRead 0 x.tag n)

/-- Word n of the tag table replaced. -/
def setTagWord (k n : Nat) (v : Word) (s : State) : State :=
  if (s.iocc k).tagsInMemory then s.tableWrite ((s.iocc k).tagPlace n) v
  else s.onIocc k fun x => { x with tag := cellWrite 0 x.tag n v }

/-- The page number of a bus address: ba[0:19]. -/
def busPage (ba : Word) : Nat := ba.toNat / 4096

/-! ### Slots held in reset (R940) -/

/-- The Component Reset register holds a slot in reset (R940): slots 0 to 7, and the Standard I/O, slot 15. The other numbers
are no slots, and nothing is in them. -/
def Iocc.slotHeld (x : Iocc) (slot : BitVec 4) : Bool :=
  if slot.toNat < 8 then !bitAt x.crr slot.toNat else if slot = 15 then !bitAt x.crr 31 else true

/-- The Standard I/O is held in reset: CRR bit 31 is 0. -/
def Iocc.standardHeld (x : Iocc) : Bool := !bitAt x.crr 31

/-- The eight slots are held in reset: CRR bits 0-7 are 0. -/
def Iocc.slotsHeld (x : Iocc) : Bool := bitsAt x.crr 0 8 == 0

/-- Every device that could answer a cycle is held in reset: at the bus I/O addresses of the Standard I/O (R947) it, at
others every slot, and in bus memory all. -/
def Iocc.allHeld (x : Iocc) (sp : BusSpace) (addr : Word) : Bool :=
  match sp with
  | .io => if addr.toNat < 0x100 then x.standardHeld else x.slotsHeld
  | _ => x.slotsHeld && x.standardHeld

/-- The sixteen levels, channels or slots. -/
def sixteen : List (BitVec 4) := (List.range 16).map (BitVec.ofNat 4)

/-- The ticks of 100 milliseconds (R940). -/
def holdTicks : Nat := 390625

/-- CRR <- v (R940): a slot that is put into reset must be held for 100 milliseconds, and asks for nothing any more. -/
def Iocc.setCrr (x : Iocc) (v : Word) : Iocc :=
  let y := { x with crr := v }
  { y with
    hold := x.hold ++ ((sixteen.filter fun i => !x.slotHeld i && y.slotHeld i).map fun i => (i, holdTicks))
    requests := x.requests.filter fun r => !y.slotHeld r.slot }

/-- A store of v to CRR releases a slot that has not been held for 100 milliseconds (R940). -/
def Iocc.releasesEarly (x : Iocc) (v : Word) : Bool := x.hold.any fun e => !{ x with crr := v }.slotHeld e.1

/-! ### Errors -/

/-- The error action of the load and store path (R835, R836): the code goes to CSR15 bits 0-3 if none is there, and bits
6-31 become a free value (log entry 42). -/
def logCsr15 (k : Nat) (code : Option (BitVec 4)) (s : State) : State :=
  match code with
  | none => s
  | some c =>
    let v := (s.iocc k).csr 15
    if bitsAt v 0 4 = 0 && !(s.cfg.devInvopLost && c == 1 && s.lastCsr) then
      let (w, s1) := s.drawWord
      s1.onIocc k fun x => x.setCsr 15 (c ++ bitsAt v 4 2 ++ w.extractLsb' 0 26)
    else s

/-- A cycle is appended to the trace. -/
def State.logBus (s : State) (k : Nat) (sp : BusSpace) (addr : Word) (store feedback : Bool) (bytes : List Byte) :
    State :=
  { s with busLog := ⟨k, sp, addr, store, feedback, bytes⟩ :: s.busLog }

/-- A signal to the device of a channel is pulsed. -/
def State.pulse (s : State) (k : Nat) (sp : BusSpace) (c : BitVec 4) : State :=
  s.logBus k sp (c.setWidth 32) false true []

/-- `bmerr` (R890): the code and the page go to the channel's CSR, and 'chck' is pulsed. On the listed models the page
does not after a system address error that a TCW reload preceded. -/
def bmErr (k : Nat) (c : BitVec 4) (code : BitVec 4) (reload : Bool) (ba : Word) (s : State) : State :=
  let page (v : Word) : BitVec 20 :=
    if s.cfg.devReloadAddr && reload && code == 0xD then bitsAt v 6 20 else bitsAt ba 0 20
  (s.onIocc k fun x =>
    x.setCsr c (code ++ bitsAt (x.csr c) 4 2 ++ page (x.csr c) ++ bitsAt (x.csr c) 26 6)).pulse k .channelCheck c

/-- `dmaerr` (R909): the code goes to the channel's CSR and 'tc' is pulsed; nothing else changes. -/
def dmaErr (k : Nat) (c : BitVec 4) (code : BitVec 4) (s : State) : State :=
  (s.onIocc k fun x => x.setCsr c (setBits (x.csr c) 0 4 code)).pulse k .terminalCount c

/-- `BusTimeout` (R848). The Bus Status register latches only the first error (R938). -/
def busTimeout (k : Nat) (signals : Byte) (s : State) : State :=
  s.onIocc k fun x => Iocc.setCrr
    { x with
      bsr := if x.misc.getMsbD 1 then x.bsr else signals
      misc := x.misc ||| 0b010#3
      cfgReg := setBit x.cfgReg 0 false } 0

/-- The hardware fault that waits for an access it can concern (R836, R886, R901, R912): its code, and the state without
it. -/
def takeFault (k : Nat) (codes : List (BitVec 4)) (s : State) : Option (BitVec 4 × State) :=
  let code := (s.iocc k).fault
  if codes.contains code then some (code, s.onIocc k fun x => { x with fault := 0 }) else none

/-- n bytes of which the first ones are given and the rest free. -/
def fillBytes (n : Nat) (l : List Byte) (s : State) : List Byte × State :=
  let (free, s1) := s.drawBytes n
  ((List.range n).map fun i => if i < l.length then l.getD i 0 else free.getD i 0, s1)

/-! ### System memory as the IOCC sees it (R864, R860) -/

/-- A byte of system memory: main memory in the buffered mode, the view the processor has in the unbuffered one
(decision D44), where an address without memory is a machine check condition, as for the processor (log entry 49). -/
def sysRead (k : Nat) (a : Nat) (s : State) : Byte × State :=
  match (s.iocc k).bufferMode with
  | .unbuffered => s.loadReal (BitVec.ofNat 32 a)
  | _ => (s.memByte a, s)

/-- A byte of system memory replaced; in the unbuffered mode as the processor stores, with a machine check condition where
there is no memory, and for ROM (log entry 49). -/
def sysWrite (k : Nat) (a : Nat) (v : Byte) (s : State) : State :=
  match (s.iocc k).bufferMode with
  | .unbuffered => s.storeReal (BitVec.ofNat 32 a) v
  | _ => s.setMemByte a v

/-! ### Buffers (R886) -/

/-- The real address of the line a buffer holds: RPN of its TCW, then bus address bits A11 to A6. -/
def Iocc.lineAddr (x : Iocc) (b : BitVec 4) : Nat :=
  (bitsAt (x.reg4 b) 0 20 ++ bitsAt (x.reg8 b) 26 6 ++ 0#6 : Word).toNat

/-- The byte j of a buffer that goes back to memory: what a device wrote, else by the read-modify-write (R886). -/
def keepByte (rmw : Config.Rmw) (b : Buffer) (j : Nat) : Option Byte :=
  if b.written.getLsbD j then some (b.bytes.getD j 0)
  else
    match rmw with
    | .prefetch => some (b.snapshot.getD j 0)
    | .postfetch => none

/-- The bytes of a buffer from j on go back to memory at `base`. -/
def writeBack (rmw : Config.Rmw) (b : Buffer) (base : Nat) : Nat → Nat → State → State
  | 0, _, s => s
  | n + 1, j, s =>
    writeBack rmw b base n (j + 1)
      (match keepByte rmw b j with
        | some v => s.setMemByte (base + j) v
        | none => s)

/-- A buffer is valid and dirty: a cast-out transfers it (R886). -/
def Iocc.castsOut (x : Iocc) (b : BitVec 4) : Bool := !bitAt (x.reg8 b) 2 && bitAt (x.reg8 b) 0

/-- `CastOut(b)` (R886): a valid and dirty buffer goes back to system memory. -/
def castOut (k : Nat) (b : BitVec 4) (s : State) : State :=
  let x := s.iocc k
  if x.castsOut b then
    (writeBack s.cfg.rmw (x.buf b) (x.lineAddr b) 64 0 s).onIocc k fun x =>
      x.setReg8 b (setBits (x.reg8 b) 0 3 0b001#3)
  else s

/-- Every byte of a 64-byte line is memory: the memory controller acknowledges the address (R892, code 1101). -/
def lineAcknowledged (s : State) (base : Nat) : Bool := (List.range 64).all fun i => s.isRam (base + i)

/-- What an access of a mapped cycle to system memory answers. -/
inductive LineRes where
  | ok (s : State)
  /-- A system memory error with this code ends the cycle. -/
  | err (code : BitVec 4) (s : State)
  deriving Repr

/-- An access of a mapped cycle to system memory (R886, R892): a fault that waits, code 1100 or 1101, ends the cycle there,
and an address that is not acknowledged does with code 1101. -/
def systemAccess (k : Nat) (acknowledged : Bool) (s : State) : LineRes :=
  match takeFault k [0xC, 0xD] s with
  | some (code, s1) => .err code s1
  | none => if acknowledged then .ok s else .err 0xD s

/-- `CastOut(b)` in a cycle, with the system memory errors it can meet (R886). A fault that waits comes now or, by a free
choice, only with the line fetch. On an error nothing of the line has been stored, and the buffer stays as it was (log entry
49). -/
def castOutLine (k : Nat) (b : BitVec 4) (s : State) : LineRes :=
  let x := s.iocc k
  let found := lineAcknowledged s (x.lineAddr b)
  if !x.castsOut b then .ok s
  else
    let (later, s1) := if x.fault = 0xC || x.fault = 0xD then s.drawBit else (false, s)
    match if later && found then .ok s1 else systemAccess k found s1 with
    | .ok s2 => .ok (castOut k b s2)
    | .err code s2 => .err code s2

/-- A buffer with the bytes it has not been written replaced by memory's, which it then holds a snapshot of. -/
def loadBuffer (s : State) (base : Nat) (b : Buffer) : Buffer :=
  let mem := s.memBytes base 64
  { b with
    bytes := (List.range 64).map fun j => if b.written.getLsbD j then b.bytes.getD j 0 else mem.getD j 0
    snapshot := mem }

/-- What a cycle of a bus master answers. -/
inductive MasterRes where
  | ok (b : Byte) (s : State)
  /-- An error with this code; `reload` says that the cycle had fetched the TCW. -/
  | err (code : BitVec 4) (reload : Bool) (s : State)
  | refused (r : Refusal)
  deriving Repr

/-- The reference bit of a TCW, and with a write its change bit (R852). -/
def tcwBits (write : Bool) : Word := if write then 0x0000000C else 0x00000008

/-- Reference and change of a TCW, in the table and in the copy (R852, R884, decision D46). -/
def touchTcw (k : Nat) (b : BitVec 4) (p : Nat) (write : Bool) (s : State) : State :=
  (updateTcw k p (· ||| tcwBits write) s).onIocc k fun x => x.setReg4 b (x.reg4 b ||| tcwBits write)

/-- The second buffer of a pair holds the line at a real address (R893). -/
def Iocc.readsAhead (x : Iocc) (b : BitVec 4) (base : Nat) : Bool :=
  bitAt x.cfgReg 24 && bitAt (x.reg8 b) 3 && (x.buf b).ahead != [] && (x.buf b).aheadAt == base

/-- A buffer with the line that had been read ahead (R893). -/
def Buffer.useAhead (b : Buffer) : Buffer := { b with bytes := b.ahead, snapshot := b.ahead, written := 0, ahead := [] }

/-- The line of a reading access enters an empty buffer: from the second buffer where it holds the line, else from
memory. -/
def Iocc.loadLine (x : Iocc) (b : BitVec 4) (base : Nat) (s : State) : Buffer :=
  if x.readsAhead b base then (x.buf b).useAhead else loadBuffer s base { x.buf b with written := 0, ahead := [] }

/-- The line of an access enters buffer b, once register 8 names it (R886). With the postfetch method a line that is written comes
only when it is read or cast out. N is kept (R886); a copy that was read ahead is used if it is of this line and read, and dropped
if not, of which R893 says nothing (log entry 49, DESIGN CHOICE). -/
def bufferFill (k : Nat) (b : BitVec 4) (base : Nat) (write : Bool) (s : State) : State :=
  let lazy := write && s.cfg.rmw == .postfetch
  s.onIocc k fun x =>
    let empty : Buffer := { x.buf b with written := 0, ahead := [] }
    let r8 := setBits (x.reg8 b) 0 3 (if lazy then 0b000#3 else 0b010#3)
    (x.setBuf b (if lazy then empty else if write then loadBuffer s base empty else x.loadLine b base s)).setReg8 b r8

/-- The bytes of a line first touched by a write, with the postfetch method: they come when the device reads the line, and bit 1 of
register 8 is set. R886 says only that such a line is not read until it is cast out and that the bit stays 0, and nothing of a
read of it (log entry 49, DESIGN CHOICE). -/
def bufferMerge (k : Nat) (b : BitVec 4) (base : Nat) (s : State) : State :=
  s.onIocc k fun x => (x.setBuf b (loadBuffer s base (x.buf b))).setReg8 b (setBit (x.reg8 b) 1 true)

/-- `f` on the state after an access to memory, unless that failed. -/
def LineRes.map (r : LineRes) (f : State → State) : LineRes :=
  match r with
  | .ok s => .ok (f s)
  | .err code s => .err code s

/-- A line that is not in buffer b comes into it (R886): the old line is cast out, register 8 names the new one, and the line
is fetched; but not from memory where the second buffer holds it, nor at once for a write with the postfetch method. -/
def newLine (k : Nat) (b : BitVec 4) (line : BitVec 6) (base : Nat) (write : Bool) (s : State) : LineRes :=
  match castOutLine k b s with
  | .err code s1 => .err code s1
  | .ok s1 =>
    let s2 := s1.onIocc k fun x => x.setReg8 b (setBits (x.reg8 b) 26 6 line)
    let fetches := if write then s.cfg.rmw != .postfetch else !(s2.iocc k).readsAhead b base
    (if fetches then systemAccess k (lineAcknowledged s2 base) s2 else .ok s2).map (bufferFill k b base write)

/-- Buffer b holds the line of an access, to be read or written, or gets it now (R886). -/
def bufferLine (k : Nat) (b : BitVec 4) (line : BitVec 6) (base : Nat) (write : Bool) (s : State) : LineRes :=
  let r8 := (s.iocc k).reg8 b
  if bitAt r8 2 || bitsAt r8 26 6 != line then newLine k b line base write s
  else if !write && s.cfg.rmw == .postfetch && !bitAt r8 1 then
    (systemAccess k (lineAcknowledged s base) s).map (bufferMerge k b base)
  else .ok s

/-- The byte of a buffered cycle (R886): the device receives it, or it goes into the buffer. -/
def bufferByte (k : Nat) (b : BitVec 4) (o : Nat) (write : Option Byte) (s : State) : Byte × State :=
  (((s.iocc k).buf b).bytes.getD o 0,
    match write with
    | none => s
    | some v =>
      s.onIocc k fun x =>
        (x.setBuf b { x.buf b with
          bytes := setPad (x.buf b).bytes o v
          written := (x.buf b).written ||| (1#64 <<< o) }).setReg8 b (setBit (x.reg8 b) 0 true))

/-- The four tests of a TCW for a mapped cycle (R886): the code of the error, if one fails. `free` skips the authority
tests (a processor access with K = 0). -/
def tcwFault (csr t : Word) (write free : Bool) : Option (BitVec 4) :=
  if bitsAt t 30 2 = 1 then some 6
  else if !bitAt t 30 then some 6
  else if !free && !bitAt csr (16 + (bitsAt t 25 3).toNat) then some 5
  else if !free && write && !bitAt t 31 then some 5
  else none

/-- A buffered cycle from where register 4 of buffer b holds the TCW of the page (R886): the tests, the line, the
byte. `reload` says that the cycle fetched the TCW. -/
def bufferCycle (k : Nat) (c b : BitVec 4) (ba : Word) (write : Option Byte) (free reload : Bool) (s : State) :
    MasterRes :=
  let x := s.iocc k
  let t := x.reg4 b
  match tcwFault (x.csr c) t write.isSome free with
  | some code => .err code reload s
  | none =>
    let base := (bitsAt t 0 20 ++ bitsAt ba 20 6 ++ 0#6 : Word).toNat
    match bufferLine k b (bitsAt ba 20 6) base write.isSome s with
    | .err code s1 => .err code reload s1
    | .ok s1 =>
      let (got, s2) := bufferByte k b (bitsAt ba 26 6).toNat write s1
      .ok got (touchTcw k b (busPage ba) write.isSome s2)

/-- Buffer b has a valid copy of the TCW of the page of `ba` (R886). -/
def Iocc.holdsPage (x : Iocc) (b : BitVec 4) (ba : Word) : Bool :=
  !bitAt (x.reg8 b) 2 && bitsAt (x.reg8 b) 6 20 == bitsAt ba 0 20

/-- One byte of a mapped cycle in the buffered mode (R886). The buffer number of a TCW that is fetched goes to bits 12-15 of
the channel's Channel Status register, for a processor access (R854) those of CSR15 (log entry 42). -/
def bufferedByte (k : Nat) (c : BitVec 4) (ba : Word) (write : Option Byte) (free : Bool) (s : State) : MasterRes :=
  let x := s.iocc k
  let b := bitsAt (x.csr c) 12 4
  if x.holdsPage b ba then bufferCycle k c b ba write free false s
  else
    match tcwLookup k (busPage ba) s with
    | .refused r => .refused r
    | .absent => .err 7 true s
    | .error => .err 0xE true s
    | .tcw t =>
      let b := bitsAt t 20 4
      let s1 := s.onIocc k fun x => x.setCsr c (setBits (x.csr c) 12 4 b)
      if (s1.iocc k).holdsPage b ba then bufferCycle k c b ba write free true s1
      else
        match castOutLine k b s1 with
        | .err code s2 => .err code true s2
        | .ok s2 =>
          bufferCycle k c b ba write free true
            (s2.onIocc k fun x => (x.setReg4 b t).setReg8 b (0b0010#4 ++ 0#2 ++ bitsAt ba 0 26))

/-- One byte of a mapped cycle in the unbuffered mode (R887). -/
def directByte (k : Nat) (c : BitVec 4) (ba : Word) (write : Option Byte) (free : Bool) (s : State) : MasterRes :=
  match tcwLookup k (busPage ba) s with
  | .refused r => .refused r
  | .absent => .err 7 true s
  | .error => .err 0xE true s
  | .tcw t =>
    match tcwFault ((s.iocc k).csr c) t write.isSome free with
    | some code => .err code true s
    | none =>
      let a := (bitsAt t 0 20 ++ bitsAt ba 20 12 : Word).toNat
      match systemAccess k (s.isRam a) s with
      | .err code s1 => .err code true s1
      | .ok s1 =>
        let (got, s2) :=
          match write with
          | none => sysRead k a s1
          | some v => (0, sysWrite k a v s1)
        .ok got (updateTcw k (busPage ba) (· ||| tcwBits write.isSome) s2)

/-- One byte of a cycle mapped to system memory. -/
def mappedByte (k : Nat) (c : BitVec 4) (ba : Word) (write : Option Byte) (free : Bool) (s : State) : MasterRes :=
  match (s.iocc k).bufferMode with
  | .buffered => bufferedByte k c ba write free s
  | .unbuffered => directByte k c ba write free s
  | .reserved => .refused .configCode

/-- What several bytes of a mapped cycle answer. -/
inductive MasterBytes where
  | ok (l : List Byte) (s : State)
  /-- An error as `MasterRes.err` has it; these bytes had been read before it. -/
  | err (code : BitVec 4) (reload : Bool) (got : List Byte) (s : State)
  | refused (r : Refusal)
  deriving Repr

/-- The scan of lscbx ends within these bytes (R358); other accesses look for no byte. -/
def scanEnds (upTo : Option Byte) (l : List Byte) : Bool :=
  match upTo with
  | some c => l.contains c
  | none => false

/-- n bytes read through the mapping, in ascending order, or those up to the byte that a scan looks for. -/
def mappedRead (k : Nat) (c : BitVec 4) (free : Bool) (upTo : Option Byte) : Nat → Word → State → MasterBytes
  | 0, _, s => .ok [] s
  | n + 1, ba, s =>
    match mappedByte k c ba none free s with
    | .err code reload s1 => .err code reload [] s1
    | .refused r => .refused r
    | .ok b s1 =>
      if scanEnds upTo [b] then .ok [b] s1
      else
        match mappedRead k c free upTo n (ba + 1) s1 with
        | .ok l s2 => .ok (b :: l) s2
        | .err code reload l s2 => .err code reload (b :: l) s2
        | .refused r => .refused r

/-- Bytes written through the mapping, in ascending order. -/
def mappedWrite (k : Nat) (c : BitVec 4) (free : Bool) : List Byte → Word → State → MasterBytes
  | [], _, s => .ok [] s
  | b :: l, ba, s =>
    match mappedByte k c ba (some b) free s with
    | .err code reload s1 => .err code reload [] s1
    | .refused r => .refused r
    | .ok _ s1 => mappedWrite k c free l (ba + 1) s1

/-- n bytes read, or these bytes written, through the mapping. -/
def mappedBytes (k : Nat) (c : BitVec 4) (free : Bool) (upTo : Option Byte) (n : Nat) (write : Option (List Byte))
    (ba : Word) (s : State) : MasterBytes :=
  match write with
  | some l => mappedWrite k c free l ba s
  | none => mappedRead k c free upTo n ba s

/-! ### Bus masters (R886 to R892) -/

/-- `BusMapBit(ba)` (R941). -/
def Iocc.busMapBit (x : Iocc) (ba : Word) : Bool :=
  let a := ba.toNat
  if a < 0x800000 then bitAt (x.busMap[0]) (a / 0x40000)
  else if a < 0x1000000 then bitAt (x.busMap[1]) ((a - 0x800000) / 0x40000)
  else if a < 0x4000000 then bitAt (x.busMap[2]) 0
  else if a < 0x40000000 then bitAt (x.busMap[2]) (a / 0x4000000)
  else true

/-- The outcome of an agent's move. -/
inductive MoveRes where
  | ok (s : State)
  | refused (r : Refusal)
  deriving Repr

/-- What happens between two cycles on the bus (R841). -/
inductive Break where
  /-- The next cycle follows. -/
  | go (s : State)
  /-- The bus has timed out: the cycles that remain are not made (R848). -/
  | timeout (s : State)
  | refused (r : Refusal)
  deriving Repr

/-- Bus masters and DMA slaves get no cycle (R848, R960): the IOCC is absent, the channel is the processor's, master
enable is 0, or a bus timeout is reported. -/
def noArbitration (k : Nat) (c : BitVec 4) (s : State) : Bool :=
  let x := s.iocc k
  decide (s.ioccs.length ≤ k) || c == 15 || !x.masterEnable || x.misc.getMsbD 1

/-- The space a bus master addresses (R827, R889). -/
def busSpace (ba : Word) : BusSpace := if ba.toNat < 0x10000 then .io else .memory

/-- A cycle of a bus master on a disabled channel, or on one with an error (R891): 'chck' and no 'sfdbkrtn'; a read sees
ones and a write is not taken. On the listed models 'chck' is not repeated after a data parity error. -/
def refusedCycle (k : Nat) (c : BitVec 4) (ba : Word) (n : Nat) (write : Bool) (s : State) : State :=
  let s1 := s.logBus k (busSpace ba) ba write false (if write then [] else List.replicate n 0xFF)
  if s.cfg.devParityQuiet && bitsAt ((s.iocc k).csr c) 0 4 == 9 then s1 else s1.pulse k .channelCheck c

/-- A cycle of a bus master ends in an error (R890): no data is taken or supplied, and 'sfdbkrtn' is withheld for a TCW
extent error and an address parity error. -/
def failedCycle (k : Nat) (c : BitVec 4) (code : BitVec 4) (reload : Bool) (ba : Word) (write : Bool) (s : State) :
    State :=
  bmErr k c code reload ba (s.logBus k (busSpace ba) ba write (code != 7 && code != 0xA) [])

/-- `BusMasterCycle` (R886, R887): n bytes at a bus address; `write` holds the bytes the device drives. What a read
supplies goes to the trace. -/
def busMasterCycle (k : Nat) (c : BitVec 4) (ba : Word) (n : Nat) (write : Option (List Byte)) (s : State) : MoveRes :=
  let x := s.iocc k
  let v := x.csr c
  let done (s : State) (l : List Byte) : MoveRes := .ok (s.logBus k (busSpace ba) ba write.isSome true l)
  if bitAt v 4 then .refused .channelKind
  else if bitsAt v 0 2 ≠ 0 || !bitAt v 3 then .ok (refusedCycle k c ba n write.isSome s)
  else if !bitAt v 2 || ba.toNat < 0x10000 || (bitAt x.cfgReg 24 && !x.busMapBit ba) then done s (write.getD [])
  else
    match mappedBytes k c false none n write ba s with
    | .ok l s1 => done s1 (write.getD l)
    | .err code reload _ s1 => .ok (failedCycle k c code reload ba write.isSome s1)
    | .refused r => .refused r

/-! ### DMA slaves (R896 to R911) -/

/-- The line address of the last byte a DMA slave moved: register 4 minus 1, low six bits cleared (R904). -/
def slaveLine (a : Word) : Nat := ((a - 1) &&& 0xFFFFFFC0).toNat

/-- Write back of a slave's buffer, with zeros above the current address where `zero` says so (R904). -/
def slaveWriteBack (k : Nat) (c : BitVec 4) (line : Nat) (upto : Nat) (zero : Bool) (s : State) : State :=
  let b := (s.iocc k).buf c
  let b1 : Buffer :=
    if zero then
      { b with
        bytes := (List.range 64).map fun j => if j < upto then b.bytes.getD j 0 else 0
        written := (List.range 64).foldl (fun m j => if j < upto then m else m ||| (1#64 <<< j)) b.written }
    else b
  writeBack s.cfg.rmw b1 line 64 0 s

/-- A slave's buffer is invalid, and nothing in it is written (R904). -/
def emptySlave (k : Nat) (c : BitVec 4) (s : State) : State :=
  s.onIocc k fun x =>
    (x.setReg8 c (setBits (x.reg8 c) 0 4 0b0010#4)).setBuf c { x.buf c with written := 0, ahead := [] }

/-- `FlushSlaveBuffer(c)` (R904): written bytes go to memory, the buffer is invalid. `line` is the line it holds. -/
def flushSlave (k : Nat) (c : BitVec 4) (line upto : Nat) (zero : Bool) (s : State) : State :=
  let x := s.iocc k
  emptySlave k c (if bitAt (x.reg8 c) 0 && !bitAt (x.reg8 c) 2 then slaveWriteBack k c line upto zero s else s)

/-- `MemWrite(c, 1, a, data)` buffered, one byte (R904). -/
def slaveWriteByte (k : Nat) (c : BitVec 4) (a : Word) (v : Byte) (s : State) : State :=
  let o := a.toNat % 64
  let s1 := s.onIocc k fun x =>
    let fresh := bitAt (x.reg8 c) 2 || !bitAt (x.reg8 c) 0
    let b := if fresh then loadBuffer s (a.toNat - o) { x.buf c with written := 0 } else x.buf c
    (x.setBuf c { b with bytes := setPad b.bytes o v, written := b.written ||| (1#64 <<< o) }).setReg8 c
      (setBit (setBit (x.reg8 c) 0 true) 2 false)
  if (a.toNat + 1) % 64 = 0 then flushSlave k c (a.toNat - o) 64 false s1 else s1

/-- `MemRead(c, 1, a, k)` buffered, one byte (R904). -/
def slaveReadByte (k : Nat) (c : BitVec 4) (a : Word) (s : State) : Byte × State :=
  let o := a.toNat % 64
  let s1 := s.onIocc k fun x =>
    if bitAt (x.reg8 c) 2 || !bitAt (x.reg8 c) 1 then
      (x.setBuf c (x.loadLine c (a.toNat - o) s)).setReg8 c (setBits (x.reg8 c) 0 4 0b0100#4)
    else x
  let got := ((s1.iocc k).buf c).bytes.getD o 0
  (got, if (a.toNat + 1) % 64 = 0 then
      s1.onIocc k fun x => x.setReg8 c (setBit (setBit (x.reg8 c) 1 false) 2 true)
    else s1)

/-- Bytes move between a device and system memory at real address a (R904). The spec raises no error of its own accord where
there is no memory or it is ROM, and R911 leaves code 1101 to the host: in the buffered mode the bytes then read as the list
of memory has them, and writes to them are dropped; in the unbuffered one the processor's machine check condition comes, as
for an access of its own (log entry 49). -/
def slaveMove (k : Nat) (c : BitVec 4) (toMemory : Bool) : List Byte → Word → State → List Byte × State
  | [], _, s => ([], s)
  | v :: l, a, s =>
    let buffered := (s.iocc k).bufferMode == .buffered
    let (b, s1) :=
      if toMemory then
        (v, if buffered then slaveWriteByte k c a v s else sysWrite k a.toNat v s)
      else if buffered then slaveReadByte k c a s
      else sysRead k a.toNat s
    let (bs, s2) := slaveMove k c toMemory l (a + 1) s1
    (b :: bs, s2)

/-- How many bytes one request moves: the largest of 4, 2, 1 that is no wider than the device, aligned, and inside the
count and the page (R901). -/
def slaveCount (width : Nat) (a : Word) (left : Nat) : Nat :=
  let fits (n : Nat) : Bool := decide (n ≤ width) && a.toNat % n == 0 && decide (n ≤ left)
  if fits 4 then 4 else if fits 2 then 2 else 1

/-- The bytes of one request move between the device and memory; the cycles go to the trace. In bus memory there is no
buffering: a cycle reads the source and one writes the target (R903); `pause` is what comes between the two (R841). -/
def slaveTransfer (k : Nat) (c : BitVec 4) (sysMem toMemory : Bool) (real : Word) (n : Nat) (bytes : List Byte)
    (pause : State → Break) (s : State) : Break :=
  let (data, s1) := fillBytes n bytes s
  if sysMem then
    let (moved, s2) := slaveMove k c toMemory data real s1
    .go (s2.logBus k .io real (!toMemory) true moved)
  else
    match pause (s1.logBus k (if toMemory then .io else .memory) real false true data) with
    | .go s2 => .go (s2.logBus k (if toMemory then .memory else .io) real true true data)
    | r => r

/-- A request of a DMA slave goes on after its transfer; one that a bus timeout has cut off leaves the registers of its
channel unchanged (R848, log entry 49). -/
def Break.andThen (b : Break) (f : State → MoveRes) : MoveRes :=
  match b with
  | .go s => f s
  | .timeout s => .ok s
  | .refused r => .refused r

/-- Tag j reloads the channel (R901): register 0 bits 5-31 and register 4. Bad parity, a hardware fault that waits for an
access to the table, or a tag access error is `dmaerr` 1110. -/
def reloadTag (k : Nat) (c : BitVec 4) (j : BitVec 12) (s : State) : State :=
  match takeFault k [0xE] s with
  | some (code, s1) => dmaErr k c code s1
  | none =>
    match tagWord k (2 * j.toNat) s, tagWord k (2 * j.toNat + 1) s with
    | some w0, some w4 => s.onIocc k fun x => (x.setCsr c (bitsAt (x.csr c) 0 5 ++ bitsAt w0 5 27)).setReg4 c w4
    | _, _ => dmaErr k c 0xE s

/-- The line of a DMA slave's buffer goes back to system memory at the end of the length or of a page (R901, R904). -/
def endLine (k : Nat) (c : BitVec 4) (line : Nat) (s : State) : State :=
  if bitAt ((s.iocc k).csr c) 5 && (s.iocc k).bufferMode == .buffered then flushSlave k c line 64 false s else s

/-- The registers of a DMA slave with tags after n bytes at address a (R901); `v` is its Channel Status register before
them. At the end of a chain bit 3 is cleared and every other bit but the count keeps its value, as R901 has it: the words
X'14FFFFFF' and X'44FFFFFF' that R902 derives have bit 7, which was 1, as 0, and the first of them bit 3 as 1, where R901 gives
X'05FFFFFF' and X'45FFFFFF' (log entry 49, DESIGN CHOICE). -/
def slaveNextTags (k : Nat) (c : BitVec 4) (v a : Word) (n : Nat) (s1 : State) : State :=
  let a1 := a + BitVec.ofNat 32 n
  let s2 := s1.onIocc k fun x =>
    (x.setReg4 c a1).setCsr c (setBits v 20 12 (bitsAt v 20 12 - BitVec.ofNat 12 n))
  let expired := n == (bitsAt v 20 12).toNat + 1
  if expired || a1.toNat % 4096 == 0 then
    let s3 := endLine k c (slaveLine a1) s2
    let s4 := if expired && (bitAt v 6 || bitsAt v 8 12 == 0xFFF) then s3.pulse k .terminalCount c else s3
    if bitsAt v 8 12 = 0xFFF then s4.onIocc k fun x => x.setCsr c (setBit (x.csr c) 3 false)
    else reloadTag k c (bitsAt v 8 12) s4
  else s2

/-- `DMASlaveRequest(c)` with tags (R901). -/
def slaveRequestTags (k : Nat) (c : BitVec 4) (width : Nat) (bytes : List Byte) (pause : State → Break) (s : State) :
    MoveRes :=
  let v := (s.iocc k).csr c
  let a := (s.iocc k).reg4 c
  let n := slaveCount width a ((bitsAt v 20 12).toNat + 1)
  (slaveTransfer k c (bitAt v 5) (bitAt v 7) a n bytes pause s).andThen fun s1 => .ok (slaveNextTags k c v a n s1)

/-- The number of DMA slave channels (CFG bits 28-31): R935 gives the codes 0000 to 0011 and 1111, and each other code counts as the
number it is (log entry 47, DESIGN CHOICE). -/
def Iocc.slaveChannels (x : Iocc) : Nat :=
  let n := (bitsAt x.cfgReg 28 4).toNat
  if n = 0 then 15 else n

/-- The registers of a DMA slave with TCWs after m bytes at the real address `real` (R907): address register n counts up and
the length down; its line ends with the page and with the length, which ends the transfer. -/
def slaveNextTcw (k : Nat) (c n : BitVec 4) (v a real : Word) (m : Nat) (s1 : State) : State :=
  let a1 := a + BitVec.ofNat 32 m
  let s2 := s1.onIocc k fun x =>
    (x.setReg4 n a1).setCsr c (setBits v 12 20 (bitsAt v 12 20 - BitVec.ofNat 20 m))
  let expired := m == (bitsAt v 12 20).toNat + 1
  let s3 := if expired || a1.toNat % 4096 == 0 then endLine k c (real.toNat / 64 * 64) s2 else s2
  if expired then (s3.onIocc k fun x => x.setCsr c (setBit (x.csr c) 3 false)).pulse k .terminalCount c else s3

/-- `DMASlaveRequest(c)` with TCWs (R906, R907). -/
def slaveRequestTcw (k : Nat) (c : BitVec 4) (width : Nat) (bytes : List Byte) (pause : State → Break) (s : State) :
    MoveRes :=
  let x := s.iocc k
  let v := x.csr c
  let n := bitsAt v 8 4
  if n.toNat ≥ x.slaveChannels then .refused .slaveChannel
  else
    let a := x.reg4 n
    let m := slaveCount width a ((bitsAt v 12 20).toNat + 1)
    let run (real : Word) : MoveRes :=
      (slaveTransfer k c (bitAt v 5) (bitAt v 7) real m bytes pause s).andThen fun s1 =>
        .ok (slaveNextTcw k c n v a real m s1)
    if bitAt v 5 then
      match tcwLookup k (bitsAt a 0 20).toNat s with
      | .refused r => .refused r
      | .absent => .ok (dmaErr k c 7 s)
      | .error => .ok (dmaErr k c 0xE s)
      | .tcw t => run (bitsAt t 0 20 ++ bitsAt a 20 12)
    else run a

/-- `DMASlaveRequest(c)` (R901, R907): a dummy cycle while an error is held (R909), an extra request error on a disabled
channel (R911). On a level personalised for a bus master the bus hangs (R848), which ends in a bus timeout; what the Bus
Status register latches is free (log entry 49). -/
def slaveRequest (k : Nat) (c : BitVec 4) (width : Nat) (bytes : List Byte) (pause : State → Break) (s : State) :
    MoveRes :=
  let x := s.iocc k
  let v := x.csr c
  if !bitAt v 4 then
    let (w, s1) := s.drawWord
    .ok (busTimeout k (w.extractLsb' 0 8) s1)
  else if x.bufferMode = .reserved then .refused .configCode
  else if bitsAt v 0 2 ≠ 0 then .ok (s.pulse k .terminalCount c)
  else if !bitAt v 3 then .ok (dmaErr k c 4 s)
  else if x.withoutTags then slaveRequestTcw k c width bytes pause s
  else slaveRequestTags k c width bytes pause s

/-! ### Arbitration (R841, R842) -/

/-- A device requests the bus; one that is held in reset does not (R940), and level F is the processor's (R842). -/
def requestBus (k : Nat) (r : BusRequest) (s : State) : State :=
  s.onIocc k fun x => if x.slotHeld r.slot || r.level == 15 then x else { x with requests := x.requests ++ [r] }

/-- The request of the lowest numbered level, the oldest of that level (R842), of the levels that are not in the middle of a
transfer. -/
def Iocc.nextRequest (x : Iocc) (busy : List (BitVec 4)) : Option BusRequest :=
  x.requests.foldl (fun best r =>
    if busy.contains r.level then best
    else
      match best with
      | none => some r
      | some b => if r.level < b.level then some r else some b) none

/-- A device that has been granted the bus does what it asked for. -/
def serveRequest (k : Nat) (r : BusRequest) (pause : State → Break) (s : State) : MoveRes :=
  match r.op with
  | .masterRead ba n => busMasterCycle k r.level ba n none s
  | .masterWrite ba bytes => busMasterCycle k r.level ba bytes.length (some bytes) s
  | .slave width bytes => slaveRequest k r.level width bytes pause s

/-- The request that a grant would serve now. -/
def grantable (k : Nat) (busy : List (BitVec 4)) (s : State) : Option BusRequest :=
  match (s.iocc k).nextRequest busy with
  | some r => if noArbitration k r.level s then none else some r
  | none => none

/-- The IOCC grants the bus (R841, R842). -/
def grantBus (k : Nat) (busy : List (BitVec 4)) (pause : List (BitVec 4) → State → Break) (s : State) : MoveRes :=
  match grantable k busy s with
  | some r =>
    serveRequest k r (pause (r.level :: busy)) (s.onIocc k fun x => { x with requests := x.requests.erase r })
  | none => .ok s

/-- A request for this bus that the schedule has next comes while another agent's transfer is under way (R841). -/
def arriving (k : Nat) (s : State) : Option State :=
  match s.agenda with
  | .request j r :: l => if j = k then some (requestBus k r { s with agenda := l }) else none
  | _ => none

/-- Between two cycles of one transfer other agents may request the bus, and it may pass to them (R831, R841): a free choice
before each, at most n of them. A bus timeout ends the transfer (R848). -/
def breakIn (k : Nat) : Nat → List (BitVec 4) → State → Break
  | 0, _, s => .go s
  | n + 1, busy, s =>
    let (comes, s1) := if (arriving k s).isSome then s.drawBit else (false, s)
    if comes then breakIn k n busy ((arriving k s1).getD s1)
    else if (grantable k busy s1).isNone then .go s1
    else
      let (now, s2) := s1.drawBit
      if now then
        match grantBus k busy (breakIn k n) s2 with
        | .ok s3 => if (s3.iocc k).misc.getMsbD 1 then .timeout s3 else breakIn k n busy s3
        | .refused r => .refused r
      else .go s2

/-- `breakIn` for as many requests as there are and may come. -/
def pauseBus (k : Nat) (busy : List (BitVec 4)) (s : State) : Break :=
  breakIn k (2 * s.agenda.length + (s.iocc k).requests.length) busy s

/-! ### Read-ahead and hardware faults -/

/-- The real address of the line that follows the one buffer b holds (R893): for a bus master the next line of the bus page
or the first one of the next page, for a DMA slave the line its register 4 comes to next. -/
def nextLine (k : Nat) (b : BitVec 4) (s : State) : Option Nat :=
  let x := s.iocc k
  let mapped (a : Word) : Option Nat :=
    match tcwLookup k (busPage a) s with
    | .tcw t => some (bitsAt t 0 20 ++ bitsAt a 20 12 : Word).toNat
    | _ => none
  if bitAt (x.csr b) 4 then
    let v := x.csr b
    let a := (if x.withoutTags then x.reg4 (bitsAt v 8 4) else x.reg4 b) &&& 0xFFFFFFC0
    if x.withoutTags then mapped (a + 64)
    else if bitsAt a 20 6 ≠ 63 then some (a + 64).toNat
    else (tagWord k (2 * (bitsAt v 8 12).toNat + 1) s).map fun w => (w &&& 0xFFFFFFC0).toNat
  else if bitsAt (x.reg8 b) 26 6 ≠ 63 then some (x.lineAddr b + 64)
  else mapped ((bitsAt (x.reg8 b) 6 26 ++ 0#6) + 64)

/-- Dual buffers read the line that follows the one in buffer b ahead of the device (R893): a snapshot of memory as it is
now, and N. -/
def readAhead (k : Nat) (b : BitVec 4) (s : State) : State :=
  let x := s.iocc k
  if decide (k < s.ioccs.length) && bitAt x.cfgReg 24 && x.bufferMode == .buffered && !bitAt (x.reg8 b) 2
      && bitAt (x.reg8 b) 1 then
    match nextLine k b s with
    | some base =>
      if lineAcknowledged s base then
        s.onIocc k fun x =>
          (x.setBuf b { x.buf b with ahead := s.memBytes base 64, aheadAt := base }).setReg8 b
            (setBit (x.reg8 b) 3 true)
      else s
    | none => s
  else s

/-- A cycle that the device in a slot makes on an enabled channel ends in a hardware fault (R892, R911): codes 1000 to 1111
are host events, the others follow from the state. A device that is held in reset makes no cycle (R940). On the listed
models a bus master's bus protocol errors are not logged. The system memory errors of a bus master, codes 1100 and 1101,
come in the middle of its procedure (R886): the fault waits for a cycle that reaches system memory. -/
def channelFault (k : Nat) (slot c : BitVec 4) (code : BitVec 4) (ba : Word) (store : Bool) (s : State) : State :=
  let v := (s.iocc k).csr c
  if (s.iocc k).slotHeld slot || noArbitration k c s || !code.msb || bitsAt v 0 2 ≠ 0 || !bitAt v 3 then s
  else if bitAt v 4 then dmaErr k c code s
  else if s.cfg.devProtocolUnlogged && code == 8 then
    (s.logBus k (busSpace ba) ba store true []).pulse k .channelCheck c
  else if code == 0xC || code == 0xD then s.onIocc k fun x => { x with fault := code }
  else failedCycle k c code false ba store s

/-! ### Bus transfers of the processor (R831) -/

/-- What a transfer answers to the processor. -/
inductive IoRes where
  /-- It completes; a load has these bytes. -/
  | ok (bytes : List Byte) (s : State)
  /-- An I/O exception; these bytes had been transferred before it. -/
  | err (got : List Byte) (s : State)
  /-- The spec gives no behaviour. -/
  | refused (r : Refusal)
  deriving Repr

/-- `ioerr(code)` (R835). -/
def ioErr (k : Nat) (code : Option (BitVec 4)) (s : State) : IoRes := .err [] (logCsr15 k code s)

/-- `ioerr(code)` (R835) of an access of which these bytes had been loaded (R370). -/
def ioErrPart (k : Nat) (code : BitVec 4) (got : List Byte) (s : State) : IoRes := .err got (logCsr15 k (some code) s)

/-- The next answer of the devices to a cycle; one from a slot held in reset is none (R940). With none queued the address
is answered, a word wide, and loaded bytes are free; not when every device that could is held in reset. -/
def State.takeAnswer (s : State) (k : Nat) (sp : BusSpace) (addr : Word) : BusAnswer × State :=
  if (s.iocc k).allHeld sp addr then (⟨15, .word, .silent⟩, s)
  else
    match s.busIn with
    | [] => (⟨15, .word, .data []⟩, s)
    | a :: l => (if (s.iocc k).slotHeld a.slot then { a with reply := .silent } else a, { s with busIn := l })

/-- The bytes of one cycle (R831): 4, 2 or 1, as many as are left, as the device takes, and as lie before a boundary of its
width. Each answer gives a width, so that every split of an access into cycles has its answers. -/
def cycleSize (w : Nat) (addr : Word) (left : Nat) : Nat :=
  let fits (n : Nat) : Bool := decide (n ≤ left) && decide (addr.toNat % w + n ≤ w)
  if fits 4 then 4 else if fits 2 then 2 else 1

/-- How a cycle that carries n bytes ends (R834, R836, R847, R848): `out` holds the bytes stored, `ac` is the Address Check
bit. The IOCC checks the parity of the data it loads. -/
def endCycle (k : Nat) (sp : BusSpace) (addr : Word) (n : Nat) (out : Option (List Byte)) (ac : Bool) (r : BusReply)
    (s : State) : IoRes :=
  let log (l : List Byte) (s : State) : State := s.logBus k sp addr out.isSome true l
  let driven := out.getD []
  let proceed (l : List Byte) : IoRes :=
    match out with
    | some bytes => .ok [] (log bytes s)
    | none =>
      let (bytes, s1) := fillBytes n l s
      .ok bytes (log bytes s1)
  match r with
  | .data l => proceed l
  | .silent => if ac then ioErr k (some 0xB) (log driven s) else proceed []
  | .channelCheck => ioErr k (some 8) (log driven s)
  | .parity => if out.isSome then proceed [] else ioErr k (some 9) (log driven s)
  | .busError => ioErr k (if s.cfg.devProtocolUnlogged then none else some 0xA) (log driven s)
  | .timeout signals => ioErr k none (busTimeout k signals (log driven s))

/-- The cycles of a transfer (R831): in ascending order, from `addr` on or all at it; other agents may break in between
two of them. An error leaves the earlier cycles done (R832), and so does a bus timeout, which ends the access with no code
in CSR15 (R848). No cycle follows the one that loads the byte a scan looks for (R358). -/
def busCycles (k : Nat) (sp : BusSpace) (inc ac : Bool) (upTo : Option Byte) :
    Nat → Word → Nat → Option (List Byte) → List Byte → State → IoRes
  | 0, _, _, _, got, s => .ok got s
  | fuel + 1, addr, left, store, got, s =>
    let (a, s1) := s.takeAnswer k sp addr
    let n := cycleSize a.width.bytes addr left
    match endCycle k sp addr n (store.map fun l => l.take n) ac a.reply s1 with
    | .ok l s2 =>
      if left ≤ n || scanEnds upTo l then .ok (got ++ l) s2
      else
        match pauseBus k [] s2 with
        | .go s3 =>
          busCycles k sp inc ac upTo fuel (if inc then addr + BitVec.ofNat 32 n else addr) (left - n)
            (store.map fun l => l.drop n) (got ++ l) s3
        | .timeout s3 => .err (got ++ l) s3
        | .refused r => .refused r
    | .err _ s2 => .err got s2
    | .refused r => .refused r

/-- A transfer of n bytes on the bus for the processor (R831); `store` holds the bytes stored. -/
def busTransfer (k : Nat) (sp : BusSpace) (addr : Word) (n : Nat) (store : Option (List Byte)) (upTo : Option Byte)
    (inc ac : Bool) (s : State) : IoRes :=
  busCycles k sp inc ac upTo n addr n store [] s

/-! ### Interrupts (R925 to R928) -/

/-- A slot is no source of the level: the keyboard, the serial ports and the parallel port, levels 1, 2 and 13, are
Standard I/O (R924, R947). -/
def notSource (slot l : BitVec 4) : Bool := (l == 1 || l == 2 || l == 13) && slot != 15

/-- line[L] (R925): some slot that is not held in reset (R940) drives it. -/
def Iocc.lineUp (x : Iocc) (l : BitVec 4) : Bool :=
  sixteen.any fun i => levelOf (x.lines[i.toNat]'i.isLt) l && !notSource i l && !x.slotHeld i

/-- REQ[L] (R925): what the Interrupt Request register shows. -/
def Iocc.request (x : Iocc) (l : BitVec 4) : Bool :=
  levelOf x.en l && (if l = 0 then x.misc != 0 else if l = 8 then false else x.lineUp l)

/-- V(L) (R925): the vector of a level. -/
def vectorOf (s : State) (x : Iocc) (l : BitVec 4) : BitVec 6 :=
  if s.cfg.vectorTable then x.vector l else l.setWidth 6

/-- The IOCC presents level L if it is ready (R925). -/
def presentLevel (k : Nat) (l : BitVec 4) (s : State) : State :=
  let x := s.iocc k
  if decide (k < s.ioccs.length) && x.masterEnable && x.request l && levelOf x.pm l then
    (s.signal (vectorOf s x l)).onIocc k fun x => { x with pm := setLevel x.pm l false }
  else s

/-- End of interrupt for one level (R916). -/
def endOfInterrupt (k : Nat) (l : BitVec 4) (s : State) : State :=
  s.onIocc k fun x => { x with pm := setLevel x.pm l true }

/-- The Interrupt Request register (R926): bit L for level L. -/
def Iocc.requestReg (x : Iocc) : Half :=
  (List.range 16).foldl (fun v i => setLevel v (BitVec.ofNat 4 i) (x.request (BitVec.ofNat 4 i))) 0

/-! ### Reset (R960, R962) -/

/-- What every system reset does to an IOCC: CFG[0] <- 0, CRR <- 0. -/
def Iocc.systemReset (x : Iocc) : Iocc := { x with cfgReg := setBit x.cfgReg 0 false }.setCrr 0

/-- An IOCC after power-on (R961): what the hardware is, CFG bits 23-31, stays, and so do bits 2-3 where burst control is not
programmable and they show the state implemented (R935, `IOCC_CFG`). -/
def Iocc.powerOn (burst : Bool) (x : Iocc) : Iocc :=
  { Iocc.reset with cfgReg := x.cfgReg &&& if burst then 0x000001FF else 0x300001FF }

end Sys2Proof.Machine
end

