-- ==== Sys2Proof/Machine/IoAccess.lean ====
section
/-!
DEFINITION. Loads and stores of the processor to an I/O segment (20_memory R110): the processor's own registers in
BUID 0 (61_extint_timers R762 to R772, R786, R787), and the IOCC's load and store path, its registers and its commands
(62_iocc R830 to R854, 63_iocc_channels R913 to R928, 64_iocc_facilities R933 to R946).
-/

namespace Sys2Proof.Machine

/-! ### BUID 0 -/

/-- The registers of BUID 0 (R762). -/
inductive Eicr where
  | eim (high : Bool)
  | eis (high : Bool)
  | peis (high : Bool)
  | decrementer
  | externalCheck
  | epow
  deriving DecidableEq, Repr

/-- The register at EA[4:31] (R762, R788): those of the implementation. -/
def eicrAt (m : Config.Impl) (a : Nat) : Option Eicr :=
  match m with
  | .power =>
    if a = 0 then some (.eim true) else if a = 4 then some (.eim false)
    else if a = 0x10 then some (.eis true) else if a = 0x14 then some (.eis false)
    else if a = 0x20 then some .decrementer else none
  | .power2 =>
    if a = 0x10 then some (.peis true) else if a = 0x14 then some (.peis false)
    else if a = 0x20 then some .decrementer else if a = 0x24 then some .externalCheck
    else if a = 0x34 then some .epow else none

/-- One word of a 64-bit register: bits 0-31 when `high`. -/
def halfOf (v : BitVec 64) (high : Bool) : Word := if high then v.extractLsb' 32 32 else v.extractLsb' 0 32

/-- A 64-bit register with one word replaced. -/
def setHalf (v : BitVec 64) (high : Bool) (w : Word) : BitVec 64 :=
  if high then w ++ v.extractLsb' 0 32 else v.extractLsb' 32 32 ++ w

/-- A load of one word (R767, R768, R772, R787). -/
def eicrLoad (r : Eicr) (s : State) : Word × State :=
  let eisbid (n : BitVec 6) : Word × State :=
    let (w, s1) := s.drawWord
    (w.extractLsb' 0 26 ++ n, s1)
  match r with
  | .eim h => (halfOf s.eim h, s)
  | .eis h => (halfOf s.eis h, { s with eis := setHalf s.eis h 0 })
  | .peis h => (halfOf s.eis h, if s.cfg.peisReadClears then { s with eis := setHalf s.eis h 0 } else s)
  | .decrementer => eisbid s.eisbidDec
  | .externalCheck => eisbid s.eisbidCheck
  | .epow => eisbid s.eisbidEpow

/-- A store of one word (R769, R770, R772); `none` for PEIS (decision D33). -/
def eicrStore (r : Eicr) (w : Word) (s : State) : Option State :=
  match r with
  | .eim h => some { s with eim := setHalf s.eim h w }
  | .eis h => some { s with eis := setHalf s.eis h (halfOf s.eis h ||| w) }
  | .peis _ => none
  | .decrementer => some { s with eisbidDec := bitsAt w 26 6 }
  | .externalCheck => some { s with eisbidCheck := bitsAt w 26 6 }
  | .epow => some { s with eisbidEpow := bitsAt w 26 6 }

/-- Words from EA[4:31] = a on, in ascending order; the first that fails ends the transfer, and what was transferred
stays (R762, R765). `store` holds the bytes still to store. -/
def buid0Words (store : Option (List Byte)) : Nat → BitVec 28 → List Byte → State → IoRes
  | 0, _, got, s => .ok got s
  | n + 1, a, got, s =>
    if 0x1000 ≤ a.toNat ∧ a.toNat ≤ 0x10D0 then .refused .memoryControl
    else
      match eicrAt s.cfg.impl a.toNat, store with
      | none, _ => .err got s
      | some r, none =>
        let (w, s1) := eicrLoad r s
        buid0Words store n (a + 4) (got ++ toBytes 4 w) s1
      | some r, some bytes =>
        match eicrStore r (wordOfBytes (bytes.take 4)) s with
        | none => .err got s
        | some s1 => buid0Words (some (bytes.drop 4)) n (a + 4) got s1

/-- `BUID0Access` (R762). -/
def buid0Access (sr ea : Word) (n : Nat) (store : Option (List Byte)) (s : State) : IoRes :=
  if bitAt sr 1 then .err [] s
  else if bitsAt sr 12 20 ≠ 0 then .err [] s
  else if bitsAt ea 30 2 ≠ 0 ∨ n % 4 ≠ 0 then .refused .eicrForm
  else buid0Words store (n / 4) (bitsAt ea 4 28) [] s

/-! ### The addresses of an IOCC (R822 to R825) -/

/-- Where an access with I = 0 goes (R823, R824). -/
inductive BusTarget where
  | io (ba : Word)
  | memory (ba : Word)
  | invalid
  | refused
  deriving DecidableEq, Repr

/-- Standard bus mode and RT compatibility mode (R823, R824, R827). -/
def busTarget (sr ea : Word) : BusTarget :=
  if bitAt sr 25 then
    if bitsAt ea 4 4 = 4 then
      if bitsAt ea 8 8 = 0 then .refused else .memory (0#8 ++ bitsAt ea 8 24)
    else if bitsAt ea 4 12 = 0 then .io (0#16 ++ bitsAt ea 16 16)
    else .invalid
  else
    let ba : Word := bitsAt sr 28 4 ++ bitsAt ea 4 28
    if ba.toNat < 0x10000 then .io ba else .memory ba

/-- The facility of a lost address and its index (R825, R914). -/
def lostAt : List Config.LostAddr → BitVec 28 → Option (Config.Lost × BitVec 4)
  | [], _ => none
  | r :: l, a => if a &&& r.mask = r.value then some (r.fac, (a >>> r.shift).setWidth 4) else lostAt l a

/-! ### Time delay (R915) -/

/-- The time delay command: a load leaves its whole register undefined, whatever the length, so that four free bytes answer
it; the next access waits. Lengths other than 1, 2 and 4 are refused, and so are delays of 7 and 8 microseconds on the
listed models (R915). -/
def timeDelay (k : Nat) (ea : Word) (n : Nat) (load : Bool) (s : State) : IoRes :=
  let d := (Config.tdUs ea n).toNat + 1
  if n ≠ 1 ∧ n ≠ 2 ∧ n ≠ 4 then .refused .timeDelay
  else if s.cfg.devDelaySix && decide (7 ≤ d) then .refused .timeDelay
  else
    let (w, s1) := s.drawWord
    let s2 := s1.onIocc k fun x => { x with delay := d * 1000 / 256 + w.toNat % 5 }
    if load then
      let (l, s3) := s2.drawBytes 4
      .ok l s3
    else .ok [] s2

/-- Every load or store through an IOCC first waits for the delay to end; the time base goes on meanwhile (R915). -/
def waitDelay (k : Nat) (s : State) : State := State.ticks (s.iocc k).delay s

/-! ### Bus memory through the TCW table (R830, R839, R840, R853, R854) -/

/-- `LimitCheck` (R839): the access lies within the bounds. -/
def Iocc.withinLimit (x : Iocc) (a n : Nat) (inc : Bool) : Bool :=
  let last := if inc then a + n - 1 else a
  decide (x.limitLo.toNat ≤ a) && decide (last ≤ x.limitHi.toNat)

/-- The codes of R836, for the one case whose code is not stated (R854, decision D41). -/
def errorCodes : List (BitVec 4) := [1, 3, 5, 6, 8, 9, 10, 11, 12, 13, 14, 15]

/-- A code among the defined ones, free. -/
def freeCode (s : State) : BitVec 4 × State :=
  let (w, s1) := s.drawWord
  (errorCodes.getD (w.toNat % 12) 1, s1)

/-- Programmed I/O to system memory (R854): like a bus master on channel 15; with K = 0 the authority tests are skipped. A
waiting system memory error, code 1100 or 1101, comes within its procedure (R886). -/
def pioTransfer (k : Nat) (ba : Word) (n : Nat) (store : Option (List Byte)) (upTo : Option Byte) (free : Bool)
    (s : State) : IoRes :=
  match takeFault k [0xF] s with
  | some (code, s1) => ioErr k (some code) s1
  | none =>
    match mappedBytes k 15 free upTo n store ba s with
    | .ok l s1 => .ok l s1
    | .err code _ got s1 => ioErrPart k code got s1
    | .refused r => .refused r

/-- What the tests of one page of bus memory answer. -/
inductive PageTest where
  /-- A transfer on the bus. -/
  | bus
  /-- The page is mapped to system memory. -/
  | system
  /-- The access ends here. -/
  | stop (r : IoRes)
  deriving Repr

/-- The tests of an access to one page of bus memory with BYP = 0, in the order of R830. -/
def pageTest (k : Nat) (sr ba : Word) (store : Bool) (s : State) : PageTest :=
  let x := s.iocc k
  let priv := !bitAt sr 1
  match tcwLookup k (busPage ba) s with
  | .refused r => .stop (.refused r)
  | .absent => .stop (ioErr k (some 1) s)
  | .error => .stop (ioErr k (some 0xE) s)
  | .tcw t =>
    if bitsAt t 30 2 = 1 then .stop (ioErr k (some 6) s)
    else if !priv && !bitAt (x.csr 15) (16 + (bitsAt t 25 3).toNat) then .stop (ioErr k (some 5) s)
    else if !bitAt t 30 then .bus
    else
      match x.bufferMode with
      | .reserved => .stop (.refused .configCode)
      | .unbuffered =>
        let (code, s1) := freeCode s
        .stop (ioErr k (some code) s1)
      | .buffered =>
        if !bitAt (x.csr 15) 2 then .stop (ioErr k (some 6) s)
        else if store && !bitAt t 31 && !priv then .stop (ioErr k (some 5) s)
        else .system

/-- The part of an access that lies in one page of bus memory, BYP = 0 (R830). Before the bus cycles of a page that is not the
first other agents may break in (R831, R841). -/
def pageTransfer (k : Nat) (sr ba : Word) (n : Nat) (store : Option (List Byte)) (upTo : Option Byte) (first : Bool)
    (s : State) : IoRes :=
  match pageTest k sr ba store.isSome s with
  | .stop r => r
  | .bus =>
    match (if first then .go s else pauseBus k [] s) with
    | .go s1 => busTransfer k .memory ba n store upTo true (bitAt sr 12) s1
    | .timeout s1 => .err [] s1
    | .refused r => .refused r
  | .system => pioTransfer k ba n store upTo (!bitAt sr 1) s

/-- The tests of every page of an access, made before any transfer (R832): the first page that ends the access; `fuel`
bounds their number. -/
def pagesTest (k : Nat) (sr : Word) (store : Bool) (s : State) : Nat → Word → Nat → Option IoRes
  | 0, _, _ => none
  | fuel + 1, ba, n =>
    let m := min n (4096 - ba.toNat % 4096)
    match pageTest k sr ba store s with
    | .stop r => some r
    | _ => if n ≤ m then none else pagesTest k sr store s fuel (ba + BitVec.ofNat 32 m) (n - m)

/-- The pages of an access in ascending order; `fuel` bounds their number. -/
def pagesTransfer (k : Nat) (sr : Word) (upTo : Option Byte) :
    Nat → Word → Nat → Option (List Byte) → Bool → List Byte → State → IoRes
  | 0, _, _, _, _, got, s => .ok got s
  | fuel + 1, ba, n, store, first, got, s =>
    let m := min n (4096 - ba.toNat % 4096)
    match pageTransfer k sr ba m (store.map fun l => l.take m) upTo first s with
    | .ok l s1 =>
      if n ≤ m || scanEnds upTo l then .ok (got ++ l) s1
      else
        pagesTransfer k sr upTo fuel (ba + BitVec.ofNat 32 m) (n - m) (store.map fun l => l.drop m) false (got ++ l) s1
    | .err l s1 => .err (got ++ l) s1
    | .refused r => .refused r

/-- An access to bus memory with BYP = 0: the tests of all its pages, then the transfers (R830, R832). Hardware may have
found bad parity, an ECC error or an internal error in the look-up of a TCW (R836). -/
def memoryTransfer (k : Nat) (sr ba : Word) (n : Nat) (store : Option (List Byte)) (upTo : Option Byte) (s : State) :
    IoRes :=
  match takeFault k [9, 0xE, 0xF] s with
  | some (code, s1) => ioErr k (some code) s1
  | none =>
    match pagesTest k sr store.isSome s 34 ba n with
    | some r => r
    | none => pagesTransfer k sr upTo 34 ba n store true [] s

/-! ### The registers of the control space (R926 to R928, R935 to R946) -/

/-- A load of n bytes answered by a word. -/
def loaded (w : Word) (s : State) : IoRes := .ok (toBytes 4 w) s

/-- The reserved bits of CFG (R935): 1, 8, 12 and 16-22. -/
def cfgReserved : Word := 0x4088FE00

/-- The bits of CFG a store changes (R935, decision D51): 0, 2-3 where programmable, 4-5, 6-7, 9-11, 13-15. -/
def cfgWritable (burst : Bool) : Word := if burst then 0xBF770000 else 0x8F770000

/-- The IOCC registers proper (R825, R926, R927, R935 to R941). -/
inductive IocReg where
  | config
  | busStatus
  | anchor
  | componentReset
  | enable
  | request
  | misc
  | hole
  | busMap (i : Fin 3)
  deriving DecidableEq, Repr

/-- The register at EA[4:31] with its two low bits 0; `none` for an address of no register. -/
def iocRegAt (a : Nat) : Option IocReg :=
  if a = 0x0400010 then some .config
  else if a = 0x0400020 then some .busStatus
  else if a = 0x0400024 then some .anchor
  else if a = 0x040002C then some .componentReset
  else if a = 0x0400080 then some .enable
  else if a = 0x0400084 then some .request
  else if a = 0x0400088 then some .misc
  else if a = 0x040008C then some .hole
  else if a = 0x0400200 then some (.busMap 0)
  else if a = 0x0400204 then some (.busMap 1)
  else if a = 0x0400208 then some (.busMap 2)
  else none

/-- A load answered by a word computed from a free word. -/
def loadedFree (f : Word → Word) (s : State) : IoRes :=
  let (w, s1) := s.drawWord
  loaded (f w) s1

/-- A store that changes one IOCC. -/
def storedIocc (k : Nat) (f : Iocc → Iocc) (s : State) : IoRes := .ok [] (s.onIocc k f)

/-- One word of an IOCC register (R926, R927, R935 to R941). The Bus Mapping registers keep and return all 32 bits, bits 16-31
of register 8, to which the table of R941 gives no meaning, among them (log entry 62, DESIGN CHOICE). So does the anchor with CFG
bit 23 = 1, whose data format, Figure 84 of R939, is lost (log entry 47, DESIGN CHOICE). -/
def iocRegister (k : Nat) (r : IocReg) (store : Option Word) (s : State) : IoRes :=
  let x := s.iocc k
  match r, store with
  | .config, none => loaded x.cfgReg s
  | .config, some w =>
    if w &&& cfgReserved ≠ 0 then .refused .configReserved
    else
      let m := cfgWritable s.cfg.burstControl
      storedIocc k (fun x => { x with cfgReg := (x.cfgReg &&& ~~~m) ||| (w &&& m) }) s
  | .busStatus, none => loadedFree (fun w => if x.misc.getMsbD 1 then w.extractLsb' 0 24 ++ x.bsr else w) s
  | .busStatus, some _ => .refused .busStatusStore
  | .anchor, none => if bitAt x.cfgReg 23 then loaded x.anchor s else loadedFree id s
  | .anchor, some w =>
    if bitAt x.cfgReg 23 then storedIocc k (fun x => { x with anchor := w }) s else ioErr k (some 1) s
  | .componentReset, none => loadedFree (fun w => (x.crr &&& 0xFF000001) ||| (w &&& 0x00FFFFFE)) s
  | .componentReset, some w =>
    if x.releasesEarly w then .refused .resetHold else storedIocc k (fun x => x.setCrr (w &&& 0xFF000001)) s
  | .enable, none => loadedFree (fun w => x.en ++ w.extractLsb' 0 16) s
  | .enable, some w => storedIocc k (fun x => { x with en := bitsAt w 0 16 }) s
  | .request, none => loadedFree (fun w => x.requestReg ++ w.extractLsb' 0 16) s
  | .request, some _ => .ok [] s
  | .misc, none => loadedFree (fun w => x.misc ++ w.extractLsb' 0 29) s
  | .misc, some w => storedIocc k (fun x => { x with misc := x.misc &&& bitsAt w 0 3 }) s
  | .hole, _ => .refused .interruptHole
  | .busMap i, none => if bitAt x.cfgReg 24 then loaded x.busMap[i] s else .refused .busMapAbsent
  | .busMap i, some w =>
    if bitAt x.cfgReg 24 then storedIocc k (fun x => { x with busMap := x.busMap.set i w }) s
    else .refused .busMapAbsent

/-- Vectors from level l on (R928): each byte has two free high bits on a load. -/
def vectorBytes (k : Nat) : Nat → BitVec 4 → State → List Byte × State
  | 0, _, s => ([], s)
  | n + 1, l, s =>
    let (w, s1) := s.drawWord
    let (r, s2) := vectorBytes k n (l + 1) s1
    ((w.extractLsb' 0 2 ++ (s.iocc k).vector l : Byte) :: r, s2)

/-- Vectors stored from level l on. -/
def storeVectors (k : Nat) : List Byte → BitVec 4 → State → State
  | [], _, s => s
  | b :: r, l, s => storeVectors k r (l + 1) (s.onIocc k fun x => x.setVector l (b.extractLsb' 0 6))

/-- The vector table (R928): one byte, or an aligned word; where it is not supported, an invalid operation. -/
def vectorAccess (k : Nat) (a : BitVec 28) (n : Nat) (store : Option (List Byte)) (s : State) : IoRes :=
  let l : BitVec 4 := a.setWidth 4
  if !s.cfg.vectorTable then ioErr k (some 1) s
  else if ¬ (n = 1 ∨ (n = 4 ∧ a.toNat % 4 = 0)) then .refused .registerForm
  else
    match store with
    | none =>
      let (r, s1) := vectorBytes k n l s
      .ok r s1
    | some bytes => .ok [] (storeVectors k bytes l s)

/-- The next answer if it is one of data. -/
def State.takeData (s : State) : List Byte × State :=
  match s.busIn with
  | ⟨_, _, .data l⟩ :: r => (l, { s with busIn := r })
  | _ => ([], s)

/-- The System registers (R945): a device of the host, for accesses of any length; a load takes its answer, a store goes to
the trace. -/
def sysRegAccess (k : Nat) (a : BitVec 28) (n : Nat) (store : Option (List Byte)) (s : State) : IoRes :=
  match store with
  | some bytes => .ok [] (s.logBus k .sysReg (a.setWidth 32) true true bytes)
  | none =>
    let (l, s1) := s.takeData
    let (bytes, s2) := fillBytes n l s1
    .ok bytes (s2.logBus k .sysReg (a.setWidth 32) false true bytes)

/-- NVRAM (R946): bytes in address order. There is one, which every IOCC's control space reaches (log entry 50). -/
def nvramAccess (off n : Nat) (store : Option (List Byte)) (s : State) : IoRes :=
  if s.cfg.nvramBytes < off + n then .refused .nvramSize
  else
    match store with
    | none => .ok ((List.range n).map fun i => cellRead 0 s.nvram (off + i)) s
    | some bytes =>
      .ok [] { s with
        nvram := (List.range bytes.length).foldl (fun m i => cellWrite 0 m (off + i) (bytes.getD i 0)) s.nvram }

/-- The tag table (R897): one aligned word. Where DMA slaves use TCWs (CFG bit 25) the spec does not say what these
addresses are: they stay the words of the tag storage (log entry 62). -/
def tagAccess (k : Nat) (a n : Nat) (store : Option (List Byte)) (s : State) : IoRes :=
  if n ≠ 4 ∨ a % 4 ≠ 0 then .refused .tableForm
  else
    match takeFault k [0xF] s with
    | some (code, s1) => ioErr k (some code) s1
    | none =>
      let j := (a - 0x0800000) / 4
      match tagWord k j s, store with
      | none, _ => ioErr k (some 0xE) s
      | some w, none => loaded w s
      | some _, some bytes => .ok [] (setTagWord k j (wordOfBytes bytes) s)

/-- A TCW as a load reads it: without buffers the buffer number, bits 20-23, is a free value (R851). -/
def tcwLoaded (k : Nat) (t : Word) (s : State) : Word × State :=
  if (s.iocc k).bufferMode = .unbuffered then
    let (w, s1) := s.drawWord
    (setBits t 20 4 (w.extractLsb' 0 4), s1)
  else (t, s)

/-- Words of the TCW table from entry p on (R855). An access that runs past the last TCW ends in the invalid operation of the
first entry there is not; the words before that one are stored, of which the spec says nothing (log entry 62). -/
def tcwWords (k : Nat) (store : Option (List Byte)) : Nat → Nat → List Byte → State → IoRes
  | 0, _, got, s => .ok got s
  | n + 1, p, got, s =>
    match tcwLookup k p s with
    | .refused r => .refused r
    | .absent => ioErrPart k 1 got s
    | .error => ioErrPart k 0xE got s
    | .tcw t =>
      match store with
      | none =>
        let (w, s1) := tcwLoaded k t s
        tcwWords k store n (p + 1) (got ++ toBytes 4 w) s1
      | some bytes =>
        tcwWords k (some (bytes.drop 4)) n (p + 1) got (setTcw k p (wordOfBytes (bytes.take 4)) s)

/-- Bus master buffer flush (R919): EA bit 30 flushes the buffer the entry names if it holds the page, EA bit 31
replaces the R, C and control bits of the entry. Its cast-out meets no system memory error: the codes 1100 and 1101 of R836
are those of accesses mapped to system memory (log entry 62). -/
def masterFlush (k : Nat) (ea : Word) (p : Nat) (load : Bool) (s : State) : IoRes :=
  match tcwLookup k p s with
  | .refused r => .refused r
  | .absent => ioErr k (some 1) s
  | .error => ioErr k (some 0xE) s
  | .tcw old =>
    if load && !s.cfg.flushByLoad then .refused .flushByLoad
    else
      let b := bitsAt old 20 4
      let s1 :=
        if bitAt ea 30 && (s.iocc k).bufferMode == .buffered
            && bitsAt ((s.iocc k).reg8 b) 6 20 == BitVec.ofNat 20 p then
          (castOut k b s).onIocc k fun x => x.setReg8 b 0x20000000
        else s
      let s2 :=
        if bitAt ea 31 then updateTcw k p (fun t => setBits t 28 4 (Config.flushMask ea)) s1 else s1
      if load then
        let (w, s3) := tcwLoaded k old s2
        loaded w s3
      else .ok [] s2

/-- The TCW table (R850, R855, R919). -/
def tcwAccess (k : Nat) (ea : Word) (n : Nat) (store : Option (List Byte)) (s : State) : IoRes :=
  let p := (bitsAt ea 10 20).toNat
  if n % 4 ≠ 0 ∨ (bitsAt ea 30 2 ≠ 0 ∧ n ≠ 4) then .refused .tableForm
  else
    match takeFault k [9, 0xF] s with
    | some (code, s1) => ioErr k (some code) s1
    | none => if bitsAt ea 30 2 ≠ 0 then masterFlush k ea p store.isNone s else tcwWords k store (n / 4) p [] s

/-! ### Facilities of lost addresses (R882, R839, R934, R916 to R922) -/

/-- A register of a channel set (R882 to R885, R900, R887, R921). The reserved codes 10 and 11 of CFG bits 26-27 count as
unbuffered here, and in the flush commands (log entry 47). In the buffered mode every store to register 8 drops the copy that was
read ahead, whatever its value: R893 says so of the invalidates and the flush, and R921 calls a store of a value other than
X'20000000' an ordinary one and says nothing of the copy (log entry 49, DESIGN CHOICE). -/
def channelRegister (k : Nat) (i : BitVec 4) (r : BitVec 2) (store : Option Word) (s : State) : IoRes :=
  let x := s.iocc k
  let set (f : Iocc → Iocc) : IoRes := .ok [] (s.onIocc k f)
  if r = 0 then
    let s1 := { s with csrTouched := true }
    match store with
    | none => loaded (x.csr i) s1
    | some w => .ok [] (s1.onIocc k fun x => x.setCsr i w)
  else if r = 1 then
    match store with
    | none => loaded (x.reg4 i) s
    | some w => set fun x => x.setReg4 i w
  else if r = 2 then
    match x.bufferMode, store with
    | .buffered, none =>
      loaded (if bitAt (x.csr i) 4 && !bitAt x.cfgReg 24 then setBit (x.reg8 i) 3 false else x.reg8 i) s
    | .buffered, some w => set fun x => (x.setReg8 i w).setBuf i { x.buf i with ahead := [] }
    | _, none => loaded 0 s
    | _, some _ => .ok [] s
  else ioErr k (some 1) s

/-- Enable (load) and disable (store) of channel c (R917, R918). -/
def enableCommand (k : Nat) (c : BitVec 4) (load : Bool) (s : State) : IoRes :=
  let v := (s.iocc k).csr c
  if load then
    loaded v (if c ≠ 15 ∧ bitsAt v 0 2 = 0 ∧ ¬ bitAt v 3 then s.onIocc k fun x => x.setCsr c (setBit v 3 true) else s)
  else
    .ok [] (if c ≠ 15 ∧ bitsAt v 0 2 = 0 ∧ bitAt v 3 then s.onIocc k fun x => x.setCsr c (setBit v 3 false) else s)

/-- The address register 4 gives a DMA slave whose line buffer c holds (R904): the one after the last byte moved. With TCWs
(R907) it is the register of the channel number, and the byte before it is translated. -/
def slaveFlushLine (k : Nat) (c : BitVec 4) (s : State) : TcwLook :=
  let x := s.iocc k
  if x.withoutTags then
    let n := bitsAt (x.csr c) 8 4
    if n.toNat ≥ x.slaveChannels then .refused .slaveChannel
    else
      let a := x.reg4 n - 1
      match tcwLookup k (busPage a) s with
      | .tcw t => .tcw ((bitsAt t 0 20 ++ bitsAt a 20 12) + 1)
      | r => r
  else .tcw (x.reg4 c)

/-- DMA slave buffer flush of buffer c (R920). Where no TCW gives the line an address the written bytes go nowhere
(log entry 62). -/
def slaveFlushCommand (k : Nat) (c : BitVec 4) (load : Bool) (s : State) : IoRes :=
  match (s.iocc k).bufferMode, load with
  | .buffered, true => ioErr k (some 1) s
  | .buffered, false =>
    match takeFault k [0xF] s with
    | some (code, s1) => ioErr k (some code) s1
    | none =>
      if bitAt ((s.iocc k).reg8 c) 0 && !bitAt ((s.iocc k).reg8 c) 2 then
        match slaveFlushLine k c s with
        | .refused r => .refused r
        | .tcw a => .ok [] (flushSlave k c (slaveLine a) (((a - 1).toNat % 64) + 1) s.cfg.flushZeroFill s)
        | .absent => .ok [] (emptySlave k c s)
        | .error => ioErr k (some 0xE) s
      else .ok [] (emptySlave k c s)
  | _, true =>
    let (w, s1) := s.drawWord
    loaded w s1
  | _, false => .ok [] s

/-- The copy that was read ahead of buffer i is thrown away, and N with it (R922). -/
def Iocc.dropAhead (x : Iocc) (i : BitVec 4) : Iocc :=
  (x.setReg8 i (setBit (x.reg8 i) 3 false)).setBuf i { x.buf i with ahead := [] }

/-- Next buffer invalidate (R922): an error but for a store with dual buffers; then a hardware fault shows in no error but
invalidates the next buffers of all sixteen. The data, which must be 0, have no effect (log entry 62). -/
def nextInvalidate (k : Nat) (i : BitVec 4) (load : Bool) (s : State) : IoRes :=
  let x := s.iocc k
  if load || x.bufferMode != .buffered || !bitAt x.cfgReg 24 then ioErr k (some 1) s
  else if x.fault = 0 then .ok [] (s.onIocc k fun x => x.dropAhead i)
  else .ok [] (s.onIocc k fun x => sixteen.foldl Iocc.dropAhead { x with fault := 0 })

/-- Levels get their presentation mask back (R916). -/
def eoiCommand (k : Nat) (levels : List (BitVec 4)) (load : Bool) (s : State) : IoRes :=
  let s1 := levels.foldl (fun s l => endOfInterrupt k l s) s
  if load then
    let (w, s2) := s1.drawWord
    loaded w s2
  else .ok [] s1

/-- Board configuration data (R934): one byte, by a setup cycle that the board answers; a slot held in reset does not, and
the identification bytes of a slot that does not answer read X'FF'. A setup cycle whose answer is an error or a bus
timeout ends like any cycle of the processor on the bus; Address Check does not apply (log entry 62). -/
def boardAccess (k : Nat) (slot : BitVec 4) (a : BitVec 28) (n : Nat) (store : Option (List Byte)) (s : State) :
    IoRes :=
  let addr : Word := a.setWidth 32
  if n ≠ 1 then .refused .boardLength
  else
    let (ans, s1) := if (s.iocc k).slotHeld slot then (⟨slot, .byte, .silent⟩, s) else s.takeAnswer k .setup addr
    match ans.reply, store with
    | .silent, none => if bitsAt addr 29 3 < 2 then endCycle k .setup addr 1 none false (.data [0xFF]) s1
      else endCycle k .setup addr 1 none false .silent s1
    | r, _ => endCycle k .setup addr 1 store false r s1

/-- An access to a facility of a lost address (R825, R913): commands and registers are aligned words. -/
def lostAccess (k : Nat) (fac : Config.Lost) (i : BitVec 4) (ea : Word) (n : Nat) (store : Option (List Byte))
    (s : State) : IoRes :=
  let a := bitsAt ea 4 28
  let word := n = 4 ∧ bitsAt ea 30 2 = 0
  let load := store.isNone
  let w := store.map wordOfBytes
  match fac with
  | .timeDelay => timeDelay k ea n load s
  | .board => boardAccess k i a n store s
  | .channelReg => if word then channelRegister k i (bitsAt ea 28 2) w s else .refused .registerForm
  | .limit =>
    if word then
      match w with
      | none => loaded ((s.iocc k).limitLo ++ (s.iocc k).limitHi) s
      | some v => .ok [] (s.onIocc k fun x => { x with limitLo := bitsAt v 0 16, limitHi := bitsAt v 16 16 })
    else .refused .registerForm
  | .enable => if word then enableCommand k (bitsAt ea 12 4) load s else .refused .tableForm
  | .slaveFlush => if word then slaveFlushCommand k (bitsAt ea 12 4) load s else .refused .tableForm
  | .nextInvalidate => if word then nextInvalidate k i load s else .refused .tableForm
  | .eoiAll =>
    if word then eoiCommand k sixteen load s else .refused .tableForm
  | .eoiLevel => if word then eoiCommand k [i] load s else .refused .tableForm

/-- `ControlSpaceAccess` (R825): the facility at EA[4:31]; an address of none is an invalid operation. An access
that starts in the System registers and runs past X'04000FF' is one too, whole: no word of it is handed to or taken
from the host's device (R945 does not say; log entry 40, DESIGN CHOICE). -/
def controlAccess (k : Nat) (ea : Word) (n : Nat) (store : Option (List Byte)) (s : State) : IoRes :=
  let a := bitsAt ea 4 28
  if bitsAt ea 8 2 = 3 then tcwAccess k ea n store s
  else if 0x0A00000 ≤ a.toNat ∧ a.toNat < 0x0C00000 then nvramAccess (a.toNat - 0x0A00000) n store s
  else if 0x0800000 ≤ a.toNat ∧ a.toNat < 0x0808000 then tagAccess k a.toNat n store s
  else if 0x0400090 ≤ a.toNat ∧ a.toNat < 0x04000A0 then vectorAccess k a n store s
  else if 0x04000C0 ≤ a.toNat ∧ a.toNat < 0x0400100 then
    if a.toNat + n ≤ 0x0400100 then sysRegAccess k a n store s else ioErr k (some 1) s
  else
    match iocRegAt (a.toNat / 4 * 4) with
    | some r =>
      if n = 4 ∧ a.toNat % 4 = 0 then iocRegister k r (store.map wordOfBytes) s else .refused .registerForm
    | none =>
      match lostAt s.cfg.lost a with
      | some (fac, i) => lostAccess k fac i ea n store s
      | none => ioErr k (some 1) s

/-! ### The whole path -/

/-- The reserved bits of an I/O segment register for an IOCC (R822): 2-3, 14-23, 27. -/
def segmentReservedMask : Word := 0x3003FF10

/-- The access is a time delay command (R915): bus I/O X'00E0' to X'00E7', or the lost address in control mode. Its first address
says so: a longer access that begins below and runs into those addresses drives bus cycles there too, though R947 says that they
never reach the bus and not what such an access does (log entry 43, DESIGN CHOICE). -/
def isTimeDelay (s : State) (sr ea : Word) : Bool :=
  if bitAt sr 24 then
    match lostAt s.cfg.lost (bitsAt ea 4 28) with
    | some (.timeDelay, _) => true
    | _ => false
  else
    match busTarget sr ea with
    | .io ba => decide (0xE0 ≤ ba.toNat) && decide (ba.toNat ≤ 0xE7)
    | _ => false

/-- `IOCCAccess` (R830), in the order of its tests (decision D38). The bus cycles of a scan end with the byte `upTo` (R358,
R832); an access to the IOCC's own facilities is made whole. -/
def ioccAccess (k : Nat) (sr ea : Word) (n : Nat) (store : Option (List Byte)) (upTo : Option Byte) (s0 : State) :
    IoRes :=
  if sr &&& segmentReservedMask ≠ 0 then .refused .segmentReserved
  else
    let s := waitDelay k s0
    let x := s.iocc k
    if isTimeDelay s sr ea then timeDelay k ea n store.isNone s
    else if bitAt sr 24 then
      if bitAt sr 1 then ioErr k (some 1) s else controlAccess k ea n store s
    else if !bitAt sr 26 && bitsAt (x.csr 15) 0 4 ≠ 0 && s.cfg.devCsr15Sticky then ioErr k none s
    else
      match busTarget sr ea with
      | .invalid => ioErr k (some 1) s
      | .refused => .refused .rtLow
      | .io ba =>
        if bitAt sr 1 && !x.withinLimit (bitsAt ba 16 16).toNat n (bitAt sr 13) then ioErr k (some 3) s
        else busTransfer k .io ba n store upTo (bitAt sr 13) (bitAt sr 12) s
      | .memory ba =>
        if bitAt sr 26 then busTransfer k .memory ba n store upTo true (bitAt sr 12) s
        else memoryTransfer k sr ba n store upTo s

/-- `IOAccess` (R110): by BUID; one that selects no unit is an I/O exception (decision D7). -/
def ioAccess (ea : Word) (n : Nat) (store : Option (List Byte)) (upTo : Option Byte) (s : State) : IoRes :=
  let sr := s.segmentOf ea
  let buid := (bitsAt sr 4 8).toNat
  if buid = 0 then buid0Access sr ea n store s
  else if 0x20 ≤ buid ∧ buid < 0x24 ∧ buid < 0x20 + s.ioccs.length then ioccAccess (buid - 0x20) sr ea n store upTo s
  else .err [] s

end Sys2Proof.Machine
end

