-- ==== Sys2Proof/Machine/Translate.lean ====
section
/-!
DEFINITION. Virtual address translation: the POWER and POWER2 table searches, the TLB, protection, the lock check, and
reference and change recording (21_translation R160 to R210).
-/

namespace Sys2Proof.Machine

/-- What a table search finds (R173, R182). -/
inductive Found where
  | entry (e : TlbEntry)
  | notFound
  | loop
  deriving DecidableEq, Repr

/-- A set reference or change bit: bit 28 or 29 of the word that holds them (R174, R183). -/
def refBit : Nat := 28
/-- See `refBit`. -/
def changeBit : Nat := 29

/-! ### POWER (R173) -/

/-- The address of the HAT entry (R173): `opa | opb`. -/
def hatAddr (sdr1 : Word) (sid : BitVec 24) (vpi : BitVec 16) : Word :=
  let opa : Word := 0#1 ++ bitsAt sdr1 0 16 ++ 0#15
  let opb1 : BitVec 24 := (0#8 ++ vpi) ^^^ sid
  let opb2 : BitVec 24 := 0#3 ++ bitsAt sdr1 24 8 ++ 0x1FFF#13
  opa ||| (0#6 ++ (opb1 &&& opb2) ++ 0#2)

/-- The address of a PFT entry (R173). -/
def pftAddr (sdr0 : Word) (next : BitVec 20) : Word :=
  (bitsAt sdr0 0 16 ++ 0#16) ||| (0#8 ++ next ++ 0#4)

/-- The chain of PFT entries from `next`, at most `fuel` of them (R173). -/
def searchChain (sid : BitVec 24) (vpi : BitVec 16) : Nat → BitVec 20 → State → Found × State
  | 0, _, s => (.loop, s)
  | fuel + 1, next, s =>
    let pa := pftAddr s.sdr0 next
    let (w0, s1) := s.realReadWord pa
    let (w1, s2) := s1.realReadWord (pa + 4)
    if bitsAt w0 0 27 = sid ++ vpi.extractLsb' 13 3 ∧ bitAt w0 27 then
      let (w2, s3) := s2.realReadWord (pa + 8)
      let (w3, s4) := s3.realReadWord (pa + 12)
      (.entry ⟨sid, vpi, next, bitsAt w0 30 2, bitAt w0 refBit, bitAt w0 changeBit, pa, w2, w3⟩, s4)
    else if bitAt w1 0 then (.notFound, s2)
    else searchChain sid vpi fuel (bitsAt w1 12 20) s2

/-- The POWER search (R173): the HAT entry, then at most 127 PFT entries. -/
def searchPower (sid : BitVec 24) (vpi : BitVec 16) (s : State) : Found × State :=
  let (h, s1) := s.realReadWord (hatAddr s.sdr1 sid vpi)
  if bitAt h 0 then (.notFound, s1) else searchChain sid vpi 127 (bitsAt h 12 20) s1

/-! ### POWER2 (R181, R182) -/

/-- `HTABHash1` (R181, log entry 12): the low 19 bits of VPI xor SID. -/
def htabHash1 (sid : BitVec 24) (vpi : BitVec 16) : BitVec 19 := (0#3 ++ vpi) ^^^ sid.extractLsb' 0 19

/-- `HTABHash2` (R181): the one's complement. -/
def htabHash2 (sid : BitVec 24) (vpi : BitVec 16) : BitVec 19 := ~~~ htabHash1 sid vpi

/-- The address of a hash table entry group (R181). -/
def htegAddr (sdr1 : Word) (hash : BitVec 19) : Word :=
  (bitsAt sdr1 0 15 ++ 0#17)
    ||| (0#7 ++ (hash.extractLsb' 11 8 &&& bitsAt sdr1 24 8) ++ hash.extractLsb' 0 11 ++ 0#6)

/-- `fuel` page table entries from `addr` on; `h` is the hash selector they must have (R182). -/
def searchGroup (sid : BitVec 24) (vpi : BitVec 16) (h : Bool) : Nat → Word → State → Option TlbEntry × State
  | 0, _, s => (none, s)
  | fuel + 1, addr, s =>
    let (w0, s1) := s.realReadWord addr
    if bitAt w0 0 ∧ bitAt w0 26 = h ∧ bitsAt w0 1 24 = sid ∧ bitsAt w0 27 5 = vpi.extractLsb' 11 5 then
      let (w1, s2) := s1.realReadWord (addr + 4)
      (some ⟨sid, vpi, bitsAt w1 0 20, bitsAt w1 30 2, bitAt w1 refBit, bitAt w1 changeBit, addr + 4, 0, 0⟩, s2)
    else searchGroup sid vpi h fuel (addr + 8) s1

/-- The POWER2 search (R182): the eight entries of the primary group, then of the secondary one. -/
def searchPower2 (sid : BitVec 24) (vpi : BitVec 16) (s : State) : Found × State :=
  match searchGroup sid vpi false 8 (htegAddr s.sdr1 (htabHash1 sid vpi)) s with
  | (some e, s1) => (.entry e, s1)
  | (none, s1) =>
    match searchGroup sid vpi true 8 (htegAddr s1.sdr1 (htabHash2 sid vpi)) s1 with
    | (some e, s2) => (.entry e, s2)
    | (none, s2) => (.notFound, s2)

/-! ### The TLB (R200) -/

/-- The entries of a virtual page in the TLB: the copies may differ, as those of two TLBs may (R200). -/
def State.tlbCopies (s : State) (sid : BitVec 24) (vpi : BitVec 16) : List TlbEntry :=
  s.tlb.filter fun e => e.sid == sid && e.vpi == vpi

/-- The TLB, a set, with an entry in it. -/
def State.addTlb (s : State) (e : TlbEntry) : State := if e ∈ s.tlb then s else { s with tlb := e :: s.tlb }

/-- The TLB with one entry replaced; other copies of its page stay as they are. -/
def State.replaceTlb (s : State) (e e1 : TlbEntry) : State := { s with tlb := s.tlb.map fun x => if x = e then e1 else x }

/-- The TLB without the entries of a page (R660). -/
def State.dropTlbPage (s : State) (sid : BitVec 24) (vpi : BitVec 16) : State :=
  { s with tlb := s.tlb.filter fun x => !(x.sid == sid && x.vpi == vpi) }

/-- The search of the tables of the implementation (R173, R182). -/
def searchTables (sid : BitVec 24) (vpi : BitVec 16) (s : State) : Found × State :=
  match s.cfg.impl with
  | .power => searchPower sid vpi s
  | .power2 => searchPower2 sid vpi s

/-- A walk of the tables (R200): an entry that it finds enters the TLB. -/
def walkTables (sid : BitVec 24) (vpi : BitVec 16) (s : State) : Found × State :=
  let (r, s1) := searchTables sid vpi s
  match r with
  | .entry e => (.entry e, s1.addTlb e)
  | r => (r, s1)

/-- Look-up of a virtual page (R163, R200): without a copy in the TLB a walk of the tables, else any of the copies or a walk, by
a free choice (decision D9, log entry 11). -/
def lookupPage (sid : BitVec 24) (vpi : BitVec 16) (s : State) : Found × State :=
  match s.tlbCopies sid vpi with
  | [] => walkTables sid vpi s
  | x :: l =>
    let (w, s1) := s.drawWord
    match (x :: l)[w.toNat % (l.length + 2)]? with
    | some e => (.entry e, s1)
    | none => walkTables sid vpi s1

/-! ### Protection and recording -/

/-- `Permitted(K, pp, kind)` (R205). -/
def permitted (k : Bool) (pp : BitVec 2) (store : Bool) : Bool :=
  if pp = 3 then !store
  else if !k || pp = 2 then true
  else if pp = 1 then !store
  else false

/-- The bits of the table word of an entry set to 1, and in this copy of the TLB (R207, R208). -/
def State.recordBits (s : State) (e : TlbEntry) (f c : Bool) : TlbEntry × State :=
  if (f && !e.f) || (c && !e.c) then
    let (w, s1) := s.realReadWord e.word
    let w1 := if f && !e.f then w ||| bitMask refBit else w
    let w2 := if c && !e.c then w1 ||| bitMask changeBit else w1
    let e1 := { e with f := e.f || f, c := e.c || c }
    (e1, (s1.realWriteWord e.word w2).replaceTlb e e1)
  else (e, s)

/-- What a translation answers. -/
inductive Trans where
  | real (ra : Word)
  | fail (c : DsiCause)
  deriving DecidableEq, Repr

/-- The lock check of a special segment (R210): an uninterpreted rule of the entry's lock words, TID and the 128-byte
line. Where it allows the access with new lock words they are written at once, and stay written when the page's protection
then denies the access (log entry 13). -/
def lockCheck (e : TlbEntry) (ea : Word) (store : Bool) (s : State) : Option (TlbEntry × State) :=
  match Config.lockRule e.lock2 e.lock3 (s.tid &&& tidMask) (bitsAt ea 20 5) store with
  | .allow => some (e, s)
  | .deny => none
  | .update w2 w3 =>
    match s.cfg.impl with
    | .power2 => some (e, s)
    | .power =>
      let e1 := { e with lock2 := w2, lock3 := w3 }
      some (e1, ((s.realWriteWord (e.word + 8) w2).realWriteWord (e.word + 12) w3).replaceTlb e e1)

/-- A failed access may or may not have set the reference bit of its page (R207). -/
def State.failedAccess (s : State) (e : TlbEntry) : State :=
  let (b, s1) := s.drawBit
  (s1.recordBits e b false).2

/-- `Translate(ea, which, kind)` (R163) for a segment with T = 0; `data` says a data access, whose special segments are
lock checked. -/
def translate (ea : Word) (data store : Bool) (s : State) : Trans × State :=
  let sr := s.segmentOf ea
  match lookupPage (bitsAt sr 8 24) (bitsAt ea 4 16) s with
  | (.notFound, s1) => (.fail .notFound, s1)
  | (.loop, s1) => (.fail .loop, s1)
  | (.entry e, s1) =>
    match (if data && bitAt sr 2 then lockCheck e ea store s1 else some (e, s1)) with
    | none => (.fail .lock, s1.failedAccess e)
    | some (e1, s2) =>
      if permitted (bitAt sr 1) e1.pp store then
        (.real (e1.rpn ++ bitsAt ea 20 12), (s2.recordBits e1 true store).2)
      else (.fail .protection, s2.failedAccess e1)

/-- The real address of one byte of a data access (R108): a T = 1 segment is a crossing, with MSR(DR) = 0 the effective
address is the real address. -/
def dataAddr (ea : Word) (store : Bool) (s : State) : Trans × State :=
  if bitAt (s.segmentOf ea) 0 then (.fail .crossing, s)
  else if s.msrDR then translate ea true store s
  else (.real ea, s)

/-! ### Instruction fetch (R109) -/

/-- What a fetch answers. -/
inductive Fetched where
  /-- The word. -/
  | word (w : Word) (s : State)
  /-- Instruction Storage, with SRR1 bits 0-15 (R702). -/
  | storage (info : Half) (s : State)
  /-- The line cannot be reloaded: a machine check condition (R122). -/
  | machineCheck (s : State)
  deriving Repr

/-- SRR1 bits 0-15 of an Instruction Storage interrupt for a failed translation (R702). -/
def isiInfo : DsiCause → Half
  | .notFound => 0x4000
  | .loop => 0x0400
  | .protection => 0x0800
  | _ => 0

/-- The word at a real address through the instruction cache. -/
def fetchReal (ra : Word) (s : State) : Fetched :=
  match s.fetchBytes 4 ra with
  | some (l, s1) => .word (wordOfBytes l) s1
  | none => .machineCheck s

/-- One of the values SDR0 or SDR1 has had, a free choice: `now`, or one of those before (R653). -/
def State.pickSdr (s : State) (now : Word) (before : List Word) : Word × State :=
  let (w, s1) := s.drawWord
  ((now :: before).getD (w.toNat % (before.length + 1)) now, s1)

/-- The translation of an instruction fetch. After an mtspr to SDR0 or SDR1 with MSR(IR) = 1, and until prefetched
instructions are discarded, its walk may use for each of the two the old or the new value (R653). -/
def fetchTranslate (ea : Word) (s : State) : Trans × State :=
  if s.sdrBefore = [] then translate ea false false s
  else
    let (a, s1) := s.pickSdr s.sdr0 (s.sdrBefore.map Prod.fst)
    let (b, s2) := s1.pickSdr s.sdr1 (s.sdrBefore.map Prod.snd)
    let (r, s3) := translate ea false false { s2 with sdr0 := a, sdr1 := b }
    (r, { s3 with sdr0 := s.sdr0, sdr1 := s.sdr1 })

/-- A fetch that does not use the prefetch buffer: T = 1, then S = 1, then the translation (R109, decision D6). -/
def fetchNow (ea : Word) (s : State) : Fetched :=
  if !s.msrIR then fetchReal ea s
  else if bitAt (s.segmentOf ea) 0 then .storage 0x1000 s
  else if bitAt (s.segmentOf ea) 2 then .storage 0x2000 s
  else
    match fetchTranslate ea s with
    | (.real ra, s1) => fetchReal ra s1
    | (.fail c, s1) => .storage (isiInfo c) s1

/-- `IFetch(pc)`: a prefetched word if there is one, else a fetch (R133, R645). Among several prefetched words of the
address, which the spec keeps as a set, the fetch takes any (log entry 61). -/
def ifetch (s : State) : Fetched :=
  match s.prefetched s.pc with
  | [] => fetchNow s.pc s
  | w :: l =>
    if l.all (· == w) then .word w s
    else
      let (n, s1) := s.drawWord
      .word ((w :: l).getD (n.toNat % (l.length + 1)) w) s1

/-- A word enters the prefetch buffer if a fetch of it succeeds (R645). One that fails does nothing: no interrupt, and no machine
check condition for a line that is not wholly memory and ROM, of which R122 speaks for reloads and not for prefetches (log
entry 61, DESIGN CHOICE). -/
def State.prefetchWord (s : State) (ea : Word) : State :=
  match fetchNow (wordAlign ea) s with
  | .word w s1 => { s1 with pf := (wordAlign ea, w) :: s1.pf }
  | .storage _ _ => s
  | .machineCheck _ => s

end Sys2Proof.Machine
end

