-- ==== Sys2Proof/Machine/Access.lean ====
section
/-!
DEFINITION. The data access path (20_memory R108 to R117): alignment, I/O segments, the pages of an access, and what is
left of an access that fails part-way (41_fixed_loadstore R370).
-/

namespace Sys2Proof.Machine

/-- What an access of several bytes answers. -/
inductive Got where
  /-- It completes; a load has these bytes. -/
  | ok (bytes : List Byte) (s : State)
  /-- A Data Storage condition at the byte `dar`; the bytes before it had been transferred. -/
  | fail (c : DsiCause) (dar : Word) (got : List Byte) (s : State)
  /-- The spec gives no behaviour. -/
  | refused (r : Refusal)
  deriving Repr

/-- The bytes from an address to the end of its 128-byte line: they lie in one page and under one lock (R111, R210). -/
def pieceSize (ea : Word) (n : Nat) : Nat := min n (128 - ea.toNat % 128)

/-- n bytes from memory segments, in ascending order, each 128-byte line translated and checked on its own (R108,
R111). A failure names the first byte that could not be accessed: for lm, stm and the strings the address of the failing
component (R370). -/
def loadPieces : Nat → Nat → Word → List Byte → State → Got
  | 0, _, _, got, s => .ok got s
  | fuel + 1, n, ea, got, s =>
    if n = 0 then .ok got s
    else
      match dataAddr ea false s with
      | (.fail c, s1) => .fail c ea got s1
      | (.real ra, s1) =>
        let k := pieceSize ea n
        let (l, s2) := State.loadRealBytes k ra s1
        loadPieces fuel (n - k) (ea + BitVec.ofNat 32 k) (got ++ l) s2

/-- Bytes to memory segments, likewise. -/
def storePieces : Nat → List Byte → Word → State → Got
  | 0, _, _, s => .ok [] s
  | fuel + 1, l, ea, s =>
    if l = [] then .ok [] s
    else
      match dataAddr ea true s with
      | (.fail c, s1) => .fail c ea [] s1
      | (.real ra, s1) =>
        let k := pieceSize ea l.length
        storePieces fuel (l.drop k) (ea + BitVec.ofNat 32 k) (State.storeRealBytes (l.take k) ra s1)

/-- A load of n bytes from memory segments. -/
def State.loadMem (s : State) (ea : Word) (n : Nat) : Got := loadPieces n n ea [] s

/-- A store of bytes to memory segments. -/
def State.storeMem (s : State) (ea : Word) (l : List Byte) : Got := storePieces l.length l ea s

/-- The effective address is in an I/O segment (R41, R108). -/
def State.isIo (s : State) (ea : Word) : Bool := bitAt (s.segmentOf ea) 0

/-- A scalar access at `ea` that fails reports its first byte in the failing page, `ea` itself where that is the page it
begins in (R699, decision D26). With MSR(AL) = 0 `ea` is the address as the access uses it, its low bits cleared (R113), and
not the instruction's: R699 names both for an access inside one page (log entry 16). -/
def Got.scalar (ea : Word) : Got → Got
  | .fail c dar got s => .fail c (if bitsAt dar 0 20 = bitsAt ea 0 20 then ea else dar) got s
  | g => g

/-- The access is not on a boundary of its width (R112). -/
def unaligned (ea : Word) (n : Nat) : Bool := ea.toNat % n != 0

/-- `AlignCheck` for halfwords, words and doublewords (R113, R114): the address used, or `none` for an Alignment
interrupt. `w` is the instruction's word. -/
def State.alignCheck (s : State) (w ea : Word) (n : Nat) : Option Word :=
  if !unaligned ea n then some ea
  else if !s.msrAL then some (ea &&& ~~~ BitVec.ofNat 32 (n - 1))
  else if Config.alignHw n ea w then some ea
  else none

/-- `AlignCheck` for lm and stm (R116). -/
def State.alignMultiple (s : State) (ea : Word) : Option Word :=
  if !unaligned ea 4 then some ea
  else if !s.msrAL then some (ea &&& 0xFFFFFFFC)
  else none

/-- The Alignment interrupt some implementations raise for an unaligned access to an I/O segment (R117); with MSR(AL) = 0
there is none (R704). -/
def State.alignIoTrap (s : State) (ea : Word) (n : Nat) : Bool := s.cfg.alignIo && s.msrAL && unaligned ea n

/-- An access to an I/O segment (R110); its failure is an I/O exception with DAR the effective address (R698, R699).
`upTo` is the byte that lscbx looks for. -/
def State.ioGot (s : State) (ea : Word) (n : Nat) (store : Option (List Byte)) (upTo : Option Byte) : Got :=
  match ioAccess ea n store upTo s with
  | .ok l s1 => .ok l s1
  | .err got s1 => .fail .io ea got s1
  | .refused r => .refused r

/-- A fixed-point load of 1, 2 or 4 bytes (R108): a load that fails alters nothing but the interrupt's registers
(R321, R370). -/
def State.fixedLoad (s : State) (w ea : Word) (n : Nat) : Res (List Byte) :=
  let finish (g : Got) : Res (List Byte) :=
    match g with
    | .ok l s1 => .ok l s1
    | .fail c dar _ s1 => .trap (s1.dataStorage c false dar)
    | .refused r => .refused r
  if s.isIo ea then
    if s.alignIoTrap ea n then .trap (s.alignment w ea) else finish (s.ioGot ea n none none)
  else
    match s.alignCheck w ea n with
    | none => .trap (s.alignment w ea)
    | some a => finish ((s.loadMem a n).scalar a)

/-- What is left of the earlier components of an access that fails part-way (R370): all their effects or none, a free
choice (log entry 17). A machine check condition and the answers used up stay. -/
def State.partway (s0 s1 : State) : Bool × State :=
  let (keep, s2) := s1.drawBit
  (keep, if keep then s2 else { s0 with draws := s2.draws, machineCheck := s2.machineCheck })

/-- How a store to memory segments ends (R370). -/
def State.endStore (s0 : State) (g : Got) : Res Unit :=
  match g with
  | .ok _ s1 => .ok () s1
  | .fail c dar _ s1 => .trap ((s0.partway s1).2.dataStorage c true dar)
  | .refused r => .refused r

/-- How a store to an I/O segment ends (R110). -/
def endIoStore (g : Got) : Res Unit :=
  match g with
  | .ok _ s1 => .ok () s1
  | .fail c dar _ s1 => .trap (s1.dataStorage c true dar)
  | .refused r => .refused r

/-- A fixed-point store of 1, 2 or 4 bytes (R108). -/
def State.fixedStore (s : State) (w ea : Word) (l : List Byte) : Res Unit :=
  if s.isIo ea then
    if s.alignIoTrap ea l.length then .trap (s.alignment w ea) else endIoStore (s.ioGot ea l.length (some l) none)
  else
    match s.alignCheck w ea l.length with
    | none => .trap (s.alignment w ea)
    | some a => s.endStore ((s.storeMem a l).scalar a)

/-- A floating-point load of 4 or 8 bytes at `ea` (R108): an I/O segment is a Data Storage interrupt (R698 bit 3). `first` is
the effective address of the instruction, which an Alignment interrupt reports (R705). -/
def State.floatLoad (s : State) (w ea : Word) (n : Nat) (first : Word := ea) : Res (List Byte) :=
  if s.isIo ea then .trap (s.dataStorage .floatIo false ea)
  else
    match s.alignCheck w ea n with
    | none => .trap (s.alignment w first ea)
    | some a =>
      match (s.loadMem a n).scalar a with
      | .ok l s1 => .ok l s1
      | .fail c dar _ s1 => .trap (s1.dataStorage c false dar)
      | .refused r => .refused r

/-- A floating-point store of 4 or 8 bytes at `ea` (R108); `first` as for a load. -/
def State.floatStore (s : State) (w ea : Word) (l : List Byte) (first : Word := ea) : Res Unit :=
  if s.isIo ea then .trap (s.dataStorage .floatIo true ea)
  else
    match s.alignCheck w ea l.length with
    | none => .trap (s.alignment w first ea)
    | some a => s.endStore ((s.storeMem a l).scalar a)

/-- The access goes to the processor's own registers (R762). -/
def State.isBuid0 (s : State) (ea : Word) : Bool := s.isIo ea && bitsAt (s.segmentOf ea) 4 8 == 0

/-- The bytes of lm or of a load string (R354, R356): `put` writes the registers the bytes are for. An access that
fails part-way may have loaded the earlier ones (R370, a free choice); one to BUID 0 has (R762). -/
def State.loadBlock (s : State) (ea : Word) (n : Nat) (put : List Byte → State → State) : Res (List Byte) :=
  match (if s.isIo ea then s.ioGot ea n none none else s.loadMem ea n) with
  | .ok l s1 => .ok l (put l s1)
  | .fail c dar got s1 =>
    let (keep, s2) := s1.drawBit
    .trap ((if keep || s.isBuid0 ea then put got s2 else s2).dataStorage c false dar)
  | .refused r => .refused r

/-- The bytes of stm or of a store string (R355, R359). -/
def State.storeBlock (s : State) (ea : Word) (l : List Byte) : Res Unit :=
  if s.isIo ea then endIoStore (s.ioGot ea l.length (some l) none) else s.endStore (s.storeMem ea l)

end Sys2Proof.Machine
end

