-- ==== Sys2Proof/Machine/Operands.lean ====
section
/-!
DEFINITION. The operand forms: effective addresses, branch targets, the register sequence of the string instructions,
and the carry chain shared by the fixed-point adders.
-/

namespace Sys2Proof.Machine

/-! ### Effective addresses (20_memory R105 to R107) -/

/-- EA of the D-form: `(RA|0) + sext(D)` (R106). -/
def State.eaD (s : State) (ra : RegNum) (d : BitVec 16) : Word := s.regOr0 ra + sext16 d

/-- EA of the X-form: `(RA|0) + GPR[RB]` (R105). -/
def State.eaX (s : State) (ra rb : RegNum) : Word := s.regOr0 ra + s.reg rb

/-- EA of the DS-form: `(RA|0) + sext(DS || 00)` (R107). -/
def State.eaDS (s : State) (ra : RegNum) (ds : BitVec 14) : Word := s.regOr0 ra + (ds ++ 0#2).signExtend 32

/-- A load with update writes RA when it is neither 0 nor RT (R321). -/
def State.updateLoad (s : State) (ra rt : RegNum) (ea : Word) : State :=
  if ra ≠ 0 ∧ ra ≠ rt then s.setReg ra ea else s

/-- A store with update, and a floating-point load or store with update, writes RA when it is not 0 (R321). -/
def State.updateBase (s : State) (ra : RegNum) (ea : Word) : State :=
  if ra ≠ 0 then s.setReg ra ea else s

/-! ### Branch targets (40_branch R281, R282) -/

/-- The target of the I-form (R281). -/
def State.targetI (s : State) (li : BitVec 24) (aa : Bool) : Word :=
  let offset := (li ++ 0#2).signExtend 32
  if aa then offset else s.pc + offset

/-- The target of the B-form (R282). -/
def State.targetB (s : State) (bd : BitVec 14) (aa : Bool) : Word :=
  let offset := (bd ++ 0#2).signExtend 32
  if aa then offset else s.pc + offset

/-! ### Registers of the multiple and string instructions (41_fixed_loadstore R354, R361) -/

/-- The words of the registers from number r to 31 in order, as bytes (R355). -/
def State.regsFrom (s : State) : Nat → Nat → List Byte
  | 0, _ => []
  | k + 1, r => toBytes 4 (s.reg (BitVec.ofNat 5 r)) ++ s.regsFrom k (r + 1)

/-- Registers from r on receive the words of a list of bytes, four at a time; the registers `skip` names keep their
values (R354, R356). A last word of less than four bytes is filled with zeros on the right (R356). -/
def putRegs (skip : RegNum → Bool) : Nat → RegNum → List Byte → State → State
  | 0, _, _, s => s
  | fuel + 1, r, l, s =>
    if l = [] then s
    else
      let v := wordOfBytes ((List.range 4).map fun i => l.getD i 0)
      putRegs skip fuel (r + 1) (l.drop 4) (if skip r then s else s.setReg r v)

/-- The words of a list of bytes that are whole: a load multiple that fails in a word does not load its register. -/
def wholeWords (l : List Byte) : List Byte := l.take (l.length / 4 * 4)

/-- The number of bytes of a string immediate (R356): NB, and 32 for NB = 0. -/
def stringCount (nb : BitVec 5) : Nat := if nb = 0 then 32 else nb.toNat

/-- The number of bytes of an indexed string: XER[25:31] (R357). -/
def State.xerCount (s : State) : Nat := (bitsAt s.xer 25 7).toNat

/-- n bytes of the register sequence that starts at r (R361). -/
def State.stringBytes (s : State) (r : RegNum) (n : Nat) : List Byte :=
  (List.range n).map fun k =>
    (s.reg (r + BitVec.ofNat 5 (k / 4))).extractLsb' (8 * (3 - k % 4)) 8

/-- One byte placed in the register sequence that starts at r (R358): byte k. -/
def State.putStringByte (s : State) (skip : RegNum → Bool) (r : RegNum) (k : Nat) (b : Byte) : State :=
  let q := r + BitVec.ofNat 5 (k / 4)
  if skip q then s else s.setReg q (setBits (s.reg q) (8 * (k % 4)) 8 b)

/-- The last register that a string of k bytes reaches holds, after the loaded bytes, free values; with no byte at all
the first register does (R358). -/
def State.freeTail (s : State) (skip : RegNum → Bool) (r : RegNum) (k : Nat) : State :=
  let q := r + BitVec.ofNat 5 (k / 4)
  if k = 0 then
    let (w, s1) := s.drawWord
    s1.setReg r w
  else if k % 4 = 0 || skip q then s
  else
    let (w, s1) := s.drawWord
    let n := 32 - 8 * (k % 4)
    s1.setReg q (setBits (s1.reg q) (8 * (k % 4)) n (w.extractLsb' 0 n))

end Sys2Proof.Machine
end

