-- ==== Sys2Proof/Machine/Arith.lean ====
section
/-!
DEFINITION. Fixed-point arithmetic and compare (42_fixed_arith R400 to R429).
-/

namespace Sys2Proof.Machine

open Host (Outcome)

/-! ### Shared forms -/

/-- The end of a fixed-point instruction with a target, an overflow and the OE and Rc bits (R400): the summary overflow
that CR0 shows is the new one. -/
def State.arith (s : State) (rt : RegNum) (v : Word) (oe ovf rc : Bool) : State :=
  (((s.setReg rt v).overflow oe ovf).record rc v).advance

/-- `ADD(x, y, c)` into RT with CA (R401). -/
def State.adder (s : State) (rt : RegNum) (x y : Word) (c oe rc : Bool) : State :=
  (s.setCA (carryOut x y c)).arith rt (sum3 x y c) oe (overflowOut x y c) rc

/-- The most negative word. -/
def minWord : Word := 0x80000000

/-- The absolute value of a word modulo 2^32 (R419). -/
def absWord (a : Word) : Word := if a.msb then -a else a

/-! ### Immediate operands -/

/-- `cal` (R402). -/
def execCal (rt ra : RegNum) (d : BitVec 16) (s : State) : Outcome State Fault Refusal :=
  .next (s.setReg rt (s.eaD ra d)).advance

/-- `cau` (R403). -/
def execCau (rt ra : RegNum) (ui : BitVec 16) (s : State) : Outcome State Fault Refusal :=
  .next (s.setReg rt (s.regOr0 ra + (ui ++ 0#16))).advance

/-- `ai.` (R404). -/
def execAiDot (rt ra : RegNum) (si : BitVec 16) (s : State) : Outcome State Fault Refusal :=
  .next (s.adder rt (s.reg ra) (sext16 si) false false true)

/-- `ai` (R405). -/
def execAi (rt ra : RegNum) (si : BitVec 16) (s : State) : Outcome State Fault Refusal :=
  .next (s.adder rt (s.reg ra) (sext16 si) false false false)

/-- `sfi` (R406). -/
def execSfi (rt ra : RegNum) (si : BitVec 16) (s : State) : Outcome State Fault Refusal :=
  .next (s.adder rt (~~~ s.reg ra) (sext16 si) true false false)

/-- MQ becomes a free value (R510). -/
def State.freeMq (s : State) : State :=
  let (w, s1) := s.drawWord
  { s1 with mq := w }

/-- `muli` (R407): MQ is a free value afterwards. -/
def execMuli (rt ra : RegNum) (si : BitVec 16) (s : State) : Outcome State Fault Refusal :=
  .next (s.freeMq.setReg rt (s.reg ra * sext16 si)).advance

/-- `dozi` (R408). -/
def execDozi (rt ra : RegNum) (si : BitVec 16) (s : State) : Outcome State Fault Refusal :=
  .next (s.setReg rt (if (sext16 si).slt (s.reg ra) then 0 else sext16 si - s.reg ra)).advance

/-! ### XO-form -/

/-- `cax` (R409): CA keeps its value. -/
def execCax (rt ra rb : RegNum) (oe rc : Bool) (s : State) : Outcome State Fault Refusal :=
  .next (s.arith rt (s.reg ra + s.reg rb) oe (overflowOut (s.reg ra) (s.reg rb) false) rc)

/-- `a` (R410). -/
def execA (rt ra rb : RegNum) (oe rc : Bool) (s : State) : Outcome State Fault Refusal :=
  .next (s.adder rt (s.reg ra) (s.reg rb) false oe rc)

/-- `ae` (R411). -/
def execAe (rt ra rb : RegNum) (oe rc : Bool) (s : State) : Outcome State Fault Refusal :=
  .next (s.adder rt (s.reg ra) (s.reg rb) s.xerCA oe rc)

/-- `ame` (R412). -/
def execAme (rt ra : RegNum) (oe rc : Bool) (s : State) : Outcome State Fault Refusal :=
  .next (s.adder rt (s.reg ra) 0xFFFFFFFF s.xerCA oe rc)

/-- `aze` (R413). -/
def execAze (rt ra : RegNum) (oe rc : Bool) (s : State) : Outcome State Fault Refusal :=
  .next (s.adder rt (s.reg ra) 0 s.xerCA oe rc)

/-- `sf` (R414). -/
def execSf (rt ra rb : RegNum) (oe rc : Bool) (s : State) : Outcome State Fault Refusal :=
  .next (s.adder rt (~~~ s.reg ra) (s.reg rb) true oe rc)

/-- `sfe` (R415). -/
def execSfe (rt ra rb : RegNum) (oe rc : Bool) (s : State) : Outcome State Fault Refusal :=
  .next (s.adder rt (~~~ s.reg ra) (s.reg rb) s.xerCA oe rc)

/-- `sfme` (R416). -/
def execSfme (rt ra : RegNum) (oe rc : Bool) (s : State) : Outcome State Fault Refusal :=
  .next (s.adder rt (~~~ s.reg ra) 0xFFFFFFFF s.xerCA oe rc)

/-- `sfze` (R417). -/
def execSfze (rt ra : RegNum) (oe rc : Bool) (s : State) : Outcome State Fault Refusal :=
  .next (s.adder rt (~~~ s.reg ra) 0 s.xerCA oe rc)

/-- `neg` (R418). -/
def execNeg (rt ra : RegNum) (oe rc : Bool) (s : State) : Outcome State Fault Refusal :=
  .next (s.arith rt (- s.reg ra) oe (s.reg ra == minWord) rc)

/-- `abs` (R419). -/
def execAbs (rt ra : RegNum) (oe rc : Bool) (s : State) : Outcome State Fault Refusal :=
  .next (s.arith rt (absWord (s.reg ra)) oe (s.reg ra == minWord) rc)

/-- `nabs` (R420): never an overflow. -/
def execNabs (rt ra : RegNum) (oe rc : Bool) (s : State) : Outcome State Fault Refusal :=
  .next (s.arith rt (- absWord (s.reg ra)) oe false rc)

/-- `doz` (R421). -/
def execDoz (rt ra rb : RegNum) (oe rc : Bool) (s : State) : Outcome State Fault Refusal :=
  if (s.reg rb).slt (s.reg ra) then .next (s.arith rt 0 oe false rc)
  else .next (s.arith rt (s.reg rb - s.reg ra) oe (overflowOut (~~~ s.reg ra) (s.reg rb) true) rc)

/-- The signed product (R422). -/
def product (a b : Word) : Int := a.toInt * b.toInt

/-- A number is no signed word (R422). -/
def outsideWord (p : Int) : Bool := decide (p < -2 ^ 31) || decide (2 ^ 31 ≤ p)

/-- `mul` (R422): the high word in RT, the low word in MQ, CR0 from the low word. -/
def execMul (rt ra rb : RegNum) (oe rc : Bool) (s : State) : Outcome State Fault Refusal :=
  let p := product (s.reg ra) (s.reg rb)
  let v := BitVec.ofInt 64 p
  let s1 := ({ s with mq := v.extractLsb' 0 32 }.setReg rt (v.extractLsb' 32 32)).overflow oe (outsideWord p)
  .next (s1.record rc (v.extractLsb' 0 32)).advance

/-- `muls` (R423): MQ is a free value afterwards. -/
def execMuls (rt ra rb : RegNum) (oe rc : Bool) (s : State) : Outcome State Fault Refusal :=
  .next (s.freeMq.arith rt (s.reg ra * s.reg rb) oe (outsideWord (product (s.reg ra) (s.reg rb))) rc)

/-- The end of a divide: quotient, remainder, overflow (R424). -/
def State.divided (s : State) (rt : RegNum) (q r : Word) (oe ovf rc : Bool) : State :=
  { s with mq := r }.arith rt q oe ovf rc

/-- The end of a divide whose results the spec leaves unspecified (R424, R425): RT, MQ and, with Rc, the first three
bits of CR0 are free values; OV is set. -/
def State.undivided (s : State) (rt : RegNum) (oe rc : Bool) : State :=
  let (q, s1) := s.drawWord
  let (r, s2) := s1.drawWord
  let (f, s3) := s2.drawWord
  let s4 := s3.divided rt q r oe true false
  if rc then s4.setCrField 0 (f.extractLsb' 0 3 ++ BitVec.ofBool s4.xerSO) else s4

/-- `div` (R424). -/
def execDiv (rt ra rb : RegNum) (oe rc : Bool) (s : State) : Outcome State Fault Refusal :=
  let n := (s.reg ra ++ s.mq).toInt
  let d := (s.reg rb).toInt
  if d = 0 ∨ outsideWord (n.tdiv d) then
    if s.reg ra = 0xFFFFFFFF ∧ s.mq = minWord ∧ d = -1 then .next (s.divided rt minWord 0 oe true rc)
    else .next (s.undivided rt oe rc)
  else .next (s.divided rt (BitVec.ofInt 32 (n.tdiv d)) (BitVec.ofInt 32 (n - n.tdiv d * d)) oe false rc)

/-- `divs` (R425). -/
def execDivs (rt ra rb : RegNum) (oe rc : Bool) (s : State) : Outcome State Fault Refusal :=
  let n := (s.reg ra).toInt
  let d := (s.reg rb).toInt
  if d = 0 then .next (s.undivided rt oe rc)
  else if s.reg ra = minWord ∧ d = -1 then .next (s.divided rt minWord 0 oe true rc)
  else .next (s.divided rt (BitVec.ofInt 32 (n.tdiv d)) (BitVec.ofInt 32 (n - n.tdiv d * d)) oe false rc)

/-! ### Compare -/

/-- `cmpi` (R426). -/
def execCmpi (bf : CrField) (ra : RegNum) (si : BitVec 16) (s : State) : Outcome State Fault Refusal :=
  .next (s.setCrField bf (compareSigned (s.reg ra) (sext16 si) s.xerSO)).advance

/-- `cmpli` (R427). -/
def execCmpli (bf : CrField) (ra : RegNum) (ui : BitVec 16) (s : State) : Outcome State Fault Refusal :=
  .next (s.setCrField bf (compareUnsigned (s.reg ra) (0#16 ++ ui) s.xerSO)).advance

/-- `cmp` (R428). -/
def execCmp (bf : CrField) (ra rb : RegNum) (s : State) : Outcome State Fault Refusal :=
  .next (s.setCrField bf (compareSigned (s.reg ra) (s.reg rb) s.xerSO)).advance

/-- `cmpl` (R429). -/
def execCmpl (bf : CrField) (ra rb : RegNum) (s : State) : Outcome State Fault Refusal :=
  .next (s.setCrField bf (compareUnsigned (s.reg ra) (s.reg rb) s.xerSO)).advance

end Sys2Proof.Machine
end

