-- ==== Sys2Proof/Machine/Branch.lean ====
section
/-!
DEFINITION. The branch processor's instructions (40_branch): branches, condition register logic, supervisor call,
returns and traps.
-/

namespace Sys2Proof.Machine

open Host (Outcome)

/-! ### Branches -/

/-- CTR after the evaluation of BO (R284): decremented when BO bit 2 is 0. -/
def State.boCtr (s : State) (bo : BitVec 5) : Word := if bo.getMsbD 2 then s.ctr else s.ctr - 1

/-- The branch is taken (R284); CTR counts as decremented. -/
def State.boTaken (s : State) (bo bi : BitVec 5) : Bool :=
  let ctrOk := bo.getMsbD 2 || (s.boCtr bo != 0) != bo.getMsbD 3
  let condOk := bo.getMsbD 0 || s.crBit bi == bo.getMsbD 1
  ctrOk && condOk

/-- The end of a branch (R283): the next address, CTR, and LR when LK is 1. -/
def State.branch (s : State) (taken : Bool) (target ctr : Word) (lk : Bool) : State :=
  { s with
    pc := if taken then target else s.nia
    ctr := ctr
    lr := if lk then s.nia else s.lr }

/-- `b` (R286). -/
def execB (li : BitVec 24) (aa lk : Bool) (s : State) : Outcome State Fault Refusal :=
  .next (s.branch true (s.targetI li aa) s.ctr lk)

/-- `bc` (R287). -/
def execBc (bo bi : BitVec 5) (bd : BitVec 14) (aa lk : Bool) (s : State) : Outcome State Fault Refusal :=
  .next (s.branch (s.boTaken bo bi) (s.targetB bd aa) (s.boCtr bo) lk)

/-- `bcr` (R289): the target is the old LR. -/
def execBcr (bo bi : BitVec 5) (lk : Bool) (s : State) : Outcome State Fault Refusal :=
  .next (s.branch (s.boTaken bo bi) (wordAlign s.lr) (s.boCtr bo) lk)

/-- `bcc` (R290). When CTR is both decremented and the target, which of its values is the target is a free choice (log
entry 23). -/
def execBcc (bo bi : BitVec 5) (lk : Bool) (s : State) : Outcome State Fault Refusal :=
  if bo.getMsbD 2 then .next (s.branch (s.boTaken bo bi) (wordAlign s.ctr) s.ctr lk)
  else
    let (old, s1) := s.drawBit
    .next (s1.branch (s.boTaken bo bi) (wordAlign (if old then s.ctr else s.boCtr bo)) (s.boCtr bo) lk)

/-! ### Supervisor call and returns -/

/-- The MSR bits a supervisor call sets to 0: EE, PR, FE (R722). -/
def svcClearedMsr : Word := 0x0000C800

/-- The entry point of a supervisor call without its prefix (R722). -/
def svcOffset (lev : BitVec 7) (sa : Bool) : Word := if sa then 0x1FE0 else 0#19 ++ 1#1 ++ lev ++ 0#5

/-- `svc` (R291, R722): LR and CTR save the address and MSR; SRR0 and SRR1 do not change. -/
def execSvc (fl1 : BitVec 4) (lev : BitVec 7) (fl2 : BitVec 3) (sa lk : Bool) (s : State) :
    Outcome State Fault Refusal :=
  .next { s.serializeFetch with
    lr := if lk then s.nia else s.lr
    ctr := (fl1 ++ lev ++ fl2 ++ BitVec.ofBool sa ++ BitVec.ofBool lk) ++ s.msr.extractLsb' 0 16
    msr := s.msr &&& ~~~ svcClearedMsr
    pc := vectorPrefix s.msrIP ||| svcOffset lev sa }

/-- `rfi` (R292). -/
def execRfi (s : State) : Outcome State Fault Refusal :=
  privileged s (.next s.returnFromInterrupt)

/-- `rfsvc` (R311): with LK = 1 LR afterwards is a free value. -/
def execRfsvc (lk : Bool) (s : State) : Outcome State Fault Refusal :=
  let s1 := { s.setMsr (setBits s.msr 16 16 (s.ctr.extractLsb' 0 16)) with pc := wordAlign s.lr }
  let s2 :=
    if lk then
      let (w, t) := s1.drawWord
      { t with lr := w }
    else s1
  privileged s (.next s2.serializeFetch.afterMsr)

/-! ### Condition register instructions -/

/-- A condition register logical instruction: CR[BT] <- f CR[BA] CR[BB] (R294 to R301). -/
def State.crLogic (s : State) (f : Bool → Bool → Bool) (bt ba bb : BitVec 5) : State :=
  (s.setCrBit bt (f (s.crBit ba) (s.crBit bb))).advance

/-- `mcrf` (R293). -/
def execMcrf (bf bfa : CrField) (s : State) : Outcome State Fault Refusal :=
  .next (s.setCrField bf (s.crField bfa)).advance

/-- `crand` (R294). -/
def execCrand (bt ba bb : BitVec 5) (s : State) : Outcome State Fault Refusal :=
  .next (s.crLogic (fun a b => a && b) bt ba bb)

/-- `cror` (R295). -/
def execCror (bt ba bb : BitVec 5) (s : State) : Outcome State Fault Refusal :=
  .next (s.crLogic (fun a b => a || b) bt ba bb)

/-- `crxor` (R296). -/
def execCrxor (bt ba bb : BitVec 5) (s : State) : Outcome State Fault Refusal :=
  .next (s.crLogic (fun a b => a != b) bt ba bb)

/-- `crnand` (R297). -/
def execCrnand (bt ba bb : BitVec 5) (s : State) : Outcome State Fault Refusal :=
  .next (s.crLogic (fun a b => !(a && b)) bt ba bb)

/-- `crnor` (R298). -/
def execCrnor (bt ba bb : BitVec 5) (s : State) : Outcome State Fault Refusal :=
  .next (s.crLogic (fun a b => !(a || b)) bt ba bb)

/-- `creqv` (R299). -/
def execCreqv (bt ba bb : BitVec 5) (s : State) : Outcome State Fault Refusal :=
  .next (s.crLogic (fun a b => a == b) bt ba bb)

/-- `crandc` (R300). -/
def execCrandc (bt ba bb : BitVec 5) (s : State) : Outcome State Fault Refusal :=
  .next (s.crLogic (fun a b => a && !b) bt ba bb)

/-- `crorc` (R301). -/
def execCrorc (bt ba bb : BitVec 5) (s : State) : Outcome State Fault Refusal :=
  .next (s.crLogic (fun a b => a || !b) bt ba bb)

/-! ### Traps -/

/-- The trap condition (R304). -/
def trapTaken (cond : BitVec 5) (a b : Word) : Bool :=
  cond.getMsbD 0 && a.slt b || cond.getMsbD 1 && b.slt a || cond.getMsbD 2 && a == b
    || cond.getMsbD 3 && a.ult b || cond.getMsbD 4 && b.ult a

/-- A trap instruction: a Program interrupt, or nothing (R304). -/
def State.trapOn (s : State) (cond : BitVec 5) (a b : Word) : State :=
  if trapTaken cond a b then s.program .trap else s.advance

/-- `t` (R302). -/
def execT (cond : BitVec 5) (ra rb : RegNum) (s : State) : Outcome State Fault Refusal :=
  .next (s.trapOn cond (s.reg ra) (s.reg rb))

/-- `ti` (R303). -/
def execTi (cond : BitVec 5) (ra : RegNum) (si : BitVec 16) (s : State) : Outcome State Fault Refusal :=
  .next (s.trapOn cond (s.reg ra) (sext16 si))

end Sys2Proof.Machine
end

