-- ==== Sys2Proof/Machine/FpNumber.lean ====
section
/-!
DEFINITION. Floating-point data and exact arithmetic (43_float R522 to R532, R550 to R554): value classes, conversions
between formats, exact results as integers scaled by a power of two, and the rounding step.
-/

namespace Sys2Proof.Machine

/-! ### Formats and classes (R522, R523) -/

/-- The sign bit. -/
def fpSign (x : DWord) : Bool := x.getMsbD 0

/-- EXP, biased. -/
def fpExp (x : DWord) : Nat := (x.extractLsb' 52 11).toNat

/-- FRACTION. -/
def fpFrac (x : DWord) : Nat := (x.extractLsb' 0 52).toNat

/-- A NaN. -/
def isNan (x : DWord) : Bool := fpExp x == 2047 && fpFrac x != 0

/-- A signaling NaN: the high-order fraction bit is 0. -/
def isSnan (x : DWord) : Bool := isNan x && !x.getMsbD 12

/-- An infinity. -/
def isInf (x : DWord) : Bool := fpExp x == 2047 && fpFrac x == 0

/-- A zero. -/
def isZero (x : DWord) : Bool := fpExp x == 0 && fpFrac x == 0

/-- The generated QNaN (R524). -/
def defaultNan : DWord := 0x7FF8000000000000

/-- A NaN with its high-order fraction bit set (R524). -/
def quieted (x : DWord) : DWord := x ||| 0x0008000000000000

/-- `NaNResult` of the operands FRA, FRB, FRC that the instruction has, in this order (R524). -/
def nanResult : List DWord → DWord
  | [] => defaultNan
  | x :: l => if isNan x then quieted x else nanResult l

/-- An infinity of a sign. -/
def fpInf (sign : Bool) : DWord := BitVec.ofBool sign ++ 0x7FF#11 ++ 0#52

/-- A zero of a sign. -/
def fpZero (sign : Bool) : DWord := BitVec.ofBool sign ++ 0#63

/-- The largest finite number of a sign (R538). -/
def fpLargest (sign : Bool) : DWord := BitVec.ofBool sign ++ 0x7FEFFFFFFFFFFFFF#63

/-- `Class(x)`: the FPRF code (R40). -/
def fpClass (x : DWord) : BitVec 5 :=
  if isNan x then 0b10001
  else if isInf x then (if fpSign x then 0b01001 else 0b00101)
  else if isZero x then (if fpSign x then 0b10010 else 0b00010)
  else if fpExp x = 0 then (if fpSign x then 0b11000 else 0b10100)
  else if fpSign x then 0b01000
  else 0b00100

/-! ### Load and store conversions (R528, R529) -/

/-- `DoubleOfSingle(w)` (R528). -/
def doubleOfSingle (w : Word) : DWord :=
  let sign := w.extractLsb' 31 1
  let e := (w.extractLsb' 23 8).toNat
  let f := w.extractLsb' 0 23
  if e = 255 then sign ++ 0x7FF#11 ++ f ++ 0#29
  else if e ≠ 0 then sign ++ BitVec.ofNat 11 (e + 896) ++ f ++ 0#29
  else if f = 0 then sign ++ 0#63
  else
    let k := 23 - Nat.log2 f.toNat
    sign ++ BitVec.ofNat 11 (897 - k) ++ BitVec.ofNat 23 (f.toNat <<< k) ++ 0#29

/-- `SingleOfDouble(x)` (R529): a selection of bits, without rounding. A nonzero number with EXP below 874, which no single
is near, is denormalized like those above it, to a zero of its sign (log entry 64). -/
def singleOfDouble (x : DWord) : Word :=
  let e := fpExp x
  if 896 < e ∨ x.extractLsb' 0 63 = 0 then x.extractLsb' 62 2 ++ x.extractLsb' 29 30
  else x.extractLsb' 63 1 ++ 0#8 ++ BitVec.ofNat 23 (((2 ^ 52 + fpFrac x) >>> (897 - e)) >>> 29)

/-! ### Exact values -/

/-- A finite value: `mant * 2 ^ exp` with a sign; `sticky` says that a nonzero part below it was cut off (R531). -/
structure Exact where
  sign : Bool
  mant : Nat
  exp : Int
  sticky : Bool
  deriving DecidableEq, Repr

/-- The value of a finite number (R523, R525). -/
def exactOf (x : DWord) : Exact :=
  if fpExp x = 0 then ⟨fpSign x, fpFrac x, -1074, false⟩
  else ⟨fpSign x, 2 ^ 52 + fpFrac x, (fpExp x : Int) - 1075, false⟩

/-- The magnitude in units of `2 ^ e`, for e not above the exponent. -/
def Exact.scaled (z : Exact) (e : Int) : Int :=
  let m : Int := (z.mant <<< (z.exp - e).toNat : Nat)
  if z.sign then -m else m

/-- The exact sum; a zero has the sign of R552, for which `rn` is the rounding mode. -/
def exactAdd (rn : BitVec 2) (a b : Exact) : Exact :=
  let e := min a.exp b.exp
  let v := a.scaled e + b.scaled e
  let sign := if v = 0 then (if a.sign = b.sign then a.sign else rn == 3) else decide (v < 0)
  ⟨sign, v.natAbs, e, false⟩

/-- The exact product (R553). -/
def exactMul (a b : Exact) : Exact := ⟨a.sign != b.sign, a.mant * b.mant, a.exp + b.exp, false⟩

/-- The quotient to more than 64 bits, and whether it goes on (R553); `b` is not zero. -/
def exactDiv (a b : Exact) : Exact :=
  let n := a.mant <<< 118
  ⟨a.sign != b.sign, n / b.mant, a.exp - b.exp - 118, n % b.mant != 0⟩

/-- The integer square root of v among the numbers r + (numbers of n bits). -/
def sqrtFrom (v : Nat) : Nat → Nat → Nat
  | 0, r => r
  | n + 1, r => sqrtFrom v n (if (r + 2 ^ n) * (r + 2 ^ n) ≤ v then r + 2 ^ n else r)

/-- The square root to at least 64 bits, and whether it goes on; of a value that is not negative. -/
def exactSqrt (a : Exact) : Exact :=
  let odd := (a.exp % 2).toNat
  let v := a.mant <<< (130 + odd)
  let r := sqrtFrom v 96 0
  ⟨a.sign, r, (a.exp - odd) / 2 - 65, r * r != v⟩

/-! ### Rounding (R530, R532) -/

/-- `RoundStep`: the significand is incremented (R532, R620, R623). -/
def roundUp (rn : BitVec 2) (sign lsb g r x : Bool) : Bool :=
  if rn = 0 then g && (lsb || r || x)
  else if rn = 1 then false
  else if rn = 2 then !sign && (g || r || x)
  else sign && (g || r || x)

/-- A value rounded to a multiple of `2 ^ q`. -/
structure Rounded where
  /-- The multiple. -/
  mant : Nat
  /-- FR: it was incremented. -/
  inc : Bool
  /-- FI: it is inexact. -/
  inexact : Bool
  deriving DecidableEq, Repr

/-- Rounding to a multiple of `2 ^ q`; the Guard and Round bits are the two below it, Sticky the rest (R531). -/
def Exact.round (z : Exact) (q : Int) (rn : BitVec 2) : Rounded :=
  if q ≤ z.exp then ⟨z.mant <<< (z.exp - q).toNat, false, z.sticky⟩
  else
    let n := (q - z.exp).toNat
    let m := z.mant >>> n
    let g := z.mant.testBit (n - 1)
    let r := decide (2 ≤ n) && z.mant.testBit (n - 2)
    let x := z.sticky || z.mant % 2 ^ (n - 2) != 0
    let inc := roundUp rn z.sign (m % 2 == 1) g r x
    ⟨m + inc.toNat, inc, g || r || x⟩

/-- The exponent of the leading bit of a value that is not zero. -/
def Exact.top (z : Exact) : Int := z.exp + (Nat.log2 z.mant : Int)

/-- A number of p significant bits, after the shift that a carry needs, and its exponent (R532). -/
structure Significand where
  mant : Nat
  exp : Int
  inc : Bool
  inexact : Bool
  deriving DecidableEq, Repr

/-- A nonzero value rounded to p bits, the exponent unbounded (R530). -/
def Exact.roundTo (z : Exact) (p : Nat) (rn : BitVec 2) : Significand :=
  let e := z.top
  let r := z.round (e - (p - 1 : Nat)) rn
  if r.mant = 2 ^ p then ⟨2 ^ (p - 1), e + 1, r.inc, r.inexact⟩ else ⟨r.mant, e, r.inc, r.inexact⟩

/-- The double with this sign, unbiased exponent and 53-bit significand. -/
def packNormal (sign : Bool) (e : Int) (mant : Nat) : DWord :=
  BitVec.ofBool sign ++ BitVec.ofInt 11 (e + 1023) ++ BitVec.ofNat 52 mant

/-- The double that is `mant * 2 ^ -1074`, at most the smallest normalized number. -/
def packTiny (sign : Bool) (mant : Nat) : DWord := BitVec.ofBool sign ++ BitVec.ofNat 63 mant

/-- A value as a signed number that orders like the numbers themselves, infinities included (R605). -/
def fpOrder (x : DWord) : Int :=
  let m : Int := ((x.extractLsb' 0 63).toNat : Int)
  if fpSign x then -m else m

end Sys2Proof.Machine
end

