-- ==== Sys2Proof/Machine/Float.lean ====
section
/-!
DEFINITION. Floating-point moves, arithmetic, round to single, convert to integer, compare, and the FPSCR instructions
(43_float sections 4 to 6, 8 and 9; 44_float_models).
-/

namespace Sys2Proof.Machine

open Host (Outcome)

/-! ### The FPSCR (10_state R34 to R40) -/

/-- The bits of the FPSCR that exist: not 20, 21 and 29 (R34). -/
def fpscrMask : Word := 0xFFFFF3FB

/-- The invalid operation exception bits: 7 to 12, 22 and 23 (R37). -/
def invalidMask : Word := 0x01F80300

/-- The exception bits: 3 to 12, 22 and 23 (R35). -/
def exceptionMask : Word := 0x1FF80300

/-- VX and FEX recomputed, reserved bits 0 (R36, R37, R607). -/
def fpSummary (v : Word) : Word :=
  let vx := v &&& invalidMask != 0
  let fex := vx && bitAt v 24 || bitAt v 3 && bitAt v 25 || bitAt v 4 && bitAt v 26 || bitAt v 5 && bitAt v 27
    || bitAt v 6 && bitAt v 28
  setBit (setBit (v &&& fpscrMask) 2 vx) 1 fex

/-- Exception bits set: FX when one of them was 0 (R35). -/
def setExceptions (v bits : Word) : Word :=
  if bits &&& ~~~ v = 0 then v else setBit (v ||| bits) 0 true

/-- OX (R34). -/
def oxBit : Word := bitMask 3
/-- UX (R34). -/
def uxBit : Word := bitMask 4
/-- ZX (R34). -/
def zxBit : Word := bitMask 5
/-- XX (R34). -/
def xxBit : Word := bitMask 6
/-- VXSNAN (R34). -/
def vxSnan : Word := bitMask 7
/-- VXISI (R34). -/
def vxIsi : Word := bitMask 8
/-- VXIDI (R34). -/
def vxIdi : Word := bitMask 9
/-- VXZDZ (R34). -/
def vxZdz : Word := bitMask 10
/-- VXIMZ (R34). -/
def vxImz : Word := bitMask 11
/-- VXVC (R34). -/
def vxVc : Word := bitMask 12
/-- VXSQRT (R34). -/
def vxSqrt : Word := bitMask 22
/-- VXCVI (R34). -/
def vxCvi : Word := bitMask 23

/-- FPSCR(VE). -/
def State.fpVE (s : State) : Bool := bitAt s.fpscr 24
/-- FPSCR(OE). -/
def State.fpOE (s : State) : Bool := bitAt s.fpscr 25
/-- FPSCR(UE). -/
def State.fpUE (s : State) : Bool := bitAt s.fpscr 26
/-- FPSCR(ZE). -/
def State.fpZE (s : State) : Bool := bitAt s.fpscr 27
/-- FPSCR(RN). -/
def State.fpRN (s : State) : BitVec 2 := bitsAt s.fpscr 30 2

/-! ### What an instruction does to its target and the FPSCR (R545) -/

/-- The effects of an arithmetic instruction: the result unless suppressed, the exception bits it sets, FPRF, and FR with
FI; `none` leaves a field alone. -/
structure FpOut where
  result : Option DWord
  bits : Word
  fprf : Option (BitVec 5)
  frFi : Option (Bool × Bool)
  deriving DecidableEq, Repr

/-- The FPSCR after an instruction (R545, steps 1 to 3). -/
def FpOut.fpscr (o : FpOut) (v : Word) : Word :=
  let v1 := match o.fprf with
    | some c => setBits v 15 5 c
    | none => v
  let v2 := match o.frFi with
    | some (fr, fi) => setBit (setBit v1 13 fr) 14 fi
    | none => v1
  fpSummary (setExceptions v2 o.bits)

/-- The end of an instruction that can cause an enabled exception (R545 step 6, R560): the Program interrupt, whose SRR0
is the instruction's own address, or the next instruction. -/
def State.fpEnd (s : State) : State :=
  if s.msrFE && s.fex then s.interrupt .program s.pc (programInfo .fpEnabled) else s.advance

/-- The targets of the arithmetic instructions that an frsp may still depend on, after an instruction with these sources
and this target (R539). Which instructions count is the model's choice (log entry 27). -/
def recentAfter (l : List (RegNum × Nat)) (srcs : List RegNum) (frt : RegNum) : List (RegNum × Nat) :=
  (frt, 0) :: ((l.filter fun e => e.1 != frt).map fun e => if srcs.contains e.1 then e else (e.1, e.2 + 1)).filter
    fun e => decide (e.2 < 2)

/-- An arithmetic, rounding or converting instruction completes (R545). For the erratum of R539 each of them that writes its
target is a floating-point arithmetic operation, and one that is suppressed is none (log entry 27). -/
def State.fpComplete (s : State) (o : FpOut) (frt : RegNum) (srcs : List RegNum) (rc : Bool) : State :=
  let s1 := { s with fpscr := o.fpscr s.fpscr }.recordFp rc
  let s2 := match o.result with
    | some v => { s1.setFreg frt v with fpRecent := recentAfter s.fpRecent srcs frt }
    | none => s1
  s2.fpEnd

/-! ### The arithmetic template (R550) -/

/-- A disabled overflow's result (R538). -/
def overflowResult (rn : BitVec 2) (sign : Bool) : DWord :=
  if rn = 0 then fpInf sign
  else if rn = 1 then fpLargest sign
  else if rn = 2 then (if sign then fpLargest sign else fpInf sign)
  else if sign then fpInf sign else fpLargest sign

/-- A delivered result with its class. -/
def delivered (v : DWord) (bits : Word) (frFi : Option (Bool × Bool)) : FpOut := ⟨some v, bits, some (fpClass v), frFi⟩

/-- Steps 6 to 8: an exact result is rounded and delivered (R532, R538, R540, R541). -/
def deliverExact (z : Exact) (rn : BitVec 2) (oe ue : Bool) : FpOut :=
  let inexactBit (fi : Bool) : Word := if fi then xxBit else 0
  if z.mant = 0 then delivered (fpZero z.sign) 0 (some (false, false))
  else if z.top < -1022 && !ue then
    let r := z.round (-1074) rn
    delivered (packTiny z.sign r.mant) (if r.inexact then uxBit ||| xxBit else 0) (some (r.inc, r.inexact))
  else
    let r := z.roundTo 53 rn
    if z.top < -1022 then
      delivered (packNormal z.sign (r.exp + 1536) r.mant) (uxBit ||| inexactBit r.inexact) (some (r.inc, r.inexact))
    else if 1023 < r.exp then
      if oe then
        delivered (packNormal z.sign (r.exp - 1536) r.mant) (oxBit ||| inexactBit r.inexact) (some (r.inc, r.inexact))
      else delivered (overflowResult rn z.sign) (oxBit ||| xxBit) (some (r.inc, true))
    else delivered (packNormal z.sign r.exp r.mant) (inexactBit r.inexact) (some (r.inc, r.inexact))

/-- Steps 2 and 3: an invalid operation with these bits, or a quiet NaN operand (R524, R536). -/
def deliverNan (bits : Word) (ve : Bool) (ops : List DWord) : FpOut :=
  if bits != 0 && ve then ⟨none, bits, none, none⟩ else delivered (nanResult ops) bits none

/-- Steps 1 to 5 for the operands that the instruction names: invalid bits, NaNs, then `f`. -/
def fpArith (s : State) (bits : Word) (ops : List DWord) (f : FpOut) : FpOut :=
  if bits != 0 || ops.any isNan then deliverNan bits s.fpVE ops else f

/-- VXSNAN if an operand is a signaling NaN, else these bits (R536). -/
def snanOr (ops : List DWord) (bits : Word) : Word := if ops.any isSnan then vxSnan else bits

/-- A sum (R593, R594): `b` is the second operand as the addition takes it, `ops` the operands as NaNs see them. -/
def fpSum (s : State) (a b : DWord) (ops : List DWord) : FpOut :=
  fpArith s (snanOr ops (if isInf a && isInf b && fpSign a != fpSign b then vxIsi else 0)) ops
    (if isInf a then delivered a 0 none
     else if isInf b then delivered b 0 none
     else deliverExact (exactAdd s.fpRN (exactOf a) (exactOf b)) s.fpRN s.fpOE s.fpUE)

/-- The sign bit inverted. -/
def negated (x : DWord) : DWord := x ^^^ 0x8000000000000000

/-- A zero times an infinity. -/
def zeroTimesInf (a c : DWord) : Bool := isZero a && isInf c || isInf a && isZero c

/-- A product (R595). -/
def fpProduct (s : State) (a c : DWord) : FpOut :=
  fpArith s (snanOr [a, c] (if zeroTimesInf a c then vxImz else 0)) [a, c]
    (if isInf a || isInf c then delivered (fpInf (fpSign a != fpSign c)) 0 none
     else deliverExact (exactMul (exactOf a) (exactOf c)) s.fpRN s.fpOE s.fpUE)

/-- A quotient (R596, R537). -/
def fpQuotient (s : State) (a b : DWord) : FpOut :=
  let sign := fpSign a != fpSign b
  let invalid := if isInf a && isInf b then vxIdi else if isZero a && isZero b then vxZdz else 0
  fpArith s (snanOr [a, b] invalid) [a, b]
    (if isInf a then delivered (fpInf sign) 0 none
     else if isInf b then delivered (fpZero sign) 0 none
     else if isZero b then (if s.fpZE then ⟨none, zxBit, none, none⟩ else delivered (fpInf sign) zxBit none)
     else deliverExact (exactDiv (exactOf a) (exactOf b)) s.fpRN s.fpOE s.fpUE)

/-- The negation of fnma and fnms after rounding, of a result that is no NaN (R554). -/
def FpOut.negate (o : FpOut) : FpOut :=
  match o.result with
  | some v => if isNan v then o else { o with result := some (negated v), fprf := some (fpClass (negated v)) }
  | none => o

/-- A multiply-add (R597 to R600, R554): `minus` negates the addend, `neg` the rounded result. -/
def fpMulAdd (s : State) (a b c : DWord) (minus neg : Bool) : FpOut :=
  let ops := [a, b, c]
  let addend := if minus then negated b else b
  let sign := fpSign a != fpSign c
  let infProduct := isInf a || isInf c
  let isi := infProduct && isInf b && sign != fpSign addend && !ops.any isNan
  let bits := (if ops.any isSnan then vxSnan else 0)
    ||| (if zeroTimesInf a c then vxImz else if isi then vxIsi else 0)
  let out := fpArith s bits ops
    (if infProduct then delivered (fpInf sign) 0 none
     else if isInf b then delivered addend 0 none
     else
       deliverExact (exactAdd s.fpRN (exactMul (exactOf a) (exactOf c)) (exactOf addend)) s.fpRN s.fpOE s.fpUE)
  if neg then out.negate else out

/-- A square root (R604). -/
def fpSquareRoot (s : State) (b : DWord) : FpOut :=
  fpArith s (snanOr [b] (if fpSign b && !isZero b && !isNan b then vxSqrt else 0)) [b]
    (if isInf b then delivered b 0 none
     else if isZero b then deliverExact (exactOf b) s.fpRN s.fpOE s.fpUE
     else deliverExact (exactSqrt (exactOf b)) s.fpRN s.fpOE s.fpUE)

/-! ### Round to single (44_float_models R610 to R620) -/

/-- The largest finite single of a sign (R613). -/
def singleLargest (sign : Bool) : DWord := BitVec.ofBool sign ++ 0x47EFFFFFE0000000#63

/-- A disabled overflow to single (R613). -/
def singleOverflow (rn : BitVec 2) (sign : Bool) : DWord :=
  if rn = 0 then fpInf sign
  else if rn = 1 then singleLargest sign
  else if rn = 2 then (if sign then singleLargest sign else fpInf sign)
  else if sign then fpInf sign else singleLargest sign

/-- The class of a nonzero single result below 2^-126 or the smallest normalized number, by its multiple of 2^-149
(R611). -/
def singleTinyClass (sign : Bool) (mant : Nat) : BitVec 5 :=
  if mant = 0 then (if sign then 0b10010 else 0b00010)
  else if 2 ^ 23 ≤ mant then (if sign then 0b01000 else 0b00100)
  else (if sign then 0b11000 else 0b10100)

/-- The double with the value `mant * 2 ^ -149` (R611). -/
def packSingleTiny (sign : Bool) (mant : Nat) : DWord :=
  if mant = 0 then fpZero sign
  else
    let k := Nat.log2 mant
    packNormal sign ((k : Int) - 149) (mant <<< (52 - k))

/-- The rounding of a finite nonzero operand to 24 bits (R611, R612, R614, R619). -/
def roundSingleFinite (s : State) (x : DWord) : FpOut :=
  let z := exactOf x
  let rn := s.fpRN
  let inexactBit (fi : Bool) : Word := if fi then xxBit else 0
  if z.top < -126 && !s.fpUE then
    let r := z.round (-149) rn
    ⟨some (packSingleTiny z.sign r.mant), if r.inexact then uxBit ||| xxBit else 0,
      some (singleTinyClass z.sign r.mant), some (r.inc, r.inexact)⟩
  else
    let r := z.roundTo 24 rn
    let normal (e : Int) : DWord := packNormal z.sign e (r.mant <<< 29)
    if z.top < -126 then
      delivered (normal (r.exp + 192)) (uxBit ||| inexactBit r.inexact) (some (r.inc, r.inexact))
    else if 127 < r.exp then
      if s.fpOE then
        delivered (normal (r.exp - 192)) (oxBit ||| inexactBit r.inexact) (some (r.inc, r.inexact))
      else
        let fr := if 127 < z.top then bitAt s.fpscr 13 else r.inc
        delivered (singleOverflow rn z.sign) (oxBit ||| xxBit) (some (fr, true))
    else delivered (normal r.exp) (inexactBit r.inexact) (some (r.inc, r.inexact))

/-- A NaN with its low 29 fraction bits 0 (R617). -/
def singleNan (x : DWord) : DWord := x &&& 0xFFFFFFFFE0000000

/-- The dispatch of frsp (R610, R615 to R618). -/
def roundSingle (s : State) (x : DWord) : FpOut :=
  if isSnan x then
    if s.fpVE then ⟨none, vxSnan, none, none⟩ else ⟨some (singleNan (quieted x)), vxSnan, some 0b10001, none⟩
  else if isNan x then ⟨some (singleNan x), 0, some 0b10001, none⟩
  else if isInf x || isZero x then delivered x 0 none
  else roundSingleFinite s x

/-- The conditions of the FPA 2.4 erratum (R539): the operand is the target of an arithmetic instruction with fewer than
two nondependent ones since, it is below 2^128, and it rounds to exactly 2^128. -/
def erratumApplies (s : State) (frb : RegNum) (x : DWord) : Bool :=
  let z := exactOf x
  s.cfg.fpaErratum && s.fpRecent.any (fun e => e.1 == frb) && !isNan x && !isInf x && z.top == 127
    && (z.roundTo 24 s.fpRN).exp == 128

/-- The erroneous result (R539): 2^128, as if the result had not overflowed. -/
def erratumResult (s : State) (x : DWord) : FpOut :=
  let z := exactOf x
  let r := z.roundTo 24 s.fpRN
  delivered (BitVec.ofBool z.sign ++ 0x47F0000000000000#63) (if r.inexact then xxBit else 0) (some (r.inc, r.inexact))

/-! ### Convert to integer (R621 to R627) -/

/-- The effects of a convert that the target's free high-order word and the free FPRF do not decide: the low-order word
unless suppressed, the bits, FPRF if assigned, FR and FI. -/
structure IntOut where
  low : Option Word
  bits : Word
  fprf : Option (BitVec 5)
  fr : Bool
  fi : Bool
  deriving DecidableEq, Repr

/-- The convert to integer in a rounding mode (R621 to R627). An inexact operand whose rounded value no signed word holds sets
XX with VXCVI, as R622 and the trace of R629 have it, where R534, whose four pairs do not name this one, allows one exception
bit: the model follows R622 (log entry 28, DESIGN CHOICE). -/
def convertInt (s : State) (x : DWord) (mode : BitVec 2) : IntOut :=
  let ve := s.fpVE
  let limit : Word := if fpSign x then 0x80000000 else 0x7FFFFFFF
  if isInf x then
    ⟨if ve then none else some limit, vxCvi, if ve then none else some (fpClass x), false, false⟩
  else if isNan x then
    ⟨if ve then none else some 0x80000000, vxCvi, if ve then none else some 0b10001, false, false⟩
  else
    let z := exactOf x
    let r := z.round 0 mode
    let inexactBit : Word := if r.inexact then xxBit else 0
    if (if z.sign then 2 ^ 31 else 2 ^ 31 - 1) < r.mant then
      ⟨if ve then none else some limit, vxCvi ||| inexactBit, none, false, false⟩
    else
      let v := BitVec.ofNat 32 r.mant
      ⟨some (if z.sign then -v else v), inexactBit, none, r.inc, r.inexact⟩

/-- FPRF after a convert (log entry 28): a suppressed one, which writes no target, keeps it (R535, decision D24); where a
path assigns none it is free (R621, R627). -/
def IntOut.class (o : IntOut) (free : BitVec 5) : Option (BitVec 5) :=
  if o.low.isNone then none else some (o.fprf.getD free)

/-- A convert completes: the high-order word of the target is a free value, and so may FPRF be (R621). -/
def State.convert (s : State) (frt frb : RegNum) (mode : BitVec 2) (rc : Bool) : State :=
  let o := convertInt s (s.freg frb) mode
  let (high, s1) := s.drawWord
  let (class0, s2) := s1.drawWord
  s2.fpComplete ⟨o.low.map fun w => high ++ w, o.bits, o.class (class0.extractLsb' 0 5), some (o.fr, o.fi)⟩ frt [frb] rc

/-! ### Moves (R589 to R592) -/

/-- A move: the FPSCR keeps its value (R527). -/
def State.fpMove (s : State) (frt : RegNum) (v : DWord) (rc : Bool) : Outcome State Fault Refusal :=
  needFp s (.next ((s.setFreg frt v).recordFp rc).advance)

/-- `fmr` (R589). -/
def execFmr (frt frb : RegNum) (rc : Bool) (s : State) : Outcome State Fault Refusal :=
  s.fpMove frt (s.freg frb) rc

/-- `fneg` (R590). -/
def execFneg (frt frb : RegNum) (rc : Bool) (s : State) : Outcome State Fault Refusal :=
  s.fpMove frt (negated (s.freg frb)) rc

/-- `fabs` (R591). -/
def execFabs (frt frb : RegNum) (rc : Bool) (s : State) : Outcome State Fault Refusal :=
  s.fpMove frt (s.freg frb &&& 0x7FFFFFFFFFFFFFFF) rc

/-- `fnabs` (R592). -/
def execFnabs (frt frb : RegNum) (rc : Bool) (s : State) : Outcome State Fault Refusal :=
  s.fpMove frt (s.freg frb ||| 0x8000000000000000) rc

/-! ### Arithmetic (R593 to R604) -/

/-- `fa` (R593). -/
def execFa (frt fra frb : RegNum) (rc : Bool) (s : State) : Outcome State Fault Refusal :=
  needFp s (.next (s.fpComplete (fpSum s (s.freg fra) (s.freg frb) [s.freg fra, s.freg frb]) frt [fra, frb] rc))

/-- `fs` (R594): the NaN rule sees FRB as it is. -/
def execFs (frt fra frb : RegNum) (rc : Bool) (s : State) : Outcome State Fault Refusal :=
  needFp s
    (.next (s.fpComplete (fpSum s (s.freg fra) (negated (s.freg frb)) [s.freg fra, s.freg frb]) frt [fra, frb] rc))

/-- `fm` (R595). -/
def execFm (frt fra frc : RegNum) (rc : Bool) (s : State) : Outcome State Fault Refusal :=
  needFp s (.next (s.fpComplete (fpProduct s (s.freg fra) (s.freg frc)) frt [fra, frc] rc))

/-- `fd` (R596). -/
def execFd (frt fra frb : RegNum) (rc : Bool) (s : State) : Outcome State Fault Refusal :=
  needFp s (.next (s.fpComplete (fpQuotient s (s.freg fra) (s.freg frb)) frt [fra, frb] rc))

/-- A multiply-add completes (R597 to R600). -/
def State.mulAdd (s : State) (frt fra frb frc : RegNum) (minus neg rc : Bool) : State :=
  s.fpComplete (fpMulAdd s (s.freg fra) (s.freg frb) (s.freg frc) minus neg) frt [fra, frb, frc] rc

/-- `fma` (R597). -/
def execFma (frt fra frb frc : RegNum) (rc : Bool) (s : State) : Outcome State Fault Refusal :=
  needFp s (.next (s.mulAdd frt fra frb frc false false rc))

/-- `fms` (R598). -/
def execFms (frt fra frb frc : RegNum) (rc : Bool) (s : State) : Outcome State Fault Refusal :=
  needFp s (.next (s.mulAdd frt fra frb frc true false rc))

/-- `fnma` (R599). -/
def execFnma (frt fra frb frc : RegNum) (rc : Bool) (s : State) : Outcome State Fault Refusal :=
  needFp s (.next (s.mulAdd frt fra frb frc false true rc))

/-- `fnms` (R600). -/
def execFnms (frt fra frb frc : RegNum) (rc : Bool) (s : State) : Outcome State Fault Refusal :=
  needFp s (.next (s.mulAdd frt fra frb frc true true rc))

/-- `frsp` (R601). On an FPA level with the erratum of R539 its erroneous result is a free choice. -/
def execFrsp (frt frb : RegNum) (rc : Bool) (s : State) : Outcome State Fault Refusal :=
  let x := s.freg frb
  needFp s
    (if erratumApplies s frb x then
      let (wrong, s1) := s.drawBit
      .next (s1.fpComplete (if wrong then erratumResult s x else roundSingle s x) frt [frb] rc)
     else .next (s.fpComplete (roundSingle s x) frt [frb] rc))

/-- `fcir` (R602). -/
def execFcir (frt frb : RegNum) (rc : Bool) (s : State) : Outcome State Fault Refusal :=
  needFp s (.next (s.convert frt frb s.fpRN rc))

/-- `fcirz` (R603). -/
def execFcirz (frt frb : RegNum) (rc : Bool) (s : State) : Outcome State Fault Refusal :=
  needFp s (.next (s.convert frt frb 1 rc))

/-- `fsqrt` (R604). -/
def execFsqrt (frt frb : RegNum) (rc : Bool) (s : State) : Outcome State Fault Refusal :=
  needFp s (.next (s.fpComplete (fpSquareRoot s (s.freg frb)) frt [frb] rc))

/-! ### Compare (R605, R606) -/

/-- Less, greater, equal, unordered (R605). -/
def fpCompare (a b : DWord) : BitVec 4 :=
  if isNan a || isNan b then 0b0001
  else crNibble (decide (fpOrder a < fpOrder b)) (decide (fpOrder b < fpOrder a)) (decide (fpOrder a = fpOrder b)) false

/-- A compare completes: CR field BF and FPCC, whatever VE is; C, FR and FI keep their values (R605). -/
def State.compare (s : State) (bf : CrField) (a b : DWord) (bits : Word) : State :=
  let c := fpCompare a b
  ({ s with fpscr := fpSummary (setExceptions (setBits s.fpscr 16 4 c) bits) }.setCrField bf c).fpEnd

/-- `fcmpu` (R605). -/
def execFcmpu (bf : CrField) (fra frb : RegNum) (s : State) : Outcome State Fault Refusal :=
  let a := s.freg fra
  let b := s.freg frb
  needFp s (.next (s.compare bf a b (snanOr [a, b] 0)))

/-- `fcmpo` (R606): with a signaling NaN and VE = 0 both invalid bits are set. -/
def execFcmpo (bf : CrField) (fra frb : RegNum) (s : State) : Outcome State Fault Refusal :=
  let a := s.freg fra
  let b := s.freg frb
  let bits :=
    if isSnan a || isSnan b then (if s.fpVE then vxSnan else vxSnan ||| vxVc)
    else if isNan a || isNan b then vxVc
    else 0
  needFp s (.next (s.compare bf a b bits))

/-! ### FPSCR instructions (R630 to R635) -/

/-- `mffs` (R630): the high-order word of the target is a free value. -/
def execMffs (frt : RegNum) (rc : Bool) (s : State) : Outcome State Fault Refusal :=
  let (high, s1) := s.drawWord
  needFp s (.next ((s1.setFreg frt (high ++ s.fpscr)).recordFp rc).advance)

/-- The bits that mcrfs resets: FX and the exception bits (R631). -/
def mcrfsMask : Word := exceptionMask ||| 0x80000000

/-- `mcrfs` (R631). -/
def execMcrfs (bf bfa : CrField) (s : State) : Outcome State Fault Refusal :=
  let field := bitsAt s.fpscr (4 * bfa.toNat) 4
  let v := s.fpscr &&& ~~~ (mcrfsMask &&& fieldMask (4 * bfa.toNat) 4)
  needFp s (.next ({ s with fpscr := fpSummary v }.setCrField bf field).advance)

/-- A move to the FPSCR completes: FEX and VX follow from the other bits, then CR1 and the interrupt test (R607). -/
def State.writeFpscr (s : State) (v : Word) (rc : Bool) : State :=
  ({ s with fpscr := fpSummary v }.recordFp rc).fpEnd

/-- The word with ones in the FPSCR fields that a mask names, from field i on (R632). -/
def flmMask (flm : BitVec 8) : Nat → Nat → Word
  | 0, _ => 0
  | n + 1, i => (if flm.getMsbD i then fieldMask (4 * i) 4 else 0) ||| flmMask flm n (i + 1)

/-- `mtfsf` (R632). -/
def execMtfsf (flm : BitVec 8) (frb : RegNum) (rc : Bool) (s : State) : Outcome State Fault Refusal :=
  let m := flmMask flm 8 0
  needFp s (.next (s.writeFpscr (((s.freg frb).extractLsb' 0 32 &&& m) ||| (s.fpscr &&& ~~~ m)) rc))

/-- `mtfsfi` (R633). -/
def execMtfsfi (bf : CrField) (i : BitVec 4) (rc : Bool) (s : State) : Outcome State Fault Refusal :=
  needFp s (.next (s.writeFpscr (setBits s.fpscr (4 * bf.toNat) 4 i) rc))

/-- `mtfsb0` (R634). -/
def execMtfsb0 (bt : BitVec 5) (rc : Bool) (s : State) : Outcome State Fault Refusal :=
  needFp s (.next (s.writeFpscr (setBit s.fpscr bt.toNat false) rc))

/-- `mtfsb1` (R635): an exception bit that becomes 1 sets FX. -/
def execMtfsb1 (bt : BitVec 5) (rc : Bool) (s : State) : Outcome State Fault Refusal :=
  needFp s
    (.next (s.writeFpscr (setBit (setExceptions s.fpscr (bitMask bt.toNat &&& exceptionMask)) bt.toNat true) rc))

end Sys2Proof.Machine
end

