-- ==== Sys2Proof/WellFormed.lean ====
section
/-!
DEFINITION. Which terms of `Instr` are instructions of an implementation. Every field has exactly the width of its place
in the word and the architecture has no invalid forms (R271), so the one check is that POWER2-only instructions (R273)
are not instructions of POWER.
-/

namespace Sys2Proof

/-- The instructions that only POWER2 has (R273). -/
def Instr.power2Only : Instr → Bool
  | .lfq .. | .lfqu .. | .lfqx .. | .lfqux .. | .stfq .. | .stfqu .. | .stfqx .. | .stfqux .. => true
  | .fsqrt .. | .fcir .. | .fcirz .. => true
  | _ => false

/-- `i` is an instruction of implementation `m`. -/
def WellFormed (m : Config.Impl) (i : Instr) : Prop := i.power2Only = true → m = .power2

/-- The check of `WellFormed`. -/
def Instr.wf (m : Config.Impl) (i : Instr) : Bool := !i.power2Only || m == .power2

end Sys2Proof
end

