-- ==== Sys2Proof/Decode.lean ====
section
/-!
DEFINITION. From words to instructions and back (30_encoding R220 to R270). `decode` is total: a word is an instruction
or is rejected by name. Ignored bits (R270) do not matter to `decode`; `encode` writes them 0.
-/

namespace Sys2Proof

open Machine (bitsAt bitAt)

/-- Why a word is no instruction (R269): every case is an invalid operation (R707). -/
inductive Reject where
  /-- The primary opcode is not assigned. -/
  | opcode (primary : Nat)
  /-- The extended opcode is not assigned under this primary opcode. -/
  | extended (primary ext : Nat)
  /-- The instruction exists on POWER2 only (R273). -/
  | power2Only (mnemonic : String)
  deriving DecidableEq, Repr

/-- What a word decodes to. -/
inductive Decoded where
  | instr (i : Instr)
  | invalid (r : Reject)
  deriving DecidableEq, Repr

/-- An instruction of POWER2 (R273). -/
def p2 (m : Config.Impl) (name : String) (i : Instr) : Decoded :=
  match m with
  | .power2 => .instr i
  | .power => .invalid (.power2Only name)

/-- Primary opcode 19 (R264), by the extended opcode, bits 21-30. -/
def decode19 (_ : Config.Impl) (w : Word) (xo : Nat) : Decoded :=
  match xo with
  | 16 => .instr (.bcr (bitsAt w 6 5) (bitsAt w 11 5) (bitAt w 31))
  | 528 => .instr (.bcc (bitsAt w 6 5) (bitsAt w 11 5) (bitAt w 31))
  | 50 => .instr .rfi
  | 82 => .instr (.rfsvc (bitAt w 31))
  | 0 => .instr (.mcrf (bitsAt w 6 3) (bitsAt w 11 3))
  | 257 => .instr (.crand (bitsAt w 6 5) (bitsAt w 11 5) (bitsAt w 16 5))
  | 449 => .instr (.cror (bitsAt w 6 5) (bitsAt w 11 5) (bitsAt w 16 5))
  | 193 => .instr (.crxor (bitsAt w 6 5) (bitsAt w 11 5) (bitsAt w 16 5))
  | 225 => .instr (.crnand (bitsAt w 6 5) (bitsAt w 11 5) (bitsAt w 16 5))
  | 33 => .instr (.crnor (bitsAt w 6 5) (bitsAt w 11 5) (bitsAt w 16 5))
  | 289 => .instr (.creqv (bitsAt w 6 5) (bitsAt w 11 5) (bitsAt w 16 5))
  | 129 => .instr (.crandc (bitsAt w 6 5) (bitsAt w 11 5) (bitsAt w 16 5))
  | 417 => .instr (.crorc (bitsAt w 6 5) (bitsAt w 11 5) (bitsAt w 16 5))
  | 150 => .instr .ics
  | _ => .invalid (.extended 19 xo)

/-- Primary opcode 31 (R265), by the extended opcode, bits 21-30 (in the XO-form bit 21 is OE): the last part. -/
def decode31c (m : Config.Impl) (w : Word) (xo : Nat) : Decoded :=
  match xo with
  | 792 => .instr (.sra (bitsAt w 6 5) (bitsAt w 11 5) (bitsAt w 16 5) (bitAt w 31))
  | 824 => .instr (.srai (bitsAt w 6 5) (bitsAt w 11 5) (bitsAt w 16 5) (bitAt w 31))
  | 920 => .instr (.sraq (bitsAt w 6 5) (bitsAt w 11 5) (bitsAt w 16 5) (bitAt w 31))
  | 952 => .instr (.sraiq (bitsAt w 6 5) (bitsAt w 11 5) (bitsAt w 16 5) (bitAt w 31))
  | 921 => .instr (.srea (bitsAt w 6 5) (bitsAt w 11 5) (bitsAt w 16 5) (bitAt w 31))
  | 467 => .instr (.mtspr (bitsAt w 6 5) (bitsAt w 11 5))
  | 339 => .instr (.mfspr (bitsAt w 6 5) (bitsAt w 11 5))
  | 512 => .instr (.mcrxr (bitsAt w 6 3))
  | 144 => .instr (.mtcrf (bitsAt w 6 5) (bitsAt w 12 8))
  | 19 => .instr (.mfcr (bitsAt w 6 5))
  | 83 => .instr (.mfmsr (bitsAt w 6 5))
  | 146 => .instr (.mtmsr (bitsAt w 6 5))
  | 535 => .instr (.lfsx (bitsAt w 6 5) (bitsAt w 11 5) (bitsAt w 16 5))
  | 567 => .instr (.lfsux (bitsAt w 6 5) (bitsAt w 11 5) (bitsAt w 16 5))
  | 599 => .instr (.lfdx (bitsAt w 6 5) (bitsAt w 11 5) (bitsAt w 16 5))
  | 631 => .instr (.lfdux (bitsAt w 6 5) (bitsAt w 11 5) (bitsAt w 16 5))
  | 663 => .instr (.stfsx (bitsAt w 6 5) (bitsAt w 11 5) (bitsAt w 16 5))
  | 695 => .instr (.stfsux (bitsAt w 6 5) (bitsAt w 11 5) (bitsAt w 16 5))
  | 727 => .instr (.stfdx (bitsAt w 6 5) (bitsAt w 11 5) (bitsAt w 16 5))
  | 759 => .instr (.stfdux (bitsAt w 6 5) (bitsAt w 11 5) (bitsAt w 16 5))
  | 791 => p2 m "lfqx" (.lfqx (bitsAt w 6 5) (bitsAt w 11 5) (bitsAt w 16 5))
  | 823 => p2 m "lfqux" (.lfqux (bitsAt w 6 5) (bitsAt w 11 5) (bitsAt w 16 5))
  | 919 => p2 m "stfqx" (.stfqx (bitsAt w 6 5) (bitsAt w 11 5) (bitsAt w 16 5))
  | 951 => p2 m "stfqux" (.stfqux (bitsAt w 6 5) (bitsAt w 11 5) (bitsAt w 16 5))
  | 598 => .instr .dcs
  | 118 => .instr (.clf (bitsAt w 11 5) (bitsAt w 16 5))
  | 502 => .instr (.cli (bitsAt w 11 5) (bitsAt w 16 5))
  | 630 => .instr (.dclst (bitsAt w 11 5) (bitsAt w 16 5))
  | 1014 => .instr (.dclz (bitsAt w 11 5) (bitsAt w 16 5))
  | 210 => .instr (.mtsr (bitsAt w 6 5) (bitsAt w 12 4))
  | 242 => .instr (.mtsri (bitsAt w 6 5) (bitsAt w 11 5) (bitsAt w 16 5))
  | 595 => .instr (.mfsr (bitsAt w 6 5) (bitsAt w 12 4))
  | 627 => .instr (.mfsri (bitsAt w 6 5) (bitsAt w 11 5) (bitsAt w 16 5))
  | 531 => .instr (.clcs (bitsAt w 6 5) (bitsAt w 11 5))
  | 306 => .instr (.tlbi (bitsAt w 11 5) (bitsAt w 16 5))
  | 818 => .instr (.rac (bitsAt w 6 5) (bitsAt w 11 5) (bitsAt w 16 5) (bitAt w 31))
  | _ => .invalid (.extended 31 xo)

/-- Primary opcode 31 (R265): the second part. -/
def decode31b (m : Config.Impl) (w : Word) (xo : Nat) : Decoded :=
  match xo with
  | 488 | 1000 => .instr (.nabs (bitsAt w 6 5) (bitsAt w 11 5) (bitAt w 21) (bitAt w 31))
  | 264 | 776 => .instr (.doz (bitsAt w 6 5) (bitsAt w 11 5) (bitsAt w 16 5) (bitAt w 21) (bitAt w 31))
  | 107 | 619 => .instr (.mul (bitsAt w 6 5) (bitsAt w 11 5) (bitsAt w 16 5) (bitAt w 21) (bitAt w 31))
  | 235 | 747 => .instr (.muls (bitsAt w 6 5) (bitsAt w 11 5) (bitsAt w 16 5) (bitAt w 21) (bitAt w 31))
  | 331 | 843 => .instr (.div (bitsAt w 6 5) (bitsAt w 11 5) (bitsAt w 16 5) (bitAt w 21) (bitAt w 31))
  | 363 | 875 => .instr (.divs (bitsAt w 6 5) (bitsAt w 11 5) (bitsAt w 16 5) (bitAt w 21) (bitAt w 31))
  | 0 => .instr (.cmp (bitsAt w 6 3) (bitsAt w 11 5) (bitsAt w 16 5))
  | 32 => .instr (.cmpl (bitsAt w 6 3) (bitsAt w 11 5) (bitsAt w 16 5))
  | 28 => .instr (.and (bitsAt w 6 5) (bitsAt w 11 5) (bitsAt w 16 5) (bitAt w 31))
  | 444 => .instr (.or (bitsAt w 6 5) (bitsAt w 11 5) (bitsAt w 16 5) (bitAt w 31))
  | 316 => .instr (.xor (bitsAt w 6 5) (bitsAt w 11 5) (bitsAt w 16 5) (bitAt w 31))
  | 476 => .instr (.nand (bitsAt w 6 5) (bitsAt w 11 5) (bitsAt w 16 5) (bitAt w 31))
  | 124 => .instr (.nor (bitsAt w 6 5) (bitsAt w 11 5) (bitsAt w 16 5) (bitAt w 31))
  | 284 => .instr (.eqv (bitsAt w 6 5) (bitsAt w 11 5) (bitsAt w 16 5) (bitAt w 31))
  | 60 => .instr (.andc (bitsAt w 6 5) (bitsAt w 11 5) (bitsAt w 16 5) (bitAt w 31))
  | 412 => .instr (.orc (bitsAt w 6 5) (bitsAt w 11 5) (bitsAt w 16 5) (bitAt w 31))
  | 922 => .instr (.exts (bitsAt w 6 5) (bitsAt w 11 5) (bitAt w 31))
  | 26 => .instr (.cntlz (bitsAt w 6 5) (bitsAt w 11 5) (bitAt w 31))
  | 537 => .instr (.rrib (bitsAt w 6 5) (bitsAt w 11 5) (bitsAt w 16 5) (bitAt w 31))
  | 29 => .instr (.maskg (bitsAt w 6 5) (bitsAt w 11 5) (bitsAt w 16 5) (bitAt w 31))
  | 541 => .instr (.maskir (bitsAt w 6 5) (bitsAt w 11 5) (bitsAt w 16 5) (bitAt w 31))
  | 24 => .instr (.sl (bitsAt w 6 5) (bitsAt w 11 5) (bitsAt w 16 5) (bitAt w 31))
  | 536 => .instr (.sr (bitsAt w 6 5) (bitsAt w 11 5) (bitsAt w 16 5) (bitAt w 31))
  | 152 => .instr (.slq (bitsAt w 6 5) (bitsAt w 11 5) (bitsAt w 16 5) (bitAt w 31))
  | 664 => .instr (.srq (bitsAt w 6 5) (bitsAt w 11 5) (bitsAt w 16 5) (bitAt w 31))
  | 184 => .instr (.sliq (bitsAt w 6 5) (bitsAt w 11 5) (bitsAt w 16 5) (bitAt w 31))
  | 696 => .instr (.sriq (bitsAt w 6 5) (bitsAt w 11 5) (bitsAt w 16 5) (bitAt w 31))
  | 248 => .instr (.slliq (bitsAt w 6 5) (bitsAt w 11 5) (bitsAt w 16 5) (bitAt w 31))
  | 760 => .instr (.srliq (bitsAt w 6 5) (bitsAt w 11 5) (bitsAt w 16 5) (bitAt w 31))
  | 216 => .instr (.sllq (bitsAt w 6 5) (bitsAt w 11 5) (bitsAt w 16 5) (bitAt w 31))
  | 728 => .instr (.srlq (bitsAt w 6 5) (bitsAt w 11 5) (bitsAt w 16 5) (bitAt w 31))
  | 153 => .instr (.sle (bitsAt w 6 5) (bitsAt w 11 5) (bitsAt w 16 5) (bitAt w 31))
  | 665 => .instr (.sre (bitsAt w 6 5) (bitsAt w 11 5) (bitsAt w 16 5) (bitAt w 31))
  | 217 => .instr (.sleq (bitsAt w 6 5) (bitsAt w 11 5) (bitsAt w 16 5) (bitAt w 31))
  | 729 => .instr (.sreq (bitsAt w 6 5) (bitsAt w 11 5) (bitsAt w 16 5) (bitAt w 31))
  | _ => decode31c m w xo

/-- Primary opcode 31 (R265): the first part. -/
def decode31 (m : Config.Impl) (w : Word) (xo : Nat) : Decoded :=
  match xo with
  | 4 => .instr (.t (bitsAt w 6 5) (bitsAt w 11 5) (bitsAt w 16 5))
  | 87 => .instr (.lbzx (bitsAt w 6 5) (bitsAt w 11 5) (bitsAt w 16 5))
  | 119 => .instr (.lbzux (bitsAt w 6 5) (bitsAt w 11 5) (bitsAt w 16 5))
  | 279 => .instr (.lhzx (bitsAt w 6 5) (bitsAt w 11 5) (bitsAt w 16 5))
  | 311 => .instr (.lhzux (bitsAt w 6 5) (bitsAt w 11 5) (bitsAt w 16 5))
  | 343 => .instr (.lhax (bitsAt w 6 5) (bitsAt w 11 5) (bitsAt w 16 5))
  | 375 => .instr (.lhaux (bitsAt w 6 5) (bitsAt w 11 5) (bitsAt w 16 5))
  | 23 => .instr (.lx (bitsAt w 6 5) (bitsAt w 11 5) (bitsAt w 16 5))
  | 55 => .instr (.lux (bitsAt w 6 5) (bitsAt w 11 5) (bitsAt w 16 5))
  | 215 => .instr (.stbx (bitsAt w 6 5) (bitsAt w 11 5) (bitsAt w 16 5))
  | 247 => .instr (.stbux (bitsAt w 6 5) (bitsAt w 11 5) (bitsAt w 16 5))
  | 407 => .instr (.sthx (bitsAt w 6 5) (bitsAt w 11 5) (bitsAt w 16 5))
  | 439 => .instr (.sthux (bitsAt w 6 5) (bitsAt w 11 5) (bitsAt w 16 5))
  | 151 => .instr (.stx (bitsAt w 6 5) (bitsAt w 11 5) (bitsAt w 16 5))
  | 183 => .instr (.stux (bitsAt w 6 5) (bitsAt w 11 5) (bitsAt w 16 5))
  | 790 => .instr (.lhbrx (bitsAt w 6 5) (bitsAt w 11 5) (bitsAt w 16 5))
  | 534 => .instr (.lbrx (bitsAt w 6 5) (bitsAt w 11 5) (bitsAt w 16 5))
  | 918 => .instr (.sthbrx (bitsAt w 6 5) (bitsAt w 11 5) (bitsAt w 16 5))
  | 662 => .instr (.stbrx (bitsAt w 6 5) (bitsAt w 11 5) (bitsAt w 16 5))
  | 597 => .instr (.lsi (bitsAt w 6 5) (bitsAt w 11 5) (bitsAt w 16 5))
  | 533 => .instr (.lsx (bitsAt w 6 5) (bitsAt w 11 5) (bitsAt w 16 5))
  | 277 => .instr (.lscbx (bitsAt w 6 5) (bitsAt w 11 5) (bitsAt w 16 5) (bitAt w 31))
  | 725 => .instr (.stsi (bitsAt w 6 5) (bitsAt w 11 5) (bitsAt w 16 5))
  | 661 => .instr (.stsx (bitsAt w 6 5) (bitsAt w 11 5) (bitsAt w 16 5))
  | 266 | 778 => .instr (.cax (bitsAt w 6 5) (bitsAt w 11 5) (bitsAt w 16 5) (bitAt w 21) (bitAt w 31))
  | 10 | 522 => .instr (.a (bitsAt w 6 5) (bitsAt w 11 5) (bitsAt w 16 5) (bitAt w 21) (bitAt w 31))
  | 138 | 650 => .instr (.ae (bitsAt w 6 5) (bitsAt w 11 5) (bitsAt w 16 5) (bitAt w 21) (bitAt w 31))
  | 234 | 746 => .instr (.ame (bitsAt w 6 5) (bitsAt w 11 5) (bitAt w 21) (bitAt w 31))
  | 202 | 714 => .instr (.aze (bitsAt w 6 5) (bitsAt w 11 5) (bitAt w 21) (bitAt w 31))
  | 8 | 520 => .instr (.sf (bitsAt w 6 5) (bitsAt w 11 5) (bitsAt w 16 5) (bitAt w 21) (bitAt w 31))
  | 136 | 648 => .instr (.sfe (bitsAt w 6 5) (bitsAt w 11 5) (bitsAt w 16 5) (bitAt w 21) (bitAt w 31))
  | 232 | 744 => .instr (.sfme (bitsAt w 6 5) (bitsAt w 11 5) (bitAt w 21) (bitAt w 31))
  | 200 | 712 => .instr (.sfze (bitsAt w 6 5) (bitsAt w 11 5) (bitAt w 21) (bitAt w 31))
  | 104 | 616 => .instr (.neg (bitsAt w 6 5) (bitsAt w 11 5) (bitAt w 21) (bitAt w 31))
  | 360 | 872 => .instr (.abs (bitsAt w 6 5) (bitsAt w 11 5) (bitAt w 21) (bitAt w 31))
  | _ => decode31b m w xo

/-- Primary opcode 63 (R266), X-form and XFL-form, by bits 21-30. -/
def decode63x (m : Config.Impl) (w : Word) (xo : Nat) : Decoded :=
  match xo with
  | 72 => .instr (.fmr (bitsAt w 6 5) (bitsAt w 16 5) (bitAt w 31))
  | 40 => .instr (.fneg (bitsAt w 6 5) (bitsAt w 16 5) (bitAt w 31))
  | 264 => .instr (.fabs (bitsAt w 6 5) (bitsAt w 16 5) (bitAt w 31))
  | 136 => .instr (.fnabs (bitsAt w 6 5) (bitsAt w 16 5) (bitAt w 31))
  | 12 => .instr (.frsp (bitsAt w 6 5) (bitsAt w 16 5) (bitAt w 31))
  | 14 => p2 m "fcir" (.fcir (bitsAt w 6 5) (bitsAt w 16 5) (bitAt w 31))
  | 15 => p2 m "fcirz" (.fcirz (bitsAt w 6 5) (bitsAt w 16 5) (bitAt w 31))
  | 0 => .instr (.fcmpu (bitsAt w 6 3) (bitsAt w 11 5) (bitsAt w 16 5))
  | 32 => .instr (.fcmpo (bitsAt w 6 3) (bitsAt w 11 5) (bitsAt w 16 5))
  | 583 => .instr (.mffs (bitsAt w 6 5) (bitAt w 31))
  | 64 => .instr (.mcrfs (bitsAt w 6 3) (bitsAt w 11 3))
  | 711 => .instr (.mtfsf (bitsAt w 7 8) (bitsAt w 16 5) (bitAt w 31))
  | 134 => .instr (.mtfsfi (bitsAt w 6 3) (bitsAt w 16 4) (bitAt w 31))
  | 70 => .instr (.mtfsb0 (bitsAt w 6 5) (bitAt w 31))
  | 38 => .instr (.mtfsb1 (bitsAt w 6 5) (bitAt w 31))
  | _ => .invalid (.extended 63 xo)

/-- Primary opcode 63 (R266): the A-form, by bits 26-30; what is left is X-form. -/
def decode63 (m : Config.Impl) (w : Word) (xo : Nat) : Decoded :=
  match xo with
  | 21 => .instr (.fa (bitsAt w 6 5) (bitsAt w 11 5) (bitsAt w 16 5) (bitAt w 31))
  | 20 => .instr (.fs (bitsAt w 6 5) (bitsAt w 11 5) (bitsAt w 16 5) (bitAt w 31))
  | 25 => .instr (.fm (bitsAt w 6 5) (bitsAt w 11 5) (bitsAt w 21 5) (bitAt w 31))
  | 18 => .instr (.fd (bitsAt w 6 5) (bitsAt w 11 5) (bitsAt w 16 5) (bitAt w 31))
  | 29 => .instr (.fma (bitsAt w 6 5) (bitsAt w 11 5) (bitsAt w 16 5) (bitsAt w 21 5) (bitAt w 31))
  | 28 => .instr (.fms (bitsAt w 6 5) (bitsAt w 11 5) (bitsAt w 16 5) (bitsAt w 21 5) (bitAt w 31))
  | 31 => .instr (.fnma (bitsAt w 6 5) (bitsAt w 11 5) (bitsAt w 16 5) (bitsAt w 21 5) (bitAt w 31))
  | 30 => .instr (.fnms (bitsAt w 6 5) (bitsAt w 11 5) (bitsAt w 16 5) (bitsAt w 21 5) (bitAt w 31))
  | 22 => p2 m "fsqrt" (.fsqrt (bitsAt w 6 5) (bitsAt w 16 5) (bitAt w 31))
  | _ => decode63x m w (bitsAt w 21 10).toNat

/-- By the primary opcode, bits 0-5 (R263). -/
def decodeOp (m : Config.Impl) (w : Word) (op : Nat) : Decoded :=
  match op with
  | 3 => .instr (.ti (bitsAt w 6 5) (bitsAt w 11 5) (bitsAt w 16 16))
  | 7 => .instr (.muli (bitsAt w 6 5) (bitsAt w 11 5) (bitsAt w 16 16))
  | 8 => .instr (.sfi (bitsAt w 6 5) (bitsAt w 11 5) (bitsAt w 16 16))
  | 9 => .instr (.dozi (bitsAt w 6 5) (bitsAt w 11 5) (bitsAt w 16 16))
  | 10 => .instr (.cmpli (bitsAt w 6 3) (bitsAt w 11 5) (bitsAt w 16 16))
  | 11 => .instr (.cmpi (bitsAt w 6 3) (bitsAt w 11 5) (bitsAt w 16 16))
  | 12 => .instr (.ai (bitsAt w 6 5) (bitsAt w 11 5) (bitsAt w 16 16))
  | 13 => .instr (.aiDot (bitsAt w 6 5) (bitsAt w 11 5) (bitsAt w 16 16))
  | 14 => .instr (.cal (bitsAt w 6 5) (bitsAt w 11 5) (bitsAt w 16 16))
  | 15 => .instr (.cau (bitsAt w 6 5) (bitsAt w 11 5) (bitsAt w 16 16))
  | 16 => .instr (.bc (bitsAt w 6 5) (bitsAt w 11 5) (bitsAt w 16 14) (bitAt w 30) (bitAt w 31))
  | 17 => .instr (.svc (bitsAt w 16 4) (bitsAt w 20 7) (bitsAt w 27 3) (bitAt w 30) (bitAt w 31))
  | 18 => .instr (.b (bitsAt w 6 24) (bitAt w 30) (bitAt w 31))
  | 20 => .instr (.rlimi (bitsAt w 6 5) (bitsAt w 11 5) (bitsAt w 16 5) (bitsAt w 21 5) (bitsAt w 26 5) (bitAt w 31))
  | 21 => .instr (.rlinm (bitsAt w 6 5) (bitsAt w 11 5) (bitsAt w 16 5) (bitsAt w 21 5) (bitsAt w 26 5) (bitAt w 31))
  | 22 => .instr (.rlmi (bitsAt w 6 5) (bitsAt w 11 5) (bitsAt w 16 5) (bitsAt w 21 5) (bitsAt w 26 5) (bitAt w 31))
  | 23 => .instr (.rlnm (bitsAt w 6 5) (bitsAt w 11 5) (bitsAt w 16 5) (bitsAt w 21 5) (bitsAt w 26 5) (bitAt w 31))
  | 24 => .instr (.oril (bitsAt w 6 5) (bitsAt w 11 5) (bitsAt w 16 16))
  | 25 => .instr (.oriu (bitsAt w 6 5) (bitsAt w 11 5) (bitsAt w 16 16))
  | 26 => .instr (.xoril (bitsAt w 6 5) (bitsAt w 11 5) (bitsAt w 16 16))
  | 27 => .instr (.xoriu (bitsAt w 6 5) (bitsAt w 11 5) (bitsAt w 16 16))
  | 28 => .instr (.andilDot (bitsAt w 6 5) (bitsAt w 11 5) (bitsAt w 16 16))
  | 29 => .instr (.andiuDot (bitsAt w 6 5) (bitsAt w 11 5) (bitsAt w 16 16))
  | 32 => .instr (.l (bitsAt w 6 5) (bitsAt w 11 5) (bitsAt w 16 16))
  | 33 => .instr (.lu (bitsAt w 6 5) (bitsAt w 11 5) (bitsAt w 16 16))
  | 34 => .instr (.lbz (bitsAt w 6 5) (bitsAt w 11 5) (bitsAt w 16 16))
  | 35 => .instr (.lbzu (bitsAt w 6 5) (bitsAt w 11 5) (bitsAt w 16 16))
  | 36 => .instr (.st (bitsAt w 6 5) (bitsAt w 11 5) (bitsAt w 16 16))
  | 37 => .instr (.stu (bitsAt w 6 5) (bitsAt w 11 5) (bitsAt w 16 16))
  | 38 => .instr (.stb (bitsAt w 6 5) (bitsAt w 11 5) (bitsAt w 16 16))
  | 39 => .instr (.stbu (bitsAt w 6 5) (bitsAt w 11 5) (bitsAt w 16 16))
  | 40 => .instr (.lhz (bitsAt w 6 5) (bitsAt w 11 5) (bitsAt w 16 16))
  | 41 => .instr (.lhzu (bitsAt w 6 5) (bitsAt w 11 5) (bitsAt w 16 16))
  | 42 => .instr (.lha (bitsAt w 6 5) (bitsAt w 11 5) (bitsAt w 16 16))
  | 43 => .instr (.lhau (bitsAt w 6 5) (bitsAt w 11 5) (bitsAt w 16 16))
  | 44 => .instr (.sth (bitsAt w 6 5) (bitsAt w 11 5) (bitsAt w 16 16))
  | 45 => .instr (.sthu (bitsAt w 6 5) (bitsAt w 11 5) (bitsAt w 16 16))
  | 46 => .instr (.lm (bitsAt w 6 5) (bitsAt w 11 5) (bitsAt w 16 16))
  | 47 => .instr (.stm (bitsAt w 6 5) (bitsAt w 11 5) (bitsAt w 16 16))
  | 48 => .instr (.lfs (bitsAt w 6 5) (bitsAt w 11 5) (bitsAt w 16 16))
  | 49 => .instr (.lfsu (bitsAt w 6 5) (bitsAt w 11 5) (bitsAt w 16 16))
  | 50 => .instr (.lfd (bitsAt w 6 5) (bitsAt w 11 5) (bitsAt w 16 16))
  | 51 => .instr (.lfdu (bitsAt w 6 5) (bitsAt w 11 5) (bitsAt w 16 16))
  | 52 => .instr (.stfs (bitsAt w 6 5) (bitsAt w 11 5) (bitsAt w 16 16))
  | 53 => .instr (.stfsu (bitsAt w 6 5) (bitsAt w 11 5) (bitsAt w 16 16))
  | 54 => .instr (.stfd (bitsAt w 6 5) (bitsAt w 11 5) (bitsAt w 16 16))
  | 55 => .instr (.stfdu (bitsAt w 6 5) (bitsAt w 11 5) (bitsAt w 16 16))
  | 56 =>
    match (bitsAt w 30 2).toNat with
    | 0 => p2 m "lfq" (.lfq (bitsAt w 6 5) (bitsAt w 11 5) (bitsAt w 16 14))
    | x => .invalid (.extended 56 x)
  | 57 =>
    match (bitsAt w 30 2).toNat with
    | 0 => p2 m "lfqu" (.lfqu (bitsAt w 6 5) (bitsAt w 11 5) (bitsAt w 16 14))
    | x => .invalid (.extended 57 x)
  | 60 =>
    match (bitsAt w 30 2).toNat with
    | 0 => p2 m "stfq" (.stfq (bitsAt w 6 5) (bitsAt w 11 5) (bitsAt w 16 14))
    | x => .invalid (.extended 60 x)
  | 61 =>
    match (bitsAt w 30 2).toNat with
    | 0 => p2 m "stfqu" (.stfqu (bitsAt w 6 5) (bitsAt w 11 5) (bitsAt w 16 14))
    | x => .invalid (.extended 61 x)
  | 19 => decode19 m w (bitsAt w 21 10).toNat
  | 31 => decode31 m w (bitsAt w 21 10).toNat
  | 63 => decode63 m w (bitsAt w 26 5).toNat
  | op => .invalid (.opcode op)

/-- The instruction a word is, on implementation `m` (R263). -/
def decode (m : Config.Impl) (w : Word) : Decoded := decodeOp m w (bitsAt w 0 6).toNat

/-- A one-bit field. -/
def flag (b : Bool) : BitVec 1 := BitVec.ofBool b

/-- The I-form (R222): a 24-bit displacement and two bits. -/
def formI (op : BitVec 6) (li : BitVec 24) (x y : BitVec 1) : Word := op ++ li ++ x ++ y

/-- The B-form (R222). -/
def formB (op : BitVec 6) (a b : BitVec 5) (bd : BitVec 14) (x y : BitVec 1) : Word := op ++ a ++ b ++ bd ++ x ++ y

/-- The SC-form (R222). -/
def formSC (op : BitVec 6) (fl1 : BitVec 4) (lev : BitVec 7) (fl2 : BitVec 3) (x y : BitVec 1) : Word :=
  op ++ 0#10 ++ fl1 ++ lev ++ fl2 ++ x ++ y

/-- The D-form (R222): two fields of 5 bits and one of 16. -/
def formD (op : BitVec 6) (a b : BitVec 5) (d : BitVec 16) : Word := op ++ a ++ b ++ d

/-- The DS-form (R222). -/
def formDS (op : BitVec 6) (a b : BitVec 5) (ds : BitVec 14) (x : BitVec 2) : Word := op ++ a ++ b ++ ds ++ x

/-- The X-, XL-, XFX- and XFL-forms (R222): three fields of 5 bits, a 10-bit extended opcode, and a last bit. -/
def formX (op : BitVec 6) (a b c : BitVec 5) (xo : BitVec 10) (x : BitVec 1) : Word := op ++ a ++ b ++ c ++ xo ++ x

/-- The XO-form (R222): as the X-form, with OE before a 9-bit extended opcode. -/
def formXO (op : BitVec 6) (a b c : BitVec 5) (oe : BitVec 1) (xo : BitVec 9) (x : BitVec 1) : Word :=
  op ++ a ++ b ++ c ++ oe ++ xo ++ x

/-- The A- and M-forms (R222): five fields of 5 bits and a last bit. -/
def formA (op : BitVec 6) (a b c d e : BitVec 5) (x : BitVec 1) : Word := op ++ a ++ b ++ c ++ d ++ e ++ x

/-- The word of an instruction, from the same tables; ignored bits are 0. -/
def encode : Instr → Word
  | .b li aa lk => formI 18 li (flag aa) (flag lk)
  | .bc bo bi bd aa lk => formB 16 bo bi bd (flag aa) (flag lk)
  | .bcr bo bi lk => formX 19 bo bi 0#5 16#10 (flag lk)
  | .bcc bo bi lk => formX 19 bo bi 0#5 528#10 (flag lk)
  | .svc fl1 lev fl2 sa lk => formSC 17 fl1 lev fl2 (flag sa) (flag lk)
  | .rfi => formX 19 0#5 0#5 0#5 50#10 0#1
  | .rfsvc lk => formX 19 0#5 0#5 0#5 82#10 (flag lk)
  | .mcrf bf bfa => formX 19 (bf ++ 0#2) (bfa ++ 0#2) 0#5 0#10 0#1
  | .crand bt ba bb => formX 19 bt ba bb 257#10 0#1
  | .cror bt ba bb => formX 19 bt ba bb 449#10 0#1
  | .crxor bt ba bb => formX 19 bt ba bb 193#10 0#1
  | .crnand bt ba bb => formX 19 bt ba bb 225#10 0#1
  | .crnor bt ba bb => formX 19 bt ba bb 33#10 0#1
  | .creqv bt ba bb => formX 19 bt ba bb 289#10 0#1
  | .crandc bt ba bb => formX 19 bt ba bb 129#10 0#1
  | .crorc bt ba bb => formX 19 bt ba bb 417#10 0#1
  | .t cond ra rb => formX 31 cond ra rb 4#10 0#1
  | .ti cond ra si => formD 3 cond ra si
  | .lbz rt ra d => formD 34 rt ra d
  | .lbzu rt ra d => formD 35 rt ra d
  | .lbzx rt ra rb => formX 31 rt ra rb 87#10 0#1
  | .lbzux rt ra rb => formX 31 rt ra rb 119#10 0#1
  | .lhz rt ra d => formD 40 rt ra d
  | .lhzu rt ra d => formD 41 rt ra d
  | .lhzx rt ra rb => formX 31 rt ra rb 279#10 0#1
  | .lhzux rt ra rb => formX 31 rt ra rb 311#10 0#1
  | .lha rt ra d => formD 42 rt ra d
  | .lhau rt ra d => formD 43 rt ra d
  | .lhax rt ra rb => formX 31 rt ra rb 343#10 0#1
  | .lhaux rt ra rb => formX 31 rt ra rb 375#10 0#1
  | .l rt ra d => formD 32 rt ra d
  | .lu rt ra d => formD 33 rt ra d
  | .lx rt ra rb => formX 31 rt ra rb 23#10 0#1
  | .lux rt ra rb => formX 31 rt ra rb 55#10 0#1
  | .stb rs ra d => formD 38 rs ra d
  | .stbu rs ra d => formD 39 rs ra d
  | .stbx rs ra rb => formX 31 rs ra rb 215#10 0#1
  | .stbux rs ra rb => formX 31 rs ra rb 247#10 0#1
  | .sth rs ra d => formD 44 rs ra d
  | .sthu rs ra d => formD 45 rs ra d
  | .sthx rs ra rb => formX 31 rs ra rb 407#10 0#1
  | .sthux rs ra rb => formX 31 rs ra rb 439#10 0#1
  | .st rs ra d => formD 36 rs ra d
  | .stu rs ra d => formD 37 rs ra d
  | .stx rs ra rb => formX 31 rs ra rb 151#10 0#1
  | .stux rs ra rb => formX 31 rs ra rb 183#10 0#1
  | .lhbrx rt ra rb => formX 31 rt ra rb 790#10 0#1
  | .lbrx rt ra rb => formX 31 rt ra rb 534#10 0#1
  | .sthbrx rs ra rb => formX 31 rs ra rb 918#10 0#1
  | .stbrx rs ra rb => formX 31 rs ra rb 662#10 0#1
  | .lm rt ra d => formD 46 rt ra d
  | .stm rs ra d => formD 47 rs ra d
  | .lsi rt ra nb => formX 31 rt ra nb 597#10 0#1
  | .lsx rt ra rb => formX 31 rt ra rb 533#10 0#1
  | .lscbx rt ra rb rc => formX 31 rt ra rb 277#10 (flag rc)
  | .stsi rs ra nb => formX 31 rs ra nb 725#10 0#1
  | .stsx rs ra rb => formX 31 rs ra rb 661#10 0#1
  | .cal rt ra d => formD 14 rt ra d
  | .cau rt ra ui => formD 15 rt ra ui
  | .aiDot rt ra si => formD 13 rt ra si
  | .ai rt ra si => formD 12 rt ra si
  | .sfi rt ra si => formD 8 rt ra si
  | .muli rt ra si => formD 7 rt ra si
  | .dozi rt ra si => formD 9 rt ra si
  | .cax rt ra rb oe rc => formXO 31 rt ra rb (flag oe) 266#9 (flag rc)
  | .a rt ra rb oe rc => formXO 31 rt ra rb (flag oe) 10#9 (flag rc)
  | .ae rt ra rb oe rc => formXO 31 rt ra rb (flag oe) 138#9 (flag rc)
  | .ame rt ra oe rc => formXO 31 rt ra 0#5 (flag oe) 234#9 (flag rc)
  | .aze rt ra oe rc => formXO 31 rt ra 0#5 (flag oe) 202#9 (flag rc)
  | .sf rt ra rb oe rc => formXO 31 rt ra rb (flag oe) 8#9 (flag rc)
  | .sfe rt ra rb oe rc => formXO 31 rt ra rb (flag oe) 136#9 (flag rc)
  | .sfme rt ra oe rc => formXO 31 rt ra 0#5 (flag oe) 232#9 (flag rc)
  | .sfze rt ra oe rc => formXO 31 rt ra 0#5 (flag oe) 200#9 (flag rc)
  | .neg rt ra oe rc => formXO 31 rt ra 0#5 (flag oe) 104#9 (flag rc)
  | .abs rt ra oe rc => formXO 31 rt ra 0#5 (flag oe) 360#9 (flag rc)
  | .nabs rt ra oe rc => formXO 31 rt ra 0#5 (flag oe) 488#9 (flag rc)
  | .doz rt ra rb oe rc => formXO 31 rt ra rb (flag oe) 264#9 (flag rc)
  | .mul rt ra rb oe rc => formXO 31 rt ra rb (flag oe) 107#9 (flag rc)
  | .muls rt ra rb oe rc => formXO 31 rt ra rb (flag oe) 235#9 (flag rc)
  | .div rt ra rb oe rc => formXO 31 rt ra rb (flag oe) 331#9 (flag rc)
  | .divs rt ra rb oe rc => formXO 31 rt ra rb (flag oe) 363#9 (flag rc)
  | .cmpi bf ra si => formD 11 (bf ++ 0#2) ra si
  | .cmpli bf ra ui => formD 10 (bf ++ 0#2) ra ui
  | .cmp bf ra rb => formX 31 (bf ++ 0#2) ra rb 0#10 0#1
  | .cmpl bf ra rb => formX 31 (bf ++ 0#2) ra rb 32#10 0#1
  | .andilDot rs ra ui => formD 28 rs ra ui
  | .andiuDot rs ra ui => formD 29 rs ra ui
  | .oril rs ra ui => formD 24 rs ra ui
  | .oriu rs ra ui => formD 25 rs ra ui
  | .xoril rs ra ui => formD 26 rs ra ui
  | .xoriu rs ra ui => formD 27 rs ra ui
  | .and rs ra rb rc => formX 31 rs ra rb 28#10 (flag rc)
  | .or rs ra rb rc => formX 31 rs ra rb 444#10 (flag rc)
  | .xor rs ra rb rc => formX 31 rs ra rb 316#10 (flag rc)
  | .nand rs ra rb rc => formX 31 rs ra rb 476#10 (flag rc)
  | .nor rs ra rb rc => formX 31 rs ra rb 124#10 (flag rc)
  | .eqv rs ra rb rc => formX 31 rs ra rb 284#10 (flag rc)
  | .andc rs ra rb rc => formX 31 rs ra rb 60#10 (flag rc)
  | .orc rs ra rb rc => formX 31 rs ra rb 412#10 (flag rc)
  | .exts rs ra rc => formX 31 rs ra 0#5 922#10 (flag rc)
  | .cntlz rs ra rc => formX 31 rs ra 0#5 26#10 (flag rc)
  | .rlimi rs ra sh mb me rc => formA 20 rs ra sh mb me (flag rc)
  | .rlinm rs ra sh mb me rc => formA 21 rs ra sh mb me (flag rc)
  | .rlmi rs ra rb mb me rc => formA 22 rs ra rb mb me (flag rc)
  | .rlnm rs ra rb mb me rc => formA 23 rs ra rb mb me (flag rc)
  | .rrib rs ra rb rc => formX 31 rs ra rb 537#10 (flag rc)
  | .maskg rs ra rb rc => formX 31 rs ra rb 29#10 (flag rc)
  | .maskir rs ra rb rc => formX 31 rs ra rb 541#10 (flag rc)
  | .sl rs ra rb rc => formX 31 rs ra rb 24#10 (flag rc)
  | .sr rs ra rb rc => formX 31 rs ra rb 536#10 (flag rc)
  | .slq rs ra rb rc => formX 31 rs ra rb 152#10 (flag rc)
  | .srq rs ra rb rc => formX 31 rs ra rb 664#10 (flag rc)
  | .sliq rs ra sh rc => formX 31 rs ra sh 184#10 (flag rc)
  | .sriq rs ra sh rc => formX 31 rs ra sh 696#10 (flag rc)
  | .slliq rs ra sh rc => formX 31 rs ra sh 248#10 (flag rc)
  | .srliq rs ra sh rc => formX 31 rs ra sh 760#10 (flag rc)
  | .sllq rs ra rb rc => formX 31 rs ra rb 216#10 (flag rc)
  | .srlq rs ra rb rc => formX 31 rs ra rb 728#10 (flag rc)
  | .sle rs ra rb rc => formX 31 rs ra rb 153#10 (flag rc)
  | .sre rs ra rb rc => formX 31 rs ra rb 665#10 (flag rc)
  | .sleq rs ra rb rc => formX 31 rs ra rb 217#10 (flag rc)
  | .sreq rs ra rb rc => formX 31 rs ra rb 729#10 (flag rc)
  | .sra rs ra rb rc => formX 31 rs ra rb 792#10 (flag rc)
  | .srai rs ra sh rc => formX 31 rs ra sh 824#10 (flag rc)
  | .sraq rs ra rb rc => formX 31 rs ra rb 920#10 (flag rc)
  | .sraiq rs ra sh rc => formX 31 rs ra sh 952#10 (flag rc)
  | .srea rs ra rb rc => formX 31 rs ra rb 921#10 (flag rc)
  | .mtspr rs spr => formX 31 rs spr 0#5 467#10 0#1
  | .mfspr rt spr => formX 31 rt spr 0#5 339#10 0#1
  | .mcrxr bf => formX 31 (bf ++ 0#2) 0#5 0#5 512#10 0#1
  | .mtcrf rs fxm => formX 31 rs (0#1 ++ fxm.extractLsb' 4 4) (fxm.extractLsb' 0 4 ++ 0#1) 144#10 0#1
  | .mfcr rt => formX 31 rt 0#5 0#5 19#10 0#1
  | .mfmsr rt => formX 31 rt 0#5 0#5 83#10 0#1
  | .mtmsr rs => formX 31 rs 0#5 0#5 146#10 0#1
  | .lfs frt ra d => formD 48 frt ra d
  | .lfsu frt ra d => formD 49 frt ra d
  | .lfsx frt ra rb => formX 31 frt ra rb 535#10 0#1
  | .lfsux frt ra rb => formX 31 frt ra rb 567#10 0#1
  | .lfd frt ra d => formD 50 frt ra d
  | .lfdu frt ra d => formD 51 frt ra d
  | .lfdx frt ra rb => formX 31 frt ra rb 599#10 0#1
  | .lfdux frt ra rb => formX 31 frt ra rb 631#10 0#1
  | .stfs frs ra d => formD 52 frs ra d
  | .stfsu frs ra d => formD 53 frs ra d
  | .stfsx frs ra rb => formX 31 frs ra rb 663#10 0#1
  | .stfsux frs ra rb => formX 31 frs ra rb 695#10 0#1
  | .stfd frs ra d => formD 54 frs ra d
  | .stfdu frs ra d => formD 55 frs ra d
  | .stfdx frs ra rb => formX 31 frs ra rb 727#10 0#1
  | .stfdux frs ra rb => formX 31 frs ra rb 759#10 0#1
  | .lfq frt ra ds => formDS 56 frt ra ds 0#2
  | .lfqu frt ra ds => formDS 57 frt ra ds 0#2
  | .lfqx frt ra rb => formX 31 frt ra rb 791#10 0#1
  | .lfqux frt ra rb => formX 31 frt ra rb 823#10 0#1
  | .stfq frs ra ds => formDS 60 frs ra ds 0#2
  | .stfqu frs ra ds => formDS 61 frs ra ds 0#2
  | .stfqx frs ra rb => formX 31 frs ra rb 919#10 0#1
  | .stfqux frs ra rb => formX 31 frs ra rb 951#10 0#1
  | .fmr frt frb rc => formX 63 frt 0#5 frb 72#10 (flag rc)
  | .fneg frt frb rc => formX 63 frt 0#5 frb 40#10 (flag rc)
  | .fabs frt frb rc => formX 63 frt 0#5 frb 264#10 (flag rc)
  | .fnabs frt frb rc => formX 63 frt 0#5 frb 136#10 (flag rc)
  | .fa frt fra frb rc => formA 63 frt fra frb 0#5 21#5 (flag rc)
  | .fs frt fra frb rc => formA 63 frt fra frb 0#5 20#5 (flag rc)
  | .fm frt fra frc rc => formA 63 frt fra 0#5 frc 25#5 (flag rc)
  | .fd frt fra frb rc => formA 63 frt fra frb 0#5 18#5 (flag rc)
  | .fma frt fra frb frc rc => formA 63 frt fra frb frc 29#5 (flag rc)
  | .fms frt fra frb frc rc => formA 63 frt fra frb frc 28#5 (flag rc)
  | .fnma frt fra frb frc rc => formA 63 frt fra frb frc 31#5 (flag rc)
  | .fnms frt fra frb frc rc => formA 63 frt fra frb frc 30#5 (flag rc)
  | .frsp frt frb rc => formX 63 frt 0#5 frb 12#10 (flag rc)
  | .fcir frt frb rc => formX 63 frt 0#5 frb 14#10 (flag rc)
  | .fcirz frt frb rc => formX 63 frt 0#5 frb 15#10 (flag rc)
  | .fsqrt frt frb rc => formA 63 frt 0#5 frb 0#5 22#5 (flag rc)
  | .fcmpu bf fra frb => formX 63 (bf ++ 0#2) fra frb 0#10 0#1
  | .fcmpo bf fra frb => formX 63 (bf ++ 0#2) fra frb 32#10 0#1
  | .mffs frt rc => formX 63 frt 0#5 0#5 583#10 (flag rc)
  | .mcrfs bf bfa => formX 63 (bf ++ 0#2) (bfa ++ 0#2) 0#5 64#10 0#1
  | .mtfsf flm frb rc => formX 63 (0#1 ++ flm.extractLsb' 4 4) (flm.extractLsb' 0 4 ++ 0#1) frb 711#10 (flag rc)
  | .mtfsfi bf i rc => formX 63 (bf ++ 0#2) 0#5 (i ++ 0#1) 134#10 (flag rc)
  | .mtfsb0 bt rc => formX 63 bt 0#5 0#5 70#10 (flag rc)
  | .mtfsb1 bt rc => formX 63 bt 0#5 0#5 38#10 (flag rc)
  | .dcs => formX 31 0#5 0#5 0#5 598#10 0#1
  | .ics => formX 19 0#5 0#5 0#5 150#10 0#1
  | .clf ra rb => formX 31 0#5 ra rb 118#10 0#1
  | .cli ra rb => formX 31 0#5 ra rb 502#10 0#1
  | .dclst ra rb => formX 31 0#5 ra rb 630#10 0#1
  | .dclz ra rb => formX 31 0#5 ra rb 1014#10 0#1
  | .mtsr rs sr => formX 31 rs (0#1 ++ sr) 0#5 210#10 0#1
  | .mtsri rs ra rb => formX 31 rs ra rb 242#10 0#1
  | .mfsr rt sr => formX 31 rt (0#1 ++ sr) 0#5 595#10 0#1
  | .mfsri rs ra rb => formX 31 rs ra rb 627#10 0#1
  | .clcs rt ra => formX 31 rt ra 0#5 531#10 0#1
  | .tlbi ra rb => formX 31 0#5 ra rb 306#10 0#1
  | .rac rt ra rb rc => formX 31 rt ra rb 818#10 (flag rc)

/-- The word of an instruction whose bits are numbered as the opcode table numbers them: bit 0 the least significant. -/
def tableWord (w : Nat) : Word := BitVec.ofNat 32 w

/-- The instruction the decoder reads from the opcode table's numbering of its bits: one 32-bit word, bit 0 its least
significant. Every row is 32 bits; POWER2 has them all. -/
def decodeTableWord (nbits w : Nat) : Option Instr :=
  if nbits ≤ 32 then
    match decode .power2 (tableWord w) with
    | .instr i => some i
    | .invalid _ => none
  else none

end Sys2Proof
end

