-- ==== Sys2Proof/Machine/FpLoadStore.lean ====
section
/-!
DEFINITION. The floating-point loads and stores (43_float section 7). Each meaning passes its own word on, for the
Alignment interrupt's DSISR (R705) and `ALIGN_HW` (R114).
-/

namespace Sys2Proof.Machine

open Host (Outcome)

/-- A single in memory, as a double (R528). -/
def fromSingle (l : List Byte) : DWord := doubleOfSingle (wordOfBytes l)

/-- A double in memory. -/
def fromDouble (l : List Byte) : DWord := ofBytes 64 l

/-- A load of n bytes into FRT (R565 to R572). -/
def State.floatInto (s : State) (w ea : Word) (n : Nat) (conv : List Byte → DWord) (frt : RegNum) :
    Outcome State Fault Refusal :=
  needFp s ((s.floatLoad w ea n).outcome fun l s1 => (s1.setFreg frt (conv l)).advance)

/-- A load with update (R563). -/
def State.floatIntoUpdating (s : State) (w ea : Word) (n : Nat) (conv : List Byte → DWord) (frt ra : RegNum) :
    Outcome State Fault Refusal :=
  needFp s ((s.floatLoad w ea n).outcome fun l s1 => ((s1.setFreg frt (conv l)).updateBase ra ea).advance)

/-- A store (R573 to R580). -/
def State.floatFrom (s : State) (w ea : Word) (l : List Byte) : Outcome State Fault Refusal :=
  needFp s ((s.floatStore w ea l).outcome fun _ s1 => s1.advance)

/-- A store with update (R563). -/
def State.floatFromUpdating (s : State) (w ea : Word) (l : List Byte) (ra : RegNum) : Outcome State Fault Refusal :=
  needFp s ((s.floatStore w ea l).outcome fun _ s1 => (s1.updateBase ra ea).advance)

/-- The bytes of a register stored as a single (R529). -/
def State.singleBytes (s : State) (r : RegNum) : List Byte := toBytes 4 (singleOfDouble (s.freg r))

/-- The bytes of a register. -/
def State.doubleBytes (s : State) (r : RegNum) : List Byte := toBytes 8 (s.freg r)

/-! ### Single and double -/

/-- `lfs` (R565). -/
def execLfs (frt ra : RegNum) (d : BitVec 16) (s : State) : Outcome State Fault Refusal :=
  s.floatInto (encode (.lfs frt ra d)) (s.eaD ra d) 4 fromSingle frt

/-- `lfsu` (R566). -/
def execLfsu (frt ra : RegNum) (d : BitVec 16) (s : State) : Outcome State Fault Refusal :=
  s.floatIntoUpdating (encode (.lfsu frt ra d)) (s.eaD ra d) 4 fromSingle frt ra

/-- `lfsx` (R567). -/
def execLfsx (frt ra rb : RegNum) (s : State) : Outcome State Fault Refusal :=
  s.floatInto (encode (.lfsx frt ra rb)) (s.eaX ra rb) 4 fromSingle frt

/-- `lfsux` (R568). -/
def execLfsux (frt ra rb : RegNum) (s : State) : Outcome State Fault Refusal :=
  s.floatIntoUpdating (encode (.lfsux frt ra rb)) (s.eaX ra rb) 4 fromSingle frt ra

/-- `lfd` (R569). -/
def execLfd (frt ra : RegNum) (d : BitVec 16) (s : State) : Outcome State Fault Refusal :=
  s.floatInto (encode (.lfd frt ra d)) (s.eaD ra d) 8 fromDouble frt

/-- `lfdu` (R570). -/
def execLfdu (frt ra : RegNum) (d : BitVec 16) (s : State) : Outcome State Fault Refusal :=
  s.floatIntoUpdating (encode (.lfdu frt ra d)) (s.eaD ra d) 8 fromDouble frt ra

/-- `lfdx` (R571). -/
def execLfdx (frt ra rb : RegNum) (s : State) : Outcome State Fault Refusal :=
  s.floatInto (encode (.lfdx frt ra rb)) (s.eaX ra rb) 8 fromDouble frt

/-- `lfdux` (R572). -/
def execLfdux (frt ra rb : RegNum) (s : State) : Outcome State Fault Refusal :=
  s.floatIntoUpdating (encode (.lfdux frt ra rb)) (s.eaX ra rb) 8 fromDouble frt ra

/-- `stfs` (R573). -/
def execStfs (frs ra : RegNum) (d : BitVec 16) (s : State) : Outcome State Fault Refusal :=
  s.floatFrom (encode (.stfs frs ra d)) (s.eaD ra d) (s.singleBytes frs)

/-- `stfsu` (R574). -/
def execStfsu (frs ra : RegNum) (d : BitVec 16) (s : State) : Outcome State Fault Refusal :=
  s.floatFromUpdating (encode (.stfsu frs ra d)) (s.eaD ra d) (s.singleBytes frs) ra

/-- `stfsx` (R575). -/
def execStfsx (frs ra rb : RegNum) (s : State) : Outcome State Fault Refusal :=
  s.floatFrom (encode (.stfsx frs ra rb)) (s.eaX ra rb) (s.singleBytes frs)

/-- `stfsux` (R576). -/
def execStfsux (frs ra rb : RegNum) (s : State) : Outcome State Fault Refusal :=
  s.floatFromUpdating (encode (.stfsux frs ra rb)) (s.eaX ra rb) (s.singleBytes frs) ra

/-- `stfd` (R577). -/
def execStfd (frs ra : RegNum) (d : BitVec 16) (s : State) : Outcome State Fault Refusal :=
  s.floatFrom (encode (.stfd frs ra d)) (s.eaD ra d) (s.doubleBytes frs)

/-- `stfdu` (R578). -/
def execStfdu (frs ra : RegNum) (d : BitVec 16) (s : State) : Outcome State Fault Refusal :=
  s.floatFromUpdating (encode (.stfdu frs ra d)) (s.eaD ra d) (s.doubleBytes frs) ra

/-- `stfdx` (R579). -/
def execStfdx (frs ra rb : RegNum) (s : State) : Outcome State Fault Refusal :=
  s.floatFrom (encode (.stfdx frs ra rb)) (s.eaX ra rb) (s.doubleBytes frs)

/-- `stfdux` (R580). -/
def execStfdux (frs ra rb : RegNum) (s : State) : Outcome State Fault Refusal :=
  s.floatFromUpdating (encode (.stfdux frs ra rb)) (s.eaX ra rb) (s.doubleBytes frs) ra

/-! ### Quad (POWER2 only) -/

/-- The two doublewords of a quad load (R581, decision D22): an interrupt on either leaves both registers unchanged. An
Alignment interrupt of the second one has the instruction's effective address in DAR, as the last words of R705 on DAR have
it, and not the address that caused it (log entry 32, DESIGN CHOICE). -/
def State.quadLoad (s : State) (w ea : Word) : Res (DWord × DWord) :=
  (s.floatLoad w ea 8).andThen fun l s1 =>
    (s1.floatLoad w (ea + 8) 8 ea).andThen fun m s2 => .ok (fromDouble l, fromDouble m) s2

/-- A quad load into FRT and the next register. -/
def State.quadInto (s : State) (w ea : Word) (frt : RegNum) (update : State → State) : Outcome State Fault Refusal :=
  needFp s
    ((s.quadLoad w ea).outcome fun p s1 => (update ((s1.setFreg frt p.1).setFreg (frt + 1) p.2)).advance)

/-- The two stores of a quad (R585, decision D22): when the second raises an interrupt, whether the first is performed
is a free choice (R370). DAR as for a quad load (log entry 32). -/
def State.quadStore (s : State) (w ea : Word) (frs : RegNum) : Res Unit :=
  (s.floatStore w ea (s.doubleBytes frs)).andThen fun _ s1 =>
    match s1.floatStore w (ea + 8) (s.doubleBytes (frs + 1)) ea with
    | .trap t =>
      let (keep, t1) := t.drawBit
      .trap (if keep then t1 else { t1 with mem := s.mem, dc := s.dc, wb := s.wb, tlb := s.tlb })
    | r => r

/-- A quad store. -/
def State.quadFrom (s : State) (w ea : Word) (frs : RegNum) (update : State → State) : Outcome State Fault Refusal :=
  needFp s ((s.quadStore w ea frs).outcome fun _ s1 => (update s1).advance)

/-- `lfq` (R581). -/
def execLfq (frt ra : RegNum) (ds : BitVec 14) (s : State) : Outcome State Fault Refusal :=
  s.quadInto (encode (.lfq frt ra ds)) (s.eaDS ra ds) frt id

/-- `lfqu` (R582). -/
def execLfqu (frt ra : RegNum) (ds : BitVec 14) (s : State) : Outcome State Fault Refusal :=
  s.quadInto (encode (.lfqu frt ra ds)) (s.eaDS ra ds) frt (fun t => t.updateBase ra (s.eaDS ra ds))

/-- `lfqx` (R583). -/
def execLfqx (frt ra rb : RegNum) (s : State) : Outcome State Fault Refusal :=
  s.quadInto (encode (.lfqx frt ra rb)) (s.eaX ra rb) frt id

/-- `lfqux` (R584). -/
def execLfqux (frt ra rb : RegNum) (s : State) : Outcome State Fault Refusal :=
  s.quadInto (encode (.lfqux frt ra rb)) (s.eaX ra rb) frt (fun t => t.updateBase ra (s.eaX ra rb))

/-- `stfq` (R585). -/
def execStfq (frs ra : RegNum) (ds : BitVec 14) (s : State) : Outcome State Fault Refusal :=
  s.quadFrom (encode (.stfq frs ra ds)) (s.eaDS ra ds) frs id

/-- `stfqu` (R586). -/
def execStfqu (frs ra : RegNum) (ds : BitVec 14) (s : State) : Outcome State Fault Refusal :=
  s.quadFrom (encode (.stfqu frs ra ds)) (s.eaDS ra ds) frs (fun t => t.updateBase ra (s.eaDS ra ds))

/-- `stfqx` (R587). -/
def execStfqx (frs ra rb : RegNum) (s : State) : Outcome State Fault Refusal :=
  s.quadFrom (encode (.stfqx frs ra rb)) (s.eaX ra rb) frs id

/-- `stfqux` (R588). -/
def execStfqux (frs ra rb : RegNum) (s : State) : Outcome State Fault Refusal :=
  s.quadFrom (encode (.stfqux frs ra rb)) (s.eaX ra rb) frs (fun t => t.updateBase ra (s.eaX ra rb))

end Sys2Proof.Machine
end

