-- ==== Sys2Proof/Machine/LoadStore.lean ====
section
/-!
DEFINITION. The fixed-point loads and stores: scalar, byte-reversed, multiple and string (41_fixed_loadstore). Each
meaning passes its own word on, for the Alignment interrupt's DSISR (R705) and `ALIGN_HW` (R114).
-/

namespace Sys2Proof.Machine

open Host (Outcome)

/-! ### Shared forms -/

/-- The loaded bytes as a word, zeros to the left (R322). -/
def loadZero (l : List Byte) : Word := wordOfBytes l

/-- The loaded halfword as a word, sign extended (R330). Four bytes stand for the whole register, which the time delay
command leaves undefined whatever the length (R915). -/
def loadAlgebraic (l : List Byte) : Word := if l.length = 4 then wordOfBytes l else (ofBytes 16 l).signExtend 32

/-- A scalar load of n bytes into RT (R322 to R337, R350, R351). -/
def State.loadInto (s : State) (w ea : Word) (n : Nat) (conv : List Byte → Word) (rt : RegNum) :
    Outcome State Fault Refusal :=
  (s.fixedLoad w ea n).outcome fun l s1 => (s1.setReg rt (conv l)).advance

/-- A scalar load with update (R321). -/
def State.loadUpdating (s : State) (w ea : Word) (n : Nat) (conv : List Byte → Word) (rt ra : RegNum) :
    Outcome State Fault Refusal :=
  (s.fixedLoad w ea n).outcome fun l s1 => ((s1.setReg rt (conv l)).updateLoad ra rt ea).advance

/-- A scalar store (R338 to R349, R352, R353). -/
def State.storeFrom (s : State) (w ea : Word) (l : List Byte) : Outcome State Fault Refusal :=
  (s.fixedStore w ea l).outcome fun _ s1 => s1.advance

/-- A scalar store with update (R321). -/
def State.storeUpdating (s : State) (w ea : Word) (l : List Byte) (ra : RegNum) : Outcome State Fault Refusal :=
  (s.fixedStore w ea l).outcome fun _ s1 => (s1.updateBase ra ea).advance

/-- The low-order n bytes of a register (R338). -/
def State.lowBytes (s : State) (n : Nat) (r : RegNum) : List Byte := toBytes n (s.reg r)

/-! ### Loads -/

/-- `lbz` (R322). -/
def execLbz (rt ra : RegNum) (d : BitVec 16) (s : State) : Outcome State Fault Refusal :=
  s.loadInto (encode (.lbz rt ra d)) (s.eaD ra d) 1 loadZero rt

/-- `lbzu` (R323). -/
def execLbzu (rt ra : RegNum) (d : BitVec 16) (s : State) : Outcome State Fault Refusal :=
  s.loadUpdating (encode (.lbzu rt ra d)) (s.eaD ra d) 1 loadZero rt ra

/-- `lbzx` (R324). -/
def execLbzx (rt ra rb : RegNum) (s : State) : Outcome State Fault Refusal :=
  s.loadInto (encode (.lbzx rt ra rb)) (s.eaX ra rb) 1 loadZero rt

/-- `lbzux` (R325). -/
def execLbzux (rt ra rb : RegNum) (s : State) : Outcome State Fault Refusal :=
  s.loadUpdating (encode (.lbzux rt ra rb)) (s.eaX ra rb) 1 loadZero rt ra

/-- `lhz` (R326). -/
def execLhz (rt ra : RegNum) (d : BitVec 16) (s : State) : Outcome State Fault Refusal :=
  s.loadInto (encode (.lhz rt ra d)) (s.eaD ra d) 2 loadZero rt

/-- `lhzu` (R327). -/
def execLhzu (rt ra : RegNum) (d : BitVec 16) (s : State) : Outcome State Fault Refusal :=
  s.loadUpdating (encode (.lhzu rt ra d)) (s.eaD ra d) 2 loadZero rt ra

/-- `lhzx` (R328). -/
def execLhzx (rt ra rb : RegNum) (s : State) : Outcome State Fault Refusal :=
  s.loadInto (encode (.lhzx rt ra rb)) (s.eaX ra rb) 2 loadZero rt

/-- `lhzux` (R329). -/
def execLhzux (rt ra rb : RegNum) (s : State) : Outcome State Fault Refusal :=
  s.loadUpdating (encode (.lhzux rt ra rb)) (s.eaX ra rb) 2 loadZero rt ra

/-- `lha` (R330). -/
def execLha (rt ra : RegNum) (d : BitVec 16) (s : State) : Outcome State Fault Refusal :=
  s.loadInto (encode (.lha rt ra d)) (s.eaD ra d) 2 loadAlgebraic rt

/-- `lhau` (R331). -/
def execLhau (rt ra : RegNum) (d : BitVec 16) (s : State) : Outcome State Fault Refusal :=
  s.loadUpdating (encode (.lhau rt ra d)) (s.eaD ra d) 2 loadAlgebraic rt ra

/-- `lhax` (R332). -/
def execLhax (rt ra rb : RegNum) (s : State) : Outcome State Fault Refusal :=
  s.loadInto (encode (.lhax rt ra rb)) (s.eaX ra rb) 2 loadAlgebraic rt

/-- `lhaux` (R333). -/
def execLhaux (rt ra rb : RegNum) (s : State) : Outcome State Fault Refusal :=
  s.loadUpdating (encode (.lhaux rt ra rb)) (s.eaX ra rb) 2 loadAlgebraic rt ra

/-- `l` (R334). -/
def execL (rt ra : RegNum) (d : BitVec 16) (s : State) : Outcome State Fault Refusal :=
  s.loadInto (encode (.l rt ra d)) (s.eaD ra d) 4 loadZero rt

/-- `lu` (R335). -/
def execLu (rt ra : RegNum) (d : BitVec 16) (s : State) : Outcome State Fault Refusal :=
  s.loadUpdating (encode (.lu rt ra d)) (s.eaD ra d) 4 loadZero rt ra

/-- `lx` (R336). -/
def execLx (rt ra rb : RegNum) (s : State) : Outcome State Fault Refusal :=
  s.loadInto (encode (.lx rt ra rb)) (s.eaX ra rb) 4 loadZero rt

/-- `lux` (R337). -/
def execLux (rt ra rb : RegNum) (s : State) : Outcome State Fault Refusal :=
  s.loadUpdating (encode (.lux rt ra rb)) (s.eaX ra rb) 4 loadZero rt ra

/-! ### Stores -/

/-- `stb` (R338). -/
def execStb (rs ra : RegNum) (d : BitVec 16) (s : State) : Outcome State Fault Refusal :=
  s.storeFrom (encode (.stb rs ra d)) (s.eaD ra d) (s.lowBytes 1 rs)

/-- `stbu` (R339). -/
def execStbu (rs ra : RegNum) (d : BitVec 16) (s : State) : Outcome State Fault Refusal :=
  s.storeUpdating (encode (.stbu rs ra d)) (s.eaD ra d) (s.lowBytes 1 rs) ra

/-- `stbx` (R340). -/
def execStbx (rs ra rb : RegNum) (s : State) : Outcome State Fault Refusal :=
  s.storeFrom (encode (.stbx rs ra rb)) (s.eaX ra rb) (s.lowBytes 1 rs)

/-- `stbux` (R341). -/
def execStbux (rs ra rb : RegNum) (s : State) : Outcome State Fault Refusal :=
  s.storeUpdating (encode (.stbux rs ra rb)) (s.eaX ra rb) (s.lowBytes 1 rs) ra

/-- `sth` (R342). -/
def execSth (rs ra : RegNum) (d : BitVec 16) (s : State) : Outcome State Fault Refusal :=
  s.storeFrom (encode (.sth rs ra d)) (s.eaD ra d) (s.lowBytes 2 rs)

/-- `sthu` (R343). -/
def execSthu (rs ra : RegNum) (d : BitVec 16) (s : State) : Outcome State Fault Refusal :=
  s.storeUpdating (encode (.sthu rs ra d)) (s.eaD ra d) (s.lowBytes 2 rs) ra

/-- `sthx` (R344). -/
def execSthx (rs ra rb : RegNum) (s : State) : Outcome State Fault Refusal :=
  s.storeFrom (encode (.sthx rs ra rb)) (s.eaX ra rb) (s.lowBytes 2 rs)

/-- `sthux` (R345). -/
def execSthux (rs ra rb : RegNum) (s : State) : Outcome State Fault Refusal :=
  s.storeUpdating (encode (.sthux rs ra rb)) (s.eaX ra rb) (s.lowBytes 2 rs) ra

/-- `st` (R346). -/
def execSt (rs ra : RegNum) (d : BitVec 16) (s : State) : Outcome State Fault Refusal :=
  s.storeFrom (encode (.st rs ra d)) (s.eaD ra d) (s.lowBytes 4 rs)

/-- `stu` (R347). -/
def execStu (rs ra : RegNum) (d : BitVec 16) (s : State) : Outcome State Fault Refusal :=
  s.storeUpdating (encode (.stu rs ra d)) (s.eaD ra d) (s.lowBytes 4 rs) ra

/-- `stx` (R348). -/
def execStx (rs ra rb : RegNum) (s : State) : Outcome State Fault Refusal :=
  s.storeFrom (encode (.stx rs ra rb)) (s.eaX ra rb) (s.lowBytes 4 rs)

/-- `stux` (R349). -/
def execStux (rs ra rb : RegNum) (s : State) : Outcome State Fault Refusal :=
  s.storeUpdating (encode (.stux rs ra rb)) (s.eaX ra rb) (s.lowBytes 4 rs) ra

/-! ### Byte-reversed -/

/-- `lhbrx` (R350). -/
def execLhbrx (rt ra rb : RegNum) (s : State) : Outcome State Fault Refusal :=
  s.loadInto (encode (.lhbrx rt ra rb)) (s.eaX ra rb) 2 (fun l => loadZero l.reverse) rt

/-- `lbrx` (R351). -/
def execLbrx (rt ra rb : RegNum) (s : State) : Outcome State Fault Refusal :=
  s.loadInto (encode (.lbrx rt ra rb)) (s.eaX ra rb) 4 (fun l => loadZero l.reverse) rt

/-- `sthbrx` (R352). -/
def execSthbrx (rs ra rb : RegNum) (s : State) : Outcome State Fault Refusal :=
  s.storeFrom (encode (.sthbrx rs ra rb)) (s.eaX ra rb) (s.lowBytes 2 rs).reverse

/-- `stbrx` (R353). -/
def execStbrx (rs ra rb : RegNum) (s : State) : Outcome State Fault Refusal :=
  s.storeFrom (encode (.stbrx rs ra rb)) (s.eaX ra rb) (s.lowBytes 4 rs).reverse

/-! ### Multiple -/

/-- The number of registers from r to 31 (R354). -/
def multipleCount (r : RegNum) : Nat := 32 - r.toNat

/-- The base register of a multiple or an immediate string keeps its value (R354, R356). -/
def skipBase (ra : RegNum) : RegNum → Bool := fun r => r == ra && ra != 0

/-- The address registers of an indexed string keep their values (R357). -/
def skipBoth (ra rb : RegNum) : RegNum → Bool := fun r => skipBase ra r || r == rb

/-- `lm` (R354, R116): RT to 31 are loaded; the base register is not. -/
def execLm (rt ra : RegNum) (d : BitVec 16) (s : State) : Outcome State Fault Refusal :=
  let ea := s.eaD ra d
  let w := encode (.lm rt ra d)
  let go (a : Word) : Outcome State Fault Refusal :=
    (s.loadBlock a (4 * multipleCount rt) fun l => putRegs (skipBase ra) 32 rt (wholeWords l)).outcome
      fun _ s1 => s1.advance
  if s.isIo ea then if s.alignIoTrap ea 4 then .next (s.alignment w ea) else go ea
  else
    match s.alignMultiple ea with
    | none => .next (s.alignment w ea)
    | some a => go a

/-- `stm` (R355, R116). -/
def execStm (rs ra : RegNum) (d : BitVec 16) (s : State) : Outcome State Fault Refusal :=
  let ea := s.eaD ra d
  let w := encode (.stm rs ra d)
  let go (a : Word) : Outcome State Fault Refusal :=
    (s.storeBlock a (s.regsFrom (multipleCount rs) rs.toNat)).outcome fun _ s1 => s1.advance
  if s.isIo ea then if s.alignIoTrap ea 4 then .next (s.alignment w ea) else go ea
  else
    match s.alignMultiple ea with
    | none => .next (s.alignment w ea)
    | some a => go a

/-! ### String -/

/-- `LoadString` (R356): an access that fails part-way may have loaded whole words. -/
def State.loadString (s : State) (skip : RegNum → Bool) (rt : RegNum) (ea : Word) (n : Nat) :
    Outcome State Fault Refusal :=
  (s.loadBlock ea n fun l => putRegs skip 32 rt (if l.length < n then wholeWords l else l)).outcome
    fun _ s1 => s1.advance

/-- A store string (R359): MQ is a free value afterwards (R384). -/
def State.storeString (s : State) (rs : RegNum) (ea : Word) (n : Nat) : Outcome State Fault Refusal :=
  (s.storeBlock ea (s.stringBytes rs n)).outcome fun _ s1 =>
    let (w, s2) := s1.drawWord
    ({ s2 with mq := w }).advance

/-- `lsi` (R356). -/
def execLsi (rt ra : RegNum) (nb : BitVec 5) (s : State) : Outcome State Fault Refusal :=
  s.loadString (skipBase ra) rt (s.regOr0 ra) (stringCount nb)

/-- `lsx` (R357): with no bytes to load RT is a free value. -/
def execLsx (rt ra rb : RegNum) (s : State) : Outcome State Fault Refusal :=
  if s.xerCount = 0 then
    let (w, s1) := s.drawWord
    .next (s1.setReg rt w).advance
  else s.loadString (skipBoth ra rb) rt (s.eaX ra rb) s.xerCount

/-- The loop of lscbx in memory (R358): byte k of n, until one is the compare byte. It answers how many bytes were loaded and
whether the last one matched. When an access fails, the registers loaded before it keep their values from before the
instruction, `g0`, or have their bytes: a free choice (R370). -/
def scanString (g0 : Vector Word 32) (skip : RegNum → Bool) (rt : RegNum) (ea : Word) (c : Byte) :
    Nat → Nat → State → Res (Nat × Bool)
  | 0, k, s => .ok (k, false) s
  | left + 1, k, s =>
    let a := ea + BitVec.ofNat 32 k
    match s.loadMem a 1 with
    | .refused r => .refused r
    | .fail cause dar _ s1 =>
      let (keep, s2) := s1.drawBit
      .trap ({ s2 with gpr := if keep then s2.gpr else g0 }.dataStorage cause false dar)
    | .ok l s1 =>
      let b := l.getD 0 0
      let s2 := s1.putStringByte skip rt k b
      if b = c then .ok (k + 1, true) s2 else scanString g0 skip rt ea c left (k + 1) s2

/-- Bytes placed in the register sequence from byte k on, until one is the compare byte (R358): how many have been, and
whether the last one matched. -/
def placeUntil (skip : RegNum → Bool) (rt : RegNum) (c : Byte) : List Byte → Nat → State → (Nat × Bool) × State
  | [], k, s => ((k, false), s)
  | b :: l, k, s =>
    let s1 := s.putStringByte skip rt k b
    if b = c then ((k + 1, true), s1) else placeUntil skip rt c l (k + 1) s1

/-- lscbx from an I/O segment: one access with the length of the whole string (R765, R832), of which the bytes up to the
match are placed. The bus cycles end with the one that loads the compare byte (R358, log entry 39). What was loaded before
a failure is in the registers or not, a free choice (R370); words from BUID 0 stay transferred (R762). -/
def scanIo (skip : RegNum → Bool) (rt : RegNum) (ea : Word) (c : Byte) (n : Nat) (s : State) : Res (Nat × Bool) :=
  match s.ioGot ea n none (some c) with
  | .refused r => .refused r
  | .fail cause dar got s1 =>
    let (keep, s2) := s1.drawBit
    .trap ((if keep || s.isBuid0 ea then (placeUntil skip rt c got 0 s2).2 else s2).dataStorage cause false dar)
  | .ok l s1 =>
    let (r, s2) := placeUntil skip rt c (l.take n) 0 s1
    .ok r s2

/-- The scan of lscbx (R358). The segment the string starts in decides whether it is one to I/O (R111). -/
def State.scan (s : State) (skip : RegNum → Bool) (rt : RegNum) (ea : Word) (c : Byte) (n : Nat) : Res (Nat × Bool) :=
  if s.isIo ea && n != 0 then scanIo skip rt ea c n s else scanString s.gpr skip rt ea c n 0 s

/-- `lscbx` (R358). The bytes of the last register that were not loaded, and RT when none is, are free values. -/
def execLscbx (rt ra rb : RegNum) (rc : Bool) (s : State) : Outcome State Fault Refusal :=
  let skip := skipBoth ra rb
  (s.scan skip rt (s.eaX ra rb) (bitsAt s.xer 16 8) s.xerCount).outcome fun (k, hit) s1 =>
    let s2 := s1.freeTail skip rt k
    let s3 := { s2 with xer := setBits s2.xer 25 7 (BitVec.ofNat 7 k) }
    (if rc then s3.setCrField 0 (crNibble false false hit s3.xerSO) else s3).advance

/-- `stsi` (R359). -/
def execStsi (rs ra : RegNum) (nb : BitVec 5) (s : State) : Outcome State Fault Refusal :=
  s.storeString rs (s.regOr0 ra) (stringCount nb)

/-- `stsx` (R360): with no bytes to store memory is not accessed. -/
def execStsx (rs ra rb : RegNum) (s : State) : Outcome State Fault Refusal :=
  if s.xerCount = 0 then
    let (w, s1) := s.drawWord
    .next ({ s1 with mq := w }).advance
  else s.storeString rs (s.eaX ra rb) s.xerCount

end Sys2Proof.Machine
end

