-- ==== Sys2Proof/Machine/Logical.lean ====
section
/-!
DEFINITION. Logical, rotate, mask and shift instructions (42_fixed_arith R430 to R472).
-/

namespace Sys2Proof.Machine

open Host (Outcome)

/-- The end of an instruction whose target is RA (R446). -/
def State.logical (s : State) (ra : RegNum) (v : Word) (rc : Bool) : State := ((s.setReg ra v).record rc v).advance

/-! ### Logical -/

/-- `andil.` (R430). -/
def execAndilDot (rs ra : RegNum) (ui : BitVec 16) (s : State) : Outcome State Fault Refusal :=
  .next (s.logical ra (s.reg rs &&& (0#16 ++ ui)) true)

/-- `andiu.` (R431). -/
def execAndiuDot (rs ra : RegNum) (ui : BitVec 16) (s : State) : Outcome State Fault Refusal :=
  .next (s.logical ra (s.reg rs &&& (ui ++ 0#16)) true)

/-- `oril` (R432). -/
def execOril (rs ra : RegNum) (ui : BitVec 16) (s : State) : Outcome State Fault Refusal :=
  .next (s.logical ra (s.reg rs ||| (0#16 ++ ui)) false)

/-- `oriu` (R433). -/
def execOriu (rs ra : RegNum) (ui : BitVec 16) (s : State) : Outcome State Fault Refusal :=
  .next (s.logical ra (s.reg rs ||| (ui ++ 0#16)) false)

/-- `xoril` (R434). -/
def execXoril (rs ra : RegNum) (ui : BitVec 16) (s : State) : Outcome State Fault Refusal :=
  .next (s.logical ra (s.reg rs ^^^ (0#16 ++ ui)) false)

/-- `xoriu` (R435). -/
def execXoriu (rs ra : RegNum) (ui : BitVec 16) (s : State) : Outcome State Fault Refusal :=
  .next (s.logical ra (s.reg rs ^^^ (ui ++ 0#16)) false)

/-- `and` (R436). -/
def execAnd (rs ra rb : RegNum) (rc : Bool) (s : State) : Outcome State Fault Refusal :=
  .next (s.logical ra (s.reg rs &&& s.reg rb) rc)

/-- `or` (R437). -/
def execOr (rs ra rb : RegNum) (rc : Bool) (s : State) : Outcome State Fault Refusal :=
  .next (s.logical ra (s.reg rs ||| s.reg rb) rc)

/-- `xor` (R438). -/
def execXor (rs ra rb : RegNum) (rc : Bool) (s : State) : Outcome State Fault Refusal :=
  .next (s.logical ra (s.reg rs ^^^ s.reg rb) rc)

/-- `nand` (R439). -/
def execNand (rs ra rb : RegNum) (rc : Bool) (s : State) : Outcome State Fault Refusal :=
  .next (s.logical ra (~~~ (s.reg rs &&& s.reg rb)) rc)

/-- `nor` (R440). -/
def execNor (rs ra rb : RegNum) (rc : Bool) (s : State) : Outcome State Fault Refusal :=
  .next (s.logical ra (~~~ (s.reg rs ||| s.reg rb)) rc)

/-- `eqv` (R441). -/
def execEqv (rs ra rb : RegNum) (rc : Bool) (s : State) : Outcome State Fault Refusal :=
  .next (s.logical ra (~~~ (s.reg rs ^^^ s.reg rb)) rc)

/-- `andc` (R442). -/
def execAndc (rs ra rb : RegNum) (rc : Bool) (s : State) : Outcome State Fault Refusal :=
  .next (s.logical ra (s.reg rs &&& ~~~ s.reg rb) rc)

/-- `orc` (R443). -/
def execOrc (rs ra rb : RegNum) (rc : Bool) (s : State) : Outcome State Fault Refusal :=
  .next (s.logical ra (s.reg rs ||| ~~~ s.reg rb) rc)

/-- `exts` (R444). -/
def execExts (rs ra : RegNum) (rc : Bool) (s : State) : Outcome State Fault Refusal :=
  .next (s.logical ra (sext16 ((s.reg rs).extractLsb' 0 16)) rc)

/-- The number of 0 bits before the first 1, of the n bits from bit i on (R445). -/
def leadingZeros (v : Word) : Nat → Nat → Nat
  | 0, _ => 0
  | n + 1, i => if bitAt v i then 0 else 1 + leadingZeros v n (i + 1)

/-- `cntlz` (R445). -/
def execCntlz (rs ra : RegNum) (rc : Bool) (s : State) : Outcome State Fault Refusal :=
  .next (s.logical ra (BitVec.ofNat 32 (leadingZeros (s.reg rs) 32 0)) rc)

/-! ### Rotate and mask -/

/-- `MASK(mstart, mstop)` (R246). -/
def maskOf (start stop : Nat) : Word :=
  if start < stop + 1 then fieldMask start (stop + 1 - start)
  else if start = stop + 1 then BitVec.allOnes 32
  else ~~~ fieldMask (stop + 1) (start - stop - 1)

/-- `ROTL(x, n)` (R446). -/
def rotl (x : Word) (n : Nat) : Word := x.rotateLeft n

/-- A right rotation (R446). -/
def rotr (x : Word) (n : Nat) : Word := rotl x ((32 - n) % 32)

/-- The bits of `a` under the mask, the bits of `b` elsewhere. -/
def merge (m a b : Word) : Word := (a &&& m) ||| (b &&& ~~~ m)

/-- The shift count in a register: bits 27 to 31 (R446). -/
def State.count (s : State) (rb : RegNum) : Nat := (bitsAt (s.reg rb) 27 5).toNat

/-- Bit 26 of a register: the count is 32 or more (section 7). -/
def State.bit26 (s : State) (rb : RegNum) : Bool := bitAt (s.reg rb) 26

/-- `rlimi` (R447). -/
def execRlimi (rs ra : RegNum) (sh mb me : BitVec 5) (rc : Bool) (s : State) : Outcome State Fault Refusal :=
  .next (s.logical ra (merge (maskOf mb.toNat me.toNat) (rotl (s.reg rs) sh.toNat) (s.reg ra)) rc)

/-- `rlinm` (R448). -/
def execRlinm (rs ra : RegNum) (sh mb me : BitVec 5) (rc : Bool) (s : State) : Outcome State Fault Refusal :=
  .next (s.logical ra (rotl (s.reg rs) sh.toNat &&& maskOf mb.toNat me.toNat) rc)

/-- `rlmi` (R449). -/
def execRlmi (rs ra rb : RegNum) (mb me : BitVec 5) (rc : Bool) (s : State) : Outcome State Fault Refusal :=
  .next (s.logical ra (merge (maskOf mb.toNat me.toNat) (rotl (s.reg rs) (s.count rb)) (s.reg ra)) rc)

/-- `rlnm` (R450). -/
def execRlnm (rs ra rb : RegNum) (mb me : BitVec 5) (rc : Bool) (s : State) : Outcome State Fault Refusal :=
  .next (s.logical ra (rotl (s.reg rs) (s.count rb) &&& maskOf mb.toNat me.toNat) rc)

/-- `rrib` (R451). -/
def execRrib (rs ra rb : RegNum) (rc : Bool) (s : State) : Outcome State Fault Refusal :=
  .next (s.logical ra (setBit (s.reg ra) (s.count rb) (bitAt (s.reg rs) 0)) rc)

/-- `maskg` (R452). -/
def execMaskg (rs ra rb : RegNum) (rc : Bool) (s : State) : Outcome State Fault Refusal :=
  .next (s.logical ra (maskOf (s.count rs) (s.count rb)) rc)

/-- `maskir` (R453). -/
def execMaskir (rs ra rb : RegNum) (rc : Bool) (s : State) : Outcome State Fault Refusal :=
  .next (s.logical ra (merge (s.reg rb) (s.reg rs) (s.reg ra)) rc)

/-! ### Shifts -/

/-- The mask of a left shift (R454). -/
def leftMask (n : Nat) : Word := maskOf 0 (31 - n)

/-- The mask of a right shift (R455). -/
def rightMask (n : Nat) : Word := maskOf n 31

/-- A shift whose rotated word goes to MQ as well (R456). -/
def State.shiftQ (s : State) (ra : RegNum) (v mq : Word) (rc : Bool) : State := { s with mq := mq }.logical ra v rc

/-- An algebraic right shift: the sign where the mask is 0, and CA when a 1 is shifted out of a negative word
(R468). -/
def State.algebraic (s : State) (ra : RegNum) (src r m : Word) (rc : Bool) : State :=
  let sign : Word := if src.msb then BitVec.allOnes 32 else 0
  (s.setCA (src.msb && (r &&& ~~~ m) != 0)).logical ra (merge m r sign) rc

/-- `sl` (R454). -/
def execSl (rs ra rb : RegNum) (rc : Bool) (s : State) : Outcome State Fault Refusal :=
  .next (s.logical ra (rotl (s.reg rs) (s.count rb) &&& (if s.bit26 rb then 0 else leftMask (s.count rb))) rc)

/-- `sr` (R455). -/
def execSr (rs ra rb : RegNum) (rc : Bool) (s : State) : Outcome State Fault Refusal :=
  .next (s.logical ra (rotr (s.reg rs) (s.count rb) &&& (if s.bit26 rb then 0 else rightMask (s.count rb))) rc)

/-- `slq` (R456). -/
def execSlq (rs ra rb : RegNum) (rc : Bool) (s : State) : Outcome State Fault Refusal :=
  let r := rotl (s.reg rs) (s.count rb)
  .next (s.shiftQ ra (r &&& (if s.bit26 rb then 0 else leftMask (s.count rb))) r rc)

/-- `srq` (R457). -/
def execSrq (rs ra rb : RegNum) (rc : Bool) (s : State) : Outcome State Fault Refusal :=
  let r := rotr (s.reg rs) (s.count rb)
  .next (s.shiftQ ra (r &&& (if s.bit26 rb then 0 else rightMask (s.count rb))) r rc)

/-- `sliq` (R458). -/
def execSliq (rs ra : RegNum) (sh : BitVec 5) (rc : Bool) (s : State) : Outcome State Fault Refusal :=
  let r := rotl (s.reg rs) sh.toNat
  .next (s.shiftQ ra (r &&& leftMask sh.toNat) r rc)

/-- `sriq` (R459). -/
def execSriq (rs ra : RegNum) (sh : BitVec 5) (rc : Bool) (s : State) : Outcome State Fault Refusal :=
  let r := rotr (s.reg rs) sh.toNat
  .next (s.shiftQ ra (r &&& rightMask sh.toNat) r rc)

/-- `slliq` (R460). -/
def execSlliq (rs ra : RegNum) (sh : BitVec 5) (rc : Bool) (s : State) : Outcome State Fault Refusal :=
  let r := rotl (s.reg rs) sh.toNat
  .next (s.shiftQ ra (merge (leftMask sh.toNat) r s.mq) r rc)

/-- `srliq` (R461). -/
def execSrliq (rs ra : RegNum) (sh : BitVec 5) (rc : Bool) (s : State) : Outcome State Fault Refusal :=
  let r := rotr (s.reg rs) sh.toNat
  .next (s.shiftQ ra (merge (rightMask sh.toNat) r s.mq) r rc)

/-- `sllq` (R462). -/
def execSllq (rs ra rb : RegNum) (rc : Bool) (s : State) : Outcome State Fault Refusal :=
  let m := leftMask (s.count rb)
  .next (s.logical ra (if s.bit26 rb then s.mq &&& m else merge m (rotl (s.reg rs) (s.count rb)) s.mq) rc)

/-- `srlq` (R463). -/
def execSrlq (rs ra rb : RegNum) (rc : Bool) (s : State) : Outcome State Fault Refusal :=
  let m := rightMask (s.count rb)
  .next (s.logical ra (if s.bit26 rb then s.mq &&& m else merge m (rotr (s.reg rs) (s.count rb)) s.mq) rc)

/-- `sle` (R464). -/
def execSle (rs ra rb : RegNum) (rc : Bool) (s : State) : Outcome State Fault Refusal :=
  let r := rotl (s.reg rs) (s.count rb)
  .next (s.shiftQ ra (r &&& leftMask (s.count rb)) r rc)

/-- `sre` (R465). -/
def execSre (rs ra rb : RegNum) (rc : Bool) (s : State) : Outcome State Fault Refusal :=
  let r := rotr (s.reg rs) (s.count rb)
  .next (s.shiftQ ra (r &&& rightMask (s.count rb)) r rc)

/-- `sleq` (R466). -/
def execSleq (rs ra rb : RegNum) (rc : Bool) (s : State) : Outcome State Fault Refusal :=
  let r := rotl (s.reg rs) (s.count rb)
  .next (s.shiftQ ra (merge (leftMask (s.count rb)) r s.mq) r rc)

/-- `sreq` (R467). -/
def execSreq (rs ra rb : RegNum) (rc : Bool) (s : State) : Outcome State Fault Refusal :=
  let r := rotr (s.reg rs) (s.count rb)
  .next (s.shiftQ ra (merge (rightMask (s.count rb)) r s.mq) r rc)

/-- `sra` (R468). -/
def execSra (rs ra rb : RegNum) (rc : Bool) (s : State) : Outcome State Fault Refusal :=
  let (w, s1) := s.drawWord
  .next ({ s1 with mq := w }.algebraic ra (s.reg rs) (rotr (s.reg rs) (s.count rb))
    (if s.bit26 rb then 0 else rightMask (s.count rb)) rc)

/-- `srai` (R469). -/
def execSrai (rs ra : RegNum) (sh : BitVec 5) (rc : Bool) (s : State) : Outcome State Fault Refusal :=
  let (w, s1) := s.drawWord
  .next ({ s1 with mq := w }.algebraic ra (s.reg rs) (rotr (s.reg rs) sh.toNat) (rightMask sh.toNat) rc)

/-- `sraq` (R470). -/
def execSraq (rs ra rb : RegNum) (rc : Bool) (s : State) : Outcome State Fault Refusal :=
  let r := rotr (s.reg rs) (s.count rb)
  .next ({ s with mq := r }.algebraic ra (s.reg rs) r (if s.bit26 rb then 0 else rightMask (s.count rb)) rc)

/-- `sraiq` (R471). -/
def execSraiq (rs ra : RegNum) (sh : BitVec 5) (rc : Bool) (s : State) : Outcome State Fault Refusal :=
  let r := rotr (s.reg rs) sh.toNat
  .next ({ s with mq := r }.algebraic ra (s.reg rs) r (rightMask sh.toNat) rc)

/-- `srea` (R472). -/
def execSrea (rs ra rb : RegNum) (rc : Bool) (s : State) : Outcome State Fault Refusal :=
  let r := rotr (s.reg rs) (s.count rb)
  .next ({ s with mq := r }.algebraic ra (s.reg rs) r (rightMask (s.count rb)) rc)

end Sys2Proof.Machine
end

