-- ==== Sys2Proof/Machine/Special.lean ====
section
/-!
DEFINITION. Moves to and from special registers, the condition register and the MSR (42_fixed_arith R497 to R503, 10_state
R60).
-/

namespace Sys2Proof.Machine

open Host (Outcome)

/-- The special purpose registers (R60). -/
inductive Spr where
  | mq
  | xer
  | rtcu
  | rtcl
  | dec
  | lr
  | ctr
  | tid
  | dsisr
  | dar
  | sdr0
  | sdr1
  | srr0
  | srr1
  | ilcr
  deriving DecidableEq, Repr

/-- The registers that mtspr and mfspr name by the same number (R60); SDR0 is of POWER, ILCR of POWER2. -/
def sprBoth (m : Config.Machine) (n : BitVec 5) : Option Spr :=
  match n.toNat with
  | 0 => some .mq
  | 1 => some .xer
  | 8 => some .lr
  | 9 => some .ctr
  | 17 => some .tid
  | 18 => some .dsisr
  | 19 => some .dar
  | 24 => if m.impl = .power then some .sdr0 else if n = m.sprIlcr then some .ilcr else none
  | 25 => some .sdr1
  | 26 => some .srr0
  | 27 => some .srr1
  | _ => if m.impl = .power2 ∧ n = m.sprIlcr then some .ilcr else none

/-- The register a number names for mtspr (R60, R497). -/
def sprTo (m : Config.Machine) (n : BitVec 5) : Option Spr :=
  match n.toNat with
  | 20 => some .rtcu
  | 21 => some .rtcl
  | 22 => some .dec
  | _ => sprBoth m n

/-- The register a number names for mfspr (R60, R498). -/
def sprFrom (m : Config.Machine) (n : BitVec 5) : Option Spr :=
  match n.toNat with
  | 4 => some .rtcu
  | 5 => some .rtcl
  | 6 => some .dec
  | _ => sprBoth m n

/-- The bits of SDR0 that exist (R44): the others read 0. -/
def sdr0Mask : Word := 0xFFFF0000

/-- The bits of SDR1 that exist (R45). -/
def sdr1Mask : Config.Impl → Word
  | .power => 0xFFFF00FF
  | .power2 => 0xFFFE00FF

/-- The values of SDR0 and SDR1 that fetches may still use after an mtspr to one of them (R653): with MSR(IR) = 1 the ones it
replaces are among them, and in real mode it is no hazard (R497, R1020). -/
def State.sdrsReplaced (s : State) : List (Word × Word) :=
  if s.msrIR then (s.sdr0, s.sdr1) :: s.sdrBefore else s.sdrBefore

/-- A special purpose register is written (R497, its write rules); `none` for an ILCR command the spec refuses (decision
D32). -/
def State.writeSpr (s : State) (r : Spr) (v : Word) : Option State :=
  match r with
  | .mq => some { s with mq := v }
  | .xer => some (s.setXer v)
  | .rtcu => some { s with rtcu := v }
  | .rtcl => some { s with rtcl := v &&& timerMask }
  | .dec => some (s.writeDec v)
  | .lr => some { s with lr := v }
  | .ctr => some { s with ctr := v }
  | .tid => some { s with tid := v }
  | .dsisr => some { s with dsisr := v }
  | .dar => some { s with dar := v }
  | .sdr0 => some { s with sdr0 := v, sdrBefore := s.sdrsReplaced }
  | .sdr1 => some { s with sdr1 := v, sdrBefore := s.sdrsReplaced }
  | .srr0 => some { s with srr0 := v }
  | .srr1 => some { s with srr1 := v }
  | .ilcr => (s.ilcrCommand v).map fun t => { t with ilcrSettle := s.cfg.ilcrSettle + 1 }

/-- mfspr of ILCR (R784). Before the time of R789 has passed the value is free, and whether a level is taken from the
pending ones is free (log entry 24). -/
def State.takeIlcr (s : State) : Word × State :=
  if s.ilcrSettle = 0 then s.readIlcr
  else
    let (w, s1) := s.drawWord
    let (removed, s2) := s1.drawBit
    (w, if removed then s2.readIlcr.2 else s2)

/-- A special purpose register is read (R498); reserved bits read 0. -/
def State.readSpr (s : State) (r : Spr) : Word × State :=
  match r with
  | .mq => (s.mq, s)
  | .xer => (s.xer, s)
  | .rtcu => (s.rtcu, s)
  | .rtcl => (s.rtcl, s)
  | .dec => (s.dec, s)
  | .lr => (s.lr, s)
  | .ctr => (s.ctr, s)
  | .tid => (s.tid &&& tidMask, s)
  | .dsisr => (s.dsisr, s)
  | .dar => (s.dar, s)
  | .sdr0 => (s.sdr0 &&& sdr0Mask, s)
  | .sdr1 => (s.sdr1 &&& sdr1Mask s.cfg.impl, s)
  | .srr0 => (s.srr0, s)
  | .srr1 => (s.srr1, s)
  | .ilcr => s.takeIlcr

/-- The register is privileged: SPR bit 0 is 1 (R497), or it is ILCR, whatever its number (R784, R785, R745). -/
def sprPrivileged (n : BitVec 5) (r : Spr) : Bool := n.msb || r == .ilcr

/-- `mtspr` (R497): the number is tested before the privilege. -/
def execMtspr (rs : RegNum) (spr : BitVec 5) (s : State) : Outcome State Fault Refusal :=
  match sprTo s.cfg spr with
  | none => .next (s.program .invalid)
  | some r =>
    if sprPrivileged spr r && s.msrPR then .next (s.program .privileged)
    else
      match s.writeSpr r (s.reg rs) with
      | some s1 => .next s1.advance
      | none => .refused .ilcrLevel

/-- `mfspr` (R498). -/
def execMfspr (rt : RegNum) (spr : BitVec 5) (s : State) : Outcome State Fault Refusal :=
  match sprFrom s.cfg spr with
  | none => .next (s.program .invalid)
  | some r =>
    if sprPrivileged spr r && s.msrPR then .next (s.program .privileged)
    else
      let (v, s1) := s.readSpr r
      .next (s1.setReg rt v).advance

/-- `mcrxr` (R499). -/
def execMcrxr (bf : CrField) (s : State) : Outcome State Fault Refusal :=
  .next ({ s with xer := setBits s.xer 0 4 0 }.setCrField bf (bitsAt s.xer 0 4)).advance

/-- The word with ones in the CR fields that a mask names, from field i on (R500). -/
def crMask (fxm : BitVec 8) : Nat → Nat → Word
  | 0, _ => 0
  | n + 1, i => (if fxm.getMsbD i then fieldMask (4 * i) 4 else 0) ||| crMask fxm n (i + 1)

/-- `mtcrf` (R500). -/
def execMtcrf (rs : RegNum) (fxm : BitVec 8) (s : State) : Outcome State Fault Refusal :=
  let m := crMask fxm 8 0
  .next { s with cr := (s.reg rs &&& m) ||| (s.cr &&& ~~~ m) }.advance

/-- `mfcr` (R501). -/
def execMfcr (rt : RegNum) (s : State) : Outcome State Fault Refusal := .next (s.setReg rt s.cr).advance

/-- `mfmsr` (R502). -/
def execMfmsr (rt : RegNum) (s : State) : Outcome State Fault Refusal := .next (s.setReg rt s.msr).advance

/-- Words from an address on are prefetched, each or not: free choices (R645, R647). -/
def State.refill : Nat → Word → State → State
  | 0, _, s => s
  | n + 1, ea, s =>
    let (now, s1) := s.drawBit
    State.refill n (ea + 4) (if now then s1.prefetchWord ea else s1)

/-- What prefetching changes: the caches, the TLB and memory beneath them, and the prefetch buffer (R133). -/
def State.withFetched (s r : State) : State :=
  { s with
    mem := r.mem
    dc := r.dc
    ic := r.ic
    wb := r.wb
    tlb := r.tlb
    pf := r.pf
    machineCheck := r.machineCheck
    draws := r.draws }

/-- `mtmsr` (R503). The prefetch buffer is emptied, and words after the instruction may enter it again under the old
MSR(IR): a free number of them (R647). -/
def execMtmsr (rs : RegNum) (s : State) : Outcome State Fault Refusal :=
  privileged s
    (let (count, s1) := { s with pf := [] }.drawWord
     .next ((s.withFetched (s1.refill count.toNat s.nia)).setMsr (s.reg rs)).advance.afterMsr)

end Sys2Proof.Machine
end

