-- ==== Sys2Proof/Machine/Storage.lean ====
section
/-!
DEFINITION. The storage control instructions (45_storage_control_instr): caches, synchronization, segment registers, the
TLB and real addresses.
-/

namespace Sys2Proof.Machine

open Host (Outcome)

/-- `CacheAccess` (R662): the line an effective address names; `none` in an I/O segment. A failed translation is a Data
Storage interrupt. -/
def State.cacheAccess (s : State) (ea : Word) (store : Bool) : Res (Option Nat) :=
  if s.isIo ea then .ok none s
  else
    match dataAddr ea store s with
    | (.real ra, s1) => .ok (some (s1.lineOf ra)) s1
    | (.fail c, s1) => .trap (s1.dataStorage c store ea)

/-- A cache instruction (R662, R663): its effect on the line, then RA. -/
def State.cacheInstr (s : State) (ra rb : RegNum) (store : Bool) (f : State → Nat → State) :
    Outcome State Fault Refusal :=
  let ea := s.eaX ra rb
  (s.cacheAccess ea store).outcome fun line s1 =>
    ((match line with
      | some n => f s1 n
      | none => s1).updateBase ra ea).advance

/-- `dcs` (R640): every store-back begun is finished. -/
def execDcs (s : State) : Outcome State Fault Refusal := .next s.finishWb.advance

/-- `ics` (R641). -/
def execIcs (s : State) : Outcome State Fault Refusal := .next s.serializeFetch.advance

/-- `clf` (R642). -/
def execClf (ra rb : RegNum) (s : State) : Outcome State Fault Refusal := s.cacheInstr ra rb false State.flushLine

/-- `cli` (R643): privileged. -/
def execCli (ra rb : RegNum) (s : State) : Outcome State Fault Refusal :=
  privileged s (s.cacheInstr ra rb true State.invalidateLine)

/-- `dclst` (R644). -/
def execDclst (ra rb : RegNum) (s : State) : Outcome State Fault Refusal := s.cacheInstr ra rb false State.storeLine

/-- `dclz` (R654). -/
def execDclz (ra rb : RegNum) (s : State) : Outcome State Fault Refusal := s.cacheInstr ra rb true State.zeroLine

/-- `mtsr` (R655). -/
def execMtsr (rs : RegNum) (sr : BitVec 4) (s : State) : Outcome State Fault Refusal :=
  privileged s (.next (s.setSegment sr (s.reg rs)).advance)

/-- `mtsri` (R656). -/
def execMtsri (rs ra rb : RegNum) (s : State) : Outcome State Fault Refusal :=
  privileged s (.next (s.setSegment (bitsAt (s.eaX ra rb) 0 4) (s.reg rs)).advance)

/-- `mfsr` (R657). -/
def execMfsr (rt : RegNum) (sr : BitVec 4) (s : State) : Outcome State Fault Refusal :=
  .next (s.setReg rt (segmentRead (s.segment sr))).advance

/-- `mfsri` (R658): the target is RS; RA takes the address when it is neither 0 nor RS. -/
def execMfsri (rs ra rb : RegNum) (s : State) : Outcome State Fault Refusal :=
  let ea := s.eaX ra rb
  .next ((s.setReg rs (segmentRead (s.segmentOf ea))).updateLoad ra rs ea).advance

/-- `clcs` (R659): the RA field selects; a selector the rule does not name gives a free value. -/
def execClcs (rt ra : RegNum) (s : State) : Outcome State Fault Refusal :=
  if 12 ≤ ra.toNat ∧ ra.toNat < 16 then .next (s.setReg rt (BitVec.ofNat 32 s.lineSize)).advance
  else
    let (w, s1) := s.drawWord
    .next (s1.setReg rt w).advance

/-- `tlbi` (R660). -/
def execTlbi (ra rb : RegNum) (s : State) : Outcome State Fault Refusal :=
  let ea := s.eaX ra rb
  privileged s
    (.next (((s.dropTlbPage (bitsAt (s.segmentOf ea) 8 24) (bitsAt ea 4 16)).updateBase ra ea).advance))

/-- The search of rac (R661): no protection check, no lock check, no interrupt; the reference bit may be set. -/
def State.realAddress (s : State) (ea : Word) : Option Word × State :=
  if s.isIo ea then (none, s)
  else
    match lookupPage (bitsAt (s.segmentOf ea) 8 24) (bitsAt ea 4 16) s with
    | (.entry e, s1) => (some (e.rpn ++ bitsAt ea 20 12), s1.failedAccess e)
    | (.notFound, s1) => (none, s1)
    | (.loop, s1) => (none, s1)

/-- `rac` (R661): CR bit 2 says whether the search succeeded; with Rc, CR bits 0 and 1 are free values. -/
def execRac (rt ra rb : RegNum) (rc : Bool) (s : State) : Outcome State Fault Refusal :=
  let ea := s.eaX ra rb
  let (found, s1) := s.realAddress ea
  let s2 := ((s1.setReg rt (found.getD 0)).updateLoad ra rt ea).setCrBit 2 found.isSome
  let s3 :=
    if rc then
      let (a, t) := s2.drawBit
      let (b, t) := t.drawBit
      t.setCrField 0 (crNibble a b found.isSome t.xerSO)
    else s2
  privileged s (.next s3.advance)

end Sys2Proof.Machine
end

