-- ==== Sys2Proof/Machine/Dispatch.lean ====
section
/-!
DEFINITION. The meaning of every instruction: one arm for each constructor of `Instr`.
-/

namespace Sys2Proof.Machine

/-- What an instruction does. -/
def exec (i : Instr) (s : State) : Host.Outcome State Fault Refusal :=
  match i with
  | .b li aa lk => Sys2Proof.Machine.execB li aa lk s
  | .bc bo bi bd aa lk => Sys2Proof.Machine.execBc bo bi bd aa lk s
  | .bcr bo bi lk => Sys2Proof.Machine.execBcr bo bi lk s
  | .bcc bo bi lk => Sys2Proof.Machine.execBcc bo bi lk s
  | .svc fl1 lev fl2 sa lk => Sys2Proof.Machine.execSvc fl1 lev fl2 sa lk s
  | .rfi => Sys2Proof.Machine.execRfi s
  | .rfsvc lk => Sys2Proof.Machine.execRfsvc lk s
  | .mcrf bf bfa => Sys2Proof.Machine.execMcrf bf bfa s
  | .crand bt ba bb => Sys2Proof.Machine.execCrand bt ba bb s
  | .cror bt ba bb => Sys2Proof.Machine.execCror bt ba bb s
  | .crxor bt ba bb => Sys2Proof.Machine.execCrxor bt ba bb s
  | .crnand bt ba bb => Sys2Proof.Machine.execCrnand bt ba bb s
  | .crnor bt ba bb => Sys2Proof.Machine.execCrnor bt ba bb s
  | .creqv bt ba bb => Sys2Proof.Machine.execCreqv bt ba bb s
  | .crandc bt ba bb => Sys2Proof.Machine.execCrandc bt ba bb s
  | .crorc bt ba bb => Sys2Proof.Machine.execCrorc bt ba bb s
  | .t cond ra rb => Sys2Proof.Machine.execT cond ra rb s
  | .ti cond ra si => Sys2Proof.Machine.execTi cond ra si s
  | .lbz rt ra d => Sys2Proof.Machine.execLbz rt ra d s
  | .lbzu rt ra d => Sys2Proof.Machine.execLbzu rt ra d s
  | .lbzx rt ra rb => Sys2Proof.Machine.execLbzx rt ra rb s
  | .lbzux rt ra rb => Sys2Proof.Machine.execLbzux rt ra rb s
  | .lhz rt ra d => Sys2Proof.Machine.execLhz rt ra d s
  | .lhzu rt ra d => Sys2Proof.Machine.execLhzu rt ra d s
  | .lhzx rt ra rb => Sys2Proof.Machine.execLhzx rt ra rb s
  | .lhzux rt ra rb => Sys2Proof.Machine.execLhzux rt ra rb s
  | .lha rt ra d => Sys2Proof.Machine.execLha rt ra d s
  | .lhau rt ra d => Sys2Proof.Machine.execLhau rt ra d s
  | .lhax rt ra rb => Sys2Proof.Machine.execLhax rt ra rb s
  | .lhaux rt ra rb => Sys2Proof.Machine.execLhaux rt ra rb s
  | .l rt ra d => Sys2Proof.Machine.execL rt ra d s
  | .lu rt ra d => Sys2Proof.Machine.execLu rt ra d s
  | .lx rt ra rb => Sys2Proof.Machine.execLx rt ra rb s
  | .lux rt ra rb => Sys2Proof.Machine.execLux rt ra rb s
  | .stb rs ra d => Sys2Proof.Machine.execStb rs ra d s
  | .stbu rs ra d => Sys2Proof.Machine.execStbu rs ra d s
  | .stbx rs ra rb => Sys2Proof.Machine.execStbx rs ra rb s
  | .stbux rs ra rb => Sys2Proof.Machine.execStbux rs ra rb s
  | .sth rs ra d => Sys2Proof.Machine.execSth rs ra d s
  | .sthu rs ra d => Sys2Proof.Machine.execSthu rs ra d s
  | .sthx rs ra rb => Sys2Proof.Machine.execSthx rs ra rb s
  | .sthux rs ra rb => Sys2Proof.Machine.execSthux rs ra rb s
  | .st rs ra d => Sys2Proof.Machine.execSt rs ra d s
  | .stu rs ra d => Sys2Proof.Machine.execStu rs ra d s
  | .stx rs ra rb => Sys2Proof.Machine.execStx rs ra rb s
  | .stux rs ra rb => Sys2Proof.Machine.execStux rs ra rb s
  | .lhbrx rt ra rb => Sys2Proof.Machine.execLhbrx rt ra rb s
  | .lbrx rt ra rb => Sys2Proof.Machine.execLbrx rt ra rb s
  | .sthbrx rs ra rb => Sys2Proof.Machine.execSthbrx rs ra rb s
  | .stbrx rs ra rb => Sys2Proof.Machine.execStbrx rs ra rb s
  | .lm rt ra d => Sys2Proof.Machine.execLm rt ra d s
  | .stm rs ra d => Sys2Proof.Machine.execStm rs ra d s
  | .lsi rt ra nb => Sys2Proof.Machine.execLsi rt ra nb s
  | .lsx rt ra rb => Sys2Proof.Machine.execLsx rt ra rb s
  | .lscbx rt ra rb rc => Sys2Proof.Machine.execLscbx rt ra rb rc s
  | .stsi rs ra nb => Sys2Proof.Machine.execStsi rs ra nb s
  | .stsx rs ra rb => Sys2Proof.Machine.execStsx rs ra rb s
  | .cal rt ra d => Sys2Proof.Machine.execCal rt ra d s
  | .cau rt ra ui => Sys2Proof.Machine.execCau rt ra ui s
  | .aiDot rt ra si => Sys2Proof.Machine.execAiDot rt ra si s
  | .ai rt ra si => Sys2Proof.Machine.execAi rt ra si s
  | .sfi rt ra si => Sys2Proof.Machine.execSfi rt ra si s
  | .muli rt ra si => Sys2Proof.Machine.execMuli rt ra si s
  | .dozi rt ra si => Sys2Proof.Machine.execDozi rt ra si s
  | .cax rt ra rb oe rc => Sys2Proof.Machine.execCax rt ra rb oe rc s
  | .a rt ra rb oe rc => Sys2Proof.Machine.execA rt ra rb oe rc s
  | .ae rt ra rb oe rc => Sys2Proof.Machine.execAe rt ra rb oe rc s
  | .ame rt ra oe rc => Sys2Proof.Machine.execAme rt ra oe rc s
  | .aze rt ra oe rc => Sys2Proof.Machine.execAze rt ra oe rc s
  | .sf rt ra rb oe rc => Sys2Proof.Machine.execSf rt ra rb oe rc s
  | .sfe rt ra rb oe rc => Sys2Proof.Machine.execSfe rt ra rb oe rc s
  | .sfme rt ra oe rc => Sys2Proof.Machine.execSfme rt ra oe rc s
  | .sfze rt ra oe rc => Sys2Proof.Machine.execSfze rt ra oe rc s
  | .neg rt ra oe rc => Sys2Proof.Machine.execNeg rt ra oe rc s
  | .abs rt ra oe rc => Sys2Proof.Machine.execAbs rt ra oe rc s
  | .nabs rt ra oe rc => Sys2Proof.Machine.execNabs rt ra oe rc s
  | .doz rt ra rb oe rc => Sys2Proof.Machine.execDoz rt ra rb oe rc s
  | .mul rt ra rb oe rc => Sys2Proof.Machine.execMul rt ra rb oe rc s
  | .muls rt ra rb oe rc => Sys2Proof.Machine.execMuls rt ra rb oe rc s
  | .div rt ra rb oe rc => Sys2Proof.Machine.execDiv rt ra rb oe rc s
  | .divs rt ra rb oe rc => Sys2Proof.Machine.execDivs rt ra rb oe rc s
  | .cmpi bf ra si => Sys2Proof.Machine.execCmpi bf ra si s
  | .cmpli bf ra ui => Sys2Proof.Machine.execCmpli bf ra ui s
  | .cmp bf ra rb => Sys2Proof.Machine.execCmp bf ra rb s
  | .cmpl bf ra rb => Sys2Proof.Machine.execCmpl bf ra rb s
  | .andilDot rs ra ui => Sys2Proof.Machine.execAndilDot rs ra ui s
  | .andiuDot rs ra ui => Sys2Proof.Machine.execAndiuDot rs ra ui s
  | .oril rs ra ui => Sys2Proof.Machine.execOril rs ra ui s
  | .oriu rs ra ui => Sys2Proof.Machine.execOriu rs ra ui s
  | .xoril rs ra ui => Sys2Proof.Machine.execXoril rs ra ui s
  | .xoriu rs ra ui => Sys2Proof.Machine.execXoriu rs ra ui s
  | .and rs ra rb rc => Sys2Proof.Machine.execAnd rs ra rb rc s
  | .or rs ra rb rc => Sys2Proof.Machine.execOr rs ra rb rc s
  | .xor rs ra rb rc => Sys2Proof.Machine.execXor rs ra rb rc s
  | .nand rs ra rb rc => Sys2Proof.Machine.execNand rs ra rb rc s
  | .nor rs ra rb rc => Sys2Proof.Machine.execNor rs ra rb rc s
  | .eqv rs ra rb rc => Sys2Proof.Machine.execEqv rs ra rb rc s
  | .andc rs ra rb rc => Sys2Proof.Machine.execAndc rs ra rb rc s
  | .orc rs ra rb rc => Sys2Proof.Machine.execOrc rs ra rb rc s
  | .exts rs ra rc => Sys2Proof.Machine.execExts rs ra rc s
  | .cntlz rs ra rc => Sys2Proof.Machine.execCntlz rs ra rc s
  | .rlimi rs ra sh mb me rc => Sys2Proof.Machine.execRlimi rs ra sh mb me rc s
  | .rlinm rs ra sh mb me rc => Sys2Proof.Machine.execRlinm rs ra sh mb me rc s
  | .rlmi rs ra rb mb me rc => Sys2Proof.Machine.execRlmi rs ra rb mb me rc s
  | .rlnm rs ra rb mb me rc => Sys2Proof.Machine.execRlnm rs ra rb mb me rc s
  | .rrib rs ra rb rc => Sys2Proof.Machine.execRrib rs ra rb rc s
  | .maskg rs ra rb rc => Sys2Proof.Machine.execMaskg rs ra rb rc s
  | .maskir rs ra rb rc => Sys2Proof.Machine.execMaskir rs ra rb rc s
  | .sl rs ra rb rc => Sys2Proof.Machine.execSl rs ra rb rc s
  | .sr rs ra rb rc => Sys2Proof.Machine.execSr rs ra rb rc s
  | .slq rs ra rb rc => Sys2Proof.Machine.execSlq rs ra rb rc s
  | .srq rs ra rb rc => Sys2Proof.Machine.execSrq rs ra rb rc s
  | .sliq rs ra sh rc => Sys2Proof.Machine.execSliq rs ra sh rc s
  | .sriq rs ra sh rc => Sys2Proof.Machine.execSriq rs ra sh rc s
  | .slliq rs ra sh rc => Sys2Proof.Machine.execSlliq rs ra sh rc s
  | .srliq rs ra sh rc => Sys2Proof.Machine.execSrliq rs ra sh rc s
  | .sllq rs ra rb rc => Sys2Proof.Machine.execSllq rs ra rb rc s
  | .srlq rs ra rb rc => Sys2Proof.Machine.execSrlq rs ra rb rc s
  | .sle rs ra rb rc => Sys2Proof.Machine.execSle rs ra rb rc s
  | .sre rs ra rb rc => Sys2Proof.Machine.execSre rs ra rb rc s
  | .sleq rs ra rb rc => Sys2Proof.Machine.execSleq rs ra rb rc s
  | .sreq rs ra rb rc => Sys2Proof.Machine.execSreq rs ra rb rc s
  | .sra rs ra rb rc => Sys2Proof.Machine.execSra rs ra rb rc s
  | .srai rs ra sh rc => Sys2Proof.Machine.execSrai rs ra sh rc s
  | .sraq rs ra rb rc => Sys2Proof.Machine.execSraq rs ra rb rc s
  | .sraiq rs ra sh rc => Sys2Proof.Machine.execSraiq rs ra sh rc s
  | .srea rs ra rb rc => Sys2Proof.Machine.execSrea rs ra rb rc s
  | .mtspr rs spr => Sys2Proof.Machine.execMtspr rs spr s
  | .mfspr rt spr => Sys2Proof.Machine.execMfspr rt spr s
  | .mcrxr bf => Sys2Proof.Machine.execMcrxr bf s
  | .mtcrf rs fxm => Sys2Proof.Machine.execMtcrf rs fxm s
  | .mfcr rt => Sys2Proof.Machine.execMfcr rt s
  | .mfmsr rt => Sys2Proof.Machine.execMfmsr rt s
  | .mtmsr rs => Sys2Proof.Machine.execMtmsr rs s
  | .lfs frt ra d => Sys2Proof.Machine.execLfs frt ra d s
  | .lfsu frt ra d => Sys2Proof.Machine.execLfsu frt ra d s
  | .lfsx frt ra rb => Sys2Proof.Machine.execLfsx frt ra rb s
  | .lfsux frt ra rb => Sys2Proof.Machine.execLfsux frt ra rb s
  | .lfd frt ra d => Sys2Proof.Machine.execLfd frt ra d s
  | .lfdu frt ra d => Sys2Proof.Machine.execLfdu frt ra d s
  | .lfdx frt ra rb => Sys2Proof.Machine.execLfdx frt ra rb s
  | .lfdux frt ra rb => Sys2Proof.Machine.execLfdux frt ra rb s
  | .stfs frs ra d => Sys2Proof.Machine.execStfs frs ra d s
  | .stfsu frs ra d => Sys2Proof.Machine.execStfsu frs ra d s
  | .stfsx frs ra rb => Sys2Proof.Machine.execStfsx frs ra rb s
  | .stfsux frs ra rb => Sys2Proof.Machine.execStfsux frs ra rb s
  | .stfd frs ra d => Sys2Proof.Machine.execStfd frs ra d s
  | .stfdu frs ra d => Sys2Proof.Machine.execStfdu frs ra d s
  | .stfdx frs ra rb => Sys2Proof.Machine.execStfdx frs ra rb s
  | .stfdux frs ra rb => Sys2Proof.Machine.execStfdux frs ra rb s
  | .lfq frt ra ds => Sys2Proof.Machine.execLfq frt ra ds s
  | .lfqu frt ra ds => Sys2Proof.Machine.execLfqu frt ra ds s
  | .lfqx frt ra rb => Sys2Proof.Machine.execLfqx frt ra rb s
  | .lfqux frt ra rb => Sys2Proof.Machine.execLfqux frt ra rb s
  | .stfq frs ra ds => Sys2Proof.Machine.execStfq frs ra ds s
  | .stfqu frs ra ds => Sys2Proof.Machine.execStfqu frs ra ds s
  | .stfqx frs ra rb => Sys2Proof.Machine.execStfqx frs ra rb s
  | .stfqux frs ra rb => Sys2Proof.Machine.execStfqux frs ra rb s
  | .fmr frt frb rc => Sys2Proof.Machine.execFmr frt frb rc s
  | .fneg frt frb rc => Sys2Proof.Machine.execFneg frt frb rc s
  | .fabs frt frb rc => Sys2Proof.Machine.execFabs frt frb rc s
  | .fnabs frt frb rc => Sys2Proof.Machine.execFnabs frt frb rc s
  | .fa frt fra frb rc => Sys2Proof.Machine.execFa frt fra frb rc s
  | .fs frt fra frb rc => Sys2Proof.Machine.execFs frt fra frb rc s
  | .fm frt fra frc rc => Sys2Proof.Machine.execFm frt fra frc rc s
  | .fd frt fra frb rc => Sys2Proof.Machine.execFd frt fra frb rc s
  | .fma frt fra frb frc rc => Sys2Proof.Machine.execFma frt fra frb frc rc s
  | .fms frt fra frb frc rc => Sys2Proof.Machine.execFms frt fra frb frc rc s
  | .fnma frt fra frb frc rc => Sys2Proof.Machine.execFnma frt fra frb frc rc s
  | .fnms frt fra frb frc rc => Sys2Proof.Machine.execFnms frt fra frb frc rc s
  | .frsp frt frb rc => Sys2Proof.Machine.execFrsp frt frb rc s
  | .fcir frt frb rc => Sys2Proof.Machine.execFcir frt frb rc s
  | .fcirz frt frb rc => Sys2Proof.Machine.execFcirz frt frb rc s
  | .fsqrt frt frb rc => Sys2Proof.Machine.execFsqrt frt frb rc s
  | .fcmpu bf fra frb => Sys2Proof.Machine.execFcmpu bf fra frb s
  | .fcmpo bf fra frb => Sys2Proof.Machine.execFcmpo bf fra frb s
  | .mffs frt rc => Sys2Proof.Machine.execMffs frt rc s
  | .mcrfs bf bfa => Sys2Proof.Machine.execMcrfs bf bfa s
  | .mtfsf flm frb rc => Sys2Proof.Machine.execMtfsf flm frb rc s
  | .mtfsfi bf imm rc => Sys2Proof.Machine.execMtfsfi bf imm rc s
  | .mtfsb0 bt rc => Sys2Proof.Machine.execMtfsb0 bt rc s
  | .mtfsb1 bt rc => Sys2Proof.Machine.execMtfsb1 bt rc s
  | .dcs => Sys2Proof.Machine.execDcs s
  | .ics => Sys2Proof.Machine.execIcs s
  | .clf ra rb => Sys2Proof.Machine.execClf ra rb s
  | .cli ra rb => Sys2Proof.Machine.execCli ra rb s
  | .dclst ra rb => Sys2Proof.Machine.execDclst ra rb s
  | .dclz ra rb => Sys2Proof.Machine.execDclz ra rb s
  | .mtsr rs sr => Sys2Proof.Machine.execMtsr rs sr s
  | .mtsri rs ra rb => Sys2Proof.Machine.execMtsri rs ra rb s
  | .mfsr rt sr => Sys2Proof.Machine.execMfsr rt sr s
  | .mfsri rs ra rb => Sys2Proof.Machine.execMfsri rs ra rb s
  | .clcs rt ra => Sys2Proof.Machine.execClcs rt ra s
  | .tlbi ra rb => Sys2Proof.Machine.execTlbi ra rb s
  | .rac rt ra rb rc => Sys2Proof.Machine.execRac rt ra rb rc s

end Sys2Proof.Machine
end

