-- ==== Sys2Proof/Machine/Moves.lean ====
section
/-!
DEFINITION. What the agents other than the processor do between two instructions: the hardware's spontaneous cache and
TLB transitions (20_memory R133, 21_translation R200), the time base (61_extint_timers R799), the resets
(70_reset_and_hazards R1001 to R1004), and the devices and bus masters behind the IOCCs (62_iocc, 63_iocc_channels).
-/

namespace Sys2Proof.Machine

/-! ### The memory hierarchy (R133, R200) -/

/-- The store-back at a place of the queue reaches memory (R664). -/
def State.finishStoreBackAt (s : State) (n : Nat) : State :=
  match s.wb[n]? with
  | some e => { s.finishStoreBack e with wb := s.wb.eraseIdx n }
  | none => s

/-! ### Resets -/

/-- Power-on (R1001): the processor and the IOCCs as at reset; the implementation and what the hardware of the IOCCs is
(R935), main memory and ROM, NVRAM, the keylock and the inputs of the host stay (log entry 51). -/
def State.powerOn (s : State) : State :=
  { State.reset with
    cfg := s.cfg
    mem := s.mem
    nvram := s.nvram
    keylock := s.keylock
    ioccs := s.ioccs.map (Iocc.powerOn s.cfg.burstControl)
    busIn := s.busIn
    busLog := s.busLog
    agenda := s.agenda
    draws := s.draws }

/-- A cold reset (R982): the processor is as after power-on but for the running timers (R1006); the IOCCs keep all but
master enable and CRR (R960, R962). -/
def State.coldReset (s : State) : State :=
  { s.powerOn with
    ioccs := s.ioccs.map Iocc.systemReset
    rtcu := s.rtcu
    rtcl := s.rtcl
    dec := s.dec }

/-- The Reset button (R983, R1003): nothing in the secure position. Whether the reset is cold or warm is an input (R982,
decision D54). -/
def State.pushReset (s : State) (k : ResetKind) : State :=
  if s.keylock = .secure then s
  else
    match k with
    | .warm => { s with sysReset := true, ioccs := s.ioccs.map Iocc.systemReset }
    | .cold => s.coldReset

/-- A word of NVRAM (R946). -/
def State.nvramWord (s : State) (off : Nat) : Word :=
  wordOfBytes ((List.range 4).map fun i => cellRead 0 s.nvram (off + i))

/-- NVRAM with bytes replaced from an offset on. -/
def State.setNvram : List Byte → Nat → State → State
  | [], _, s => s
  | b :: l, off, s => State.setNvram l (off + 1) { s with nvram := cellWrite 0 s.nvram off b }

/-- The offset of the check stop count (R984). -/
def checkStopCount : Nat := 0x308

/-- The sequencer's writes stay in the shared and its own areas of NVRAM (R946). -/
def ocsMayWrite (off : Nat) (s : State) : Bool :=
  decide (0x300 ≤ off) && decide (off < 0x4400) && decide (off < s.cfg.nvramBytes)

/-- The on-card sequencer restarts a check stopped machine (R1003) by a cold reset, and the check stop count goes up. -/
def State.ocsRestart (s : State) : State :=
  if s.cfg.hasOcs && s.checkstopped then
    State.setNvram (toBytes 4 (s.nvramWord checkStopCount + 1)) checkStopCount s.coldReset
  else s

/-! ### Inputs of the IOCCs -/

/-- The device in a slot drives an interrupt request line (R925). -/
def State.setLine (s : State) (k : Nat) (slot l : BitVec 4) (up : Bool) : State :=
  s.onIocc k fun x =>
    { x with lines := x.lines.set slot.toNat (setLevel (x.lines[slot.toNat]'slot.isLt) l up) slot.isLt }

/-- A hardware fault waits for the next access it can concern: codes 1001 and 1100 to 1111 (R836, R886,
R901, R912). -/
def State.setFault (s : State) (k : Nat) (code : BitVec 4) : State :=
  s.onIocc k fun x => { x with fault := if code = 9 ∨ 0xC ≤ code then code else x.fault }

/-- The device in a slot makes hardware set a bit of MISC (R927); one that is held in reset does not (R940). -/
def State.setMisc (s : State) (k : Nat) (slot : BitVec 4) (bit : BitVec 3) : State :=
  s.onIocc k fun x => if x.slotHeld slot then x else { x with misc := x.misc ||| bit }

/-! ### One move -/

/-- What a move of an agent other than the processor does. The hardware's fill of a line of the instruction cache, like that of the
data cache, does nothing when the line is not wholly memory and ROM: no machine check condition, of which R122 does not speak for
fills that no access asks for (log entry 61, DESIGN CHOICE). Power-on is a move like any other, at any time and any number of
times: R1002 has it exactly once and first, which is State.reset, and R1004 and R984 have it come again after a final check stop
(log entry 51, DESIGN CHOICE). -/
def agentMove (m : Move) (s : State) : MoveRes :=
  match m with
  | .cpu => .ok s
  | .tick => .ok (if s.mayTick then s.tick else s)
  | .prefetch ea => .ok (s.prefetchWord ea)
  | .evictData line => .ok (s.evictData line)
  | .fillData line => .ok (s.fillData line)
  | .finishStoreBack n => .ok (s.finishStoreBackAt n)
  | .evictInstr line => .ok (s.dropInstr line)
  | .fillInstr line => .ok ((s.fillInstr line).getD s)
  | .dropTlb n => .ok { s with tlb := s.tlb.eraseIdx n }
  | .machineCheck => .ok { s with machineCheck := true }
  | .checkStop => .ok { s with checkstopped := true }
  | .externalCheck => .ok (if s.cfg.impl = .power2 then s.signal s.eisbidCheck else s)
  | .epow => .ok (if s.cfg.impl = .power2 then s.signal s.eisbidEpow else s)
  | .resetButton kind => .ok (s.pushReset kind)
  | .turnKey k => .ok { s with keylock := k }
  | .ocsRestart => .ok s.ocsRestart
  | .ocsWrite off b => .ok (if s.cfg.hasOcs && ocsMayWrite off s then State.setNvram [b] off s else s)
  | .powerOn => .ok s.powerOn
  | .line k slot l up => .ok (s.setLine k slot l up)
  | .present k l => .ok (presentLevel k l s)
  | .asyncCheck k slot => .ok (s.setMisc k slot 0b100)
  | .keyboard k => .ok (s.setMisc k 15 0b001)
  | .busTimeout k slot signals => .ok (if (s.iocc k).slotHeld slot then s else busTimeout k signals s)
  | .request k r => .ok (requestBus k r s)
  | .grant k => grantBus k [] (pauseBus k) s
  | .readAhead k b => .ok (Sys2Proof.Machine.readAhead k b s)
  | .channelFault k slot c code ba store => .ok (Sys2Proof.Machine.channelFault k slot c code ba store s)
  | .accessFault k code => .ok (s.setFault k code)
  | .answer a => .ok { s with busIn := s.busIn ++ [a] }

/-- The moves a check stop does not end (R1004): time, the host's hands, and the restarts. The Reset button is none of them:
R1004 takes no interrupt and names the sequencer's restart and power-on alone as the ways out, and R1002 lets the button be
pushed at any time; the model ignores it there, with and without a sequencer (log entry 20, DESIGN CHOICE). -/
def survivesCheckStop : Move → Bool
  | .tick | .turnKey _ | .ocsRestart | .ocsWrite _ _ | .powerOn | .answer _ => true
  | _ => false

/-- A move of an agent: a check stop stops every agent (R1004). -/
def runMove (m : Move) (s : State) : MoveRes :=
  if s.checkstopped && !survivesCheckStop m then .ok s else agentMove m s

end Sys2Proof.Machine
end

