-- ==== Sys2Proof/Machine/Run.lean ====
section
/-!
DEFINITION. One step of the processor (60_exceptions R731): the tests for pending conditions, the fetch, the
instruction, and what follows its completion (R718, R720).
-/

namespace Sys2Proof.Machine

open Host (Outcome)

/-- What is done on a machine check condition (R695): the interrupt, or a check stop. -/
def State.takeMachineCheck (s : State) (addr : Word) : State :=
  if s.msrME then s.interrupt .machineCheck addr 0 else { s with checkstopped := true }

/-- The Floating-Point Imprecise condition (R720). -/
def State.fpiCondition (s : State) : Bool := s.cfg.impl == .power2 && s.fex && !s.msrFE && s.msrIE

/-- The machine takes the Floating-Point Imprecise interrupt now (R720): a free choice until `FPI_DELAY` instructions have
completed. -/
def State.fpiNow (s : State) : Bool × State :=
  if !s.fpiCondition then (false, s)
  else if s.cfg.fpiDelay ≤ s.fpiWait then (true, s)
  else s.drawBit

/-- The branches of R718 (decision D27). -/
def isBranch : Instr → Bool
  | .b .. | .bc .. | .bcr .. | .bcc .. => true
  | _ => false

/-- The instructions that are not traced (R718). -/
def neverTraced : Instr → Bool
  | .svc .. | .rfi | .rfsvc .. | .mtmsr .. => true
  | _ => false

/-- The Trace condition (R718): `s` is the state in which the instruction began, `t` the one it completed in. -/
def traced (i : Instr) (s t : State) : Bool :=
  s.cfg.impl == .power2 && !t.entered && !neverTraced i && (s.msrSE || s.msrBE && isBranch i)

/-- Before an instruction: nothing has been recorded of it. -/
def State.beforeExec (s : State) : State := { s with entered := false, csrTouched := false }

/-- The instruction that began in `s` has completed in `t`: it has taken no interrupt in its place. An svc completes by
entering one, and a change of the MSR may enter one after it (R710). -/
def completed (i : Instr) (s t : State) : Bool :=
  !t.entered ||
    match i with
    | .svc .. => true
    | .rfi | .rfsvc .. | .mtmsr .. => !s.msrPR
    | _ => false

/-- After an instruction that began in `s` and has answered `t`: the counts of completed instructions, then Trace
(R731 item 9). -/
def afterExec (i : Instr) (s t : State) : State :=
  let t1 := { t with
    lastCsr := if completed i s t then t.csrTouched else s.lastCsr
    ilcrSettle := if completed i s t then t.ilcrSettle - 1 else t.ilcrSettle
    fpiWait := if t.fpiCondition then (if s.fpiCondition then s.fpiWait + 1 else 0) else 0 }
  if traced i s t then t1.interrupt .trace t1.pc 0 else t1

/-- An instruction's outcome with what follows its completion. -/
def finishExec (i : Instr) (s : State) (o : Outcome State Fault Refusal) : Outcome State Fault Refusal :=
  match o with
  | .next t => .next (afterExec i s t)
  | .fault f => .fault f
  | .refused r => .refused r

/-- The instruction with this word runs (R731 item 6); an undefined word is an invalid operation (R707). -/
def runWord (w : Word) (s : State) : Outcome State Fault Refusal :=
  match decode s.cfg.impl w with
  | .invalid _ => .next (s.beforeExec.program .invalid)
  | .instr i => finishExec i s.beforeExec (exec i s.beforeExec)

/-- After a successful fetch (R731 items 4 to 9). -/
def runFetched (w : Word) (s : State) : Outcome State Fault Refusal :=
  if s.externalSignal && s.msrEE then .next (s.interrupt .external s.pc 0)
  else
    let (now, s1) := s.fpiNow
    if now then .next (s1.interrupt .fpImprecise s1.pc 0) else runWord w s1

/-- One step of the processor (R731). -/
def cpuStep (s : State) : Outcome State Fault Refusal :=
  if s.checkstopped then .fault .checkStop
  else if s.sysReset then .next ({ s with sysReset := false }.interrupt .systemReset s.pc 0)
  else if s.machineCheck then .next ({ s with machineCheck := false }.takeMachineCheck s.pc)
  else
    match ifetch s with
    | .word w s1 => runFetched w s1
    | .storage info s1 => .next (s1.interrupt .instrStorage s1.pc info)
    | .machineCheck s1 => .next (s1.takeMachineCheck s1.pc)

/-- A state in which the next instruction the processor runs is the word w: the word stands in memory at the real address
of the program counter, or, with MSR(IR) = 1, in the prefetch buffer (R133). The agents have no move due, the time base
neither, and nothing is pending. -/
def State.placeWord (s : State) (w : Word) : State :=
  let s1 := { s with agenda := [], stepsRun := 0, sysReset := false, machineCheck := false, checkstopped := false }
  let others := s.pf.filter fun p => p.1 != s.pc
  if s.msrIR then { s1 with pf := (s.pc, w) :: others }
  else
    let put (m : List Host.Cell) (i : Nat) : List Host.Cell :=
      cellWrite Memory.unlisted m (s.pc.toNat + i) (w.extractLsb' (8 * (3 - i)) 8)
    { s1 with
      mem := put (put (put (put s.mem 0) 1) 2) 3
      ic := s.ic.filter fun d => d.line != s.lineOf s.pc
      pf := others }

end Sys2Proof.Machine
end

