-- ==== Sys2Proof/Machine/Step.lean ====
section
/-!
DEFINITION. One step of the machine: the next agent's move, the processor's when none is due.
-/

namespace Sys2Proof.Machine

/-- One step: the first move of the agenda, or a step of the processor (R731); before the processor's, a tick when one is
due (R799). -/
def step (s : State) : Host.Outcome State Fault Refusal :=
  match s.agenda with
  | [] => if s.tickDue then .next s.tick else cpuStep s.countStep
  | .cpu :: l => if s.tickDue then .next s.tick else cpuStep { s.countStep with agenda := l }
  | m :: l =>
    match runMove m { s with agenda := l } with
    | .ok t => .next t
    | .refused r => .refused r

/-- `s` with the instruction whose bits are w where `step` fetches its next instruction. -/
def State.withFetchWord (s : State) (nbits w : Nat) : State := s.placeWord (tableWord (w % 2 ^ nbits))

end Sys2Proof.Machine
end

