-- ==== Sys2Proof/Safety.lean ====
section
/-!
DEFINITION. The terms claims use: the invariants every state of the machine keeps, the read of memory, when an access in
real mode can be performed, and what an instruction leaves unchanged.
-/

namespace Sys2Proof

/-! ### Kinds of instructions -/

/-- The floating-point instructions: they need MSR(FP) = 1 (R17, R716). -/
def Instr.isFloat : Instr → Bool
  | .lfs .. | .lfsu .. | .lfsx .. | .lfsux .. | .lfd .. | .lfdu .. | .lfdx .. | .lfdux .. => true
  | .stfs .. | .stfsu .. | .stfsx .. | .stfsux .. | .stfd .. | .stfdu .. | .stfdx .. | .stfdux .. => true
  | .lfq .. | .lfqu .. | .lfqx .. | .lfqux .. | .stfq .. | .stfqu .. | .stfqx .. | .stfqux .. => true
  | .fmr .. | .fneg .. | .fabs .. | .fnabs .. | .fa .. | .fs .. | .fm .. | .fd .. => true
  | .fma .. | .fms .. | .fnma .. | .fnms .. | .frsp .. | .fcir .. | .fcirz .. | .fsqrt .. => true
  | .fcmpu .. | .fcmpo .. | .mffs .. | .mcrfs .. | .mtfsf .. | .mtfsfi .. | .mtfsb0 .. | .mtfsb1 .. => true
  | _ => false

/-- The quad loads and stores, of two doublewords (R581 to R588). -/
def Instr.isQuad : Instr → Bool
  | .lfq .. | .lfqu .. | .lfqx .. | .lfqux .. | .stfq .. | .stfqu .. | .stfqx .. | .stfqux .. => true
  | _ => false

/-- The scalar fixed-point loads. -/
def Instr.isFixedLoad : Instr → Bool
  | .lbz .. | .lbzu .. | .lbzx .. | .lbzux .. | .lhz .. | .lhzu .. | .lhzx .. | .lhzux .. => true
  | .lha .. | .lhau .. | .lhax .. | .lhaux .. | .l .. | .lu .. | .lx .. | .lux .. | .lhbrx .. | .lbrx .. => true
  | _ => false

/-- The privileged instructions but mtspr and mfspr (R708). -/
def Instr.isPrivileged : Instr → Bool
  | .rfi | .rfsvc .. | .mtmsr .. | .mtsr .. | .mtsri .. | .tlbi .. | .rac .. | .cli .. => true
  | _ => false

/-- `SPR_ILCR` is not the number of another register (R52, R60). -/
def Config.Machine.OwnIlcr (m : Config.Machine) : Prop :=
  m.sprIlcr.toNat ∉ [0, 1, 4, 5, 6, 8, 9, 17, 18, 19, 20, 21, 22, 25, 26, 27]

end Sys2Proof

namespace Sys2Proof.Machine

open Host (Outcome)

/-! ### Invariants -/

/-- The registers hold only what the architecture lets them hold: instruction addresses are multiples of 4 (R7), the
reserved bits of MSR (R14), XER (R3), RTCL (R48) and DEC (R49) are 0, and VX and FEX of the FPSCR follow from its other
bits (R36, R37). -/
structure State.Legal (s : State) : Prop where
  pc : wordAlign s.pc = s.pc
  msr : s.msr &&& msrMask s.cfg.impl = s.msr
  xer : s.xer &&& xerMask = s.xer
  fpscr : fpSummary s.fpscr = s.fpscr
  rtcl : s.rtcl &&& timerMask = s.rtcl
  dec : s.dec &&& timerMask = s.dec

/-- The TCW and tag tables of an IOCC are in canonical form. -/
structure Iocc.Canonical (x : Iocc) : Prop where
  tcw : cellsFrom 0 0 x.tcw = true
  tag : cellsFrom 0 0 x.tag = true

/-- The sparse storages are in canonical form: addresses strictly rising, no entry equal to what an unlisted address
reads as. -/
structure State.Canonical (s : State) : Prop where
  mem : Memory.wf s.mem = true
  nvram : Memory.wf s.nvram = true
  ioccs : ∀ x ∈ s.ioccs, x.Canonical

/-- A step that is neither a fault nor a refusal leads to a state with `p`. -/
def Keeps (p : State → Prop) : Prop := ∀ s t, p s → step s = .next t → p t

/-! ### Accesses in real mode (20_memory R108, R112 to R114, R133) -/

/-- XER(OV) (R5). -/
def State.xerOV (s : State) : Bool := bitAt s.xer 1

/-- The n bytes that loads from `ea` on find now. -/
def State.dataBytes (s : State) (ea : Word) (n : Nat) : List Byte :=
  (List.range n).map fun i => s.dataByte (ea + BitVec.ofNat 32 i)

/-- Data addresses are real addresses, and none of the n bytes is in an I/O segment. -/
structure State.RealMode (s : State) (ea : Word) (n : Nat) : Prop where
  noTranslation : s.msrDR = false
  noIo : ∀ i, i < n → s.isIo (ea + BitVec.ofNat 32 i) = false

/-- The line of each byte is in the data cache or wholly memory and ROM: a load of it raises no condition (R122). -/
def State.Readable (s : State) (ea : Word) (n : Nat) : Prop :=
  ∀ i, i < n → (s.dataLine (s.lineOf (ea + BitVec.ofNat 32 i))).isSome = true
    ∨ s.lineBacked (s.lineOf (ea + BitVec.ofNat 32 i)) = true

/-- No byte is in ROM (R122). -/
def State.NoRom (s : State) (ea : Word) (n : Nat) : Prop :=
  ∀ i, i < n → s.isRom (ea + BitVec.ofNat 32 i).toNat = false

/-- The boundary of width n at or below an address: what an access uses when low-order bits are ignored (R113). -/
def boundary (ea : Word) (n : Nat) : Word := ea - BitVec.ofNat 32 (ea.toNat % n)

/-- The access is on its boundary, or MSR(AL) = 0 and its low-order bits are ignored (R113). -/
def State.AlignFree (s : State) (ea : Word) (n : Nat) : Prop := ea.toNat % n = 0 ∨ s.msrAL = false

/-- An access of n bytes at `ea` by an instruction that needs no help of the alignment interrupt, in real mode, to
memory that is there. -/
structure State.CanLoad (s : State) (ea : Word) (n : Nat) : Prop where
  canonical : s.Canonical
  align : s.AlignFree ea n
  real : s.RealMode (boundary ea n) n
  readable : s.Readable (boundary ea n) n

/-- The same for a store. -/
structure State.CanStore (s : State) (ea : Word) (n : Nat) : Prop extends s.CanLoad ea n where
  noRom : s.NoRom (boundary ea n) n

/-- The n bytes from `ea` on can be loaded in real mode. -/
structure State.CanLoadBlock (s : State) (ea : Word) (n : Nat) : Prop where
  canonical : s.Canonical
  real : s.RealMode ea n
  readable : s.Readable ea n

/-- The n bytes from `ea` on can be stored in real mode. -/
structure State.CanStoreBlock (s : State) (ea : Word) (n : Nat) : Prop extends s.CanLoadBlock ea n where
  noRom : s.NoRom ea n

/-! ### Values in memory (R118) -/

/-- The halfword that loads from `a` on find. -/
def State.halfAt (s : State) (a : Word) : Half := s.dataByte a ++ s.dataByte (a + 1)

/-- The word that loads from `a` on find. -/
def State.wordAt (s : State) (a : Word) : Word := s.halfAt a ++ s.halfAt (a + 2)

/-- The doubleword that loads from `a` on find. -/
def State.dwordAt (s : State) (a : Word) : DWord := s.wordAt a ++ s.wordAt (a + 4)

/-- The bytes of a halfword as they stand in memory. -/
def halfBytes (v : Half) : List Byte := [v.extractLsb' 8 8, v.extractLsb' 0 8]

/-- The bytes of a word as they stand in memory. -/
def wordBytes (v : Word) : List Byte := halfBytes (v.extractLsb' 16 16) ++ halfBytes (v.extractLsb' 0 16)

/-- The bytes of a doubleword as they stand in memory. -/
def dwordBytes (v : DWord) : List Byte := wordBytes (v.extractLsb' 32 32) ++ wordBytes (v.extractLsb' 0 32)

/-- The word of the register with place j in a string of n bytes at `a`: bytes past the end are 0 (R356). -/
def State.stringWord (s : State) (a : Word) (n j : Nat) : Word :=
  let b (k : Nat) : Byte := if k < n then s.dataByte (a + BitVec.ofNat 32 k) else 0
  (b (4 * j) ++ b (4 * j + 1)) ++ (b (4 * j + 2) ++ b (4 * j + 3))

/-- Byte k of the register sequence that starts at r (R361). -/
def State.stringByte (s : State) (r : RegNum) (k : Nat) : Byte :=
  (s.reg (r + BitVec.ofNat 5 (k / 4))).extractLsb' (8 * (3 - k % 4)) 8

/-! ### Frames -/

/-- The instruction completes from `s`, in a state with `p`. -/
def Completes (i : Instr) (s : State) (p : State → Prop) : Prop := ∃ t, exec i s = .next t ∧ p t

/-- Loads find the same byte at every address. -/
def State.SameMemory (s t : State) : Prop := ∀ b, t.dataByte b = s.dataByte b

/-- Loads find these bytes at `a` on, and the same byte as before at every other address. -/
structure State.Stored (s t : State) (a : Word) (l : List Byte) : Prop where
  stored : t.dataBytes a l.length = l
  others : ∀ b : Word, (∀ i, i < l.length → b ≠ a + BitVec.ofNat 32 i) → t.dataByte b = s.dataByte b

/-- `s` with what lies behind the registers as in `t`: memory, caches, store-backs, the TLB, the pending machine check
condition and the number of the next free value. -/
def State.withStorage (s t : State) : State :=
  { s with mem := t.mem, dc := t.dc, wb := t.wb, tlb := t.tlb, machineCheck := t.machineCheck, draws := t.draws }

/-- Nothing but what lies behind the registers differs. -/
def State.StorageOnly (s t : State) : Prop := t = s.withStorage t

/-- `s` with everything a data access can reach as in `t`: what lies behind the registers, the IOCCs and their devices with
the requests they make meanwhile (R841), the external interrupt registers, the timers (a wait for a time delay lets them
run, R915), NVRAM. -/
def State.withOutside (s t : State) : State :=
  { s.withStorage t with
    ioccs := t.ioccs, nvram := t.nvram, busIn := t.busIn, busLog := t.busLog, csrTouched := t.csrTouched
    eis := t.eis, eim := t.eim, eisbidDec := t.eisbidDec, eisbidCheck := t.eisbidCheck, eisbidEpow := t.eisbidEpow
    rtcu := t.rtcu, rtcl := t.rtcl, dec := t.dec, ticksRun := t.ticksRun, stepsRun := t.stepsRun
    agenda := t.agenda }

/-- Nothing but what a data access can reach differs. -/
def State.OutsideOnly (s t : State) : Prop := t = s.withOutside t

/-- What an instruction that writes only the general registers of `rs` leaves. -/
structure State.OnlyRegs (s t : State) (rs : List RegNum) : Prop where
  others : ∀ r, r ∉ rs → t.reg r = s.reg r
  rest : t = { s with gpr := t.gpr, pc := s.pc + 4 }
  memory : s.SameMemory t

/-- What a load into general registers of `rs` leaves: every byte of memory and every register but these and the
program counter. -/
structure State.OnlyLoads (s t : State) (rs : List RegNum) : Prop where
  others : ∀ r, r ∉ rs → t.reg r = s.reg r
  rest : t = { s.withStorage t with gpr := t.gpr, pc := s.pc + 4 }
  memory : s.SameMemory t

/-- What a store of these bytes at `a` leaves; `rs` are the general registers it updates. -/
structure State.OnlyStores (s t : State) (rs : List RegNum) (a : Word) (l : List Byte) : Prop where
  others : ∀ r, r ∉ rs → t.reg r = s.reg r
  rest : t = { s.withStorage t with gpr := t.gpr, pc := s.pc + 4 }
  memory : s.Stored t a l

/-- A load of n bytes at `ea` into RT: `v` computes the value from the address the access uses. -/
def LoadsInto (s : State) (i : Instr) (ea : Word) (n : Nat) (rt : RegNum) (v : Word → Word) : Prop :=
  s.CanLoad ea n → Completes i s fun t => t.reg rt = v (boundary ea n) ∧ s.OnlyLoads t [rt]

/-- A load with update: RA gets the effective address when it is neither 0 nor RT (R321). -/
def LoadsUpdating (s : State) (i : Instr) (ea : Word) (n : Nat) (rt ra : RegNum) (v : Word → Word) : Prop :=
  s.CanLoad ea n → Completes i s fun t =>
    t.reg rt = v (boundary ea n) ∧ (ra ≠ 0 → ra ≠ rt → t.reg ra = ea)
      ∧ s.OnlyLoads t (if ra = 0 then [rt] else [rt, ra])

/-- A store of these bytes at `ea`. -/
def StoresFrom (s : State) (i : Instr) (ea : Word) (l : List Byte) : Prop :=
  s.CanStore ea l.length → Completes i s fun t => s.OnlyStores t [] (boundary ea l.length) l

/-- A store with update: RA gets the effective address when it is not 0 (R321). -/
def StoresUpdating (s : State) (i : Instr) (ea : Word) (ra : RegNum) (l : List Byte) : Prop :=
  s.CanStore ea l.length → Completes i s fun t =>
    (ra ≠ 0 → t.reg ra = ea) ∧ s.OnlyStores t (if ra = 0 then [] else [ra]) (boundary ea l.length) l

/-! ### Fixed-point results -/

/-- CR0 after an instruction with Rc = 1 (R10). -/
def cr0Of (v : Word) (so : Bool) : BitVec 4 :=
  crNibble (decide (v.toInt < 0)) (decide (0 < v.toInt)) (decide (v.toInt = 0)) so

/-- A number is no signed word. -/
abbrev Overflows (n : Int) : Prop := n < -2 ^ 31 ∨ 2 ^ 31 ≤ n

/-- What a fixed-point instruction with target `rd` leaves (R400): the target, CA where it is written, OV and SO with
OE, CR0 with Rc by comparison of `shown`; everything but MQ and the number of the next free value keeps its value. -/
structure FixedResult (s t : State) (rd : RegNum) (v shown : Word) (ca : Option Bool) (oe ov rc : Bool) : Prop where
  target : t.reg rd = v
  others : ∀ r, r ≠ rd → t.reg r = s.reg r
  carry : t.xerCA = ca.getD s.xerCA
  overflow : t.xerOV = if oe then ov else s.xerOV
  summary : t.xerSO = if oe then (s.xerSO || ov) else s.xerSO
  xerRest : t.xer &&& 0x1FFFFFFF = s.xer &&& 0x1FFFFFFF
  cr0 : rc = true → t.crField 0 = cr0Of shown t.xerSO
  crRest : ∀ f, f ≠ 0 → t.crField f = s.crField f
  noRecord : rc = false → t.cr = s.cr
  rest : t = { s with gpr := t.gpr, xer := t.xer, cr := t.cr, mq := t.mq, draws := t.draws, pc := s.pc + 4 }
  memory : s.SameMemory t

/-- An instruction whose target takes the low 32 bits of the number `n`, of which OV and CR0 tell. -/
def Computes (s : State) (i : Instr) (rd : RegNum) (n : Int) (ca : Option Bool) (oe rc : Bool) : Prop :=
  Completes i s fun t =>
    FixedResult s t rd (BitVec.ofInt 32 n) (BitVec.ofInt 32 n) ca oe (decide (Overflows n)) rc ∧ t.mq = s.mq

/-- A logical instruction: its target takes `v`, no XER bit changes (R446). -/
def Yields (s : State) (i : Instr) (rd : RegNum) (v : Word) (rc : Bool) : Prop :=
  Completes i s fun t => FixedResult s t rd v v none false false rc ∧ t.mq = s.mq

/-- The same, with a new MQ. -/
def YieldsMq (s : State) (i : Instr) (rd : RegNum) (v mq : Word) (rc : Bool) : Prop :=
  Completes i s fun t => FixedResult s t rd v v none false false rc ∧ t.mq = mq

/-- Bit i of a word is under the mask that starts at bit b and stops at bit e, around the end when b is above e
(R246). -/
def inMask (b e i : Nat) : Bool := if b ≤ e then decide (b ≤ i ∧ i ≤ e) else decide (b ≤ i ∨ i ≤ e)

/-- What an instruction that writes only CR fields of `fs` leaves. -/
structure State.OnlyCr (s t : State) (fs : List CrField) : Prop where
  others : ∀ f, f ∉ fs → t.crField f = s.crField f
  rest : t = { s with cr := t.cr, pc := s.pc + 4 }
  memory : s.SameMemory t

/-! ### Floating-point results -/

/-- The number is no infinity and no NaN. -/
def fpFinite (x : DWord) : Bool := fpExp x != 2047

/-- The value of a finite number (R523). -/
def fpValue (x : DWord) : ℚ :=
  (if fpSign x then -1 else 1)
    * (if fpExp x = 0 then (fpFrac x : ℚ) * 2 ^ (-1074 : ℤ) else (2 ^ 52 + fpFrac x : ℚ) * 2 ^ ((fpExp x : ℤ) - 1075))

/-- The largest finite number. -/
def maxDouble : ℚ := 2 ^ 1024 - 2 ^ 971

/-- The largest finite single. -/
def maxSingle : ℚ := 2 ^ 128 - 2 ^ 104

/-- The number is a finite one that a single with its range holds exactly and normalized. -/
def NormalSingle (x : DWord) : Prop := 897 ≤ fpExp x ∧ fpExp x ≤ 1150 ∧ x.extractLsb' 0 29 = 0

/-- The number is finite and has no more significant bits than a single. -/
def SinglePrecision (x : DWord) : Prop := fpFinite x = true ∧ x.extractLsb' 0 29 = 0

/-- `r` is the number that rounding in mode RN makes of `v` (R530), among the numbers with `p`, whose last significant bit
is bit `last` from the right: the nearest, of two that are equally near the one whose last bit is 0; the nearest that is no
larger in magnitude; the smallest that is not below `v`; the largest that is not above `v`. -/
structure RoundedIn (p : DWord → Prop) (last : Nat) (rn : BitVec 2) (r : DWord) (v : ℚ) : Prop where
  isIn : p r
  nearest : rn = 0 → ∀ y, p y → |fpValue r - v| ≤ |fpValue y - v|
  even : rn = 0 → ∀ y, p y → fpValue y ≠ fpValue r → |fpValue y - v| = |fpValue r - v| → r.getLsbD last = false
  towardZero : rn = 1 → |fpValue r| ≤ |v| ∧ 0 ≤ fpValue r * v ∧ ∀ y, p y → |fpValue y| ≤ |v| → |fpValue y| ≤ |fpValue r|
  up : rn = 2 → v ≤ fpValue r ∧ ∀ y, p y → v ≤ fpValue y → fpValue r ≤ fpValue y
  down : rn = 3 → fpValue r ≤ v ∧ ∀ y, p y → fpValue y ≤ v → fpValue y ≤ fpValue r

/-- `r` is the finite double that rounding in mode RN makes of `v`. -/
def RoundsTo (rn : BitVec 2) (r : DWord) (v : ℚ) : Prop := RoundedIn (fpFinite · = true) 0 rn r v

/-- `v`, rounded in mode RN with no bound on the exponent, is beyond the largest magnitude in range, `most`: it is rounded to
`top`, the power of two that follows, or it is larger (R538, R619). -/
def RoundsBeyond (rn : BitVec 2) (most top v : ℚ) : Prop :=
  top ≤ |v| ∨ (most < |v| ∧ ((rn = 0 ∧ (most + top) / 2 ≤ |v|) ∨ (rn = 2 ∧ 0 < v) ∨ (rn = 3 ∧ v < 0)))

/-- `q` is the integer that rounding in mode RN makes of `v` (R530, R623): the nearest, of two the even one; without the
fraction; the next above; the next below. -/
structure RoundedInt (rn : BitVec 2) (q : ℤ) (v : ℚ) : Prop where
  nearest : rn = 0 → |(q : ℚ) - v| ≤ 1 / 2 ∧ (|(q : ℚ) - v| = 1 / 2 → q % 2 = 0)
  towardZero : rn = 1 → q = if 0 ≤ v then ⌊v⌋ else ⌈v⌉
  up : rn = 2 → q = ⌈v⌉
  down : rn = 3 → q = ⌊v⌋

/-- What overflow leaves when it is not enabled (R538, R613): an infinity, or `most`, the bits of the largest finite
magnitude, with the sign. -/
def overflowed (rn : BitVec 2) (negative : Bool) (most : DWord) : DWord :=
  let infinite := rn == 0 || rn == (if negative then 3 else 2)
  (if infinite then 0x7FF0000000000000 else most) ||| (if negative then 0x8000000000000000 else 0)

/-- The infinity of a sign (R523). -/
def infinity (negative : Bool) : DWord := if negative then 0xFFF0000000000000 else 0x7FF0000000000000

/-- FPRF for a result that is no NaN (R40): its sign, and whether it is an infinity, a zero, below the smallest normalized
number in magnitude, or above. -/
def resultClass (x : DWord) : BitVec 5 :=
  let (plus, minus) : BitVec 5 × BitVec 5 :=
    if isInf x then (0b00101, 0b01001)
    else if fpValue x = 0 then (0b00010, 0b10010)
    else if |fpValue x| < 2 ^ (-1022 : ℤ) then (0b10100, 0b11000)
    else (0b00100, 0b01000)
  if fpSign x then minus else plus

/-- The bits of the FPSCR that tell of a rounding of `exact` to `rounded`: FR that the magnitude was incremented, FI that the
two differ (R544), XX is set where they do (R541), OX and UX with `ox` and `ux`. -/
structure RoundingFlags (before after : Word) (exact rounded : ℚ) (ox ux : Bool) : Prop where
  fr : bitAt after 13 = decide (|exact| < |rounded|)
  fi : bitAt after 14 = decide (rounded ≠ exact)
  xx : bitAt after 6 = (bitAt before 6 || decide (rounded ≠ exact))
  ox : bitAt after 3 = (bitAt before 3 || ox)
  ux : bitAt after 4 = (bitAt before 4 || ux)

/-- `r` is what an arithmetic instruction that begins with `before` in the FPSCR delivers for the exact result `v`, and
`after` the FPSCR it leaves. Its sign is that of `v`, `zero` where `v` is 0 (R552, R553). It is `v` rounded where `v` is in
range, or is rounded back into it (R530 to R532), and UX tells of a tiny `v` that it differs from; with the underflow
exception enabled it is 2^1536 times a tiny `v`, rounded, with UX (R540); with the overflow exception enabled `v` over
2^1536, rounded, with OX; with it disabled an infinity or the largest finite magnitude, with OX, XX and FI, and FR as the
rounding with no bound on the exponent leaves it (R538). Neither ZX nor an invalid operation bit changes (R534). -/
structure Delivers (before after : Word) (r : DWord) (v : ℚ) (zero : Bool) : Prop where
  sign : fpSign r = if v = 0 then zero else decide (v < 0)
  others : ∀ n ∈ [5, 7, 8, 9, 10, 11, 12, 22, 23], bitAt after n = bitAt before n
  inRange : |v| ≤ maxDouble → (bitAt before 26 = false ∨ v = 0 ∨ 2 ^ (-1022 : ℤ) ≤ |v|) →
    RoundsTo (bitsAt before 30 2) r v
      ∧ RoundingFlags before after v (fpValue r) false (decide (|v| < 2 ^ (-1022 : ℤ) ∧ fpValue r ≠ v))
  underflow : bitAt before 26 = true → v ≠ 0 → |v| < 2 ^ (-1022 : ℤ) →
    RoundsTo (bitsAt before 30 2) r (v * 2 ^ 1536) ∧ RoundingFlags before after (v * 2 ^ 1536) (fpValue r) false true
  notBeyond : maxDouble < |v| → ¬ RoundsBeyond (bitsAt before 30 2) maxDouble (2 ^ 1024) v →
    RoundsTo (bitsAt before 30 2) r v ∧ RoundingFlags before after v (fpValue r) false false
  enabledOverflow : bitAt before 25 = true → RoundsBeyond (bitsAt before 30 2) maxDouble (2 ^ 1024) v →
    RoundsTo (bitsAt before 30 2) r (v / 2 ^ 1536) ∧ RoundingFlags before after (v / 2 ^ 1536) (fpValue r) true false
  overflow : bitAt before 25 = false → RoundsBeyond (bitsAt before 30 2) maxDouble (2 ^ 1024) v →
    r = overflowed (bitsAt before 30 2) (decide (v < 0)) 0x7FEFFFFFFFFFFFFF
      ∧ bitAt after 3 = true ∧ bitAt after 4 = bitAt before 4 ∧ bitAt after 6 = true ∧ bitAt after 14 = true
      ∧ ∃ y, RoundsTo (bitsAt before 30 2) y (v / 2 ^ 1536) ∧ bitAt after 13 = decide (|v / 2 ^ 1536| < |fpValue y|)

/-- FX is set when an exception bit that was 0 is 1 (R35). -/
def SetsFx (before after : Word) : Prop :=
  bitAt after 0 = (bitAt before 0
    || [3, 4, 5, 6, 7, 8, 9, 10, 11, 12, 22, 23].any fun n => bitAt after n && !bitAt before n)

/-- The state that a floating-point instruction which can raise an enabled exception leads to, when `u` has its effects:
the Program interrupt with FE and FEX, else the next instruction (R545, R710). -/
def State.fpNext (u : State) : State :=
  if u.msrFE && bitAt u.fpscr 1 then u.interrupt .program u.pc 0x0010 else { u with pc := u.pc + 4 }

/-- What a floating-point instruction leaves that writes the registers of `rs`, before it goes on: CR field 1 with
Rc. -/
structure State.OnlyFloat (s u : State) (rs : List RegNum) (rc : Bool) : Prop where
  others : ∀ r, r ∉ rs → u.freg r = s.freg r
  cr1 : rc = true → u.crField 1 = bitsAt u.fpscr 0 4
  crRest : ∀ f, f ≠ 1 → u.crField f = s.crField f
  noRecord : rc = false → u.cr = s.cr
  rest : u = { s with fpr := u.fpr, fpRecent := u.fpRecent, fpscr := u.fpscr, cr := u.cr, draws := u.draws }
  memory : s.SameMemory u

/-- A floating-point instruction completes with effects `p` on the target FRT and the FPSCR. -/
def FloatCompletes (s : State) (i : Instr) (frt : RegNum) (rc : Bool) (p : State → Prop) : Prop :=
  ∃ u, exec i s = .next u.fpNext ∧ s.OnlyFloat u [frt] rc ∧ p u

/-- What a floating-point load leaves. -/
structure State.OnlyFloatLoads (s t : State) (frs rs : List RegNum) : Prop where
  floats : ∀ r, r ∉ frs → t.freg r = s.freg r
  others : ∀ r, r ∉ rs → t.reg r = s.reg r
  rest : t = { s.withStorage t with gpr := t.gpr, fpr := t.fpr, fpRecent := t.fpRecent, pc := s.pc + 4 }
  memory : s.SameMemory t

/-- A floating-point store into memory leaves what a store leaves; so do these bytes at `ea` when MSR(FP) is 1. -/
def FloatStoresFrom (s : State) (i : Instr) (ea : Word) (l : List Byte) : Prop :=
  s.msrFP = true → StoresFrom s i ea l

/-- A floating-point store with update: RA gets the effective address when it is not 0 (R563). -/
def FloatStoresUpdating (s : State) (i : Instr) (ea : Word) (ra : RegNum) (l : List Byte) : Prop :=
  s.msrFP = true → StoresUpdating s i ea ra l

/-- A floating-point load of n bytes at `ea` into FRT. -/
def FloatLoadsInto (s : State) (i : Instr) (ea : Word) (n : Nat) (frt : RegNum) (v : Word → DWord) : Prop :=
  s.msrFP = true → s.CanLoad ea n → Completes i s fun t => t.freg frt = v (boundary ea n) ∧ s.OnlyFloatLoads t [frt] []

/-- A floating-point load with update: RA gets the effective address when it is not 0 (R563). -/
def FloatLoadsUpdating (s : State) (i : Instr) (ea : Word) (n : Nat) (frt ra : RegNum) (v : Word → DWord) : Prop :=
  s.msrFP = true → s.CanLoad ea n → Completes i s fun t =>
    t.freg frt = v (boundary ea n) ∧ (ra ≠ 0 → t.reg ra = ea) ∧ s.OnlyFloatLoads t [frt] (if ra = 0 then [] else [ra])

/-- A quad load at `ea` into FRT and the register after it, 0 after 31; `rs` are the general registers it updates, to
`ea` (R581). -/
def QuadLoads (s : State) (i : Instr) (ea : Word) (frt : RegNum) (rs : List RegNum) : Prop :=
  s.msrFP = true → s.CanLoad ea 8 → s.CanLoad (ea + 8) 8 → Completes i s fun t =>
    t.freg frt = s.dwordAt (boundary ea 8) ∧ t.freg (frt + 1) = s.dwordAt (boundary (ea + 8) 8)
      ∧ (∀ r ∈ rs, t.reg r = ea) ∧ s.OnlyFloatLoads t [frt, frt + 1] rs

/-- A quad store at `ea` of FRS and the register after it (R585). -/
def QuadStores (s : State) (i : Instr) (ea : Word) (frs : RegNum) (rs : List RegNum) : Prop :=
  s.msrFP = true → s.CanStore ea 8 → s.CanStore (ea + 8) 8 → Completes i s fun t =>
    (∀ r ∈ rs, t.reg r = ea)
      ∧ s.OnlyStores t rs (boundary ea 8) (dwordBytes (s.freg frs) ++ dwordBytes (s.freg (frs + 1)))

/-- The FPSCR bits that follow from others do (R36, R37), and the reserved bits are 0. -/
def Summarized (v : Word) : Prop :=
  bitAt v 2 = [7, 8, 9, 10, 11, 12, 22, 23].any (bitAt v)
    ∧ bitAt v 1 = (bitAt v 2 && bitAt v 24 || bitAt v 3 && bitAt v 25 || bitAt v 4 && bitAt v 26
        || bitAt v 5 && bitAt v 27 || bitAt v 6 && bitAt v 28)
    ∧ bitAt v 20 = false ∧ bitAt v 21 = false ∧ bitAt v 29 = false

/-- The target and the operands FRA, FRB, FRC, in this order, of the instructions that follow the arithmetic template
(R550), and their Rc. -/
def State.floatOperands (s : State) : Instr → Option (RegNum × List DWord × Bool)
  | .fa frt fra frb rc | .fs frt fra frb rc | .fd frt fra frb rc => some (frt, [s.freg fra, s.freg frb], rc)
  | .fm frt fra frc rc => some (frt, [s.freg fra, s.freg frc], rc)
  | .fma frt fra frb frc rc | .fms frt fra frb frc rc => some (frt, [s.freg fra, s.freg frb, s.freg frc], rc)
  | .fnma frt fra frb frc rc | .fnms frt fra frb frc rc => some (frt, [s.freg fra, s.freg frb, s.freg frc], rc)
  | .fsqrt frt frb rc => some (frt, [s.freg frb], rc)
  | _ => none

/-! ### Branches -/

/-- The branch is taken, by the rule of BO (R284): `ctr` is CTR after the decrement, if there is one. -/
def BranchTaken (s : State) (bo bi : BitVec 5) (ctr : Word) : Prop :=
  (bo.getMsbD 2 = true ∨ (bo.getMsbD 3 = true ∧ ctr = 0) ∨ (bo.getMsbD 3 = false ∧ ctr ≠ 0))
    ∧ (bo.getMsbD 0 = true ∨ bitAt s.cr bi.toNat = bo.getMsbD 1)

/-! ### Scalar accesses -/

/-- Where a scalar load or store of more than one byte accesses storage, and its width (R105 to R107, R112). -/
def State.scalarAccess (s : State) : Instr → Option (Word × Nat)
  | .lhz _ ra d | .lhzu _ ra d | .lha _ ra d | .lhau _ ra d | .sth _ ra d | .sthu _ ra d => some (s.eaD ra d, 2)
  | .lhzx _ ra rb | .lhzux _ ra rb | .lhax _ ra rb | .lhaux _ ra rb | .sthx _ ra rb | .sthux _ ra rb => some (s.eaX ra rb, 2)
  | .lhbrx _ ra rb | .sthbrx _ ra rb => some (s.eaX ra rb, 2)
  | .l _ ra d | .lu _ ra d | .st _ ra d | .stu _ ra d => some (s.eaD ra d, 4)
  | .lx _ ra rb | .lux _ ra rb | .stx _ ra rb | .stux _ ra rb | .lbrx _ ra rb | .stbrx _ ra rb => some (s.eaX ra rb, 4)
  | .lfs _ ra d | .lfsu _ ra d | .stfs _ ra d | .stfsu _ ra d => some (s.eaD ra d, 4)
  | .lfsx _ ra rb | .lfsux _ ra rb | .stfsx _ ra rb | .stfsux _ ra rb => some (s.eaX ra rb, 4)
  | .lfd _ ra d | .lfdu _ ra d | .stfd _ ra d | .stfdu _ ra d => some (s.eaD ra d, 8)
  | .lfdx _ ra rb | .lfdux _ ra rb | .stfdx _ ra rb | .stfdux _ ra rb => some (s.eaX ra rb, 8)
  | .lfq _ ra ds | .lfqu _ ra ds | .stfq _ ra ds | .stfqu _ ra ds => some (s.eaDS ra ds, 8)
  | .lfqx _ ra rb | .lfqux _ ra rb | .stfqx _ ra rb | .stfqux _ ra rb => some (s.eaX ra rb, 8)
  | _ => none

end Sys2Proof.Machine
end

