-- ==== Sys2Proof/Certificates/Slice0/Obligations.lean ====
section
/-!
DEFINITION. The statements for the provers. Where a statement rests on a choice of the model its docstring names the log
entry.
-/

open Sys2Proof Sys2Proof.Machine

/-! ### Encoding -/

/-- R222 to R273: the word of an instruction decodes to the instruction, with every field at every value, on each
implementation that has it; and a word decodes to no other instruction than one the implementation has. -/
def Obligations.EncodingRoundTrip : Prop :=
  (∀ (m : Config.Impl) (i : Instr), WellFormed m i → decode m (encode i) = .instr i)
  ∧ (∀ (m : Config.Impl) (w : Word) (i : Instr), decode m w = .instr i → WellFormed m i)

/-- The encodings of R263 at work: words of the spec's examples (41_fixed_loadstore to 60_exceptions), and a word that
POWER does not define (R273). -/
def Obligations.DecodesWordsOfTheSpec : Prop :=
  decode .power 0x7C64282E = .instr (.lx 3 4 5)
    ∧ decode .power 0x80640001 = .instr (.l 3 4 1)
    ∧ decode .power 0xD8220004 = .instr (.stfd 1 2 4)
    ∧ decode .power 0x3C601234 = .instr (.cau 3 0 0x1234)
    ∧ decode .power 0x34640001 = .instr (.aiDot 3 4 1)
    ∧ decode .power2 0x44000463 = .instr (.svc 0 35 0 true true)
    ∧ (∀ i, decode .power (encode (.fsqrt 1 2 false)) ≠ .instr i)

/-! ### The step -/

/-- R731 items 3 to 9: with no move of another agent and no tick due and nothing pending, a step runs the fetched word
(`countStep` counts the step, log entry 60). If it decodes to an instruction, the step is that instruction's `exec`, from the
state with the marks of the instruction before cleared (`beforeExec`), followed by the bookkeeping of a completed instruction
and Trace (`afterExec`); a word that is no instruction is an invalid operation (R707). In real mode, with no line of the
instruction cache in the way, the word is the four bytes of memory at the program counter (R109). With MSR(IR) = 1 a fetch from
an I/O segment, from a special segment, from a page that the tables do not have, whose chain is a loop, or whose protection bits
close it to loads under the key, fails with SRR1 bit 3, 2, 1, 5 or 4 alone of the first 16 (R701, R702); otherwise the word is
the four bytes of memory at the real address made of the entry's page number and the byte offset, once the reference bit is
recorded (R163, R207). That the conditions are tested in this order is decision D6 (log entry 21, DESIGN CHOICE). The look-up
may use a copy in the TLB or walk the tables: decision D9 (log entry 11, DESIGN CHOICE). (A fetch whose walk may still use a
table register that was replaced, R653, is left out.) -/
def Obligations.StepRunsTheInstructionAtThePc : Prop :=
  (∀ (s s1 : State) (w : Word), s.agenda = [] → s.tickDue = false → s.checkstopped = false → s.sysReset = false →
    s.machineCheck = false → ifetch s.countStep = .word w s1 → ¬ (s1.externalSignal = true ∧ s1.msrEE = true) → s1.fpiCondition = false →
    (∀ i, decode s1.cfg.impl w = .instr i →
      step s = match exec i s1.beforeExec with
        | .next t => .next (afterExec i s1.beforeExec t)
        | .fault f => .fault f
        | .refused r => .refused r)
    ∧ ((∀ i, decode s1.cfg.impl w ≠ .instr i) →
      step s = .next (s1.beforeExec.interrupt .program s1.pc 0x0008)))
  ∧ (∀ s : State, s.msrIR = false → s.pc.toNat % 4 = 0 → s.prefetched s.pc = [] →
    (∀ k, k < 4 → s.instrLine (s.lineOf (s.pc + BitVec.ofNat 32 k)) = none
      ∧ s.lineBacked (s.lineOf (s.pc + BitVec.ofNat 32 k)) = true) →
    ∃ l, ifetch s = .word ((s.memByte s.pc.toNat ++ s.memByte (s.pc.toNat + 1))
      ++ (s.memByte (s.pc.toNat + 2) ++ s.memByte (s.pc.toNat + 3))) { s with ic := l })
  ∧ (∀ s : State, s.msrIR = true → s.pc.toNat % 4 = 0 → s.prefetched s.pc = [] →
    let sr := s.segmentOf s.pc
    let page := lookupPage (bitsAt sr 8 24) (bitsAt s.pc 4 16) s
    let fails (info : Half) : Prop := ∃ u, ifetch s = .storage info u ∧ s.StorageOnly u
    (bitAt sr 0 = true → ifetch s = .storage 0x1000 s)
    ∧ (bitAt sr 0 = false → bitAt sr 2 = true → ifetch s = .storage 0x2000 s)
    ∧ (bitAt sr 0 = false → bitAt sr 2 = false → s.sdrBefore = [] →
      (page.1 = .notFound → fails 0x4000)
      ∧ (page.1 = .loop → fails 0x0400)
      ∧ ∀ e, page.1 = .entry e →
        (bitAt sr 1 = true → e.pp = 0 → fails 0x0800)
        ∧ (bitAt sr 1 = false ∨ e.pp ≠ 0 →
          let u := (page.2.recordBits e true false).2
          let real : Word := e.rpn ++ bitsAt s.pc 20 12
          let a := real.toNat
          s.StorageOnly u ∧
          ((∀ k, k < 4 → u.instrLine (u.lineOf (real + BitVec.ofNat 32 k)) = none
              ∧ u.lineBacked (u.lineOf (real + BitVec.ofNat 32 k)) = true) →
            ∃ l, ifetch s = .word ((u.memByte a ++ u.memByte (a + 1)) ++ (u.memByte (a + 2) ++ u.memByte (a + 3)))
              { u with ic := l }))))

/-- R730, R731: what is pending comes before the instruction: a system reset, a machine check condition with MSR(ME) = 1 or
0 (R695), a fetch that fails (R701), the External Interrupt signal with MSR(EE) = 1 (R712), the Floating-Point Imprecise
condition (R720). The model's choices: that a pending reset precedes a machine check, that each is taken at the next
boundary, and that a check stopped machine, which does nothing (R1004), answers the fault `checkStop` (log entry 20,
DESIGN CHOICE: R735 gives no order); that the Floating-Point Imprecise interrupt is taken here, at the latest when
`FPI_DELAY` instructions have gone by (decision D28, log entry 25). `countStep` counts the step (log entry 60). -/
def Obligations.PendingConditionsComeFirst : Prop :=
  ∀ s : State, s.agenda = [] → s.tickDue = false →
    let u := s.countStep
    (s.checkstopped = true → step s = .fault .checkStop)
    ∧ (s.checkstopped = false → s.sysReset = true →
        step s = .next ({ u with sysReset := false }.interrupt .systemReset s.pc 0))
    ∧ (s.checkstopped = false → s.sysReset = false → s.machineCheck = true →
        step s = .next (if s.msrME then { u with machineCheck := false }.interrupt .machineCheck s.pc 0
          else { u with machineCheck := false, checkstopped := true }))
    ∧ (s.checkstopped = false → s.sysReset = false → s.machineCheck = false →
        (∀ info s1, ifetch u = .storage info s1 → step s = .next (s1.interrupt .instrStorage s1.pc info))
        ∧ (∀ w s1, ifetch u = .word w s1 →
          (s1.externalSignal = true → s1.msrEE = true → step s = .next (s1.interrupt .external s1.pc 0))
          ∧ (¬ (s1.externalSignal = true ∧ s1.msrEE = true) → s1.fpiCondition = true → s1.cfg.fpiDelay ≤ s1.fpiWait →
            step s = .next (s1.interrupt .fpImprecise s1.pc 0))))

/-- R718: on POWER2 an instruction that completes without an interrupt is followed by a Trace interrupt with SE = 1 when
it began, or with BE = 1 if it is a branch, but for svc, rfi, rfsvc and mtmsr (decision D27); in every other case the
counts of completed instructions change and nothing else. -/
def Obligations.TraceFollowsCompletedInstructions : Prop :=
  ∀ (i : Instr) (s t : State),
    let u := { t with lastCsr := (afterExec i s t).lastCsr, ilcrSettle := (afterExec i s t).ilcrSettle,
                      fpiWait := (afterExec i s t).fpiWait }
    let traces : Prop := s.cfg.impl = .power2 ∧ t.entered = false
      ∧ (∀ a b c d e, i ≠ .svc a b c d e) ∧ i ≠ .rfi ∧ (∀ k, i ≠ .rfsvc k) ∧ (∀ r, i ≠ .mtmsr r)
      ∧ (s.msrSE = true ∨ s.msrBE = true ∧
        ((∃ a b c, i = .b a b c) ∨ (∃ a b c d e, i = .bc a b c d e) ∨ (∃ a b c, i = .bcr a b c)
          ∨ ∃ a b c, i = .bcc a b c))
    (traces → afterExec i s t = u.interrupt .trace t.pc 0) ∧ (¬ traces → afterExec i s t = u)

/-! ### Reset and invariants -/

/-- R91, R92: after power-on reset the processor is at X'FFF00100' with MSR(IP) = 1, privileged, in real mode, external
interrupts, floating point, floating-point exceptions and alignment checking off. R66, R961: it is not check stopped, and
each IOCC has master enable and the Component Reset register 0. -/
def Obligations.ResetState : Prop :=
  State.reset.pc = 0xFFF00100 ∧ State.reset.msrIP = true ∧ State.reset.msrEE = false ∧ State.reset.msrPR = false
    ∧ State.reset.msrFP = false ∧ State.reset.msrFE = false ∧ State.reset.msrAL = false ∧ State.reset.msrIR = false
    ∧ State.reset.msrDR = false ∧ State.reset.checkstopped = false
    ∧ (∀ x ∈ State.reset.ioccs, x.masterEnable = false ∧ x.crr = 0)

/-- The invariants hold at reset. What reset gives registers without a stated value is the model's (log entries 1, 2 and
22). -/
def Obligations.ResetMeetsTheInvariants : Prop := State.reset.Legal ∧ State.reset.Canonical

/-- R3, R7, R14, R36, R37, R48, R49: from every state whose registers hold only what the architecture lets them hold,
every step of every agent leads to such a state; what the implementation fixes stays as it is. -/
def Obligations.StepKeepsRegistersLegal : Prop :=
  ∀ s t : State, s.Legal → step s = .next t → t.Legal ∧ t.cfg = s.cfg

/-- The sparse storages (memory, NVRAM, the TCW and tag tables) keep their canonical form on every step of every agent:
equal contents are equal data. -/
def Obligations.StepKeepsStorageCanonical : Prop := Keeps State.Canonical

/-- R745, R746: in problem state an instruction that raises no interrupt, svc aside, changes neither the MSR nor a
segment register, SDR0, SDR1, TID, SRR0, SRR1, DSISR, DAR or CIL: only an interrupt or svc leads to the privileged
state, and nothing that protection rests on is in reach. -/
def Obligations.ProblemStateKeepsPrivilegedRegisters : Prop :=
  ∀ (i : Instr) (s t : State), s.msrPR = true → s.entered = false → (∀ a b c d e, i ≠ .svc a b c d e) →
    exec i s = .next t → t.entered = false →
      t.msr = s.msr ∧ t.sr = s.sr ∧ t.sdr0 = s.sdr0 ∧ t.sdr1 = s.sdr1 ∧ t.tid = s.tid
        ∧ t.srr0 = s.srr0 ∧ t.srr1 = s.srr1 ∧ t.dsisr = s.dsisr ∧ t.dar = s.dar
        ∧ t.cil = s.cil

/-! ### Interrupts -/

/-- R682, R684, R685, R686: an interrupt saves the address and the old MSR, sets EE, PR, FP, FE, AL, IR and DR to 0, ME
too if it is a machine check, on POWER2 also SE, BE, IE and PM (decision D3), goes on at its vector under the prefix IP
chooses, discards prefetched instructions (and with them the table registers a fetch might still use, R653), and writes
nothing else (`entered` is the model's mark that one was taken). -/
def Obligations.InterruptEntry : Prop :=
  ∀ (s : State) (k : IntKind) (addr : Word) (info : Half),
    let t := s.interrupt k addr info
    bitsAt t.srr0 0 30 = bitsAt addr 0 30 ∧ bitsAt t.srr0 30 2 = 0
      ∧ bitsAt t.srr1 0 16 = info ∧ bitsAt t.srr1 16 16 = bitsAt s.msr 16 16
      ∧ (∀ n, n < 32 → bitAt t.msr n =
          (bitAt s.msr n && !([16, 17, 18, 20, 24, 26, 27].contains n)
            && !(k == .machineCheck && n == 19) && !(s.cfg.impl == .power2 && [21, 22, 23, 29].contains n)))
      ∧ t.pc = (if s.msrIP then 0xFFF00000 else 0) + (match k with
          | .systemReset => 0x100 | .machineCheck => 0x200 | .dataStorage => 0x300 | .instrStorage => 0x400
          | .external => 0x500 | .alignment => 0x600 | .program => 0x700 | .fpUnavailable => 0x800
          | .trace => 0x900 | .fpImprecise => 0xA00)
      ∧ t = { s with srr0 := t.srr0, srr1 := t.srr1, msr := t.msr, pf := [], sdrBefore := [], pc := t.pc,
                     entered := true }

/-- R292, R687, R710: in the privileged state rfi restores MSR[16:31] from SRR1 and goes on at SRR0; with FE = 1 in the
new MSR and FEX = 1 the Program interrupt follows, whose SRR0 is that address. So it undoes an interrupt's entry. -/
def Obligations.ReturnFromInterrupt : Prop :=
  (∀ s : State, s.msrPR = false →
    Completes .rfi s fun t => ∃ u : State,
      (∀ n, n < 32 → bitAt u.msr n = (bitAt (msrMask s.cfg.impl) n &&
        (if n < 16 then bitAt s.msr n else bitAt s.srr1 n)))
      ∧ bitsAt u.pc 0 30 = bitsAt s.srr0 0 30 ∧ bitsAt u.pc 30 2 = 0
      ∧ u = { s with msr := u.msr, pc := u.pc, pf := [], sdrBefore := [] }
      ∧ t = if bitAt u.msr 20 && bitAt s.fpscr 1 then u.interrupt .program u.pc 0x0010 else u)
  ∧ (∀ (s : State) (k : IntKind), s.Legal → ¬ (s.msrFE = true ∧ bitAt s.fpscr 1 = true) →
      exec .rfi (s.interrupt k s.pc 0) =
        .next { s.interrupt k s.pc 0 with msr := s.msr, pc := s.pc })

/-- R722: svc saves the return address in LR with LK = 1, its own low half and MSR[16:31] in CTR, sets EE, PR and FE to
0, discards prefetched instructions and goes on at its entry point, in either state; nothing else changes. -/
def Obligations.SupervisorCall : Prop :=
  ∀ (fl1 : BitVec 4) (lev : BitVec 7) (fl2 : BitVec 3) (sa lk : Bool) (s : State),
    Completes (.svc fl1 lev fl2 sa lk) s fun t =>
      t.lr = (if lk then s.pc + 4 else s.lr)
      ∧ bitsAt t.ctr 0 16 = bitsAt (encode (.svc fl1 lev fl2 sa lk)) 16 16
      ∧ bitsAt t.ctr 16 16 = bitsAt s.msr 16 16
      ∧ (∀ n, n < 32 → bitAt t.msr n = (bitAt s.msr n && !([16, 17, 20].contains n)))
      ∧ t.pc = (if s.msrIP then 0xFFF00000 else 0)
          + (if sa then 0x1FE0 else 0x1000 + 32 * BitVec.ofNat 32 lev.toNat)
      ∧ t = { s with lr := t.lr, ctr := t.ctr, msr := t.msr, pf := [], sdrBefore := [], pc := t.pc }

/-- R311: in the privileged state rfsvc restores MSR[16:31] from CTR and goes on at LR; with LK = 1 LR is then a free
value (log entry 19); the Program interrupt follows as after rfi (R710). -/
def Obligations.ReturnFromSupervisorCall : Prop :=
  ∀ (lk : Bool) (s : State), s.msrPR = false →
    Completes (.rfsvc lk) s fun t => ∃ u : State,
      (∀ n, n < 32 → bitAt u.msr n = (bitAt (msrMask s.cfg.impl) n &&
        (if n < 16 then bitAt s.msr n else bitAt s.ctr n)))
      ∧ bitsAt u.pc 0 30 = bitsAt s.lr 0 30 ∧ bitsAt u.pc 30 2 = 0
      ∧ (lk = false → u.lr = s.lr ∧ u.draws = s.draws)
      ∧ u = { s with msr := u.msr, pc := u.pc, pf := [], sdrBefore := [], lr := u.lr, draws := u.draws }
      ∧ t = if bitAt u.msr 20 && bitAt s.fpscr 1 then u.interrupt .program u.pc 0x0010 else u

/-- R708, R745, R746: in problem state a privileged instruction, and mtspr or mfspr of a register with a number from 16 on,
is a Program interrupt with SRR1 bit 13, and does nothing else; SDR0 (24) is of POWER, ILCR, privileged whatever its number,
of POWER2. R497, R498, decision D19: mtspr and mfspr with a number that names no register are invalid operations in either
state. -/
def Obligations.PrivilegeAndInvalidRegisters : Prop :=
  ∀ s : State,
    (s.msrPR = true →
      (∀ i : Instr, i.isPrivileged = true → exec i s = .next (s.interrupt .program s.pc 0x0004))
      ∧ (∀ r n : BitVec 5, n.toNat ∈ [17, 18, 19, 20, 21, 22, 25, 26, 27] →
        exec (.mtspr r n) s = .next (s.interrupt .program s.pc 0x0004))
      ∧ (∀ r n : BitVec 5, n.toNat ∈ [17, 18, 19, 25, 26, 27] →
        exec (.mfspr r n) s = .next (s.interrupt .program s.pc 0x0004))
      ∧ (∀ r n : BitVec 5, (s.cfg.impl = .power ∧ n = 24)
          ∨ (s.cfg.impl = .power2 ∧ n = s.cfg.sprIlcr ∧ s.cfg.OwnIlcr) →
        exec (.mtspr r n) s = .next (s.interrupt .program s.pc 0x0004)
          ∧ exec (.mfspr r n) s = .next (s.interrupt .program s.pc 0x0004)))
    ∧ (∀ r n : BitVec 5, ¬ (s.cfg.impl = .power ∧ n = 24) → ¬ (s.cfg.impl = .power2 ∧ n = s.cfg.sprIlcr) →
      (n.toNat ∉ [0, 1, 8, 9, 17, 18, 19, 20, 21, 22, 25, 26, 27] →
        exec (.mtspr r n) s = .next (s.interrupt .program s.pc 0x0008))
      ∧ (n.toNat ∉ [0, 1, 4, 5, 6, 8, 9, 17, 18, 19, 25, 26, 27] →
        exec (.mfspr r n) s = .next (s.interrupt .program s.pc 0x0008)))

/-- R17, R716: with MSR(FP) = 0 every floating-point instruction, loads, stores, moves and the FPSCR instructions among
them, is a Floating-Point Unavailable interrupt, and does nothing else. -/
def Obligations.FloatingPointUnavailable : Prop :=
  ∀ (i : Instr) (s : State), i.isFloat = true → s.msrFP = false →
    exec i s = .next (s.interrupt .fpUnavailable s.pc 0)

/-- R704, R705, R112 to R116, R563: with MSR(AL) = 1 a halfword, word or doubleword access to a memory segment that is not on
its boundary and that the hardware cannot perform (`Config.alignHw`, which nothing in Lean can evaluate), and every lm or
stm that is not on a word boundary, is an Alignment interrupt: DAR has the effective address, DSISR the fields of the
instruction, and nothing else changes. That lfq, lfqu, lfqx, lfqux, stfq, stfqu, stfqx and stfqux count as doubleword
accesses is decision D22 (log entry 32, DESIGN CHOICE). Where the hardware performs the first doubleword of such a quad, in
real mode, and cannot perform the second, the interrupt is of the instruction as well, and DAR has the instruction's own
effective address (log entry 32, DESIGN CHOICE); then no register but DSISR and DAR has changed. -/
def Obligations.AlignmentInterrupt : Prop :=
  let fields (w dsisr : Word) : Prop :=
    bitsAt dsisr 0 15 = 0
      ∧ (if bitsAt w 0 6 = 31 then
          bitsAt dsisr 15 2 = bitsAt w 29 2 ∧ bitAt dsisr 17 = bitAt w 25 ∧ bitsAt dsisr 18 4 = bitsAt w 21 4
         else bitsAt dsisr 15 2 = 0 ∧ bitAt dsisr 17 = bitAt w 5 ∧ bitsAt dsisr 18 4 = bitsAt w 1 4)
      ∧ bitsAt dsisr 22 10 = bitsAt w 6 10
  (∀ (i : Instr) (s : State) (ea : Word), s.msrAL = true → s.isIo ea = false → (i.isFloat = true → s.msrFP = true) →
    ((∃ n, s.scalarAccess i = some (ea, n) ∧ ea.toNat % n ≠ 0)
      ∨ ((∃ r ra d, (i = .lm r ra d ∨ i = .stm r ra d) ∧ ea = s.eaD ra d) ∧ ea.toNat % 4 ≠ 0)) →
    (∃ n, s.scalarAccess i = some (ea, n) ∧ Config.alignHw n ea (encode i) = true)
    ∨ ∃ u : State, exec i s = .next (u.interrupt .alignment s.pc 0)
      ∧ u = { s with dsisr := u.dsisr, dar := ea } ∧ fields (encode i) u.dsisr)
  ∧ (∀ (i : Instr) (s : State) (ea : Word), i.isQuad = true → s.scalarAccess i = some (ea, 8) → s.msrAL = true →
    s.msrFP = true → ea.toNat % 8 ≠ 0 → s.CanStoreBlock ea 8 → s.isIo (ea + 8) = false →
      (Config.alignHw 8 ea (encode i) = true ∧ Config.alignHw 8 (ea + 8) (encode i) = true)
      ∨ ∃ u : State, exec i s = .next (u.interrupt .alignment s.pc 0)
        ∧ u = { s.withStorage u with dsisr := u.dsisr, dar := ea } ∧ fields (encode i) u.dsisr)

/-- R163, R205, R210, R697, R698: with MSR(DR) = 1 an aligned word load or store to a page that the tables do not have, whose
chain is a loop, that the lock of a special segment closes, or that the key and the page's protection bits close to it (K = 1
and PP = 00 to both, K = 1 and PP = 01 to stores, PP = 11 to stores whatever K is), is a Data Storage interrupt with DSISR bit
1, 5, 2 or 4 of its first 15 bits, bit 6 too for a store, and no general register changed; with the reference bit recorded
already, what is denied changes no byte of memory after the look-up (a store may leave memory as it was before it). That DAR is
the effective address itself is decision D26 (log entry 16, DESIGN CHOICE): R699 gives no more than a byte of the word; that a
store which protection denies does not record the change bit is decision D17. The clauses of the lock are decision D18 (log
entry 13, DESIGN CHOICE): the rule of the lock words and TID, masked to 16 bits, is uninterpreted, on POWER2 too, where R210
item 4 says that the same refusal applies; what it denies gives DSISR bit 2, what it allows completes; a rule that changes the
lock words is left out. The look-up is decision D9 (log entry 11, DESIGN CHOICE): a walk of the tables where the TLB has no copy
of the page, else one of the copies or a walk, a free choice. R160 to R163, R200, R207, R208: with an entry for the page that
permits the access, it is made at the real address of the entry's page number and the byte offset, once the reference bit, for a
store the change bit too, stands in the copy that was used and, where the copy had it 0, in the table word. That recording
changes that copy alone and leaves every other entry of the TLB as it was is log entry 11's choice as well (DESIGN CHOICE): R207
and R208 say nothing of other copies. -/
def Obligations.TranslatedAccesses : Prop :=
  ∀ (s : State) (store : Bool) (r ra : RegNum) (d : BitVec 16),
    let i : Instr := if store then .st r ra d else .l r ra d
    let ea := s.eaD ra d
    let sr := s.segmentOf ea
    let sid := bitsAt sr 8 24
    let vpi := bitsAt ea 4 16
    let page := lookupPage sid vpi s
    let lock (e : TlbEntry) : Config.Lock :=
      Config.lockRule e.lock2 e.lock3 (s.tid &&& 0x0000FFFF) (bitsAt ea 20 5) store
    let opens (e : TlbEntry) : Prop := bitAt sr 2 = false ∨ lock e = .allow
    let closed (e : TlbEntry) : Prop :=
      (bitAt sr 1 = true ∧ (e.pp = 0 ∨ (e.pp = 1 ∧ store = true))) ∨ (e.pp = 3 ∧ store = true)
    let traps (cause : BitVec 15) (p : State → Prop) : Prop := Completes i s fun t =>
      bitsAt t.dsisr 0 15 = (cause ||| if store then 0b000000100000000 else 0) ∧ t.dar = ea ∧ t.srr0 = wordAlign s.pc
        ∧ t.pc = (if s.msrIP then 0xFFF00300 else 0x300) ∧ t.gpr = s.gpr ∧ p t
    let denied (e : TlbEntry) (t : State) : Prop := e.f = true → page.2.SameMemory t ∨ (store = true ∧ s.SameMemory t)
    let copies : List TlbEntry := s.tlb.filter fun e => e.sid == sid && e.vpi == vpi
    s.msrDR = true → bitAt sr 0 = false → ea.toNat % 4 = 0 →
      (copies = [] → page = walkTables sid vpi s)
      ∧ (copies ≠ [] → (∃ e ∈ copies, page = (.entry e, s.drawWord.2)) ∨ page = walkTables sid vpi s.drawWord.2)
      ∧ (page.1 = .notFound → traps 0b010000000000000 fun _ => True)
      ∧ (page.1 = .loop → traps 0b000001000000000 fun _ => True)
      ∧ ∀ e, page.1 = .entry e →
        (bitAt sr 2 = true → lock e = .deny → traps 0b001000000000000 (denied e))
        ∧ (opens e → closed e → traps 0b000010000000000 (denied e))
        ∧ (opens e → ¬ closed e → s.Canonical →
          let u := (page.2.recordBits e true store).2
          let real : Word := e.rpn ++ bitsAt ea 20 12
          let new : Word := (if e.f then 0 else 8) ||| (if e.c || !store then 0 else 4)
          let recorded (t : State) : Prop :=
            e ∈ page.2.tlb ∧ t.tlb = page.2.tlb.map (fun x => if x = e then { e with f := true, c := e.c || store } else x)
              ∧ (new = 0 → u = page.2)
              ∧ (new ≠ 0 → page.2.Readable e.word 4 → page.2.NoRom e.word 4 →
                page.2.Stored u e.word (wordBytes (page.2.wordAt e.word ||| new)))
          u.Readable real 4 →
          (store = false → Completes i s fun t =>
            t.reg r = u.wordAt real ∧ (∀ q, q ≠ r → t.reg q = s.reg q)
              ∧ t = { s.withStorage t with gpr := t.gpr, pc := s.pc + 4 } ∧ u.SameMemory t ∧ recorded t)
          ∧ (store = true → u.NoRom real 4 → Completes i s fun t =>
            u.Stored t real (wordBytes (s.reg r)) ∧ t = { s.withStorage t with pc := s.pc + 4 } ∧ recorded t))

/-! ### Fixed-point loads and stores -/

/-- R103, R105 to R107: the effective addresses: `(RA|0)` plus the sign-extended displacement or GPR[RB], modulo
2^32. -/
def Obligations.EffectiveAddresses : Prop :=
  ∀ (s : State) (ra rb : RegNum) (d : BitVec 16) (ds : BitVec 14),
    let base : Int := if ra = 0 then 0 else (s.reg ra).toNat
    s.eaD ra d = BitVec.ofInt 32 (base + d.toInt) ∧ s.eaX ra rb = BitVec.ofInt 32 (base + (s.reg rb).toNat)
      ∧ s.eaDS ra ds = BitVec.ofInt 32 (base + 4 * ds.toInt)

/-- R322, R324, R326, R328, R330, R332, R334, R336, R350, R351: scalar loads without update, in real mode. -/
def Obligations.LoadsWithoutUpdate : Prop :=
  ∀ (s : State) (rt ra rb : RegNum) (d : BitVec 16),
    LoadsInto s (.lbz rt ra d) (s.eaD ra d) 1 rt (fun a => (s.dataByte a).setWidth 32)
    ∧ LoadsInto s (.lbzx rt ra rb) (s.eaX ra rb) 1 rt (fun a => (s.dataByte a).setWidth 32)
    ∧ LoadsInto s (.lhz rt ra d) (s.eaD ra d) 2 rt (fun a => (s.halfAt a).setWidth 32)
    ∧ LoadsInto s (.lhzx rt ra rb) (s.eaX ra rb) 2 rt (fun a => (s.halfAt a).setWidth 32)
    ∧ LoadsInto s (.lha rt ra d) (s.eaD ra d) 2 rt (fun a => (s.halfAt a).signExtend 32)
    ∧ LoadsInto s (.lhax rt ra rb) (s.eaX ra rb) 2 rt (fun a => (s.halfAt a).signExtend 32)
    ∧ LoadsInto s (.l rt ra d) (s.eaD ra d) 4 rt s.wordAt
    ∧ LoadsInto s (.lx rt ra rb) (s.eaX ra rb) 4 rt s.wordAt
    ∧ LoadsInto s (.lhbrx rt ra rb) (s.eaX ra rb) 2 rt (fun a => (s.dataByte (a + 1) ++ s.dataByte a).setWidth 32)
    ∧ LoadsInto s (.lbrx rt ra rb) (s.eaX ra rb) 4 rt
        (fun a => (s.dataByte (a + 3) ++ s.dataByte (a + 2)) ++ (s.dataByte (a + 1) ++ s.dataByte a))

/-- R321, R323, R325, R327, R329, R331, R333, R335, R337: scalar loads with update, in real mode. -/
def Obligations.LoadsWithUpdate : Prop :=
  ∀ (s : State) (rt ra rb : RegNum) (d : BitVec 16),
    LoadsUpdating s (.lbzu rt ra d) (s.eaD ra d) 1 rt ra (fun a => (s.dataByte a).setWidth 32)
    ∧ LoadsUpdating s (.lbzux rt ra rb) (s.eaX ra rb) 1 rt ra (fun a => (s.dataByte a).setWidth 32)
    ∧ LoadsUpdating s (.lhzu rt ra d) (s.eaD ra d) 2 rt ra (fun a => (s.halfAt a).setWidth 32)
    ∧ LoadsUpdating s (.lhzux rt ra rb) (s.eaX ra rb) 2 rt ra (fun a => (s.halfAt a).setWidth 32)
    ∧ LoadsUpdating s (.lhau rt ra d) (s.eaD ra d) 2 rt ra (fun a => (s.halfAt a).signExtend 32)
    ∧ LoadsUpdating s (.lhaux rt ra rb) (s.eaX ra rb) 2 rt ra (fun a => (s.halfAt a).signExtend 32)
    ∧ LoadsUpdating s (.lu rt ra d) (s.eaD ra d) 4 rt ra s.wordAt
    ∧ LoadsUpdating s (.lux rt ra rb) (s.eaX ra rb) 4 rt ra s.wordAt

/-- R338, R340, R342, R344, R346, R348, R352, R353: scalar stores without update, in real mode. -/
def Obligations.StoresWithoutUpdate : Prop :=
  ∀ (s : State) (rs ra rb : RegNum) (d : BitVec 16),
    let v := s.reg rs
    let h := halfBytes (v.extractLsb' 0 16)
    StoresFrom s (.stb rs ra d) (s.eaD ra d) [v.extractLsb' 0 8]
    ∧ StoresFrom s (.stbx rs ra rb) (s.eaX ra rb) [v.extractLsb' 0 8]
    ∧ StoresFrom s (.sth rs ra d) (s.eaD ra d) h
    ∧ StoresFrom s (.sthx rs ra rb) (s.eaX ra rb) h
    ∧ StoresFrom s (.st rs ra d) (s.eaD ra d) (wordBytes v)
    ∧ StoresFrom s (.stx rs ra rb) (s.eaX ra rb) (wordBytes v)
    ∧ StoresFrom s (.sthbrx rs ra rb) (s.eaX ra rb) h.reverse
    ∧ StoresFrom s (.stbrx rs ra rb) (s.eaX ra rb) (wordBytes v).reverse

/-- R321, R339, R341, R343, R345, R347, R349: scalar stores with update, in real mode; RS = RA stores the old value. -/
def Obligations.StoresWithUpdate : Prop :=
  ∀ (s : State) (rs ra rb : RegNum) (d : BitVec 16),
    let v := s.reg rs
    let h := halfBytes (v.extractLsb' 0 16)
    StoresUpdating s (.stbu rs ra d) (s.eaD ra d) ra [v.extractLsb' 0 8]
    ∧ StoresUpdating s (.stbux rs ra rb) (s.eaX ra rb) ra [v.extractLsb' 0 8]
    ∧ StoresUpdating s (.sthu rs ra d) (s.eaD ra d) ra h
    ∧ StoresUpdating s (.sthux rs ra rb) (s.eaX ra rb) ra h
    ∧ StoresUpdating s (.stu rs ra d) (s.eaD ra d) ra (wordBytes v)
    ∧ StoresUpdating s (.stux rs ra rb) (s.eaX ra rb) ra (wordBytes v)

/-- R354, R355, R116: load and store multiple, in real mode, on a word boundary or with alignment checking off. lm loads
RT to 31 but not a base register among them; stm stores RS to 31. -/
def Obligations.LoadAndStoreMultiple : Prop :=
  ∀ (s : State) (r ra : RegNum) (d : BitVec 16),
    let a := boundary (s.eaD ra d) 4
    s.AlignFree (s.eaD ra d) 4 →
      (s.CanLoadBlock a (4 * (32 - r.toNat)) →
        Completes (.lm r ra d) s fun t =>
          (∀ q : RegNum, t.reg q = if r.toNat ≤ q.toNat ∧ ¬ (q = ra ∧ ra ≠ 0)
            then s.wordAt (a + BitVec.ofNat 32 (4 * (q.toNat - r.toNat))) else s.reg q)
          ∧ t = { s.withStorage t with gpr := t.gpr, pc := s.pc + 4 } ∧ s.SameMemory t)
      ∧ (s.CanStoreBlock a (4 * (32 - r.toNat)) →
        Completes (.stm r ra d) s fun t => s.OnlyStores t [] a
          ((List.range (32 - r.toNat)).flatMap fun k => wordBytes (s.reg (r + BitVec.ofNat 5 k))))

/-- R356, R357, R361: the string loads, in real mode: registers in order from RT, register 0 after 31, bytes past the end
of the last word 0; a base register (and RB) in the range keeps its value. lsx with no byte leaves RT a free value. -/
def Obligations.LoadStrings : Prop :=
  ∀ (s : State) (rt ra rb : RegNum) (nb : BitVec 5),
    (let n := if nb = 0 then 32 else nb.toNat
     let a := s.regOr0 ra
     s.CanLoadBlock a n →
      Completes (.lsi rt ra nb) s fun t =>
        (∀ j, j < 8 → t.reg (rt + BitVec.ofNat 5 j) =
          if 4 * j < n ∧ ¬ (rt + BitVec.ofNat 5 j = ra ∧ ra ≠ 0) then s.stringWord a n j
          else s.reg (rt + BitVec.ofNat 5 j))
        ∧ s.OnlyLoads t ((List.range 8).map fun j => rt + BitVec.ofNat 5 j))
    ∧ (let n := (bitsAt s.xer 25 7).toNat
       let a := s.eaX ra rb
       n ≠ 0 → s.CanLoadBlock a n →
        Completes (.lsx rt ra rb) s fun t =>
          (∀ j, j < 32 → t.reg (rt + BitVec.ofNat 5 j) =
            if 4 * j < n ∧ ¬ (rt + BitVec.ofNat 5 j = ra ∧ ra ≠ 0) ∧ rt + BitVec.ofNat 5 j ≠ rb then s.stringWord a n j
            else s.reg (rt + BitVec.ofNat 5 j))
          ∧ t = { s.withStorage t with gpr := t.gpr, pc := s.pc + 4 } ∧ s.SameMemory t)
    ∧ (bitsAt s.xer 25 7 = 0 → Completes (.lsx rt ra rb) s fun t =>
        (∀ r, r ≠ rt → t.reg r = s.reg r)
        ∧ t = { s with gpr := t.gpr, draws := t.draws, pc := s.pc + 4 } ∧ s.SameMemory t)

/-- R358: lscbx, in real mode, loads bytes until one is the compare byte XER[16:23] or XER[25:31] of them are loaded;
XER[25:31] is then their number k, and with Rc = 1 CR0 says whether a byte matched. Registers no byte reaches, and a base
register or RB in the range, keep their values; the rest of the last register, and RT when k is 0, are free. -/
def Obligations.LoadStringAndCompare : Prop :=
  ∀ (s : State) (rt ra rb : RegNum) (rc : Bool),
    let n := (bitsAt s.xer 25 7).toNat
    let a := s.eaX ra rb
    let c : Byte := bitsAt s.xer 16 8
    let kept (r : RegNum) : Prop := (r = ra ∧ ra ≠ 0) ∨ r = rb
    s.CanLoadBlock a n →
      Completes (.lscbx rt ra rb rc) s fun t => ∃ (k : Nat) (hit : Bool),
        k ≤ n ∧ (hit = true → 0 < k ∧ s.dataByte (a + BitVec.ofNat 32 (k - 1)) = c) ∧ (hit = false → k = n)
        ∧ (∀ j, j < k → (j + 1 = k → hit = false) → s.dataByte (a + BitVec.ofNat 32 j) ≠ c)
        ∧ (∀ j, j < k → ¬ kept (rt + BitVec.ofNat 5 (j / 4)) → t.stringByte rt j = s.dataByte (a + BitVec.ofNat 32 j))
        ∧ (∀ r, (k ≠ 0 → kept r ∨ ∀ j, j < k → r ≠ rt + BitVec.ofNat 5 (j / 4)) → (k = 0 → r ≠ rt) →
            t.reg r = s.reg r)
        ∧ bitsAt t.xer 25 7 = BitVec.ofNat 7 k ∧ bitsAt t.xer 0 25 = bitsAt s.xer 0 25
        ∧ (if rc then t.crField 0 = crNibble false false hit s.xerSO ∧ (∀ f, f ≠ 0 → t.crField f = s.crField f)
           else t.cr = s.cr)
        ∧ t = { s.withStorage t with gpr := t.gpr, xer := t.xer, cr := t.cr, pc := s.pc + 4 } ∧ s.SameMemory t

/-- R359 to R361, R384: the string stores, in real mode; MQ is a free value afterwards; stsx with no byte stores
nothing. -/
def Obligations.StoreStrings : Prop :=
  ∀ (s : State) (rs ra rb : RegNum) (nb : BitVec 5),
    (let n := if nb = 0 then 32 else nb.toNat
     let a := s.regOr0 ra
     s.CanStoreBlock a n →
      Completes (.stsi rs ra nb) s fun t =>
        s.Stored t a ((List.range n).map fun k => s.stringByte rs k)
        ∧ t = { s.withStorage t with mq := t.mq, pc := s.pc + 4 })
    ∧ (let n := (bitsAt s.xer 25 7).toNat
       let a := s.eaX ra rb
       n ≠ 0 → s.CanStoreBlock a n →
        Completes (.stsx rs ra rb) s fun t =>
          s.Stored t a ((List.range n).map fun k => s.stringByte rs k)
          ∧ t = { s.withStorage t with mq := t.mq, pc := s.pc + 4 })
    ∧ (bitsAt s.xer 25 7 = 0 → Completes (.stsx rs ra rb) s fun t =>
        t = { s with mq := t.mq, draws := t.draws, pc := s.pc + 4 } ∧ s.SameMemory t)

/-- R321, R683: a scalar fixed-point load that enters an interrupt, whatever the mode and the segment, alters no general
register, no condition field, no bit of XER, neither LR, CTR nor MQ, no floating-point register and no bit of the FPSCR,
and SRR0 has its address. -/
def Obligations.FailedLoadsAlterNothing : Prop :=
  ∀ (i : Instr) (s t : State), i.isFixedLoad = true → s.entered = false → exec i s = .next t → t.entered = true →
    t.gpr = s.gpr ∧ t.cr = s.cr ∧ t.xer = s.xer ∧ t.lr = s.lr ∧ t.ctr = s.ctr ∧ t.mq = s.mq
      ∧ t.fpr = s.fpr ∧ t.fpscr = s.fpscr
      ∧ t.srr0 = wordAlign s.pc

/-! ### Fixed-point arithmetic -/

/-- R401, R404 to R406, R410 to R417: the adding and subtracting instructions. CA tells that the sum of the operands as
unsigned numbers does not fit in 32 bits, for a subtraction that there is no borrow; OV that the result as a signed
number does not fit. -/
def Obligations.AddingAndSubtracting : Prop :=
  ∀ (s : State) (rt ra rb : RegNum) (si : BitVec 16) (oe rc : Bool),
    let a := s.reg ra
    let b := s.reg rb
    let i := si.signExtend 32
    let c := s.xerCA
    let carry (n : Nat) : Option Bool := some (decide (2 ^ 32 ≤ n))
    Computes s (.ai rt ra si) rt (a.toInt + i.toInt) (carry (a.toNat + i.toNat)) false false
    ∧ Computes s (.aiDot rt ra si) rt (a.toInt + i.toInt) (carry (a.toNat + i.toNat)) false true
    ∧ Computes s (.a rt ra rb oe rc) rt (a.toInt + b.toInt) (carry (a.toNat + b.toNat)) oe rc
    ∧ Computes s (.ae rt ra rb oe rc) rt (a.toInt + b.toInt + c.toNat) (carry (a.toNat + b.toNat + c.toNat)) oe rc
    ∧ Computes s (.ame rt ra oe rc) rt (a.toInt - 1 + c.toNat) (carry (a.toNat + (2 ^ 32 - 1) + c.toNat)) oe rc
    ∧ Computes s (.aze rt ra oe rc) rt (a.toInt + c.toNat) (carry (a.toNat + c.toNat)) oe rc
    ∧ Computes s (.sfi rt ra si) rt (i.toInt - a.toInt) (some (decide (a.toNat ≤ i.toNat))) false false
    ∧ Computes s (.sf rt ra rb oe rc) rt (b.toInt - a.toInt) (some (decide (a.toNat ≤ b.toNat))) oe rc
    ∧ Computes s (.sfe rt ra rb oe rc) rt (b.toInt - a.toInt - 1 + c.toNat)
        (some (decide (a.toNat + 1 ≤ b.toNat + c.toNat))) oe rc
    ∧ Computes s (.sfme rt ra oe rc) rt (-a.toInt - 2 + c.toNat)
        (some (decide (a.toNat + 1 ≤ 2 ^ 32 - 1 + c.toNat))) oe rc
    ∧ Computes s (.sfze rt ra oe rc) rt (-a.toInt - 1 + c.toNat) (some (decide (a.toNat + 1 ≤ c.toNat))) oe rc

/-- R402, R403, R408, R409, R418 to R421: the instructions that leave CA alone: compute address, negate, the absolute
values, difference or zero. cal, cau and dozi change nothing but their target. -/
def Obligations.InstructionsWithoutCarry : Prop :=
  ∀ (s : State) (rt ra rb : RegNum) (v : BitVec 16) (oe rc : Bool),
    let a := s.reg ra
    let b := s.reg rb
    let base : Int := if ra = 0 then 0 else (s.reg ra).toInt
    Completes (.cal rt ra v) s (fun t => t.reg rt = BitVec.ofInt 32 (base + v.toInt) ∧ s.OnlyRegs t [rt])
    ∧ Completes (.cau rt ra v) s (fun t => t.reg rt = BitVec.ofInt 32 (base + 65536 * v.toNat) ∧ s.OnlyRegs t [rt])
    ∧ Completes (.dozi rt ra v) s (fun t =>
        t.reg rt = (if v.toInt < a.toInt then 0 else BitVec.ofInt 32 (v.toInt - a.toInt)) ∧ s.OnlyRegs t [rt])
    ∧ Computes s (.cax rt ra rb oe rc) rt (a.toInt + b.toInt) none oe rc
    ∧ Computes s (.neg rt ra oe rc) rt (-a.toInt) none oe rc
    ∧ Computes s (.abs rt ra oe rc) rt |a.toInt| none oe rc
    ∧ Computes s (.nabs rt ra oe rc) rt (-|a.toInt|) none oe rc
    ∧ Computes s (.doz rt ra rb oe rc) rt (if b.toInt < a.toInt then 0 else b.toInt - a.toInt) none oe rc

/-- R407, R422, R423: the multiplications. mul leaves the 64-bit product in RT and MQ, and CR0 tells of the low word;
after muli and muls MQ is a free value. -/
def Obligations.Multiplications : Prop :=
  ∀ (s : State) (rt ra rb : RegNum) (si : BitVec 16) (oe rc : Bool),
    let p := (s.reg ra).toInt * (s.reg rb).toInt
    Completes (.mul rt ra rb oe rc) s (fun t =>
      FixedResult s t rt (BitVec.ofInt 32 (p / 2 ^ 32)) (BitVec.ofInt 32 p) none oe (decide (Overflows p)) rc
        ∧ t.mq = BitVec.ofInt 32 p ∧ t.draws = s.draws)
    ∧ Completes (.muls rt ra rb oe rc) s (fun t =>
      FixedResult s t rt (BitVec.ofInt 32 p) (BitVec.ofInt 32 p) none oe (decide (Overflows p)) rc)
    ∧ Completes (.muli rt ra si) s (fun t =>
      FixedResult s t rt (BitVec.ofInt 32 ((s.reg ra).toInt * si.toInt)) 0 none false false false)

/-- R424, R425: the divisions: quotient in RT, remainder of the dividend's sign in MQ. The quotient 2^31 of -2^31 by -1
gives X'80000000', remainder 0 and an overflow; otherwise a quotient that does not fit, or a divisor 0, is an overflow
that leaves RT, MQ and the first three bits of CR0 free values (log entry 29). -/
def Obligations.Divisions : Prop :=
  ∀ (s : State) (rt ra rb : RegNum) (oe rc : Bool),
    let free (t : State) : Prop := ∃ u : State,
      FixedResult s u rt (t.reg rt) 0 none oe true false ∧ t = { u with cr := t.cr }
        ∧ (∀ f, f ≠ 0 → t.crField f = s.crField f) ∧ (rc = true → bitAt t.cr 3 = t.xerSO) ∧ (rc = false → t.cr = s.cr)
    let divides (i : Instr) (n d : Int) : Prop :=
      (d ≠ 0 → ¬ Overflows (n.tdiv d) → Completes i s fun t =>
        FixedResult s t rt (BitVec.ofInt 32 (n.tdiv d)) (BitVec.ofInt 32 (n.tdiv d)) none oe false rc
          ∧ t.mq = BitVec.ofInt 32 (n.tmod d))
      ∧ (n = -2 ^ 31 → d = -1 → Completes i s fun t =>
        FixedResult s t rt 0x80000000 0x80000000 none oe true rc ∧ t.mq = 0)
      ∧ (d = 0 ∨ Overflows (n.tdiv d) → ¬ (n = -2 ^ 31 ∧ d = -1) → Completes i s free)
    divides (.div rt ra rb oe rc) (s.reg ra ++ s.mq).toInt (s.reg rb).toInt
      ∧ divides (.divs rt ra rb oe rc) (s.reg ra).toInt (s.reg rb).toInt

/-- R10, R426 to R429: the compares: less, greater, equal and SO into field BF; nothing else changes. -/
def Obligations.Comparisons : Prop :=
  ∀ (s : State) (bf : CrField) (ra rb : RegNum) (v : BitVec 16),
    let sets (i : Instr) (m n : Int) : Prop := Completes i s fun t =>
      t.crField bf = crNibble (decide (m < n)) (decide (n < m)) (decide (m = n)) s.xerSO ∧ s.OnlyCr t [bf]
    sets (.cmpi bf ra v) (s.reg ra).toInt v.toInt
      ∧ sets (.cmpli bf ra v) (s.reg ra).toNat v.toNat
      ∧ sets (.cmp bf ra rb) (s.reg ra).toInt (s.reg rb).toInt
      ∧ sets (.cmpl bf ra rb) (s.reg ra).toNat (s.reg rb).toNat

/-! ### Logical, rotate and shift -/

/-- R430 to R445: the logical instructions; the target is RA. cntlz counts the 0 bits before the first 1. -/
def Obligations.LogicalInstructions : Prop :=
  ∀ (s : State) (rs ra rb : RegNum) (ui : BitVec 16) (rc : Bool),
    let a := s.reg rs
    let b := s.reg rb
    let low : Word := ui.setWidth 32
    let high : Word := low <<< 16
    Yields s (.andilDot rs ra ui) ra (a &&& low) true ∧ Yields s (.andiuDot rs ra ui) ra (a &&& high) true
    ∧ Yields s (.oril rs ra ui) ra (a ||| low) false ∧ Yields s (.oriu rs ra ui) ra (a ||| high) false
    ∧ Yields s (.xoril rs ra ui) ra (a ^^^ low) false ∧ Yields s (.xoriu rs ra ui) ra (a ^^^ high) false
    ∧ Yields s (.and rs ra rb rc) ra (a &&& b) rc ∧ Yields s (.or rs ra rb rc) ra (a ||| b) rc
    ∧ Yields s (.xor rs ra rb rc) ra (a ^^^ b) rc ∧ Yields s (.nand rs ra rb rc) ra (~~~(a &&& b)) rc
    ∧ Yields s (.nor rs ra rb rc) ra (~~~(a ||| b)) rc ∧ Yields s (.eqv rs ra rb rc) ra (~~~(a ^^^ b)) rc
    ∧ Yields s (.andc rs ra rb rc) ra (a &&& ~~~b) rc ∧ Yields s (.orc rs ra rb rc) ra (a ||| ~~~b) rc
    ∧ Yields s (.exts rs ra rc) ra (BitVec.ofInt 32 (a.extractLsb' 0 16).toInt) rc
    ∧ (∀ n, n ≤ 32 → (∀ k, k < n → bitAt a k = false) → (n = 32 ∨ bitAt a n = true) →
        Yields s (.cntlz rs ra rc) ra (BitVec.ofNat 32 n) rc)

/-- R446 to R453: rotate and mask, bit by bit: a rotation to the left by n moves bit i + n, around the end, to bit i; the
mask runs from MB to ME, around the end; the insert forms keep RA outside the mask. -/
def Obligations.RotateAndMask : Prop :=
  ∀ (s : State) (rs ra rb : RegNum) (sh mb me : BitVec 5) (rc : Bool),
    let a := s.reg rs
    let old := s.reg ra
    let n := (bitsAt (s.reg rb) 27 5).toNat
    let bits (i : Instr) (f : Nat → Bool) : Prop := ∀ v : Word, (∀ k, k < 32 → bitAt v k = f k) → Yields s i ra v rc
    let m (k : Nat) : Bool := inMask mb.toNat me.toNat k
    bits (.rlimi rs ra sh mb me rc) (fun k => if m k then bitAt a ((k + sh.toNat) % 32) else bitAt old k)
    ∧ bits (.rlinm rs ra sh mb me rc) (fun k => m k && bitAt a ((k + sh.toNat) % 32))
    ∧ bits (.rlmi rs ra rb mb me rc) (fun k => if m k then bitAt a ((k + n) % 32) else bitAt old k)
    ∧ bits (.rlnm rs ra rb mb me rc) (fun k => m k && bitAt a ((k + n) % 32))
    ∧ bits (.rrib rs ra rb rc) (fun k => if k = n then bitAt a 0 else bitAt old k)
    ∧ bits (.maskg rs ra rb rc) (fun k =>
        let start := (bitsAt a 27 5).toNat
        if start = n + 1 then true else inMask start n k)
    ∧ bits (.maskir rs ra rb rc) (fun k => if bitAt (s.reg rb) k then bitAt a k else bitAt old k)

/-- R454 to R467: the logical shifts. The count is bits 27 to 31 of RB or SH; where bit 26 counts, 1 means a shift by 32
or more. The forms "with MQ" leave the rotated word in MQ, those that are "long" take the vacated bits from MQ. -/
def Obligations.LogicalShifts : Prop :=
  ∀ (s : State) (rs ra rb : RegNum) (sh : BitVec 5) (rc : Bool),
    let a := s.reg rs
    let n := (bitsAt (s.reg rb) 27 5).toNat
    let k := sh.toNat
    let far := bitAt (s.reg rb) 26
    let low (j : Nat) : Word := s.mq &&& BitVec.ofNat 32 (2 ^ j - 1)
    let high (j : Nat) : Word := s.mq &&& ~~~BitVec.ofNat 32 (2 ^ (32 - j) - 1)
    Yields s (.sl rs ra rb rc) ra (if far then 0 else a <<< n) rc
    ∧ Yields s (.sr rs ra rb rc) ra (if far then 0 else a >>> n) rc
    ∧ YieldsMq s (.slq rs ra rb rc) ra (if far then 0 else a <<< n) (a.rotateLeft n) rc
    ∧ YieldsMq s (.srq rs ra rb rc) ra (if far then 0 else a >>> n) (a.rotateRight n) rc
    ∧ YieldsMq s (.sliq rs ra sh rc) ra (a <<< k) (a.rotateLeft k) rc
    ∧ YieldsMq s (.sriq rs ra sh rc) ra (a >>> k) (a.rotateRight k) rc
    ∧ YieldsMq s (.slliq rs ra sh rc) ra (a <<< k ||| low k) (a.rotateLeft k) rc
    ∧ YieldsMq s (.srliq rs ra sh rc) ra (a >>> k ||| high k) (a.rotateRight k) rc
    ∧ Yields s (.sllq rs ra rb rc) ra (if far then s.mq &&& ~~~BitVec.ofNat 32 (2 ^ n - 1) else a <<< n ||| low n) rc
    ∧ Yields s (.srlq rs ra rb rc) ra
        (if far then s.mq &&& BitVec.ofNat 32 (2 ^ (32 - n) - 1) else a >>> n ||| high n) rc
    ∧ YieldsMq s (.sle rs ra rb rc) ra (a <<< n) (a.rotateLeft n) rc
    ∧ YieldsMq s (.sre rs ra rb rc) ra (a >>> n) (a.rotateRight n) rc
    ∧ YieldsMq s (.sleq rs ra rb rc) ra (a <<< n ||| low n) (a.rotateLeft n) rc
    ∧ YieldsMq s (.sreq rs ra rb rc) ra (a >>> n ||| high n) (a.rotateRight n) rc

/-- R468 to R472: the algebraic shifts divide by a power of two, down; CA tells that a negative number had a 1 shifted
out. After sra and srai MQ is a free value; the others leave the rotated word there. -/
def Obligations.AlgebraicShifts : Prop :=
  ∀ (s : State) (rs ra rb : RegNum) (sh : BitVec 5) (rc : Bool),
    let a := s.reg rs
    let n := (bitsAt (s.reg rb) 27 5).toNat
    let wide := if bitAt (s.reg rb) 26 then 32 else n
    let shifts (i : Instr) (k : Nat) (mq : State → Prop) : Prop := Completes i s fun t =>
      FixedResult s t ra (BitVec.ofInt 32 (a.toInt / 2 ^ k)) (BitVec.ofInt 32 (a.toInt / 2 ^ k))
        (some (decide (a.toInt < 0 ∧ a.toInt % 2 ^ k ≠ 0))) false false rc ∧ mq t
    shifts (.sra rs ra rb rc) wide (fun _ => True)
    ∧ shifts (.srai rs ra sh rc) sh.toNat (fun _ => True)
    ∧ shifts (.sraq rs ra rb rc) wide (fun t => t.mq = a.rotateRight n)
    ∧ shifts (.sraiq rs ra sh rc) sh.toNat (fun t => t.mq = a.rotateRight sh.toNat)
    ∧ shifts (.srea rs ra rb rc) n (fun t => t.mq = a.rotateRight n)

/-! ### The branch processor -/

/-- R281 to R290: the branches. LR gets the next address with LK = 1, after the target is read; CTR is decremented where
BO says so. When CTR is both decremented and the target of bcc, either of its values may be the target (log entry
23). -/
def Obligations.Branches : Prop :=
  ∀ (s : State) (li : BitVec 24) (bd : BitVec 14) (bo bi : BitVec 5) (aa lk : Bool),
    let next := s.pc + 4
    let lr := if lk then next else s.lr
    let ctr := if bo.getMsbD 2 then s.ctr else s.ctr - 1
    let dest (d : Int) : Word := BitVec.ofInt 32 ((if aa then 0 else (s.pc.toNat : Int)) + 4 * d)
    let goes (i : Instr) (c : Word) (target : Word → Prop) : Prop := Completes i s fun t =>
      (BranchTaken s bo bi ctr → target t.pc) ∧ (¬ BranchTaken s bo bi ctr → t.pc = next)
        ∧ t = { s with pc := t.pc, lr := lr, ctr := c, draws := t.draws }
    exec (.b li aa lk) s = .next { s with pc := dest li.toInt, lr := lr }
    ∧ goes (.bc bo bi bd aa lk) ctr (fun p => p = dest bd.toInt)
    ∧ goes (.bcr bo bi lk) ctr (fun p => p = s.lr &&& 0xFFFFFFFC)
    ∧ goes (.bcc bo bi lk) ctr (fun p => p = s.ctr &&& 0xFFFFFFFC ∨ p = ctr &&& 0xFFFFFFFC)

/-- R293 to R301: mcrf and the condition register logic. -/
def Obligations.ConditionRegisterInstructions : Prop :=
  ∀ (s : State) (bf bfa : CrField) (bt ba bb : BitVec 5),
    let a := bitAt s.cr ba.toNat
    let b := bitAt s.cr bb.toNat
    let sets (i : Instr) (v : Bool) : Prop := Completes i s fun t =>
      bitAt t.cr bt.toNat = v ∧ (∀ n, n < 32 → n ≠ bt.toNat → bitAt t.cr n = bitAt s.cr n)
        ∧ t = { s with cr := t.cr, pc := s.pc + 4 } ∧ s.SameMemory t
    Completes (.mcrf bf bfa) s (fun t => t.crField bf = s.crField bfa ∧ s.OnlyCr t [bf])
    ∧ sets (.crand bt ba bb) (a && b) ∧ sets (.cror bt ba bb) (a || b) ∧ sets (.crxor bt ba bb) (a ^^ b)
    ∧ sets (.crnand bt ba bb) (!(a && b)) ∧ sets (.crnor bt ba bb) (!(a || b)) ∧ sets (.creqv bt ba bb) (!(a ^^ b))
    ∧ sets (.crandc bt ba bb) (a && !b) ∧ sets (.crorc bt ba bb) (a || !b)

/-- R302 to R304, R709: the traps: a Program interrupt with SRR1 bit 14 when a condition TO names holds, otherwise
nothing. -/
def Obligations.Traps : Prop :=
  ∀ (s : State) (cond : BitVec 5) (ra rb : RegNum) (si : BitVec 16),
    let holds (a b : Word) : Prop :=
      (cond.getMsbD 0 = true ∧ a.toInt < b.toInt) ∨ (cond.getMsbD 1 = true ∧ b.toInt < a.toInt)
        ∨ (cond.getMsbD 2 = true ∧ a = b) ∨ (cond.getMsbD 3 = true ∧ a.toNat < b.toNat)
        ∨ (cond.getMsbD 4 = true ∧ b.toNat < a.toNat)
    let traps (i : Instr) (a b : Word) : Prop :=
      (holds a b → exec i s = .next (s.interrupt .program s.pc 0x0002))
        ∧ (¬ holds a b → exec i s = .next { s with pc := s.pc + 4 })
    traps (.t cond ra rb) (s.reg ra) (s.reg rb) ∧ traps (.ti cond ra si) (s.reg ra) (si.signExtend 32)

/-! ### Special registers -/

/-- R60, R497, R498, R3, R44 to R46, R48, R49, R807: mtspr writes the register its number names and nothing else; reserved
bits of XER, RTCL and DEC stay 0; a DEC whose sign bit goes from 0 to 1 asks for an interrupt; until prefetched
instructions are discarded a fetch may still use an SDR0 or SDR1 that was replaced with MSR(IR) = 1 (`sdrBefore`, R653).
mfspr reads the
register its number names and changes nothing but RT; RTCU, RTCL and DEC are read under numbers of their own in either state;
reserved bits read 0. -/
def Obligations.SpecialRegisterMoves : Prop :=
  (∀ (s : State) (rs : RegNum),
    let v := s.reg rs
    let writes (n : BitVec 5) (t : State) : Prop := exec (.mtspr rs n) s = .next { t with pc := s.pc + 4 }
    let replaced := if s.msrIR then (s.sdr0, s.sdr1) :: s.sdrBefore else s.sdrBefore
    writes 0 { s with mq := v } ∧ writes 1 { s with xer := v &&& 0xE000FF7F } ∧ writes 8 { s with lr := v } ∧ writes 9 { s with ctr := v }
    ∧ (s.msrPR = false →
        writes 17 { s with tid := v } ∧ writes 18 { s with dsisr := v } ∧ writes 19 { s with dar := v }
        ∧ writes 20 { s with rtcu := v } ∧ writes 21 { s with rtcl := v &&& 0xFFFFFF00 }
        ∧ writes 22 { s with
            dec := v &&& 0xFFFFFF00
            eis := if bitAt s.dec 0 = false ∧ bitAt v 0 = true then s.eis ||| 1#64 <<< (63 - s.eisbidDec.toNat)
              else s.eis }
        ∧ (s.cfg.impl = .power → writes 24 { s with sdr0 := v, sdrBefore := replaced })
        ∧ writes 25 { s with sdr1 := v, sdrBefore := replaced } ∧ writes 26 { s with srr0 := v } ∧ writes 27 { s with srr1 := v }))
  ∧ (∀ (s : State) (rt : RegNum),
    let of (n : BitVec 5) (v : Word) : Prop :=
      Completes (.mfspr rt n) s fun t => t.reg rt = v ∧ s.OnlyRegs t [rt]
    of 0 s.mq ∧ of 1 s.xer ∧ of 4 s.rtcu ∧ of 5 s.rtcl ∧ of 6 s.dec ∧ of 8 s.lr ∧ of 9 s.ctr
    ∧ (s.msrPR = false →
        of 17 (s.tid &&& 0x0000FFFF) ∧ of 18 s.dsisr ∧ of 19 s.dar
        ∧ (s.cfg.impl = .power → of 24 (s.sdr0 &&& 0xFFFF0000) ∧ of 25 (s.sdr1 &&& 0xFFFF00FF))
        ∧ (s.cfg.impl = .power2 → of 25 (s.sdr1 &&& 0xFFFE00FF))
        ∧ of 26 s.srr0 ∧ of 27 s.srr1))

/-- R499 to R503, R14, R28, R710: the moves between CR, XER, MSR and general registers. mtmsr keeps reserved bits 0
and discards the prefetched words; words fetched under the old MSR may follow (R647), in real mode with an empty instruction
cache the words of memory; with FE = 1 in the new MSR and FEX = 1 the Program interrupt follows, whose SRR0 is the next
address. -/
def Obligations.StateMoves : Prop :=
  ∀ (s : State) (r : RegNum) (bf : CrField) (fxm : BitVec 8),
    Completes (.mcrxr bf) s (fun t =>
      t.crField bf = bitsAt s.xer 0 4 ∧ (∀ f, f ≠ bf → t.crField f = s.crField f)
        ∧ bitsAt t.xer 0 4 = 0 ∧ bitsAt t.xer 4 28 = bitsAt s.xer 4 28
        ∧ t = { s with cr := t.cr, xer := t.xer, pc := s.pc + 4 })
    ∧ Completes (.mtcrf r fxm) s (fun t =>
      (∀ n, n < 32 → bitAt t.cr n = if fxm.getMsbD (n / 4) then bitAt (s.reg r) n else bitAt s.cr n)
        ∧ t = { s with cr := t.cr, pc := s.pc + 4 })
    ∧ Completes (.mfcr r) s (fun t => t.reg r = s.cr ∧ s.OnlyRegs t [r])
    ∧ Completes (.mfmsr r) s (fun t => t.reg r = s.msr ∧ s.OnlyRegs t [r])
    ∧ (s.msrPR = false → Completes (.mtmsr r) s fun t => ∃ u : State,
        u.msr = s.reg r &&& msrMask s.cfg.impl ∧ u = { s.withFetched u with msr := u.msr, pc := s.pc + 4 }
        ∧ (s.msrIR = false → u = { s with msr := u.msr, ic := u.ic, pf := u.pf, draws := u.draws, pc := s.pc + 4 }
          ∧ (s.ic = [] → ∀ p ∈ u.pf, p.2 = (s.memByte p.1.toNat ++ s.memByte (p.1.toNat + 1))
            ++ (s.memByte (p.1.toNat + 2) ++ s.memByte (p.1.toNat + 3))))
        ∧ t = if bitAt u.msr 20 && bitAt s.fpscr 1 then u.interrupt .program u.pc 0x0010 else u)

/-- R780 to R785: ILCR. mfspr reads CIL and the most favored pending level, 255 when there is none, and that level is no
longer pending; too soon after an mtspr of ILCR it obtains a free value (log entry 24); mtspr sets CIL, or resets or posts
a level, of which one above 63 is refused (decision D32), or does nothing. R761, R782: the External Interrupt signal is present on POWER
when a bit of EIS and the same bit of EIM are 1, on POWER2 when a pending level is more favored than CIL. -/
def Obligations.InterruptLevelsAndSignal : Prop :=
  (∀ (s : State) (r : RegNum), s.cfg.impl = .power2 → s.msrPR = false → s.cfg.OwnIlcr →
    let n := s.cfg.sprIlcr
    let v := s.reg r
    let cmd (t : State) : Prop :=
      exec (.mtspr r n) s = .next { t with ilcrSettle := s.cfg.ilcrSettle + 1, pc := s.pc + 4 }
    (s.ilcrSettle = 0 →
      (s.eis = 0 → Completes (.mfspr r n) s fun t =>
        t.reg r = 0#16 ++ s.cil ++ 255#8 ∧ s.OnlyRegs t [r])
      ∧ (∀ l, l < 64 → s.eis.getMsbD l = true → (∀ m, m < l → s.eis.getMsbD m = false) →
        Completes (.mfspr r n) s fun t =>
          t.reg r = 0#16 ++ s.cil ++ BitVec.ofNat 8 l
            ∧ (∀ m, m < 64 → t.eis.getMsbD m = (s.eis.getMsbD m && !(m == l)))
            ∧ (∀ q, q ≠ r → t.reg q = s.reg q) ∧ t = { s with gpr := t.gpr, eis := t.eis, pc := s.pc + 4 }))
    ∧ (s.ilcrSettle ≠ 0 → Completes (.mfspr r n) s fun t =>
        (∀ q, q ≠ r → t.reg q = s.reg q) ∧ t = { s with gpr := t.gpr, eis := t.eis, draws := t.draws, pc := s.pc + 4 })
    ∧ (bitsAt v 0 8 = 0 → cmd { s with cil := bitsAt v 16 8 })
    ∧ (bitsAt v 0 8 = 1 → (bitsAt v 24 8).toNat < 64 → cmd { s with eis := s.eis &&& ~~~(1#64 <<< (63 - (bitsAt v 24 8).toNat)) })
    ∧ (bitsAt v 0 8 = 2 → (bitsAt v 24 8).toNat < 64 → cmd { s with eis := s.eis ||| 1#64 <<< (63 - (bitsAt v 24 8).toNat) })
    ∧ (bitsAt v 0 8 = 1 ∨ bitsAt v 0 8 = 2 → 64 ≤ (bitsAt v 24 8).toNat → exec (.mtspr r n) s = .refused .ilcrLevel)
    ∧ (3 ≤ (bitsAt v 0 8).toNat → cmd s))
  ∧ (∀ s : State,
    (s.cfg.impl = .power → (s.externalSignal = true ↔ ∃ n, n < 64 ∧ s.eis.getMsbD n = true ∧ s.eim.getMsbD n = true))
    ∧ (s.cfg.impl = .power2 → (s.externalSignal = true ↔ ∃ n, n < 64 ∧ s.eis.getMsbD n = true ∧ n < s.cil.toNat)))

/-- R799 to R806: the time base, as a move of its own: RTCL counts 256 up to its terminal count, then RTCU counts; above
it RTCL counts on or becomes 0, a free choice, and RTCU may count then; DEC counts 256 down and asks for an interrupt when
its sign bit becomes 1. At most 3,906,250 ticks come between two steps of the processor (R804); time does not stop: one
comes when the implementation's number of steps have gone by without (R799, decision D29, log entry 60). -/
def Obligations.TimeBase : Prop :=
  (∀ (s : State) (l : List Move), s.agenda = .tick :: l →
    (s.checkstopped = true ∨ s.ticksRun < 3906250 →
      ∃ t, step s = .next t
        ∧ (s.rtcl.toNat < 999999744 → t.rtcl = s.rtcl + 256 ∧ t.rtcu = s.rtcu)
        ∧ (s.rtcl.toNat = 999999744 → t.rtcl = 0 ∧ t.rtcu = s.rtcu + 1)
        ∧ (999999744 < s.rtcl.toNat → (t.rtcl = 0 ∨ t.rtcl = s.rtcl + 256)
            ∧ (t.rtcu = s.rtcu ∨ (t.rtcl = 0 ∧ t.rtcu = s.rtcu + 1)))
        ∧ t.dec = s.dec - 256
        ∧ t.eis = (if bitAt s.dec 0 = false ∧ bitAt (s.dec - 256) 0 = true
            then s.eis ||| 1#64 <<< (63 - s.eisbidDec.toNat) else s.eis)
        ∧ t = { s with rtcl := t.rtcl, rtcu := t.rtcu, dec := t.dec, eis := t.eis, draws := t.draws, ioccs := t.ioccs,
                       ticksRun := s.ticksRun + 1, stepsRun := 0, agenda := l })
    ∧ (s.checkstopped = false → 3906250 ≤ s.ticksRun → step s = .next { s with agenda := l }))
  ∧ (∀ s : State, (s.agenda = [] ∨ ∃ l, s.agenda = .cpu :: l) → s.cfg.tickEvery < s.stepsRun → step s = .next s.tick)

/-! ### Storage control -/

/-- R640 to R644, R654, R662: the synchronization and cache instructions, in real mode; RA gets the effective address when
it is not 0. dcs finishes every store-back, ics discards prefetched words; clf and cli take the line out of both caches;
clf begins its store-back if it was modified; dclst begins it too, and the line stays in the data cache, clean; dclz makes
it zeros. In an I/O segment there is no line. -/
def Obligations.CacheInstructions : Prop :=
  ∀ (s : State) (ra rb : RegNum), s.Canonical →
    let ea := s.eaX ra rb
    let line := s.lineOf ea
    let updates (t : State) : Prop :=
      (ra ≠ 0 → t.reg ra = ea) ∧ (∀ r, (ra = 0 ∨ r ≠ ra) → t.reg r = s.reg r)
        ∧ t = { s.withStorage t with gpr := t.gpr, ic := t.ic, pc := s.pc + 4 }
    let elsewhere (t : State) : Prop := ∀ b, s.lineOf b ≠ line → t.dataByte b = s.dataByte b
    let storeBack : List StoreBack := match s.dataLine line with
      | some d => if d.modified then [⟨line, d.bytes⟩] else []
      | none => []
    let instr : Prop := ∀ i ∈ [Instr.clf ra rb, .dclst ra rb, .dclz ra rb, .cli ra rb], (i = .cli ra rb → s.msrPR = false) →
      s.isIo ea = true → Completes i s fun t => updates t ∧ t.dc = s.dc ∧ t.ic = s.ic ∧ t.mem = s.mem ∧ t.wb = s.wb
    Completes .dcs s (fun t =>
      t.wb = [] ∧ s.SameMemory t ∧ t = { s with mem := t.mem, wb := [], machineCheck := t.machineCheck, pc := s.pc + 4 })
    ∧ exec .ics s = .next { s with pf := [], sdrBefore := [], pc := s.pc + 4 }
    ∧ instr
    ∧ (s.RealMode ea 1 →
      Completes (.clf ra rb) s (fun t =>
        updates t ∧ t.dataLine line = none ∧ t.instrLine line = none ∧ elsewhere t ∧ t.wb = s.wb ++ storeBack
          ∧ ((∀ d, s.dataLine line = some d → d.modified = true) →
              (∀ k, k < s.lineSize → s.isRam (s.lineBase line + k) = true) → s.SameMemory t))
      ∧ (s.msrPR = false → Completes (.cli ra rb) s (fun t =>
        updates t ∧ t.dataLine line = none ∧ t.instrLine line = none ∧ elsewhere t ∧ t.wb = s.wb ∧ t.mem = s.mem))
      ∧ Completes (.dclst ra rb) s (fun t =>
        updates t ∧ s.SameMemory t ∧ t.ic = s.ic ∧ t.wb = s.wb ++ storeBack
          ∧ t.dataLine line = (s.dataLine line).map fun d => { d with modified := false })
      ∧ Completes (.dclz ra rb) s (fun t =>
        updates t ∧ (∀ b, s.lineOf b = line → t.dataByte b = 0) ∧ elsewhere t ∧ t.ic = s.ic))

/-- R655 to R658: the segment register moves: mtsr and mtsri in the privileged state, by number and by bits 0-3 of an
address; mfsr and mfsri in either, the reserved bits as 0 (R42, R43). R659 to R661: clcs answers the line size for selectors 12 to 15, for others a free
value; tlbi, in the privileged state, takes the page of its address out of the TLB and no other; rac, in the privileged
state, answers the real address that the look-up finds for a page, with CR bit 2 = 1, and 0 with CR bit 2 = 0 where it finds none
and in an I/O segment. That the look-up may take a copy of the TLB or walk the tables is decision D9 (log entry 11, DESIGN
CHOICE). -/
def Obligations.SegmentAndTranslationInstructions : Prop :=
  (∀ (s : State) (r ra rb : RegNum) (n : BitVec 4),
    let ea := s.eaX ra rb
    let sets (i : Instr) (k : BitVec 4) : Prop := s.msrPR = false → Completes i s fun t =>
      t.segment k = s.reg r ∧ (∀ j, j ≠ k → t.segment j = s.segment j) ∧ t = { s with sr := t.sr, pc := s.pc + 4 }
    let reads (k : BitVec 4) : Word :=
      if bitAt (s.segment k) 0 then s.segment k &&& 0xCFFFFFFF else s.segment k &&& 0xE0FFFFFF
    sets (.mtsr r n) n ∧ sets (.mtsri r ra rb) (ea.extractLsb' 28 4)
    ∧ Completes (.mfsr r n) s (fun t => t.reg r = reads n ∧ s.OnlyRegs t [r])
    ∧ Completes (.mfsri r ra rb) s (fun t =>
      t.reg r = reads (ea.extractLsb' 28 4) ∧ (ra ≠ 0 → ra ≠ r → t.reg ra = ea)
        ∧ s.OnlyRegs t (if ra = 0 then [r] else [r, ra])))
  ∧ (∀ (s : State) (rt ra rb : RegNum) (rc : Bool),
    let ea := s.eaX ra rb
    let sid := bitsAt (s.segmentOf ea) 8 24
    let vpi := bitsAt ea 4 16
    Completes (.clcs rt ra) s (fun t =>
      (12 ≤ ra.toNat → ra.toNat < 16 → t.reg rt = BitVec.ofNat 32 s.lineSize) ∧ (∀ r, r ≠ rt → t.reg r = s.reg r)
        ∧ t = { s with gpr := t.gpr, draws := t.draws, pc := s.pc + 4 })
    ∧ (s.msrPR = false → Completes (.tlbi ra rb) s fun t =>
      (∀ e, e ∈ t.tlb ↔ e ∈ s.tlb ∧ ¬ (e.sid = sid ∧ e.vpi = vpi)) ∧ (ra ≠ 0 → t.reg ra = ea)
        ∧ (∀ r, (ra = 0 ∨ r ≠ ra) → t.reg r = s.reg r) ∧ t = { s with gpr := t.gpr, tlb := t.tlb, pc := s.pc + 4 })
    ∧ (s.msrPR = false →
        let found : Option Word :=
          if s.isIo ea then none
          else match (lookupPage sid vpi s).1 with
            | .entry x => some (x.rpn ++ bitsAt ea 20 12)
            | _ => none
        Completes (.rac rt ra rb rc) s fun t =>
          t.reg rt = found.getD 0 ∧ bitAt t.cr 2 = found.isSome ∧ (ra ≠ 0 → ra ≠ rt → t.reg ra = ea)
            ∧ (∀ r, r ≠ rt → (ra = 0 ∨ r ≠ ra) → t.reg r = s.reg r)
            ∧ (rc = true → bitAt t.cr 3 = s.xerSO) ∧ (rc = false → bitsAt t.cr 0 2 = bitsAt s.cr 0 2 ∧ bitAt t.cr 3 = bitAt s.cr 3)
            ∧ (∀ f, f ≠ 0 → t.crField f = s.crField f)
            ∧ t = { s.withStorage t with gpr := t.gpr, cr := t.cr, pc := s.pc + 4 }))

/-! ### Floating point -/

/-- R589 to R592, R527, R11: the moves, which change the sign alone and leave the FPSCR, NaNs or not. R630: mffs leaves
the FPSCR in the low-order word of its target; the high-order word is a free value (log entry 59). -/
def Obligations.FloatingPointMoves : Prop :=
  ∀ (s : State) (frt frb : RegNum) (rc : Bool), s.msrFP = true →
    let x := s.freg frb
    let moves (i : Instr) (p : DWord → Prop) : Prop :=
      ∃ u : State, exec i s = .next { u with pc := s.pc + 4 } ∧ s.OnlyFloat u [frt] rc ∧ u.fpscr = s.fpscr ∧ p (u.freg frt)
    moves (.fmr frt frb rc) (fun v => v = x)
    ∧ moves (.fneg frt frb rc) (fun v => fpSign v = !fpSign x ∧ v.extractLsb' 0 63 = x.extractLsb' 0 63)
    ∧ moves (.fabs frt frb rc) (fun v => fpSign v = false ∧ v.extractLsb' 0 63 = x.extractLsb' 0 63)
    ∧ moves (.fnabs frt frb rc) (fun v => fpSign v = true ∧ v.extractLsb' 0 63 = x.extractLsb' 0 63)
    ∧ moves (.mffs frt rc) (fun v => v.extractLsb' 0 32 = s.fpscr)

/-- R563, R565 to R572, R581 to R584: the floating-point loads, in real mode: singles are converted (R528), doubles and
quads are not. That a quad is two doubleword accesses, each with the alignment of a doubleword, is decision D22 (log entry
32, DESIGN CHOICE). -/
def Obligations.FloatingPointLoads : Prop :=
  ∀ (s : State) (frt ra rb : RegNum) (d : BitVec 16) (ds : BitVec 14),
    let single (a : Word) : DWord := doubleOfSingle (s.wordAt a)
    let rs : List RegNum := if ra = 0 then [] else [ra]
    FloatLoadsInto s (.lfs frt ra d) (s.eaD ra d) 4 frt single
    ∧ FloatLoadsInto s (.lfsx frt ra rb) (s.eaX ra rb) 4 frt single
    ∧ FloatLoadsUpdating s (.lfsu frt ra d) (s.eaD ra d) 4 frt ra single
    ∧ FloatLoadsUpdating s (.lfsux frt ra rb) (s.eaX ra rb) 4 frt ra single
    ∧ FloatLoadsInto s (.lfd frt ra d) (s.eaD ra d) 8 frt s.dwordAt
    ∧ FloatLoadsInto s (.lfdx frt ra rb) (s.eaX ra rb) 8 frt s.dwordAt
    ∧ FloatLoadsUpdating s (.lfdu frt ra d) (s.eaD ra d) 8 frt ra s.dwordAt
    ∧ FloatLoadsUpdating s (.lfdux frt ra rb) (s.eaX ra rb) 8 frt ra s.dwordAt
    ∧ QuadLoads s (.lfq frt ra ds) (s.eaDS ra ds) frt []
    ∧ QuadLoads s (.lfqx frt ra rb) (s.eaX ra rb) frt []
    ∧ QuadLoads s (.lfqu frt ra ds) (s.eaDS ra ds) frt rs
    ∧ QuadLoads s (.lfqux frt ra rb) (s.eaX ra rb) frt rs

/-- R563, R573 to R580, R585 to R588: the floating-point stores, in real mode: a single is what R529 makes of the
register; what that is for a nonzero number with EXP below 874 is log entry 64 (DESIGN CHOICE). That a quad is two doubleword
stores, each with the alignment of a doubleword, is decision D22 (log entry 32, DESIGN CHOICE). -/
def Obligations.FloatingPointStores : Prop :=
  ∀ (s : State) (frs ra rb : RegNum) (d : BitVec 16) (ds : BitVec 14),
    let single := wordBytes (singleOfDouble (s.freg frs))
    let double := dwordBytes (s.freg frs)
    let rs : List RegNum := if ra = 0 then [] else [ra]
    FloatStoresFrom s (.stfs frs ra d) (s.eaD ra d) single
    ∧ FloatStoresFrom s (.stfsx frs ra rb) (s.eaX ra rb) single
    ∧ FloatStoresUpdating s (.stfsu frs ra d) (s.eaD ra d) ra single
    ∧ FloatStoresUpdating s (.stfsux frs ra rb) (s.eaX ra rb) ra single
    ∧ FloatStoresFrom s (.stfd frs ra d) (s.eaD ra d) double
    ∧ FloatStoresFrom s (.stfdx frs ra rb) (s.eaX ra rb) double
    ∧ FloatStoresUpdating s (.stfdu frs ra d) (s.eaD ra d) ra double
    ∧ FloatStoresUpdating s (.stfdux frs ra rb) (s.eaX ra rb) ra double
    ∧ QuadStores s (.stfq frs ra ds) (s.eaDS ra ds) frs []
    ∧ QuadStores s (.stfqx frs ra rb) (s.eaX ra rb) frs []
    ∧ QuadStores s (.stfqu frs ra ds) (s.eaDS ra ds) frs rs
    ∧ QuadStores s (.stfqux frs ra rb) (s.eaX ra rb) frs rs

/-- R528, R529: a single that is loaded and stored again is the same word, NaNs and denormalized numbers among them; a
finite single keeps its value. -/
def Obligations.SinglesSurviveRegisters : Prop :=
  ∀ w : Word,
    let e := (w.extractLsb' 23 8).toNat
    let f : ℚ := (w.extractLsb' 0 23).toNat
    singleOfDouble (doubleOfSingle w) = w
    ∧ (e ≠ 255 → fpFinite (doubleOfSingle w) = true ∧ fpValue (doubleOfSingle w) =
        (if w.msb then -1 else 1) * (if e = 0 then f * 2 ^ (-149 : ℤ) else (2 ^ 23 + f) * 2 ^ ((e : ℤ) - 150)))

/-- R545, R560, R11, R35 to R37, R710: the arithmetic, rounding and converting instructions complete with MSR(FP) = 1:
they change nothing but their target, the FPSCR and, with Rc, CR field 1; exception bits that were 1 stay 1 (bits 0 to 12
by R38; that VXSQRT and VXCVI, bits 22 and 23, do too is decision D20, log entry 28, DESIGN CHOICE), the enables and RN keep
their values, FX tells of a new exception bit, VX and FEX follow from the others; with FE and FEX the Program interrupt
follows. -/
def Obligations.FloatingPointArithmeticCompletes : Prop :=
  ∀ (s : State) (frt fra frb frc : RegNum) (rc : Bool), s.msrFP = true →
    ∀ i ∈ [Instr.fa frt fra frb rc, .fs frt fra frb rc, .fm frt fra frc rc, .fd frt fra frb rc,
        .fma frt fra frb frc rc, .fms frt fra frb frc rc, .fnma frt fra frb frc rc, .fnms frt fra frb frc rc,
        .frsp frt frb rc, .fcir frt frb rc, .fcirz frt frb rc, .fsqrt frt frb rc],
      FloatCompletes s i frt rc fun u =>
        (∀ n ∈ [3, 4, 5, 6, 7, 8, 9, 10, 11, 12, 22, 23], bitAt s.fpscr n = true → bitAt u.fpscr n = true)
          ∧ (∀ n ∈ [24, 25, 26, 27, 28, 30, 31], bitAt u.fpscr n = bitAt s.fpscr n) ∧ Summarized u.fpscr
          ∧ SetsFx s.fpscr u.fpscr

/-- R530 to R532, R538, R540 to R542, R544, R550 to R554, R593 to R600, R604: the result of an arithmetic instruction with
finite operands, in every rounding mode and with overflow and underflow exceptions enabled or not, and the FPSCR: what
`Delivers` says for the exact sum, difference, product or quotient, and FPRF the class of the target. An exact zero has the
sign of R552 as a sum, that of R553 as a product or quotient. The multiply-adds round once; fnma and fnms negate the rounded
number. The root is never out of range: FI and XX tell that it is inexact, FR that it is above; the root of a zero is that
zero, which R553 has from general knowledge (log entry 54). OX, UX and XX change with the rounding, no other exception bit
does (R534). That FR and FI are written by every result that is rounded, 0 for an exact one, and FI = 1 after an overflow that
is not enabled, are decision D23 (log entry 28, DESIGN CHOICE). -/
def Obligations.ArithmeticRounds : Prop :=
  ∀ (s : State) (frt fra frb frc : RegNum) (rc : Bool), s.msrFP = true →
    let finite (r : RegNum) : Prop := fpFinite (s.freg r) = true
    let a := fpValue (s.freg fra)
    let b := fpValue (s.freg frb)
    let c := fpValue (s.freg frc)
    let signA := fpSign (s.freg fra)
    let signB := fpSign (s.freg frb)
    let product := signA != fpSign (s.freg frc)
    let sum (x y : Bool) : Bool := if x = y then x else bitsAt s.fpscr 30 2 == 3
    let classed (u : State) : Prop := bitsAt u.fpscr 15 5 = resultClass (u.freg frt)
    let rounds (i : Instr) (v : ℚ) (zero : Bool) : Prop :=
      FloatCompletes s i frt rc fun u => Delivers s.fpscr u.fpscr (u.freg frt) v zero ∧ classed u
    let negates (i : Instr) (v : ℚ) (zero : Bool) : Prop :=
      FloatCompletes s i frt rc fun u =>
        Delivers s.fpscr u.fpscr (u.freg frt ^^^ 0x8000000000000000) v zero ∧ classed u
    (finite fra → finite frb →
      rounds (.fa frt fra frb rc) (a + b) (sum signA signB) ∧ rounds (.fs frt fra frb rc) (a - b) (sum signA (!signB))
      ∧ (b ≠ 0 → rounds (.fd frt fra frb rc) (a / b) (signA != signB)))
    ∧ (finite fra → finite frc → rounds (.fm frt fra frc rc) (a * c) product)
    ∧ (finite fra → finite frb → finite frc →
      rounds (.fma frt fra frb frc rc) (a * c + b) (sum product signB)
      ∧ rounds (.fms frt fra frb frc rc) (a * c - b) (sum product (!signB))
      ∧ negates (.fnma frt fra frb frc rc) (a * c + b) (sum product signB)
      ∧ negates (.fnms frt fra frb frc rc) (a * c - b) (sum product (!signB)))
    ∧ (finite frb → 0 ≤ b → FloatCompletes s (.fsqrt frt frb rc) frt rc fun u =>
      let rn := bitsAt s.fpscr 30 2
      let r := fpValue (u.freg frt)
      fpFinite (u.freg frt) = true ∧ 0 ≤ r ∧ classed u
        ∧ (b = 0 → u.freg frt = s.freg frb) ∧ (b ≠ 0 → fpSign (u.freg frt) = false)
        ∧ bitAt u.fpscr 13 = decide (b < r ^ 2) ∧ bitAt u.fpscr 14 = decide (r ^ 2 ≠ b)
        ∧ bitAt u.fpscr 6 = (bitAt s.fpscr 6 || decide (r ^ 2 ≠ b))
        ∧ (∀ n ∈ [3, 4, 5, 7, 8, 9, 10, 11, 12, 22, 23], bitAt u.fpscr n = bitAt s.fpscr n)
        ∧ (rn = 0 → ∀ y, fpFinite y = true → 0 ≤ fpValue y →
          (fpValue y < r → ((fpValue y + r) / 2) ^ 2 ≤ b) ∧ (r < fpValue y → b ≤ ((fpValue y + r) / 2) ^ 2))
        ∧ (rn = 1 ∨ rn = 3 → r ^ 2 ≤ b ∧ ∀ y, fpFinite y = true → 0 ≤ fpValue y → fpValue y ^ 2 ≤ b → fpValue y ≤ r)
        ∧ (rn = 2 → b ≤ r ^ 2 ∧ ∀ y, fpFinite y = true → 0 ≤ fpValue y → b ≤ fpValue y ^ 2 → r ≤ fpValue y))

/-- R524, R535, R536, R550: NaN operands of the arithmetic instructions. The result is the first NaN of FRA, FRB, FRC with its
bit 12 set, and FPRF says so, whenever VE = 0 or nothing is invalid; where no NaN signals and no product is of zero and
infinity nothing is, and no exception bit changes. A signaling NaN sets VXSNAN, a product of zero and infinity of a
multiply-add VXIMZ; with VE = 1 the target and FPRF then keep their values (decision D24). FR and FI keep theirs in every case
(R544, decision D23; log entry 28, DESIGN CHOICE). -/
def Obligations.ArithmeticOnNans : Prop :=
  ∀ (i : Instr) (s : State) (frt : RegNum) (ops : List DWord) (rc : Bool), s.msrFP = true →
    s.floatOperands i = some (frt, ops, rc) → (∃ y ∈ ops, isNan y = true) →
    let signaling : Prop := ∃ y ∈ ops, isSnan y = true
    let zeroTimesInfinity : Prop :=
      ∃ a b c, ops = [a, b, c] ∧ (isZero a = true ∧ isInf c = true ∨ isInf a = true ∧ isZero c = true)
    let ve := bitAt s.fpscr 24
    FloatCompletes s i frt rc fun u =>
      let keeps (l : List Nat) : Prop := ∀ n ∈ l, bitAt u.fpscr n = bitAt s.fpscr n
      (∀ (l r : List DWord) (x : DWord), ops = l ++ x :: r → (∀ y ∈ l, isNan y = false) → isNan x = true →
        (ve = false ∨ ¬ signaling ∧ ¬ zeroTimesInfinity) →
          u.freg frt = x ||| 0x0008000000000000 ∧ bitsAt u.fpscr 15 5 = 0b10001)
      ∧ (¬ signaling → ¬ zeroTimesInfinity → keeps [0, 3, 4, 5, 6, 7, 8, 9, 10, 11, 12, 22, 23])
      ∧ (signaling → bitAt u.fpscr 7 = true)
      ∧ (zeroTimesInfinity → bitAt u.fpscr 11 = true)
      ∧ (signaling ∨ zeroTimesInfinity → ve = true → u.freg frt = s.freg frt ∧ bitsAt u.fpscr 15 5 = bitsAt s.fpscr 15 5)
      ∧ keeps [3, 4, 5, 6, 8, 9, 10, 12, 13, 14, 22, 23]

/-- R534, R536, R537, R551: the invalid operations of infinities, zeros and negative numbers set their bit and give the
generated QNaN with VE = 0, with VE = 1 the target keeps its value; so do the multiply-adds, whose product of zero and
infinity is invalid with a NaN for the addend too. A finite number that is not zero divided by zero sets ZX and gives an
infinity with ZE = 0, with ZE = 1 the target keeps its value. Where nothing is invalid, operands that are infinities give
the infinity or the zero of R551, exactly: no exception bit changes, nor FR or FI (R544, decision D23, log entry 28). -/
def Obligations.InvalidOperationsAndZeroDivide : Prop :=
  ∀ (s : State) (frt fra frb frc : RegNum) (rc : Bool), s.msrFP = true →
    let a := s.freg fra
    let b := s.freg frb
    let c := s.freg frc
    let keeps (u : State) : Prop := u.freg frt = s.freg frt
    let invalid (i : Instr) (bit : Nat) : Prop :=
      FloatCompletes s i frt rc fun u => bitAt u.fpscr bit = true
        ∧ (bitAt s.fpscr 24 = true → keeps u) ∧ (bitAt s.fpscr 24 = false → u.freg frt = 0x7FF8000000000000)
    let gives (i : Instr) (r : DWord) : Prop :=
      FloatCompletes s i frt rc fun u => u.freg frt = r
        ∧ ∀ n ∈ [0, 3, 4, 5, 6, 7, 8, 9, 10, 11, 12, 13, 14, 22, 23], bitAt u.fpscr n = bitAt s.fpscr n
    let product : Bool := fpSign a != fpSign c
    let infiniteProduct : Prop :=
      isInf a = true ∧ isNan c = false ∧ isZero c = false ∨ isInf c = true ∧ isNan a = false ∧ isZero a = false
    let addends (minus neg : Bool) : Instr :=
      match minus, neg with
      | false, false => .fma frt fra frb frc rc
      | true, false => .fms frt fra frb frc rc
      | false, true => .fnma frt fra frb frc rc
      | true, true => .fnms frt fra frb frc rc
    (isInf a = true → isInf b = true →
      invalid (.fd frt fra frb rc) 9
      ∧ (fpSign a ≠ fpSign b → invalid (.fa frt fra frb rc) 8)
      ∧ (fpSign a = fpSign b → invalid (.fs frt fra frb rc) 8))
    ∧ (isZero a = true → isZero b = true → invalid (.fd frt fra frb rc) 10)
    ∧ (isZero a = true ∧ isInf c = true ∨ isInf a = true ∧ isZero c = true →
      invalid (.fm frt fra frc rc) 11
      ∧ ∀ minus neg, (isNan b = false → invalid (addends minus neg) 11)
        ∧ FloatCompletes s (addends minus neg) frt rc fun u =>
          bitAt u.fpscr 11 = true ∧ (bitAt s.fpscr 24 = true → keeps u))
    ∧ (fpSign b = true → isZero b = false → isNan b = false → invalid (.fsqrt frt frb rc) 22)
    ∧ (fpFinite a = true → isZero a = false → isZero b = true → FloatCompletes s (.fd frt fra frb rc) frt rc fun u =>
        bitAt u.fpscr 5 = true
          ∧ u.freg frt = if bitAt s.fpscr 27 then s.freg frt else infinity (fpSign a != fpSign b))
    ∧ (isInf a = true → isNan b = false →
      ((isInf b = true → fpSign a = fpSign b) → gives (.fa frt fra frb rc) a)
      ∧ ((isInf b = true → fpSign a ≠ fpSign b) → gives (.fs frt fra frb rc) a))
    ∧ (isInf b = true → isNan a = false →
      ((isInf a = true → fpSign a = fpSign b) → gives (.fa frt fra frb rc) b)
      ∧ ((isInf a = true → fpSign a ≠ fpSign b) → gives (.fs frt fra frb rc) (infinity (!fpSign b))))
    ∧ (isInf a = true → fpFinite b = true → gives (.fd frt fra frb rc) (infinity (fpSign a != fpSign b)))
    ∧ (fpFinite a = true → isInf b = true →
      gives (.fd frt fra frb rc) (if fpSign a != fpSign b then 0x8000000000000000 else 0))
    ∧ (infiniteProduct → gives (.fm frt fra frc rc) (infinity product)
      ∧ ∀ minus neg,
        (isInf b = true → product ≠ (fpSign b != minus) → invalid (addends minus neg) 8)
        ∧ (isNan b = false → (isInf b = true → product = (fpSign b != minus)) →
          gives (addends minus neg) (infinity (product != neg))))
    ∧ (fpFinite a = true → fpFinite c = true → isInf b = true →
      ∀ minus neg, gives (addends minus neg) (infinity ((fpSign b != minus) != neg)))
    ∧ (isInf b = true → fpSign b = false → gives (.fsqrt frt frb rc) b)

/-- R601, R610 to R620, R532: frsp of every operand, in every rounding mode and with overflow, underflow and invalid
operation exceptions enabled or not; no erratum (R539). A zero or an infinity stays as it is. A NaN loses its low 29 bits,
and a signaling one signals: with VE = 0 it becomes quiet, with VE = 1 the target and FPRF keep their values (R618). In
range the operand becomes the single that rounding makes; below 2^-126 a multiple of 2^-149, or with underflow exceptions
enabled 2^192 times the operand, rounded to single precision; an overflow makes the operand over 2^192, rounded to single
precision, where it is enabled, else an infinity or the largest finite single. FR, FI, XX, OX and UX tell of the rounding; FI
= 1 after an overflow that is not enabled, and FR = 1 or, where nothing was rounded, as it was, are decision D23 (log entry
28, DESIGN CHOICE). A single stays as it is. -/
def Obligations.RoundToSingle : Prop :=
  ∀ (s : State) (frt frb : RegNum) (rc : Bool), s.msrFP = true → s.cfg.fpaErratum = false →
    let x := s.freg frb
    let v := fpValue x
    let rn := bitsAt s.fpscr 30 2
    let oe := bitAt s.fpscr 25
    let ue := bitAt s.fpscr 26
    FloatCompletes s (.frsp frt frb rc) frt rc fun u =>
      let r := u.freg frt
      let fprf := bitsAt u.fpscr 15 5
      let keeps (l : List Nat) : Prop := ∀ n ∈ l, bitAt u.fpscr n = bitAt s.fpscr n
      let classed (plus minus : BitVec 5) : Prop := fprf = if fpSign x then minus else plus
      let flags (exact rounded : ℚ) (ox ux : Bool) : Prop := RoundingFlags s.fpscr u.fpscr exact rounded ox ux
      let quiet : Prop := keeps [0, 3, 4, 5, 6, 7, 8, 9, 10, 11, 12, 13, 14, 22, 23]
      (isZero x = true → r = x ∧ quiet ∧ classed 0b00010 0b10010)
      ∧ (isInf x = true → r = x ∧ quiet ∧ classed 0b00101 0b01001)
      ∧ (isNan x = true → isSnan x = false → r = x &&& 0xFFFFFFFFE0000000 ∧ quiet ∧ fprf = 0b10001)
      ∧ (isSnan x = true → bitAt u.fpscr 7 = true ∧ keeps [3, 4, 5, 6, 8, 9, 10, 11, 12, 13, 14, 22, 23]
        ∧ (bitAt s.fpscr 24 = false → r = (x ||| 0x0008000000000000) &&& 0xFFFFFFFFE0000000 ∧ fprf = 0b10001)
        ∧ (bitAt s.fpscr 24 = true → r = s.freg frt ∧ fprf = bitsAt s.fpscr 15 5))
      ∧ (fpFinite x = true →
        keeps [5, 7, 8, 9, 10, 11, 12, 22, 23]
        ∧ (2 ^ (-126 : ℤ) ≤ |v| → |v| ≤ maxSingle →
          RoundedIn NormalSingle 29 rn r v ∧ classed 0b00100 0b01000 ∧ flags v (fpValue r) false false)
        ∧ (ue = true → v ≠ 0 → |v| < 2 ^ (-126 : ℤ) →
          RoundedIn SinglePrecision 29 rn r (v * 2 ^ 192) ∧ classed 0b00100 0b01000
            ∧ flags (v * 2 ^ 192) (fpValue r) false true)
        ∧ (ue = false → v ≠ 0 → |v| < 2 ^ (-126 : ℤ) → ∃ q : ℤ,
          RoundedInt rn q (v * 2 ^ 149) ∧ fpFinite r = true ∧ fpValue r = q * 2 ^ (-149 : ℤ) ∧ fpSign r = fpSign x
            ∧ flags v (fpValue r) false (decide (fpValue r ≠ v))
            ∧ (if q = 0 then classed 0b00010 0b10010
               else if |q| = 2 ^ 23 then classed 0b00100 0b01000
               else classed 0b10100 0b11000))
        ∧ (maxSingle < |v| → ¬ RoundsBeyond rn maxSingle (2 ^ 128) v →
          RoundedIn NormalSingle 29 rn r v ∧ classed 0b00100 0b01000 ∧ flags v (fpValue r) false false)
        ∧ (oe = true → RoundsBeyond rn maxSingle (2 ^ 128) v →
          RoundedIn SinglePrecision 29 rn r (v / 2 ^ 192) ∧ classed 0b00100 0b01000
            ∧ flags (v / 2 ^ 192) (fpValue r) true false)
        ∧ (oe = false → RoundsBeyond rn maxSingle (2 ^ 128) v →
          r = overflowed rn (decide (v < 0)) 0x47EFFFFFE0000000 ∧ fprf = resultClass r
            ∧ bitAt u.fpscr 3 = true ∧ bitAt u.fpscr 4 = bitAt s.fpscr 4 ∧ bitAt u.fpscr 6 = true
            ∧ bitAt u.fpscr 14 = true ∧ bitAt u.fpscr 13 = (decide (|v| < 2 ^ 128) || bitAt s.fpscr 13))
        ∧ (x.extractLsb' 0 29 = 0 → 897 ≤ fpExp x → fpExp x ≤ 1150 → r = x ∧ bitAt u.fpscr 6 = bitAt s.fpscr 6))

/-- R602, R603, R621 to R627: the converts round their operand to an integer, fcir in the mode of RN, fcirz toward zero,
and leave it as a signed word in the low-order half of the target; FI and XX say that it is inexact, FR that it is larger
in magnitude. A NaN, an infinity or an integer that no signed word holds sets VXCVI and, with VE = 0, gives the word of
largest magnitude of its sign, a NaN the most negative one; FR and FI become 0. With VE = 1 the target keeps its value
(R535); that FPRF does too, which R621 calls undefined, is decision D24 (log entry 28, DESIGN CHOICE). That an inexact operand
too large sets XX beside VXCVI is R622 against R534 (log entry 28, DESIGN CHOICE). No other exception bit changes. -/
def Obligations.ConvertToInteger : Prop :=
  ∀ (s : State) (frt frb : RegNum) (rc : Bool), s.msrFP = true →
    let x := s.freg frb
    let v := fpValue x
    ∀ p ∈ [(Instr.fcir frt frb rc, bitsAt s.fpscr 30 2), (.fcirz frt frb rc, 1)],
      FloatCompletes s p.1 frt rc fun u =>
        let low := (u.freg frt).extractLsb' 0 32
        let fprf := bitsAt u.fpscr 15 5
        let inexact (b : Bool) : Prop := bitAt u.fpscr 6 = (bitAt s.fpscr 6 || b)
          ∧ ∀ n ∈ [3, 4, 5, 7, 8, 9, 10, 11, 12, 22], bitAt u.fpscr n = bitAt s.fpscr n
        let invalid : Prop := bitAt u.fpscr 23 = true
          ∧ bitAt u.fpscr 13 = false ∧ bitAt u.fpscr 14 = false
          ∧ (bitAt s.fpscr 24 = true → u.freg frt = s.freg frt ∧ fprf = bitsAt s.fpscr 15 5)
          ∧ (bitAt s.fpscr 24 = false → low = if isNan x ∨ fpSign x = true then 0x80000000#32 else 0x7FFFFFFF#32)
        (isNan x = true → invalid ∧ inexact false ∧ (bitAt s.fpscr 24 = false → fprf = 0b10001))
        ∧ (isInf x = true → invalid ∧ inexact false
          ∧ (bitAt s.fpscr 24 = false → fprf = if fpSign x then 0b01001 else 0b00101))
        ∧ (fpFinite x = true → ∃ q : ℤ, RoundedInt p.2 q v ∧ inexact (decide ((q : ℚ) ≠ v))
          ∧ if -2 ^ 31 ≤ q ∧ q ≤ 2 ^ 31 - 1 then
              low.toInt = q ∧ bitAt u.fpscr 23 = bitAt s.fpscr 23 ∧ bitAt u.fpscr 13 = decide (|v| < |(q : ℚ)|)
                ∧ bitAt u.fpscr 14 = decide ((q : ℚ) ≠ v)
            else invalid)

/-- R605, R606, R534, R35: the compares leave less, greater, equal or unordered in CR field BF and in FPCC; fcmpu signals an
invalid operation for a signaling NaN, fcmpo for any (VXVC; with a signaling NaN VXSNAN, and VXVC too when VE = 0). -/
def Obligations.FloatingPointCompares : Prop :=
  ∀ (s : State) (bf : CrField) (fra frb : RegNum), s.msrFP = true →
    let a := s.freg fra
    let b := s.freg frb
    let compares (i : Instr) (p : Word → Prop) : Prop :=
      ∃ u : State, exec i s = .next u.fpNext ∧ u = { s with cr := u.cr, fpscr := u.fpscr } ∧ Summarized u.fpscr
        ∧ SetsFx s.fpscr u.fpscr
        ∧ (∀ f, f ≠ bf → u.crField f = s.crField f) ∧ bitsAt u.fpscr 16 4 = u.crField bf
        ∧ (∀ n ∈ [3, 4, 5, 6, 8, 9, 10, 11, 13, 14, 15, 22, 23, 24, 25, 26, 27, 28, 30, 31], bitAt u.fpscr n = bitAt s.fpscr n)
        ∧ (isNan a = true ∨ isNan b = true → u.crField bf = 0b0001)
        ∧ (fpFinite a = true → fpFinite b = true →
          u.crField bf = crNibble (decide (fpValue a < fpValue b)) (decide (fpValue b < fpValue a))
            (decide (fpValue a = fpValue b)) false)
        ∧ (isInf a = true → isNan b = false → a ≠ b → u.crField bf = crNibble (fpSign a) (!fpSign a) false false)
        ∧ (isInf b = true → isNan a = false → a ≠ b → u.crField bf = crNibble (!fpSign b) (fpSign b) false false)
        ∧ (isInf a = true → a = b → u.crField bf = crNibble false false true false)
        ∧ p u.fpscr
    let snan := isSnan a || isSnan b
    let nan := isNan a || isNan b
    compares (.fcmpu bf fra frb) (fun v => bitAt v 7 = (bitAt s.fpscr 7 || snan) ∧ bitAt v 12 = bitAt s.fpscr 12)
    ∧ compares (.fcmpo bf fra frb) (fun v =>
        bitAt v 7 = (bitAt s.fpscr 7 || snan)
          ∧ bitAt v 12 = (bitAt s.fpscr 12 || nan && !(snan && bitAt s.fpscr 24)))

/-- R631 to R635, R35 to R37, R607: the moves to the FPSCR write the bits they name, of which bits 1 and 2, FEX and VX,
only follow from the others and the reserved ones stay 0; mtfsb1 of an exception bit that was 0 sets FX too. mcrfs copies
a field to the condition register and resets the exception bits in it. -/
def Obligations.FpscrInstructions : Prop :=
  ∀ (s : State) (bf bfa : CrField) (v : BitVec 4) (bt frb : RegNum) (flm : BitVec 8) (rc : Bool), s.msrFP = true →
    let free : List Nat := [1, 2, 20, 21, 29]
    let exceptions : List Nat := [3, 4, 5, 6, 7, 8, 9, 10, 11, 12, 22, 23]
    let writes (i : Instr) (f : Nat → Bool) : Prop :=
      ∃ u : State, exec i s = .next u.fpNext ∧ s.OnlyFloat u [] rc ∧ u.fpr = s.fpr ∧ Summarized u.fpscr
        ∧ ∀ n, n < 32 → n ∉ free → bitAt u.fpscr n = f n
    writes (.mtfsf flm frb rc) (fun n =>
        if flm.getMsbD (n / 4) then bitAt ((s.freg frb).extractLsb' 0 32) n else bitAt s.fpscr n)
    ∧ writes (.mtfsfi bf v rc) (fun n => if n / 4 = bf.toNat then v.getMsbD (n % 4) else bitAt s.fpscr n)
    ∧ writes (.mtfsb0 bt rc) (fun n => if n = bt.toNat then false else bitAt s.fpscr n)
    ∧ writes (.mtfsb1 bt rc) (fun n =>
        if n = bt.toNat then true
        else if n = 0 ∧ exceptions.contains bt.toNat = true ∧ bitAt s.fpscr bt.toNat = false then true
        else bitAt s.fpscr n)
    ∧ Completes (.mcrfs bf bfa) s (fun t =>
        t.crField bf = bitsAt s.fpscr (4 * bfa.toNat) 4 ∧ (∀ f, f ≠ bf → t.crField f = s.crField f)
          ∧ (∀ n, n < 32 → n ∉ free → bitAt t.fpscr n =
              (bitAt s.fpscr n && !(n / 4 == bfa.toNat && (n == 0 || exceptions.contains n))))
          ∧ Summarized t.fpscr ∧ t = { s with cr := t.cr, fpscr := t.fpscr, pc := s.pc + 4 })

/-! ### Input and output -/

/-- R762, R767 to R770: on POWER a word load from BUID 0 reads EIM, or reads EIS and resets the half it reads; a word store
writes EIM, or sets the bits of EIS that are 1 in the register. The number under which a source asks for service is loaded
below 26 free bits and stored from the low-order six (R772). -/
def Obligations.ExternalInterruptRegisters : Prop :=
  ∀ (s : State) (r ra : RegNum) (d : BitVec 16),
    let ea := s.eaD ra d
    let sr := s.segmentOf ea
    bitAt sr 0 = true → bitAt sr 1 = false → bitsAt sr 4 8 = 0 → bitsAt sr 12 20 = 0 →
    let loads (v : Word) (eis : BitVec 64) : Prop := Completes (.l r ra d) s fun t =>
      t.reg r = v ∧ (∀ q, q ≠ r → t.reg q = s.reg q) ∧ t = { s with gpr := t.gpr, eis := eis, pc := s.pc + 4 }
    let number (n : BitVec 6) (set : BitVec 6 → State) : Prop :=
      Completes (.l r ra d) s (fun t =>
        bitsAt (t.reg r) 26 6 = n ∧ (∀ q, q ≠ r → t.reg q = s.reg q)
          ∧ t = { s with gpr := t.gpr, draws := t.draws, pc := s.pc + 4 })
      ∧ exec (.st r ra d) s = .next { set (bitsAt (s.reg r) 26 6) with pc := s.pc + 4 }
    let v := s.reg r
    (s.cfg.impl = .power →
      (bitsAt ea 4 28 = 0x00 → loads (s.eim.extractLsb' 32 32) s.eis
        ∧ exec (.st r ra d) s = .next { s with eim := v ++ s.eim.extractLsb' 0 32, pc := s.pc + 4 })
      ∧ (bitsAt ea 4 28 = 0x04 → loads (s.eim.extractLsb' 0 32) s.eis
        ∧ exec (.st r ra d) s = .next { s with eim := s.eim.extractLsb' 32 32 ++ v, pc := s.pc + 4 })
      ∧ (bitsAt ea 4 28 = 0x10 → loads (s.eis.extractLsb' 32 32) (0#32 ++ s.eis.extractLsb' 0 32)
        ∧ exec (.st r ra d) s = .next
            { s with eis := (s.eis.extractLsb' 32 32 ||| v) ++ s.eis.extractLsb' 0 32, pc := s.pc + 4 })
      ∧ (bitsAt ea 4 28 = 0x14 → loads (s.eis.extractLsb' 0 32) (s.eis.extractLsb' 32 32 ++ 0#32)
        ∧ exec (.st r ra d) s = .next
            { s with eis := s.eis.extractLsb' 32 32 ++ (s.eis.extractLsb' 0 32 ||| v), pc := s.pc + 4 }))
    ∧ (bitsAt ea 4 28 = 0x20 → number s.eisbidDec fun n => { s with eisbidDec := n })
    ∧ (s.cfg.impl = .power2 → bitsAt ea 4 28 = 0x24 → number s.eisbidCheck fun n => { s with eisbidCheck := n })
    ∧ (s.cfg.impl = .power2 → bitsAt ea 4 28 = 0x34 → number s.eisbidEpow fun n => { s with eisbidEpow := n })

/-- The first IOCC, with no time delay running and no hardware fault waiting. Its control space (R825, R830): a program with K =
0 loads the Configuration register (R935) and stores the Interrupt Enable register (R926); loads and stores the words of the TCW
table, up to the number of entries there are (R855, R937), and of the tag table (R897), where they are in the IOCC's own RAM;
the words of NVRAM (R946); registers 0 and 4 of a channel, whose addresses were in a lost figure (R883, R884, log entry 37).
With K = 1 a load is an I/O exception (R698, R699) that leaves the general registers alone. A word load from bus I/O space takes
the word that the device answers (R831). DMA (R901, R904, unbuffered, with tags): a request for one byte moves it between the
device and system memory, and counts the address up and the length down; at the end of the length the channel is disabled or
takes the next tag, or reports that the tag had bad parity (R911, code 1110). That the bytes of the unbuffered mode are those
that the processor's loads find is decision D44 (log entry 49, DESIGN CHOICE); that a load of a word which nothing has stored
since power-on completes too, where decision D52 refuses it, is log entry 38 (DESIGN CHOICE). Log entry 62 (DESIGN CHOICE): with
bit 25 of the Configuration register = 1, where R937 has no tags, the addresses of the tag table are words of the tag storage
all the same, of which R897 and R937 say nothing; and an error of code 1110 that waits in the IOCC is reported by the first
reload from a tag and is then gone, where R911 calls it a host event. The DMA clauses are about the operation that a granted
request comes to, for every channel and whatever master enable is: that level 15 and a disabled IOCC make no such request (R901,
R960) is not said here. -/
def Obligations.IoccFacilities : Prop :=
  (∀ (s : State) (x : Iocc) (l : List Iocc) (r ra : RegNum) (d : BitVec 16), s.ioccs = x :: l → x.delay = 0 →
    x.fault = 0 → s.Canonical →
    let ea := s.eaD ra d
    let a := (bitsAt ea 4 28).toNat
    let sr := s.segmentOf ea
    let loads (v : Word) : Prop := Completes (.l r ra d) s fun t =>
      t.reg r = v ∧ (∀ q, q ≠ r → t.reg q = s.reg q) ∧ t = { s with gpr := t.gpr, pc := s.pc + 4 }
    let stores (y : Iocc) : Prop := exec (.st r ra d) s = .next { s with ioccs := y :: l, pc := s.pc + 4 }
    let v := s.reg r
    bitAt sr 0 = true → bitsAt sr 4 8 = 0x20 → sr &&& 0x3003FF10 = 0 → isTimeDelay s sr ea = false →
    (bitAt sr 24 = true → bitAt sr 1 = false →
      (a = 0x0400010 → loads x.cfgReg)
      ∧ (a = 0x0400080 → stores { x with en := v.extractLsb' 16 16 })
      ∧ (let p := (bitsAt ea 10 20).toNat
         let code := (bitsAt x.cfgReg 9 3).toNat
         let n := if bitAt x.cfgReg 25 then 8 * 1024 * 2 ^ code else (32 * 2 ^ code - 8) * 1024
         bitsAt ea 8 2 = 3 → bitsAt ea 30 2 = 0 → bitsAt x.cfgReg 26 2 = 0 → (bitAt x.cfgReg 25 = true ∨ code < 6) →
          (p < n → bitAt x.cfgReg 23 = false →
            loads (cellRead 0 x.tcw p) ∧ stores { x with tcw := cellWrite 0 x.tcw p v })
          ∧ (n ≤ p → bitsAt (x.csr 15) 0 4 = 0 → s.cfg.devInvopLost = false → Completes (.l r ra d) s fun t =>
            bitsAt t.dsisr 0 15 = 0b100000000000000 ∧ t.gpr = s.gpr ∧ bitsAt ((t.iocc 0).csr 15) 0 4 = 1))
      ∧ (∀ j, j < 8192 → a = 0x0800000 + 4 * j → bitAt x.cfgReg 23 = false →
          loads (cellRead 0 x.tag j) ∧ stores { x with tag := cellWrite 0 x.tag j v })
      ∧ (∀ o, a = 0x0A00000 + 4 * o → 4 * o + 4 ≤ s.cfg.nvramBytes → 4 * o < 0x200000 →
          let byte (t : State) (i : Nat) : Byte := cellRead 0 t.nvram i
          loads ((byte s (4 * o) ++ byte s (4 * o + 1)) ++ (byte s (4 * o + 2) ++ byte s (4 * o + 3)))
          ∧ Completes (.st r ra d) s fun t =>
            (List.range 4).map (fun i => byte t (4 * o + i)) = wordBytes v
              ∧ (∀ i, i < 4 * o ∨ 4 * o + 4 ≤ i → byte t i = byte s i)
              ∧ t = { s with nvram := t.nvram, pc := s.pc + 4 })
      ∧ (∀ c, bitsAt ea 8 2 ≠ 3 → (a < 0x0400090 ∨ 0x0400100 ≤ a ∧ a < 0x0800000) → iocRegAt (a / 4 * 4) = none →
          lostAt s.cfg.lost (bitsAt ea 4 28) = some (.channelReg, c) →
          (bitsAt ea 28 4 = 0 →
            Completes (.l r ra d) s (fun t =>
              t.reg r = x.csr c ∧ (∀ q, q ≠ r → t.reg q = s.reg q)
                ∧ t = { s with gpr := t.gpr, csrTouched := true, pc := s.pc + 4 })
            ∧ exec (.st r ra d) s =
              .next { s with ioccs := x.setCsr c v :: l, csrTouched := true, pc := s.pc + 4 })
          ∧ (bitsAt ea 28 4 = 4 → loads (x.reg4 c) ∧ stores (x.setReg4 c v))))
    ∧ (bitAt sr 24 = true → bitAt sr 1 = true → ea.toNat % 4 = 0 → Completes (.l r ra d) s fun t =>
        bitsAt t.dsisr 0 15 = 0b100000000000000 ∧ t.dar = ea ∧ t.srr0 = wordAlign s.pc
          ∧ t.pc = (if s.msrIP then 0xFFF00300 else 0x300) ∧ t.gpr = s.gpr)
    ∧ (∀ (slot : BitVec 4) (b0 b1 b2 b3 : Byte) (rest : List BusAnswer),
        let ba : Word := bitsAt sr 28 4 ++ bitsAt ea 4 28
        bitAt sr 24 = false → bitAt sr 25 = false → bitAt sr 1 = false → bitsAt (x.csr 15) 0 4 = 0 →
        ba.toNat < 0x10000 → ea.toNat % 4 = 0 → x.allHeld .io ba = false → x.slotHeld slot = false →
        s.busIn = ⟨slot, .word, .data [b0, b1, b2, b3]⟩ :: rest →
        Completes (.l r ra d) s fun t =>
          t.reg r = (b0 ++ b1) ++ (b2 ++ b3) ∧ (∀ q, q ≠ r → t.reg q = s.reg q)
            ∧ t = { s with
              gpr := t.gpr, busIn := rest, busLog := ⟨0, .io, ba, false, true, [b0, b1, b2, b3]⟩ :: s.busLog
              draws := t.draws, pc := s.pc + 4 }))
  ∧ (∀ (s : State) (x : Iocc) (l : List Iocc) (c : BitVec 4) (v : Byte), s.ioccs = x :: l → s.Canonical →
    let w := x.csr c
    let a := x.reg4 c
    let count := bitsAt w 20 12
    let moves (u : State) : Prop :=
      if bitAt w 7 then u.dataByte a = v ∧ ∀ b, b ≠ a → u.dataByte b = s.dataByte b
      else s.SameMemory u ∧ (⟨0, .io, a, true, true, [s.dataByte a]⟩ : BusEvent) ∈ u.busLog
    bitsAt x.cfgReg 25 3 = 1 → bitsAt w 0 2 = 0 → bitAt w 3 = true → bitAt w 4 = true → bitAt w 5 = true →
    s.Readable a 1 → s.NoRom a 1 →
    ∃ u, (∀ pause, slaveRequest 0 c 1 [v] pause s = .ok u) ∧ moves u
      ∧ (count ≠ 0 → (a.toNat + 1) % 4096 ≠ 0 → u.ioccs = (x.setReg4 c (a + 1)).setCsr c (w - 1) :: l)
      ∧ (count = 0 → bitsAt w 8 12 = 0xFFF → bitAt ((u.iocc 0).csr c) 3 = false ∧ (u.iocc 0).reg4 c = a + 1
        ∧ (⟨0, .terminalCount, c.setWidth 32, false, true, []⟩ : BusEvent) ∈ u.busLog)
      ∧ (count = 0 → bitsAt w 8 12 ≠ 0xFFF → x.fault = 0b1110 →
        bitsAt ((u.iocc 0).csr c) 0 4 = 0b1110 ∧ bitsAt ((u.iocc 0).csr c) 4 16 = bitsAt w 4 16
          ∧ bitsAt ((u.iocc 0).csr c) 20 12 = 0xFFF ∧ (u.iocc 0).reg4 c = a + 1 ∧ (u.iocc 0).fault = 0
          ∧ (⟨0, .terminalCount, c.setWidth 32, false, true, []⟩ : BusEvent) ∈ u.busLog)
      ∧ (count = 0 → bitsAt w 8 12 ≠ 0xFFF → x.fault ≠ 0b1110 → bitAt x.cfgReg 23 = false →
        let j := (bitsAt w 8 12).toNat
        bitsAt ((u.iocc 0).csr c) 0 5 = bitsAt w 0 5
          ∧ bitsAt ((u.iocc 0).csr c) 5 27 = bitsAt (cellRead 0 x.tag (2 * j)) 5 27
          ∧ (u.iocc 0).reg4 c = cellRead 0 x.tag (2 * j + 1)))
end

