-- ==== Sys2Proof/Laws/Bits.lean ====
section
/-!
SUPPORT. Reading a bit or a field after writing one, in IBM numbering.
-/

namespace Sys2Proof.Machine

theorem bitAt_eq (v : Word) {i : Nat} (hi : i < 32) : bitAt v i = v.getLsbD (31 - i) := by
  simp [bitAt, BitVec.getMsbD, hi]

/-- Two words with the same 32 bits are the same word. -/
theorem eq_of_bitAt {v w : Word} (h : ∀ i, i < 32 → bitAt v i = bitAt w i) : v = w := by
  apply BitVec.eq_of_getMsbD_eq
  intro i hi
  exact h i hi

@[simp] theorem bitAt_and (v w : Word) (i : Nat) : bitAt (v &&& w) i = (bitAt v i && bitAt w i) :=
  BitVec.getMsbD_and

@[simp] theorem bitAt_or (v w : Word) (i : Nat) : bitAt (v ||| w) i = (bitAt v i || bitAt w i) :=
  BitVec.getMsbD_or

theorem bitAt_not (v : Word) {i : Nat} (hi : i < 32) : bitAt (~~~v) i = !bitAt v i := by
  simp [bitAt, BitVec.getMsbD_not, hi]

@[simp] theorem bitAt_zero (i : Nat) : bitAt 0 i = false := BitVec.getMsbD_zero

theorem bitAt_bitMask {i : Nat} (hi : i < 32) (j : Nat) : bitAt (bitMask i) j = decide (i = j) := by
  by_cases hj : j < 32
  · rw [bitAt_eq _ hj]
    unfold bitMask
    rw [BitVec.getLsbD_shiftLeft, BitVec.getLsbD_one]
    by_cases h : i = j
    · subst h; simp; omega
    · simp only [h, decide_false]
      simp; omega
  · have : i ≠ j := by omega
    simp only [this, decide_false]
    unfold bitAt
    exact BitVec.getMsbD_of_ge _ _ (by omega)

/-- A bit after one has been replaced. -/
theorem bitAt_setBit (v : Word) {i j : Nat} (hi : i < 32) (hj : j < 32) (b : Bool) :
    bitAt (setBit v i b) j = if i = j then b else bitAt v j := by
  unfold setBit
  cases b
  · by_cases h : i = j <;> simp [bitAt_not, bitAt_bitMask, hi, hj, h]
  · by_cases h : i = j <;> simp [bitAt_bitMask, hi, hj, h]

@[simp] theorem bitAt_setBit_self (v : Word) {i : Nat} (hi : i < 32) (b : Bool) : bitAt (setBit v i b) i = b := by
  rw [bitAt_setBit v hi hi, if_pos rfl]

theorem bitAt_setBit_of_ne (v : Word) {i j : Nat} (hi : i < 32) (hj : j < 32) (h : i ≠ j) (b : Bool) :
    bitAt (setBit v i b) j = bitAt v j := by
  rw [bitAt_setBit v hi hj, if_neg h]

/-- Bit j of the ones of n bits from bit i on. -/
theorem bitAt_fieldMask {i n : Nat} (h : i + n ≤ 32) (j : Nat) :
    bitAt (fieldMask i n) j = (decide (i ≤ j) && decide (j < i + n)) := by
  by_cases hj : j < 32
  · rw [bitAt_eq _ hj]
    unfold fieldMask
    rw [BitVec.getLsbD_shiftLeft, BitVec.getLsbD_setWidth, BitVec.getLsbD_allOnes]
    by_cases h1 : i ≤ j <;> by_cases h2 : j < i + n <;> simp [h1, h2] <;> omega
  · have : ¬ j < i + n := by omega
    simp only [this, decide_false, Bool.and_false]
    unfold bitAt
    exact BitVec.getMsbD_of_ge _ _ (by omega)

/-- Bit j of a field. -/
theorem getMsbD_bitsAt (v : Word) {i n : Nat} (h : i + n ≤ 32) {j : Nat} (hj : j < n) :
    (bitsAt v i n).getMsbD j = bitAt v (i + j) := by
  rw [bitAt_eq v (by omega)]
  unfold bitsAt
  rw [BitVec.getMsbD_eq_getLsbD, BitVec.getLsbD_extractLsb']
  have h2 : 32 - i - n + (n - 1 - j) = 31 - (i + j) := by omega
  have h3 : n - 1 - j < n := by omega
  simp [hj, h2, h3]

/-- A bit after a field has been replaced. -/
theorem bitAt_setBits (v : Word) {i n : Nat} (h : i + n ≤ 32) (f : BitVec n) {j : Nat} (hj : j < 32) :
    bitAt (setBits v i n f) j = if i ≤ j ∧ j < i + n then f.getMsbD (j - i) else bitAt v j := by
  unfold setBits
  rw [bitAt_or, bitAt_and, bitAt_not _ hj, bitAt_fieldMask h]
  have hf : bitAt (f.setWidth 32 <<< (32 - i - n)) j = (decide (i ≤ j) && (decide (j < i + n) && f.getMsbD (j - i))) := by
    rw [bitAt_eq _ hj, BitVec.getLsbD_shiftLeft, BitVec.getLsbD_setWidth]
    by_cases h1 : i ≤ j <;> by_cases h2 : j < i + n
    · have h3 : 31 - j - (32 - i - n) = n - 1 - (j - i) := by omega
      have h4 : ¬ 31 - j < 32 - i - n := by omega
      have h5 : j - i < n := by omega
      have h6 : 31 - j < 32 := by omega
      have h7 : n - 1 - (j - i) < 32 := by omega
      rw [BitVec.getMsbD_eq_getLsbD]
      simp [h1, h2, h3, h4, h5, h6, h7]
    · have : 31 - j < 32 - i - n := by omega
      simp [h1, h2, this]
    · have h3 : f.getLsbD (31 - j - (32 - i - n)) = false := BitVec.getLsbD_of_ge f _ (by omega)
      simp [h1, h3]
    · omega
  rw [hf]
  by_cases h1 : i ≤ j <;> by_cases h2 : j < i + n <;> simp [h1, h2]

/-- The field that was replaced. -/
theorem bitsAt_setBits (v : Word) {i n : Nat} (h : i + n ≤ 32) (f : BitVec n) : bitsAt (setBits v i n f) i n = f := by
  apply BitVec.eq_of_getMsbD_eq
  intro j hj
  rw [getMsbD_bitsAt _ h hj, bitAt_setBits v h f (by omega), if_pos ⟨by omega, by omega⟩, Nat.add_sub_cancel_left]

/-- A field that does not meet the one that was replaced. -/
theorem bitsAt_setBits_of_disjoint (v : Word) {i n k m : Nat} (h : i + n ≤ 32) (hk : k + m ≤ 32) (f : BitVec n)
    (hd : i + n ≤ k ∨ k + m ≤ i) : bitsAt (setBits v i n f) k m = bitsAt v k m := by
  apply BitVec.eq_of_getMsbD_eq
  intro j hj
  rw [getMsbD_bitsAt _ hk hj, getMsbD_bitsAt _ hk hj, bitAt_setBits v h f (by omega), if_neg (by omega)]

/-- Bits under a mask that does not name the replaced bit. -/
theorem setBit_and (v m : Word) {i : Nat} (hi : i < 32) (hm : bitAt m i = false) (b : Bool) :
    setBit v i b &&& m = v &&& m := by
  apply eq_of_bitAt
  intro j hj
  rw [bitAt_and, bitAt_and, bitAt_setBit v hi hj]
  by_cases h : i = j
  · subst h; simp [hm]
  · simp [h]

/-- A replaced bit of a word that lies within a mask that names it stays within. -/
theorem setBit_within {v m : Word} (h : v &&& m = v) {i : Nat} (hi : i < 32) (hm : bitAt m i = true) (b : Bool) :
    setBit v i b &&& m = setBit v i b := by
  apply eq_of_bitAt
  intro j hj
  rw [bitAt_and, bitAt_setBit v hi hj]
  by_cases e : i = j
  · subst e; simp [hm]
  · have := congrArg (fun w => bitAt w j) h
    simp only [bitAt_and] at this
    simp only [if_neg e, this]

/-- A replaced field of a word that lies within a mask stays within, where the mask covers the field's ones. -/
theorem setBits_within {v m : Word} (h : v &&& m = v) {i n : Nat} (hi : i + n ≤ 32) (f : BitVec n)
    (hm : ∀ j, i ≤ j → j < i + n → f.getMsbD (j - i) = true → bitAt m j = true) :
    setBits v i n f &&& m = setBits v i n f := by
  apply eq_of_bitAt
  intro j hj
  rw [bitAt_and, bitAt_setBits v hi f hj]
  split
  · next hr =>
    cases hb : f.getMsbD (j - i) with
    | false => rfl
    | true => simp [hm j hr.1 hr.2 hb]
  · have := congrArg (fun w => bitAt w j) h
    simpa only [bitAt_and] using this

/-! ### The condition register (R8) -/

theorem CrField.bound (n : CrField) : 4 * n.toNat + 4 ≤ 32 := by have := n.isLt; omega

@[simp] theorem State.crField_setCrField_self (s : State) (n : CrField) (v : BitVec 4) :
    (s.setCrField n v).crField n = v :=
  bitsAt_setBits s.cr (CrField.bound n) v

theorem State.crField_setCrField_of_ne (s : State) {n m : CrField} (v : BitVec 4) (h : m ≠ n) :
    (s.setCrField n v).crField m = s.crField m := by
  have hne : m.toNat ≠ n.toNat := fun e => h (BitVec.eq_of_toNat_eq e)
  exact bitsAt_setBits_of_disjoint s.cr (CrField.bound n) (CrField.bound m) v (by omega)

theorem State.crBit_setCrBit (s : State) (i j : BitVec 5) (v : Bool) :
    (s.setCrBit i v).crBit j = if j = i then v else s.crBit j := by
  refine (bitAt_setBit s.cr i.isLt j.isLt v).trans ?_
  by_cases h : j = i
  · rw [if_pos h, if_pos (by rw [h])]
  · rw [if_neg h, if_neg fun e => h (BitVec.eq_of_toNat_eq e.symm)]; rfl

end Sys2Proof.Machine
end

