-- ==== Sys2Proof/Laws/State.lean ====
section
/-!
SUPPORT. What each named update of the state does to each field, and to the reads that proofs use: one lemma per field
per update, true by rfl, so that no later proof unfolds a record update. Then reading a register after writing one.
-/

namespace Sys2Proof.Machine

/-! ### setReg -/

@[simp] theorem State.setReg_cfg (s : State) (r : RegNum) (v : Word) :
    (s.setReg r v).cfg = s.cfg := rfl
@[simp] theorem State.setReg_gpr (s : State) (r : RegNum) (v : Word) :
    (s.setReg r v).gpr = s.gpr.set r.toNat v r.isLt := rfl
@[simp] theorem State.setReg_mq (s : State) (r : RegNum) (v : Word) :
    (s.setReg r v).mq = s.mq := rfl
@[simp] theorem State.setReg_xer (s : State) (r : RegNum) (v : Word) :
    (s.setReg r v).xer = s.xer := rfl
@[simp] theorem State.setReg_pc (s : State) (r : RegNum) (v : Word) :
    (s.setReg r v).pc = s.pc := rfl
@[simp] theorem State.setReg_cr (s : State) (r : RegNum) (v : Word) :
    (s.setReg r v).cr = s.cr := rfl
@[simp] theorem State.setReg_lr (s : State) (r : RegNum) (v : Word) :
    (s.setReg r v).lr = s.lr := rfl
@[simp] theorem State.setReg_ctr (s : State) (r : RegNum) (v : Word) :
    (s.setReg r v).ctr = s.ctr := rfl
@[simp] theorem State.setReg_msr (s : State) (r : RegNum) (v : Word) :
    (s.setReg r v).msr = s.msr := rfl
@[simp] theorem State.setReg_srr0 (s : State) (r : RegNum) (v : Word) :
    (s.setReg r v).srr0 = s.srr0 := rfl
@[simp] theorem State.setReg_srr1 (s : State) (r : RegNum) (v : Word) :
    (s.setReg r v).srr1 = s.srr1 := rfl
@[simp] theorem State.setReg_dsisr (s : State) (r : RegNum) (v : Word) :
    (s.setReg r v).dsisr = s.dsisr := rfl
@[simp] theorem State.setReg_dar (s : State) (r : RegNum) (v : Word) :
    (s.setReg r v).dar = s.dar := rfl
@[simp] theorem State.setReg_fpr (s : State) (r : RegNum) (v : Word) :
    (s.setReg r v).fpr = s.fpr := rfl
@[simp] theorem State.setReg_fpscr (s : State) (r : RegNum) (v : Word) :
    (s.setReg r v).fpscr = s.fpscr := rfl
@[simp] theorem State.setReg_fpRecent (s : State) (r : RegNum) (v : Word) :
    (s.setReg r v).fpRecent = s.fpRecent := rfl
@[simp] theorem State.setReg_fpiWait (s : State) (r : RegNum) (v : Word) :
    (s.setReg r v).fpiWait = s.fpiWait := rfl
@[simp] theorem State.setReg_sr (s : State) (r : RegNum) (v : Word) :
    (s.setReg r v).sr = s.sr := rfl
@[simp] theorem State.setReg_sdr0 (s : State) (r : RegNum) (v : Word) :
    (s.setReg r v).sdr0 = s.sdr0 := rfl
@[simp] theorem State.setReg_sdr1 (s : State) (r : RegNum) (v : Word) :
    (s.setReg r v).sdr1 = s.sdr1 := rfl
@[simp] theorem State.setReg_sdrBefore (s : State) (r : RegNum) (v : Word) :
    (s.setReg r v).sdrBefore = s.sdrBefore := rfl
@[simp] theorem State.setReg_tid (s : State) (r : RegNum) (v : Word) :
    (s.setReg r v).tid = s.tid := rfl
@[simp] theorem State.setReg_rtcu (s : State) (r : RegNum) (v : Word) :
    (s.setReg r v).rtcu = s.rtcu := rfl
@[simp] theorem State.setReg_rtcl (s : State) (r : RegNum) (v : Word) :
    (s.setReg r v).rtcl = s.rtcl := rfl
@[simp] theorem State.setReg_dec (s : State) (r : RegNum) (v : Word) :
    (s.setReg r v).dec = s.dec := rfl
@[simp] theorem State.setReg_eim (s : State) (r : RegNum) (v : Word) :
    (s.setReg r v).eim = s.eim := rfl
@[simp] theorem State.setReg_eis (s : State) (r : RegNum) (v : Word) :
    (s.setReg r v).eis = s.eis := rfl
@[simp] theorem State.setReg_cil (s : State) (r : RegNum) (v : Word) :
    (s.setReg r v).cil = s.cil := rfl
@[simp] theorem State.setReg_eisbidDec (s : State) (r : RegNum) (v : Word) :
    (s.setReg r v).eisbidDec = s.eisbidDec := rfl
@[simp] theorem State.setReg_eisbidCheck (s : State) (r : RegNum) (v : Word) :
    (s.setReg r v).eisbidCheck = s.eisbidCheck := rfl
@[simp] theorem State.setReg_eisbidEpow (s : State) (r : RegNum) (v : Word) :
    (s.setReg r v).eisbidEpow = s.eisbidEpow := rfl
@[simp] theorem State.setReg_ilcrSettle (s : State) (r : RegNum) (v : Word) :
    (s.setReg r v).ilcrSettle = s.ilcrSettle := rfl
@[simp] theorem State.setReg_mem (s : State) (r : RegNum) (v : Word) :
    (s.setReg r v).mem = s.mem := rfl
@[simp] theorem State.setReg_dc (s : State) (r : RegNum) (v : Word) :
    (s.setReg r v).dc = s.dc := rfl
@[simp] theorem State.setReg_ic (s : State) (r : RegNum) (v : Word) :
    (s.setReg r v).ic = s.ic := rfl
@[simp] theorem State.setReg_pf (s : State) (r : RegNum) (v : Word) :
    (s.setReg r v).pf = s.pf := rfl
@[simp] theorem State.setReg_wb (s : State) (r : RegNum) (v : Word) :
    (s.setReg r v).wb = s.wb := rfl
@[simp] theorem State.setReg_tlb (s : State) (r : RegNum) (v : Word) :
    (s.setReg r v).tlb = s.tlb := rfl
@[simp] theorem State.setReg_sysReset (s : State) (r : RegNum) (v : Word) :
    (s.setReg r v).sysReset = s.sysReset := rfl
@[simp] theorem State.setReg_machineCheck (s : State) (r : RegNum) (v : Word) :
    (s.setReg r v).machineCheck = s.machineCheck := rfl
@[simp] theorem State.setReg_checkstopped (s : State) (r : RegNum) (v : Word) :
    (s.setReg r v).checkstopped = s.checkstopped := rfl
@[simp] theorem State.setReg_ioccs (s : State) (r : RegNum) (v : Word) :
    (s.setReg r v).ioccs = s.ioccs := rfl
@[simp] theorem State.setReg_nvram (s : State) (r : RegNum) (v : Word) :
    (s.setReg r v).nvram = s.nvram := rfl
@[simp] theorem State.setReg_keylock (s : State) (r : RegNum) (v : Word) :
    (s.setReg r v).keylock = s.keylock := rfl
@[simp] theorem State.setReg_busIn (s : State) (r : RegNum) (v : Word) :
    (s.setReg r v).busIn = s.busIn := rfl
@[simp] theorem State.setReg_busLog (s : State) (r : RegNum) (v : Word) :
    (s.setReg r v).busLog = s.busLog := rfl
@[simp] theorem State.setReg_agenda (s : State) (r : RegNum) (v : Word) :
    (s.setReg r v).agenda = s.agenda := rfl
@[simp] theorem State.setReg_ticksRun (s : State) (r : RegNum) (v : Word) :
    (s.setReg r v).ticksRun = s.ticksRun := rfl
@[simp] theorem State.setReg_stepsRun (s : State) (r : RegNum) (v : Word) :
    (s.setReg r v).stepsRun = s.stepsRun := rfl
@[simp] theorem State.setReg_draws (s : State) (r : RegNum) (v : Word) :
    (s.setReg r v).draws = s.draws := rfl
@[simp] theorem State.setReg_lastCsr (s : State) (r : RegNum) (v : Word) :
    (s.setReg r v).lastCsr = s.lastCsr := rfl
@[simp] theorem State.setReg_csrTouched (s : State) (r : RegNum) (v : Word) :
    (s.setReg r v).csrTouched = s.csrTouched := rfl
@[simp] theorem State.setReg_entered (s : State) (r : RegNum) (v : Word) :
    (s.setReg r v).entered = s.entered := rfl
@[simp] theorem State.setReg_read_freg (s : State) (r : RegNum) (v : Word) (q : RegNum) :
    (s.setReg r v).freg q = s.freg q := rfl
@[simp] theorem State.setReg_read_segment (s : State) (r : RegNum) (v : Word) (m : BitVec 4) :
    (s.setReg r v).segment m = s.segment m := rfl
@[simp] theorem State.setReg_read_isIo (s : State) (r : RegNum) (v : Word) (ea : Word) :
    (s.setReg r v).isIo ea = s.isIo ea := rfl
@[simp] theorem State.setReg_read_crField (s : State) (r : RegNum) (v : Word) (f : CrField) :
    (s.setReg r v).crField f = s.crField f := rfl
@[simp] theorem State.setReg_read_xerSO (s : State) (r : RegNum) (v : Word) :
    (s.setReg r v).xerSO = s.xerSO := rfl
@[simp] theorem State.setReg_read_xerCA (s : State) (r : RegNum) (v : Word) :
    (s.setReg r v).xerCA = s.xerCA := rfl
@[simp] theorem State.setReg_read_msrPR (s : State) (r : RegNum) (v : Word) :
    (s.setReg r v).msrPR = s.msrPR := rfl
@[simp] theorem State.setReg_read_msrFP (s : State) (r : RegNum) (v : Word) :
    (s.setReg r v).msrFP = s.msrFP := rfl
@[simp] theorem State.setReg_read_msrFE (s : State) (r : RegNum) (v : Word) :
    (s.setReg r v).msrFE = s.msrFE := rfl
@[simp] theorem State.setReg_read_msrAL (s : State) (r : RegNum) (v : Word) :
    (s.setReg r v).msrAL = s.msrAL := rfl
@[simp] theorem State.setReg_read_msrDR (s : State) (r : RegNum) (v : Word) :
    (s.setReg r v).msrDR = s.msrDR := rfl
@[simp] theorem State.setReg_read_fex (s : State) (r : RegNum) (v : Word) :
    (s.setReg r v).fex = s.fex := rfl
@[simp] theorem State.setReg_read_dataByte (s : State) (r : RegNum) (v : Word) (b : Word) :
    (s.setReg r v).dataByte b = s.dataByte b := rfl

/-! ### setFreg -/

@[simp] theorem State.setFreg_cfg (s : State) (r : RegNum) (v : DWord) :
    (s.setFreg r v).cfg = s.cfg := rfl
@[simp] theorem State.setFreg_gpr (s : State) (r : RegNum) (v : DWord) :
    (s.setFreg r v).gpr = s.gpr := rfl
@[simp] theorem State.setFreg_mq (s : State) (r : RegNum) (v : DWord) :
    (s.setFreg r v).mq = s.mq := rfl
@[simp] theorem State.setFreg_xer (s : State) (r : RegNum) (v : DWord) :
    (s.setFreg r v).xer = s.xer := rfl
@[simp] theorem State.setFreg_pc (s : State) (r : RegNum) (v : DWord) :
    (s.setFreg r v).pc = s.pc := rfl
@[simp] theorem State.setFreg_cr (s : State) (r : RegNum) (v : DWord) :
    (s.setFreg r v).cr = s.cr := rfl
@[simp] theorem State.setFreg_lr (s : State) (r : RegNum) (v : DWord) :
    (s.setFreg r v).lr = s.lr := rfl
@[simp] theorem State.setFreg_ctr (s : State) (r : RegNum) (v : DWord) :
    (s.setFreg r v).ctr = s.ctr := rfl
@[simp] theorem State.setFreg_msr (s : State) (r : RegNum) (v : DWord) :
    (s.setFreg r v).msr = s.msr := rfl
@[simp] theorem State.setFreg_srr0 (s : State) (r : RegNum) (v : DWord) :
    (s.setFreg r v).srr0 = s.srr0 := rfl
@[simp] theorem State.setFreg_srr1 (s : State) (r : RegNum) (v : DWord) :
    (s.setFreg r v).srr1 = s.srr1 := rfl
@[simp] theorem State.setFreg_dsisr (s : State) (r : RegNum) (v : DWord) :
    (s.setFreg r v).dsisr = s.dsisr := rfl
@[simp] theorem State.setFreg_dar (s : State) (r : RegNum) (v : DWord) :
    (s.setFreg r v).dar = s.dar := rfl
@[simp] theorem State.setFreg_fpr (s : State) (r : RegNum) (v : DWord) :
    (s.setFreg r v).fpr = s.fpr.set r.toNat v r.isLt := rfl
@[simp] theorem State.setFreg_fpscr (s : State) (r : RegNum) (v : DWord) :
    (s.setFreg r v).fpscr = s.fpscr := rfl
@[simp] theorem State.setFreg_fpRecent (s : State) (r : RegNum) (v : DWord) :
    (s.setFreg r v).fpRecent = s.fpRecent.filter fun e => e.1 != r := rfl
@[simp] theorem State.setFreg_fpiWait (s : State) (r : RegNum) (v : DWord) :
    (s.setFreg r v).fpiWait = s.fpiWait := rfl
@[simp] theorem State.setFreg_sr (s : State) (r : RegNum) (v : DWord) :
    (s.setFreg r v).sr = s.sr := rfl
@[simp] theorem State.setFreg_sdr0 (s : State) (r : RegNum) (v : DWord) :
    (s.setFreg r v).sdr0 = s.sdr0 := rfl
@[simp] theorem State.setFreg_sdr1 (s : State) (r : RegNum) (v : DWord) :
    (s.setFreg r v).sdr1 = s.sdr1 := rfl
@[simp] theorem State.setFreg_sdrBefore (s : State) (r : RegNum) (v : DWord) :
    (s.setFreg r v).sdrBefore = s.sdrBefore := rfl
@[simp] theorem State.setFreg_tid (s : State) (r : RegNum) (v : DWord) :
    (s.setFreg r v).tid = s.tid := rfl
@[simp] theorem State.setFreg_rtcu (s : State) (r : RegNum) (v : DWord) :
    (s.setFreg r v).rtcu = s.rtcu := rfl
@[simp] theorem State.setFreg_rtcl (s : State) (r : RegNum) (v : DWord) :
    (s.setFreg r v).rtcl = s.rtcl := rfl
@[simp] theorem State.setFreg_dec (s : State) (r : RegNum) (v : DWord) :
    (s.setFreg r v).dec = s.dec := rfl
@[simp] theorem State.setFreg_eim (s : State) (r : RegNum) (v : DWord) :
    (s.setFreg r v).eim = s.eim := rfl
@[simp] theorem State.setFreg_eis (s : State) (r : RegNum) (v : DWord) :
    (s.setFreg r v).eis = s.eis := rfl
@[simp] theorem State.setFreg_cil (s : State) (r : RegNum) (v : DWord) :
    (s.setFreg r v).cil = s.cil := rfl
@[simp] theorem State.setFreg_eisbidDec (s : State) (r : RegNum) (v : DWord) :
    (s.setFreg r v).eisbidDec = s.eisbidDec := rfl
@[simp] theorem State.setFreg_eisbidCheck (s : State) (r : RegNum) (v : DWord) :
    (s.setFreg r v).eisbidCheck = s.eisbidCheck := rfl
@[simp] theorem State.setFreg_eisbidEpow (s : State) (r : RegNum) (v : DWord) :
    (s.setFreg r v).eisbidEpow = s.eisbidEpow := rfl
@[simp] theorem State.setFreg_ilcrSettle (s : State) (r : RegNum) (v : DWord) :
    (s.setFreg r v).ilcrSettle = s.ilcrSettle := rfl
@[simp] theorem State.setFreg_mem (s : State) (r : RegNum) (v : DWord) :
    (s.setFreg r v).mem = s.mem := rfl
@[simp] theorem State.setFreg_dc (s : State) (r : RegNum) (v : DWord) :
    (s.setFreg r v).dc = s.dc := rfl
@[simp] theorem State.setFreg_ic (s : State) (r : RegNum) (v : DWord) :
    (s.setFreg r v).ic = s.ic := rfl
@[simp] theorem State.setFreg_pf (s : State) (r : RegNum) (v : DWord) :
    (s.setFreg r v).pf = s.pf := rfl
@[simp] theorem State.setFreg_wb (s : State) (r : RegNum) (v : DWord) :
    (s.setFreg r v).wb = s.wb := rfl
@[simp] theorem State.setFreg_tlb (s : State) (r : RegNum) (v : DWord) :
    (s.setFreg r v).tlb = s.tlb := rfl
@[simp] theorem State.setFreg_sysReset (s : State) (r : RegNum) (v : DWord) :
    (s.setFreg r v).sysReset = s.sysReset := rfl
@[simp] theorem State.setFreg_machineCheck (s : State) (r : RegNum) (v : DWord) :
    (s.setFreg r v).machineCheck = s.machineCheck := rfl
@[simp] theorem State.setFreg_checkstopped (s : State) (r : RegNum) (v : DWord) :
    (s.setFreg r v).checkstopped = s.checkstopped := rfl
@[simp] theorem State.setFreg_ioccs (s : State) (r : RegNum) (v : DWord) :
    (s.setFreg r v).ioccs = s.ioccs := rfl
@[simp] theorem State.setFreg_nvram (s : State) (r : RegNum) (v : DWord) :
    (s.setFreg r v).nvram = s.nvram := rfl
@[simp] theorem State.setFreg_keylock (s : State) (r : RegNum) (v : DWord) :
    (s.setFreg r v).keylock = s.keylock := rfl
@[simp] theorem State.setFreg_busIn (s : State) (r : RegNum) (v : DWord) :
    (s.setFreg r v).busIn = s.busIn := rfl
@[simp] theorem State.setFreg_busLog (s : State) (r : RegNum) (v : DWord) :
    (s.setFreg r v).busLog = s.busLog := rfl
@[simp] theorem State.setFreg_agenda (s : State) (r : RegNum) (v : DWord) :
    (s.setFreg r v).agenda = s.agenda := rfl
@[simp] theorem State.setFreg_ticksRun (s : State) (r : RegNum) (v : DWord) :
    (s.setFreg r v).ticksRun = s.ticksRun := rfl
@[simp] theorem State.setFreg_stepsRun (s : State) (r : RegNum) (v : DWord) :
    (s.setFreg r v).stepsRun = s.stepsRun := rfl
@[simp] theorem State.setFreg_draws (s : State) (r : RegNum) (v : DWord) :
    (s.setFreg r v).draws = s.draws := rfl
@[simp] theorem State.setFreg_lastCsr (s : State) (r : RegNum) (v : DWord) :
    (s.setFreg r v).lastCsr = s.lastCsr := rfl
@[simp] theorem State.setFreg_csrTouched (s : State) (r : RegNum) (v : DWord) :
    (s.setFreg r v).csrTouched = s.csrTouched := rfl
@[simp] theorem State.setFreg_entered (s : State) (r : RegNum) (v : DWord) :
    (s.setFreg r v).entered = s.entered := rfl
@[simp] theorem State.setFreg_read_reg (s : State) (r : RegNum) (v : DWord) (q : RegNum) :
    (s.setFreg r v).reg q = s.reg q := rfl
@[simp] theorem State.setFreg_read_segment (s : State) (r : RegNum) (v : DWord) (m : BitVec 4) :
    (s.setFreg r v).segment m = s.segment m := rfl
@[simp] theorem State.setFreg_read_isIo (s : State) (r : RegNum) (v : DWord) (ea : Word) :
    (s.setFreg r v).isIo ea = s.isIo ea := rfl
@[simp] theorem State.setFreg_read_crField (s : State) (r : RegNum) (v : DWord) (f : CrField) :
    (s.setFreg r v).crField f = s.crField f := rfl
@[simp] theorem State.setFreg_read_xerSO (s : State) (r : RegNum) (v : DWord) :
    (s.setFreg r v).xerSO = s.xerSO := rfl
@[simp] theorem State.setFreg_read_xerCA (s : State) (r : RegNum) (v : DWord) :
    (s.setFreg r v).xerCA = s.xerCA := rfl
@[simp] theorem State.setFreg_read_msrPR (s : State) (r : RegNum) (v : DWord) :
    (s.setFreg r v).msrPR = s.msrPR := rfl
@[simp] theorem State.setFreg_read_msrFP (s : State) (r : RegNum) (v : DWord) :
    (s.setFreg r v).msrFP = s.msrFP := rfl
@[simp] theorem State.setFreg_read_msrFE (s : State) (r : RegNum) (v : DWord) :
    (s.setFreg r v).msrFE = s.msrFE := rfl
@[simp] theorem State.setFreg_read_msrAL (s : State) (r : RegNum) (v : DWord) :
    (s.setFreg r v).msrAL = s.msrAL := rfl
@[simp] theorem State.setFreg_read_msrDR (s : State) (r : RegNum) (v : DWord) :
    (s.setFreg r v).msrDR = s.msrDR := rfl
@[simp] theorem State.setFreg_read_fex (s : State) (r : RegNum) (v : DWord) :
    (s.setFreg r v).fex = s.fex := rfl
@[simp] theorem State.setFreg_read_dataByte (s : State) (r : RegNum) (v : DWord) (b : Word) :
    (s.setFreg r v).dataByte b = s.dataByte b := rfl

/-! ### setSegment -/

@[simp] theorem State.setSegment_cfg (s : State) (n : BitVec 4) (v : Word) :
    (s.setSegment n v).cfg = s.cfg := rfl
@[simp] theorem State.setSegment_gpr (s : State) (n : BitVec 4) (v : Word) :
    (s.setSegment n v).gpr = s.gpr := rfl
@[simp] theorem State.setSegment_mq (s : State) (n : BitVec 4) (v : Word) :
    (s.setSegment n v).mq = s.mq := rfl
@[simp] theorem State.setSegment_xer (s : State) (n : BitVec 4) (v : Word) :
    (s.setSegment n v).xer = s.xer := rfl
@[simp] theorem State.setSegment_pc (s : State) (n : BitVec 4) (v : Word) :
    (s.setSegment n v).pc = s.pc := rfl
@[simp] theorem State.setSegment_cr (s : State) (n : BitVec 4) (v : Word) :
    (s.setSegment n v).cr = s.cr := rfl
@[simp] theorem State.setSegment_lr (s : State) (n : BitVec 4) (v : Word) :
    (s.setSegment n v).lr = s.lr := rfl
@[simp] theorem State.setSegment_ctr (s : State) (n : BitVec 4) (v : Word) :
    (s.setSegment n v).ctr = s.ctr := rfl
@[simp] theorem State.setSegment_msr (s : State) (n : BitVec 4) (v : Word) :
    (s.setSegment n v).msr = s.msr := rfl
@[simp] theorem State.setSegment_srr0 (s : State) (n : BitVec 4) (v : Word) :
    (s.setSegment n v).srr0 = s.srr0 := rfl
@[simp] theorem State.setSegment_srr1 (s : State) (n : BitVec 4) (v : Word) :
    (s.setSegment n v).srr1 = s.srr1 := rfl
@[simp] theorem State.setSegment_dsisr (s : State) (n : BitVec 4) (v : Word) :
    (s.setSegment n v).dsisr = s.dsisr := rfl
@[simp] theorem State.setSegment_dar (s : State) (n : BitVec 4) (v : Word) :
    (s.setSegment n v).dar = s.dar := rfl
@[simp] theorem State.setSegment_fpr (s : State) (n : BitVec 4) (v : Word) :
    (s.setSegment n v).fpr = s.fpr := rfl
@[simp] theorem State.setSegment_fpscr (s : State) (n : BitVec 4) (v : Word) :
    (s.setSegment n v).fpscr = s.fpscr := rfl
@[simp] theorem State.setSegment_fpRecent (s : State) (n : BitVec 4) (v : Word) :
    (s.setSegment n v).fpRecent = s.fpRecent := rfl
@[simp] theorem State.setSegment_fpiWait (s : State) (n : BitVec 4) (v : Word) :
    (s.setSegment n v).fpiWait = s.fpiWait := rfl
@[simp] theorem State.setSegment_sr (s : State) (n : BitVec 4) (v : Word) :
    (s.setSegment n v).sr = s.sr.set n.toNat v n.isLt := rfl
@[simp] theorem State.setSegment_sdr0 (s : State) (n : BitVec 4) (v : Word) :
    (s.setSegment n v).sdr0 = s.sdr0 := rfl
@[simp] theorem State.setSegment_sdr1 (s : State) (n : BitVec 4) (v : Word) :
    (s.setSegment n v).sdr1 = s.sdr1 := rfl
@[simp] theorem State.setSegment_sdrBefore (s : State) (n : BitVec 4) (v : Word) :
    (s.setSegment n v).sdrBefore = s.sdrBefore := rfl
@[simp] theorem State.setSegment_tid (s : State) (n : BitVec 4) (v : Word) :
    (s.setSegment n v).tid = s.tid := rfl
@[simp] theorem State.setSegment_rtcu (s : State) (n : BitVec 4) (v : Word) :
    (s.setSegment n v).rtcu = s.rtcu := rfl
@[simp] theorem State.setSegment_rtcl (s : State) (n : BitVec 4) (v : Word) :
    (s.setSegment n v).rtcl = s.rtcl := rfl
@[simp] theorem State.setSegment_dec (s : State) (n : BitVec 4) (v : Word) :
    (s.setSegment n v).dec = s.dec := rfl
@[simp] theorem State.setSegment_eim (s : State) (n : BitVec 4) (v : Word) :
    (s.setSegment n v).eim = s.eim := rfl
@[simp] theorem State.setSegment_eis (s : State) (n : BitVec 4) (v : Word) :
    (s.setSegment n v).eis = s.eis := rfl
@[simp] theorem State.setSegment_cil (s : State) (n : BitVec 4) (v : Word) :
    (s.setSegment n v).cil = s.cil := rfl
@[simp] theorem State.setSegment_eisbidDec (s : State) (n : BitVec 4) (v : Word) :
    (s.setSegment n v).eisbidDec = s.eisbidDec := rfl
@[simp] theorem State.setSegment_eisbidCheck (s : State) (n : BitVec 4) (v : Word) :
    (s.setSegment n v).eisbidCheck = s.eisbidCheck := rfl
@[simp] theorem State.setSegment_eisbidEpow (s : State) (n : BitVec 4) (v : Word) :
    (s.setSegment n v).eisbidEpow = s.eisbidEpow := rfl
@[simp] theorem State.setSegment_ilcrSettle (s : State) (n : BitVec 4) (v : Word) :
    (s.setSegment n v).ilcrSettle = s.ilcrSettle := rfl
@[simp] theorem State.setSegment_mem (s : State) (n : BitVec 4) (v : Word) :
    (s.setSegment n v).mem = s.mem := rfl
@[simp] theorem State.setSegment_dc (s : State) (n : BitVec 4) (v : Word) :
    (s.setSegment n v).dc = s.dc := rfl
@[simp] theorem State.setSegment_ic (s : State) (n : BitVec 4) (v : Word) :
    (s.setSegment n v).ic = s.ic := rfl
@[simp] theorem State.setSegment_pf (s : State) (n : BitVec 4) (v : Word) :
    (s.setSegment n v).pf = s.pf := rfl
@[simp] theorem State.setSegment_wb (s : State) (n : BitVec 4) (v : Word) :
    (s.setSegment n v).wb = s.wb := rfl
@[simp] theorem State.setSegment_tlb (s : State) (n : BitVec 4) (v : Word) :
    (s.setSegment n v).tlb = s.tlb := rfl
@[simp] theorem State.setSegment_sysReset (s : State) (n : BitVec 4) (v : Word) :
    (s.setSegment n v).sysReset = s.sysReset := rfl
@[simp] theorem State.setSegment_machineCheck (s : State) (n : BitVec 4) (v : Word) :
    (s.setSegment n v).machineCheck = s.machineCheck := rfl
@[simp] theorem State.setSegment_checkstopped (s : State) (n : BitVec 4) (v : Word) :
    (s.setSegment n v).checkstopped = s.checkstopped := rfl
@[simp] theorem State.setSegment_ioccs (s : State) (n : BitVec 4) (v : Word) :
    (s.setSegment n v).ioccs = s.ioccs := rfl
@[simp] theorem State.setSegment_nvram (s : State) (n : BitVec 4) (v : Word) :
    (s.setSegment n v).nvram = s.nvram := rfl
@[simp] theorem State.setSegment_keylock (s : State) (n : BitVec 4) (v : Word) :
    (s.setSegment n v).keylock = s.keylock := rfl
@[simp] theorem State.setSegment_busIn (s : State) (n : BitVec 4) (v : Word) :
    (s.setSegment n v).busIn = s.busIn := rfl
@[simp] theorem State.setSegment_busLog (s : State) (n : BitVec 4) (v : Word) :
    (s.setSegment n v).busLog = s.busLog := rfl
@[simp] theorem State.setSegment_agenda (s : State) (n : BitVec 4) (v : Word) :
    (s.setSegment n v).agenda = s.agenda := rfl
@[simp] theorem State.setSegment_ticksRun (s : State) (n : BitVec 4) (v : Word) :
    (s.setSegment n v).ticksRun = s.ticksRun := rfl
@[simp] theorem State.setSegment_stepsRun (s : State) (n : BitVec 4) (v : Word) :
    (s.setSegment n v).stepsRun = s.stepsRun := rfl
@[simp] theorem State.setSegment_draws (s : State) (n : BitVec 4) (v : Word) :
    (s.setSegment n v).draws = s.draws := rfl
@[simp] theorem State.setSegment_lastCsr (s : State) (n : BitVec 4) (v : Word) :
    (s.setSegment n v).lastCsr = s.lastCsr := rfl
@[simp] theorem State.setSegment_csrTouched (s : State) (n : BitVec 4) (v : Word) :
    (s.setSegment n v).csrTouched = s.csrTouched := rfl
@[simp] theorem State.setSegment_entered (s : State) (n : BitVec 4) (v : Word) :
    (s.setSegment n v).entered = s.entered := rfl
@[simp] theorem State.setSegment_read_reg (s : State) (n : BitVec 4) (v : Word) (q : RegNum) :
    (s.setSegment n v).reg q = s.reg q := rfl
@[simp] theorem State.setSegment_read_freg (s : State) (n : BitVec 4) (v : Word) (q : RegNum) :
    (s.setSegment n v).freg q = s.freg q := rfl
@[simp] theorem State.setSegment_read_crField (s : State) (n : BitVec 4) (v : Word) (f : CrField) :
    (s.setSegment n v).crField f = s.crField f := rfl
@[simp] theorem State.setSegment_read_xerSO (s : State) (n : BitVec 4) (v : Word) :
    (s.setSegment n v).xerSO = s.xerSO := rfl
@[simp] theorem State.setSegment_read_xerCA (s : State) (n : BitVec 4) (v : Word) :
    (s.setSegment n v).xerCA = s.xerCA := rfl
@[simp] theorem State.setSegment_read_msrPR (s : State) (n : BitVec 4) (v : Word) :
    (s.setSegment n v).msrPR = s.msrPR := rfl
@[simp] theorem State.setSegment_read_msrFP (s : State) (n : BitVec 4) (v : Word) :
    (s.setSegment n v).msrFP = s.msrFP := rfl
@[simp] theorem State.setSegment_read_msrFE (s : State) (n : BitVec 4) (v : Word) :
    (s.setSegment n v).msrFE = s.msrFE := rfl
@[simp] theorem State.setSegment_read_msrAL (s : State) (n : BitVec 4) (v : Word) :
    (s.setSegment n v).msrAL = s.msrAL := rfl
@[simp] theorem State.setSegment_read_msrDR (s : State) (n : BitVec 4) (v : Word) :
    (s.setSegment n v).msrDR = s.msrDR := rfl
@[simp] theorem State.setSegment_read_fex (s : State) (n : BitVec 4) (v : Word) :
    (s.setSegment n v).fex = s.fex := rfl
@[simp] theorem State.setSegment_read_dataByte (s : State) (n : BitVec 4) (v : Word) (b : Word) :
    (s.setSegment n v).dataByte b = s.dataByte b := rfl

/-! ### setMsr -/

@[simp] theorem State.setMsr_cfg (s : State) (v : Word) :
    (s.setMsr v).cfg = s.cfg := rfl
@[simp] theorem State.setMsr_gpr (s : State) (v : Word) :
    (s.setMsr v).gpr = s.gpr := rfl
@[simp] theorem State.setMsr_mq (s : State) (v : Word) :
    (s.setMsr v).mq = s.mq := rfl
@[simp] theorem State.setMsr_xer (s : State) (v : Word) :
    (s.setMsr v).xer = s.xer := rfl
@[simp] theorem State.setMsr_pc (s : State) (v : Word) :
    (s.setMsr v).pc = s.pc := rfl
@[simp] theorem State.setMsr_cr (s : State) (v : Word) :
    (s.setMsr v).cr = s.cr := rfl
@[simp] theorem State.setMsr_lr (s : State) (v : Word) :
    (s.setMsr v).lr = s.lr := rfl
@[simp] theorem State.setMsr_ctr (s : State) (v : Word) :
    (s.setMsr v).ctr = s.ctr := rfl
@[simp] theorem State.setMsr_msr (s : State) (v : Word) :
    (s.setMsr v).msr = v &&& msrMask s.cfg.impl := rfl
@[simp] theorem State.setMsr_srr0 (s : State) (v : Word) :
    (s.setMsr v).srr0 = s.srr0 := rfl
@[simp] theorem State.setMsr_srr1 (s : State) (v : Word) :
    (s.setMsr v).srr1 = s.srr1 := rfl
@[simp] theorem State.setMsr_dsisr (s : State) (v : Word) :
    (s.setMsr v).dsisr = s.dsisr := rfl
@[simp] theorem State.setMsr_dar (s : State) (v : Word) :
    (s.setMsr v).dar = s.dar := rfl
@[simp] theorem State.setMsr_fpr (s : State) (v : Word) :
    (s.setMsr v).fpr = s.fpr := rfl
@[simp] theorem State.setMsr_fpscr (s : State) (v : Word) :
    (s.setMsr v).fpscr = s.fpscr := rfl
@[simp] theorem State.setMsr_fpRecent (s : State) (v : Word) :
    (s.setMsr v).fpRecent = s.fpRecent := rfl
@[simp] theorem State.setMsr_fpiWait (s : State) (v : Word) :
    (s.setMsr v).fpiWait = s.fpiWait := rfl
@[simp] theorem State.setMsr_sr (s : State) (v : Word) :
    (s.setMsr v).sr = s.sr := rfl
@[simp] theorem State.setMsr_sdr0 (s : State) (v : Word) :
    (s.setMsr v).sdr0 = s.sdr0 := rfl
@[simp] theorem State.setMsr_sdr1 (s : State) (v : Word) :
    (s.setMsr v).sdr1 = s.sdr1 := rfl
@[simp] theorem State.setMsr_sdrBefore (s : State) (v : Word) :
    (s.setMsr v).sdrBefore = s.sdrBefore := rfl
@[simp] theorem State.setMsr_tid (s : State) (v : Word) :
    (s.setMsr v).tid = s.tid := rfl
@[simp] theorem State.setMsr_rtcu (s : State) (v : Word) :
    (s.setMsr v).rtcu = s.rtcu := rfl
@[simp] theorem State.setMsr_rtcl (s : State) (v : Word) :
    (s.setMsr v).rtcl = s.rtcl := rfl
@[simp] theorem State.setMsr_dec (s : State) (v : Word) :
    (s.setMsr v).dec = s.dec := rfl
@[simp] theorem State.setMsr_eim (s : State) (v : Word) :
    (s.setMsr v).eim = s.eim := rfl
@[simp] theorem State.setMsr_eis (s : State) (v : Word) :
    (s.setMsr v).eis = s.eis := rfl
@[simp] theorem State.setMsr_cil (s : State) (v : Word) :
    (s.setMsr v).cil = s.cil := rfl
@[simp] theorem State.setMsr_eisbidDec (s : State) (v : Word) :
    (s.setMsr v).eisbidDec = s.eisbidDec := rfl
@[simp] theorem State.setMsr_eisbidCheck (s : State) (v : Word) :
    (s.setMsr v).eisbidCheck = s.eisbidCheck := rfl
@[simp] theorem State.setMsr_eisbidEpow (s : State) (v : Word) :
    (s.setMsr v).eisbidEpow = s.eisbidEpow := rfl
@[simp] theorem State.setMsr_ilcrSettle (s : State) (v : Word) :
    (s.setMsr v).ilcrSettle = s.ilcrSettle := rfl
@[simp] theorem State.setMsr_mem (s : State) (v : Word) :
    (s.setMsr v).mem = s.mem := rfl
@[simp] theorem State.setMsr_dc (s : State) (v : Word) :
    (s.setMsr v).dc = s.dc := rfl
@[simp] theorem State.setMsr_ic (s : State) (v : Word) :
    (s.setMsr v).ic = s.ic := rfl
@[simp] theorem State.setMsr_pf (s : State) (v : Word) :
    (s.setMsr v).pf = s.pf := rfl
@[simp] theorem State.setMsr_wb (s : State) (v : Word) :
    (s.setMsr v).wb = s.wb := rfl
@[simp] theorem State.setMsr_tlb (s : State) (v : Word) :
    (s.setMsr v).tlb = s.tlb := rfl
@[simp] theorem State.setMsr_sysReset (s : State) (v : Word) :
    (s.setMsr v).sysReset = s.sysReset := rfl
@[simp] theorem State.setMsr_machineCheck (s : State) (v : Word) :
    (s.setMsr v).machineCheck = s.machineCheck := rfl
@[simp] theorem State.setMsr_checkstopped (s : State) (v : Word) :
    (s.setMsr v).checkstopped = s.checkstopped := rfl
@[simp] theorem State.setMsr_ioccs (s : State) (v : Word) :
    (s.setMsr v).ioccs = s.ioccs := rfl
@[simp] theorem State.setMsr_nvram (s : State) (v : Word) :
    (s.setMsr v).nvram = s.nvram := rfl
@[simp] theorem State.setMsr_keylock (s : State) (v : Word) :
    (s.setMsr v).keylock = s.keylock := rfl
@[simp] theorem State.setMsr_busIn (s : State) (v : Word) :
    (s.setMsr v).busIn = s.busIn := rfl
@[simp] theorem State.setMsr_busLog (s : State) (v : Word) :
    (s.setMsr v).busLog = s.busLog := rfl
@[simp] theorem State.setMsr_agenda (s : State) (v : Word) :
    (s.setMsr v).agenda = s.agenda := rfl
@[simp] theorem State.setMsr_ticksRun (s : State) (v : Word) :
    (s.setMsr v).ticksRun = s.ticksRun := rfl
@[simp] theorem State.setMsr_stepsRun (s : State) (v : Word) :
    (s.setMsr v).stepsRun = s.stepsRun := rfl
@[simp] theorem State.setMsr_draws (s : State) (v : Word) :
    (s.setMsr v).draws = s.draws := rfl
@[simp] theorem State.setMsr_lastCsr (s : State) (v : Word) :
    (s.setMsr v).lastCsr = s.lastCsr := rfl
@[simp] theorem State.setMsr_csrTouched (s : State) (v : Word) :
    (s.setMsr v).csrTouched = s.csrTouched := rfl
@[simp] theorem State.setMsr_entered (s : State) (v : Word) :
    (s.setMsr v).entered = s.entered := rfl
@[simp] theorem State.setMsr_read_reg (s : State) (v : Word) (q : RegNum) :
    (s.setMsr v).reg q = s.reg q := rfl
@[simp] theorem State.setMsr_read_freg (s : State) (v : Word) (q : RegNum) :
    (s.setMsr v).freg q = s.freg q := rfl
@[simp] theorem State.setMsr_read_segment (s : State) (v : Word) (m : BitVec 4) :
    (s.setMsr v).segment m = s.segment m := rfl
@[simp] theorem State.setMsr_read_isIo (s : State) (v : Word) (ea : Word) :
    (s.setMsr v).isIo ea = s.isIo ea := rfl
@[simp] theorem State.setMsr_read_crField (s : State) (v : Word) (f : CrField) :
    (s.setMsr v).crField f = s.crField f := rfl
@[simp] theorem State.setMsr_read_xerSO (s : State) (v : Word) :
    (s.setMsr v).xerSO = s.xerSO := rfl
@[simp] theorem State.setMsr_read_xerCA (s : State) (v : Word) :
    (s.setMsr v).xerCA = s.xerCA := rfl
@[simp] theorem State.setMsr_read_fex (s : State) (v : Word) :
    (s.setMsr v).fex = s.fex := rfl
@[simp] theorem State.setMsr_read_dataByte (s : State) (v : Word) (b : Word) :
    (s.setMsr v).dataByte b = s.dataByte b := rfl

/-! ### setXer -/

@[simp] theorem State.setXer_cfg (s : State) (v : Word) :
    (s.setXer v).cfg = s.cfg := rfl
@[simp] theorem State.setXer_gpr (s : State) (v : Word) :
    (s.setXer v).gpr = s.gpr := rfl
@[simp] theorem State.setXer_mq (s : State) (v : Word) :
    (s.setXer v).mq = s.mq := rfl
@[simp] theorem State.setXer_xer (s : State) (v : Word) :
    (s.setXer v).xer = v &&& xerMask := rfl
@[simp] theorem State.setXer_pc (s : State) (v : Word) :
    (s.setXer v).pc = s.pc := rfl
@[simp] theorem State.setXer_cr (s : State) (v : Word) :
    (s.setXer v).cr = s.cr := rfl
@[simp] theorem State.setXer_lr (s : State) (v : Word) :
    (s.setXer v).lr = s.lr := rfl
@[simp] theorem State.setXer_ctr (s : State) (v : Word) :
    (s.setXer v).ctr = s.ctr := rfl
@[simp] theorem State.setXer_msr (s : State) (v : Word) :
    (s.setXer v).msr = s.msr := rfl
@[simp] theorem State.setXer_srr0 (s : State) (v : Word) :
    (s.setXer v).srr0 = s.srr0 := rfl
@[simp] theorem State.setXer_srr1 (s : State) (v : Word) :
    (s.setXer v).srr1 = s.srr1 := rfl
@[simp] theorem State.setXer_dsisr (s : State) (v : Word) :
    (s.setXer v).dsisr = s.dsisr := rfl
@[simp] theorem State.setXer_dar (s : State) (v : Word) :
    (s.setXer v).dar = s.dar := rfl
@[simp] theorem State.setXer_fpr (s : State) (v : Word) :
    (s.setXer v).fpr = s.fpr := rfl
@[simp] theorem State.setXer_fpscr (s : State) (v : Word) :
    (s.setXer v).fpscr = s.fpscr := rfl
@[simp] theorem State.setXer_fpRecent (s : State) (v : Word) :
    (s.setXer v).fpRecent = s.fpRecent := rfl
@[simp] theorem State.setXer_fpiWait (s : State) (v : Word) :
    (s.setXer v).fpiWait = s.fpiWait := rfl
@[simp] theorem State.setXer_sr (s : State) (v : Word) :
    (s.setXer v).sr = s.sr := rfl
@[simp] theorem State.setXer_sdr0 (s : State) (v : Word) :
    (s.setXer v).sdr0 = s.sdr0 := rfl
@[simp] theorem State.setXer_sdr1 (s : State) (v : Word) :
    (s.setXer v).sdr1 = s.sdr1 := rfl
@[simp] theorem State.setXer_sdrBefore (s : State) (v : Word) :
    (s.setXer v).sdrBefore = s.sdrBefore := rfl
@[simp] theorem State.setXer_tid (s : State) (v : Word) :
    (s.setXer v).tid = s.tid := rfl
@[simp] theorem State.setXer_rtcu (s : State) (v : Word) :
    (s.setXer v).rtcu = s.rtcu := rfl
@[simp] theorem State.setXer_rtcl (s : State) (v : Word) :
    (s.setXer v).rtcl = s.rtcl := rfl
@[simp] theorem State.setXer_dec (s : State) (v : Word) :
    (s.setXer v).dec = s.dec := rfl
@[simp] theorem State.setXer_eim (s : State) (v : Word) :
    (s.setXer v).eim = s.eim := rfl
@[simp] theorem State.setXer_eis (s : State) (v : Word) :
    (s.setXer v).eis = s.eis := rfl
@[simp] theorem State.setXer_cil (s : State) (v : Word) :
    (s.setXer v).cil = s.cil := rfl
@[simp] theorem State.setXer_eisbidDec (s : State) (v : Word) :
    (s.setXer v).eisbidDec = s.eisbidDec := rfl
@[simp] theorem State.setXer_eisbidCheck (s : State) (v : Word) :
    (s.setXer v).eisbidCheck = s.eisbidCheck := rfl
@[simp] theorem State.setXer_eisbidEpow (s : State) (v : Word) :
    (s.setXer v).eisbidEpow = s.eisbidEpow := rfl
@[simp] theorem State.setXer_ilcrSettle (s : State) (v : Word) :
    (s.setXer v).ilcrSettle = s.ilcrSettle := rfl
@[simp] theorem State.setXer_mem (s : State) (v : Word) :
    (s.setXer v).mem = s.mem := rfl
@[simp] theorem State.setXer_dc (s : State) (v : Word) :
    (s.setXer v).dc = s.dc := rfl
@[simp] theorem State.setXer_ic (s : State) (v : Word) :
    (s.setXer v).ic = s.ic := rfl
@[simp] theorem State.setXer_pf (s : State) (v : Word) :
    (s.setXer v).pf = s.pf := rfl
@[simp] theorem State.setXer_wb (s : State) (v : Word) :
    (s.setXer v).wb = s.wb := rfl
@[simp] theorem State.setXer_tlb (s : State) (v : Word) :
    (s.setXer v).tlb = s.tlb := rfl
@[simp] theorem State.setXer_sysReset (s : State) (v : Word) :
    (s.setXer v).sysReset = s.sysReset := rfl
@[simp] theorem State.setXer_machineCheck (s : State) (v : Word) :
    (s.setXer v).machineCheck = s.machineCheck := rfl
@[simp] theorem State.setXer_checkstopped (s : State) (v : Word) :
    (s.setXer v).checkstopped = s.checkstopped := rfl
@[simp] theorem State.setXer_ioccs (s : State) (v : Word) :
    (s.setXer v).ioccs = s.ioccs := rfl
@[simp] theorem State.setXer_nvram (s : State) (v : Word) :
    (s.setXer v).nvram = s.nvram := rfl
@[simp] theorem State.setXer_keylock (s : State) (v : Word) :
    (s.setXer v).keylock = s.keylock := rfl
@[simp] theorem State.setXer_busIn (s : State) (v : Word) :
    (s.setXer v).busIn = s.busIn := rfl
@[simp] theorem State.setXer_busLog (s : State) (v : Word) :
    (s.setXer v).busLog = s.busLog := rfl
@[simp] theorem State.setXer_agenda (s : State) (v : Word) :
    (s.setXer v).agenda = s.agenda := rfl
@[simp] theorem State.setXer_ticksRun (s : State) (v : Word) :
    (s.setXer v).ticksRun = s.ticksRun := rfl
@[simp] theorem State.setXer_stepsRun (s : State) (v : Word) :
    (s.setXer v).stepsRun = s.stepsRun := rfl
@[simp] theorem State.setXer_draws (s : State) (v : Word) :
    (s.setXer v).draws = s.draws := rfl
@[simp] theorem State.setXer_lastCsr (s : State) (v : Word) :
    (s.setXer v).lastCsr = s.lastCsr := rfl
@[simp] theorem State.setXer_csrTouched (s : State) (v : Word) :
    (s.setXer v).csrTouched = s.csrTouched := rfl
@[simp] theorem State.setXer_entered (s : State) (v : Word) :
    (s.setXer v).entered = s.entered := rfl
@[simp] theorem State.setXer_read_reg (s : State) (v : Word) (q : RegNum) :
    (s.setXer v).reg q = s.reg q := rfl
@[simp] theorem State.setXer_read_freg (s : State) (v : Word) (q : RegNum) :
    (s.setXer v).freg q = s.freg q := rfl
@[simp] theorem State.setXer_read_segment (s : State) (v : Word) (m : BitVec 4) :
    (s.setXer v).segment m = s.segment m := rfl
@[simp] theorem State.setXer_read_isIo (s : State) (v : Word) (ea : Word) :
    (s.setXer v).isIo ea = s.isIo ea := rfl
@[simp] theorem State.setXer_read_crField (s : State) (v : Word) (f : CrField) :
    (s.setXer v).crField f = s.crField f := rfl
@[simp] theorem State.setXer_read_msrPR (s : State) (v : Word) :
    (s.setXer v).msrPR = s.msrPR := rfl
@[simp] theorem State.setXer_read_msrFP (s : State) (v : Word) :
    (s.setXer v).msrFP = s.msrFP := rfl
@[simp] theorem State.setXer_read_msrFE (s : State) (v : Word) :
    (s.setXer v).msrFE = s.msrFE := rfl
@[simp] theorem State.setXer_read_msrAL (s : State) (v : Word) :
    (s.setXer v).msrAL = s.msrAL := rfl
@[simp] theorem State.setXer_read_msrDR (s : State) (v : Word) :
    (s.setXer v).msrDR = s.msrDR := rfl
@[simp] theorem State.setXer_read_fex (s : State) (v : Word) :
    (s.setXer v).fex = s.fex := rfl
@[simp] theorem State.setXer_read_dataByte (s : State) (v : Word) (b : Word) :
    (s.setXer v).dataByte b = s.dataByte b := rfl

/-! ### advance -/

@[simp] theorem State.advance_cfg (s : State) :
    (s.advance).cfg = s.cfg := rfl
@[simp] theorem State.advance_gpr (s : State) :
    (s.advance).gpr = s.gpr := rfl
@[simp] theorem State.advance_mq (s : State) :
    (s.advance).mq = s.mq := rfl
@[simp] theorem State.advance_xer (s : State) :
    (s.advance).xer = s.xer := rfl
@[simp] theorem State.advance_pc (s : State) :
    (s.advance).pc = s.pc + 4 := rfl
@[simp] theorem State.advance_cr (s : State) :
    (s.advance).cr = s.cr := rfl
@[simp] theorem State.advance_lr (s : State) :
    (s.advance).lr = s.lr := rfl
@[simp] theorem State.advance_ctr (s : State) :
    (s.advance).ctr = s.ctr := rfl
@[simp] theorem State.advance_msr (s : State) :
    (s.advance).msr = s.msr := rfl
@[simp] theorem State.advance_srr0 (s : State) :
    (s.advance).srr0 = s.srr0 := rfl
@[simp] theorem State.advance_srr1 (s : State) :
    (s.advance).srr1 = s.srr1 := rfl
@[simp] theorem State.advance_dsisr (s : State) :
    (s.advance).dsisr = s.dsisr := rfl
@[simp] theorem State.advance_dar (s : State) :
    (s.advance).dar = s.dar := rfl
@[simp] theorem State.advance_fpr (s : State) :
    (s.advance).fpr = s.fpr := rfl
@[simp] theorem State.advance_fpscr (s : State) :
    (s.advance).fpscr = s.fpscr := rfl
@[simp] theorem State.advance_fpRecent (s : State) :
    (s.advance).fpRecent = s.fpRecent := rfl
@[simp] theorem State.advance_fpiWait (s : State) :
    (s.advance).fpiWait = s.fpiWait := rfl
@[simp] theorem State.advance_sr (s : State) :
    (s.advance).sr = s.sr := rfl
@[simp] theorem State.advance_sdr0 (s : State) :
    (s.advance).sdr0 = s.sdr0 := rfl
@[simp] theorem State.advance_sdr1 (s : State) :
    (s.advance).sdr1 = s.sdr1 := rfl
@[simp] theorem State.advance_sdrBefore (s : State) :
    (s.advance).sdrBefore = s.sdrBefore := rfl
@[simp] theorem State.advance_tid (s : State) :
    (s.advance).tid = s.tid := rfl
@[simp] theorem State.advance_rtcu (s : State) :
    (s.advance).rtcu = s.rtcu := rfl
@[simp] theorem State.advance_rtcl (s : State) :
    (s.advance).rtcl = s.rtcl := rfl
@[simp] theorem State.advance_dec (s : State) :
    (s.advance).dec = s.dec := rfl
@[simp] theorem State.advance_eim (s : State) :
    (s.advance).eim = s.eim := rfl
@[simp] theorem State.advance_eis (s : State) :
    (s.advance).eis = s.eis := rfl
@[simp] theorem State.advance_cil (s : State) :
    (s.advance).cil = s.cil := rfl
@[simp] theorem State.advance_eisbidDec (s : State) :
    (s.advance).eisbidDec = s.eisbidDec := rfl
@[simp] theorem State.advance_eisbidCheck (s : State) :
    (s.advance).eisbidCheck = s.eisbidCheck := rfl
@[simp] theorem State.advance_eisbidEpow (s : State) :
    (s.advance).eisbidEpow = s.eisbidEpow := rfl
@[simp] theorem State.advance_ilcrSettle (s : State) :
    (s.advance).ilcrSettle = s.ilcrSettle := rfl
@[simp] theorem State.advance_mem (s : State) :
    (s.advance).mem = s.mem := rfl
@[simp] theorem State.advance_dc (s : State) :
    (s.advance).dc = s.dc := rfl
@[simp] theorem State.advance_ic (s : State) :
    (s.advance).ic = s.ic := rfl
@[simp] theorem State.advance_pf (s : State) :
    (s.advance).pf = s.pf := rfl
@[simp] theorem State.advance_wb (s : State) :
    (s.advance).wb = s.wb := rfl
@[simp] theorem State.advance_tlb (s : State) :
    (s.advance).tlb = s.tlb := rfl
@[simp] theorem State.advance_sysReset (s : State) :
    (s.advance).sysReset = s.sysReset := rfl
@[simp] theorem State.advance_machineCheck (s : State) :
    (s.advance).machineCheck = s.machineCheck := rfl
@[simp] theorem State.advance_checkstopped (s : State) :
    (s.advance).checkstopped = s.checkstopped := rfl
@[simp] theorem State.advance_ioccs (s : State) :
    (s.advance).ioccs = s.ioccs := rfl
@[simp] theorem State.advance_nvram (s : State) :
    (s.advance).nvram = s.nvram := rfl
@[simp] theorem State.advance_keylock (s : State) :
    (s.advance).keylock = s.keylock := rfl
@[simp] theorem State.advance_busIn (s : State) :
    (s.advance).busIn = s.busIn := rfl
@[simp] theorem State.advance_busLog (s : State) :
    (s.advance).busLog = s.busLog := rfl
@[simp] theorem State.advance_agenda (s : State) :
    (s.advance).agenda = s.agenda := rfl
@[simp] theorem State.advance_ticksRun (s : State) :
    (s.advance).ticksRun = s.ticksRun := rfl
@[simp] theorem State.advance_stepsRun (s : State) :
    (s.advance).stepsRun = s.stepsRun := rfl
@[simp] theorem State.advance_draws (s : State) :
    (s.advance).draws = s.draws := rfl
@[simp] theorem State.advance_lastCsr (s : State) :
    (s.advance).lastCsr = s.lastCsr := rfl
@[simp] theorem State.advance_csrTouched (s : State) :
    (s.advance).csrTouched = s.csrTouched := rfl
@[simp] theorem State.advance_entered (s : State) :
    (s.advance).entered = s.entered := rfl
@[simp] theorem State.advance_read_reg (s : State) (q : RegNum) :
    (s.advance).reg q = s.reg q := rfl
@[simp] theorem State.advance_read_freg (s : State) (q : RegNum) :
    (s.advance).freg q = s.freg q := rfl
@[simp] theorem State.advance_read_segment (s : State) (m : BitVec 4) :
    (s.advance).segment m = s.segment m := rfl
@[simp] theorem State.advance_read_isIo (s : State) (ea : Word) :
    (s.advance).isIo ea = s.isIo ea := rfl
@[simp] theorem State.advance_read_crField (s : State) (f : CrField) :
    (s.advance).crField f = s.crField f := rfl
@[simp] theorem State.advance_read_xerSO (s : State) :
    (s.advance).xerSO = s.xerSO := rfl
@[simp] theorem State.advance_read_xerCA (s : State) :
    (s.advance).xerCA = s.xerCA := rfl
@[simp] theorem State.advance_read_msrPR (s : State) :
    (s.advance).msrPR = s.msrPR := rfl
@[simp] theorem State.advance_read_msrFP (s : State) :
    (s.advance).msrFP = s.msrFP := rfl
@[simp] theorem State.advance_read_msrFE (s : State) :
    (s.advance).msrFE = s.msrFE := rfl
@[simp] theorem State.advance_read_msrAL (s : State) :
    (s.advance).msrAL = s.msrAL := rfl
@[simp] theorem State.advance_read_msrDR (s : State) :
    (s.advance).msrDR = s.msrDR := rfl
@[simp] theorem State.advance_read_fex (s : State) :
    (s.advance).fex = s.fex := rfl
@[simp] theorem State.advance_read_dataByte (s : State) (b : Word) :
    (s.advance).dataByte b = s.dataByte b := rfl

/-! ### serializeFetch -/

@[simp] theorem State.serializeFetch_cfg (s : State) :
    (s.serializeFetch).cfg = s.cfg := rfl
@[simp] theorem State.serializeFetch_gpr (s : State) :
    (s.serializeFetch).gpr = s.gpr := rfl
@[simp] theorem State.serializeFetch_mq (s : State) :
    (s.serializeFetch).mq = s.mq := rfl
@[simp] theorem State.serializeFetch_xer (s : State) :
    (s.serializeFetch).xer = s.xer := rfl
@[simp] theorem State.serializeFetch_pc (s : State) :
    (s.serializeFetch).pc = s.pc := rfl
@[simp] theorem State.serializeFetch_cr (s : State) :
    (s.serializeFetch).cr = s.cr := rfl
@[simp] theorem State.serializeFetch_lr (s : State) :
    (s.serializeFetch).lr = s.lr := rfl
@[simp] theorem State.serializeFetch_ctr (s : State) :
    (s.serializeFetch).ctr = s.ctr := rfl
@[simp] theorem State.serializeFetch_msr (s : State) :
    (s.serializeFetch).msr = s.msr := rfl
@[simp] theorem State.serializeFetch_srr0 (s : State) :
    (s.serializeFetch).srr0 = s.srr0 := rfl
@[simp] theorem State.serializeFetch_srr1 (s : State) :
    (s.serializeFetch).srr1 = s.srr1 := rfl
@[simp] theorem State.serializeFetch_dsisr (s : State) :
    (s.serializeFetch).dsisr = s.dsisr := rfl
@[simp] theorem State.serializeFetch_dar (s : State) :
    (s.serializeFetch).dar = s.dar := rfl
@[simp] theorem State.serializeFetch_fpr (s : State) :
    (s.serializeFetch).fpr = s.fpr := rfl
@[simp] theorem State.serializeFetch_fpscr (s : State) :
    (s.serializeFetch).fpscr = s.fpscr := rfl
@[simp] theorem State.serializeFetch_fpRecent (s : State) :
    (s.serializeFetch).fpRecent = s.fpRecent := rfl
@[simp] theorem State.serializeFetch_fpiWait (s : State) :
    (s.serializeFetch).fpiWait = s.fpiWait := rfl
@[simp] theorem State.serializeFetch_sr (s : State) :
    (s.serializeFetch).sr = s.sr := rfl
@[simp] theorem State.serializeFetch_sdr0 (s : State) :
    (s.serializeFetch).sdr0 = s.sdr0 := rfl
@[simp] theorem State.serializeFetch_sdr1 (s : State) :
    (s.serializeFetch).sdr1 = s.sdr1 := rfl
@[simp] theorem State.serializeFetch_sdrBefore (s : State) :
    (s.serializeFetch).sdrBefore = [] := rfl
@[simp] theorem State.serializeFetch_tid (s : State) :
    (s.serializeFetch).tid = s.tid := rfl
@[simp] theorem State.serializeFetch_rtcu (s : State) :
    (s.serializeFetch).rtcu = s.rtcu := rfl
@[simp] theorem State.serializeFetch_rtcl (s : State) :
    (s.serializeFetch).rtcl = s.rtcl := rfl
@[simp] theorem State.serializeFetch_dec (s : State) :
    (s.serializeFetch).dec = s.dec := rfl
@[simp] theorem State.serializeFetch_eim (s : State) :
    (s.serializeFetch).eim = s.eim := rfl
@[simp] theorem State.serializeFetch_eis (s : State) :
    (s.serializeFetch).eis = s.eis := rfl
@[simp] theorem State.serializeFetch_cil (s : State) :
    (s.serializeFetch).cil = s.cil := rfl
@[simp] theorem State.serializeFetch_eisbidDec (s : State) :
    (s.serializeFetch).eisbidDec = s.eisbidDec := rfl
@[simp] theorem State.serializeFetch_eisbidCheck (s : State) :
    (s.serializeFetch).eisbidCheck = s.eisbidCheck := rfl
@[simp] theorem State.serializeFetch_eisbidEpow (s : State) :
    (s.serializeFetch).eisbidEpow = s.eisbidEpow := rfl
@[simp] theorem State.serializeFetch_ilcrSettle (s : State) :
    (s.serializeFetch).ilcrSettle = s.ilcrSettle := rfl
@[simp] theorem State.serializeFetch_mem (s : State) :
    (s.serializeFetch).mem = s.mem := rfl
@[simp] theorem State.serializeFetch_dc (s : State) :
    (s.serializeFetch).dc = s.dc := rfl
@[simp] theorem State.serializeFetch_ic (s : State) :
    (s.serializeFetch).ic = s.ic := rfl
@[simp] theorem State.serializeFetch_pf (s : State) :
    (s.serializeFetch).pf = [] := rfl
@[simp] theorem State.serializeFetch_wb (s : State) :
    (s.serializeFetch).wb = s.wb := rfl
@[simp] theorem State.serializeFetch_tlb (s : State) :
    (s.serializeFetch).tlb = s.tlb := rfl
@[simp] theorem State.serializeFetch_sysReset (s : State) :
    (s.serializeFetch).sysReset = s.sysReset := rfl
@[simp] theorem State.serializeFetch_machineCheck (s : State) :
    (s.serializeFetch).machineCheck = s.machineCheck := rfl
@[simp] theorem State.serializeFetch_checkstopped (s : State) :
    (s.serializeFetch).checkstopped = s.checkstopped := rfl
@[simp] theorem State.serializeFetch_ioccs (s : State) :
    (s.serializeFetch).ioccs = s.ioccs := rfl
@[simp] theorem State.serializeFetch_nvram (s : State) :
    (s.serializeFetch).nvram = s.nvram := rfl
@[simp] theorem State.serializeFetch_keylock (s : State) :
    (s.serializeFetch).keylock = s.keylock := rfl
@[simp] theorem State.serializeFetch_busIn (s : State) :
    (s.serializeFetch).busIn = s.busIn := rfl
@[simp] theorem State.serializeFetch_busLog (s : State) :
    (s.serializeFetch).busLog = s.busLog := rfl
@[simp] theorem State.serializeFetch_agenda (s : State) :
    (s.serializeFetch).agenda = s.agenda := rfl
@[simp] theorem State.serializeFetch_ticksRun (s : State) :
    (s.serializeFetch).ticksRun = s.ticksRun := rfl
@[simp] theorem State.serializeFetch_stepsRun (s : State) :
    (s.serializeFetch).stepsRun = s.stepsRun := rfl
@[simp] theorem State.serializeFetch_draws (s : State) :
    (s.serializeFetch).draws = s.draws := rfl
@[simp] theorem State.serializeFetch_lastCsr (s : State) :
    (s.serializeFetch).lastCsr = s.lastCsr := rfl
@[simp] theorem State.serializeFetch_csrTouched (s : State) :
    (s.serializeFetch).csrTouched = s.csrTouched := rfl
@[simp] theorem State.serializeFetch_entered (s : State) :
    (s.serializeFetch).entered = s.entered := rfl
@[simp] theorem State.serializeFetch_read_reg (s : State) (q : RegNum) :
    (s.serializeFetch).reg q = s.reg q := rfl
@[simp] theorem State.serializeFetch_read_freg (s : State) (q : RegNum) :
    (s.serializeFetch).freg q = s.freg q := rfl
@[simp] theorem State.serializeFetch_read_segment (s : State) (m : BitVec 4) :
    (s.serializeFetch).segment m = s.segment m := rfl
@[simp] theorem State.serializeFetch_read_isIo (s : State) (ea : Word) :
    (s.serializeFetch).isIo ea = s.isIo ea := rfl
@[simp] theorem State.serializeFetch_read_crField (s : State) (f : CrField) :
    (s.serializeFetch).crField f = s.crField f := rfl
@[simp] theorem State.serializeFetch_read_xerSO (s : State) :
    (s.serializeFetch).xerSO = s.xerSO := rfl
@[simp] theorem State.serializeFetch_read_xerCA (s : State) :
    (s.serializeFetch).xerCA = s.xerCA := rfl
@[simp] theorem State.serializeFetch_read_msrPR (s : State) :
    (s.serializeFetch).msrPR = s.msrPR := rfl
@[simp] theorem State.serializeFetch_read_msrFP (s : State) :
    (s.serializeFetch).msrFP = s.msrFP := rfl
@[simp] theorem State.serializeFetch_read_msrFE (s : State) :
    (s.serializeFetch).msrFE = s.msrFE := rfl
@[simp] theorem State.serializeFetch_read_msrAL (s : State) :
    (s.serializeFetch).msrAL = s.msrAL := rfl
@[simp] theorem State.serializeFetch_read_msrDR (s : State) :
    (s.serializeFetch).msrDR = s.msrDR := rfl
@[simp] theorem State.serializeFetch_read_fex (s : State) :
    (s.serializeFetch).fex = s.fex := rfl
@[simp] theorem State.serializeFetch_read_dataByte (s : State) (b : Word) :
    (s.serializeFetch).dataByte b = s.dataByte b := rfl

/-! ### setCrField -/

@[simp] theorem State.setCrField_cfg (s : State) (n : CrField) (v : BitVec 4) :
    (s.setCrField n v).cfg = s.cfg := rfl
@[simp] theorem State.setCrField_gpr (s : State) (n : CrField) (v : BitVec 4) :
    (s.setCrField n v).gpr = s.gpr := rfl
@[simp] theorem State.setCrField_mq (s : State) (n : CrField) (v : BitVec 4) :
    (s.setCrField n v).mq = s.mq := rfl
@[simp] theorem State.setCrField_xer (s : State) (n : CrField) (v : BitVec 4) :
    (s.setCrField n v).xer = s.xer := rfl
@[simp] theorem State.setCrField_pc (s : State) (n : CrField) (v : BitVec 4) :
    (s.setCrField n v).pc = s.pc := rfl
@[simp] theorem State.setCrField_cr (s : State) (n : CrField) (v : BitVec 4) :
    (s.setCrField n v).cr = setBits s.cr (4 * n.toNat) 4 v := rfl
@[simp] theorem State.setCrField_lr (s : State) (n : CrField) (v : BitVec 4) :
    (s.setCrField n v).lr = s.lr := rfl
@[simp] theorem State.setCrField_ctr (s : State) (n : CrField) (v : BitVec 4) :
    (s.setCrField n v).ctr = s.ctr := rfl
@[simp] theorem State.setCrField_msr (s : State) (n : CrField) (v : BitVec 4) :
    (s.setCrField n v).msr = s.msr := rfl
@[simp] theorem State.setCrField_srr0 (s : State) (n : CrField) (v : BitVec 4) :
    (s.setCrField n v).srr0 = s.srr0 := rfl
@[simp] theorem State.setCrField_srr1 (s : State) (n : CrField) (v : BitVec 4) :
    (s.setCrField n v).srr1 = s.srr1 := rfl
@[simp] theorem State.setCrField_dsisr (s : State) (n : CrField) (v : BitVec 4) :
    (s.setCrField n v).dsisr = s.dsisr := rfl
@[simp] theorem State.setCrField_dar (s : State) (n : CrField) (v : BitVec 4) :
    (s.setCrField n v).dar = s.dar := rfl
@[simp] theorem State.setCrField_fpr (s : State) (n : CrField) (v : BitVec 4) :
    (s.setCrField n v).fpr = s.fpr := rfl
@[simp] theorem State.setCrField_fpscr (s : State) (n : CrField) (v : BitVec 4) :
    (s.setCrField n v).fpscr = s.fpscr := rfl
@[simp] theorem State.setCrField_fpRecent (s : State) (n : CrField) (v : BitVec 4) :
    (s.setCrField n v).fpRecent = s.fpRecent := rfl
@[simp] theorem State.setCrField_fpiWait (s : State) (n : CrField) (v : BitVec 4) :
    (s.setCrField n v).fpiWait = s.fpiWait := rfl
@[simp] theorem State.setCrField_sr (s : State) (n : CrField) (v : BitVec 4) :
    (s.setCrField n v).sr = s.sr := rfl
@[simp] theorem State.setCrField_sdr0 (s : State) (n : CrField) (v : BitVec 4) :
    (s.setCrField n v).sdr0 = s.sdr0 := rfl
@[simp] theorem State.setCrField_sdr1 (s : State) (n : CrField) (v : BitVec 4) :
    (s.setCrField n v).sdr1 = s.sdr1 := rfl
@[simp] theorem State.setCrField_sdrBefore (s : State) (n : CrField) (v : BitVec 4) :
    (s.setCrField n v).sdrBefore = s.sdrBefore := rfl
@[simp] theorem State.setCrField_tid (s : State) (n : CrField) (v : BitVec 4) :
    (s.setCrField n v).tid = s.tid := rfl
@[simp] theorem State.setCrField_rtcu (s : State) (n : CrField) (v : BitVec 4) :
    (s.setCrField n v).rtcu = s.rtcu := rfl
@[simp] theorem State.setCrField_rtcl (s : State) (n : CrField) (v : BitVec 4) :
    (s.setCrField n v).rtcl = s.rtcl := rfl
@[simp] theorem State.setCrField_dec (s : State) (n : CrField) (v : BitVec 4) :
    (s.setCrField n v).dec = s.dec := rfl
@[simp] theorem State.setCrField_eim (s : State) (n : CrField) (v : BitVec 4) :
    (s.setCrField n v).eim = s.eim := rfl
@[simp] theorem State.setCrField_eis (s : State) (n : CrField) (v : BitVec 4) :
    (s.setCrField n v).eis = s.eis := rfl
@[simp] theorem State.setCrField_cil (s : State) (n : CrField) (v : BitVec 4) :
    (s.setCrField n v).cil = s.cil := rfl
@[simp] theorem State.setCrField_eisbidDec (s : State) (n : CrField) (v : BitVec 4) :
    (s.setCrField n v).eisbidDec = s.eisbidDec := rfl
@[simp] theorem State.setCrField_eisbidCheck (s : State) (n : CrField) (v : BitVec 4) :
    (s.setCrField n v).eisbidCheck = s.eisbidCheck := rfl
@[simp] theorem State.setCrField_eisbidEpow (s : State) (n : CrField) (v : BitVec 4) :
    (s.setCrField n v).eisbidEpow = s.eisbidEpow := rfl
@[simp] theorem State.setCrField_ilcrSettle (s : State) (n : CrField) (v : BitVec 4) :
    (s.setCrField n v).ilcrSettle = s.ilcrSettle := rfl
@[simp] theorem State.setCrField_mem (s : State) (n : CrField) (v : BitVec 4) :
    (s.setCrField n v).mem = s.mem := rfl
@[simp] theorem State.setCrField_dc (s : State) (n : CrField) (v : BitVec 4) :
    (s.setCrField n v).dc = s.dc := rfl
@[simp] theorem State.setCrField_ic (s : State) (n : CrField) (v : BitVec 4) :
    (s.setCrField n v).ic = s.ic := rfl
@[simp] theorem State.setCrField_pf (s : State) (n : CrField) (v : BitVec 4) :
    (s.setCrField n v).pf = s.pf := rfl
@[simp] theorem State.setCrField_wb (s : State) (n : CrField) (v : BitVec 4) :
    (s.setCrField n v).wb = s.wb := rfl
@[simp] theorem State.setCrField_tlb (s : State) (n : CrField) (v : BitVec 4) :
    (s.setCrField n v).tlb = s.tlb := rfl
@[simp] theorem State.setCrField_sysReset (s : State) (n : CrField) (v : BitVec 4) :
    (s.setCrField n v).sysReset = s.sysReset := rfl
@[simp] theorem State.setCrField_machineCheck (s : State) (n : CrField) (v : BitVec 4) :
    (s.setCrField n v).machineCheck = s.machineCheck := rfl
@[simp] theorem State.setCrField_checkstopped (s : State) (n : CrField) (v : BitVec 4) :
    (s.setCrField n v).checkstopped = s.checkstopped := rfl
@[simp] theorem State.setCrField_ioccs (s : State) (n : CrField) (v : BitVec 4) :
    (s.setCrField n v).ioccs = s.ioccs := rfl
@[simp] theorem State.setCrField_nvram (s : State) (n : CrField) (v : BitVec 4) :
    (s.setCrField n v).nvram = s.nvram := rfl
@[simp] theorem State.setCrField_keylock (s : State) (n : CrField) (v : BitVec 4) :
    (s.setCrField n v).keylock = s.keylock := rfl
@[simp] theorem State.setCrField_busIn (s : State) (n : CrField) (v : BitVec 4) :
    (s.setCrField n v).busIn = s.busIn := rfl
@[simp] theorem State.setCrField_busLog (s : State) (n : CrField) (v : BitVec 4) :
    (s.setCrField n v).busLog = s.busLog := rfl
@[simp] theorem State.setCrField_agenda (s : State) (n : CrField) (v : BitVec 4) :
    (s.setCrField n v).agenda = s.agenda := rfl
@[simp] theorem State.setCrField_ticksRun (s : State) (n : CrField) (v : BitVec 4) :
    (s.setCrField n v).ticksRun = s.ticksRun := rfl
@[simp] theorem State.setCrField_stepsRun (s : State) (n : CrField) (v : BitVec 4) :
    (s.setCrField n v).stepsRun = s.stepsRun := rfl
@[simp] theorem State.setCrField_draws (s : State) (n : CrField) (v : BitVec 4) :
    (s.setCrField n v).draws = s.draws := rfl
@[simp] theorem State.setCrField_lastCsr (s : State) (n : CrField) (v : BitVec 4) :
    (s.setCrField n v).lastCsr = s.lastCsr := rfl
@[simp] theorem State.setCrField_csrTouched (s : State) (n : CrField) (v : BitVec 4) :
    (s.setCrField n v).csrTouched = s.csrTouched := rfl
@[simp] theorem State.setCrField_entered (s : State) (n : CrField) (v : BitVec 4) :
    (s.setCrField n v).entered = s.entered := rfl
@[simp] theorem State.setCrField_read_reg (s : State) (n : CrField) (v : BitVec 4) (q : RegNum) :
    (s.setCrField n v).reg q = s.reg q := rfl
@[simp] theorem State.setCrField_read_freg (s : State) (n : CrField) (v : BitVec 4) (q : RegNum) :
    (s.setCrField n v).freg q = s.freg q := rfl
@[simp] theorem State.setCrField_read_segment (s : State) (n : CrField) (v : BitVec 4) (m : BitVec 4) :
    (s.setCrField n v).segment m = s.segment m := rfl
@[simp] theorem State.setCrField_read_isIo (s : State) (n : CrField) (v : BitVec 4) (ea : Word) :
    (s.setCrField n v).isIo ea = s.isIo ea := rfl
@[simp] theorem State.setCrField_read_xerSO (s : State) (n : CrField) (v : BitVec 4) :
    (s.setCrField n v).xerSO = s.xerSO := rfl
@[simp] theorem State.setCrField_read_xerCA (s : State) (n : CrField) (v : BitVec 4) :
    (s.setCrField n v).xerCA = s.xerCA := rfl
@[simp] theorem State.setCrField_read_msrPR (s : State) (n : CrField) (v : BitVec 4) :
    (s.setCrField n v).msrPR = s.msrPR := rfl
@[simp] theorem State.setCrField_read_msrFP (s : State) (n : CrField) (v : BitVec 4) :
    (s.setCrField n v).msrFP = s.msrFP := rfl
@[simp] theorem State.setCrField_read_msrFE (s : State) (n : CrField) (v : BitVec 4) :
    (s.setCrField n v).msrFE = s.msrFE := rfl
@[simp] theorem State.setCrField_read_msrAL (s : State) (n : CrField) (v : BitVec 4) :
    (s.setCrField n v).msrAL = s.msrAL := rfl
@[simp] theorem State.setCrField_read_msrDR (s : State) (n : CrField) (v : BitVec 4) :
    (s.setCrField n v).msrDR = s.msrDR := rfl
@[simp] theorem State.setCrField_read_fex (s : State) (n : CrField) (v : BitVec 4) :
    (s.setCrField n v).fex = s.fex := rfl
@[simp] theorem State.setCrField_read_dataByte (s : State) (n : CrField) (v : BitVec 4) (b : Word) :
    (s.setCrField n v).dataByte b = s.dataByte b := rfl

/-! ### setCrBit -/

@[simp] theorem State.setCrBit_cfg (s : State) (i : BitVec 5) (v : Bool) :
    (s.setCrBit i v).cfg = s.cfg := rfl
@[simp] theorem State.setCrBit_gpr (s : State) (i : BitVec 5) (v : Bool) :
    (s.setCrBit i v).gpr = s.gpr := rfl
@[simp] theorem State.setCrBit_mq (s : State) (i : BitVec 5) (v : Bool) :
    (s.setCrBit i v).mq = s.mq := rfl
@[simp] theorem State.setCrBit_xer (s : State) (i : BitVec 5) (v : Bool) :
    (s.setCrBit i v).xer = s.xer := rfl
@[simp] theorem State.setCrBit_pc (s : State) (i : BitVec 5) (v : Bool) :
    (s.setCrBit i v).pc = s.pc := rfl
@[simp] theorem State.setCrBit_cr (s : State) (i : BitVec 5) (v : Bool) :
    (s.setCrBit i v).cr = setBit s.cr i.toNat v := rfl
@[simp] theorem State.setCrBit_lr (s : State) (i : BitVec 5) (v : Bool) :
    (s.setCrBit i v).lr = s.lr := rfl
@[simp] theorem State.setCrBit_ctr (s : State) (i : BitVec 5) (v : Bool) :
    (s.setCrBit i v).ctr = s.ctr := rfl
@[simp] theorem State.setCrBit_msr (s : State) (i : BitVec 5) (v : Bool) :
    (s.setCrBit i v).msr = s.msr := rfl
@[simp] theorem State.setCrBit_srr0 (s : State) (i : BitVec 5) (v : Bool) :
    (s.setCrBit i v).srr0 = s.srr0 := rfl
@[simp] theorem State.setCrBit_srr1 (s : State) (i : BitVec 5) (v : Bool) :
    (s.setCrBit i v).srr1 = s.srr1 := rfl
@[simp] theorem State.setCrBit_dsisr (s : State) (i : BitVec 5) (v : Bool) :
    (s.setCrBit i v).dsisr = s.dsisr := rfl
@[simp] theorem State.setCrBit_dar (s : State) (i : BitVec 5) (v : Bool) :
    (s.setCrBit i v).dar = s.dar := rfl
@[simp] theorem State.setCrBit_fpr (s : State) (i : BitVec 5) (v : Bool) :
    (s.setCrBit i v).fpr = s.fpr := rfl
@[simp] theorem State.setCrBit_fpscr (s : State) (i : BitVec 5) (v : Bool) :
    (s.setCrBit i v).fpscr = s.fpscr := rfl
@[simp] theorem State.setCrBit_fpRecent (s : State) (i : BitVec 5) (v : Bool) :
    (s.setCrBit i v).fpRecent = s.fpRecent := rfl
@[simp] theorem State.setCrBit_fpiWait (s : State) (i : BitVec 5) (v : Bool) :
    (s.setCrBit i v).fpiWait = s.fpiWait := rfl
@[simp] theorem State.setCrBit_sr (s : State) (i : BitVec 5) (v : Bool) :
    (s.setCrBit i v).sr = s.sr := rfl
@[simp] theorem State.setCrBit_sdr0 (s : State) (i : BitVec 5) (v : Bool) :
    (s.setCrBit i v).sdr0 = s.sdr0 := rfl
@[simp] theorem State.setCrBit_sdr1 (s : State) (i : BitVec 5) (v : Bool) :
    (s.setCrBit i v).sdr1 = s.sdr1 := rfl
@[simp] theorem State.setCrBit_sdrBefore (s : State) (i : BitVec 5) (v : Bool) :
    (s.setCrBit i v).sdrBefore = s.sdrBefore := rfl
@[simp] theorem State.setCrBit_tid (s : State) (i : BitVec 5) (v : Bool) :
    (s.setCrBit i v).tid = s.tid := rfl
@[simp] theorem State.setCrBit_rtcu (s : State) (i : BitVec 5) (v : Bool) :
    (s.setCrBit i v).rtcu = s.rtcu := rfl
@[simp] theorem State.setCrBit_rtcl (s : State) (i : BitVec 5) (v : Bool) :
    (s.setCrBit i v).rtcl = s.rtcl := rfl
@[simp] theorem State.setCrBit_dec (s : State) (i : BitVec 5) (v : Bool) :
    (s.setCrBit i v).dec = s.dec := rfl
@[simp] theorem State.setCrBit_eim (s : State) (i : BitVec 5) (v : Bool) :
    (s.setCrBit i v).eim = s.eim := rfl
@[simp] theorem State.setCrBit_eis (s : State) (i : BitVec 5) (v : Bool) :
    (s.setCrBit i v).eis = s.eis := rfl
@[simp] theorem State.setCrBit_cil (s : State) (i : BitVec 5) (v : Bool) :
    (s.setCrBit i v).cil = s.cil := rfl
@[simp] theorem State.setCrBit_eisbidDec (s : State) (i : BitVec 5) (v : Bool) :
    (s.setCrBit i v).eisbidDec = s.eisbidDec := rfl
@[simp] theorem State.setCrBit_eisbidCheck (s : State) (i : BitVec 5) (v : Bool) :
    (s.setCrBit i v).eisbidCheck = s.eisbidCheck := rfl
@[simp] theorem State.setCrBit_eisbidEpow (s : State) (i : BitVec 5) (v : Bool) :
    (s.setCrBit i v).eisbidEpow = s.eisbidEpow := rfl
@[simp] theorem State.setCrBit_ilcrSettle (s : State) (i : BitVec 5) (v : Bool) :
    (s.setCrBit i v).ilcrSettle = s.ilcrSettle := rfl
@[simp] theorem State.setCrBit_mem (s : State) (i : BitVec 5) (v : Bool) :
    (s.setCrBit i v).mem = s.mem := rfl
@[simp] theorem State.setCrBit_dc (s : State) (i : BitVec 5) (v : Bool) :
    (s.setCrBit i v).dc = s.dc := rfl
@[simp] theorem State.setCrBit_ic (s : State) (i : BitVec 5) (v : Bool) :
    (s.setCrBit i v).ic = s.ic := rfl
@[simp] theorem State.setCrBit_pf (s : State) (i : BitVec 5) (v : Bool) :
    (s.setCrBit i v).pf = s.pf := rfl
@[simp] theorem State.setCrBit_wb (s : State) (i : BitVec 5) (v : Bool) :
    (s.setCrBit i v).wb = s.wb := rfl
@[simp] theorem State.setCrBit_tlb (s : State) (i : BitVec 5) (v : Bool) :
    (s.setCrBit i v).tlb = s.tlb := rfl
@[simp] theorem State.setCrBit_sysReset (s : State) (i : BitVec 5) (v : Bool) :
    (s.setCrBit i v).sysReset = s.sysReset := rfl
@[simp] theorem State.setCrBit_machineCheck (s : State) (i : BitVec 5) (v : Bool) :
    (s.setCrBit i v).machineCheck = s.machineCheck := rfl
@[simp] theorem State.setCrBit_checkstopped (s : State) (i : BitVec 5) (v : Bool) :
    (s.setCrBit i v).checkstopped = s.checkstopped := rfl
@[simp] theorem State.setCrBit_ioccs (s : State) (i : BitVec 5) (v : Bool) :
    (s.setCrBit i v).ioccs = s.ioccs := rfl
@[simp] theorem State.setCrBit_nvram (s : State) (i : BitVec 5) (v : Bool) :
    (s.setCrBit i v).nvram = s.nvram := rfl
@[simp] theorem State.setCrBit_keylock (s : State) (i : BitVec 5) (v : Bool) :
    (s.setCrBit i v).keylock = s.keylock := rfl
@[simp] theorem State.setCrBit_busIn (s : State) (i : BitVec 5) (v : Bool) :
    (s.setCrBit i v).busIn = s.busIn := rfl
@[simp] theorem State.setCrBit_busLog (s : State) (i : BitVec 5) (v : Bool) :
    (s.setCrBit i v).busLog = s.busLog := rfl
@[simp] theorem State.setCrBit_agenda (s : State) (i : BitVec 5) (v : Bool) :
    (s.setCrBit i v).agenda = s.agenda := rfl
@[simp] theorem State.setCrBit_ticksRun (s : State) (i : BitVec 5) (v : Bool) :
    (s.setCrBit i v).ticksRun = s.ticksRun := rfl
@[simp] theorem State.setCrBit_stepsRun (s : State) (i : BitVec 5) (v : Bool) :
    (s.setCrBit i v).stepsRun = s.stepsRun := rfl
@[simp] theorem State.setCrBit_draws (s : State) (i : BitVec 5) (v : Bool) :
    (s.setCrBit i v).draws = s.draws := rfl
@[simp] theorem State.setCrBit_lastCsr (s : State) (i : BitVec 5) (v : Bool) :
    (s.setCrBit i v).lastCsr = s.lastCsr := rfl
@[simp] theorem State.setCrBit_csrTouched (s : State) (i : BitVec 5) (v : Bool) :
    (s.setCrBit i v).csrTouched = s.csrTouched := rfl
@[simp] theorem State.setCrBit_entered (s : State) (i : BitVec 5) (v : Bool) :
    (s.setCrBit i v).entered = s.entered := rfl
@[simp] theorem State.setCrBit_read_reg (s : State) (i : BitVec 5) (v : Bool) (q : RegNum) :
    (s.setCrBit i v).reg q = s.reg q := rfl
@[simp] theorem State.setCrBit_read_freg (s : State) (i : BitVec 5) (v : Bool) (q : RegNum) :
    (s.setCrBit i v).freg q = s.freg q := rfl
@[simp] theorem State.setCrBit_read_segment (s : State) (i : BitVec 5) (v : Bool) (m : BitVec 4) :
    (s.setCrBit i v).segment m = s.segment m := rfl
@[simp] theorem State.setCrBit_read_isIo (s : State) (i : BitVec 5) (v : Bool) (ea : Word) :
    (s.setCrBit i v).isIo ea = s.isIo ea := rfl
@[simp] theorem State.setCrBit_read_xerSO (s : State) (i : BitVec 5) (v : Bool) :
    (s.setCrBit i v).xerSO = s.xerSO := rfl
@[simp] theorem State.setCrBit_read_xerCA (s : State) (i : BitVec 5) (v : Bool) :
    (s.setCrBit i v).xerCA = s.xerCA := rfl
@[simp] theorem State.setCrBit_read_msrPR (s : State) (i : BitVec 5) (v : Bool) :
    (s.setCrBit i v).msrPR = s.msrPR := rfl
@[simp] theorem State.setCrBit_read_msrFP (s : State) (i : BitVec 5) (v : Bool) :
    (s.setCrBit i v).msrFP = s.msrFP := rfl
@[simp] theorem State.setCrBit_read_msrFE (s : State) (i : BitVec 5) (v : Bool) :
    (s.setCrBit i v).msrFE = s.msrFE := rfl
@[simp] theorem State.setCrBit_read_msrAL (s : State) (i : BitVec 5) (v : Bool) :
    (s.setCrBit i v).msrAL = s.msrAL := rfl
@[simp] theorem State.setCrBit_read_msrDR (s : State) (i : BitVec 5) (v : Bool) :
    (s.setCrBit i v).msrDR = s.msrDR := rfl
@[simp] theorem State.setCrBit_read_fex (s : State) (i : BitVec 5) (v : Bool) :
    (s.setCrBit i v).fex = s.fex := rfl
@[simp] theorem State.setCrBit_read_dataByte (s : State) (i : BitVec 5) (v : Bool) (b : Word) :
    (s.setCrBit i v).dataByte b = s.dataByte b := rfl

/-! ### setCA -/

@[simp] theorem State.setCA_cfg (s : State) (v : Bool) :
    (s.setCA v).cfg = s.cfg := rfl
@[simp] theorem State.setCA_gpr (s : State) (v : Bool) :
    (s.setCA v).gpr = s.gpr := rfl
@[simp] theorem State.setCA_mq (s : State) (v : Bool) :
    (s.setCA v).mq = s.mq := rfl
@[simp] theorem State.setCA_xer (s : State) (v : Bool) :
    (s.setCA v).xer = setBit s.xer 2 v := rfl
@[simp] theorem State.setCA_pc (s : State) (v : Bool) :
    (s.setCA v).pc = s.pc := rfl
@[simp] theorem State.setCA_cr (s : State) (v : Bool) :
    (s.setCA v).cr = s.cr := rfl
@[simp] theorem State.setCA_lr (s : State) (v : Bool) :
    (s.setCA v).lr = s.lr := rfl
@[simp] theorem State.setCA_ctr (s : State) (v : Bool) :
    (s.setCA v).ctr = s.ctr := rfl
@[simp] theorem State.setCA_msr (s : State) (v : Bool) :
    (s.setCA v).msr = s.msr := rfl
@[simp] theorem State.setCA_srr0 (s : State) (v : Bool) :
    (s.setCA v).srr0 = s.srr0 := rfl
@[simp] theorem State.setCA_srr1 (s : State) (v : Bool) :
    (s.setCA v).srr1 = s.srr1 := rfl
@[simp] theorem State.setCA_dsisr (s : State) (v : Bool) :
    (s.setCA v).dsisr = s.dsisr := rfl
@[simp] theorem State.setCA_dar (s : State) (v : Bool) :
    (s.setCA v).dar = s.dar := rfl
@[simp] theorem State.setCA_fpr (s : State) (v : Bool) :
    (s.setCA v).fpr = s.fpr := rfl
@[simp] theorem State.setCA_fpscr (s : State) (v : Bool) :
    (s.setCA v).fpscr = s.fpscr := rfl
@[simp] theorem State.setCA_fpRecent (s : State) (v : Bool) :
    (s.setCA v).fpRecent = s.fpRecent := rfl
@[simp] theorem State.setCA_fpiWait (s : State) (v : Bool) :
    (s.setCA v).fpiWait = s.fpiWait := rfl
@[simp] theorem State.setCA_sr (s : State) (v : Bool) :
    (s.setCA v).sr = s.sr := rfl
@[simp] theorem State.setCA_sdr0 (s : State) (v : Bool) :
    (s.setCA v).sdr0 = s.sdr0 := rfl
@[simp] theorem State.setCA_sdr1 (s : State) (v : Bool) :
    (s.setCA v).sdr1 = s.sdr1 := rfl
@[simp] theorem State.setCA_sdrBefore (s : State) (v : Bool) :
    (s.setCA v).sdrBefore = s.sdrBefore := rfl
@[simp] theorem State.setCA_tid (s : State) (v : Bool) :
    (s.setCA v).tid = s.tid := rfl
@[simp] theorem State.setCA_rtcu (s : State) (v : Bool) :
    (s.setCA v).rtcu = s.rtcu := rfl
@[simp] theorem State.setCA_rtcl (s : State) (v : Bool) :
    (s.setCA v).rtcl = s.rtcl := rfl
@[simp] theorem State.setCA_dec (s : State) (v : Bool) :
    (s.setCA v).dec = s.dec := rfl
@[simp] theorem State.setCA_eim (s : State) (v : Bool) :
    (s.setCA v).eim = s.eim := rfl
@[simp] theorem State.setCA_eis (s : State) (v : Bool) :
    (s.setCA v).eis = s.eis := rfl
@[simp] theorem State.setCA_cil (s : State) (v : Bool) :
    (s.setCA v).cil = s.cil := rfl
@[simp] theorem State.setCA_eisbidDec (s : State) (v : Bool) :
    (s.setCA v).eisbidDec = s.eisbidDec := rfl
@[simp] theorem State.setCA_eisbidCheck (s : State) (v : Bool) :
    (s.setCA v).eisbidCheck = s.eisbidCheck := rfl
@[simp] theorem State.setCA_eisbidEpow (s : State) (v : Bool) :
    (s.setCA v).eisbidEpow = s.eisbidEpow := rfl
@[simp] theorem State.setCA_ilcrSettle (s : State) (v : Bool) :
    (s.setCA v).ilcrSettle = s.ilcrSettle := rfl
@[simp] theorem State.setCA_mem (s : State) (v : Bool) :
    (s.setCA v).mem = s.mem := rfl
@[simp] theorem State.setCA_dc (s : State) (v : Bool) :
    (s.setCA v).dc = s.dc := rfl
@[simp] theorem State.setCA_ic (s : State) (v : Bool) :
    (s.setCA v).ic = s.ic := rfl
@[simp] theorem State.setCA_pf (s : State) (v : Bool) :
    (s.setCA v).pf = s.pf := rfl
@[simp] theorem State.setCA_wb (s : State) (v : Bool) :
    (s.setCA v).wb = s.wb := rfl
@[simp] theorem State.setCA_tlb (s : State) (v : Bool) :
    (s.setCA v).tlb = s.tlb := rfl
@[simp] theorem State.setCA_sysReset (s : State) (v : Bool) :
    (s.setCA v).sysReset = s.sysReset := rfl
@[simp] theorem State.setCA_machineCheck (s : State) (v : Bool) :
    (s.setCA v).machineCheck = s.machineCheck := rfl
@[simp] theorem State.setCA_checkstopped (s : State) (v : Bool) :
    (s.setCA v).checkstopped = s.checkstopped := rfl
@[simp] theorem State.setCA_ioccs (s : State) (v : Bool) :
    (s.setCA v).ioccs = s.ioccs := rfl
@[simp] theorem State.setCA_nvram (s : State) (v : Bool) :
    (s.setCA v).nvram = s.nvram := rfl
@[simp] theorem State.setCA_keylock (s : State) (v : Bool) :
    (s.setCA v).keylock = s.keylock := rfl
@[simp] theorem State.setCA_busIn (s : State) (v : Bool) :
    (s.setCA v).busIn = s.busIn := rfl
@[simp] theorem State.setCA_busLog (s : State) (v : Bool) :
    (s.setCA v).busLog = s.busLog := rfl
@[simp] theorem State.setCA_agenda (s : State) (v : Bool) :
    (s.setCA v).agenda = s.agenda := rfl
@[simp] theorem State.setCA_ticksRun (s : State) (v : Bool) :
    (s.setCA v).ticksRun = s.ticksRun := rfl
@[simp] theorem State.setCA_stepsRun (s : State) (v : Bool) :
    (s.setCA v).stepsRun = s.stepsRun := rfl
@[simp] theorem State.setCA_draws (s : State) (v : Bool) :
    (s.setCA v).draws = s.draws := rfl
@[simp] theorem State.setCA_lastCsr (s : State) (v : Bool) :
    (s.setCA v).lastCsr = s.lastCsr := rfl
@[simp] theorem State.setCA_csrTouched (s : State) (v : Bool) :
    (s.setCA v).csrTouched = s.csrTouched := rfl
@[simp] theorem State.setCA_entered (s : State) (v : Bool) :
    (s.setCA v).entered = s.entered := rfl
@[simp] theorem State.setCA_read_reg (s : State) (v : Bool) (q : RegNum) :
    (s.setCA v).reg q = s.reg q := rfl
@[simp] theorem State.setCA_read_freg (s : State) (v : Bool) (q : RegNum) :
    (s.setCA v).freg q = s.freg q := rfl
@[simp] theorem State.setCA_read_segment (s : State) (v : Bool) (m : BitVec 4) :
    (s.setCA v).segment m = s.segment m := rfl
@[simp] theorem State.setCA_read_isIo (s : State) (v : Bool) (ea : Word) :
    (s.setCA v).isIo ea = s.isIo ea := rfl
@[simp] theorem State.setCA_read_crField (s : State) (v : Bool) (f : CrField) :
    (s.setCA v).crField f = s.crField f := rfl
@[simp] theorem State.setCA_read_msrPR (s : State) (v : Bool) :
    (s.setCA v).msrPR = s.msrPR := rfl
@[simp] theorem State.setCA_read_msrFP (s : State) (v : Bool) :
    (s.setCA v).msrFP = s.msrFP := rfl
@[simp] theorem State.setCA_read_msrFE (s : State) (v : Bool) :
    (s.setCA v).msrFE = s.msrFE := rfl
@[simp] theorem State.setCA_read_msrAL (s : State) (v : Bool) :
    (s.setCA v).msrAL = s.msrAL := rfl
@[simp] theorem State.setCA_read_msrDR (s : State) (v : Bool) :
    (s.setCA v).msrDR = s.msrDR := rfl
@[simp] theorem State.setCA_read_fex (s : State) (v : Bool) :
    (s.setCA v).fex = s.fex := rfl
@[simp] theorem State.setCA_read_dataByte (s : State) (v : Bool) (b : Word) :
    (s.setCA v).dataByte b = s.dataByte b := rfl

/-! ### setOV -/

@[simp] theorem State.setOV_cfg (s : State) (v : Bool) :
    (s.setOV v).cfg = s.cfg := rfl
@[simp] theorem State.setOV_gpr (s : State) (v : Bool) :
    (s.setOV v).gpr = s.gpr := rfl
@[simp] theorem State.setOV_mq (s : State) (v : Bool) :
    (s.setOV v).mq = s.mq := rfl
@[simp] theorem State.setOV_xer (s : State) (v : Bool) :
    (s.setOV v).xer = setBit (setBit s.xer 1 v) 0 (s.xerSO || v) := rfl
@[simp] theorem State.setOV_pc (s : State) (v : Bool) :
    (s.setOV v).pc = s.pc := rfl
@[simp] theorem State.setOV_cr (s : State) (v : Bool) :
    (s.setOV v).cr = s.cr := rfl
@[simp] theorem State.setOV_lr (s : State) (v : Bool) :
    (s.setOV v).lr = s.lr := rfl
@[simp] theorem State.setOV_ctr (s : State) (v : Bool) :
    (s.setOV v).ctr = s.ctr := rfl
@[simp] theorem State.setOV_msr (s : State) (v : Bool) :
    (s.setOV v).msr = s.msr := rfl
@[simp] theorem State.setOV_srr0 (s : State) (v : Bool) :
    (s.setOV v).srr0 = s.srr0 := rfl
@[simp] theorem State.setOV_srr1 (s : State) (v : Bool) :
    (s.setOV v).srr1 = s.srr1 := rfl
@[simp] theorem State.setOV_dsisr (s : State) (v : Bool) :
    (s.setOV v).dsisr = s.dsisr := rfl
@[simp] theorem State.setOV_dar (s : State) (v : Bool) :
    (s.setOV v).dar = s.dar := rfl
@[simp] theorem State.setOV_fpr (s : State) (v : Bool) :
    (s.setOV v).fpr = s.fpr := rfl
@[simp] theorem State.setOV_fpscr (s : State) (v : Bool) :
    (s.setOV v).fpscr = s.fpscr := rfl
@[simp] theorem State.setOV_fpRecent (s : State) (v : Bool) :
    (s.setOV v).fpRecent = s.fpRecent := rfl
@[simp] theorem State.setOV_fpiWait (s : State) (v : Bool) :
    (s.setOV v).fpiWait = s.fpiWait := rfl
@[simp] theorem State.setOV_sr (s : State) (v : Bool) :
    (s.setOV v).sr = s.sr := rfl
@[simp] theorem State.setOV_sdr0 (s : State) (v : Bool) :
    (s.setOV v).sdr0 = s.sdr0 := rfl
@[simp] theorem State.setOV_sdr1 (s : State) (v : Bool) :
    (s.setOV v).sdr1 = s.sdr1 := rfl
@[simp] theorem State.setOV_sdrBefore (s : State) (v : Bool) :
    (s.setOV v).sdrBefore = s.sdrBefore := rfl
@[simp] theorem State.setOV_tid (s : State) (v : Bool) :
    (s.setOV v).tid = s.tid := rfl
@[simp] theorem State.setOV_rtcu (s : State) (v : Bool) :
    (s.setOV v).rtcu = s.rtcu := rfl
@[simp] theorem State.setOV_rtcl (s : State) (v : Bool) :
    (s.setOV v).rtcl = s.rtcl := rfl
@[simp] theorem State.setOV_dec (s : State) (v : Bool) :
    (s.setOV v).dec = s.dec := rfl
@[simp] theorem State.setOV_eim (s : State) (v : Bool) :
    (s.setOV v).eim = s.eim := rfl
@[simp] theorem State.setOV_eis (s : State) (v : Bool) :
    (s.setOV v).eis = s.eis := rfl
@[simp] theorem State.setOV_cil (s : State) (v : Bool) :
    (s.setOV v).cil = s.cil := rfl
@[simp] theorem State.setOV_eisbidDec (s : State) (v : Bool) :
    (s.setOV v).eisbidDec = s.eisbidDec := rfl
@[simp] theorem State.setOV_eisbidCheck (s : State) (v : Bool) :
    (s.setOV v).eisbidCheck = s.eisbidCheck := rfl
@[simp] theorem State.setOV_eisbidEpow (s : State) (v : Bool) :
    (s.setOV v).eisbidEpow = s.eisbidEpow := rfl
@[simp] theorem State.setOV_ilcrSettle (s : State) (v : Bool) :
    (s.setOV v).ilcrSettle = s.ilcrSettle := rfl
@[simp] theorem State.setOV_mem (s : State) (v : Bool) :
    (s.setOV v).mem = s.mem := rfl
@[simp] theorem State.setOV_dc (s : State) (v : Bool) :
    (s.setOV v).dc = s.dc := rfl
@[simp] theorem State.setOV_ic (s : State) (v : Bool) :
    (s.setOV v).ic = s.ic := rfl
@[simp] theorem State.setOV_pf (s : State) (v : Bool) :
    (s.setOV v).pf = s.pf := rfl
@[simp] theorem State.setOV_wb (s : State) (v : Bool) :
    (s.setOV v).wb = s.wb := rfl
@[simp] theorem State.setOV_tlb (s : State) (v : Bool) :
    (s.setOV v).tlb = s.tlb := rfl
@[simp] theorem State.setOV_sysReset (s : State) (v : Bool) :
    (s.setOV v).sysReset = s.sysReset := rfl
@[simp] theorem State.setOV_machineCheck (s : State) (v : Bool) :
    (s.setOV v).machineCheck = s.machineCheck := rfl
@[simp] theorem State.setOV_checkstopped (s : State) (v : Bool) :
    (s.setOV v).checkstopped = s.checkstopped := rfl
@[simp] theorem State.setOV_ioccs (s : State) (v : Bool) :
    (s.setOV v).ioccs = s.ioccs := rfl
@[simp] theorem State.setOV_nvram (s : State) (v : Bool) :
    (s.setOV v).nvram = s.nvram := rfl
@[simp] theorem State.setOV_keylock (s : State) (v : Bool) :
    (s.setOV v).keylock = s.keylock := rfl
@[simp] theorem State.setOV_busIn (s : State) (v : Bool) :
    (s.setOV v).busIn = s.busIn := rfl
@[simp] theorem State.setOV_busLog (s : State) (v : Bool) :
    (s.setOV v).busLog = s.busLog := rfl
@[simp] theorem State.setOV_agenda (s : State) (v : Bool) :
    (s.setOV v).agenda = s.agenda := rfl
@[simp] theorem State.setOV_ticksRun (s : State) (v : Bool) :
    (s.setOV v).ticksRun = s.ticksRun := rfl
@[simp] theorem State.setOV_stepsRun (s : State) (v : Bool) :
    (s.setOV v).stepsRun = s.stepsRun := rfl
@[simp] theorem State.setOV_draws (s : State) (v : Bool) :
    (s.setOV v).draws = s.draws := rfl
@[simp] theorem State.setOV_lastCsr (s : State) (v : Bool) :
    (s.setOV v).lastCsr = s.lastCsr := rfl
@[simp] theorem State.setOV_csrTouched (s : State) (v : Bool) :
    (s.setOV v).csrTouched = s.csrTouched := rfl
@[simp] theorem State.setOV_entered (s : State) (v : Bool) :
    (s.setOV v).entered = s.entered := rfl
@[simp] theorem State.setOV_read_reg (s : State) (v : Bool) (q : RegNum) :
    (s.setOV v).reg q = s.reg q := rfl
@[simp] theorem State.setOV_read_freg (s : State) (v : Bool) (q : RegNum) :
    (s.setOV v).freg q = s.freg q := rfl
@[simp] theorem State.setOV_read_segment (s : State) (v : Bool) (m : BitVec 4) :
    (s.setOV v).segment m = s.segment m := rfl
@[simp] theorem State.setOV_read_isIo (s : State) (v : Bool) (ea : Word) :
    (s.setOV v).isIo ea = s.isIo ea := rfl
@[simp] theorem State.setOV_read_crField (s : State) (v : Bool) (f : CrField) :
    (s.setOV v).crField f = s.crField f := rfl
@[simp] theorem State.setOV_read_msrPR (s : State) (v : Bool) :
    (s.setOV v).msrPR = s.msrPR := rfl
@[simp] theorem State.setOV_read_msrFP (s : State) (v : Bool) :
    (s.setOV v).msrFP = s.msrFP := rfl
@[simp] theorem State.setOV_read_msrFE (s : State) (v : Bool) :
    (s.setOV v).msrFE = s.msrFE := rfl
@[simp] theorem State.setOV_read_msrAL (s : State) (v : Bool) :
    (s.setOV v).msrAL = s.msrAL := rfl
@[simp] theorem State.setOV_read_msrDR (s : State) (v : Bool) :
    (s.setOV v).msrDR = s.msrDR := rfl
@[simp] theorem State.setOV_read_fex (s : State) (v : Bool) :
    (s.setOV v).fex = s.fex := rfl
@[simp] theorem State.setOV_read_dataByte (s : State) (v : Bool) (b : Word) :
    (s.setOV v).dataByte b = s.dataByte b := rfl

/-! ### interrupt -/

@[simp] theorem State.interrupt_cfg (s : State) (k : IntKind) (a : Word) (i : Half) :
    (s.interrupt k a i).cfg = s.cfg := rfl
@[simp] theorem State.interrupt_gpr (s : State) (k : IntKind) (a : Word) (i : Half) :
    (s.interrupt k a i).gpr = s.gpr := rfl
@[simp] theorem State.interrupt_mq (s : State) (k : IntKind) (a : Word) (i : Half) :
    (s.interrupt k a i).mq = s.mq := rfl
@[simp] theorem State.interrupt_xer (s : State) (k : IntKind) (a : Word) (i : Half) :
    (s.interrupt k a i).xer = s.xer := rfl
@[simp] theorem State.interrupt_pc (s : State) (k : IntKind) (a : Word) (i : Half) :
    (s.interrupt k a i).pc = vectorPrefix s.msrIP + vectorOffset k := rfl
@[simp] theorem State.interrupt_cr (s : State) (k : IntKind) (a : Word) (i : Half) :
    (s.interrupt k a i).cr = s.cr := rfl
@[simp] theorem State.interrupt_lr (s : State) (k : IntKind) (a : Word) (i : Half) :
    (s.interrupt k a i).lr = s.lr := rfl
@[simp] theorem State.interrupt_ctr (s : State) (k : IntKind) (a : Word) (i : Half) :
    (s.interrupt k a i).ctr = s.ctr := rfl
@[simp] theorem State.interrupt_msr (s : State) (k : IntKind) (a : Word) (i : Half) :
    (s.interrupt k a i).msr = s.msr &&& ~~~ clearedMsr s.cfg.impl k := rfl
@[simp] theorem State.interrupt_srr0 (s : State) (k : IntKind) (a : Word) (i : Half) :
    (s.interrupt k a i).srr0 = wordAlign a := rfl
@[simp] theorem State.interrupt_srr1 (s : State) (k : IntKind) (a : Word) (i : Half) :
    (s.interrupt k a i).srr1 = i ++ s.msr.extractLsb' 0 16 := rfl
@[simp] theorem State.interrupt_dsisr (s : State) (k : IntKind) (a : Word) (i : Half) :
    (s.interrupt k a i).dsisr = s.dsisr := rfl
@[simp] theorem State.interrupt_dar (s : State) (k : IntKind) (a : Word) (i : Half) :
    (s.interrupt k a i).dar = s.dar := rfl
@[simp] theorem State.interrupt_fpr (s : State) (k : IntKind) (a : Word) (i : Half) :
    (s.interrupt k a i).fpr = s.fpr := rfl
@[simp] theorem State.interrupt_fpscr (s : State) (k : IntKind) (a : Word) (i : Half) :
    (s.interrupt k a i).fpscr = s.fpscr := rfl
@[simp] theorem State.interrupt_fpRecent (s : State) (k : IntKind) (a : Word) (i : Half) :
    (s.interrupt k a i).fpRecent = s.fpRecent := rfl
@[simp] theorem State.interrupt_fpiWait (s : State) (k : IntKind) (a : Word) (i : Half) :
    (s.interrupt k a i).fpiWait = s.fpiWait := rfl
@[simp] theorem State.interrupt_sr (s : State) (k : IntKind) (a : Word) (i : Half) :
    (s.interrupt k a i).sr = s.sr := rfl
@[simp] theorem State.interrupt_sdr0 (s : State) (k : IntKind) (a : Word) (i : Half) :
    (s.interrupt k a i).sdr0 = s.sdr0 := rfl
@[simp] theorem State.interrupt_sdr1 (s : State) (k : IntKind) (a : Word) (i : Half) :
    (s.interrupt k a i).sdr1 = s.sdr1 := rfl
@[simp] theorem State.interrupt_sdrBefore (s : State) (k : IntKind) (a : Word) (i : Half) :
    (s.interrupt k a i).sdrBefore = [] := rfl
@[simp] theorem State.interrupt_tid (s : State) (k : IntKind) (a : Word) (i : Half) :
    (s.interrupt k a i).tid = s.tid := rfl
@[simp] theorem State.interrupt_rtcu (s : State) (k : IntKind) (a : Word) (i : Half) :
    (s.interrupt k a i).rtcu = s.rtcu := rfl
@[simp] theorem State.interrupt_rtcl (s : State) (k : IntKind) (a : Word) (i : Half) :
    (s.interrupt k a i).rtcl = s.rtcl := rfl
@[simp] theorem State.interrupt_dec (s : State) (k : IntKind) (a : Word) (i : Half) :
    (s.interrupt k a i).dec = s.dec := rfl
@[simp] theorem State.interrupt_eim (s : State) (k : IntKind) (a : Word) (i : Half) :
    (s.interrupt k a i).eim = s.eim := rfl
@[simp] theorem State.interrupt_eis (s : State) (k : IntKind) (a : Word) (i : Half) :
    (s.interrupt k a i).eis = s.eis := rfl
@[simp] theorem State.interrupt_cil (s : State) (k : IntKind) (a : Word) (i : Half) :
    (s.interrupt k a i).cil = s.cil := rfl
@[simp] theorem State.interrupt_eisbidDec (s : State) (k : IntKind) (a : Word) (i : Half) :
    (s.interrupt k a i).eisbidDec = s.eisbidDec := rfl
@[simp] theorem State.interrupt_eisbidCheck (s : State) (k : IntKind) (a : Word) (i : Half) :
    (s.interrupt k a i).eisbidCheck = s.eisbidCheck := rfl
@[simp] theorem State.interrupt_eisbidEpow (s : State) (k : IntKind) (a : Word) (i : Half) :
    (s.interrupt k a i).eisbidEpow = s.eisbidEpow := rfl
@[simp] theorem State.interrupt_ilcrSettle (s : State) (k : IntKind) (a : Word) (i : Half) :
    (s.interrupt k a i).ilcrSettle = s.ilcrSettle := rfl
@[simp] theorem State.interrupt_mem (s : State) (k : IntKind) (a : Word) (i : Half) :
    (s.interrupt k a i).mem = s.mem := rfl
@[simp] theorem State.interrupt_dc (s : State) (k : IntKind) (a : Word) (i : Half) :
    (s.interrupt k a i).dc = s.dc := rfl
@[simp] theorem State.interrupt_ic (s : State) (k : IntKind) (a : Word) (i : Half) :
    (s.interrupt k a i).ic = s.ic := rfl
@[simp] theorem State.interrupt_pf (s : State) (k : IntKind) (a : Word) (i : Half) :
    (s.interrupt k a i).pf = [] := rfl
@[simp] theorem State.interrupt_wb (s : State) (k : IntKind) (a : Word) (i : Half) :
    (s.interrupt k a i).wb = s.wb := rfl
@[simp] theorem State.interrupt_tlb (s : State) (k : IntKind) (a : Word) (i : Half) :
    (s.interrupt k a i).tlb = s.tlb := rfl
@[simp] theorem State.interrupt_sysReset (s : State) (k : IntKind) (a : Word) (i : Half) :
    (s.interrupt k a i).sysReset = s.sysReset := rfl
@[simp] theorem State.interrupt_machineCheck (s : State) (k : IntKind) (a : Word) (i : Half) :
    (s.interrupt k a i).machineCheck = s.machineCheck := rfl
@[simp] theorem State.interrupt_checkstopped (s : State) (k : IntKind) (a : Word) (i : Half) :
    (s.interrupt k a i).checkstopped = s.checkstopped := rfl
@[simp] theorem State.interrupt_ioccs (s : State) (k : IntKind) (a : Word) (i : Half) :
    (s.interrupt k a i).ioccs = s.ioccs := rfl
@[simp] theorem State.interrupt_nvram (s : State) (k : IntKind) (a : Word) (i : Half) :
    (s.interrupt k a i).nvram = s.nvram := rfl
@[simp] theorem State.interrupt_keylock (s : State) (k : IntKind) (a : Word) (i : Half) :
    (s.interrupt k a i).keylock = s.keylock := rfl
@[simp] theorem State.interrupt_busIn (s : State) (k : IntKind) (a : Word) (i : Half) :
    (s.interrupt k a i).busIn = s.busIn := rfl
@[simp] theorem State.interrupt_busLog (s : State) (k : IntKind) (a : Word) (i : Half) :
    (s.interrupt k a i).busLog = s.busLog := rfl
@[simp] theorem State.interrupt_agenda (s : State) (k : IntKind) (a : Word) (i : Half) :
    (s.interrupt k a i).agenda = s.agenda := rfl
@[simp] theorem State.interrupt_ticksRun (s : State) (k : IntKind) (a : Word) (i : Half) :
    (s.interrupt k a i).ticksRun = s.ticksRun := rfl
@[simp] theorem State.interrupt_stepsRun (s : State) (k : IntKind) (a : Word) (i : Half) :
    (s.interrupt k a i).stepsRun = s.stepsRun := rfl
@[simp] theorem State.interrupt_draws (s : State) (k : IntKind) (a : Word) (i : Half) :
    (s.interrupt k a i).draws = s.draws := rfl
@[simp] theorem State.interrupt_lastCsr (s : State) (k : IntKind) (a : Word) (i : Half) :
    (s.interrupt k a i).lastCsr = s.lastCsr := rfl
@[simp] theorem State.interrupt_csrTouched (s : State) (k : IntKind) (a : Word) (i : Half) :
    (s.interrupt k a i).csrTouched = s.csrTouched := rfl
@[simp] theorem State.interrupt_entered (s : State) (k : IntKind) (a : Word) (i : Half) :
    (s.interrupt k a i).entered = true := rfl
@[simp] theorem State.interrupt_read_reg (s : State) (k : IntKind) (a : Word) (i : Half) (q : RegNum) :
    (s.interrupt k a i).reg q = s.reg q := rfl
@[simp] theorem State.interrupt_read_freg (s : State) (k : IntKind) (a : Word) (i : Half) (q : RegNum) :
    (s.interrupt k a i).freg q = s.freg q := rfl
@[simp] theorem State.interrupt_read_segment (s : State) (k : IntKind) (a : Word) (i : Half) (m : BitVec 4) :
    (s.interrupt k a i).segment m = s.segment m := rfl
@[simp] theorem State.interrupt_read_isIo (s : State) (k : IntKind) (a : Word) (i : Half) (ea : Word) :
    (s.interrupt k a i).isIo ea = s.isIo ea := rfl
@[simp] theorem State.interrupt_read_crField (s : State) (k : IntKind) (a : Word) (i : Half) (f : CrField) :
    (s.interrupt k a i).crField f = s.crField f := rfl
@[simp] theorem State.interrupt_read_xerSO (s : State) (k : IntKind) (a : Word) (i : Half) :
    (s.interrupt k a i).xerSO = s.xerSO := rfl
@[simp] theorem State.interrupt_read_xerCA (s : State) (k : IntKind) (a : Word) (i : Half) :
    (s.interrupt k a i).xerCA = s.xerCA := rfl
@[simp] theorem State.interrupt_read_fex (s : State) (k : IntKind) (a : Word) (i : Half) :
    (s.interrupt k a i).fex = s.fex := rfl
@[simp] theorem State.interrupt_read_dataByte (s : State) (k : IntKind) (a : Word) (i : Half) (b : Word) :
    (s.interrupt k a i).dataByte b = s.dataByte b := rfl

/-! ### signal -/

@[simp] theorem State.signal_cfg (s : State) (n : BitVec 6) :
    (s.signal n).cfg = s.cfg := rfl
@[simp] theorem State.signal_gpr (s : State) (n : BitVec 6) :
    (s.signal n).gpr = s.gpr := rfl
@[simp] theorem State.signal_mq (s : State) (n : BitVec 6) :
    (s.signal n).mq = s.mq := rfl
@[simp] theorem State.signal_xer (s : State) (n : BitVec 6) :
    (s.signal n).xer = s.xer := rfl
@[simp] theorem State.signal_pc (s : State) (n : BitVec 6) :
    (s.signal n).pc = s.pc := rfl
@[simp] theorem State.signal_cr (s : State) (n : BitVec 6) :
    (s.signal n).cr = s.cr := rfl
@[simp] theorem State.signal_lr (s : State) (n : BitVec 6) :
    (s.signal n).lr = s.lr := rfl
@[simp] theorem State.signal_ctr (s : State) (n : BitVec 6) :
    (s.signal n).ctr = s.ctr := rfl
@[simp] theorem State.signal_msr (s : State) (n : BitVec 6) :
    (s.signal n).msr = s.msr := rfl
@[simp] theorem State.signal_srr0 (s : State) (n : BitVec 6) :
    (s.signal n).srr0 = s.srr0 := rfl
@[simp] theorem State.signal_srr1 (s : State) (n : BitVec 6) :
    (s.signal n).srr1 = s.srr1 := rfl
@[simp] theorem State.signal_dsisr (s : State) (n : BitVec 6) :
    (s.signal n).dsisr = s.dsisr := rfl
@[simp] theorem State.signal_dar (s : State) (n : BitVec 6) :
    (s.signal n).dar = s.dar := rfl
@[simp] theorem State.signal_fpr (s : State) (n : BitVec 6) :
    (s.signal n).fpr = s.fpr := rfl
@[simp] theorem State.signal_fpscr (s : State) (n : BitVec 6) :
    (s.signal n).fpscr = s.fpscr := rfl
@[simp] theorem State.signal_fpRecent (s : State) (n : BitVec 6) :
    (s.signal n).fpRecent = s.fpRecent := rfl
@[simp] theorem State.signal_fpiWait (s : State) (n : BitVec 6) :
    (s.signal n).fpiWait = s.fpiWait := rfl
@[simp] theorem State.signal_sr (s : State) (n : BitVec 6) :
    (s.signal n).sr = s.sr := rfl
@[simp] theorem State.signal_sdr0 (s : State) (n : BitVec 6) :
    (s.signal n).sdr0 = s.sdr0 := rfl
@[simp] theorem State.signal_sdr1 (s : State) (n : BitVec 6) :
    (s.signal n).sdr1 = s.sdr1 := rfl
@[simp] theorem State.signal_sdrBefore (s : State) (n : BitVec 6) :
    (s.signal n).sdrBefore = s.sdrBefore := rfl
@[simp] theorem State.signal_tid (s : State) (n : BitVec 6) :
    (s.signal n).tid = s.tid := rfl
@[simp] theorem State.signal_rtcu (s : State) (n : BitVec 6) :
    (s.signal n).rtcu = s.rtcu := rfl
@[simp] theorem State.signal_rtcl (s : State) (n : BitVec 6) :
    (s.signal n).rtcl = s.rtcl := rfl
@[simp] theorem State.signal_dec (s : State) (n : BitVec 6) :
    (s.signal n).dec = s.dec := rfl
@[simp] theorem State.signal_eim (s : State) (n : BitVec 6) :
    (s.signal n).eim = s.eim := rfl
@[simp] theorem State.signal_eis (s : State) (n : BitVec 6) :
    (s.signal n).eis = s.eis ||| levelBit n := rfl
@[simp] theorem State.signal_cil (s : State) (n : BitVec 6) :
    (s.signal n).cil = s.cil := rfl
@[simp] theorem State.signal_eisbidDec (s : State) (n : BitVec 6) :
    (s.signal n).eisbidDec = s.eisbidDec := rfl
@[simp] theorem State.signal_eisbidCheck (s : State) (n : BitVec 6) :
    (s.signal n).eisbidCheck = s.eisbidCheck := rfl
@[simp] theorem State.signal_eisbidEpow (s : State) (n : BitVec 6) :
    (s.signal n).eisbidEpow = s.eisbidEpow := rfl
@[simp] theorem State.signal_ilcrSettle (s : State) (n : BitVec 6) :
    (s.signal n).ilcrSettle = s.ilcrSettle := rfl
@[simp] theorem State.signal_mem (s : State) (n : BitVec 6) :
    (s.signal n).mem = s.mem := rfl
@[simp] theorem State.signal_dc (s : State) (n : BitVec 6) :
    (s.signal n).dc = s.dc := rfl
@[simp] theorem State.signal_ic (s : State) (n : BitVec 6) :
    (s.signal n).ic = s.ic := rfl
@[simp] theorem State.signal_pf (s : State) (n : BitVec 6) :
    (s.signal n).pf = s.pf := rfl
@[simp] theorem State.signal_wb (s : State) (n : BitVec 6) :
    (s.signal n).wb = s.wb := rfl
@[simp] theorem State.signal_tlb (s : State) (n : BitVec 6) :
    (s.signal n).tlb = s.tlb := rfl
@[simp] theorem State.signal_sysReset (s : State) (n : BitVec 6) :
    (s.signal n).sysReset = s.sysReset := rfl
@[simp] theorem State.signal_machineCheck (s : State) (n : BitVec 6) :
    (s.signal n).machineCheck = s.machineCheck := rfl
@[simp] theorem State.signal_checkstopped (s : State) (n : BitVec 6) :
    (s.signal n).checkstopped = s.checkstopped := rfl
@[simp] theorem State.signal_ioccs (s : State) (n : BitVec 6) :
    (s.signal n).ioccs = s.ioccs := rfl
@[simp] theorem State.signal_nvram (s : State) (n : BitVec 6) :
    (s.signal n).nvram = s.nvram := rfl
@[simp] theorem State.signal_keylock (s : State) (n : BitVec 6) :
    (s.signal n).keylock = s.keylock := rfl
@[simp] theorem State.signal_busIn (s : State) (n : BitVec 6) :
    (s.signal n).busIn = s.busIn := rfl
@[simp] theorem State.signal_busLog (s : State) (n : BitVec 6) :
    (s.signal n).busLog = s.busLog := rfl
@[simp] theorem State.signal_agenda (s : State) (n : BitVec 6) :
    (s.signal n).agenda = s.agenda := rfl
@[simp] theorem State.signal_ticksRun (s : State) (n : BitVec 6) :
    (s.signal n).ticksRun = s.ticksRun := rfl
@[simp] theorem State.signal_stepsRun (s : State) (n : BitVec 6) :
    (s.signal n).stepsRun = s.stepsRun := rfl
@[simp] theorem State.signal_draws (s : State) (n : BitVec 6) :
    (s.signal n).draws = s.draws := rfl
@[simp] theorem State.signal_lastCsr (s : State) (n : BitVec 6) :
    (s.signal n).lastCsr = s.lastCsr := rfl
@[simp] theorem State.signal_csrTouched (s : State) (n : BitVec 6) :
    (s.signal n).csrTouched = s.csrTouched := rfl
@[simp] theorem State.signal_entered (s : State) (n : BitVec 6) :
    (s.signal n).entered = s.entered := rfl
@[simp] theorem State.signal_read_reg (s : State) (n : BitVec 6) (q : RegNum) :
    (s.signal n).reg q = s.reg q := rfl
@[simp] theorem State.signal_read_freg (s : State) (n : BitVec 6) (q : RegNum) :
    (s.signal n).freg q = s.freg q := rfl
@[simp] theorem State.signal_read_segment (s : State) (n : BitVec 6) (m : BitVec 4) :
    (s.signal n).segment m = s.segment m := rfl
@[simp] theorem State.signal_read_isIo (s : State) (n : BitVec 6) (ea : Word) :
    (s.signal n).isIo ea = s.isIo ea := rfl
@[simp] theorem State.signal_read_crField (s : State) (n : BitVec 6) (f : CrField) :
    (s.signal n).crField f = s.crField f := rfl
@[simp] theorem State.signal_read_xerSO (s : State) (n : BitVec 6) :
    (s.signal n).xerSO = s.xerSO := rfl
@[simp] theorem State.signal_read_xerCA (s : State) (n : BitVec 6) :
    (s.signal n).xerCA = s.xerCA := rfl
@[simp] theorem State.signal_read_msrPR (s : State) (n : BitVec 6) :
    (s.signal n).msrPR = s.msrPR := rfl
@[simp] theorem State.signal_read_msrFP (s : State) (n : BitVec 6) :
    (s.signal n).msrFP = s.msrFP := rfl
@[simp] theorem State.signal_read_msrFE (s : State) (n : BitVec 6) :
    (s.signal n).msrFE = s.msrFE := rfl
@[simp] theorem State.signal_read_msrAL (s : State) (n : BitVec 6) :
    (s.signal n).msrAL = s.msrAL := rfl
@[simp] theorem State.signal_read_msrDR (s : State) (n : BitVec 6) :
    (s.signal n).msrDR = s.msrDR := rfl
@[simp] theorem State.signal_read_fex (s : State) (n : BitVec 6) :
    (s.signal n).fex = s.fex := rfl
@[simp] theorem State.signal_read_dataByte (s : State) (n : BitVec 6) (b : Word) :
    (s.signal n).dataByte b = s.dataByte b := rfl

/-! ### beforeExec -/

@[simp] theorem State.beforeExec_cfg (s : State) :
    (s.beforeExec).cfg = s.cfg := rfl
@[simp] theorem State.beforeExec_gpr (s : State) :
    (s.beforeExec).gpr = s.gpr := rfl
@[simp] theorem State.beforeExec_mq (s : State) :
    (s.beforeExec).mq = s.mq := rfl
@[simp] theorem State.beforeExec_xer (s : State) :
    (s.beforeExec).xer = s.xer := rfl
@[simp] theorem State.beforeExec_pc (s : State) :
    (s.beforeExec).pc = s.pc := rfl
@[simp] theorem State.beforeExec_cr (s : State) :
    (s.beforeExec).cr = s.cr := rfl
@[simp] theorem State.beforeExec_lr (s : State) :
    (s.beforeExec).lr = s.lr := rfl
@[simp] theorem State.beforeExec_ctr (s : State) :
    (s.beforeExec).ctr = s.ctr := rfl
@[simp] theorem State.beforeExec_msr (s : State) :
    (s.beforeExec).msr = s.msr := rfl
@[simp] theorem State.beforeExec_srr0 (s : State) :
    (s.beforeExec).srr0 = s.srr0 := rfl
@[simp] theorem State.beforeExec_srr1 (s : State) :
    (s.beforeExec).srr1 = s.srr1 := rfl
@[simp] theorem State.beforeExec_dsisr (s : State) :
    (s.beforeExec).dsisr = s.dsisr := rfl
@[simp] theorem State.beforeExec_dar (s : State) :
    (s.beforeExec).dar = s.dar := rfl
@[simp] theorem State.beforeExec_fpr (s : State) :
    (s.beforeExec).fpr = s.fpr := rfl
@[simp] theorem State.beforeExec_fpscr (s : State) :
    (s.beforeExec).fpscr = s.fpscr := rfl
@[simp] theorem State.beforeExec_fpRecent (s : State) :
    (s.beforeExec).fpRecent = s.fpRecent := rfl
@[simp] theorem State.beforeExec_fpiWait (s : State) :
    (s.beforeExec).fpiWait = s.fpiWait := rfl
@[simp] theorem State.beforeExec_sr (s : State) :
    (s.beforeExec).sr = s.sr := rfl
@[simp] theorem State.beforeExec_sdr0 (s : State) :
    (s.beforeExec).sdr0 = s.sdr0 := rfl
@[simp] theorem State.beforeExec_sdr1 (s : State) :
    (s.beforeExec).sdr1 = s.sdr1 := rfl
@[simp] theorem State.beforeExec_sdrBefore (s : State) :
    (s.beforeExec).sdrBefore = s.sdrBefore := rfl
@[simp] theorem State.beforeExec_tid (s : State) :
    (s.beforeExec).tid = s.tid := rfl
@[simp] theorem State.beforeExec_rtcu (s : State) :
    (s.beforeExec).rtcu = s.rtcu := rfl
@[simp] theorem State.beforeExec_rtcl (s : State) :
    (s.beforeExec).rtcl = s.rtcl := rfl
@[simp] theorem State.beforeExec_dec (s : State) :
    (s.beforeExec).dec = s.dec := rfl
@[simp] theorem State.beforeExec_eim (s : State) :
    (s.beforeExec).eim = s.eim := rfl
@[simp] theorem State.beforeExec_eis (s : State) :
    (s.beforeExec).eis = s.eis := rfl
@[simp] theorem State.beforeExec_cil (s : State) :
    (s.beforeExec).cil = s.cil := rfl
@[simp] theorem State.beforeExec_eisbidDec (s : State) :
    (s.beforeExec).eisbidDec = s.eisbidDec := rfl
@[simp] theorem State.beforeExec_eisbidCheck (s : State) :
    (s.beforeExec).eisbidCheck = s.eisbidCheck := rfl
@[simp] theorem State.beforeExec_eisbidEpow (s : State) :
    (s.beforeExec).eisbidEpow = s.eisbidEpow := rfl
@[simp] theorem State.beforeExec_ilcrSettle (s : State) :
    (s.beforeExec).ilcrSettle = s.ilcrSettle := rfl
@[simp] theorem State.beforeExec_mem (s : State) :
    (s.beforeExec).mem = s.mem := rfl
@[simp] theorem State.beforeExec_dc (s : State) :
    (s.beforeExec).dc = s.dc := rfl
@[simp] theorem State.beforeExec_ic (s : State) :
    (s.beforeExec).ic = s.ic := rfl
@[simp] theorem State.beforeExec_pf (s : State) :
    (s.beforeExec).pf = s.pf := rfl
@[simp] theorem State.beforeExec_wb (s : State) :
    (s.beforeExec).wb = s.wb := rfl
@[simp] theorem State.beforeExec_tlb (s : State) :
    (s.beforeExec).tlb = s.tlb := rfl
@[simp] theorem State.beforeExec_sysReset (s : State) :
    (s.beforeExec).sysReset = s.sysReset := rfl
@[simp] theorem State.beforeExec_machineCheck (s : State) :
    (s.beforeExec).machineCheck = s.machineCheck := rfl
@[simp] theorem State.beforeExec_checkstopped (s : State) :
    (s.beforeExec).checkstopped = s.checkstopped := rfl
@[simp] theorem State.beforeExec_ioccs (s : State) :
    (s.beforeExec).ioccs = s.ioccs := rfl
@[simp] theorem State.beforeExec_nvram (s : State) :
    (s.beforeExec).nvram = s.nvram := rfl
@[simp] theorem State.beforeExec_keylock (s : State) :
    (s.beforeExec).keylock = s.keylock := rfl
@[simp] theorem State.beforeExec_busIn (s : State) :
    (s.beforeExec).busIn = s.busIn := rfl
@[simp] theorem State.beforeExec_busLog (s : State) :
    (s.beforeExec).busLog = s.busLog := rfl
@[simp] theorem State.beforeExec_agenda (s : State) :
    (s.beforeExec).agenda = s.agenda := rfl
@[simp] theorem State.beforeExec_ticksRun (s : State) :
    (s.beforeExec).ticksRun = s.ticksRun := rfl
@[simp] theorem State.beforeExec_stepsRun (s : State) :
    (s.beforeExec).stepsRun = s.stepsRun := rfl
@[simp] theorem State.beforeExec_draws (s : State) :
    (s.beforeExec).draws = s.draws := rfl
@[simp] theorem State.beforeExec_lastCsr (s : State) :
    (s.beforeExec).lastCsr = s.lastCsr := rfl
@[simp] theorem State.beforeExec_csrTouched (s : State) :
    (s.beforeExec).csrTouched = false := rfl
@[simp] theorem State.beforeExec_entered (s : State) :
    (s.beforeExec).entered = false := rfl
@[simp] theorem State.beforeExec_read_reg (s : State) (q : RegNum) :
    (s.beforeExec).reg q = s.reg q := rfl
@[simp] theorem State.beforeExec_read_freg (s : State) (q : RegNum) :
    (s.beforeExec).freg q = s.freg q := rfl
@[simp] theorem State.beforeExec_read_segment (s : State) (m : BitVec 4) :
    (s.beforeExec).segment m = s.segment m := rfl
@[simp] theorem State.beforeExec_read_isIo (s : State) (ea : Word) :
    (s.beforeExec).isIo ea = s.isIo ea := rfl
@[simp] theorem State.beforeExec_read_crField (s : State) (f : CrField) :
    (s.beforeExec).crField f = s.crField f := rfl
@[simp] theorem State.beforeExec_read_xerSO (s : State) :
    (s.beforeExec).xerSO = s.xerSO := rfl
@[simp] theorem State.beforeExec_read_xerCA (s : State) :
    (s.beforeExec).xerCA = s.xerCA := rfl
@[simp] theorem State.beforeExec_read_msrPR (s : State) :
    (s.beforeExec).msrPR = s.msrPR := rfl
@[simp] theorem State.beforeExec_read_msrFP (s : State) :
    (s.beforeExec).msrFP = s.msrFP := rfl
@[simp] theorem State.beforeExec_read_msrFE (s : State) :
    (s.beforeExec).msrFE = s.msrFE := rfl
@[simp] theorem State.beforeExec_read_msrAL (s : State) :
    (s.beforeExec).msrAL = s.msrAL := rfl
@[simp] theorem State.beforeExec_read_msrDR (s : State) :
    (s.beforeExec).msrDR = s.msrDR := rfl
@[simp] theorem State.beforeExec_read_fex (s : State) :
    (s.beforeExec).fex = s.fex := rfl
@[simp] theorem State.beforeExec_read_dataByte (s : State) (b : Word) :
    (s.beforeExec).dataByte b = s.dataByte b := rfl

/-! ### countStep -/

@[simp] theorem State.countStep_cfg (s : State) :
    (s.countStep).cfg = s.cfg := rfl
@[simp] theorem State.countStep_gpr (s : State) :
    (s.countStep).gpr = s.gpr := rfl
@[simp] theorem State.countStep_mq (s : State) :
    (s.countStep).mq = s.mq := rfl
@[simp] theorem State.countStep_xer (s : State) :
    (s.countStep).xer = s.xer := rfl
@[simp] theorem State.countStep_pc (s : State) :
    (s.countStep).pc = s.pc := rfl
@[simp] theorem State.countStep_cr (s : State) :
    (s.countStep).cr = s.cr := rfl
@[simp] theorem State.countStep_lr (s : State) :
    (s.countStep).lr = s.lr := rfl
@[simp] theorem State.countStep_ctr (s : State) :
    (s.countStep).ctr = s.ctr := rfl
@[simp] theorem State.countStep_msr (s : State) :
    (s.countStep).msr = s.msr := rfl
@[simp] theorem State.countStep_srr0 (s : State) :
    (s.countStep).srr0 = s.srr0 := rfl
@[simp] theorem State.countStep_srr1 (s : State) :
    (s.countStep).srr1 = s.srr1 := rfl
@[simp] theorem State.countStep_dsisr (s : State) :
    (s.countStep).dsisr = s.dsisr := rfl
@[simp] theorem State.countStep_dar (s : State) :
    (s.countStep).dar = s.dar := rfl
@[simp] theorem State.countStep_fpr (s : State) :
    (s.countStep).fpr = s.fpr := rfl
@[simp] theorem State.countStep_fpscr (s : State) :
    (s.countStep).fpscr = s.fpscr := rfl
@[simp] theorem State.countStep_fpRecent (s : State) :
    (s.countStep).fpRecent = s.fpRecent := rfl
@[simp] theorem State.countStep_fpiWait (s : State) :
    (s.countStep).fpiWait = s.fpiWait := rfl
@[simp] theorem State.countStep_sr (s : State) :
    (s.countStep).sr = s.sr := rfl
@[simp] theorem State.countStep_sdr0 (s : State) :
    (s.countStep).sdr0 = s.sdr0 := rfl
@[simp] theorem State.countStep_sdr1 (s : State) :
    (s.countStep).sdr1 = s.sdr1 := rfl
@[simp] theorem State.countStep_sdrBefore (s : State) :
    (s.countStep).sdrBefore = s.sdrBefore := rfl
@[simp] theorem State.countStep_tid (s : State) :
    (s.countStep).tid = s.tid := rfl
@[simp] theorem State.countStep_rtcu (s : State) :
    (s.countStep).rtcu = s.rtcu := rfl
@[simp] theorem State.countStep_rtcl (s : State) :
    (s.countStep).rtcl = s.rtcl := rfl
@[simp] theorem State.countStep_dec (s : State) :
    (s.countStep).dec = s.dec := rfl
@[simp] theorem State.countStep_eim (s : State) :
    (s.countStep).eim = s.eim := rfl
@[simp] theorem State.countStep_eis (s : State) :
    (s.countStep).eis = s.eis := rfl
@[simp] theorem State.countStep_cil (s : State) :
    (s.countStep).cil = s.cil := rfl
@[simp] theorem State.countStep_eisbidDec (s : State) :
    (s.countStep).eisbidDec = s.eisbidDec := rfl
@[simp] theorem State.countStep_eisbidCheck (s : State) :
    (s.countStep).eisbidCheck = s.eisbidCheck := rfl
@[simp] theorem State.countStep_eisbidEpow (s : State) :
    (s.countStep).eisbidEpow = s.eisbidEpow := rfl
@[simp] theorem State.countStep_ilcrSettle (s : State) :
    (s.countStep).ilcrSettle = s.ilcrSettle := rfl
@[simp] theorem State.countStep_mem (s : State) :
    (s.countStep).mem = s.mem := rfl
@[simp] theorem State.countStep_dc (s : State) :
    (s.countStep).dc = s.dc := rfl
@[simp] theorem State.countStep_ic (s : State) :
    (s.countStep).ic = s.ic := rfl
@[simp] theorem State.countStep_pf (s : State) :
    (s.countStep).pf = s.pf := rfl
@[simp] theorem State.countStep_wb (s : State) :
    (s.countStep).wb = s.wb := rfl
@[simp] theorem State.countStep_tlb (s : State) :
    (s.countStep).tlb = s.tlb := rfl
@[simp] theorem State.countStep_sysReset (s : State) :
    (s.countStep).sysReset = s.sysReset := rfl
@[simp] theorem State.countStep_machineCheck (s : State) :
    (s.countStep).machineCheck = s.machineCheck := rfl
@[simp] theorem State.countStep_checkstopped (s : State) :
    (s.countStep).checkstopped = s.checkstopped := rfl
@[simp] theorem State.countStep_ioccs (s : State) :
    (s.countStep).ioccs = s.ioccs := rfl
@[simp] theorem State.countStep_nvram (s : State) :
    (s.countStep).nvram = s.nvram := rfl
@[simp] theorem State.countStep_keylock (s : State) :
    (s.countStep).keylock = s.keylock := rfl
@[simp] theorem State.countStep_busIn (s : State) :
    (s.countStep).busIn = s.busIn := rfl
@[simp] theorem State.countStep_busLog (s : State) :
    (s.countStep).busLog = s.busLog := rfl
@[simp] theorem State.countStep_agenda (s : State) :
    (s.countStep).agenda = s.agenda := rfl
@[simp] theorem State.countStep_ticksRun (s : State) :
    (s.countStep).ticksRun = 0 := rfl
@[simp] theorem State.countStep_stepsRun (s : State) :
    (s.countStep).stepsRun = s.stepsRun + 1 := rfl
@[simp] theorem State.countStep_draws (s : State) :
    (s.countStep).draws = s.draws := rfl
@[simp] theorem State.countStep_lastCsr (s : State) :
    (s.countStep).lastCsr = s.lastCsr := rfl
@[simp] theorem State.countStep_csrTouched (s : State) :
    (s.countStep).csrTouched = s.csrTouched := rfl
@[simp] theorem State.countStep_entered (s : State) :
    (s.countStep).entered = s.entered := rfl
@[simp] theorem State.countStep_read_reg (s : State) (q : RegNum) :
    (s.countStep).reg q = s.reg q := rfl
@[simp] theorem State.countStep_read_freg (s : State) (q : RegNum) :
    (s.countStep).freg q = s.freg q := rfl
@[simp] theorem State.countStep_read_segment (s : State) (m : BitVec 4) :
    (s.countStep).segment m = s.segment m := rfl
@[simp] theorem State.countStep_read_isIo (s : State) (ea : Word) :
    (s.countStep).isIo ea = s.isIo ea := rfl
@[simp] theorem State.countStep_read_crField (s : State) (f : CrField) :
    (s.countStep).crField f = s.crField f := rfl
@[simp] theorem State.countStep_read_xerSO (s : State) :
    (s.countStep).xerSO = s.xerSO := rfl
@[simp] theorem State.countStep_read_xerCA (s : State) :
    (s.countStep).xerCA = s.xerCA := rfl
@[simp] theorem State.countStep_read_msrPR (s : State) :
    (s.countStep).msrPR = s.msrPR := rfl
@[simp] theorem State.countStep_read_msrFP (s : State) :
    (s.countStep).msrFP = s.msrFP := rfl
@[simp] theorem State.countStep_read_msrFE (s : State) :
    (s.countStep).msrFE = s.msrFE := rfl
@[simp] theorem State.countStep_read_msrAL (s : State) :
    (s.countStep).msrAL = s.msrAL := rfl
@[simp] theorem State.countStep_read_msrDR (s : State) :
    (s.countStep).msrDR = s.msrDR := rfl
@[simp] theorem State.countStep_read_fex (s : State) :
    (s.countStep).fex = s.fex := rfl
@[simp] theorem State.countStep_read_dataByte (s : State) (b : Word) :
    (s.countStep).dataByte b = s.dataByte b := rfl

/-! ### drawWord -/

@[simp] theorem State.drawWord_cfg (s : State) :
    s.drawWord.2.cfg = s.cfg := rfl
@[simp] theorem State.drawWord_gpr (s : State) :
    s.drawWord.2.gpr = s.gpr := rfl
@[simp] theorem State.drawWord_mq (s : State) :
    s.drawWord.2.mq = s.mq := rfl
@[simp] theorem State.drawWord_xer (s : State) :
    s.drawWord.2.xer = s.xer := rfl
@[simp] theorem State.drawWord_pc (s : State) :
    s.drawWord.2.pc = s.pc := rfl
@[simp] theorem State.drawWord_cr (s : State) :
    s.drawWord.2.cr = s.cr := rfl
@[simp] theorem State.drawWord_lr (s : State) :
    s.drawWord.2.lr = s.lr := rfl
@[simp] theorem State.drawWord_ctr (s : State) :
    s.drawWord.2.ctr = s.ctr := rfl
@[simp] theorem State.drawWord_msr (s : State) :
    s.drawWord.2.msr = s.msr := rfl
@[simp] theorem State.drawWord_srr0 (s : State) :
    s.drawWord.2.srr0 = s.srr0 := rfl
@[simp] theorem State.drawWord_srr1 (s : State) :
    s.drawWord.2.srr1 = s.srr1 := rfl
@[simp] theorem State.drawWord_dsisr (s : State) :
    s.drawWord.2.dsisr = s.dsisr := rfl
@[simp] theorem State.drawWord_dar (s : State) :
    s.drawWord.2.dar = s.dar := rfl
@[simp] theorem State.drawWord_fpr (s : State) :
    s.drawWord.2.fpr = s.fpr := rfl
@[simp] theorem State.drawWord_fpscr (s : State) :
    s.drawWord.2.fpscr = s.fpscr := rfl
@[simp] theorem State.drawWord_fpRecent (s : State) :
    s.drawWord.2.fpRecent = s.fpRecent := rfl
@[simp] theorem State.drawWord_fpiWait (s : State) :
    s.drawWord.2.fpiWait = s.fpiWait := rfl
@[simp] theorem State.drawWord_sr (s : State) :
    s.drawWord.2.sr = s.sr := rfl
@[simp] theorem State.drawWord_sdr0 (s : State) :
    s.drawWord.2.sdr0 = s.sdr0 := rfl
@[simp] theorem State.drawWord_sdr1 (s : State) :
    s.drawWord.2.sdr1 = s.sdr1 := rfl
@[simp] theorem State.drawWord_sdrBefore (s : State) :
    s.drawWord.2.sdrBefore = s.sdrBefore := rfl
@[simp] theorem State.drawWord_tid (s : State) :
    s.drawWord.2.tid = s.tid := rfl
@[simp] theorem State.drawWord_rtcu (s : State) :
    s.drawWord.2.rtcu = s.rtcu := rfl
@[simp] theorem State.drawWord_rtcl (s : State) :
    s.drawWord.2.rtcl = s.rtcl := rfl
@[simp] theorem State.drawWord_dec (s : State) :
    s.drawWord.2.dec = s.dec := rfl
@[simp] theorem State.drawWord_eim (s : State) :
    s.drawWord.2.eim = s.eim := rfl
@[simp] theorem State.drawWord_eis (s : State) :
    s.drawWord.2.eis = s.eis := rfl
@[simp] theorem State.drawWord_cil (s : State) :
    s.drawWord.2.cil = s.cil := rfl
@[simp] theorem State.drawWord_eisbidDec (s : State) :
    s.drawWord.2.eisbidDec = s.eisbidDec := rfl
@[simp] theorem State.drawWord_eisbidCheck (s : State) :
    s.drawWord.2.eisbidCheck = s.eisbidCheck := rfl
@[simp] theorem State.drawWord_eisbidEpow (s : State) :
    s.drawWord.2.eisbidEpow = s.eisbidEpow := rfl
@[simp] theorem State.drawWord_ilcrSettle (s : State) :
    s.drawWord.2.ilcrSettle = s.ilcrSettle := rfl
@[simp] theorem State.drawWord_mem (s : State) :
    s.drawWord.2.mem = s.mem := rfl
@[simp] theorem State.drawWord_dc (s : State) :
    s.drawWord.2.dc = s.dc := rfl
@[simp] theorem State.drawWord_ic (s : State) :
    s.drawWord.2.ic = s.ic := rfl
@[simp] theorem State.drawWord_pf (s : State) :
    s.drawWord.2.pf = s.pf := rfl
@[simp] theorem State.drawWord_wb (s : State) :
    s.drawWord.2.wb = s.wb := rfl
@[simp] theorem State.drawWord_tlb (s : State) :
    s.drawWord.2.tlb = s.tlb := rfl
@[simp] theorem State.drawWord_sysReset (s : State) :
    s.drawWord.2.sysReset = s.sysReset := rfl
@[simp] theorem State.drawWord_machineCheck (s : State) :
    s.drawWord.2.machineCheck = s.machineCheck := rfl
@[simp] theorem State.drawWord_checkstopped (s : State) :
    s.drawWord.2.checkstopped = s.checkstopped := rfl
@[simp] theorem State.drawWord_ioccs (s : State) :
    s.drawWord.2.ioccs = s.ioccs := rfl
@[simp] theorem State.drawWord_nvram (s : State) :
    s.drawWord.2.nvram = s.nvram := rfl
@[simp] theorem State.drawWord_keylock (s : State) :
    s.drawWord.2.keylock = s.keylock := rfl
@[simp] theorem State.drawWord_busIn (s : State) :
    s.drawWord.2.busIn = s.busIn := rfl
@[simp] theorem State.drawWord_busLog (s : State) :
    s.drawWord.2.busLog = s.busLog := rfl
@[simp] theorem State.drawWord_agenda (s : State) :
    s.drawWord.2.agenda = s.agenda := rfl
@[simp] theorem State.drawWord_ticksRun (s : State) :
    s.drawWord.2.ticksRun = s.ticksRun := rfl
@[simp] theorem State.drawWord_stepsRun (s : State) :
    s.drawWord.2.stepsRun = s.stepsRun := rfl
@[simp] theorem State.drawWord_draws (s : State) :
    s.drawWord.2.draws = s.draws + 1 := rfl
@[simp] theorem State.drawWord_lastCsr (s : State) :
    s.drawWord.2.lastCsr = s.lastCsr := rfl
@[simp] theorem State.drawWord_csrTouched (s : State) :
    s.drawWord.2.csrTouched = s.csrTouched := rfl
@[simp] theorem State.drawWord_entered (s : State) :
    s.drawWord.2.entered = s.entered := rfl
@[simp] theorem State.drawWord_read_reg (s : State) (q : RegNum) :
    s.drawWord.2.reg q = s.reg q := rfl
@[simp] theorem State.drawWord_read_freg (s : State) (q : RegNum) :
    s.drawWord.2.freg q = s.freg q := rfl
@[simp] theorem State.drawWord_read_segment (s : State) (m : BitVec 4) :
    s.drawWord.2.segment m = s.segment m := rfl
@[simp] theorem State.drawWord_read_isIo (s : State) (ea : Word) :
    s.drawWord.2.isIo ea = s.isIo ea := rfl
@[simp] theorem State.drawWord_read_crField (s : State) (f : CrField) :
    s.drawWord.2.crField f = s.crField f := rfl
@[simp] theorem State.drawWord_read_xerSO (s : State) :
    s.drawWord.2.xerSO = s.xerSO := rfl
@[simp] theorem State.drawWord_read_xerCA (s : State) :
    s.drawWord.2.xerCA = s.xerCA := rfl
@[simp] theorem State.drawWord_read_msrPR (s : State) :
    s.drawWord.2.msrPR = s.msrPR := rfl
@[simp] theorem State.drawWord_read_msrFP (s : State) :
    s.drawWord.2.msrFP = s.msrFP := rfl
@[simp] theorem State.drawWord_read_msrFE (s : State) :
    s.drawWord.2.msrFE = s.msrFE := rfl
@[simp] theorem State.drawWord_read_msrAL (s : State) :
    s.drawWord.2.msrAL = s.msrAL := rfl
@[simp] theorem State.drawWord_read_msrDR (s : State) :
    s.drawWord.2.msrDR = s.msrDR := rfl
@[simp] theorem State.drawWord_read_fex (s : State) :
    s.drawWord.2.fex = s.fex := rfl
@[simp] theorem State.drawWord_read_dataByte (s : State) (b : Word) :
    s.drawWord.2.dataByte b = s.dataByte b := rfl

/-! ### drawBit -/

@[simp] theorem State.drawBit_cfg (s : State) :
    s.drawBit.2.cfg = s.cfg := rfl
@[simp] theorem State.drawBit_gpr (s : State) :
    s.drawBit.2.gpr = s.gpr := rfl
@[simp] theorem State.drawBit_mq (s : State) :
    s.drawBit.2.mq = s.mq := rfl
@[simp] theorem State.drawBit_xer (s : State) :
    s.drawBit.2.xer = s.xer := rfl
@[simp] theorem State.drawBit_pc (s : State) :
    s.drawBit.2.pc = s.pc := rfl
@[simp] theorem State.drawBit_cr (s : State) :
    s.drawBit.2.cr = s.cr := rfl
@[simp] theorem State.drawBit_lr (s : State) :
    s.drawBit.2.lr = s.lr := rfl
@[simp] theorem State.drawBit_ctr (s : State) :
    s.drawBit.2.ctr = s.ctr := rfl
@[simp] theorem State.drawBit_msr (s : State) :
    s.drawBit.2.msr = s.msr := rfl
@[simp] theorem State.drawBit_srr0 (s : State) :
    s.drawBit.2.srr0 = s.srr0 := rfl
@[simp] theorem State.drawBit_srr1 (s : State) :
    s.drawBit.2.srr1 = s.srr1 := rfl
@[simp] theorem State.drawBit_dsisr (s : State) :
    s.drawBit.2.dsisr = s.dsisr := rfl
@[simp] theorem State.drawBit_dar (s : State) :
    s.drawBit.2.dar = s.dar := rfl
@[simp] theorem State.drawBit_fpr (s : State) :
    s.drawBit.2.fpr = s.fpr := rfl
@[simp] theorem State.drawBit_fpscr (s : State) :
    s.drawBit.2.fpscr = s.fpscr := rfl
@[simp] theorem State.drawBit_fpRecent (s : State) :
    s.drawBit.2.fpRecent = s.fpRecent := rfl
@[simp] theorem State.drawBit_fpiWait (s : State) :
    s.drawBit.2.fpiWait = s.fpiWait := rfl
@[simp] theorem State.drawBit_sr (s : State) :
    s.drawBit.2.sr = s.sr := rfl
@[simp] theorem State.drawBit_sdr0 (s : State) :
    s.drawBit.2.sdr0 = s.sdr0 := rfl
@[simp] theorem State.drawBit_sdr1 (s : State) :
    s.drawBit.2.sdr1 = s.sdr1 := rfl
@[simp] theorem State.drawBit_sdrBefore (s : State) :
    s.drawBit.2.sdrBefore = s.sdrBefore := rfl
@[simp] theorem State.drawBit_tid (s : State) :
    s.drawBit.2.tid = s.tid := rfl
@[simp] theorem State.drawBit_rtcu (s : State) :
    s.drawBit.2.rtcu = s.rtcu := rfl
@[simp] theorem State.drawBit_rtcl (s : State) :
    s.drawBit.2.rtcl = s.rtcl := rfl
@[simp] theorem State.drawBit_dec (s : State) :
    s.drawBit.2.dec = s.dec := rfl
@[simp] theorem State.drawBit_eim (s : State) :
    s.drawBit.2.eim = s.eim := rfl
@[simp] theorem State.drawBit_eis (s : State) :
    s.drawBit.2.eis = s.eis := rfl
@[simp] theorem State.drawBit_cil (s : State) :
    s.drawBit.2.cil = s.cil := rfl
@[simp] theorem State.drawBit_eisbidDec (s : State) :
    s.drawBit.2.eisbidDec = s.eisbidDec := rfl
@[simp] theorem State.drawBit_eisbidCheck (s : State) :
    s.drawBit.2.eisbidCheck = s.eisbidCheck := rfl
@[simp] theorem State.drawBit_eisbidEpow (s : State) :
    s.drawBit.2.eisbidEpow = s.eisbidEpow := rfl
@[simp] theorem State.drawBit_ilcrSettle (s : State) :
    s.drawBit.2.ilcrSettle = s.ilcrSettle := rfl
@[simp] theorem State.drawBit_mem (s : State) :
    s.drawBit.2.mem = s.mem := rfl
@[simp] theorem State.drawBit_dc (s : State) :
    s.drawBit.2.dc = s.dc := rfl
@[simp] theorem State.drawBit_ic (s : State) :
    s.drawBit.2.ic = s.ic := rfl
@[simp] theorem State.drawBit_pf (s : State) :
    s.drawBit.2.pf = s.pf := rfl
@[simp] theorem State.drawBit_wb (s : State) :
    s.drawBit.2.wb = s.wb := rfl
@[simp] theorem State.drawBit_tlb (s : State) :
    s.drawBit.2.tlb = s.tlb := rfl
@[simp] theorem State.drawBit_sysReset (s : State) :
    s.drawBit.2.sysReset = s.sysReset := rfl
@[simp] theorem State.drawBit_machineCheck (s : State) :
    s.drawBit.2.machineCheck = s.machineCheck := rfl
@[simp] theorem State.drawBit_checkstopped (s : State) :
    s.drawBit.2.checkstopped = s.checkstopped := rfl
@[simp] theorem State.drawBit_ioccs (s : State) :
    s.drawBit.2.ioccs = s.ioccs := rfl
@[simp] theorem State.drawBit_nvram (s : State) :
    s.drawBit.2.nvram = s.nvram := rfl
@[simp] theorem State.drawBit_keylock (s : State) :
    s.drawBit.2.keylock = s.keylock := rfl
@[simp] theorem State.drawBit_busIn (s : State) :
    s.drawBit.2.busIn = s.busIn := rfl
@[simp] theorem State.drawBit_busLog (s : State) :
    s.drawBit.2.busLog = s.busLog := rfl
@[simp] theorem State.drawBit_agenda (s : State) :
    s.drawBit.2.agenda = s.agenda := rfl
@[simp] theorem State.drawBit_ticksRun (s : State) :
    s.drawBit.2.ticksRun = s.ticksRun := rfl
@[simp] theorem State.drawBit_stepsRun (s : State) :
    s.drawBit.2.stepsRun = s.stepsRun := rfl
@[simp] theorem State.drawBit_draws (s : State) :
    s.drawBit.2.draws = s.draws + 1 := rfl
@[simp] theorem State.drawBit_lastCsr (s : State) :
    s.drawBit.2.lastCsr = s.lastCsr := rfl
@[simp] theorem State.drawBit_csrTouched (s : State) :
    s.drawBit.2.csrTouched = s.csrTouched := rfl
@[simp] theorem State.drawBit_entered (s : State) :
    s.drawBit.2.entered = s.entered := rfl
@[simp] theorem State.drawBit_read_reg (s : State) (q : RegNum) :
    s.drawBit.2.reg q = s.reg q := rfl
@[simp] theorem State.drawBit_read_freg (s : State) (q : RegNum) :
    s.drawBit.2.freg q = s.freg q := rfl
@[simp] theorem State.drawBit_read_segment (s : State) (m : BitVec 4) :
    s.drawBit.2.segment m = s.segment m := rfl
@[simp] theorem State.drawBit_read_isIo (s : State) (ea : Word) :
    s.drawBit.2.isIo ea = s.isIo ea := rfl
@[simp] theorem State.drawBit_read_crField (s : State) (f : CrField) :
    s.drawBit.2.crField f = s.crField f := rfl
@[simp] theorem State.drawBit_read_xerSO (s : State) :
    s.drawBit.2.xerSO = s.xerSO := rfl
@[simp] theorem State.drawBit_read_xerCA (s : State) :
    s.drawBit.2.xerCA = s.xerCA := rfl
@[simp] theorem State.drawBit_read_msrPR (s : State) :
    s.drawBit.2.msrPR = s.msrPR := rfl
@[simp] theorem State.drawBit_read_msrFP (s : State) :
    s.drawBit.2.msrFP = s.msrFP := rfl
@[simp] theorem State.drawBit_read_msrFE (s : State) :
    s.drawBit.2.msrFE = s.msrFE := rfl
@[simp] theorem State.drawBit_read_msrAL (s : State) :
    s.drawBit.2.msrAL = s.msrAL := rfl
@[simp] theorem State.drawBit_read_msrDR (s : State) :
    s.drawBit.2.msrDR = s.msrDR := rfl
@[simp] theorem State.drawBit_read_fex (s : State) :
    s.drawBit.2.fex = s.fex := rfl
@[simp] theorem State.drawBit_read_dataByte (s : State) (b : Word) :
    s.drawBit.2.dataByte b = s.dataByte b := rfl

/-! ### drawDWord -/

@[simp] theorem State.drawDWord_cfg (s : State) :
    s.drawDWord.2.cfg = s.cfg := rfl
@[simp] theorem State.drawDWord_gpr (s : State) :
    s.drawDWord.2.gpr = s.gpr := rfl
@[simp] theorem State.drawDWord_mq (s : State) :
    s.drawDWord.2.mq = s.mq := rfl
@[simp] theorem State.drawDWord_xer (s : State) :
    s.drawDWord.2.xer = s.xer := rfl
@[simp] theorem State.drawDWord_pc (s : State) :
    s.drawDWord.2.pc = s.pc := rfl
@[simp] theorem State.drawDWord_cr (s : State) :
    s.drawDWord.2.cr = s.cr := rfl
@[simp] theorem State.drawDWord_lr (s : State) :
    s.drawDWord.2.lr = s.lr := rfl
@[simp] theorem State.drawDWord_ctr (s : State) :
    s.drawDWord.2.ctr = s.ctr := rfl
@[simp] theorem State.drawDWord_msr (s : State) :
    s.drawDWord.2.msr = s.msr := rfl
@[simp] theorem State.drawDWord_srr0 (s : State) :
    s.drawDWord.2.srr0 = s.srr0 := rfl
@[simp] theorem State.drawDWord_srr1 (s : State) :
    s.drawDWord.2.srr1 = s.srr1 := rfl
@[simp] theorem State.drawDWord_dsisr (s : State) :
    s.drawDWord.2.dsisr = s.dsisr := rfl
@[simp] theorem State.drawDWord_dar (s : State) :
    s.drawDWord.2.dar = s.dar := rfl
@[simp] theorem State.drawDWord_fpr (s : State) :
    s.drawDWord.2.fpr = s.fpr := rfl
@[simp] theorem State.drawDWord_fpscr (s : State) :
    s.drawDWord.2.fpscr = s.fpscr := rfl
@[simp] theorem State.drawDWord_fpRecent (s : State) :
    s.drawDWord.2.fpRecent = s.fpRecent := rfl
@[simp] theorem State.drawDWord_fpiWait (s : State) :
    s.drawDWord.2.fpiWait = s.fpiWait := rfl
@[simp] theorem State.drawDWord_sr (s : State) :
    s.drawDWord.2.sr = s.sr := rfl
@[simp] theorem State.drawDWord_sdr0 (s : State) :
    s.drawDWord.2.sdr0 = s.sdr0 := rfl
@[simp] theorem State.drawDWord_sdr1 (s : State) :
    s.drawDWord.2.sdr1 = s.sdr1 := rfl
@[simp] theorem State.drawDWord_sdrBefore (s : State) :
    s.drawDWord.2.sdrBefore = s.sdrBefore := rfl
@[simp] theorem State.drawDWord_tid (s : State) :
    s.drawDWord.2.tid = s.tid := rfl
@[simp] theorem State.drawDWord_rtcu (s : State) :
    s.drawDWord.2.rtcu = s.rtcu := rfl
@[simp] theorem State.drawDWord_rtcl (s : State) :
    s.drawDWord.2.rtcl = s.rtcl := rfl
@[simp] theorem State.drawDWord_dec (s : State) :
    s.drawDWord.2.dec = s.dec := rfl
@[simp] theorem State.drawDWord_eim (s : State) :
    s.drawDWord.2.eim = s.eim := rfl
@[simp] theorem State.drawDWord_eis (s : State) :
    s.drawDWord.2.eis = s.eis := rfl
@[simp] theorem State.drawDWord_cil (s : State) :
    s.drawDWord.2.cil = s.cil := rfl
@[simp] theorem State.drawDWord_eisbidDec (s : State) :
    s.drawDWord.2.eisbidDec = s.eisbidDec := rfl
@[simp] theorem State.drawDWord_eisbidCheck (s : State) :
    s.drawDWord.2.eisbidCheck = s.eisbidCheck := rfl
@[simp] theorem State.drawDWord_eisbidEpow (s : State) :
    s.drawDWord.2.eisbidEpow = s.eisbidEpow := rfl
@[simp] theorem State.drawDWord_ilcrSettle (s : State) :
    s.drawDWord.2.ilcrSettle = s.ilcrSettle := rfl
@[simp] theorem State.drawDWord_mem (s : State) :
    s.drawDWord.2.mem = s.mem := rfl
@[simp] theorem State.drawDWord_dc (s : State) :
    s.drawDWord.2.dc = s.dc := rfl
@[simp] theorem State.drawDWord_ic (s : State) :
    s.drawDWord.2.ic = s.ic := rfl
@[simp] theorem State.drawDWord_pf (s : State) :
    s.drawDWord.2.pf = s.pf := rfl
@[simp] theorem State.drawDWord_wb (s : State) :
    s.drawDWord.2.wb = s.wb := rfl
@[simp] theorem State.drawDWord_tlb (s : State) :
    s.drawDWord.2.tlb = s.tlb := rfl
@[simp] theorem State.drawDWord_sysReset (s : State) :
    s.drawDWord.2.sysReset = s.sysReset := rfl
@[simp] theorem State.drawDWord_machineCheck (s : State) :
    s.drawDWord.2.machineCheck = s.machineCheck := rfl
@[simp] theorem State.drawDWord_checkstopped (s : State) :
    s.drawDWord.2.checkstopped = s.checkstopped := rfl
@[simp] theorem State.drawDWord_ioccs (s : State) :
    s.drawDWord.2.ioccs = s.ioccs := rfl
@[simp] theorem State.drawDWord_nvram (s : State) :
    s.drawDWord.2.nvram = s.nvram := rfl
@[simp] theorem State.drawDWord_keylock (s : State) :
    s.drawDWord.2.keylock = s.keylock := rfl
@[simp] theorem State.drawDWord_busIn (s : State) :
    s.drawDWord.2.busIn = s.busIn := rfl
@[simp] theorem State.drawDWord_busLog (s : State) :
    s.drawDWord.2.busLog = s.busLog := rfl
@[simp] theorem State.drawDWord_agenda (s : State) :
    s.drawDWord.2.agenda = s.agenda := rfl
@[simp] theorem State.drawDWord_ticksRun (s : State) :
    s.drawDWord.2.ticksRun = s.ticksRun := rfl
@[simp] theorem State.drawDWord_stepsRun (s : State) :
    s.drawDWord.2.stepsRun = s.stepsRun := rfl
@[simp] theorem State.drawDWord_draws (s : State) :
    s.drawDWord.2.draws = s.draws + 1 := rfl
@[simp] theorem State.drawDWord_lastCsr (s : State) :
    s.drawDWord.2.lastCsr = s.lastCsr := rfl
@[simp] theorem State.drawDWord_csrTouched (s : State) :
    s.drawDWord.2.csrTouched = s.csrTouched := rfl
@[simp] theorem State.drawDWord_entered (s : State) :
    s.drawDWord.2.entered = s.entered := rfl
@[simp] theorem State.drawDWord_read_reg (s : State) (q : RegNum) :
    s.drawDWord.2.reg q = s.reg q := rfl
@[simp] theorem State.drawDWord_read_freg (s : State) (q : RegNum) :
    s.drawDWord.2.freg q = s.freg q := rfl
@[simp] theorem State.drawDWord_read_segment (s : State) (m : BitVec 4) :
    s.drawDWord.2.segment m = s.segment m := rfl
@[simp] theorem State.drawDWord_read_isIo (s : State) (ea : Word) :
    s.drawDWord.2.isIo ea = s.isIo ea := rfl
@[simp] theorem State.drawDWord_read_crField (s : State) (f : CrField) :
    s.drawDWord.2.crField f = s.crField f := rfl
@[simp] theorem State.drawDWord_read_xerSO (s : State) :
    s.drawDWord.2.xerSO = s.xerSO := rfl
@[simp] theorem State.drawDWord_read_xerCA (s : State) :
    s.drawDWord.2.xerCA = s.xerCA := rfl
@[simp] theorem State.drawDWord_read_msrPR (s : State) :
    s.drawDWord.2.msrPR = s.msrPR := rfl
@[simp] theorem State.drawDWord_read_msrFP (s : State) :
    s.drawDWord.2.msrFP = s.msrFP := rfl
@[simp] theorem State.drawDWord_read_msrFE (s : State) :
    s.drawDWord.2.msrFE = s.msrFE := rfl
@[simp] theorem State.drawDWord_read_msrAL (s : State) :
    s.drawDWord.2.msrAL = s.msrAL := rfl
@[simp] theorem State.drawDWord_read_msrDR (s : State) :
    s.drawDWord.2.msrDR = s.msrDR := rfl
@[simp] theorem State.drawDWord_read_fex (s : State) :
    s.drawDWord.2.fex = s.fex := rfl
@[simp] theorem State.drawDWord_read_dataByte (s : State) (b : Word) :
    s.drawDWord.2.dataByte b = s.dataByte b := rfl

/-! ### drawBytes -/

@[simp] theorem State.drawBytes_cfg (s : State) (n : Nat) :
    (s.drawBytes n).2.cfg = s.cfg := rfl
@[simp] theorem State.drawBytes_gpr (s : State) (n : Nat) :
    (s.drawBytes n).2.gpr = s.gpr := rfl
@[simp] theorem State.drawBytes_mq (s : State) (n : Nat) :
    (s.drawBytes n).2.mq = s.mq := rfl
@[simp] theorem State.drawBytes_xer (s : State) (n : Nat) :
    (s.drawBytes n).2.xer = s.xer := rfl
@[simp] theorem State.drawBytes_pc (s : State) (n : Nat) :
    (s.drawBytes n).2.pc = s.pc := rfl
@[simp] theorem State.drawBytes_cr (s : State) (n : Nat) :
    (s.drawBytes n).2.cr = s.cr := rfl
@[simp] theorem State.drawBytes_lr (s : State) (n : Nat) :
    (s.drawBytes n).2.lr = s.lr := rfl
@[simp] theorem State.drawBytes_ctr (s : State) (n : Nat) :
    (s.drawBytes n).2.ctr = s.ctr := rfl
@[simp] theorem State.drawBytes_msr (s : State) (n : Nat) :
    (s.drawBytes n).2.msr = s.msr := rfl
@[simp] theorem State.drawBytes_srr0 (s : State) (n : Nat) :
    (s.drawBytes n).2.srr0 = s.srr0 := rfl
@[simp] theorem State.drawBytes_srr1 (s : State) (n : Nat) :
    (s.drawBytes n).2.srr1 = s.srr1 := rfl
@[simp] theorem State.drawBytes_dsisr (s : State) (n : Nat) :
    (s.drawBytes n).2.dsisr = s.dsisr := rfl
@[simp] theorem State.drawBytes_dar (s : State) (n : Nat) :
    (s.drawBytes n).2.dar = s.dar := rfl
@[simp] theorem State.drawBytes_fpr (s : State) (n : Nat) :
    (s.drawBytes n).2.fpr = s.fpr := rfl
@[simp] theorem State.drawBytes_fpscr (s : State) (n : Nat) :
    (s.drawBytes n).2.fpscr = s.fpscr := rfl
@[simp] theorem State.drawBytes_fpRecent (s : State) (n : Nat) :
    (s.drawBytes n).2.fpRecent = s.fpRecent := rfl
@[simp] theorem State.drawBytes_fpiWait (s : State) (n : Nat) :
    (s.drawBytes n).2.fpiWait = s.fpiWait := rfl
@[simp] theorem State.drawBytes_sr (s : State) (n : Nat) :
    (s.drawBytes n).2.sr = s.sr := rfl
@[simp] theorem State.drawBytes_sdr0 (s : State) (n : Nat) :
    (s.drawBytes n).2.sdr0 = s.sdr0 := rfl
@[simp] theorem State.drawBytes_sdr1 (s : State) (n : Nat) :
    (s.drawBytes n).2.sdr1 = s.sdr1 := rfl
@[simp] theorem State.drawBytes_sdrBefore (s : State) (n : Nat) :
    (s.drawBytes n).2.sdrBefore = s.sdrBefore := rfl
@[simp] theorem State.drawBytes_tid (s : State) (n : Nat) :
    (s.drawBytes n).2.tid = s.tid := rfl
@[simp] theorem State.drawBytes_rtcu (s : State) (n : Nat) :
    (s.drawBytes n).2.rtcu = s.rtcu := rfl
@[simp] theorem State.drawBytes_rtcl (s : State) (n : Nat) :
    (s.drawBytes n).2.rtcl = s.rtcl := rfl
@[simp] theorem State.drawBytes_dec (s : State) (n : Nat) :
    (s.drawBytes n).2.dec = s.dec := rfl
@[simp] theorem State.drawBytes_eim (s : State) (n : Nat) :
    (s.drawBytes n).2.eim = s.eim := rfl
@[simp] theorem State.drawBytes_eis (s : State) (n : Nat) :
    (s.drawBytes n).2.eis = s.eis := rfl
@[simp] theorem State.drawBytes_cil (s : State) (n : Nat) :
    (s.drawBytes n).2.cil = s.cil := rfl
@[simp] theorem State.drawBytes_eisbidDec (s : State) (n : Nat) :
    (s.drawBytes n).2.eisbidDec = s.eisbidDec := rfl
@[simp] theorem State.drawBytes_eisbidCheck (s : State) (n : Nat) :
    (s.drawBytes n).2.eisbidCheck = s.eisbidCheck := rfl
@[simp] theorem State.drawBytes_eisbidEpow (s : State) (n : Nat) :
    (s.drawBytes n).2.eisbidEpow = s.eisbidEpow := rfl
@[simp] theorem State.drawBytes_ilcrSettle (s : State) (n : Nat) :
    (s.drawBytes n).2.ilcrSettle = s.ilcrSettle := rfl
@[simp] theorem State.drawBytes_mem (s : State) (n : Nat) :
    (s.drawBytes n).2.mem = s.mem := rfl
@[simp] theorem State.drawBytes_dc (s : State) (n : Nat) :
    (s.drawBytes n).2.dc = s.dc := rfl
@[simp] theorem State.drawBytes_ic (s : State) (n : Nat) :
    (s.drawBytes n).2.ic = s.ic := rfl
@[simp] theorem State.drawBytes_pf (s : State) (n : Nat) :
    (s.drawBytes n).2.pf = s.pf := rfl
@[simp] theorem State.drawBytes_wb (s : State) (n : Nat) :
    (s.drawBytes n).2.wb = s.wb := rfl
@[simp] theorem State.drawBytes_tlb (s : State) (n : Nat) :
    (s.drawBytes n).2.tlb = s.tlb := rfl
@[simp] theorem State.drawBytes_sysReset (s : State) (n : Nat) :
    (s.drawBytes n).2.sysReset = s.sysReset := rfl
@[simp] theorem State.drawBytes_machineCheck (s : State) (n : Nat) :
    (s.drawBytes n).2.machineCheck = s.machineCheck := rfl
@[simp] theorem State.drawBytes_checkstopped (s : State) (n : Nat) :
    (s.drawBytes n).2.checkstopped = s.checkstopped := rfl
@[simp] theorem State.drawBytes_ioccs (s : State) (n : Nat) :
    (s.drawBytes n).2.ioccs = s.ioccs := rfl
@[simp] theorem State.drawBytes_nvram (s : State) (n : Nat) :
    (s.drawBytes n).2.nvram = s.nvram := rfl
@[simp] theorem State.drawBytes_keylock (s : State) (n : Nat) :
    (s.drawBytes n).2.keylock = s.keylock := rfl
@[simp] theorem State.drawBytes_busIn (s : State) (n : Nat) :
    (s.drawBytes n).2.busIn = s.busIn := rfl
@[simp] theorem State.drawBytes_busLog (s : State) (n : Nat) :
    (s.drawBytes n).2.busLog = s.busLog := rfl
@[simp] theorem State.drawBytes_agenda (s : State) (n : Nat) :
    (s.drawBytes n).2.agenda = s.agenda := rfl
@[simp] theorem State.drawBytes_ticksRun (s : State) (n : Nat) :
    (s.drawBytes n).2.ticksRun = s.ticksRun := rfl
@[simp] theorem State.drawBytes_stepsRun (s : State) (n : Nat) :
    (s.drawBytes n).2.stepsRun = s.stepsRun := rfl
@[simp] theorem State.drawBytes_draws (s : State) (n : Nat) :
    (s.drawBytes n).2.draws = s.draws + n := rfl
@[simp] theorem State.drawBytes_lastCsr (s : State) (n : Nat) :
    (s.drawBytes n).2.lastCsr = s.lastCsr := rfl
@[simp] theorem State.drawBytes_csrTouched (s : State) (n : Nat) :
    (s.drawBytes n).2.csrTouched = s.csrTouched := rfl
@[simp] theorem State.drawBytes_entered (s : State) (n : Nat) :
    (s.drawBytes n).2.entered = s.entered := rfl
@[simp] theorem State.drawBytes_read_reg (s : State) (n : Nat) (q : RegNum) :
    (s.drawBytes n).2.reg q = s.reg q := rfl
@[simp] theorem State.drawBytes_read_freg (s : State) (n : Nat) (q : RegNum) :
    (s.drawBytes n).2.freg q = s.freg q := rfl
@[simp] theorem State.drawBytes_read_segment (s : State) (n : Nat) (m : BitVec 4) :
    (s.drawBytes n).2.segment m = s.segment m := rfl
@[simp] theorem State.drawBytes_read_isIo (s : State) (n : Nat) (ea : Word) :
    (s.drawBytes n).2.isIo ea = s.isIo ea := rfl
@[simp] theorem State.drawBytes_read_crField (s : State) (n : Nat) (f : CrField) :
    (s.drawBytes n).2.crField f = s.crField f := rfl
@[simp] theorem State.drawBytes_read_xerSO (s : State) (n : Nat) :
    (s.drawBytes n).2.xerSO = s.xerSO := rfl
@[simp] theorem State.drawBytes_read_xerCA (s : State) (n : Nat) :
    (s.drawBytes n).2.xerCA = s.xerCA := rfl
@[simp] theorem State.drawBytes_read_msrPR (s : State) (n : Nat) :
    (s.drawBytes n).2.msrPR = s.msrPR := rfl
@[simp] theorem State.drawBytes_read_msrFP (s : State) (n : Nat) :
    (s.drawBytes n).2.msrFP = s.msrFP := rfl
@[simp] theorem State.drawBytes_read_msrFE (s : State) (n : Nat) :
    (s.drawBytes n).2.msrFE = s.msrFE := rfl
@[simp] theorem State.drawBytes_read_msrAL (s : State) (n : Nat) :
    (s.drawBytes n).2.msrAL = s.msrAL := rfl
@[simp] theorem State.drawBytes_read_msrDR (s : State) (n : Nat) :
    (s.drawBytes n).2.msrDR = s.msrDR := rfl
@[simp] theorem State.drawBytes_read_fex (s : State) (n : Nat) :
    (s.drawBytes n).2.fex = s.fex := rfl
@[simp] theorem State.drawBytes_read_dataByte (s : State) (n : Nat) (b : Word) :
    (s.drawBytes n).2.dataByte b = s.dataByte b := rfl

/-! ### Reading what was written -/

@[simp] theorem State.reg_setReg_self (s : State) (r : RegNum) (v : Word) : (s.setReg r v).reg r = v := by
  simp [State.reg, State.setReg]

theorem State.reg_setReg_of_ne (s : State) {r q : RegNum} (v : Word) (h : q ≠ r) :
    (s.setReg r v).reg q = s.reg q := by
  have : r.toNat ≠ q.toNat := fun e => h (BitVec.eq_of_toNat_eq e.symm)
  simp [State.reg, State.setReg, this]

theorem State.reg_setReg (s : State) (r q : RegNum) (v : Word) :
    (s.setReg r v).reg q = if q = r then v else s.reg q := by
  split
  · next h => rw [h, State.reg_setReg_self]
  · next h => exact State.reg_setReg_of_ne s v h

@[simp] theorem State.freg_setFreg_self (s : State) (r : RegNum) (v : DWord) : (s.setFreg r v).freg r = v := by
  simp [State.freg, State.setFreg]

theorem State.freg_setFreg_of_ne (s : State) {r q : RegNum} (v : DWord) (h : q ≠ r) :
    (s.setFreg r v).freg q = s.freg q := by
  have : r.toNat ≠ q.toNat := fun e => h (BitVec.eq_of_toNat_eq e.symm)
  simp [State.freg, State.setFreg, this]

@[simp] theorem State.segment_setSegment_self (s : State) (n : BitVec 4) (v : Word) :
    (s.setSegment n v).segment n = v := by
  simp [State.segment, State.setSegment]

theorem State.segment_setSegment_of_ne (s : State) {n m : BitVec 4} (v : Word) (h : m ≠ n) :
    (s.setSegment n v).segment m = s.segment m := by
  have : n.toNat ≠ m.toNat := fun e => h (BitVec.eq_of_toNat_eq e.symm)
  simp [State.segment, State.setSegment, this]

end Sys2Proof.Machine
end

