-- ==== Sys2Proof/Laws/Memory.lean ====
section
/-!
SUPPORT. Sparse storage: reading after writing, and the canonical form that every write keeps; main memory built on it.
-/

namespace Sys2Proof.Machine

/-! ### Sparse lists -/

section Cells
variable {α : Type} [DecidableEq α] {d : α}

theorem cellsFrom_mono {lo lo' : Nat} (h : lo' ≤ lo) {l : List (Nat × α)} (hl : cellsFrom d lo l = true) :
    cellsFrom d lo' l = true := by
  cases l with
  | nil => rfl
  | cons e l =>
    simp only [cellsFrom, Bool.and_eq_true, decide_eq_true_eq] at hl ⊢
    exact ⟨⟨by omega, hl.1.2⟩, hl.2⟩

/-- A canonical list reads as the default below its first key. -/
theorem cellRead_of_lt {lo k : Nat} {l : List (Nat × α)} (hl : cellsFrom d lo l = true) (hk : k < lo) :
    cellRead d l k = d := by
  induction l generalizing lo with
  | nil => rfl
  | cons e l ih =>
    obtain ⟨a, v⟩ := e
    simp only [cellsFrom, Bool.and_eq_true, decide_eq_true_eq] at hl
    have : a ≠ k := by omega
    simp only [cellRead, this, if_false]
    exact ih hl.2 (by omega)

/-- A write keeps the canonical form. -/
theorem cellsFrom_cellWrite {lo k : Nat} (v : α) {l : List (Nat × α)} (hl : cellsFrom d lo l = true) (hk : lo ≤ k) :
    cellsFrom d lo (cellWrite d l k v) = true := by
  induction l generalizing lo with
  | nil =>
    by_cases hv : v = d <;> simp [cellWrite, cellsFrom, hv, hk]
  | cons e l ih =>
    obtain ⟨a, x⟩ := e
    have hl' := hl
    simp only [cellsFrom, Bool.and_eq_true, decide_eq_true_eq] at hl'
    obtain ⟨⟨hlo, hx⟩, htl⟩ := hl'
    simp only [cellWrite]
    split
    · split
      · exact hl
      · next hlt hv =>
        simp only [cellsFrom, Bool.and_eq_true, decide_eq_true_eq]
        exact ⟨⟨hk, hv⟩, ⟨⟨by omega, hx⟩, htl⟩⟩
    · split
      · next hka =>
        subst hka
        split
        · exact cellsFrom_mono (by omega) htl
        · next hv =>
          simp only [cellsFrom, Bool.and_eq_true, decide_eq_true_eq]
          exact ⟨⟨hk, hv⟩, htl⟩
      · simp only [cellsFrom, Bool.and_eq_true, decide_eq_true_eq]
        exact ⟨⟨hlo, hx⟩, ih htl (by omega)⟩

/-- A write leaves every other key alone. -/
theorem cellRead_cellWrite_of_ne {k j : Nat} (h : j ≠ k) (v : α) (l : List (Nat × α)) :
    cellRead d (cellWrite d l k v) j = cellRead d l j := by
  have h' : k ≠ j := Ne.symm h
  induction l with
  | nil => by_cases hv : v = d <;> simp [cellWrite, cellRead, hv, h']
  | cons e l ih =>
    obtain ⟨a, x⟩ := e
    simp only [cellWrite]
    split
    · split
      · rfl
      · simp [cellRead, h']
    · split
      · next hka =>
        subst hka
        split <;> simp [cellRead, h']
      · simp only [cellRead, ih]

/-- A read after a write to the same key of a canonical list gives the value written. -/
theorem cellRead_cellWrite_self {lo : Nat} (k : Nat) (v : α) {l : List (Nat × α)} (hl : cellsFrom d lo l = true) :
    cellRead d (cellWrite d l k v) k = v := by
  induction l generalizing lo with
  | nil => by_cases hv : v = d <;> simp [cellWrite, cellRead, hv]
  | cons e l ih =>
    obtain ⟨a, x⟩ := e
    have hl' := hl
    simp only [cellsFrom, Bool.and_eq_true, decide_eq_true_eq] at hl'
    obtain ⟨⟨hlo, hx⟩, htl⟩ := hl'
    simp only [cellWrite]
    split
    · next hlt =>
      split
      · next hv =>
        have : a ≠ k := by omega
        simp only [cellRead, this, if_false, hv]
        exact cellRead_of_lt htl (by omega)
      · simp [cellRead]
    · split
      · next hka =>
        subst hka
        split
        · next hv => rw [hv]; exact cellRead_of_lt htl (by omega)
        · simp [cellRead]
      · next hka =>
        have : a ≠ k := fun e => hka e.symm
        simp only [cellRead, this, if_false]
        exact ih htl

theorem cellRead_cellWrite {lo : Nat} (k j : Nat) (v : α) {l : List (Nat × α)} (hl : cellsFrom d lo l = true) :
    cellRead d (cellWrite d l k v) j = if j = k then v else cellRead d l j := by
  split
  · next h => rw [h, cellRead_cellWrite_self k v hl]
  · next h => exact cellRead_cellWrite_of_ne h v l

end Cells

/-- A byte write keeps the canonical form of a memory. -/
theorem Memory.wf_cellWrite {m : List Host.Cell} (h : Memory.wf m = true) (a : Nat) (v : Byte) :
    Memory.wf (cellWrite Memory.unlisted m a v) = true :=
  cellsFrom_cellWrite v h (Nat.zero_le a)

/-! ### Main memory -/

theorem State.memByte_setMemByte {s : State} (h : Memory.wf s.mem = true) (a b : Nat) (v : Byte) :
    (s.setMemByte a v).memByte b = if s.isRam a = true ∧ b = a then v else s.memByte b := by
  by_cases hr : s.isRam a = true
  · simp only [State.setMemByte, State.memByte, hr, if_true, true_and]
    exact cellRead_cellWrite a b v h
  · simp [State.setMemByte, hr]

theorem State.wf_setMemByte {s : State} (h : Memory.wf s.mem = true) (a : Nat) (v : Byte) :
    Memory.wf (s.setMemByte a v).mem = true := by
  unfold State.setMemByte
  split
  · exact Memory.wf_cellWrite h a v
  · exact h

/-- Writing memory changes nothing else. -/
theorem State.setMemByte_rest (s : State) (a : Nat) (v : Byte) :
    s.setMemByte a v = { s with mem := (s.setMemByte a v).mem } := by
  unfold State.setMemByte
  split <;> rfl

theorem State.wf_setMemBytes (l : List Byte) (a : Nat) {s : State} (h : Memory.wf s.mem = true) :
    Memory.wf (State.setMemBytes l a s).mem = true := by
  induction l generalizing a s with
  | nil => exact h
  | cons b l ih => exact ih (a + 1) (State.wf_setMemByte h a b)

theorem State.setMemBytes_rest (l : List Byte) (a : Nat) (s : State) :
    ∃ m, State.setMemBytes l a s = { s with mem := m } := by
  induction l generalizing a s with
  | nil => exact ⟨s.mem, rfl⟩
  | cons b l ih =>
    obtain ⟨m, hm⟩ := ih (a + 1) (s.setMemByte a b)
    rw [State.setMemByte_rest s a b] at hm
    exact ⟨m, (congrArg (State.setMemBytes l (a + 1)) (State.setMemByte_rest s a b)).trans hm⟩

/-- Memory after bytes were written from `a` on: the bytes themselves where there is memory, the old contents
elsewhere. -/
theorem State.memByte_setMemBytes (l : List Byte) (a b : Nat) {s : State} (h : Memory.wf s.mem = true) :
    (State.setMemBytes l a s).memByte b =
      if a ≤ b ∧ b < a + l.length ∧ s.isRam b = true then l.getD (b - a) 0 else s.memByte b := by
  induction l generalizing a s with
  | nil =>
    have : ¬ (a ≤ b ∧ b < a + ([] : List Byte).length ∧ s.isRam b = true) := by simp; omega
    simp only [this, if_false]; rfl
  | cons x l ih =>
    show (State.setMemBytes l (a + 1) (s.setMemByte a x)).memByte b = _
    rw [ih (a + 1) (State.wf_setMemByte h a x), State.memByte_setMemByte h]
    have hram : (s.setMemByte a x).isRam b = s.isRam b := by
      rw [State.setMemByte_rest s a x]; rfl
    rw [hram]
    by_cases hb : b = a
    · subst hb
      have h1 : ¬ (b + 1 ≤ b ∧ b < b + 1 + l.length ∧ s.isRam b = true) := by omega
      by_cases hr : s.isRam b = true <;> simp [hr]
    · by_cases hin : a + 1 ≤ b ∧ b < a + 1 + l.length ∧ s.isRam b = true
      · have : a ≤ b ∧ b < a + (x :: l).length ∧ s.isRam b = true := by
          obtain ⟨h1, h2, h3⟩ := hin
          exact ⟨by omega, by simp only [List.length_cons]; omega, h3⟩
        rw [if_pos hin, if_pos this]
        have : b - a = (b - (a + 1)) + 1 := by omega
        rw [this, List.getD_cons_succ]
      · have : ¬ (a ≤ b ∧ b < a + (x :: l).length ∧ s.isRam b = true) := by
          rintro ⟨h1, h2, h3⟩
          simp only [List.length_cons] at h2
          exact hin ⟨by omega, by omega, h3⟩
        rw [if_neg hin, if_neg this]
        simp [hb]

end Sys2Proof.Machine
end

