-- ==== Sys2Proof/Laws/Cache.lean ====
section
/-!
SUPPORT. The memory hierarchy: what its operations leave alone, and that loads, reloads and store-backs do not change what
a load finds (20_memory R133, 45_storage_control_instr R664).
-/

namespace Sys2Proof.Machine

/-! ### Storage only -/

theorem State.StorageOnly.refl (s : State) : s.StorageOnly s := rfl

theorem State.StorageOnly.trans {s t u : State} (h1 : s.StorageOnly t) (h2 : t.StorageOnly u) : s.StorageOnly u :=
  show u = (s.withStorage t).withStorage u from
    Eq.trans h2 (congrArg (fun x : State => x.withStorage u) h1)

theorem State.StorageOnly.cfg {s t : State} (h : s.StorageOnly t) : t.cfg = s.cfg :=
  show t.cfg = (s.withStorage t).cfg from congrArg State.cfg h
theorem State.StorageOnly.msr {s t : State} (h : s.StorageOnly t) : t.msr = s.msr :=
  show t.msr = (s.withStorage t).msr from congrArg State.msr h
theorem State.StorageOnly.sr {s t : State} (h : s.StorageOnly t) : t.sr = s.sr :=
  show t.sr = (s.withStorage t).sr from congrArg State.sr h
theorem State.StorageOnly.pc {s t : State} (h : s.StorageOnly t) : t.pc = s.pc :=
  show t.pc = (s.withStorage t).pc from congrArg State.pc h
theorem State.StorageOnly.gpr {s t : State} (h : s.StorageOnly t) : t.gpr = s.gpr :=
  show t.gpr = (s.withStorage t).gpr from congrArg State.gpr h
theorem State.StorageOnly.nvram {s t : State} (h : s.StorageOnly t) : t.nvram = s.nvram :=
  show t.nvram = (s.withStorage t).nvram from congrArg State.nvram h
theorem State.StorageOnly.ioccs {s t : State} (h : s.StorageOnly t) : t.ioccs = s.ioccs :=
  show t.ioccs = (s.withStorage t).ioccs from congrArg State.ioccs h

theorem State.StorageOnly.isIo {s t : State} (h : s.StorageOnly t) (ea : Word) : t.isIo ea = s.isIo ea := by
  unfold State.isIo State.segmentOf State.segment
  rw [h.sr]

theorem State.StorageOnly.msrDR {s t : State} (h : s.StorageOnly t) : t.msrDR = s.msrDR := by
  unfold State.msrDR; rw [h.msr]

theorem State.StorageOnly.canonical {s t : State} (h : s.StorageOnly t) (hm : Memory.wf t.mem = true)
    (hs : s.Canonical) : t.Canonical :=
  ⟨hm, by rw [h.nvram]; exact hs.nvram, by rw [h.ioccs]; exact hs.ioccs⟩

/-- Lines are the same in two states of one implementation. -/
theorem State.lineOf_congr {s t : State} (h : t.cfg = s.cfg) (ra : Word) : t.lineOf ra = s.lineOf ra := by
  unfold State.lineOf State.lineSize; rw [h]

theorem State.lineOff_congr {s t : State} (h : t.cfg = s.cfg) (ra : Word) : t.lineOff ra = s.lineOff ra := by
  unfold State.lineOff State.lineSize; rw [h]

theorem State.isRam_congr {s t : State} (h : t.cfg = s.cfg) (a : Nat) : t.isRam a = s.isRam a := by
  unfold State.isRam; rw [h]

theorem State.isRom_congr {s t : State} (h : t.cfg = s.cfg) (a : Nat) : t.isRom a = s.isRom a := by
  unfold State.isRom; rw [h]

theorem State.lineBacked_congr {s t : State} (h : t.cfg = s.cfg) (line : Nat) :
    t.lineBacked line = s.lineBacked line := by
  unfold State.lineBacked State.lineBase State.isBacked State.isRam State.isRom State.lineSize; rw [h]

theorem State.lineSize_pos (s : State) : 0 < s.lineSize := Nat.two_pow_pos _

/-! ### Store-backs -/

/-- The newest of these store-backs of the line of `a`. -/
def newestOf (size : Nat) (l : List StoreBack) (a : Nat) : Option StoreBack :=
  (l.filter fun e => e.line == a / size).getLast?

/-- What is at `a` once these store-backs have reached memory. -/
def State.underByte (s : State) (l : List StoreBack) (a : Nat) : Byte :=
  match newestOf s.lineSize l a with
  | some e => if s.isRam a then e.bytes.getD (a % s.lineSize) 0 else s.memByte a
  | none => s.memByte a

theorem State.dataByte_eq (s : State) (ra : Word) :
    s.dataByte ra = match s.dataLine (s.lineOf ra) with
      | some d => d.bytes.getD (s.lineOff ra) 0
      | none => s.underByte s.wb ra.toNat := rfl

theorem State.finishStoreBack_rest (s : State) (e : StoreBack) :
    ∃ m b, s.finishStoreBack e = { s with mem := m, machineCheck := b } := by
  obtain ⟨m, hm⟩ := State.setMemBytes_rest ((List.range s.lineSize).map fun i => e.bytes.getD i 0)
    (s.lineBase e.line) s
  exact ⟨m, _, congrArg (fun t : State => { t with machineCheck := s.machineCheck ||
    !((List.range s.lineSize).all fun i => s.isRam (s.lineBase e.line + i)) }) hm⟩

theorem State.wf_finishStoreBack (e : StoreBack) {s : State} (h : Memory.wf s.mem = true) :
    Memory.wf (s.finishStoreBack e).mem = true :=
  State.wf_setMemBytes _ _ h

/-- An address lies in the line its quotient names. -/
theorem line_iff {size : Nat} (h : 0 < size) (line a : Nat) :
    (line * size ≤ a ∧ a < line * size + size) ↔ line = a / size := by
  constructor
  · rintro ⟨h1, h2⟩
    refine ((Nat.div_eq_iff h).2 ?_).symm
    omega
  · rintro rfl
    have h1 := Nat.div_mul_le_self a size
    have h2 := Nat.lt_div_mul_add (a := a) h
    exact ⟨h1, h2⟩

theorem State.memByte_finishStoreBack (e : StoreBack) (a : Nat) {s : State} (h : Memory.wf s.mem = true) :
    (s.finishStoreBack e).memByte a =
      if e.line = a / s.lineSize ∧ s.isRam a = true then e.bytes.getD (a % s.lineSize) 0 else s.memByte a := by
  have hb := State.memByte_setMemBytes ((List.range s.lineSize).map fun i => e.bytes.getD i 0)
    (s.lineBase e.line) a h
  refine Eq.trans hb ?_
  have hline := line_iff s.lineSize_pos e.line a
  simp only [List.length_map, List.length_range]
  by_cases hl : e.line = a / s.lineSize
  · have hin := hline.2 hl
    have hlt : a - s.lineBase e.line < s.lineSize := by
      unfold State.lineBase; omega
    have hoff : a - s.lineBase e.line = a % s.lineSize := by
      unfold State.lineBase
      rw [hl]
      have := Nat.div_add_mod' a s.lineSize
      omega
    have e1 : (s.lineBase e.line ≤ a ∧ a < s.lineBase e.line + s.lineSize ∧ s.isRam a = true) ↔
        (e.line = a / s.lineSize ∧ s.isRam a = true) :=
      ⟨fun x => ⟨hl, x.2.2⟩, fun x => ⟨hin.1, hin.2, x.2⟩⟩
    simp only [e1]
    congr 1
    rw [List.getD_eq_getElem?_getD, List.getElem?_map, List.getElem?_range hlt, hoff]
    rfl
  · have n1 : ¬ (s.lineBase e.line ≤ a ∧ a < s.lineBase e.line + s.lineSize ∧ s.isRam a = true) :=
      fun x => hl (hline.1 ⟨x.1, x.2.1⟩)
    have n2 : ¬ (e.line = a / s.lineSize ∧ s.isRam a = true) := fun x => hl x.1
    rw [if_neg n1, if_neg n2]

theorem State.finishAll_rest (l : List StoreBack) (s : State) :
    ∃ m b, State.finishAll l s = { s with mem := m, machineCheck := b } := by
  induction l generalizing s with
  | nil => exact ⟨s.mem, s.machineCheck, rfl⟩
  | cons e l ih =>
    obtain ⟨m1, b1, h1⟩ := s.finishStoreBack_rest e
    obtain ⟨m, b, h⟩ := ih (s.finishStoreBack e)
    refine ⟨m, b, ?_⟩
    show State.finishAll l (s.finishStoreBack e) = _
    rw [h, h1]

theorem State.wf_finishAll (l : List StoreBack) {s : State} (h : Memory.wf s.mem = true) :
    Memory.wf (State.finishAll l s).mem = true := by
  induction l generalizing s with
  | nil => exact h
  | cons e l ih => exact ih (State.wf_finishStoreBack e h)

theorem newestOf_cons (size : Nat) (e : StoreBack) (l : List StoreBack) (a : Nat) :
    newestOf size (e :: l) a =
      match newestOf size l a with
      | some x => some x
      | none => if e.line = a / size then some e else none := by
  unfold newestOf
  by_cases h : e.line = a / size
  · have : (e.line == a / size) = true := by simp [h]
    rw [List.filter_cons_of_pos (by simpa using this), List.getLast?_cons]
    cases hl : (List.filter (fun e => e.line == a / size) l).getLast? <;> simp [h]
  · have : ¬ (e.line == a / size) = true := by simp [h]
    rw [List.filter_cons_of_neg (by simpa using this)]
    cases hl : (List.filter (fun e => e.line == a / size) l).getLast? <;> simp [h]

theorem State.memByte_finishAll (l : List StoreBack) (a : Nat) {s : State} (h : Memory.wf s.mem = true) :
    (State.finishAll l s).memByte a = s.underByte l a := by
  induction l generalizing s with
  | nil => rfl
  | cons e l ih =>
    obtain ⟨m, b, hr⟩ := s.finishStoreBack_rest e
    have hcfg : (s.finishStoreBack e).cfg = s.cfg := by rw [hr]
    have hsz : (s.finishStoreBack e).lineSize = s.lineSize := by unfold State.lineSize; rw [hcfg]
    show (State.finishAll l (s.finishStoreBack e)).memByte a = _
    rw [ih (State.wf_finishStoreBack e h)]
    unfold State.underByte
    rw [newestOf_cons, hsz, State.isRam_congr hcfg, State.memByte_finishStoreBack e a h]
    cases newestOf s.lineSize l a with
    | some x => by_cases hram : s.isRam a = true <;> simp [hram]
    | none => by_cases hl : e.line = a / s.lineSize <;> by_cases hram : s.isRam a = true <;> simp [hl, hram]

/-- Finishing every store-back begun leaves what loads find (R640). -/
theorem State.finishWb_sameMemory {s : State} (h : Memory.wf s.mem = true) : s.SameMemory s.finishWb := by
  obtain ⟨m, b, hr⟩ := State.finishAll_rest s.wb s
  have hrest : s.finishWb = { s with mem := m, machineCheck := b, wb := [] } := by
    unfold State.finishWb; rw [hr]
  have hmem := fun a => State.memByte_finishAll s.wb a h
  intro ra
  rw [State.dataByte_eq, State.dataByte_eq]
  have hl : s.finishWb.lineOf ra = s.lineOf ra := State.lineOf_congr (by rw [hrest]) ra
  have ho : s.finishWb.lineOff ra = s.lineOff ra := State.lineOff_congr (by rw [hrest]) ra
  have hd : s.finishWb.dataLine (s.lineOf ra) = s.dataLine (s.lineOf ra) := by
    unfold State.dataLine; rw [hrest]
  rw [hl, ho, hd]
  cases s.dataLine (s.lineOf ra) with
  | some d => rfl
  | none => exact (hmem ra.toNat)

theorem State.finishLine_rest (s : State) (line : Nat) :
    ∃ m b, s.finishLine line = { s with mem := m, machineCheck := b, wb := s.wb.filter fun e => e.line != line } := by
  obtain ⟨m, b, hr⟩ := State.finishAll_rest (s.wb.filter fun e => e.line == line) s
  exact ⟨m, b, by unfold State.finishLine; rw [hr]⟩

theorem State.wf_finishLine (line : Nat) {s : State} (h : Memory.wf s.mem = true) :
    Memory.wf (s.finishLine line).mem = true :=
  State.wf_finishAll _ h

theorem newestOf_filter_self (size : Nat) (l : List StoreBack) (a : Nat) :
    newestOf size (l.filter fun e => e.line == a / size) a = newestOf size l a := by
  unfold newestOf
  rw [List.filter_filter]
  simp

theorem newestOf_filter_other (size : Nat) (l : List StoreBack) {a line : Nat} (h : a / size ≠ line) :
    newestOf size (l.filter fun e => e.line == line) a = none := by
  unfold newestOf
  rw [List.filter_filter, List.getLast?_eq_none_iff, List.filter_eq_nil_iff]
  intro e _ he
  simp only [Bool.and_eq_true, beq_iff_eq] at he
  exact h (he.1.symm.trans he.2)

theorem newestOf_drop_other (size : Nat) (l : List StoreBack) {a line : Nat} (h : a / size ≠ line) :
    newestOf size (l.filter fun e => e.line != line) a = newestOf size l a := by
  unfold newestOf
  rw [List.filter_filter]
  congr 1
  refine List.filter_congr ?_
  intro e _
  by_cases he : e.line = a / size
  · have : e.line ≠ line := fun x => h (he.symm.trans x)
    simp [he, h]
  · simp [he]

theorem newestOf_drop_self (size : Nat) (l : List StoreBack) (a : Nat) :
    newestOf size (l.filter fun e => e.line != a / size) a = none := by
  unfold newestOf
  rw [List.filter_filter, List.getLast?_eq_none_iff, List.filter_eq_nil_iff]
  intro e _ he
  simp at he

/-- What is in memory after the store-backs of a line are finished. -/
theorem State.memByte_finishLine (line a : Nat) {s : State} (h : Memory.wf s.mem = true) :
    (s.finishLine line).memByte a = if a / s.lineSize = line then s.underByte s.wb a else s.memByte a := by
  refine Eq.trans (State.memByte_finishAll (s.wb.filter fun e => e.line == line) a h) ?_
  unfold State.underByte
  by_cases hl : a / s.lineSize = line
  · rw [if_pos hl, ← hl, newestOf_filter_self]
  · rw [if_neg hl, newestOf_filter_other _ _ hl]

/-- Finishing the store-backs of a line leaves what is under the data cache. -/
theorem State.underByte_finishLine (line a : Nat) {s : State} (h : Memory.wf s.mem = true) :
    (s.finishLine line).underByte (s.finishLine line).wb a = s.underByte s.wb a := by
  obtain ⟨m, b, hr⟩ := s.finishLine_rest line
  have hm := State.memByte_finishLine line a h
  have hcfg : (s.finishLine line).cfg = s.cfg := by rw [hr]
  have hsz : (s.finishLine line).lineSize = s.lineSize := by unfold State.lineSize; rw [hcfg]
  have hwb : (s.finishLine line).wb = s.wb.filter fun e => e.line != line := by rw [hr]
  unfold State.underByte at hm ⊢
  rw [hsz, State.isRam_congr hcfg, hwb, hm]
  by_cases hl : a / s.lineSize = line
  · subst hl
    rw [newestOf_drop_self]
    simp only [if_true]
  · rw [newestOf_drop_other _ _ hl]
    simp only [if_neg hl]

/-- Finishing the store-backs of a line leaves what loads find. -/
theorem State.finishLine_sameMemory (line : Nat) {s : State} (h : Memory.wf s.mem = true) :
    s.SameMemory (s.finishLine line) := by
  obtain ⟨m, b, hr⟩ := s.finishLine_rest line
  have hcfg : (s.finishLine line).cfg = s.cfg := by rw [hr]
  have hdl : ∀ l, (s.finishLine line).dataLine l = s.dataLine l := fun l => by unfold State.dataLine; rw [hr]
  intro ra
  rw [State.dataByte_eq, State.dataByte_eq, State.lineOf_congr hcfg, State.lineOff_congr hcfg, hdl,
    State.underByte_finishLine line ra.toNat h]

/-! ### Reload and load -/

/-- Touching a line that is not in the data cache and is wholly memory and ROM: the line enters the data cache with
what loads would have found. -/
theorem State.touchLine_absent {s : State} (h : Memory.wf s.mem = true) {line : Nat} (hb : s.lineBacked line = true)
    (hn : s.dataLine line = none) :
    s.StorageOnly (s.touchLine line).2
      ∧ Memory.wf (s.touchLine line).2.mem = true
      ∧ (∃ d, (s.touchLine line).2.dataLine line = some d ∧ d.bytes = (s.touchLine line).1)
      ∧ (∀ l, l ≠ line → (s.touchLine line).2.dataLine l = s.dataLine l)
      ∧ (∀ a, a / s.lineSize = line → (s.touchLine line).1.getD (a % s.lineSize) 0 = s.underByte s.wb a)
      ∧ s.SameMemory (s.touchLine line).2 := by
  obtain ⟨m, b, hr⟩ := s.finishLine_rest line
  have hcfg : (s.finishLine line).cfg = s.cfg := by rw [hr]
  have hsz : (s.finishLine line).lineSize = s.lineSize := by unfold State.lineSize; rw [hcfg]
  have hb' : (s.finishLine line).lineBacked line = true := by rw [State.lineBacked_congr hcfg]; exact hb
  have hdc : (s.finishLine line).dc = s.dc := by rw [hr]
  have hwb : (s.finishLine line).wb = s.wb.filter fun e => e.line != line := by rw [hr]
  have hrel : s.touchLine line =
      ((s.finishLine line).memBytes ((s.finishLine line).lineBase line) (s.finishLine line).lineSize,
        { s.finishLine line with
          dc := ⟨line, (s.finishLine line).memBytes ((s.finishLine line).lineBase line) (s.finishLine line).lineSize,
            false⟩ :: (s.finishLine line).dc }) := by
    have hn' : (s.finishLine line).dataLine line = none := by unfold State.dataLine; rw [hdc]; exact hn
    unfold State.touchLine State.reload
    simp only [hn', hb', if_true]
  have hval : ∀ a, a / s.lineSize = line → (s.touchLine line).1.getD (a % s.lineSize) 0 = s.underByte s.wb a := by
    intro a ha
    have hlt : a % s.lineSize < s.lineSize := Nat.mod_lt _ s.lineSize_pos
    have haddr : (s.finishLine line).lineBase line + a % s.lineSize = a := by
      unfold State.lineBase
      rw [hsz, ← ha]
      exact Nat.div_add_mod' a s.lineSize
    rw [hrel]
    simp only [State.memBytes, hsz]
    rw [List.getD_eq_getElem?_getD, List.getElem?_map, List.getElem?_range hlt]
    simp only [Option.map_some, Option.getD_some]
    rw [haddr, State.memByte_finishLine line a h, if_pos ha]
  have hother : ∀ l, l ≠ line → (s.touchLine line).2.dataLine l = s.dataLine l := by
    intro l hl
    rw [hrel]
    unfold State.dataLine
    simp only [hdc]
    rw [List.find?_cons_of_neg]
    simp only [beq_iff_eq]
    exact fun x => hl x.symm
  have hself : ∃ d, (s.touchLine line).2.dataLine line = some d ∧ d.bytes = (s.touchLine line).1 := by
    rw [hrel]
    unfold State.dataLine
    refine ⟨_, List.find?_cons_of_pos (by simp), rfl⟩
  have hstor : s.StorageOnly (s.touchLine line).2 := by
    rw [hrel]
    unfold State.StorageOnly State.withStorage
    rw [hr]
  refine ⟨hstor, ?_, hself, hother, hval, ?_⟩
  · rw [hrel]; exact State.wf_finishLine line h
  · intro ra
    rw [State.dataByte_eq, State.dataByte_eq, State.lineOf_congr hstor.cfg, State.lineOff_congr hstor.cfg]
    by_cases hl : s.lineOf ra = line
    · obtain ⟨d, hd, hdb⟩ := hself
      rw [hl, hd, hn]
      simp only [hdb]
      exact hval ra.toNat hl
    · rw [hother _ hl]
      have hu : (s.touchLine line).2.underByte (s.touchLine line).2.wb ra.toNat = s.underByte s.wb ra.toNat := by
        refine Eq.trans ?_ (State.underByte_finishLine line ra.toNat h)
        rw [hrel]; rfl
      cases s.dataLine (s.lineOf ra) with
      | some d => rfl
      | none => exact hu

/-- Touching a line that is in the data cache. -/
theorem State.touchLine_present {s : State} {line : Nat} {d : DLine} (hd : s.dataLine line = some d) :
    s.touchLine line = (d.bytes, s.finishLine line) := by
  obtain ⟨m, b, hr⟩ := s.finishLine_rest line
  have hd' : (s.finishLine line).dataLine line = some d := by unfold State.dataLine; rw [hr]; exact hd
  unfold State.touchLine
  simp only [hd']

/-- Touching a line that is in the data cache or is wholly memory and ROM: the line is then in the data cache with what
loads found, and what they find does not change. -/
theorem State.touchLine_spec {s : State} (h : Memory.wf s.mem = true) {ra : Word}
    (hr : (s.dataLine (s.lineOf ra)).isSome = true ∨ s.lineBacked (s.lineOf ra) = true) :
    (s.touchLine (s.lineOf ra)).1.getD (s.lineOff ra) 0 = s.dataByte ra
      ∧ s.StorageOnly (s.touchLine (s.lineOf ra)).2
      ∧ Memory.wf (s.touchLine (s.lineOf ra)).2.mem = true
      ∧ (∀ l, (s.dataLine l).isSome = true → ((s.touchLine (s.lineOf ra)).2.dataLine l).isSome = true)
      ∧ ((s.touchLine (s.lineOf ra)).2.dataLine (s.lineOf ra)).isSome = true
      ∧ s.SameMemory (s.touchLine (s.lineOf ra)).2 := by
  rw [State.dataByte_eq]
  cases hd : s.dataLine (s.lineOf ra) with
  | some d =>
    obtain ⟨m, b, hf⟩ := s.finishLine_rest (s.lineOf ra)
    have hdl : ∀ l, (s.finishLine (s.lineOf ra)).dataLine l = s.dataLine l := fun l => by unfold State.dataLine; rw [hf]
    rw [State.touchLine_present hd]
    refine ⟨rfl, ?_, State.wf_finishLine _ h, fun l hl => ?_, ?_, State.finishLine_sameMemory _ h⟩
    · unfold State.StorageOnly State.withStorage
      rw [hf]
    · simp only; rw [hdl]; exact hl
    · simp only; rw [hdl, hd]; rfl
  | none =>
    have hb : s.lineBacked (s.lineOf ra) = true := by
      rcases hr with hr | hr
      · rw [hd] at hr; cases hr
      · exact hr
    obtain ⟨h1, h2, ⟨d, hd1, hd2⟩, h4, h5, h6⟩ := State.touchLine_absent h hb hd
    refine ⟨h5 ra.toNat rfl, h1, h2, ?_, by rw [hd1]; rfl, h6⟩
    intro l hl
    by_cases e : l = s.lineOf ra
    · rw [e, hd1]; rfl
    · rw [h4 l e]; exact hl

/-- A load of one real byte whose line is there: it finds the byte of `dataByte`, what loads find does not change, and
its line is then in the data cache. -/
theorem State.loadReal_spec {s : State} (h : Memory.wf s.mem = true) {ra : Word}
    (hr : (s.dataLine (s.lineOf ra)).isSome = true ∨ s.lineBacked (s.lineOf ra) = true) :
    (s.loadReal ra).1 = s.dataByte ra
      ∧ s.StorageOnly (s.loadReal ra).2
      ∧ Memory.wf (s.loadReal ra).2.mem = true
      ∧ (∀ l, (s.dataLine l).isSome = true → ((s.loadReal ra).2.dataLine l).isSome = true)
      ∧ s.SameMemory (s.loadReal ra).2 := by
  obtain ⟨h1, h2, h3, h4, _, h6⟩ := State.touchLine_spec h hr
  exact ⟨h1, h2, h3, h4, h6⟩

/-! ### Store -/

theorem getD_setPad (l : List Byte) (i j : Nat) (v : Byte) :
    (setPad l i v).getD j 0 = if j = i then v else l.getD j 0 := by
  induction l generalizing i j with
  | nil =>
    induction i generalizing j with
    | zero => cases j <;> simp [setPad]
    | succ i ih =>
      cases j with
      | zero => simp [setPad]
      | succ j => simpa [setPad] using ih j
  | cons x l ih =>
    cases i with
    | zero => cases j <;> simp [setPad]
    | succ i =>
      cases j with
      | zero => simp [setPad]
      | succ j => simpa [setPad] using ih i j

theorem find?_map_putByte (l : List DLine) (line off n : Nat) (v : Byte) :
    (l.map (putByte line off v)).find? (fun d => d.line == n) =
      (l.find? fun d => d.line == n).map (putByte line off v) := by
  rw [List.find?_map]
  congr 2
  funext d
  simp only [Function.comp, putByte]
  split <;> rfl

/-- A store of one real byte whose line is there and that is not in ROM: loads find it, and the old byte elsewhere. -/
theorem State.storeReal_spec {s : State} (h : Memory.wf s.mem = true) {ra : Word} (v : Byte)
    (hr : (s.dataLine (s.lineOf ra)).isSome = true ∨ s.lineBacked (s.lineOf ra) = true)
    (hrom : s.isRom ra.toNat = false) :
    s.StorageOnly (s.storeReal ra v)
      ∧ Memory.wf (s.storeReal ra v).mem = true
      ∧ (∀ l, (s.dataLine l).isSome = true → ((s.storeReal ra v).dataLine l).isSome = true)
      ∧ (∀ b, (s.storeReal ra v).dataByte b = if b = ra then v else s.dataByte b) := by
  -- the state whose data cache holds the line
  obtain ⟨s1, hs1, hstor, hwf, hmono, hsame, hline⟩ : ∃ s1 : State,
      s.storeReal ra v = { s1 with dc := s1.dc.map (putByte (s.lineOf ra) (s.lineOff ra) v) }
        ∧ s.StorageOnly s1 ∧ Memory.wf s1.mem = true
        ∧ (∀ l, (s.dataLine l).isSome = true → (s1.dataLine l).isSome = true)
        ∧ s.SameMemory s1 ∧ (s1.dataLine (s.lineOf ra)).isSome = true := by
    unfold State.storeReal
    simp only [hrom, Bool.false_eq_true, if_false]
    obtain ⟨_, h2, h3, h4, h5, h6⟩ := State.touchLine_spec h hr
    exact ⟨_, rfl, h2, h3, h4, h6, h5⟩
  have hdl : ∀ l, (s.storeReal ra v).dataLine l = (s1.dataLine l).map (putByte (s.lineOf ra) (s.lineOff ra) v) := by
    intro l
    rw [hs1]
    exact find?_map_putByte s1.dc _ _ l v
  have hst : s.StorageOnly (s.storeReal ra v) := by
    refine hstor.trans ?_
    rw [hs1]; rfl
  refine ⟨hst, by rw [hs1]; exact hwf, ?_, ?_⟩
  · intro l hl
    rw [hdl, Option.isSome_map]
    exact hmono l hl
  · intro b
    rw [← hsame b, State.dataByte_eq, State.dataByte_eq, State.lineOf_congr hst.cfg, State.lineOff_congr hst.cfg,
      State.lineOf_congr hstor.cfg, State.lineOff_congr hstor.cfg, hdl]
    have hunder : (s.storeReal ra v).underByte (s.storeReal ra v).wb b.toNat = s1.underByte s1.wb b.toNat := by
      rw [hs1]; rfl
    by_cases hl : s.lineOf b = s.lineOf ra
    · rw [hl]
      obtain ⟨d, hd⟩ := Option.isSome_iff_exists.1 hline
      have hdline : d.line = s.lineOf ra := by
        have := List.find?_some hd
        simpa using this
      rw [hd]
      simp only [Option.map_some, putByte, hdline, beq_self_eq_true, if_true, getD_setPad]
      have hoff : s.lineOff b = s.lineOff ra ↔ b = ra := by
        constructor
        · intro ho
          apply BitVec.eq_of_toNat_eq
          have e1 := Nat.div_add_mod' b.toNat s.lineSize
          have e2 := Nat.div_add_mod' ra.toNat s.lineSize
          unfold State.lineOf at hl
          unfold State.lineOff at ho
          rw [← e1, ← e2, hl, ho]
        · rintro rfl; rfl
      simp only [hoff]
    · have hne : b ≠ ra := fun e => hl (by rw [e])
      rw [if_neg hne]
      cases hd : s1.dataLine (s.lineOf b) with
      | none => exact hunder
      | some d =>
        have hdline : d.line = s.lineOf b := by
          have := List.find?_some hd
          simpa using this
        have : ¬ (d.line == s.lineOf ra) = true := by
          rw [hdline]; simpa using hl
        simp only [Option.map_some, putByte, this, Bool.false_eq_true, if_false]

end Sys2Proof.Machine
end

