-- ==== Sys2Proof/Laws/Decode.lean ====
section
/-!
SUPPORT. The fields of a word that one of the forms of R222 makes: what `decode` reads where.
-/

namespace Sys2Proof

open Machine (bitsAt bitAt)

@[simp] theorem flag_getLsbD (b : Bool) : (flag b).getLsbD 0 = b := by cases b <;> rfl

@[simp] theorem flag_false : flag false = 0#1 := rfl

@[simp] theorem flag_true : flag true = 1#1 := rfl

@[simp] theorem flag_getElem (b : Bool) : (flag b)[0] = b := by cases b <;> rfl

/-! ### formI -/

@[simp] theorem formI_op (op : BitVec 6) (li : BitVec 24) (x y : BitVec 1) :
    bitsAt (formI op li x y) 0 6 = op := by
  apply BitVec.eq_of_getLsbD_eq
  intro i hi
  simp only [bitsAt, formI, BitVec.getLsbD_extractLsb', BitVec.getLsbD_append]
  split_ifs <;> first | omega | (simp only [hi, decide_true, Bool.true_and]; congr 1; omega)

@[simp] theorem formI_li (op : BitVec 6) (li : BitVec 24) (x y : BitVec 1) :
    bitsAt (formI op li x y) 6 24 = li := by
  apply BitVec.eq_of_getLsbD_eq
  intro i hi
  simp only [bitsAt, formI, BitVec.getLsbD_extractLsb', BitVec.getLsbD_append]
  split_ifs <;> first | omega | (simp only [hi, decide_true, Bool.true_and]; congr 1; omega)

@[simp] theorem formI_x (op : BitVec 6) (li : BitVec 24) (x y : BitVec 1) :
    bitAt (formI op li x y) 30 = x.getLsbD 0 := by
  simp only [bitAt, formI, BitVec.getMsbD_eq_getLsbD, BitVec.getLsbD_append]
  rfl

@[simp] theorem formI_y (op : BitVec 6) (li : BitVec 24) (x y : BitVec 1) :
    bitAt (formI op li x y) 31 = y.getLsbD 0 := by
  simp only [bitAt, formI, BitVec.getMsbD_eq_getLsbD, BitVec.getLsbD_append]
  rfl

/-! ### formB -/

@[simp] theorem formB_op (op : BitVec 6) (a b : BitVec 5) (bd : BitVec 14) (x y : BitVec 1) :
    bitsAt (formB op a b bd x y) 0 6 = op := by
  apply BitVec.eq_of_getLsbD_eq
  intro i hi
  simp only [bitsAt, formB, BitVec.getLsbD_extractLsb', BitVec.getLsbD_append]
  split_ifs <;> first | omega | (simp only [hi, decide_true, Bool.true_and]; congr 1; omega)

@[simp] theorem formB_a (op : BitVec 6) (a b : BitVec 5) (bd : BitVec 14) (x y : BitVec 1) :
    bitsAt (formB op a b bd x y) 6 5 = a := by
  apply BitVec.eq_of_getLsbD_eq
  intro i hi
  simp only [bitsAt, formB, BitVec.getLsbD_extractLsb', BitVec.getLsbD_append]
  split_ifs <;> first | omega | (simp only [hi, decide_true, Bool.true_and]; congr 1; omega)

@[simp] theorem formB_b (op : BitVec 6) (a b : BitVec 5) (bd : BitVec 14) (x y : BitVec 1) :
    bitsAt (formB op a b bd x y) 11 5 = b := by
  apply BitVec.eq_of_getLsbD_eq
  intro i hi
  simp only [bitsAt, formB, BitVec.getLsbD_extractLsb', BitVec.getLsbD_append]
  split_ifs <;> first | omega | (simp only [hi, decide_true, Bool.true_and]; congr 1; omega)

@[simp] theorem formB_bd (op : BitVec 6) (a b : BitVec 5) (bd : BitVec 14) (x y : BitVec 1) :
    bitsAt (formB op a b bd x y) 16 14 = bd := by
  apply BitVec.eq_of_getLsbD_eq
  intro i hi
  simp only [bitsAt, formB, BitVec.getLsbD_extractLsb', BitVec.getLsbD_append]
  split_ifs <;> first | omega | (simp only [hi, decide_true, Bool.true_and]; congr 1; omega)

@[simp] theorem formB_x (op : BitVec 6) (a b : BitVec 5) (bd : BitVec 14) (x y : BitVec 1) :
    bitAt (formB op a b bd x y) 30 = x.getLsbD 0 := by
  simp only [bitAt, formB, BitVec.getMsbD_eq_getLsbD, BitVec.getLsbD_append]
  rfl

@[simp] theorem formB_y (op : BitVec 6) (a b : BitVec 5) (bd : BitVec 14) (x y : BitVec 1) :
    bitAt (formB op a b bd x y) 31 = y.getLsbD 0 := by
  simp only [bitAt, formB, BitVec.getMsbD_eq_getLsbD, BitVec.getLsbD_append]
  rfl

/-! ### formSC -/

@[simp] theorem formSC_op (op : BitVec 6) (fl1 : BitVec 4) (lev : BitVec 7) (fl2 : BitVec 3) (x y : BitVec 1) :
    bitsAt (formSC op fl1 lev fl2 x y) 0 6 = op := by
  apply BitVec.eq_of_getLsbD_eq
  intro i hi
  simp only [bitsAt, formSC, BitVec.getLsbD_extractLsb', BitVec.getLsbD_append]
  split_ifs <;> first | omega | (simp only [hi, decide_true, Bool.true_and]; congr 1; omega)

@[simp] theorem formSC_fl1 (op : BitVec 6) (fl1 : BitVec 4) (lev : BitVec 7) (fl2 : BitVec 3) (x y : BitVec 1) :
    bitsAt (formSC op fl1 lev fl2 x y) 16 4 = fl1 := by
  apply BitVec.eq_of_getLsbD_eq
  intro i hi
  simp only [bitsAt, formSC, BitVec.getLsbD_extractLsb', BitVec.getLsbD_append]
  split_ifs <;> first | omega | (simp only [hi, decide_true, Bool.true_and]; congr 1; omega)

@[simp] theorem formSC_lev (op : BitVec 6) (fl1 : BitVec 4) (lev : BitVec 7) (fl2 : BitVec 3) (x y : BitVec 1) :
    bitsAt (formSC op fl1 lev fl2 x y) 20 7 = lev := by
  apply BitVec.eq_of_getLsbD_eq
  intro i hi
  simp only [bitsAt, formSC, BitVec.getLsbD_extractLsb', BitVec.getLsbD_append]
  split_ifs <;> first | omega | (simp only [hi, decide_true, Bool.true_and]; congr 1; omega)

@[simp] theorem formSC_fl2 (op : BitVec 6) (fl1 : BitVec 4) (lev : BitVec 7) (fl2 : BitVec 3) (x y : BitVec 1) :
    bitsAt (formSC op fl1 lev fl2 x y) 27 3 = fl2 := by
  apply BitVec.eq_of_getLsbD_eq
  intro i hi
  simp only [bitsAt, formSC, BitVec.getLsbD_extractLsb', BitVec.getLsbD_append]
  split_ifs <;> first | omega | (simp only [hi, decide_true, Bool.true_and]; congr 1; omega)

@[simp] theorem formSC_x (op : BitVec 6) (fl1 : BitVec 4) (lev : BitVec 7) (fl2 : BitVec 3) (x y : BitVec 1) :
    bitAt (formSC op fl1 lev fl2 x y) 30 = x.getLsbD 0 := by
  simp only [bitAt, formSC, BitVec.getMsbD_eq_getLsbD, BitVec.getLsbD_append]
  rfl

@[simp] theorem formSC_y (op : BitVec 6) (fl1 : BitVec 4) (lev : BitVec 7) (fl2 : BitVec 3) (x y : BitVec 1) :
    bitAt (formSC op fl1 lev fl2 x y) 31 = y.getLsbD 0 := by
  simp only [bitAt, formSC, BitVec.getMsbD_eq_getLsbD, BitVec.getLsbD_append]
  rfl

/-! ### formD -/

@[simp] theorem formD_op (op : BitVec 6) (a b : BitVec 5) (d : BitVec 16) :
    bitsAt (formD op a b d) 0 6 = op := by
  apply BitVec.eq_of_getLsbD_eq
  intro i hi
  simp only [bitsAt, formD, BitVec.getLsbD_extractLsb', BitVec.getLsbD_append]
  split_ifs <;> first | omega | (simp only [hi, decide_true, Bool.true_and]; congr 1; omega)

@[simp] theorem formD_a (op : BitVec 6) (a b : BitVec 5) (d : BitVec 16) :
    bitsAt (formD op a b d) 6 5 = a := by
  apply BitVec.eq_of_getLsbD_eq
  intro i hi
  simp only [bitsAt, formD, BitVec.getLsbD_extractLsb', BitVec.getLsbD_append]
  split_ifs <;> first | omega | (simp only [hi, decide_true, Bool.true_and]; congr 1; omega)

@[simp] theorem formD_b (op : BitVec 6) (a b : BitVec 5) (d : BitVec 16) :
    bitsAt (formD op a b d) 11 5 = b := by
  apply BitVec.eq_of_getLsbD_eq
  intro i hi
  simp only [bitsAt, formD, BitVec.getLsbD_extractLsb', BitVec.getLsbD_append]
  split_ifs <;> first | omega | (simp only [hi, decide_true, Bool.true_and]; congr 1; omega)

@[simp] theorem formD_d (op : BitVec 6) (a b : BitVec 5) (d : BitVec 16) :
    bitsAt (formD op a b d) 16 16 = d := by
  apply BitVec.eq_of_getLsbD_eq
  intro i hi
  simp only [bitsAt, formD, BitVec.getLsbD_extractLsb', BitVec.getLsbD_append]
  split_ifs <;> first | omega | (simp only [hi, decide_true, Bool.true_and]; congr 1; omega)

/-! ### formDS -/

@[simp] theorem formDS_op (op : BitVec 6) (a b : BitVec 5) (ds : BitVec 14) (x : BitVec 2) :
    bitsAt (formDS op a b ds x) 0 6 = op := by
  apply BitVec.eq_of_getLsbD_eq
  intro i hi
  simp only [bitsAt, formDS, BitVec.getLsbD_extractLsb', BitVec.getLsbD_append]
  split_ifs <;> first | omega | (simp only [hi, decide_true, Bool.true_and]; congr 1; omega)

@[simp] theorem formDS_a (op : BitVec 6) (a b : BitVec 5) (ds : BitVec 14) (x : BitVec 2) :
    bitsAt (formDS op a b ds x) 6 5 = a := by
  apply BitVec.eq_of_getLsbD_eq
  intro i hi
  simp only [bitsAt, formDS, BitVec.getLsbD_extractLsb', BitVec.getLsbD_append]
  split_ifs <;> first | omega | (simp only [hi, decide_true, Bool.true_and]; congr 1; omega)

@[simp] theorem formDS_b (op : BitVec 6) (a b : BitVec 5) (ds : BitVec 14) (x : BitVec 2) :
    bitsAt (formDS op a b ds x) 11 5 = b := by
  apply BitVec.eq_of_getLsbD_eq
  intro i hi
  simp only [bitsAt, formDS, BitVec.getLsbD_extractLsb', BitVec.getLsbD_append]
  split_ifs <;> first | omega | (simp only [hi, decide_true, Bool.true_and]; congr 1; omega)

@[simp] theorem formDS_ds (op : BitVec 6) (a b : BitVec 5) (ds : BitVec 14) (x : BitVec 2) :
    bitsAt (formDS op a b ds x) 16 14 = ds := by
  apply BitVec.eq_of_getLsbD_eq
  intro i hi
  simp only [bitsAt, formDS, BitVec.getLsbD_extractLsb', BitVec.getLsbD_append]
  split_ifs <;> first | omega | (simp only [hi, decide_true, Bool.true_and]; congr 1; omega)

@[simp] theorem formDS_x (op : BitVec 6) (a b : BitVec 5) (ds : BitVec 14) (x : BitVec 2) :
    bitsAt (formDS op a b ds x) 30 2 = x := by
  apply BitVec.eq_of_getLsbD_eq
  intro i hi
  simp only [bitsAt, formDS, BitVec.getLsbD_extractLsb', BitVec.getLsbD_append]
  split_ifs <;> first | omega | (simp only [hi, decide_true, Bool.true_and]; congr 1; omega)

/-! ### formX -/

@[simp] theorem formX_op (op : BitVec 6) (a b c : BitVec 5) (xo : BitVec 10) (x : BitVec 1) :
    bitsAt (formX op a b c xo x) 0 6 = op := by
  apply BitVec.eq_of_getLsbD_eq
  intro i hi
  simp only [bitsAt, formX, BitVec.getLsbD_extractLsb', BitVec.getLsbD_append]
  split_ifs <;> first | omega | (simp only [hi, decide_true, Bool.true_and]; congr 1; omega)

@[simp] theorem formX_a (op : BitVec 6) (a b c : BitVec 5) (xo : BitVec 10) (x : BitVec 1) :
    bitsAt (formX op a b c xo x) 6 5 = a := by
  apply BitVec.eq_of_getLsbD_eq
  intro i hi
  simp only [bitsAt, formX, BitVec.getLsbD_extractLsb', BitVec.getLsbD_append]
  split_ifs <;> first | omega | (simp only [hi, decide_true, Bool.true_and]; congr 1; omega)

@[simp] theorem formX_b (op : BitVec 6) (a b c : BitVec 5) (xo : BitVec 10) (x : BitVec 1) :
    bitsAt (formX op a b c xo x) 11 5 = b := by
  apply BitVec.eq_of_getLsbD_eq
  intro i hi
  simp only [bitsAt, formX, BitVec.getLsbD_extractLsb', BitVec.getLsbD_append]
  split_ifs <;> first | omega | (simp only [hi, decide_true, Bool.true_and]; congr 1; omega)

@[simp] theorem formX_c (op : BitVec 6) (a b c : BitVec 5) (xo : BitVec 10) (x : BitVec 1) :
    bitsAt (formX op a b c xo x) 16 5 = c := by
  apply BitVec.eq_of_getLsbD_eq
  intro i hi
  simp only [bitsAt, formX, BitVec.getLsbD_extractLsb', BitVec.getLsbD_append]
  split_ifs <;> first | omega | (simp only [hi, decide_true, Bool.true_and]; congr 1; omega)

@[simp] theorem formX_xo (op : BitVec 6) (a b c : BitVec 5) (xo : BitVec 10) (x : BitVec 1) :
    bitsAt (formX op a b c xo x) 21 10 = xo := by
  apply BitVec.eq_of_getLsbD_eq
  intro i hi
  simp only [bitsAt, formX, BitVec.getLsbD_extractLsb', BitVec.getLsbD_append]
  split_ifs <;> first | omega | (simp only [hi, decide_true, Bool.true_and]; congr 1; omega)

@[simp] theorem formX_x (op : BitVec 6) (a b c : BitVec 5) (xo : BitVec 10) (x : BitVec 1) :
    bitAt (formX op a b c xo x) 31 = x.getLsbD 0 := by
  simp only [bitAt, formX, BitVec.getMsbD_eq_getLsbD, BitVec.getLsbD_append]
  rfl

/-! ### formXO -/

@[simp] theorem formXO_op (op : BitVec 6) (a b c : BitVec 5) (oe : BitVec 1) (xo : BitVec 9) (x : BitVec 1) :
    bitsAt (formXO op a b c oe xo x) 0 6 = op := by
  apply BitVec.eq_of_getLsbD_eq
  intro i hi
  simp only [bitsAt, formXO, BitVec.getLsbD_extractLsb', BitVec.getLsbD_append]
  split_ifs <;> first | omega | (simp only [hi, decide_true, Bool.true_and]; congr 1; omega)

@[simp] theorem formXO_a (op : BitVec 6) (a b c : BitVec 5) (oe : BitVec 1) (xo : BitVec 9) (x : BitVec 1) :
    bitsAt (formXO op a b c oe xo x) 6 5 = a := by
  apply BitVec.eq_of_getLsbD_eq
  intro i hi
  simp only [bitsAt, formXO, BitVec.getLsbD_extractLsb', BitVec.getLsbD_append]
  split_ifs <;> first | omega | (simp only [hi, decide_true, Bool.true_and]; congr 1; omega)

@[simp] theorem formXO_b (op : BitVec 6) (a b c : BitVec 5) (oe : BitVec 1) (xo : BitVec 9) (x : BitVec 1) :
    bitsAt (formXO op a b c oe xo x) 11 5 = b := by
  apply BitVec.eq_of_getLsbD_eq
  intro i hi
  simp only [bitsAt, formXO, BitVec.getLsbD_extractLsb', BitVec.getLsbD_append]
  split_ifs <;> first | omega | (simp only [hi, decide_true, Bool.true_and]; congr 1; omega)

@[simp] theorem formXO_c (op : BitVec 6) (a b c : BitVec 5) (oe : BitVec 1) (xo : BitVec 9) (x : BitVec 1) :
    bitsAt (formXO op a b c oe xo x) 16 5 = c := by
  apply BitVec.eq_of_getLsbD_eq
  intro i hi
  simp only [bitsAt, formXO, BitVec.getLsbD_extractLsb', BitVec.getLsbD_append]
  split_ifs <;> first | omega | (simp only [hi, decide_true, Bool.true_and]; congr 1; omega)

@[simp] theorem formXO_oe (op : BitVec 6) (a b c : BitVec 5) (oe : BitVec 1) (xo : BitVec 9) (x : BitVec 1) :
    bitAt (formXO op a b c oe xo x) 21 = oe.getLsbD 0 := by
  simp only [bitAt, formXO, BitVec.getMsbD_eq_getLsbD, BitVec.getLsbD_append]
  rfl

@[simp] theorem formXO_x (op : BitVec 6) (a b c : BitVec 5) (oe : BitVec 1) (xo : BitVec 9) (x : BitVec 1) :
    bitAt (formXO op a b c oe xo x) 31 = x.getLsbD 0 := by
  simp only [bitAt, formXO, BitVec.getMsbD_eq_getLsbD, BitVec.getLsbD_append]
  rfl

/-! ### formA -/

@[simp] theorem formA_op (op : BitVec 6) (a b c d e : BitVec 5) (x : BitVec 1) :
    bitsAt (formA op a b c d e x) 0 6 = op := by
  apply BitVec.eq_of_getLsbD_eq
  intro i hi
  simp only [bitsAt, formA, BitVec.getLsbD_extractLsb', BitVec.getLsbD_append]
  split_ifs <;> first | omega | (simp only [hi, decide_true, Bool.true_and]; congr 1; omega)

@[simp] theorem formA_a (op : BitVec 6) (a b c d e : BitVec 5) (x : BitVec 1) :
    bitsAt (formA op a b c d e x) 6 5 = a := by
  apply BitVec.eq_of_getLsbD_eq
  intro i hi
  simp only [bitsAt, formA, BitVec.getLsbD_extractLsb', BitVec.getLsbD_append]
  split_ifs <;> first | omega | (simp only [hi, decide_true, Bool.true_and]; congr 1; omega)

@[simp] theorem formA_b (op : BitVec 6) (a b c d e : BitVec 5) (x : BitVec 1) :
    bitsAt (formA op a b c d e x) 11 5 = b := by
  apply BitVec.eq_of_getLsbD_eq
  intro i hi
  simp only [bitsAt, formA, BitVec.getLsbD_extractLsb', BitVec.getLsbD_append]
  split_ifs <;> first | omega | (simp only [hi, decide_true, Bool.true_and]; congr 1; omega)

@[simp] theorem formA_c (op : BitVec 6) (a b c d e : BitVec 5) (x : BitVec 1) :
    bitsAt (formA op a b c d e x) 16 5 = c := by
  apply BitVec.eq_of_getLsbD_eq
  intro i hi
  simp only [bitsAt, formA, BitVec.getLsbD_extractLsb', BitVec.getLsbD_append]
  split_ifs <;> first | omega | (simp only [hi, decide_true, Bool.true_and]; congr 1; omega)

@[simp] theorem formA_d (op : BitVec 6) (a b c d e : BitVec 5) (x : BitVec 1) :
    bitsAt (formA op a b c d e x) 21 5 = d := by
  apply BitVec.eq_of_getLsbD_eq
  intro i hi
  simp only [bitsAt, formA, BitVec.getLsbD_extractLsb', BitVec.getLsbD_append]
  split_ifs <;> first | omega | (simp only [hi, decide_true, Bool.true_and]; congr 1; omega)

@[simp] theorem formA_e (op : BitVec 6) (a b c d e : BitVec 5) (x : BitVec 1) :
    bitsAt (formA op a b c d e x) 26 5 = e := by
  apply BitVec.eq_of_getLsbD_eq
  intro i hi
  simp only [bitsAt, formA, BitVec.getLsbD_extractLsb', BitVec.getLsbD_append]
  split_ifs <;> first | omega | (simp only [hi, decide_true, Bool.true_and]; congr 1; omega)

@[simp] theorem formA_x (op : BitVec 6) (a b c d e : BitVec 5) (x : BitVec 1) :
    bitAt (formA op a b c d e x) 31 = x.getLsbD 0 := by
  simp only [bitAt, formA, BitVec.getMsbD_eq_getLsbD, BitVec.getLsbD_append]
  rfl

/-! ### Fields within fields -/

@[simp] theorem formXO_eo (op : BitVec 6) (a b c : BitVec 5) (oe : BitVec 1) (xo : BitVec 9) (x : BitVec 1) :
    bitsAt (formXO op a b c oe xo x) 21 10 = oe ++ xo := by
  apply BitVec.eq_of_getLsbD_eq
  intro i hi
  simp only [bitsAt, formXO, BitVec.getLsbD_extractLsb', BitVec.getLsbD_append]
  split_ifs <;> first | omega | (simp only [hi, decide_true, Bool.true_and]; congr 1; omega)

@[simp] theorem formX_low (op : BitVec 6) (a b c : BitVec 5) (xo : BitVec 10) (x : BitVec 1) :
    bitsAt (formX op a b c xo x) 26 5 = xo.extractLsb' 0 5 := by
  apply BitVec.eq_of_getLsbD_eq
  intro i hi
  simp only [bitsAt, formX, BitVec.getLsbD_extractLsb', BitVec.getLsbD_append]
  split_ifs <;> first | omega | (simp only [hi, decide_true, Bool.true_and]; congr 1; omega)

@[simp] theorem formX_bf (op : BitVec 6) (bf : BitVec 3) (b c : BitVec 5) (xo : BitVec 10) (x : BitVec 1) :
    bitsAt (formX op (bf ++ 0#2) b c xo x) 6 3 = bf := by
  apply BitVec.eq_of_getLsbD_eq
  intro i hi
  simp only [bitsAt, formX, BitVec.getLsbD_extractLsb', BitVec.getLsbD_append]
  split_ifs <;> first | omega | (simp only [hi, decide_true, Bool.true_and]; congr 1; omega)

@[simp] theorem formX_bfa (op : BitVec 6) (a : BitVec 5) (bfa : BitVec 3) (c : BitVec 5) (xo : BitVec 10) (x : BitVec 1) :
    bitsAt (formX op a (bfa ++ 0#2) c xo x) 11 3 = bfa := by
  apply BitVec.eq_of_getLsbD_eq
  intro i hi
  simp only [bitsAt, formX, BitVec.getLsbD_extractLsb', BitVec.getLsbD_append]
  split_ifs <;> first | omega | (simp only [hi, decide_true, Bool.true_and]; congr 1; omega)

@[simp] theorem formX_sr (op : BitVec 6) (a : BitVec 5) (sr : BitVec 4) (c : BitVec 5) (xo : BitVec 10) (x : BitVec 1) :
    bitsAt (formX op a (0#1 ++ sr) c xo x) 12 4 = sr := by
  apply BitVec.eq_of_getLsbD_eq
  intro i hi
  simp only [bitsAt, formX, BitVec.getLsbD_extractLsb', BitVec.getLsbD_append]
  split_ifs <;> first | omega | (simp only [hi, decide_true, Bool.true_and]; congr 1; omega)

@[simp] theorem formX_imm (op : BitVec 6) (a b : BitVec 5) (i : BitVec 4) (xo : BitVec 10) (x : BitVec 1) :
    bitsAt (formX op a b (i ++ 0#1) xo x) 16 4 = i := by
  apply BitVec.eq_of_getLsbD_eq
  intro i hi
  simp only [bitsAt, formX, BitVec.getLsbD_extractLsb', BitVec.getLsbD_append]
  split_ifs <;> first | omega | (simp only [hi, decide_true, Bool.true_and]; congr 1; omega)

@[simp] theorem formX_fxm (op : BitVec 6) (a : BitVec 5) (f : BitVec 8) (xo : BitVec 10) (x : BitVec 1) :
    bitsAt (formX op a (0#1 ++ f.extractLsb' 4 4) (f.extractLsb' 0 4 ++ 0#1) xo x) 12 8 = f := by
  apply BitVec.eq_of_getLsbD_eq
  intro i hi
  simp only [bitsAt, formX, BitVec.getLsbD_extractLsb', BitVec.getLsbD_append]
  interval_cases i <;> rfl

@[simp] theorem formX_flm (op : BitVec 6) (f : BitVec 8) (c : BitVec 5) (xo : BitVec 10) (x : BitVec 1) :
    bitsAt (formX op (0#1 ++ f.extractLsb' 4 4) (f.extractLsb' 0 4 ++ 0#1) c xo x) 7 8 = f := by
  apply BitVec.eq_of_getLsbD_eq
  intro i hi
  simp only [bitsAt, formX, BitVec.getLsbD_extractLsb', BitVec.getLsbD_append]
  interval_cases i <;> rfl

@[simp] theorem formD_bf (op : BitVec 6) (bf : BitVec 3) (b : BitVec 5) (d : BitVec 16) :
    bitsAt (formD op (bf ++ 0#2) b d) 6 3 = bf := by
  apply BitVec.eq_of_getLsbD_eq
  intro i hi
  simp only [bitsAt, formD, BitVec.getLsbD_extractLsb', BitVec.getLsbD_append]
  split_ifs <;> first | omega | (simp only [hi, decide_true, Bool.true_and]; congr 1; omega)

/-! ### Which part of the decoder a word reaches -/

theorem decode_of (m : Config.Impl) {w : Word} {op : BitVec 6} (h : bitsAt w 0 6 = op) :
    decode m w = decodeOp m w op.toNat := by
  rw [decode, h]

theorem decode_of19 (m : Config.Impl) {w : Word} {xo : BitVec 10} (h : bitsAt w 0 6 = 19) (hx : bitsAt w 21 10 = xo) :
    decode m w = decode19 m w xo.toNat :=
  (decode_of m h).trans (congrArg (fun x => decode19 m w (BitVec.toNat x)) hx)

theorem decode_of31 (m : Config.Impl) {w : Word} {xo : BitVec 10} (h : bitsAt w 0 6 = 31) (hx : bitsAt w 21 10 = xo) :
    decode m w = decode31 m w xo.toNat :=
  (decode_of m h).trans (congrArg (fun x => decode31 m w (BitVec.toNat x)) hx)

theorem decode_of63 (m : Config.Impl) {w : Word} {xo : BitVec 5} (h : bitsAt w 0 6 = 63) (hx : bitsAt w 26 5 = xo) :
    decode m w = decode63 m w xo.toNat :=
  (decode_of m h).trans (congrArg (fun x => decode63 m w (BitVec.toNat x)) hx)

theorem decode_of63x (m : Config.Impl) {w : Word} {low : BitVec 5} {xo : BitVec 10} (h : bitsAt w 0 6 = 63)
    (hl : bitsAt w 26 5 = low) (hx : bitsAt w 21 10 = xo)
    (hn : decode63 m w low.toNat = decode63x m w (bitsAt w 21 10).toNat) : decode m w = decode63x m w xo.toNat :=
  ((decode_of63 m h hl).trans hn).trans (congrArg (fun x => decode63x m w (BitVec.toNat x)) hx)

end Sys2Proof
end

