-- ==== Sys2Proof/Laws/RealMode.lean ====
section
/-!
SUPPORT. Data accesses in real mode (20_memory R108 to R116): several bytes, the pieces of an access, and the whole access
path of the fixed-point and floating-point loads and stores.
-/

namespace Sys2Proof.Machine

/-! ### Words and addresses -/

theorem ofNat_add_assoc (a : Word) (m n : Nat) :
    a + BitVec.ofNat 32 m + BitVec.ofNat 32 n = a + BitVec.ofNat 32 (m + n) := by
  rw [BitVec.add_assoc, ← BitVec.ofNat_add]

theorem one_add_ofNat (a : Word) (n : Nat) : a + 1 + BitVec.ofNat 32 n = a + BitVec.ofNat 32 (n + 1) := by
  have := ofNat_add_assoc a 1 n
  rw [Nat.add_comm n 1]
  exact this

theorem add_ofNat_inj (a : Word) {m n : Nat} (hm : m < 2 ^ 32) (hn : n < 2 ^ 32)
    (h : a + BitVec.ofNat 32 m = a + BitVec.ofNat 32 n) : m = n := by
  have h1 := congrArg BitVec.toNat ((BitVec.add_right_inj a).1 h)
  rwa [BitVec.toNat_ofNat, BitVec.toNat_ofNat, Nat.mod_eq_of_lt hm, Nat.mod_eq_of_lt hn] at h1

theorem ofNat_zero_add (a : Word) : a + BitVec.ofNat 32 0 = a := BitVec.add_zero a

/-! ### Accesses that find everything there -/

/-- Only what lies behind the registers has moved, memory is canonical, lines in the data cache stay there. -/
structure State.Moved (s t : State) : Prop where
  storage : s.StorageOnly t
  wf : Memory.wf t.mem = true
  lines : ∀ l, (s.dataLine l).isSome = true → (t.dataLine l).isSome = true

theorem State.Moved.refl {s : State} (h : Memory.wf s.mem = true) : s.Moved s :=
  ⟨State.StorageOnly.refl s, h, fun _ x => x⟩

theorem State.Moved.trans {s t u : State} (h1 : s.Moved t) (h2 : t.Moved u) : s.Moved u :=
  ⟨h1.storage.trans h2.storage, h2.wf, fun l x => h2.lines l (h1.lines l x)⟩

theorem State.SameMemory.trans {s t u : State} (h1 : s.SameMemory t) (h2 : t.SameMemory u) : s.SameMemory u :=
  fun b => (h2 b).trans (h1 b)

theorem State.SameMemory.dataBytes {s t : State} (h : s.SameMemory t) (ea : Word) (n : Nat) :
    t.dataBytes ea n = s.dataBytes ea n :=
  List.map_congr_left fun i _ => h (ea + BitVec.ofNat 32 i)

theorem State.Readable.moved {s t : State} (h : s.Moved t) {ea : Word} {n : Nat} (hr : s.Readable ea n) :
    t.Readable ea n := by
  intro i hi
  rw [State.lineOf_congr h.storage.cfg, State.lineBacked_congr h.storage.cfg]
  exact (hr i hi).imp_left (h.lines _)

theorem State.NoRom.moved {s t : State} (h : s.Moved t) {ea : Word} {n : Nat} (hr : s.NoRom ea n) : t.NoRom ea n :=
  fun i hi => (State.isRom_congr h.storage.cfg _).trans (hr i hi)

theorem State.RealMode.moved {s t : State} (h : s.Moved t) {ea : Word} {n : Nat} (hr : s.RealMode ea n) :
    t.RealMode ea n :=
  ⟨h.storage.msrDR.trans hr.noTranslation, fun i hi => (h.storage.isIo _).trans (hr.noIo i hi)⟩

theorem State.dataBytes_add (s : State) (ea : Word) (m n : Nat) :
    s.dataBytes ea (m + n) = s.dataBytes ea m ++ s.dataBytes (ea + BitVec.ofNat 32 m) n := by
  unfold State.dataBytes
  rw [List.range_add, List.map_append, List.map_map]
  congr 1
  refine List.map_congr_left fun i _ => ?_
  simp only [Function.comp, ofNat_add_assoc]

theorem State.dataBytes_length (s : State) (ea : Word) (n : Nat) : (s.dataBytes ea n).length = n := by
  simp [State.dataBytes]

/-- `p` of the first m of n places is `p` of the first m, and of the rest. -/
theorem State.Readable.split {s : State} {ea : Word} {m n : Nat} (h : s.Readable ea (m + n)) :
    s.Readable ea m ∧ s.Readable (ea + BitVec.ofNat 32 m) n :=
  ⟨fun i hi => h i (by omega), fun i hi => by
    rw [ofNat_add_assoc]; exact h (m + i) (by omega)⟩

theorem State.NoRom.split {s : State} {ea : Word} {m n : Nat} (h : s.NoRom ea (m + n)) :
    s.NoRom ea m ∧ s.NoRom (ea + BitVec.ofNat 32 m) n :=
  ⟨fun i hi => h i (by omega), fun i hi => by
    rw [ofNat_add_assoc]; exact h (m + i) (by omega)⟩

theorem State.RealMode.split {s : State} {ea : Word} {m n : Nat} (h : s.RealMode ea (m + n)) :
    s.RealMode ea m ∧ s.RealMode (ea + BitVec.ofNat 32 m) n :=
  ⟨⟨h.noTranslation, fun i hi => h.noIo i (by omega)⟩, ⟨h.noTranslation, fun i hi => by
    rw [ofNat_add_assoc]; exact h.noIo (m + i) (by omega)⟩⟩

/-- A load of real bytes finds the bytes of `dataByte` and disturbs nothing. -/
theorem State.loadRealBytes_spec (n : Nat) (ra : Word) {s : State} (h : Memory.wf s.mem = true)
    (hr : s.Readable ra n) :
    (State.loadRealBytes n ra s).1 = s.dataBytes ra n
      ∧ s.Moved (State.loadRealBytes n ra s).2
      ∧ s.SameMemory (State.loadRealBytes n ra s).2 := by
  induction n generalizing ra s with
  | zero => exact ⟨rfl, State.Moved.refl h, fun _ => rfl⟩
  | succ n ih =>
    have h0 := hr 0 (by omega)
    rw [ofNat_zero_add] at h0
    obtain ⟨v, st, wf, ln, sm⟩ := State.loadReal_spec h h0
    have mv : s.Moved (s.loadReal ra).2 := ⟨st, wf, ln⟩
    have hr' : (s.loadReal ra).2.Readable (ra + 1) n :=
      (Nat.add_comm n 1 ▸ hr : s.Readable ra (1 + n)).split.2.moved mv
    obtain ⟨v', mv', sm'⟩ := ih (ra + 1) wf hr'
    refine ⟨?_, mv.trans mv', sm.trans sm'⟩
    show (s.loadReal ra).1 :: (State.loadRealBytes n (ra + 1) (s.loadReal ra).2).1 = _
    rw [v, v', sm.dataBytes, Nat.add_comm n 1, State.dataBytes_add]
    show _ = (s.dataByte (ra + BitVec.ofNat 32 0) :: []) ++ _
    rw [ofNat_zero_add]
    rfl

theorem State.Stored.nil (s : State) (a : Word) : s.Stored s a [] := ⟨rfl, fun _ _ => rfl⟩

/-- Two stores one after the other, the second where the first ends. -/
theorem State.Stored.append {s t u : State} {a : Word} {l m : List Byte} (hlen : l.length + m.length ≤ 2 ^ 32)
    (h1 : s.Stored t a l) (h2 : t.Stored u (a + BitVec.ofNat 32 l.length) m) : s.Stored u a (l ++ m) := by
  constructor
  · rw [List.length_append, State.dataBytes_add, h2.stored]
    congr 1
    refine Eq.trans ?_ h1.stored
    refine List.map_congr_left fun i hi => h2.others _ fun j hj e => ?_
    have hi' := List.mem_range.1 hi
    rw [ofNat_add_assoc] at e
    have := add_ofNat_inj a (by omega) (by omega) e
    omega
  · intro b hb
    rw [List.length_append] at hb
    rw [h2.others b fun j hj => by rw [ofNat_add_assoc]; exact hb (l.length + j) (by omega)]
    exact h1.others b fun i hi => hb i (by omega)

/-- A store of real bytes: loads find them, and the old bytes elsewhere. -/
theorem State.storeRealBytes_spec (l : List Byte) (ra : Word) {s : State} (h : Memory.wf s.mem = true)
    (hlen : l.length ≤ 2 ^ 32) (hr : s.Readable ra l.length) (hrom : s.NoRom ra l.length) :
    s.Moved (State.storeRealBytes l ra s) ∧ s.Stored (State.storeRealBytes l ra s) ra l := by
  induction l generalizing ra s with
  | nil => exact ⟨State.Moved.refl h, State.Stored.nil s ra⟩
  | cons v l ih =>
    rw [List.length_cons] at hlen hr hrom
    have h0 := hr 0 (by omega)
    have h0' := hrom 0 (by omega)
    rw [ofNat_zero_add] at h0 h0'
    obtain ⟨st, wf, ln, by1⟩ := State.storeReal_spec h v h0 h0'
    have mv : s.Moved (s.storeReal ra v) := ⟨st, wf, ln⟩
    rw [Nat.add_comm] at hr hrom
    obtain ⟨mv', sd⟩ := ih (ra + 1) wf (by omega) (hr.split.2.moved mv) (hrom.split.2.moved mv)
    refine ⟨mv.trans mv', ?_⟩
    have s1 : s.Stored (s.storeReal ra v) ra [v] := by
      constructor
      · show [(s.storeReal ra v).dataByte (ra + BitVec.ofNat 32 0)] = [v]
        rw [ofNat_zero_add, by1, if_pos rfl]
      · intro b hb
        have : b ≠ ra := by
          have := hb 0 (by simp)
          rwa [ofNat_zero_add] at this
        rw [by1, if_neg this]
    have hl2 : [v].length + l.length ≤ 2 ^ 32 := by rw [List.length_singleton, Nat.add_comm]; exact hlen
    exact State.Stored.append hl2 s1 sd

/-! ### The pieces of an access -/

theorem dataAddr_real {s : State} {ea : Word} {n : Nat} (h : s.RealMode ea n) (hn : 0 < n) (store : Bool) :
    dataAddr ea store s = (.real ea, s) := by
  have h0 := h.noIo 0 hn
  rw [ofNat_zero_add] at h0
  have h0' : bitAt (s.segmentOf ea) 0 = false := h0
  unfold dataAddr
  simp [h0', h.noTranslation]

theorem pieceSize_pos (ea : Word) {n : Nat} (hn : 0 < n) : 0 < pieceSize ea n ∧ pieceSize ea n ≤ n := by
  unfold pieceSize
  have : ea.toNat % 128 < 128 := Nat.mod_lt _ (by decide)
  omega

theorem loadPieces_real (fuel n : Nat) (ea : Word) (got : List Byte) {s : State} (h : Memory.wf s.mem = true)
    (hf : n ≤ fuel) (hm : s.RealMode ea n) (hr : s.Readable ea n) :
    ∃ t, loadPieces fuel n ea got s = .ok (got ++ s.dataBytes ea n) t ∧ s.Moved t ∧ s.SameMemory t := by
  induction fuel generalizing n ea got s with
  | zero =>
    have : n = 0 := by omega
    subst this
    refine ⟨s, ?_, State.Moved.refl h, fun _ => rfl⟩
    simp [loadPieces, State.dataBytes]
  | succ fuel ih =>
    by_cases hn : n = 0
    · subst hn
      refine ⟨s, ?_, State.Moved.refl h, fun _ => rfl⟩
      simp [loadPieces, State.dataBytes]
    · obtain ⟨hk1, hk2⟩ := pieceSize_pos ea (Nat.pos_of_ne_zero hn)
      have hsum : pieceSize ea n + (n - pieceSize ea n) = n := by omega
      have hr' := hsum.symm ▸ hr
      have hm' := hsum.symm ▸ hm
      obtain ⟨v, mv, sm⟩ := State.loadRealBytes_spec (pieceSize ea n) ea h hr'.split.1
      obtain ⟨t, ht, mv', sm'⟩ := ih (n - pieceSize ea n) (ea + BitVec.ofNat 32 (pieceSize ea n))
        (got ++ (State.loadRealBytes (pieceSize ea n) ea s).1) mv.wf (by omega) (hm'.split.2.moved mv)
        (hr'.split.2.moved mv)
      refine ⟨t, ?_, mv.trans mv', sm.trans sm'⟩
      rw [v, sm.dataBytes, List.append_assoc, ← State.dataBytes_add, hsum] at ht
      rw [← ht]
      conv_lhs => unfold loadPieces
      simp only [hn, if_false, dataAddr_real hm (Nat.pos_of_ne_zero hn), v]

/-- A load of n bytes in real mode finds the bytes of `dataByte` and disturbs nothing. -/
theorem State.loadMem_real {s : State} {ea : Word} {n : Nat} (h : Memory.wf s.mem = true) (hm : s.RealMode ea n)
    (hr : s.Readable ea n) :
    ∃ t, s.loadMem ea n = .ok (s.dataBytes ea n) t ∧ s.Moved t ∧ s.SameMemory t := by
  obtain ⟨t, ht, r⟩ := loadPieces_real n n ea [] h (Nat.le_refl n) hm hr
  exact ⟨t, ht, r⟩

theorem storePieces_real (fuel : Nat) (l : List Byte) (ea : Word) {s : State} (h : Memory.wf s.mem = true)
    (hf : l.length ≤ fuel) (hlen : l.length ≤ 2 ^ 32) (hm : s.RealMode ea l.length) (hr : s.Readable ea l.length)
    (hrom : s.NoRom ea l.length) :
    ∃ t, storePieces fuel l ea s = .ok [] t ∧ s.Moved t ∧ s.Stored t ea l := by
  induction fuel generalizing l ea s with
  | zero =>
    have : l = [] := List.length_eq_zero_iff.1 (by omega)
    subst this
    exact ⟨s, rfl, State.Moved.refl h, State.Stored.nil s ea⟩
  | succ fuel ih =>
    by_cases hn : l = []
    · subst hn
      refine ⟨s, ?_, State.Moved.refl h, State.Stored.nil s ea⟩
      simp [storePieces]
    · have hpos : 0 < l.length := List.length_pos_iff.2 hn
      obtain ⟨hk1, hk2⟩ := pieceSize_pos ea hpos
      have htk : (l.take (pieceSize ea l.length)).length = pieceSize ea l.length := by
        rw [List.length_take]; omega
      have hdr : (l.drop (pieceSize ea l.length)).length = l.length - pieceSize ea l.length := List.length_drop
      have hsum : pieceSize ea l.length + (l.length - pieceSize ea l.length) = l.length := by omega
      have hr' := hsum.symm ▸ hr
      have hm' := hsum.symm ▸ hm
      have hrom' := hsum.symm ▸ hrom
      obtain ⟨mv, sd⟩ := State.storeRealBytes_spec (l.take (pieceSize ea l.length)) ea h (by omega)
        (htk.symm ▸ hr'.split.1) (htk.symm ▸ hrom'.split.1)
      obtain ⟨t, ht, mv', sd'⟩ := ih (l.drop (pieceSize ea l.length))
        (ea + BitVec.ofNat 32 (pieceSize ea l.length)) mv.wf (by omega) (by omega)
        (hdr.symm ▸ hm'.split.2.moved mv) (hdr.symm ▸ hr'.split.2.moved mv) (hdr.symm ▸ hrom'.split.2.moved mv)
      refine ⟨t, ?_, mv.trans mv', ?_⟩
      · rw [← ht]
        conv_lhs => unfold storePieces
        simp only [hn, if_false, dataAddr_real hm hpos]
      · rw [← congrArg (BitVec.ofNat 32) htk] at sd'
        have := State.Stored.append (by rw [htk, hdr]; omega) sd sd'
        rwa [List.take_append_drop] at this

/-- A store in real mode: loads find the bytes, and the old ones elsewhere. -/
theorem State.storeMem_real {s : State} {ea : Word} {l : List Byte} (h : Memory.wf s.mem = true)
    (hlen : l.length ≤ 2 ^ 32) (hm : s.RealMode ea l.length) (hr : s.Readable ea l.length)
    (hrom : s.NoRom ea l.length) :
    ∃ t, s.storeMem ea l = .ok [] t ∧ s.Moved t ∧ s.Stored t ea l :=
  storePieces_real l.length l ea h (Nat.le_refl _) hlen hm hr hrom

/-! ### Alignment (R112 to R114) -/

theorem unaligned_iff (ea : Word) (n : Nat) : unaligned ea n = true ↔ ea.toNat % n ≠ 0 := by
  simp [unaligned]

theorem boundary_of_aligned {ea : Word} {n : Nat} (h : ea.toNat % n = 0) : boundary ea n = ea := by
  unfold boundary; rw [h]; exact BitVec.sub_zero ea

/-- Clearing the low-order bits is going down to the boundary. -/
theorem boundary_eq_and (ea : Word) (k : Nat) (hk : k ≤ 31) :
    ea &&& ~~~ BitVec.ofNat 32 (2 ^ k - 1) = boundary ea (2 ^ k) := by
  have hlt : ea.toNat % 2 ^ k < 2 ^ 32 :=
    Nat.lt_of_lt_of_le (Nat.mod_lt _ (Nat.two_pow_pos k)) (Nat.pow_le_pow_right (by decide) (by omega))
  have h1 : (BitVec.ofNat 32 (2 ^ k - 1)).toNat = 2 ^ k - 1 := by
    rw [BitVec.toNat_ofNat]
    exact Nat.mod_eq_of_lt (Nat.lt_of_le_of_lt (Nat.sub_le _ _) (Nat.pow_lt_pow_right (by decide) (by omega)))
  have h2 : ea &&& BitVec.ofNat 32 (2 ^ k - 1) = BitVec.ofNat 32 (ea.toNat % 2 ^ k) := by
    apply BitVec.eq_of_toNat_eq
    rw [BitVec.toNat_and, h1, Nat.and_two_pow_sub_one_eq_mod, BitVec.toNat_ofNat, Nat.mod_eq_of_lt hlt]
  have h3 : (ea &&& ~~~ BitVec.ofNat 32 (2 ^ k - 1)) + (ea &&& BitVec.ofNat 32 (2 ^ k - 1)) = ea := by
    rw [BitVec.add_eq_or_of_and_eq_zero]
    · ext i hi
      simp only [BitVec.getElem_or, BitVec.getElem_and, BitVec.getElem_not]
      cases ea[i] <;> cases (BitVec.ofNat 32 (2 ^ k - 1))[i] <;> rfl
    · ext i hi
      simp only [BitVec.getElem_and, BitVec.getElem_not, BitVec.getElem_zero]
      cases ea[i] <;> cases (BitVec.ofNat 32 (2 ^ k - 1))[i] <;> rfl
  unfold boundary
  rw [← h2]
  exact (BitVec.eq_sub_iff_add_eq.2 h3)

/-- An access that needs no help uses its boundary. -/
theorem State.alignCheck_free {s : State} {ea : Word} {k : Nat} (hk : k ≤ 31) (w : Word)
    (h : s.AlignFree ea (2 ^ k)) : s.alignCheck w ea (2 ^ k) = some (boundary ea (2 ^ k)) := by
  unfold State.alignCheck
  by_cases hu : ea.toNat % 2 ^ k = 0
  · have : unaligned ea (2 ^ k) = false := by simp [unaligned, hu]
    simp [this, boundary_of_aligned hu]
  · have hal : s.msrAL = false := h.resolve_left hu
    have : unaligned ea (2 ^ k) = true := by simp [unaligned, hu]
    simp only [this, hal, Bool.not_true, Bool.not_false, Bool.false_eq_true, if_false, if_true, boundary_eq_and ea k hk]

/-- The boundary is in the same segment. -/
theorem State.isIo_boundary (s : State) (ea : Word) {k : Nat} (hk : k ≤ 28) :
    s.isIo (boundary ea (2 ^ k)) = s.isIo ea := by
  have : bitsAt (boundary ea (2 ^ k)) 0 4 = bitsAt ea 0 4 := by
    rw [← boundary_eq_and ea k (by omega)]
    apply BitVec.eq_of_getLsbD_eq
    intro i hi
    have hlo : (BitVec.ofNat 32 (2 ^ k - 1)).getLsbD (28 + i) = false := by
      rw [BitVec.getLsbD_ofNat]
      have : (2 ^ k - 1).testBit (28 + i) = false := by
        rw [Nat.testBit_two_pow_sub_one]; simp; omega
      simp [this]
    have hlt : 28 + i < 32 := by omega
    simp only [bitsAt, BitVec.getLsbD_extractLsb', BitVec.getLsbD_and, BitVec.getLsbD_not, hlo, hlt, hi]
    simp
  unfold State.isIo State.segmentOf
  rw [this]

/-! ### The access path -/

theorem two_pow_pos' (k : Nat) : 0 < 2 ^ k := Nat.two_pow_pos k

theorem State.CanLoad.notIo {s : State} {ea : Word} {k : Nat} (hk : k ≤ 28) (h : s.CanLoad ea (2 ^ k)) :
    s.isIo ea = false := by
  have := h.real.noIo 0 (two_pow_pos' k)
  rw [ofNat_zero_add, State.isIo_boundary s ea hk] at this
  exact this

@[simp] theorem Got.scalar_ok (ea : Word) (l : List Byte) (s : State) : (Got.ok l s).scalar ea = .ok l s := rfl

/-- A fixed-point load in real mode (R108). -/
theorem State.fixedLoad_real {s : State} {ea : Word} {k : Nat} (hk : k ≤ 28) (w : Word)
    (h : s.CanLoad ea (2 ^ k)) :
    ∃ t, s.fixedLoad w ea (2 ^ k) = .ok (s.dataBytes (boundary ea (2 ^ k)) (2 ^ k)) t ∧ s.Moved t ∧ s.SameMemory t := by
  obtain ⟨t, ht, r⟩ := State.loadMem_real h.canonical.mem h.real h.readable
  refine ⟨t, ?_, r⟩
  unfold State.fixedLoad
  simp only [h.notIo hk, Bool.false_eq_true, if_false, State.alignCheck_free (by omega : k ≤ 31) w h.align, ht, Got.scalar_ok]

/-- A floating-point load in real mode (R108). -/
theorem State.floatLoad_real {s : State} {ea : Word} {k : Nat} (hk : k ≤ 28) (w first : Word)
    (h : s.CanLoad ea (2 ^ k)) :
    ∃ t, s.floatLoad w ea (2 ^ k) first = .ok (s.dataBytes (boundary ea (2 ^ k)) (2 ^ k)) t ∧ s.Moved t ∧ s.SameMemory t := by
  obtain ⟨t, ht, r⟩ := State.loadMem_real h.canonical.mem h.real h.readable
  refine ⟨t, ?_, r⟩
  unfold State.floatLoad
  simp only [h.notIo hk, Bool.false_eq_true, if_false, State.alignCheck_free (by omega : k ≤ 31) w h.align, ht, Got.scalar_ok]

/-- A fixed-point store in real mode (R108). -/
theorem State.fixedStore_real {s : State} {ea : Word} {k : Nat} {l : List Byte} (hk : k ≤ 28) (hl : l.length = 2 ^ k)
    (w : Word) (h : s.CanStore ea (2 ^ k)) :
    ∃ t, s.fixedStore w ea l = .ok () t ∧ s.Moved t ∧ s.Stored t (boundary ea (2 ^ k)) l := by
  have hlen : l.length ≤ 2 ^ 32 := hl ▸ Nat.pow_le_pow_right (by decide) (by omega)
  obtain ⟨t, ht, r⟩ := State.storeMem_real (ea := boundary ea (2 ^ k)) h.canonical.mem hlen (hl ▸ h.real)
    (hl ▸ h.readable) (hl ▸ h.noRom)
  refine ⟨t, ?_, r⟩
  unfold State.fixedStore
  simp only [hl, h.toCanLoad.notIo hk, Bool.false_eq_true, if_false, State.alignCheck_free (by omega : k ≤ 31) w h.align, ht,
    Got.scalar_ok, State.endStore]

/-- A floating-point store in real mode (R108). -/
theorem State.floatStore_real {s : State} {ea : Word} {k : Nat} {l : List Byte} (hk : k ≤ 28) (hl : l.length = 2 ^ k)
    (w first : Word) (h : s.CanStore ea (2 ^ k)) :
    ∃ t, s.floatStore w ea l first = .ok () t ∧ s.Moved t ∧ s.Stored t (boundary ea (2 ^ k)) l := by
  have hlen : l.length ≤ 2 ^ 32 := hl ▸ Nat.pow_le_pow_right (by decide) (by omega)
  obtain ⟨t, ht, r⟩ := State.storeMem_real (ea := boundary ea (2 ^ k)) h.canonical.mem hlen (hl ▸ h.real)
    (hl ▸ h.readable) (hl ▸ h.noRom)
  refine ⟨t, ?_, r⟩
  unfold State.floatStore
  simp only [hl, h.toCanLoad.notIo hk, Bool.false_eq_true, if_false, State.alignCheck_free (by omega : k ≤ 31) w h.align, ht,
    Got.scalar_ok, State.endStore]

/-- A block load in real mode (R354, R356). -/
theorem State.loadBlock_real {s : State} {ea : Word} {n : Nat} (h : Memory.wf s.mem = true) (hn : 0 < n)
    (hm : s.RealMode ea n) (hr : s.Readable ea n) (put : List Byte → State → State) :
    ∃ t, s.loadBlock ea n put = .ok (s.dataBytes ea n) (put (s.dataBytes ea n) t) ∧ s.Moved t ∧ s.SameMemory t := by
  obtain ⟨t, ht, r⟩ := State.loadMem_real h hm hr
  have h0 := hm.noIo 0 hn
  rw [ofNat_zero_add] at h0
  refine ⟨t, ?_, r⟩
  unfold State.loadBlock
  simp only [h0, Bool.false_eq_true, if_false, ht]

/-- A block store in real mode (R355, R359). -/
theorem State.storeBlock_real {s : State} {ea : Word} {l : List Byte} (h : Memory.wf s.mem = true)
    (hn : 0 < l.length) (hlen : l.length ≤ 2 ^ 32) (hm : s.RealMode ea l.length) (hr : s.Readable ea l.length)
    (hrom : s.NoRom ea l.length) :
    ∃ t, s.storeBlock ea l = .ok () t ∧ s.Moved t ∧ s.Stored t ea l := by
  obtain ⟨t, ht, r⟩ := State.storeMem_real h hlen hm hr hrom
  have h0 := hm.noIo 0 hn
  rw [ofNat_zero_add] at h0
  refine ⟨t, ?_, r⟩
  unfold State.storeBlock
  simp only [h0, Bool.false_eq_true, if_false, ht, State.endStore]

end Sys2Proof.Machine
end

