-- ==== Sys2Proof/Laws/Kept.lean ====
section
/-!
SUPPORT. What every data access keeps, whatever it does and wherever it ends: all registers of the processor but those a
device or the time base can change, the canonical form of the sparse storages, and the reserved bits of the timers.
-/

namespace Sys2Proof.Machine

/-! ### The relation -/

/-- The reserved bits of RTCL and DEC are 0 (R48, R49). -/
structure State.TimersLegal (s : State) : Prop where
  rtcl : s.rtcl &&& timerMask = s.rtcl
  dec : s.dec &&& timerMask = s.dec

/-- What a data access keeps. -/
structure State.Kept (s t : State) : Prop where
  outside : s.OutsideOnly t
  canonical : s.Canonical → t.Canonical
  timers : s.TimersLegal → t.TimersLegal

theorem State.OutsideOnly.trans {s t u : State} (h1 : s.OutsideOnly t) (h2 : t.OutsideOnly u) : s.OutsideOnly u :=
  show u = (s.withOutside t).withOutside u from Eq.trans h2 (congrArg (fun x : State => x.withOutside u) h1)

theorem State.Kept.refl (s : State) : s.Kept s := ⟨rfl, id, id⟩

theorem State.Kept.trans {s t u : State} (h1 : s.Kept t) (h2 : t.Kept u) : s.Kept u :=
  ⟨h1.outside.trans h2.outside, h2.canonical ∘ h1.canonical, h2.timers ∘ h1.timers⟩

/-- An update that touches none of the places with an invariant. -/
theorem State.Kept.same {s t : State} (h : s.OutsideOnly t) (hm : t.mem = s.mem) (hn : t.nvram = s.nvram)
    (hi : t.ioccs = s.ioccs) (hr : t.rtcl = s.rtcl) (hd : t.dec = s.dec) : s.Kept t :=
  ⟨h, fun c => ⟨hm ▸ c.mem, hn ▸ c.nvram, hi ▸ c.ioccs⟩, fun c => ⟨hr ▸ c.rtcl, hd ▸ c.dec⟩⟩

theorem State.Kept.cfg {s t : State} (h : s.Kept t) : t.cfg = s.cfg :=
  show t.cfg = (s.withOutside t).cfg from congrArg State.cfg h.outside

/-- What keeps for a pair's state, when the pair is known. -/
theorem State.Kept.ofEq {α : Type} {s t : State} {x : α × State} {a : α} (h : s.Kept x.2) (e : x = (a, t)) :
    s.Kept t := by
  rw [e] at h
  exact h

theorem State.Kept.ite {s t u : State} {c : Prop} [Decidable c] (h1 : s.Kept t) (h2 : s.Kept u) :
    s.Kept (if c then t else u) := by
  split
  · exact h1
  · exact h2

/-- What an access that stays behind the registers keeps: a table walk, a record of a reference or a change, a transfer from or
to memory. -/
structure State.Behind (s t : State) : Prop where
  storage : s.StorageOnly t
  wf : Memory.wf s.mem = true → Memory.wf t.mem = true

theorem State.Behind.refl (s : State) : s.Behind s := ⟨rfl, id⟩

theorem State.Behind.trans {s t u : State} (h1 : s.Behind t) (h2 : t.Behind u) : s.Behind u :=
  ⟨h1.storage.trans h2.storage, h2.wf ∘ h1.wf⟩

/-- An update that leaves main memory alone. -/
theorem State.Behind.same {s t : State} (h : s.StorageOnly t) (hm : t.mem = s.mem) : s.Behind t := ⟨h, fun c => hm ▸ c⟩

/-- What stays behind the registers for a pair's state, when the pair is known. -/
theorem State.Behind.ofEq {α : Type} {s t : State} {x : α × State} {a : α} (h : s.Behind x.2) (e : x = (a, t)) :
    s.Behind t := by
  rw [e] at h
  exact h

theorem State.Behind.kept {s t : State} (h : s.Behind t) : s.Kept t := by
  have e := h.storage
  refine ⟨?_, fun c => e.canonical (h.wf c.mem) c, fun c => ⟨?_, ?_⟩⟩
  · unfold State.StorageOnly at e
    unfold State.OutsideOnly
    rw [e]
    rfl
  · rw [e]; exact c.rtcl
  · rw [e]; exact c.dec

/-! ### Free values -/

theorem State.drawWord_behind (s : State) : s.Behind s.drawWord.2 := .same rfl rfl
theorem State.drawBit_behind (s : State) : s.Behind s.drawBit.2 := .same rfl rfl
theorem State.drawBytes_behind (s : State) (n : Nat) : s.Behind (s.drawBytes n).2 := .same rfl rfl

/-! ### Main memory and the data cache -/

/-- A new memory in canonical form. -/
theorem State.Behind.ofMem {s : State} {m : List Host.Cell} (h : Memory.wf s.mem = true → Memory.wf m = true) :
    s.Behind { s with mem := m } :=
  ⟨rfl, h⟩

theorem State.setMemByte_behind (s : State) (a : Nat) (v : Byte) : s.Behind (s.setMemByte a v) := by
  rw [State.setMemByte_rest]
  exact .ofMem fun h => State.wf_setMemByte h a v

theorem State.finishStoreBack_behind (s : State) (e : StoreBack) : s.Behind (s.finishStoreBack e) := by
  obtain ⟨m, b, h⟩ := s.finishStoreBack_rest e
  exact ⟨by rw [h]; rfl, fun c => State.wf_finishStoreBack e c⟩

theorem State.finishAll_behind (l : List StoreBack) (s : State) : s.Behind (State.finishAll l s) := by
  induction l generalizing s with
  | nil => exact .refl s
  | cons e l ih => exact (s.finishStoreBack_behind e).trans (ih (s.finishStoreBack e))

theorem State.finishLine_behind (s : State) (line : Nat) : s.Behind (s.finishLine line) :=
  (State.finishAll_behind _ s).trans (.same rfl rfl)

theorem State.finishWb_behind (s : State) : s.Behind s.finishWb :=
  (State.finishAll_behind _ s).trans (.same rfl rfl)

theorem State.Behind.dataCache (s : State) (d : List DLine) (n : Nat) (b : Bool) :
    s.Behind { s with dc := d, draws := n, machineCheck := b } := .same rfl rfl

theorem State.reload_behind (s : State) (line : Nat) : s.Behind (s.reload line).2 := by
  unfold State.reload
  simp only
  split
  · exact State.Behind.dataCache s _ s.draws s.machineCheck
  · exact State.Behind.dataCache s _ _ true

theorem State.touchLine_behind (s : State) (line : Nat) : s.Behind (s.touchLine line).2 := by
  have h := s.finishLine_behind line
  unfold State.touchLine
  generalize s.finishLine line = s1 at h
  simp only
  cases s1.dataLine line with
  | some d => exact h
  | none => exact h.trans (s1.reload_behind line)

theorem State.loadReal_behind (s : State) (ra : Word) : s.Behind (s.loadReal ra).2 := s.touchLine_behind (s.lineOf ra)

theorem State.storeReal_behind (s : State) (ra : Word) (v : Byte) : s.Behind (s.storeReal ra v) := by
  unfold State.storeReal
  split
  · exact (s.finishLine_behind (s.lineOf ra)).trans (State.Behind.dataCache _ _ _ true)
  · have h := s.touchLine_behind (s.lineOf ra)
    generalize (s.touchLine (s.lineOf ra)).2 = s1 at h
    exact h.trans (State.Behind.dataCache s1 _ s1.draws s1.machineCheck)

theorem State.loadRealBytes_behind (n : Nat) (ra : Word) (s : State) : s.Behind (State.loadRealBytes n ra s).2 := by
  induction n generalizing ra s with
  | zero => exact .refl s
  | succ n ih => exact (s.loadReal_behind ra).trans (ih (ra + 1) (s.loadReal ra).2)

theorem State.storeRealBytes_behind (l : List Byte) (ra : Word) (s : State) :
    s.Behind (State.storeRealBytes l ra s) := by
  induction l generalizing ra s with
  | nil => exact .refl s
  | cons v l ih => exact (s.storeReal_behind ra v).trans (ih (ra + 1) (s.storeReal ra v))

theorem State.realReadWord_behind (s : State) (ra : Word) : s.Behind (s.realReadWord ra).2 := by
  unfold State.realReadWord
  rcases e : State.loadRealBytes 4 ra s with ⟨l, s1⟩
  exact (State.loadRealBytes_behind 4 ra s).ofEq e

theorem State.realWriteWord_behind (s : State) (ra v : Word) : s.Behind (s.realWriteWord ra v) :=
  State.storeRealBytes_behind _ ra s

/-! ### Translation (21_translation) -/

theorem searchChain_behind (sid : BitVec 24) (vpi : BitVec 16) (fuel : Nat) (next : BitVec 20) (s : State) :
    s.Behind (searchChain sid vpi fuel next s).2 := by
  induction fuel generalizing next s with
  | zero => exact .refl s
  | succ fuel ih =>
    unfold searchChain
    rcases e0 : s.realReadWord (pftAddr s.sdr0 next) with ⟨w0, s1⟩
    rcases e1 : s1.realReadWord (pftAddr s.sdr0 next + 4) with ⟨w1, s2⟩
    rcases e2 : s2.realReadWord (pftAddr s.sdr0 next + 8) with ⟨w2, s3⟩
    rcases e3 : s3.realReadWord (pftAddr s.sdr0 next + 12) with ⟨w3, s4⟩
    have h2 : s.Behind s2 := ((State.realReadWord_behind s _).ofEq e0).trans ((State.realReadWord_behind s1 _).ofEq e1)
    simp only [e0, e1, e2, e3]
    split
    · exact h2.trans (((State.realReadWord_behind s2 _).ofEq e2).trans ((State.realReadWord_behind s3 _).ofEq e3))
    · split
      · exact h2
      · exact h2.trans (ih (bitsAt w1 12 20) s2)

theorem searchPower_behind (sid : BitVec 24) (vpi : BitVec 16) (s : State) : s.Behind (searchPower sid vpi s).2 := by
  unfold searchPower
  rcases e : s.realReadWord (hatAddr s.sdr1 sid vpi) with ⟨w, s1⟩
  have h1 : s.Behind s1 := (State.realReadWord_behind s _).ofEq e
  simp only
  split
  · exact h1
  · exact h1.trans (searchChain_behind sid vpi 127 (bitsAt w 12 20) s1)

theorem searchGroup_behind (sid : BitVec 24) (vpi : BitVec 16) (h : Bool) (fuel : Nat) (addr : Word) (s : State) :
    s.Behind (searchGroup sid vpi h fuel addr s).2 := by
  induction fuel generalizing addr s with
  | zero => exact .refl s
  | succ fuel ih =>
    unfold searchGroup
    rcases e0 : s.realReadWord addr with ⟨w0, s1⟩
    rcases e1 : s1.realReadWord (addr + 4) with ⟨w1, s2⟩
    have h1 : s.Behind s1 := (State.realReadWord_behind s _).ofEq e0
    simp only [e1]
    split
    · exact h1.trans ((State.realReadWord_behind s1 _).ofEq e1)
    · exact h1.trans (ih (addr + 8) s1)

theorem searchPower2_behind (sid : BitVec 24) (vpi : BitVec 16) (s : State) : s.Behind (searchPower2 sid vpi s).2 := by
  unfold searchPower2
  rcases e0 : searchGroup sid vpi false 8 (htegAddr s.sdr1 (htabHash1 sid vpi)) s with ⟨r, s1⟩
  have h1 : s.Behind s1 := (searchGroup_behind sid vpi false 8 _ s).ofEq e0
  cases r with
  | some e => exact h1
  | none =>
    rcases e1 : searchGroup sid vpi true 8 (htegAddr s1.sdr1 (htabHash2 sid vpi)) s1 with ⟨r, s2⟩
    have h2 : s1.Behind s2 := (searchGroup_behind sid vpi true 8 _ s1).ofEq e1
    simp only [e1]
    cases r <;> exact h1.trans h2

theorem searchTables_behind (sid : BitVec 24) (vpi : BitVec 16) (s : State) : s.Behind (searchTables sid vpi s).2 := by
  unfold searchTables
  split
  · exact searchPower_behind sid vpi s
  · exact searchPower2_behind sid vpi s

theorem State.addTlb_behind (s : State) (e : TlbEntry) : s.Behind (s.addTlb e) := by
  unfold State.addTlb
  split
  · exact .refl s
  · exact .same rfl rfl

theorem State.replaceTlb_behind (s : State) (e e1 : TlbEntry) : s.Behind (s.replaceTlb e e1) := .same rfl rfl

theorem walkTables_behind (sid : BitVec 24) (vpi : BitVec 16) (s : State) : s.Behind (walkTables sid vpi s).2 := by
  unfold walkTables
  rcases e0 : searchTables sid vpi s with ⟨r, s1⟩
  have h : s.Behind s1 := (searchTables_behind sid vpi s).ofEq e0
  cases r with
  | entry e => exact h.trans (s1.addTlb_behind e)
  | notFound => exact h
  | loop => exact h

/-- What a look-up can be (R200): a walk where the TLB has no copy; else one of its copies, or a walk. -/
theorem lookupPage_cases (sid : BitVec 24) (vpi : BitVec 16) (s : State) :
    (s.tlbCopies sid vpi = [] ∧ lookupPage sid vpi s = walkTables sid vpi s)
    ∨ (s.tlbCopies sid vpi ≠ [] ∧
      ((∃ e ∈ s.tlbCopies sid vpi, lookupPage sid vpi s = (.entry e, s.drawWord.2))
        ∨ lookupPage sid vpi s = walkTables sid vpi s.drawWord.2)) := by
  unfold lookupPage
  cases h : s.tlbCopies sid vpi with
  | nil => exact .inl ⟨rfl, rfl⟩
  | cons x l =>
    refine .inr ⟨List.cons_ne_nil x l, ?_⟩
    rcases s.drawWord with ⟨w, s1⟩
    simp only
    cases hx : (x :: l)[w.toNat % (l.length + 2)]? with
    | none => exact .inr rfl
    | some e => exact .inl ⟨e, List.mem_of_getElem? hx, rfl⟩

theorem lookupPage_behind (sid : BitVec 24) (vpi : BitVec 16) (s : State) : s.Behind (lookupPage sid vpi s).2 := by
  obtain ⟨-, h⟩ | ⟨-, ⟨e, -, h⟩ | h⟩ := lookupPage_cases sid vpi s
  · rw [h]; exact walkTables_behind sid vpi s
  · rw [h]; exact s.drawWord_behind
  · rw [h]; exact s.drawWord_behind.trans (walkTables_behind sid vpi _)

theorem State.recordBits_behind (s : State) (e : TlbEntry) (f c : Bool) : s.Behind (s.recordBits e f c).2 := by
  unfold State.recordBits
  split
  · rcases e0 : s.realReadWord e.word with ⟨w, s1⟩
    have h1 : s.Behind s1 := (State.realReadWord_behind s _).ofEq e0
    have h2 : ∀ v, s1.Behind (s1.realWriteWord e.word v) := State.realWriteWord_behind s1 e.word
    simp only
    exact h1.trans ((h2 _).trans (State.replaceTlb_behind _ _ _))
  · exact .refl s

theorem State.failedAccess_behind (s : State) (e : TlbEntry) : s.Behind (s.failedAccess e) :=
  s.drawBit_behind.trans (State.recordBits_behind _ _ _ _)

theorem lockCheck_behind {e : TlbEntry} {ea : Word} {store : Bool} {s : State} {p : TlbEntry × State}
    (h : lockCheck e ea store s = some p) : s.Behind p.2 := by
  unfold lockCheck at h
  cases hl : Config.lockRule e.lock2 e.lock3 (s.tid &&& tidMask) (bitsAt ea 20 5) store with
  | allow =>
    simp only [hl, Option.some.injEq] at h
    rw [← h]
    exact .refl s
  | deny =>
    simp only [hl] at h
    cases h
  | update w2 w3 =>
    simp only [hl] at h
    cases hi : s.cfg.impl with
    | power2 =>
      simp only [hi, Option.some.injEq] at h
      rw [← h]
      exact .refl s
    | power =>
      simp only [hi, Option.some.injEq] at h
      rw [← h]
      have h1 := State.realWriteWord_behind s (e.word + 8) w2
      have h2 := h1.trans (State.realWriteWord_behind (s.realWriteWord (e.word + 8) w2) (e.word + 12) w3)
      exact h2.trans (State.replaceTlb_behind _ e { e with lock2 := w2, lock3 := w3 })

theorem translate_behind (ea : Word) (data store : Bool) (s : State) : s.Behind (translate ea data store s).2 := by
  unfold translate
  simp only
  rcases e0 : lookupPage (bitsAt (s.segmentOf ea) 8 24) (bitsAt ea 4 16) s with ⟨r, s1⟩
  have h1 : s.Behind s1 := (lookupPage_behind _ _ s).ofEq e0
  cases r with
  | notFound => exact h1
  | loop => exact h1
  | entry e =>
    simp only
    split
    · exact h1.trans (State.failedAccess_behind s1 e)
    · next e1 s2 heq =>
      have h2 : s1.Behind s2 := by
        split at heq
        · exact lockCheck_behind heq
        · cases heq; exact .refl s1
      split
      · exact h1.trans (h2.trans (State.recordBits_behind s2 e1 true store))
      · exact h1.trans (h2.trans (State.failedAccess_behind s2 e1))

theorem dataAddr_behind (ea : Word) (store : Bool) (s : State) : s.Behind (dataAddr ea store s).2 := by
  unfold dataAddr
  split
  · exact .refl s
  · split
    · exact translate_behind ea true store s
    · exact .refl s

/-! ### The same, as what every data access keeps -/

theorem State.drawWord_kept (s : State) : s.Kept s.drawWord.2 := s.drawWord_behind.kept
theorem State.drawBit_kept (s : State) : s.Kept s.drawBit.2 := s.drawBit_behind.kept
theorem State.drawBytes_kept (s : State) (n : Nat) : s.Kept (s.drawBytes n).2 := (s.drawBytes_behind n).kept

theorem State.setMemByte_kept (s : State) (a : Nat) (v : Byte) : s.Kept (s.setMemByte a v) := (s.setMemByte_behind a v).kept

theorem State.loadReal_kept (s : State) (ra : Word) : s.Kept (s.loadReal ra).2 := (s.loadReal_behind ra).kept

theorem State.storeReal_kept (s : State) (ra : Word) (v : Byte) : s.Kept (s.storeReal ra v) := (s.storeReal_behind ra v).kept

theorem State.loadRealBytes_kept (n : Nat) (ra : Word) (s : State) : s.Kept (State.loadRealBytes n ra s).2 :=
  (State.loadRealBytes_behind n ra s).kept

theorem State.storeRealBytes_kept (l : List Byte) (ra : Word) (s : State) : s.Kept (State.storeRealBytes l ra s) :=
  (State.storeRealBytes_behind l ra s).kept

theorem dataAddr_kept (ea : Word) (store : Bool) (s : State) : s.Kept (dataAddr ea store s).2 :=
  (dataAddr_behind ea store s).kept

/-! ### The timers -/

theorem State.signal_kept (s : State) (n : BitVec 6) : s.Kept (s.signal n) := .same rfl rfl rfl rfl rfl rfl

/-- The reserved bits of a timer are 0. -/
theorem timer_iff (v : Word) : v &&& timerMask = v ↔ v.toNat % 256 = 0 := by
  have h : v &&& timerMask = boundary v 256 := boundary_eq_and v 8 (by decide)
  rw [h]
  constructor
  · intro e
    unfold boundary at e
    have h2 := congrArg BitVec.toNat (BitVec.sub_eq_iff_eq_add.1 e)
    have hlt : v.toNat % 256 < 256 := Nat.mod_lt _ (by decide)
    rw [BitVec.toNat_add, BitVec.toNat_ofNat] at h2
    have := v.isLt
    omega
  · exact boundary_of_aligned

theorem timer_add {v : Word} (h : v &&& timerMask = v) : (v + 256) &&& timerMask = v + 256 := by
  rw [timer_iff] at h ⊢
  rw [BitVec.toNat_add]
  have : (256 : Word).toNat = 256 := rfl
  rw [this]
  omega

theorem timer_sub {v : Word} (h : v &&& timerMask = v) : (v - 256) &&& timerMask = v - 256 := by
  rw [timer_iff] at h ⊢
  rw [BitVec.toNat_sub]
  have : (256 : Word).toNat = 256 := rfl
  rw [this]
  omega

theorem timer_mask (v : Word) : (v &&& timerMask) &&& timerMask = v &&& timerMask := by
  rw [BitVec.and_assoc, BitVec.and_self]

theorem State.rtcTick_kept (s : State) : s.Kept s.rtcTick := by
  unfold State.rtcTick
  split
  · exact ⟨rfl, fun c => ⟨c.mem, c.nvram, c.ioccs⟩, fun c => ⟨BitVec.zero_and, c.dec⟩⟩
  · split
    · exact ⟨rfl, fun c => ⟨c.mem, c.nvram, c.ioccs⟩, fun c => ⟨timer_add c.rtcl, c.dec⟩⟩
    · refine ⟨rfl, fun c => ⟨c.mem, c.nvram, c.ioccs⟩, fun c => ⟨?_, c.dec⟩⟩
      simp only
      split
      · rfl
      · exact timer_add c.rtcl

theorem State.decTick_kept (s : State) : s.Kept s.decTick := by
  have h : s.Kept { s with dec := s.dec - 256 } :=
    ⟨rfl, fun c => ⟨c.mem, c.nvram, c.ioccs⟩, fun c => ⟨c.rtcl, timer_sub c.dec⟩⟩
  unfold State.decTick
  simp only
  split
  · exact h.trans (State.signal_kept _ _)
  · exact h

end Sys2Proof.Machine
end

