-- ==== Sys2Proof/Laws/KeptIo.lean ====
section
/-!
SUPPORT. What every access to an I/O segment keeps (20_memory R110, 62_iocc to 64_iocc_facilities): the relation of
Laws/Kept for the I/O Channel Controllers, bus transfers and the registers of BUID 0.
-/

namespace Sys2Proof.Machine

/-! ### Results -/

/-- Wherever the access ends, it keeps. -/
def IoRes.Keeps (s : State) : IoRes → Prop
  | .ok _ t => s.Kept t
  | .err _ t => s.Kept t
  | .refused _ => True

/-- The same for a byte of a bus master. -/
def MasterRes.Keeps (s : State) : MasterRes → Prop
  | .ok _ t => s.Kept t
  | .err _ _ t => s.Kept t
  | .refused _ => True

/-- The same for several bytes. -/
def MasterBytes.Keeps (s : State) : MasterBytes → Prop
  | .ok _ t => s.Kept t
  | .err _ _ _ t => s.Kept t
  | .refused _ => True

theorem IoRes.Keeps.after {s t : State} {r : IoRes} (h1 : s.Kept t) (h2 : r.Keeps t) : r.Keeps s := by
  cases r with
  | ok l u => exact h1.trans h2
  | err l u => exact h1.trans h2
  | refused _ => trivial

theorem MasterRes.Keeps.after {s t : State} {r : MasterRes} (h1 : s.Kept t) (h2 : r.Keeps t) : r.Keeps s := by
  cases r with
  | ok l u => exact h1.trans h2
  | err l r u => exact h1.trans h2
  | refused _ => trivial

theorem MasterBytes.Keeps.after {s t : State} {r : MasterBytes} (h1 : s.Kept t) (h2 : r.Keeps t) : r.Keeps s := by
  cases r with
  | ok l u => exact h1.trans h2
  | err l r g u => exact h1.trans h2
  | refused _ => trivial

/-! ### One IOCC changed -/

theorem Iocc.reset_canonical : Iocc.reset.Canonical := ⟨rfl, rfl⟩

theorem State.iocc_canonical {s : State} (h : s.Canonical) (k : Nat) : (s.iocc k).Canonical := by
  unfold State.iocc
  rw [List.getD_eq_getElem?_getD]
  cases hx : s.ioccs[k]? with
  | none => exact Iocc.reset_canonical
  | some x => exact h.ioccs x (List.mem_of_getElem? hx)

/-- A change of one IOCC that keeps the form of its tables. -/
theorem State.onIocc_kept (s : State) (k : Nat) {f : Iocc → Iocc} (hf : ∀ x : Iocc, x.Canonical → (f x).Canonical) :
    s.Kept (s.onIocc k f) := by
  refine ⟨rfl, fun c => ⟨c.mem, c.nvram, fun x hx => ?_⟩, fun c => ⟨c.rtcl, c.dec⟩⟩
  rcases List.mem_or_eq_of_mem_set hx with h | h
  · exact c.ioccs x h
  · rw [h]; exact hf _ (State.iocc_canonical c k)

/-- A change of one IOCC that leaves its tables alone. -/
theorem State.onIocc_kept_same (s : State) (k : Nat) {f : Iocc → Iocc}
    (ht : ∀ x : Iocc, (f x).tcw = x.tcw := by intro _; rfl) (hg : ∀ x : Iocc, (f x).tag = x.tag := by intro _; rfl) : s.Kept (s.onIocc k f) :=
  s.onIocc_kept k fun x h => ⟨(ht x).symm ▸ h.tcw, (hg x).symm ▸ h.tag⟩

/-! ### The tables (R850, R897, R939) -/

theorem State.setMemBytes_kept (l : List Byte) (a : Nat) (s : State) : s.Kept (State.setMemBytes l a s) := by
  induction l generalizing a s with
  | nil => exact .refl s
  | cons b l ih => exact (s.setMemByte_kept a b).trans (ih (a + 1) _)

theorem setTcw_kept (k p : Nat) (t : Word) (s : State) : s.Kept (setTcw k p t s) := by
  unfold setTcw
  refine State.Kept.ite (State.setMemBytes_kept _ _ s) (State.onIocc_kept s k fun x h => ?_)
  exact ⟨cellsFrom_cellWrite t h.tcw (Nat.zero_le p), h.tag⟩

theorem updateTcw_kept (k p : Nat) (f : Word → Word) (s : State) : s.Kept (updateTcw k p f s) := by
  unfold updateTcw
  split
  · exact setTcw_kept k p _ s
  · exact .refl s

theorem setTagWord_kept (k n : Nat) (v : Word) (s : State) : s.Kept (setTagWord k n v s) := by
  unfold setTagWord
  refine State.Kept.ite (State.setMemBytes_kept _ _ s) (State.onIocc_kept s k fun x h => ?_)
  exact ⟨h.tcw, cellsFrom_cellWrite v h.tag (Nat.zero_le n)⟩

/-! ### Errors -/

theorem logCsr15_kept (k : Nat) (code : Option (BitVec 4)) (s : State) : s.Kept (logCsr15 k code s) := by
  unfold logCsr15
  cases code with
  | none => exact .refl s
  | some c =>
    simp only
    split
    · exact s.drawWord_kept.trans (State.onIocc_kept_same _ k)
    · exact .refl s

theorem busTimeout_kept (k : Nat) (signals : Byte) (s : State) : s.Kept (busTimeout k signals s) :=
  State.onIocc_kept_same s k

theorem fillBytes_kept (n : Nat) (l : List Byte) (s : State) : s.Kept (fillBytes n l s).2 := s.drawBytes_kept n

theorem State.logBus_kept (s : State) (k : Nat) (sp : BusSpace) (a : Word) (st fb : Bool) (l : List Byte) :
    s.Kept (s.logBus k sp a st fb l) := .same rfl rfl rfl rfl rfl rfl

theorem State.pulse_kept (s : State) (k : Nat) (sp : BusSpace) (c : BitVec 4) : s.Kept (s.pulse k sp c) :=
  s.logBus_kept k sp _ _ _ _

theorem bmErr_kept (k : Nat) (c code : BitVec 4) (reload : Bool) (ba : Word) (s : State) :
    s.Kept (bmErr k c code reload ba s) :=
  (State.onIocc_kept_same s k).trans (State.pulse_kept _ k _ c)

theorem dmaErr_kept (k : Nat) (c code : BitVec 4) (s : State) : s.Kept (dmaErr k c code s) :=
  (State.onIocc_kept_same s k).trans (State.pulse_kept _ k _ c)

/-! ### System memory and buffers -/

theorem takeFault_kept {k : Nat} {codes : List (BitVec 4)} {s t : State} {code : BitVec 4}
    (h : takeFault k codes s = some (code, t)) : s.Kept t := by
  unfold takeFault at h
  simp only at h
  split at h
  · cases h; exact State.onIocc_kept_same s k
  · cases h

theorem sysRead_kept (k a : Nat) (s : State) : s.Kept (sysRead k a s).2 := by
  unfold sysRead
  split
  · exact s.loadReal_kept _
  · exact .refl s

theorem sysWrite_kept (k a : Nat) (v : Byte) (s : State) : s.Kept (sysWrite k a v s) := by
  unfold sysWrite
  split
  · exact s.storeReal_kept _ v
  · exact s.setMemByte_kept a v

theorem writeBack_kept (rmw : Config.Rmw) (b : Buffer) (base n j : Nat) (s : State) :
    s.Kept (writeBack rmw b base n j s) := by
  induction n generalizing j s with
  | zero => exact .refl s
  | succ n ih =>
    unfold writeBack
    cases keepByte rmw b j with
    | none => exact ih (j + 1) s
    | some v => exact (s.setMemByte_kept (base + j) v).trans (ih (j + 1) _)

theorem castOut_kept (k : Nat) (b : BitVec 4) (s : State) : s.Kept (castOut k b s) := by
  unfold castOut
  simp only
  split
  · exact (writeBack_kept _ _ _ 64 0 s).trans (State.onIocc_kept_same _ k)
  · exact .refl s

theorem touchTcw_kept (k : Nat) (b : BitVec 4) (p : Nat) (write : Bool) (s : State) :
    s.Kept (touchTcw k b p write s) :=
  (updateTcw_kept k p _ s).trans (State.onIocc_kept_same _ k)

/-- An access to system memory, failing or not, keeps what every access keeps. -/
def LineRes.Keeps (r : LineRes) (s : State) : Prop :=
  match r with
  | .ok t => s.Kept t
  | .err _ t => s.Kept t

theorem LineRes.Keeps.after {s t : State} {r : LineRes} (h1 : s.Kept t) (h2 : r.Keeps t) : r.Keeps s := by
  cases r <;> exact State.Kept.trans h1 h2

theorem LineRes.Keeps.map {s : State} {r : LineRes} {f : State → State} (h : r.Keeps s)
    (hf : ∀ t, State.Kept t (f t)) : (r.map f).Keeps s := by
  cases r with
  | ok t => exact State.Kept.trans h (hf t)
  | err code t => exact h

theorem systemAccess_keeps (k : Nat) (acknowledged : Bool) (s : State) : (systemAccess k acknowledged s).Keeps s := by
  unfold systemAccess
  split
  · next e => exact takeFault_kept e
  split <;> exact State.Kept.refl s

theorem castOutLine_keeps (k : Nat) (b : BitVec 4) (s : State) : (castOutLine k b s).Keeps s := by
  unfold castOutLine
  simp only
  split
  · exact State.Kept.refl s
  rcases e : (if (s.iocc k).fault = 0xC || (s.iocc k).fault = 0xD then s.drawBit else (false, s)) with ⟨later, s1⟩
  have h1 : s.Kept s1 := by
    split at e
    · exact s.drawBit_kept.ofEq e
    · cases e; exact .refl s
  have h2 : (if later && lineAcknowledged s ((s.iocc k).lineAddr b) then LineRes.ok s1
      else systemAccess k (lineAcknowledged s ((s.iocc k).lineAddr b)) s1).Keeps s := by
    split
    · exact h1
    · exact LineRes.Keeps.after h1 (systemAccess_keeps k _ s1)
  simp only
  generalize (if later && lineAcknowledged s ((s.iocc k).lineAddr b) then LineRes.ok s1
      else systemAccess k (lineAcknowledged s ((s.iocc k).lineAddr b)) s1) = r at h2
  cases r with
  | ok s2 => exact State.Kept.trans h2 (castOut_kept k b s2)
  | err code s2 => exact h2

theorem bufferFill_kept (k : Nat) (b : BitVec 4) (base : Nat) (write : Bool) (s : State) :
    s.Kept (bufferFill k b base write s) := by
  unfold bufferFill
  exact State.onIocc_kept_same s k

theorem bufferMerge_kept (k : Nat) (b : BitVec 4) (base : Nat) (s : State) : s.Kept (bufferMerge k b base s) :=
  State.onIocc_kept_same s k

theorem newLine_keeps (k : Nat) (b : BitVec 4) (line : BitVec 6) (base : Nat) (write : Bool) (s : State) :
    (newLine k b line base write s).Keeps s := by
  have h := castOutLine_keeps k b s
  unfold newLine
  generalize castOutLine k b s = r at h
  cases r with
  | err code s1 => exact h
  | ok s1 =>
    have h2 := State.Kept.trans h (State.onIocc_kept_same s1 k
      (f := fun x => x.setReg8 b (setBits (x.reg8 b) 26 6 line)) (fun _ => rfl) fun _ => rfl)
    refine LineRes.Keeps.after h2 (LineRes.Keeps.map ?_ fun t => bufferFill_kept k b base write t)
    split <;> split
    all_goals
      first
      | exact systemAccess_keeps k _ _
      | exact State.Kept.refl _

theorem bufferLine_keeps (k : Nat) (b : BitVec 4) (line : BitVec 6) (base : Nat) (write : Bool) (s : State) :
    (bufferLine k b line base write s).Keeps s := by
  unfold bufferLine
  simp only
  split
  · exact newLine_keeps k b line base write s
  split
  · exact (systemAccess_keeps k _ s).map fun t => bufferMerge_kept k b base t
  · exact State.Kept.refl s

theorem bufferByte_kept (k : Nat) (b : BitVec 4) (o : Nat) (write : Option Byte) (s : State) :
    s.Kept (bufferByte k b o write s).2 := by
  unfold bufferByte
  cases write with
  | none => exact .refl s
  | some v =>
    simp only
    exact State.onIocc_kept_same s k

theorem bufferCycle_keeps (k : Nat) (c b : BitVec 4) (ba : Word) (write : Option Byte) (free reload : Bool)
    (s : State) : (bufferCycle k c b ba write free reload s).Keeps s := by
  unfold bufferCycle
  simp only
  split
  · exact .refl s
  have h := bufferLine_keeps k b (bitsAt ba 20 6)
    (bitsAt ((s.iocc k).reg4 b) 0 20 ++ bitsAt ba 20 6 ++ 0#6 : Word).toNat write.isSome s
  generalize bufferLine k b (bitsAt ba 20 6)
    (bitsAt ((s.iocc k).reg4 b) 0 20 ++ bitsAt ba 20 6 ++ 0#6 : Word).toNat write.isSome s = r at h
  cases r with
  | err code s1 => exact h
  | ok s1 => exact State.Kept.trans h ((bufferByte_kept k b _ write s1).trans (touchTcw_kept k b _ _ _))

theorem bufferedByte_keeps (k : Nat) (c : BitVec 4) (ba : Word) (write : Option Byte) (free : Bool) (s : State) :
    (bufferedByte k c ba write free s).Keeps s := by
  unfold bufferedByte
  simp only
  split
  · exact bufferCycle_keeps k c _ ba write free _ s
  · split
    · trivial
    · exact State.Kept.refl s
    · exact State.Kept.refl s
    · next t _ =>
      generalize hs1 : s.onIocc k (fun x => x.setCsr c (setBits (x.csr c) 12 4 (bitsAt t 20 4))) = s1
      have h1 : s.Kept s1 := by
        rw [← hs1]; exact State.onIocc_kept_same s k
      split
      · exact MasterRes.Keeps.after h1 (bufferCycle_keeps k c _ ba write free _ s1)
      · have h2 := LineRes.Keeps.after h1 (castOutLine_keeps k (bitsAt t 20 4) s1)
        generalize castOutLine k (bitsAt t 20 4) s1 = r at h2
        cases r with
        | err code s2 => exact h2
        | ok s2 =>
          simp only
          generalize hs3 : s2.onIocc k (fun x => (x.setReg4 (bitsAt t 20 4) t).setReg8 (bitsAt t 20 4)
            (0b0010#4 ++ 0#2 ++ bitsAt ba 0 26)) = s3
          have h3 : s2.Kept s3 := by
            rw [← hs3]; exact State.onIocc_kept_same s2 k
          exact MasterRes.Keeps.after (State.Kept.trans h2 h3) (bufferCycle_keeps k c _ ba write free _ s3)

theorem directByte_keeps (k : Nat) (c : BitVec 4) (ba : Word) (write : Option Byte) (free : Bool) (s : State) :
    (directByte k c ba write free s).Keeps s := by
  unfold directByte
  split
  · trivial
  · exact State.Kept.refl s
  · exact State.Kept.refl s
  · next t _ =>
    simp only
    split
    · exact State.Kept.refl s
    have h := systemAccess_keeps k (s.isRam (bitsAt t 0 20 ++ bitsAt ba 20 12 : Word).toNat) s
    generalize systemAccess k (s.isRam (bitsAt t 0 20 ++ bitsAt ba 20 12 : Word).toNat) s = r at h
    cases r with
    | err code s1 => exact h
    | ok s1 =>
      cases write with
      | none => exact State.Kept.trans h ((sysRead_kept k _ s1).trans (updateTcw_kept k _ _ _))
      | some v => exact State.Kept.trans h ((sysWrite_kept k _ v s1).trans (updateTcw_kept k _ _ _))

theorem mappedByte_keeps (k : Nat) (c : BitVec 4) (ba : Word) (write : Option Byte) (free : Bool) (s : State) :
    (mappedByte k c ba write free s).Keeps s := by
  unfold mappedByte
  split
  · exact bufferedByte_keeps k c ba write free s
  · exact directByte_keeps k c ba write free s
  · trivial

theorem mappedRead_keeps (k : Nat) (c : BitVec 4) (free : Bool) (upTo : Option Byte) (n : Nat) (ba : Word) (s : State) :
    (mappedRead k c free upTo n ba s).Keeps s := by
  induction n generalizing ba s with
  | zero => exact State.Kept.refl s
  | succ n ih =>
    have h1 := mappedByte_keeps k c ba none free s
    unfold mappedRead
    generalize mappedByte k c ba none free s = r at h1
    cases r with
    | err code q s1 => exact h1
    | refused r => trivial
    | ok b s1 =>
      have h2 := ih (ba + 1) s1
      simp only
      split
      · exact h1
      generalize mappedRead k c free upTo n (ba + 1) s1 = q at h2
      cases q with
      | ok l s2 => exact State.Kept.trans h1 h2
      | err code _ _ s2 => exact State.Kept.trans h1 h2
      | refused r => trivial

theorem mappedWrite_keeps (k : Nat) (c : BitVec 4) (free : Bool) (l : List Byte) (ba : Word) (s : State) :
    (mappedWrite k c free l ba s).Keeps s := by
  induction l generalizing ba s with
  | nil => exact State.Kept.refl s
  | cons b l ih =>
    have h1 := mappedByte_keeps k c ba (some b) free s
    unfold mappedWrite
    generalize mappedByte k c ba (some b) free s = r at h1
    cases r with
    | err code q s1 => exact h1
    | refused r => trivial
    | ok b s1 => exact MasterBytes.Keeps.after h1 (ih (ba + 1) s1)

theorem slaveWriteBack_kept (k : Nat) (c : BitVec 4) (line upto : Nat) (zero : Bool) (s : State) :
    s.Kept (slaveWriteBack k c line upto zero s) :=
  writeBack_kept _ _ line 64 0 s

theorem mappedBytes_keeps (k : Nat) (c : BitVec 4) (free : Bool) (upTo : Option Byte) (n : Nat)
    (write : Option (List Byte)) (ba : Word) (s : State) : (mappedBytes k c free upTo n write ba s).Keeps s := by
  cases write with
  | some l => exact mappedWrite_keeps k c free l ba s
  | none => exact mappedRead_keeps k c free upTo n ba s

theorem emptySlave_kept (k : Nat) (c : BitVec 4) (s : State) : s.Kept (emptySlave k c s) :=
  State.onIocc_kept_same s k

theorem flushSlave_kept (k : Nat) (c : BitVec 4) (line upto : Nat) (zero : Bool) (s : State) :
    s.Kept (flushSlave k c line upto zero s) :=
  State.Kept.trans (State.Kept.ite (slaveWriteBack_kept k c line upto zero s) (.refl s)) (emptySlave_kept k c _)

/-! ### Bus masters and DMA slaves (R886 to R911) -/

/-- A move of a device keeps, unless it is refused. -/
def MoveRes.Keeps (s : State) : MoveRes → Prop
  | .ok t => s.Kept t
  | .refused _ => True

theorem MoveRes.Keeps.after {s t : State} {r : MoveRes} (h1 : s.Kept t) (h2 : r.Keeps t) : r.Keeps s := by
  cases r with
  | ok u => exact h1.trans h2
  | refused _ => trivial

theorem refusedCycle_kept (k : Nat) (c : BitVec 4) (ba : Word) (n : Nat) (write : Bool) (s : State) :
    s.Kept (refusedCycle k c ba n write s) := by
  unfold refusedCycle
  have h := s.logBus_kept k (busSpace ba) ba write false (if write then [] else List.replicate n 0xFF)
  exact State.Kept.ite h (h.trans (State.pulse_kept _ k _ c))

theorem failedCycle_kept (k : Nat) (c code : BitVec 4) (reload : Bool) (ba : Word) (write : Bool) (s : State) :
    s.Kept (failedCycle k c code reload ba write s) :=
  (s.logBus_kept k _ _ _ _ _).trans (bmErr_kept k c code reload ba _)

theorem busMasterCycle_keeps (k : Nat) (c : BitVec 4) (ba : Word) (n : Nat) (write : Option (List Byte)) (s : State) :
    (busMasterCycle k c ba n write s).Keeps s := by
  unfold busMasterCycle
  simp only
  split
  · trivial
  split
  · exact refusedCycle_kept k c ba n _ s
  split
  · exact s.logBus_kept k _ _ _ _ _
  · have h := mappedBytes_keeps k c false none n write ba s
    generalize mappedBytes k c false none n write ba s = r at h
    cases r with
    | ok l s1 => exact State.Kept.trans h (s1.logBus_kept k _ _ _ _ _)
    | err code reload _ s1 => exact State.Kept.trans h (failedCycle_kept k c code reload ba _ s1)
    | refused r => trivial

theorem slaveWriteByte_kept (k : Nat) (c : BitVec 4) (a : Word) (v : Byte) (s : State) :
    s.Kept (slaveWriteByte k c a v s) := by
  unfold slaveWriteByte
  simp only
  split
  · exact (State.onIocc_kept_same s k).trans (flushSlave_kept k c _ _ _ _)
  · exact State.onIocc_kept_same s k

theorem slaveReadByte_kept (k : Nat) (c : BitVec 4) (a : Word) (s : State) : s.Kept (slaveReadByte k c a s).2 := by
  have h : ∀ f : Iocc → Iocc, (∀ x, (f x).tcw = x.tcw) → (∀ x, (f x).tag = x.tag) → s.Kept (s.onIocc k f) :=
    fun f h1 h2 => State.onIocc_kept_same s k h1 h2
  unfold slaveReadByte
  simp only
  have h1 := h (fun x =>
    if bitAt (x.reg8 c) 2 || !bitAt (x.reg8 c) 1 then
      (x.setBuf c (x.loadLine c (a.toNat - a.toNat % 64) s)).setReg8 c (setBits (x.reg8 c) 0 4 0b0100#4)
    else x) (fun x => by split <;> rfl) fun x => by split <;> rfl
  split
  · exact h1.trans (State.onIocc_kept_same _ k)
  · exact h1

theorem slaveMove_kept (k : Nat) (c : BitVec 4) (toMemory : Bool) (l : List Byte) (a : Word) (s : State) :
    s.Kept (slaveMove k c toMemory l a s).2 := by
  induction l generalizing a s with
  | nil => exact .refl s
  | cons v l ih =>
    unfold slaveMove
    simp only
    cases toMemory with
    | true =>
      simp only [if_true]
      refine State.Kept.trans ?_ (ih (a + 1) _)
      split
      · exact slaveWriteByte_kept k c a v s
      · exact sysWrite_kept k _ v s
    | false =>
      simp only [Bool.false_eq_true, if_false]
      refine State.Kept.trans ?_ (ih (a + 1) _)
      split
      · exact slaveReadByte_kept k c a s
      · exact sysRead_kept k _ s

/-- What comes between two cycles keeps, unless it is refused. -/
def Break.Keeps (s : State) : Break → Prop
  | .go t => s.Kept t
  | .timeout t => s.Kept t
  | .refused _ => True

theorem Break.Keeps.after {s t : State} {b : Break} (h1 : s.Kept t) (h2 : b.Keeps t) : b.Keeps s := by
  cases b with
  | go u => exact h1.trans h2
  | timeout u => exact h1.trans h2
  | refused _ => trivial

theorem Break.andThen_keeps {s : State} {b : Break} {f : State → MoveRes} (h : b.Keeps s)
    (hf : ∀ t, s.Kept t → (f t).Keeps s) : (b.andThen f).Keeps s := by
  cases b with
  | go t => exact hf t h
  | timeout t => exact h
  | refused _ => trivial

theorem slaveTransfer_keeps (k : Nat) (c : BitVec 4) (sysMem toMemory : Bool) (real : Word) (n : Nat)
    (bytes : List Byte) {pause : State → Break} (hp : ∀ u, (pause u).Keeps u) (s : State) :
    (slaveTransfer k c sysMem toMemory real n bytes pause s).Keeps s := by
  have h := fillBytes_kept n bytes s
  unfold slaveTransfer
  generalize fillBytes n bytes s = p at h
  obtain ⟨data, s1⟩ := p
  simp only
  split
  · exact State.Kept.trans h ((slaveMove_kept k c toMemory data real s1).trans (State.logBus_kept _ k _ _ _ _ _))
  have h1 : s.Kept (s1.logBus k (if toMemory then .io else .memory) real false true data) :=
    State.Kept.trans h (s1.logBus_kept k _ _ _ _ _)
  generalize s1.logBus k (if toMemory then .io else .memory) real false true data = s2 at h1
  have h2 := hp s2
  generalize pause s2 = b at h2
  cases b with
  | go s3 => exact (State.Kept.trans h1 h2).trans (s3.logBus_kept k _ _ _ _ _)
  | timeout s3 => exact State.Kept.trans h1 h2
  | refused r => trivial

theorem reloadTag_kept (k : Nat) (c : BitVec 4) (j : BitVec 12) (s : State) : s.Kept (reloadTag k c j s) := by
  unfold reloadTag
  split
  · next h => exact (takeFault_kept h).trans (dmaErr_kept k c _ _)
  split
  · exact State.onIocc_kept_same s k
  · exact dmaErr_kept k c _ s

theorem endLine_kept (k : Nat) (c : BitVec 4) (line : Nat) (s : State) : s.Kept (endLine k c line s) :=
  State.Kept.ite (flushSlave_kept k c line 64 false s) (.refl s)

theorem slaveNextTags_kept (k : Nat) (c : BitVec 4) (v a : Word) (n : Nat) (s : State) :
    s.Kept (slaveNextTags k c v a n s) := by
  unfold slaveNextTags
  simp only
  generalize hs2 : s.onIocc k (fun x => (x.setReg4 c (a + BitVec.ofNat 32 n)).setCsr c
    (setBits v 20 12 (bitsAt v 20 12 - BitVec.ofNat 12 n))) = s2
  have h2 : s.Kept s2 := by
    rw [← hs2]; exact State.onIocc_kept_same s k
  refine State.Kept.ite ?_ h2
  have h3 := h2.trans (endLine_kept k c (slaveLine (a + BitVec.ofNat 32 n)) s2)
  generalize endLine k c (slaveLine (a + BitVec.ofNat 32 n)) s2 = s3 at h3
  have h4 : ∀ q : Bool, s.Kept (if q then s3.pulse k .terminalCount c else s3) := fun q =>
    State.Kept.ite (h3.trans (s3.pulse_kept k _ c)) h3
  exact State.Kept.ite ((h4 _).trans (State.onIocc_kept_same _ k)) ((h4 _).trans (reloadTag_kept k c _ _))

theorem slaveRequestTags_keeps (k : Nat) (c : BitVec 4) (width : Nat) (bytes : List Byte) {pause : State → Break}
    (hp : ∀ u, (pause u).Keeps u) (s : State) : (slaveRequestTags k c width bytes pause s).Keeps s :=
  Break.andThen_keeps (slaveTransfer_keeps k c _ _ _ _ bytes hp s) fun _ h => h.trans (slaveNextTags_kept k c _ _ _ _)

theorem slaveNextTcw_kept (k : Nat) (c n : BitVec 4) (v a real : Word) (m : Nat) (s : State) :
    s.Kept (slaveNextTcw k c n v a real m s) := by
  unfold slaveNextTcw
  simp only
  generalize hs2 : s.onIocc k (fun x => (x.setReg4 n (a + BitVec.ofNat 32 m)).setCsr c
    (setBits v 12 20 (bitsAt v 12 20 - BitVec.ofNat 20 m))) = s2
  have h2 : s.Kept s2 := by
    rw [← hs2]; exact State.onIocc_kept_same s k
  have h3 : ∀ q : Bool, s.Kept (if q then endLine k c (real.toNat / 64 * 64) s2 else s2) := fun q =>
    State.Kept.ite (h2.trans (endLine_kept k c _ s2)) h2
  exact State.Kept.ite (((h3 _).trans (State.onIocc_kept_same _ k)).trans (State.pulse_kept _ k _ c)) (h3 _)

theorem slaveRequestTcw_keeps (k : Nat) (c : BitVec 4) (width : Nat) (bytes : List Byte) {pause : State → Break}
    (hp : ∀ u, (pause u).Keeps u) (s : State) : (slaveRequestTcw k c width bytes pause s).Keeps s := by
  unfold slaveRequestTcw
  simp only
  split
  · trivial
  split
  · split
    · trivial
    · exact dmaErr_kept k c 7 s
    · exact dmaErr_kept k c 0xE s
    · exact Break.andThen_keeps (slaveTransfer_keeps k c _ _ _ _ bytes hp s) fun _ h =>
        h.trans (slaveNextTcw_kept k c _ _ _ _ _ _)
  · exact Break.andThen_keeps (slaveTransfer_keeps k c _ _ _ _ bytes hp s) fun _ h =>
      h.trans (slaveNextTcw_kept k c _ _ _ _ _ _)

theorem slaveRequest_keeps (k : Nat) (c : BitVec 4) (width : Nat) (bytes : List Byte) {pause : State → Break}
    (hp : ∀ u, (pause u).Keeps u) (s : State) : (slaveRequest k c width bytes pause s).Keeps s := by
  unfold slaveRequest
  simp only
  split
  · exact s.drawWord_kept.trans (busTimeout_kept k _ _)
  split
  · trivial
  split
  · exact s.pulse_kept k _ c
  split
  · exact dmaErr_kept k c 4 s
  split
  · exact slaveRequestTcw_keeps k c width bytes hp s
  · exact slaveRequestTags_keeps k c width bytes hp s

theorem serveRequest_keeps (k : Nat) (r : BusRequest) {pause : State → Break} (hp : ∀ u, (pause u).Keeps u)
    (s : State) : (serveRequest k r pause s).Keeps s := by
  unfold serveRequest
  cases r.op with
  | masterRead ba n => exact busMasterCycle_keeps k r.level ba n none s
  | masterWrite ba bytes => exact busMasterCycle_keeps k r.level ba bytes.length (some bytes) s
  | slave width bytes => exact slaveRequest_keeps k r.level width bytes hp s

theorem grantBus_keeps (k : Nat) (busy : List (BitVec 4)) {pause : List (BitVec 4) → State → Break}
    (hp : ∀ b u, (pause b u).Keeps u) (s : State) : (grantBus k busy pause s).Keeps s := by
  unfold grantBus
  cases grantable k busy s with
  | none => exact State.Kept.refl s
  | some r =>
    exact MoveRes.Keeps.after (State.onIocc_kept_same s k (f := fun x => { x with requests := x.requests.erase r })
      (fun _ => rfl) fun _ => rfl) (serveRequest_keeps k r (hp _) _)

theorem requestBus_kept (k : Nat) (r : BusRequest) (s : State) : s.Kept (requestBus k r s) := by
  unfold requestBus
  exact State.onIocc_kept_same s k (fun x => by split <;> rfl) fun x => by split <;> rfl

theorem arriving_kept {k : Nat} {s t : State} (h : arriving k s = some t) : s.Kept t := by
  unfold arriving at h
  split at h
  · next j r l _ =>
    split at h
    · cases h
      exact State.Kept.trans (t := { s with agenda := l }) (.same rfl rfl rfl rfl rfl rfl) (requestBus_kept k r _)
    · cases h
  · cases h

theorem breakIn_keeps (k n : Nat) (busy : List (BitVec 4)) (s : State) : (breakIn k n busy s).Keeps s := by
  induction n generalizing busy s with
  | zero => exact State.Kept.refl s
  | succ n ih =>
    unfold breakIn
    generalize hp : (if (arriving k s).isSome then s.drawBit else (false, s)) = p
    have h1 : s.Kept p.2 := by
      rw [← hp]
      split
      · exact s.drawBit_kept
      · exact .refl s
    obtain ⟨comes, s1⟩ := p
    simp only at h1 ⊢
    split
    · refine Break.Keeps.after ?_ (ih busy _)
      cases e : arriving k s1 with
      | none => exact h1
      | some u => exact h1.trans (arriving_kept e)
    split
    · exact h1
    rcases e : s1.drawBit with ⟨now, s2⟩
    have h2 : s.Kept s2 := h1.trans (s1.drawBit_kept.ofEq e)
    simp only
    split
    · have h3 := grantBus_keeps k busy (pause := breakIn k n) ih s2
      generalize grantBus k busy (breakIn k n) s2 = r at h3
      cases r with
      | refused r => trivial
      | ok s3 =>
        have h4 : s.Kept s3 := h2.trans h3
        simp only
        split
        · exact h4
        · exact Break.Keeps.after h4 (ih busy s3)
    · exact h2

theorem pauseBus_keeps (k : Nat) (busy : List (BitVec 4)) (s : State) : (pauseBus k busy s).Keeps s :=
  breakIn_keeps k _ busy s

/-! ### Bus transfers (R831) -/

theorem ioErr_keeps (k : Nat) (code : Option (BitVec 4)) (s : State) : (ioErr k code s).Keeps s :=
  logCsr15_kept k code s

theorem ioErr_after {s t : State} (h : s.Kept t) (k : Nat) (code : Option (BitVec 4)) : (ioErr k code t).Keeps s :=
  h.trans (logCsr15_kept k code t)

theorem ioErrPart_after {s t : State} (h : s.Kept t) (k : Nat) (code : BitVec 4) (got : List Byte) :
    (ioErrPart k code got t).Keeps s :=
  h.trans (logCsr15_kept k (some code) t)

theorem State.takeAnswer_kept (s : State) (k : Nat) (sp : BusSpace) (a : Word) : s.Kept (s.takeAnswer k sp a).2 := by
  unfold State.takeAnswer
  split
  · exact .refl s
  cases s.busIn with
  | nil => exact .refl s
  | cons a l => exact State.Kept.same (t := { s with busIn := l }) rfl rfl rfl rfl rfl rfl

theorem endCycle_keeps (k : Nat) (sp : BusSpace) (addr : Word) (n : Nat) (out : Option (List Byte)) (ac : Bool)
    (r : BusReply) (s : State) : (endCycle k sp addr n out ac r s).Keeps s := by
  have logged : ∀ l, s.Kept (s.logBus k sp addr out.isSome true l) := fun l => s.logBus_kept k sp addr _ _ l
  have proceed : ∀ l, IoRes.Keeps s (match out with
      | some bytes => .ok [] (s.logBus k sp addr out.isSome true bytes)
      | none =>
        let (bytes, s1) := fillBytes n l s
        .ok bytes (s1.logBus k sp addr out.isSome true bytes)) := fun l => by
    cases out with
    | some bytes => exact logged bytes
    | none => exact (fillBytes_kept n l s).trans (State.logBus_kept _ k sp addr _ _ _)
  unfold endCycle
  cases r with
  | data l => exact proceed l
  | silent =>
    simp only
    split
    · exact ioErr_after (logged _) k _
    · exact proceed []
  | channelCheck => exact ioErr_after (logged _) k _
  | parity =>
    simp only
    split
    · exact proceed []
    · exact ioErr_after (logged _) k _
  | busError => exact ioErr_after (logged _) k _
  | timeout signals => exact ioErr_after ((logged _).trans (busTimeout_kept k signals _)) k _

theorem busCycles_keeps (k : Nat) (sp : BusSpace) (inc ac : Bool) (upTo : Option Byte) (fuel : Nat) (addr : Word)
    (left : Nat) (store : Option (List Byte)) (got : List Byte) (s : State) :
    (busCycles k sp inc ac upTo fuel addr left store got s).Keeps s := by
  induction fuel generalizing addr left store got s with
  | zero => exact State.Kept.refl s
  | succ fuel ih =>
    unfold busCycles
    have h1 := s.takeAnswer_kept k sp addr
    generalize s.takeAnswer k sp addr = p at h1
    obtain ⟨a, s1⟩ := p
    simp only at h1 ⊢
    generalize cycleSize a.width.bytes addr left = n
    have h2 := endCycle_keeps k sp addr n (store.map fun l => l.take n) ac a.reply s1
    generalize endCycle k sp addr n (store.map fun l => l.take n) ac a.reply s1 = r at h2
    cases r with
    | refused r => trivial
    | err l s2 => exact h1.trans h2
    | ok l s2 =>
      have h12 : s.Kept s2 := h1.trans h2
      simp only
      split
      · exact h12
      have h3 := pauseBus_keeps k [] s2
      generalize pauseBus k [] s2 = q at h3
      cases q with
      | refused r => trivial
      | timeout s3 => exact h12.trans h3
      | go s3 => exact IoRes.Keeps.after (h12.trans h3) (ih _ _ _ _ s3)

theorem busTransfer_keeps (k : Nat) (sp : BusSpace) (a : Word) (n : Nat) (store : Option (List Byte))
    (upTo : Option Byte) (inc ac : Bool) (s : State) : (busTransfer k sp a n store upTo inc ac s).Keeps s :=
  busCycles_keeps k sp inc ac upTo n a n store [] s

theorem endOfInterrupt_kept (k : Nat) (l : BitVec 4) (s : State) : s.Kept (endOfInterrupt k l s) :=
  State.onIocc_kept_same _ k

end Sys2Proof.Machine
end

