-- ==== Sys2Proof/Laws/KeptControl.lean ====
section
/-!
SUPPORT. What every load and store to an I/O segment keeps: BUID 0, the control space of an IOCC, and the whole path
(`ioAccess_keeps`).
-/

namespace Sys2Proof.Machine

/-! ### BUID 0 (R762) -/

theorem eicrLoad_kept (r : Eicr) (s : State) : s.Kept (eicrLoad r s).2 := by
  cases r with
  | eim h => exact .refl s
  | eis h => exact State.Kept.same (t := { s with eis := setHalf s.eis h 0 }) rfl rfl rfl rfl rfl rfl
  | peis h =>
    refine State.Kept.ite ?_ (.refl s)
    exact State.Kept.same (t := { s with eis := setHalf s.eis h 0 }) rfl rfl rfl rfl rfl rfl
  | decrementer => exact s.drawWord_kept
  | externalCheck => exact s.drawWord_kept
  | epow => exact s.drawWord_kept

theorem eicrStore_kept {r : Eicr} {w : Word} {s t : State} (h : eicrStore r w s = some t) : s.Kept t := by
  cases r <;> simp only [eicrStore, Option.some.injEq, reduceCtorEq] at h <;> subst h <;>
    exact State.Kept.same rfl rfl rfl rfl rfl rfl

theorem buid0Words_keeps (store : Option (List Byte)) (n : Nat) (a : BitVec 28) (got : List Byte) (s : State) :
    (buid0Words store n a got s).Keeps s := by
  induction n generalizing store a got s with
  | zero => exact State.Kept.refl s
  | succ n ih =>
    unfold buid0Words
    split
    · trivial
    · cases eicrAt s.cfg.impl a.toNat with
      | none => exact State.Kept.refl s
      | some r =>
        cases store with
        | none => exact IoRes.Keeps.after (eicrLoad_kept r s) (ih none (a + 4) _ _)
        | some bytes =>
          simp only
          cases e : eicrStore r (wordOfBytes (bytes.take 4)) s with
          | none => exact State.Kept.refl s
          | some s1 => exact IoRes.Keeps.after (eicrStore_kept e) (ih _ (a + 4) got s1)

theorem buid0Access_keeps (sr ea : Word) (n : Nat) (store : Option (List Byte)) (s : State) :
    (buid0Access sr ea n store s).Keeps s := by
  unfold buid0Access
  split
  · exact State.Kept.refl s
  split
  · exact State.Kept.refl s
  split
  · trivial
  · exact buid0Words_keeps store _ _ [] s

/-! ### Time (R799, R915) -/

theorem State.tick_kept (s : State) : s.Kept s.tick := by
  have h := s.rtcTick_kept.trans s.rtcTick.decTick_kept
  have hi : s.rtcTick.decTick.ioccs = s.ioccs := by
    have e1 : s.rtcTick.ioccs = s.ioccs := by
      unfold State.rtcTick; split
      · rfl
      · split <;> rfl
    refine Eq.trans ?_ e1
    unfold State.decTick; simp only; split <;> rfl
  unfold State.tick
  generalize s.rtcTick.decTick = s1 at h hi
  rw [← hi]
  refine h.trans ⟨rfl, fun c => ⟨c.mem, c.nvram, ?_⟩, fun c => ⟨c.rtcl, c.dec⟩⟩
  intro x hx
  obtain ⟨y, hy, rfl⟩ := List.mem_map.1 hx
  exact ⟨(c.ioccs y hy).tcw, (c.ioccs y hy).tag⟩

theorem State.ticks_kept (n : Nat) (s : State) : s.Kept (State.ticks n s) := by
  induction n generalizing s with
  | zero => exact .refl s
  | succ n ih => exact s.tick_kept.trans (ih s.tick)

theorem waitDelay_kept (k : Nat) (s : State) : s.Kept (waitDelay k s) := State.ticks_kept _ s

theorem timeDelay_keeps (k : Nat) (ea : Word) (n : Nat) (load : Bool) (s : State) :
    (timeDelay k ea n load s).Keeps s := by
  unfold timeDelay
  simp only
  split
  · trivial
  split
  · trivial
  rcases e : s.drawWord with ⟨w, s1⟩
  have h : s.Kept s1 := s.drawWord_kept.ofEq e
  simp only
  have h2 := h.trans (State.onIocc_kept_same s1 k (f := fun x =>
    { x with delay := ((Config.tdUs ea n).toNat + 1) * 1000 / 256 + w.toNat % 5 }) (fun _ => rfl) fun _ => rfl)
  split
  · exact h2.trans (State.drawBytes_kept _ 4)
  · exact h2

/-! ### Bus memory -/

theorem freeCode_kept (s : State) : s.Kept (freeCode s).2 := s.drawWord_kept

theorem pioTransfer_keeps (k : Nat) (ba : Word) (n : Nat) (store : Option (List Byte)) (upTo : Option Byte) (free : Bool)
    (s : State) : (pioTransfer k ba n store upTo free s).Keeps s := by
  have h := mappedBytes_keeps k 15 free upTo n store ba s
  unfold pioTransfer
  split
  · next e => exact ioErr_after (takeFault_kept e) k _
  generalize mappedBytes k 15 free upTo n store ba s = r at h
  cases r with
  | ok l s1 => exact h
  | err code _ got s1 => exact ioErrPart_after h k code got
  | refused r => trivial

/-- A test that ends an access keeps what every access keeps. -/
theorem pageTest_keeps {k : Nat} {sr ba : Word} {store : Bool} {s : State} {r : IoRes}
    (h : pageTest k sr ba store s = .stop r) : r.Keeps s := by
  have all : ∀ {a : PageTest}, pageTest k sr ba store s = a → ∀ {r}, a = .stop r → r.Keeps s := by
    intro a ha r hr
    subst ha
    unfold pageTest at hr
    simp only at hr
    generalize tcwLookup k (busPage ba) s = look at hr
    cases look with
    | refused q => cases hr; trivial
    | absent => cases hr; exact ioErr_keeps k _ s
    | error => cases hr; exact ioErr_keeps k _ s
    | tcw t =>
      simp only at hr
      split at hr
      · cases hr; exact ioErr_keeps k _ s
      split at hr
      · cases hr; exact ioErr_keeps k _ s
      split at hr
      · cases hr
      generalize (s.iocc k).bufferMode = mode at hr
      cases mode with
      | reserved => cases hr; trivial
      | unbuffered => cases hr; exact ioErr_after (freeCode_kept s) k _
      | buffered =>
        simp only at hr
        split at hr
        · cases hr; exact ioErr_keeps k _ s
        split at hr
        · cases hr; exact ioErr_keeps k _ s
        · cases hr
  exact all rfl h

theorem pageTransfer_keeps (k : Nat) (sr ba : Word) (n : Nat) (store : Option (List Byte)) (upTo : Option Byte)
    (first : Bool) (s : State) : (pageTransfer k sr ba n store upTo first s).Keeps s := by
  unfold pageTransfer
  cases e : pageTest k sr ba store.isSome s with
  | stop r => exact pageTest_keeps e
  | bus =>
    have h : Break.Keeps s (if first then .go s else pauseBus k [] s) := by
      split
      · exact State.Kept.refl s
      · exact pauseBus_keeps k [] s
    simp only
    generalize (if first then Break.go s else pauseBus k [] s) = b at h
    cases b with
    | go s1 => exact IoRes.Keeps.after h (busTransfer_keeps k _ ba n store upTo true _ s1)
    | timeout s1 => exact h
    | refused r => trivial
  | system => exact pioTransfer_keeps k ba n store upTo _ s

theorem pagesTest_keeps {k : Nat} {sr : Word} {store : Bool} {s : State} {fuel : Nat} {ba : Word} {n : Nat} {r : IoRes}
    (h : pagesTest k sr store s fuel ba n = some r) : r.Keeps s := by
  induction fuel generalizing ba n with
  | zero => cases h
  | succ fuel ih =>
    unfold pagesTest at h
    simp only at h
    cases e : pageTest k sr ba store s with
    | stop q => rw [e] at h; cases h; exact pageTest_keeps e
    | bus =>
      rw [e] at h
      simp only at h
      split at h
      · cases h
      · exact ih h
    | system =>
      rw [e] at h
      simp only at h
      split at h
      · cases h
      · exact ih h

theorem pagesTransfer_keeps (k : Nat) (sr : Word) (upTo : Option Byte) (fuel : Nat) (ba : Word) (n : Nat)
    (store : Option (List Byte)) (first : Bool) (got : List Byte) (s : State) :
    (pagesTransfer k sr upTo fuel ba n store first got s).Keeps s := by
  induction fuel generalizing ba n store first got s with
  | zero => exact State.Kept.refl s
  | succ fuel ih =>
    unfold pagesTransfer
    simp only
    have h := pageTransfer_keeps k sr ba (min n (4096 - ba.toNat % 4096))
      (store.map fun l => l.take (min n (4096 - ba.toNat % 4096))) upTo first s
    generalize pageTransfer k sr ba (min n (4096 - ba.toNat % 4096))
      (store.map fun l => l.take (min n (4096 - ba.toNat % 4096))) upTo first s = r at h
    cases r with
    | refused r => trivial
    | err l s1 => exact h
    | ok l s1 =>
      simp only
      split
      · exact h
      · exact IoRes.Keeps.after h (ih _ _ _ _ _ s1)

theorem memoryTransfer_keeps (k : Nat) (sr ba : Word) (n : Nat) (store : Option (List Byte)) (upTo : Option Byte)
    (s : State) : (memoryTransfer k sr ba n store upTo s).Keeps s := by
  unfold memoryTransfer
  split
  · next e => exact ioErr_after (takeFault_kept e) k _
  cases e : pagesTest k sr store.isSome s 34 ba n with
  | some r => exact pagesTest_keeps e
  | none => exact pagesTransfer_keeps k sr upTo 34 ba n store true [] s

/-! ### The control space -/

theorem loaded_keeps {s t : State} (h : s.Kept t) (w : Word) : (loaded w t).Keeps s := h

/-- A store that changes one IOCC and leaves its tables alone. -/
theorem setIocc_keeps (s : State) (k : Nat) {f : Iocc → Iocc} (ht : ∀ x : Iocc, (f x).tcw = x.tcw)
    (hg : ∀ x : Iocc, (f x).tag = x.tag) : (IoRes.ok [] (s.onIocc k f)).Keeps s :=
  State.onIocc_kept_same s k ht hg

theorem storedIocc_keeps (s : State) (k : Nat) {f : Iocc → Iocc} (ht : ∀ x : Iocc, (f x).tcw = x.tcw)
    (hg : ∀ x : Iocc, (f x).tag = x.tag) : (storedIocc k f s).Keeps s :=
  State.onIocc_kept_same s k ht hg

theorem loadedFree_keeps (f : Word → Word) (s : State) : (loadedFree f s).Keeps s := s.drawWord_kept

theorem iocRegister_keeps (k : Nat) (r : IocReg) (store : Option Word) (s : State) :
    (iocRegister k r store s).Keeps s := by
  have st := fun f (h1 : ∀ x : Iocc, (f x).tcw = x.tcw) h2 => storedIocc_keeps s k (f := f) h1 h2
  unfold iocRegister
  cases r <;> cases store <;> simp only
  case config.none => exact State.Kept.refl s
  case config.some w =>
    split
    · trivial
    · exact st _ (fun _ => rfl) fun _ => rfl
  case busStatus.none => exact loadedFree_keeps _ s
  case busStatus.some => trivial
  case anchor.none =>
    split
    · exact State.Kept.refl s
    · exact loadedFree_keeps _ s
  case anchor.some w =>
    split
    · exact st _ (fun _ => rfl) fun _ => rfl
    · exact ioErr_keeps k _ s
  case componentReset.none => exact loadedFree_keeps _ s
  case componentReset.some w =>
    split
    · trivial
    · exact st _ (fun _ => rfl) fun _ => rfl
  case enable.none => exact loadedFree_keeps _ s
  case enable.some w => exact st _ (fun _ => rfl) fun _ => rfl
  case request.none => exact loadedFree_keeps _ s
  case request.some => exact State.Kept.refl s
  case misc.none => exact loadedFree_keeps _ s
  case misc.some w => exact st _ (fun _ => rfl) fun _ => rfl
  case hole.none => trivial
  case hole.some => trivial
  case busMap.none =>
    split
    · exact State.Kept.refl s
    · trivial
  case busMap.some w =>
    split
    · exact st _ (fun _ => rfl) fun _ => rfl
    · trivial

theorem vectorBytes_kept (k n : Nat) (l : BitVec 4) (s : State) : s.Kept (vectorBytes k n l s).2 := by
  induction n generalizing l s with
  | zero => exact .refl s
  | succ n ih => exact s.drawWord_kept.trans (ih (l + 1) s.drawWord.2)

theorem storeVectors_kept (k : Nat) (bytes : List Byte) (l : BitVec 4) (s : State) :
    s.Kept (storeVectors k bytes l s) := by
  induction bytes generalizing l s with
  | nil => exact .refl s
  | cons b r ih =>
    exact (State.onIocc_kept_same s k (f := fun x => x.setVector l (b.extractLsb' 0 6)) (fun _ => rfl)
      fun _ => rfl).trans (ih (l + 1) _)

theorem vectorAccess_keeps (k : Nat) (a : BitVec 28) (n : Nat) (store : Option (List Byte)) (s : State) :
    (vectorAccess k a n store s).Keeps s := by
  unfold vectorAccess
  simp only
  split
  · exact ioErr_keeps k _ s
  split
  · trivial
  cases store with
  | none => exact vectorBytes_kept k n _ s
  | some bytes => exact storeVectors_kept k bytes _ s

theorem State.takeData_kept (s : State) : s.Kept s.takeData.2 := by
  unfold State.takeData
  split
  · next r _ => exact State.Kept.same (t := { s with busIn := r }) rfl rfl rfl rfl rfl rfl
  · exact .refl s

theorem sysRegAccess_keeps (k : Nat) (a : BitVec 28) (n : Nat) (store : Option (List Byte)) (s : State) :
    (sysRegAccess k a n store s).Keeps s := by
  unfold sysRegAccess
  cases store with
  | some bytes => exact s.logBus_kept k _ _ _ _ bytes
  | none =>
    rcases e : s.takeData with ⟨l, s1⟩
    have h1 : s.Kept s1 := s.takeData_kept.ofEq e
    rcases e2 : fillBytes n l s1 with ⟨bytes, s2⟩
    have h2 : s.Kept s2 := h1.trans ((fillBytes_kept n l s1).ofEq e2)
    simp only [e2]
    exact h2.trans (s2.logBus_kept k _ _ _ _ bytes)

theorem cellsFrom_foldl (f : Nat → Byte) (off : Nat) (l : List Nat) {m : List Host.Cell}
    (h : Memory.wf m = true) : Memory.wf (l.foldl (fun m i => cellWrite 0 m (off + i) (f i)) m) = true := by
  induction l generalizing m with
  | nil => exact h
  | cons i l ih => exact ih (Memory.wf_cellWrite h _ _)

theorem nvramAccess_keeps (off n : Nat) (store : Option (List Byte)) (s : State) :
    (nvramAccess off n store s).Keeps s := by
  unfold nvramAccess
  split
  · trivial
  cases store with
  | none => exact State.Kept.refl s
  | some bytes =>
    refine ⟨rfl, fun c => ⟨c.mem, ?_, c.ioccs⟩, fun c => ⟨c.rtcl, c.dec⟩⟩
    exact cellsFrom_foldl (fun i => bytes.getD i 0) off _ c.nvram

theorem tagAccess_keeps (k a n : Nat) (store : Option (List Byte)) (s : State) :
    (tagAccess k a n store s).Keeps s := by
  unfold tagAccess
  split
  · trivial
  split
  · next e => exact ioErr_after (takeFault_kept e) k _
  simp only
  split
  · exact ioErr_keeps k _ s
  · exact State.Kept.refl s
  · exact setTagWord_kept k _ _ s

theorem tcwLoaded_kept (k : Nat) (t : Word) (s : State) : s.Kept (tcwLoaded k t s).2 := by
  unfold tcwLoaded
  split
  · exact s.drawWord_kept
  · exact .refl s

theorem tcwWords_keeps (k : Nat) (store : Option (List Byte)) (n p : Nat) (got : List Byte) (s : State) :
    (tcwWords k store n p got s).Keeps s := by
  induction n generalizing store p got s with
  | zero => exact State.Kept.refl s
  | succ n ih =>
    unfold tcwWords
    cases tcwLookup k p s with
    | refused r => trivial
    | absent => exact ioErrPart_after (.refl s) k _ got
    | error => exact ioErrPart_after (.refl s) k _ got
    | tcw t =>
      cases store with
      | none => exact IoRes.Keeps.after (tcwLoaded_kept k t s) (ih none (p + 1) _ _)
      | some bytes =>
        exact IoRes.Keeps.after (setTcw_kept k p _ s) (ih _ (p + 1) got _)

theorem masterFlush_keeps (k : Nat) (ea : Word) (p : Nat) (load : Bool) (s : State) :
    (masterFlush k ea p load s).Keeps s := by
  unfold masterFlush
  cases tcwLookup k p s with
  | refused r => trivial
  | absent => exact ioErr_keeps k _ s
  | error => exact ioErr_keeps k _ s
  | tcw old =>
    simp only
    split
    · trivial
    generalize hs1 : (if (bitAt ea 30 && (s.iocc k).bufferMode == .buffered
        && bitsAt ((s.iocc k).reg8 (bitsAt old 20 4)) 6 20 == BitVec.ofNat 20 p) = true then
          (castOut k (bitsAt old 20 4) s).onIocc k fun x => x.setReg8 (bitsAt old 20 4) 0x20000000
        else s) = s1
    have h1 : s.Kept s1 := by
      rw [← hs1]
      refine State.Kept.ite ?_ (.refl s)
      exact (castOut_kept k _ s).trans (State.onIocc_kept_same _ k)
    have h2 : s.Kept (if bitAt ea 31 = true then
        updateTcw k p (fun t => setBits t 28 4 (Config.flushMask ea)) s1 else s1) :=
      State.Kept.ite (h1.trans (updateTcw_kept k p _ s1)) h1
    split
    · exact h2.trans (tcwLoaded_kept k old _)
    · exact h2

theorem tcwAccess_keeps (k : Nat) (ea : Word) (n : Nat) (store : Option (List Byte)) (s : State) :
    (tcwAccess k ea n store s).Keeps s := by
  unfold tcwAccess
  simp only
  split
  · trivial
  split
  · next e => exact ioErr_after (takeFault_kept e) k _
  split
  · exact masterFlush_keeps k ea _ _ s
  · exact tcwWords_keeps k store _ _ [] s

theorem channelRegister_keeps (k : Nat) (i : BitVec 4) (r : BitVec 2) (store : Option Word) (s : State) :
    (channelRegister k i r store s).Keeps s := by
  have touched : s.Kept { s with csrTouched := true } := .same rfl rfl rfl rfl rfl rfl
  unfold channelRegister
  simp only
  split
  · cases store with
    | none => exact touched
    | some w => exact touched.trans (State.onIocc_kept_same _ k)
  split
  · cases store with
    | none => exact State.Kept.refl s
    | some w => exact setIocc_keeps s k (fun _ => rfl) fun _ => rfl
  split
  · cases (s.iocc k).bufferMode <;> cases store <;>
      first
      | exact State.Kept.refl s
      | exact setIocc_keeps s k (fun _ => rfl) fun _ => rfl
  · exact ioErr_keeps k _ s

theorem enableCommand_keeps (k : Nat) (c : BitVec 4) (load : Bool) (s : State) :
    (enableCommand k c load s).Keeps s := by
  unfold enableCommand
  simp only
  split
  · exact State.Kept.ite (State.onIocc_kept_same s k) (.refl s)
  · exact State.Kept.ite (State.onIocc_kept_same s k) (.refl s)

theorem slaveFlushCommand_keeps (k : Nat) (c : BitVec 4) (load : Bool) (s : State) :
    (slaveFlushCommand k c load s).Keeps s := by
  unfold slaveFlushCommand
  cases (s.iocc k).bufferMode <;> cases load
  case buffered.false =>
    simp only
    split
    · next e => exact ioErr_after (takeFault_kept e) k _
    split
    · split
      · trivial
      · exact flushSlave_kept k c _ _ _ s
      · exact emptySlave_kept k c s
      · exact ioErr_keeps k _ s
    · exact emptySlave_kept k c s
  all_goals
    first
    | exact ioErr_keeps k _ s
    | exact s.drawWord_kept
    | exact State.Kept.refl s

theorem dropAheads_same (l : List (BitVec 4)) (x : Iocc) :
    (l.foldl Iocc.dropAhead x).tcw = x.tcw ∧ (l.foldl Iocc.dropAhead x).tag = x.tag := by
  induction l generalizing x with
  | nil => exact ⟨rfl, rfl⟩
  | cons i l ih => exact ih (x.dropAhead i)

theorem nextInvalidate_keeps (k : Nat) (i : BitVec 4) (load : Bool) (s : State) :
    (nextInvalidate k i load s).Keeps s := by
  unfold nextInvalidate
  simp only
  split
  · exact ioErr_keeps k _ s
  split
  · exact setIocc_keeps s k (fun _ => rfl) fun _ => rfl
  · exact setIocc_keeps s k (fun x => (dropAheads_same sixteen _).1) fun x => (dropAheads_same sixteen _).2

theorem eois_kept (k : Nat) (l : List (BitVec 4)) (s : State) :
    s.Kept (l.foldl (fun s l => endOfInterrupt k l s) s) := by
  induction l generalizing s with
  | nil => exact .refl s
  | cons x l ih => exact (endOfInterrupt_kept k x s).trans (ih _)

theorem eoiCommand_keeps (k : Nat) (levels : List (BitVec 4)) (load : Bool) (s : State) :
    (eoiCommand k levels load s).Keeps s := by
  have h := eois_kept k levels s
  unfold eoiCommand
  simp only
  generalize levels.foldl (fun s l => endOfInterrupt k l s) s = s1 at h
  split
  · exact h.trans s1.drawWord_kept
  · exact h

theorem boardAccess_keeps (k : Nat) (slot : BitVec 4) (a : BitVec 28) (n : Nat) (store : Option (List Byte))
    (s : State) : (boardAccess k slot a n store s).Keeps s := by
  unfold boardAccess
  simp only
  split
  · trivial
  generalize hx : (if (s.iocc k).slotHeld slot = true then ((⟨slot, .byte, .silent⟩ : BusAnswer), s)
    else s.takeAnswer k .setup (a.setWidth 32)) = x
  have h : s.Kept x.2 := by
    rw [← hx]
    split
    · exact .refl s
    · exact s.takeAnswer_kept k _ _
  obtain ⟨ans, s1⟩ := x
  simp only at h ⊢
  split
  · split
    · exact IoRes.Keeps.after h (endCycle_keeps k _ _ _ _ _ _ s1)
    · exact IoRes.Keeps.after h (endCycle_keeps k _ _ _ _ _ _ s1)
  · exact IoRes.Keeps.after h (endCycle_keeps k _ _ _ _ _ _ s1)

theorem lostAccess_keeps (k : Nat) (fac : Config.Lost) (i : BitVec 4) (ea : Word) (n : Nat)
    (store : Option (List Byte)) (s : State) : (lostAccess k fac i ea n store s).Keeps s := by
  unfold lostAccess
  cases fac with
  | timeDelay => exact timeDelay_keeps k ea n _ s
  | board => exact boardAccess_keeps k i _ n store s
  | channelReg =>
    simp only
    split
    · exact channelRegister_keeps k i _ _ s
    · trivial
  | limit =>
    simp only
    split
    · cases store with
      | none => exact State.Kept.refl s
      | some v => exact setIocc_keeps s k (fun _ => rfl) fun _ => rfl
    · trivial
  | enable =>
    simp only
    split
    · exact enableCommand_keeps k _ _ s
    · trivial
  | slaveFlush =>
    simp only
    split
    · exact slaveFlushCommand_keeps k _ _ s
    · trivial
  | nextInvalidate =>
    simp only
    split
    · exact nextInvalidate_keeps k i _ s
    · trivial
  | eoiAll =>
    simp only
    split
    · exact eoiCommand_keeps k _ _ s
    · trivial
  | eoiLevel =>
    simp only
    split
    · exact eoiCommand_keeps k _ _ s
    · trivial

theorem controlAccess_keeps (k : Nat) (ea : Word) (n : Nat) (store : Option (List Byte)) (s : State) :
    (controlAccess k ea n store s).Keeps s := by
  unfold controlAccess
  simp only
  split
  · exact tcwAccess_keeps k ea n store s
  split
  · exact nvramAccess_keeps _ n store s
  split
  · exact tagAccess_keeps k _ n store s
  split
  · exact vectorAccess_keeps k _ n store s
  split
  · split
    · exact sysRegAccess_keeps k _ n store s
    · exact ioErr_keeps k _ s
  split
  · split
    · exact iocRegister_keeps k _ _ s
    · trivial
  · split
    · next fac i _ => exact lostAccess_keeps k fac i ea n store s
    · exact ioErr_keeps k _ s

/-! ### The whole path -/

theorem ioccAccess_keeps (k : Nat) (sr ea : Word) (n : Nat) (store : Option (List Byte)) (upTo : Option Byte)
    (s : State) : (ioccAccess k sr ea n store upTo s).Keeps s := by
  unfold ioccAccess
  split
  · trivial
  have h := waitDelay_kept k s
  simp only
  generalize waitDelay k s = s1 at h
  refine IoRes.Keeps.after h ?_
  split
  · exact timeDelay_keeps k ea n _ s1
  split
  · split
    · exact ioErr_keeps k _ s1
    · exact controlAccess_keeps k ea n store s1
  split
  · exact ioErr_keeps k _ s1
  cases busTarget sr ea with
  | invalid => exact ioErr_keeps k _ s1
  | refused => trivial
  | io ba =>
    simp only
    split
    · exact ioErr_keeps k _ s1
    · exact busTransfer_keeps k _ ba n store upTo _ _ s1
  | memory ba =>
    simp only
    split
    · exact busTransfer_keeps k _ ba n store upTo _ _ s1
    · exact memoryTransfer_keeps k sr ba n store upTo s1

/-- Whatever a load or store to an I/O segment does, it keeps. -/
theorem ioAccess_keeps (ea : Word) (n : Nat) (store : Option (List Byte)) (upTo : Option Byte) (s : State) :
    (ioAccess ea n store upTo s).Keeps s := by
  unfold ioAccess
  simp only
  split
  · exact buid0Access_keeps _ ea n store s
  split
  · exact ioccAccess_keeps _ _ ea n store upTo s
  · exact State.Kept.refl s

end Sys2Proof.Machine
end

