-- ==== Sys2Proof/Laws/Operations.lean ====
section
/-!
SUPPORT. What each operation that the meanings share can do, said once: the accesses of loads and stores, wherever they
end, taking an interrupt, how an instruction ends. The proofs about instructions cite these and do not unfold the
operations.
-/

namespace Sys2Proof.Machine

open Host (Outcome)

/-! ### Values and their bytes (R118) -/

theorem word_of_four (a b c d : Byte) : wordOfBytes [a, b, c, d] = (a ++ b) ++ (c ++ d) := by
  apply BitVec.eq_of_getLsbD_eq
  intro i hi
  have : i < 32 := hi
  simp only [wordOfBytes, ofBytes, List.foldl, BitVec.getLsbD_or, BitVec.getLsbD_shiftLeft, BitVec.getLsbD_setWidth,
    BitVec.getLsbD_append]
  interval_cases i <;> simp

theorem word_of_two (a b : Byte) : wordOfBytes [a, b] = (a ++ b).setWidth 32 := by
  apply BitVec.eq_of_getLsbD_eq
  intro i hi
  have : i < 32 := hi
  simp only [wordOfBytes, ofBytes, List.foldl, BitVec.getLsbD_or, BitVec.getLsbD_shiftLeft, BitVec.getLsbD_setWidth,
    BitVec.getLsbD_append]
  interval_cases i <;> simp

theorem word_of_one (a : Byte) : wordOfBytes [a] = a.setWidth 32 := by
  simp [wordOfBytes, ofBytes]

theorem half_of_two (a b : Byte) : ofBytes 16 [a, b] = a ++ b := by
  apply BitVec.eq_of_getLsbD_eq
  intro i hi
  have : i < 16 := hi
  simp only [ofBytes, List.foldl, BitVec.getLsbD_or, BitVec.getLsbD_shiftLeft, BitVec.getLsbD_setWidth,
    BitVec.getLsbD_append]
  interval_cases i <;> simp

theorem State.dataBytes_one (s : State) (a : Word) : s.dataBytes a 1 = [s.dataByte a] := by
  simp [State.dataBytes, List.range_succ]

theorem State.dataBytes_two (s : State) (a : Word) : s.dataBytes a 2 = [s.dataByte a, s.dataByte (a + 1)] := by
  simp [State.dataBytes, List.range_succ]

theorem State.dataBytes_four (s : State) (a : Word) :
    s.dataBytes a 4 = [s.dataByte a, s.dataByte (a + 1), s.dataByte (a + 2), s.dataByte (a + 3)] := by
  simp [State.dataBytes, List.range_succ]

theorem loadZero_byte (s : State) (a : Word) : loadZero (s.dataBytes a 1) = (s.dataByte a).setWidth 32 := by
  rw [s.dataBytes_one]; exact word_of_one _

theorem loadZero_half (s : State) (a : Word) : loadZero (s.dataBytes a 2) = (s.halfAt a).setWidth 32 := by
  rw [s.dataBytes_two]; exact word_of_two _ _

theorem loadAlgebraic_half (s : State) (a : Word) : loadAlgebraic (s.dataBytes a 2) = (s.halfAt a).signExtend 32 := by
  rw [s.dataBytes_two, loadAlgebraic, half_of_two]; rfl

theorem loadZero_word (s : State) (a : Word) : loadZero (s.dataBytes a 4) = s.wordAt a := by
  rw [s.dataBytes_four]
  have : a + 2 + 1 = a + 3 := by rw [BitVec.add_assoc]; rfl
  rw [State.wordAt, State.halfAt, State.halfAt, this]
  exact word_of_four _ _ _ _

theorem toBytes_one (v : Word) : toBytes 1 v = [v.extractLsb' 0 8] := rfl
theorem toBytes_two (v : Word) : toBytes 2 v = [v.extractLsb' 8 8, v.extractLsb' 0 8] := rfl
theorem toBytes_four (v : Word) :
    toBytes 4 v = [v.extractLsb' 24 8, v.extractLsb' 16 8, v.extractLsb' 8 8, v.extractLsb' 0 8] := rfl

/-! ### Data accesses, wherever they end -/

/-- An access keeps what `State.Kept` says, whether it completes or fails. -/
def Got.Keeps (s : State) : Got → Prop
  | .ok _ t => s.Kept t
  | .fail _ _ _ t => s.Kept t
  | .refused _ => True

theorem Got.Keeps.after {s t : State} {g : Got} (h1 : s.Kept t) (h2 : g.Keeps t) : g.Keeps s := by
  cases g with
  | ok l u => exact h1.trans h2
  | fail c d l u => exact h1.trans h2
  | refused r => trivial

/-- Which byte a failing access reports does not matter. -/
theorem Got.Keeps.scalar {s : State} {g : Got} (ea : Word) (h : g.Keeps s) : (g.scalar ea).Keeps s := by
  cases g with
  | ok l t => exact h
  | fail c d l t => exact h
  | refused r => trivial

theorem loadPieces_keeps (fuel n : Nat) (ea : Word) (got : List Byte) (s : State) :
    (loadPieces fuel n ea got s).Keeps s := by
  induction fuel generalizing n ea got s with
  | zero => exact State.Kept.refl s
  | succ fuel ih =>
    unfold loadPieces
    split
    · exact State.Kept.refl s
    · have h := dataAddr_kept ea false s
      cases e : dataAddr ea false s with
      | mk x s1 =>
        rw [e] at h
        cases x with
        | fail c => exact h
        | real ra => exact Got.Keeps.after (h.trans (State.loadRealBytes_kept _ ra s1)) (ih _ _ _ _)

theorem storePieces_keeps (fuel : Nat) (l : List Byte) (ea : Word) (s : State) :
    (storePieces fuel l ea s).Keeps s := by
  induction fuel generalizing l ea s with
  | zero => exact State.Kept.refl s
  | succ fuel ih =>
    unfold storePieces
    split
    · exact State.Kept.refl s
    · have h := dataAddr_kept ea true s
      cases e : dataAddr ea true s with
      | mk x s1 =>
        rw [e] at h
        cases x with
        | fail c => exact h
        | real ra => exact Got.Keeps.after (h.trans (State.storeRealBytes_kept _ ra s1)) (ih _ _ _)

theorem State.loadMem_keeps (s : State) (ea : Word) (n : Nat) : (s.loadMem ea n).Keeps s := loadPieces_keeps n n ea [] s

theorem State.storeMem_keeps (s : State) (ea : Word) (l : List Byte) : (s.storeMem ea l).Keeps s :=
  storePieces_keeps l.length l ea s

theorem State.ioGot_keeps (s : State) (ea : Word) (n : Nat) (store : Option (List Byte)) (upTo : Option Byte) :
    (s.ioGot ea n store upTo).Keeps s := by
  have h := ioAccess_keeps ea n store upTo s
  unfold State.ioGot
  generalize ioAccess ea n store upTo s = r at h
  cases r with
  | ok l t => exact h
  | err l t => exact h
  | refused r => trivial

/-- An interrupt that an access ends in: the state it is taken in keeps what an access keeps, but for DSISR and DAR. -/
def State.TrapOf (s t : State) : Prop :=
  ∃ (u : State) (k : IntKind) (w d : Word), s.Kept u ∧ t = { u with dsisr := w, dar := d }.interrupt k s.pc 0

theorem State.Kept.pc {s t : State} (h : s.Kept t) : t.pc = s.pc :=
  show t.pc = (s.withOutside t).pc from congrArg State.pc h.outside

theorem State.Kept.gpr {s t : State} (h : s.Kept t) : t.gpr = s.gpr :=
  show t.gpr = (s.withOutside t).gpr from congrArg State.gpr h.outside

theorem State.Kept.msr {s t : State} (h : s.Kept t) : t.msr = s.msr :=
  show t.msr = (s.withOutside t).msr from congrArg State.msr h.outside

theorem State.Kept.dataStorage {s u : State} (h : s.Kept u) (c : DsiCause) (store : Bool) (dar : Word) :
    s.TrapOf (u.dataStorage c store dar) :=
  ⟨u.drawWord.2, .dataStorage, dsiBits c store ++ u.drawWord.1.extractLsb' 0 17, dar,
    h.trans u.drawWord_kept, by rw [← h.pc]; rfl⟩

theorem State.Kept.alignment {s u : State} (h : s.Kept u) (w ea access : Word) : s.TrapOf (u.alignment w ea access) :=
  ⟨u, .alignment, alignDsisr w (bitAt (u.segmentOf access) 0), ea, h, by rw [← h.pc]; rfl⟩

/-- What a load or store answers: a state that keeps what an access keeps, or an interrupt taken from one. -/
def Res.Keeps {α : Type} (s : State) : Res α → Prop
  | .ok _ t => s.Kept t
  | .trap t => s.TrapOf t
  | .refused _ => True

theorem State.fixedLoad_keeps (s : State) (w ea : Word) (n : Nat) : (s.fixedLoad w ea n).Keeps s := by
  have fin : ∀ g : Got, g.Keeps s → Res.Keeps s (match g with
      | .ok l s1 => Res.ok l s1
      | .fail c dar _ s1 => .trap (s1.dataStorage c false dar)
      | .refused r => .refused r) := by
    intro g h
    cases g with
    | ok l t => exact h
    | fail c dar l t => exact State.Kept.dataStorage h c false dar
    | refused r => trivial
  unfold State.fixedLoad
  simp only
  split
  · split
    · exact (State.Kept.refl s).alignment w ea ea
    · exact fin _ (s.ioGot_keeps ea n none none)
  · cases s.alignCheck w ea n with
    | none => exact (State.Kept.refl s).alignment w ea ea
    | some a => exact fin _ ((s.loadMem_keeps a n).scalar a)

theorem State.partway_kept {s0 s1 : State} (h : s0.Kept s1) : s0.Kept (s0.partway s1).2 := by
  unfold State.partway
  simp only
  split
  · exact h.trans s1.drawBit_kept
  · exact .same rfl rfl rfl rfl rfl rfl

theorem State.endStore_keeps (s : State) {g : Got} (h : g.Keeps s) : (s.endStore g).Keeps s := by
  cases g with
  | ok l t => exact h
  | fail c dar l t => exact State.Kept.dataStorage (State.partway_kept h) c true dar
  | refused r => trivial

theorem endIoStore_keeps (s : State) {g : Got} (h : g.Keeps s) : (endIoStore g).Keeps s := by
  cases g with
  | ok l t => exact h
  | fail c dar l t => exact State.Kept.dataStorage h c true dar
  | refused r => trivial

theorem State.fixedStore_keeps (s : State) (w ea : Word) (l : List Byte) : (s.fixedStore w ea l).Keeps s := by
  unfold State.fixedStore
  split
  · split
    · exact (State.Kept.refl s).alignment w ea ea
    · exact endIoStore_keeps s (s.ioGot_keeps ea l.length (some l) none)
  · cases s.alignCheck w ea l.length with
    | none => exact (State.Kept.refl s).alignment w ea ea
    | some a => exact s.endStore_keeps ((s.storeMem_keeps a l).scalar a)

theorem State.floatLoad_keeps (s : State) (w ea : Word) (n : Nat) (first : Word) : (s.floatLoad w ea n first).Keeps s := by
  unfold State.floatLoad
  split
  · exact (State.Kept.refl s).dataStorage .floatIo false ea
  · cases s.alignCheck w ea n with
    | none => exact (State.Kept.refl s).alignment w first ea
    | some a =>
      have h := (s.loadMem_keeps a n).scalar a
      simp only
      generalize (s.loadMem a n).scalar a = g at h
      cases g with
      | ok l t => exact h
      | fail c dar l t => exact State.Kept.dataStorage h c false dar
      | refused r => trivial

theorem State.floatStore_keeps (s : State) (w ea : Word) (l : List Byte) (first : Word) :
    (s.floatStore w ea l first).Keeps s := by
  unfold State.floatStore
  split
  · exact (State.Kept.refl s).dataStorage .floatIo true ea
  · cases s.alignCheck w ea l.length with
    | none => exact (State.Kept.refl s).alignment w first ea
    | some a => exact s.endStore_keeps ((s.storeMem_keeps a l).scalar a)

theorem State.storeBlock_keeps (s : State) (ea : Word) (l : List Byte) : (s.storeBlock ea l).Keeps s := by
  unfold State.storeBlock
  split
  · exact endIoStore_keeps s (s.ioGot_keeps ea l.length (some l) none)
  · exact s.endStore_keeps (s.storeMem_keeps ea l)

/-! ### How an instruction ends -/

/-- An instruction that goes on after an access: it completed, or an interrupt was taken. -/
theorem Res.outcome_next {α : Type} {x : Res α} {f : α → State → State} {t : State} (h : x.outcome f = .next t) :
    (∃ a u, x = .ok a u ∧ t = f a u) ∨ x = .trap t := by
  cases x with
  | ok a u => exact .inl ⟨a, u, rfl, by simpa [Res.outcome] using h.symm⟩
  | trap u => exact .inr (by simpa [Res.outcome] using h)
  | refused r => cases h

/-- A privileged instruction: the Program interrupt, or the privileged state. -/
theorem privileged_next {s t : State} {f : Outcome State Fault Refusal} (h : privileged s f = .next t) :
    (s.msrPR = true ∧ t = s.program .privileged) ∨ (s.msrPR = false ∧ f = .next t) := by
  unfold privileged at h
  cases hp : s.msrPR with
  | true => exact .inl ⟨rfl, by simpa [hp] using h.symm⟩
  | false => exact .inr ⟨rfl, by simpa [hp] using h⟩

/-- A floating-point instruction: the Floating-Point Unavailable interrupt, or MSR(FP) = 1. -/
theorem needFp_next {s t : State} {f : Outcome State Fault Refusal} (h : needFp s f = .next t) :
    (s.msrFP = false ∧ t = s.fpUnavailable) ∨ (s.msrFP = true ∧ f = .next t) := by
  unfold needFp at h
  cases hp : s.msrFP with
  | true => exact .inr ⟨rfl, by simpa [hp] using h⟩
  | false => exact .inl ⟨rfl, by simpa [hp] using h.symm⟩

theorem needFp_on {s : State} (h : s.msrFP = true) (f : Outcome State Fault Refusal) : needFp s f = f := by
  simp [needFp, h]

theorem privileged_on {s : State} (h : s.msrPR = false) (f : Outcome State Fault Refusal) : privileged s f = f := by
  simp [privileged, h]

/-! ### XER and CR0 -/

theorem compareSigned_zero (v : Word) (so : Bool) : compareSigned v 0 so = cr0Of v so := by
  have h1 : v.slt 0 = decide (v.toInt < 0) := rfl
  have h2 : (0 : Word).slt v = decide (0 < v.toInt) := rfl
  have h3 : (v == 0) = decide (v.toInt = 0) := by
    rw [Bool.eq_iff_iff, beq_iff_eq, decide_eq_true_iff]
    constructor
    · rintro rfl; rfl
    · intro h; exact BitVec.eq_of_toInt_eq (h.trans rfl)
  unfold compareSigned cr0Of
  rw [h1, h2, h3]

theorem bitAt_and_low (v : Word) {i : Nat} (hi : i < 3) (b : Bool) : setBit v i b &&& 0x1FFFFFFF = v &&& 0x1FFFFFFF := by
  refine setBit_and v 0x1FFFFFFF (by omega) ?_ b
  interval_cases i <;> rfl

/-- The end of a fixed-point instruction (R400): its target, OV and SO with OE, CR0 with Rc. -/
theorem State.arith_result (s : State) (rd : RegNum) (v : Word) (oe ov rc : Bool) :
    FixedResult s (s.arith rd v oe ov rc) rd v v none oe ov rc := by
  have hx : (s.arith rd v oe ov rc).xer = if oe then setBit (setBit s.xer 1 ov) 0 (s.xerSO || ov) else s.xer := by
    cases oe <;> cases rc <;> rfl
  have hg : (s.arith rd v oe ov rc).gpr = (s.setReg rd v).gpr := by cases oe <;> cases rc <;> rfl
  have hreg : ∀ q, (s.arith rd v oe ov rc).reg q = (s.setReg rd v).reg q := by
    intro q; unfold State.reg; rw [hg]
  have hso : (s.arith rd v oe ov rc).xerSO = if oe then (s.xerSO || ov) else s.xerSO := by
    unfold State.xerSO; rw [hx]
    cases oe with
    | false => rfl
    | true => simp only [if_true]; rw [bitAt_setBit _ (by omega) (by omega), if_pos rfl]; rfl
  refine ⟨by rw [hreg]; exact s.reg_setReg_self rd v, fun q hq => by rw [hreg]; exact s.reg_setReg_of_ne v hq, ?_, ?_, hso,
    ?_, ?_, ?_, ?_, by cases oe <;> cases rc <;> rfl, fun b => by cases oe <;> cases rc <;> rfl⟩
  · unfold State.xerCA; rw [hx]
    cases oe with
    | false => rfl
    | true =>
      simp only [if_true]
      rw [bitAt_setBit_of_ne _ (by omega) (by omega) (by omega), bitAt_setBit_of_ne _ (by omega) (by omega) (by omega)]; rfl
  · unfold State.xerOV; rw [hx]
    cases oe with
    | false => rfl
    | true =>
      simp only [if_true]
      rw [bitAt_setBit_of_ne _ (by omega) (by omega) (by omega), bitAt_setBit _ (by omega) (by omega), if_pos rfl]
  · rw [hx]
    cases oe with
    | false => rfl
    | true => simp only [if_true]; rw [bitAt_and_low _ (by omega), bitAt_and_low _ (by omega)]
  · rintro rfl
    rw [hso, ← compareSigned_zero]
    have : (s.arith rd v oe ov true) = ((((s.setReg rd v).overflow oe ov).setCrField 0
        (compareSigned v 0 ((s.setReg rd v).overflow oe ov).xerSO)).advance) := rfl
    have hso' : ((s.setReg rd v).overflow oe ov).xerSO = if oe then (s.xerSO || ov) else s.xerSO := by
      rw [← hso]; cases oe <;> rfl
    rw [this, hso']
    exact State.crField_setCrField_self _ 0 _
  · intro f hf
    cases rc with
    | false => cases oe <;> rfl
    | true => cases oe <;> exact State.crField_setCrField_of_ne _ _ hf
  · rintro rfl; cases oe <;> rfl

/-- The same after CA was written (R6). -/
theorem State.arith_setCA_result (s : State) (rd : RegNum) (v : Word) (ca oe ov rc : Bool) :
    FixedResult s ((s.setCA ca).arith rd v oe ov rc) rd v v (some ca) oe ov rc := by
  have h := (s.setCA ca).arith_result rd v oe ov rc
  have hbit : ∀ i, i < 2 → bitAt (setBit s.xer 2 ca) i = bitAt s.xer i := fun i hi =>
    bitAt_setBit_of_ne _ (by omega) (by omega) (by omega) _
  have hso : (s.setCA ca).xerSO = s.xerSO := hbit 0 (by omega)
  have hov : (s.setCA ca).xerOV = s.xerOV := hbit 1 (by omega)
  refine ⟨h.target, h.others, ?_, hov ▸ h.overflow, hso ▸ h.summary, ?_, h.cr0, h.crRest, h.noRecord, ?_, h.memory⟩
  · refine h.carry.trans ?_
    show bitAt (setBit s.xer 2 ca) 2 = ca
    rw [bitAt_setBit _ (by omega) (by omega), if_pos rfl]
  · exact h.xerRest.trans (bitAt_and_low s.xer (by omega) ca)
  · exact h.rest

/-- An addition (R401). -/
theorem State.adder_result (s : State) (rd : RegNum) (x y : Word) (c oe rc : Bool) :
    FixedResult s (s.adder rd x y c oe rc) rd (sum3 x y c) (sum3 x y c) (some (carryOut x y c)) oe (overflowOut x y c) rc :=
  s.arith_setCA_result rd _ _ oe _ rc

/-- The sum of two words and a carry is the sum of the signed numbers modulo 2^32. -/
theorem sum3_eq (x y : Word) (c : Bool) : sum3 x y c = BitVec.ofInt 32 (x.toInt + y.toInt + c.toNat) := by
  apply BitVec.eq_of_toInt_eq
  rw [BitVec.toInt_ofInt, sum3, BitVec.toInt_add, BitVec.toInt_add]
  have : ((BitVec.ofBool c).setWidth 32).toInt = (c.toNat : Int) := by cases c <;> rfl
  rw [this, Int.bmod_add_bmod]

theorem overflowOut_eq (x y : Word) (c : Bool) : overflowOut x y c = decide (Overflows (x.toInt + y.toInt + c.toNat)) := by
  unfold overflowOut
  simp only [Bool.decide_or]

end Sys2Proof.Machine
end

