-- ==== Sys2Proof/Laws/PerInstr.lean ====
section
/-!
SUPPORT. One lemma per constructor of `Instr`: on POWER2, which has every instruction, the decoder reads back what the
encoder writes.
-/

namespace Sys2Proof.Laws.Encoding

open Machine (bitsAt bitAt)

/-- On POWER2 the word of the instruction decodes to the instruction. -/
def Statement (i : Instr) : Prop := decode .power2 (encode i) = .instr i

theorem b (li : BitVec 24) (aa : Bool) (lk : Bool) : Statement (.b li aa lk) :=
  (decode_of .power2 (w := formI 18 li (flag aa) (flag lk)) (formI_op ..)).trans
    (congrArg Decoded.instr (by simp))

theorem bc (bo : BitVec 5) (bi : BitVec 5) (bd : BitVec 14) (aa : Bool) (lk : Bool) : Statement (.bc bo bi bd aa lk) :=
  (decode_of .power2 (w := formB 16 bo bi bd (flag aa) (flag lk)) (formB_op ..)).trans
    (congrArg Decoded.instr (by simp))

theorem bcr (bo : BitVec 5) (bi : BitVec 5) (lk : Bool) : Statement (.bcr bo bi lk) :=
  (decode_of19 .power2 (w := formX 19 bo bi 0#5 16#10 (flag lk)) (formX_op ..) (formX_xo ..)).trans
    (congrArg Decoded.instr (by simp))

theorem bcc (bo : BitVec 5) (bi : BitVec 5) (lk : Bool) : Statement (.bcc bo bi lk) :=
  (decode_of19 .power2 (w := formX 19 bo bi 0#5 528#10 (flag lk)) (formX_op ..) (formX_xo ..)).trans
    (congrArg Decoded.instr (by simp))

theorem svc (fl1 : BitVec 4) (lev : BitVec 7) (fl2 : BitVec 3) (sa : Bool) (lk : Bool) :
    Statement (.svc fl1 lev fl2 sa lk) :=
  (decode_of .power2 (w := formSC 17 fl1 lev fl2 (flag sa) (flag lk)) (formSC_op ..)).trans
    (congrArg Decoded.instr (by simp))

theorem rfi : Statement .rfi :=
  (decode_of19 .power2 (w := formX 19 0#5 0#5 0#5 50#10 0#1) (formX_op ..) (formX_xo ..)).trans
    (congrArg Decoded.instr (by simp))

theorem rfsvc (lk : Bool) : Statement (.rfsvc lk) :=
  (decode_of19 .power2 (w := formX 19 0#5 0#5 0#5 82#10 (flag lk)) (formX_op ..) (formX_xo ..)).trans
    (congrArg Decoded.instr (by simp))

theorem mcrf (bf : CrField) (bfa : CrField) : Statement (.mcrf bf bfa) :=
  (decode_of19 .power2 (w := formX 19 (bf ++ 0#2) (bfa ++ 0#2) 0#5 0#10 0#1) (formX_op ..) (formX_xo ..)).trans
    (congrArg Decoded.instr (by simp))

theorem crand (bt : BitVec 5) (ba : BitVec 5) (bb : BitVec 5) : Statement (.crand bt ba bb) :=
  (decode_of19 .power2 (w := formX 19 bt ba bb 257#10 0#1) (formX_op ..) (formX_xo ..)).trans
    (congrArg Decoded.instr (by simp))

theorem cror (bt : BitVec 5) (ba : BitVec 5) (bb : BitVec 5) : Statement (.cror bt ba bb) :=
  (decode_of19 .power2 (w := formX 19 bt ba bb 449#10 0#1) (formX_op ..) (formX_xo ..)).trans
    (congrArg Decoded.instr (by simp))

theorem crxor (bt : BitVec 5) (ba : BitVec 5) (bb : BitVec 5) : Statement (.crxor bt ba bb) :=
  (decode_of19 .power2 (w := formX 19 bt ba bb 193#10 0#1) (formX_op ..) (formX_xo ..)).trans
    (congrArg Decoded.instr (by simp))

theorem crnand (bt : BitVec 5) (ba : BitVec 5) (bb : BitVec 5) : Statement (.crnand bt ba bb) :=
  (decode_of19 .power2 (w := formX 19 bt ba bb 225#10 0#1) (formX_op ..) (formX_xo ..)).trans
    (congrArg Decoded.instr (by simp))

theorem crnor (bt : BitVec 5) (ba : BitVec 5) (bb : BitVec 5) : Statement (.crnor bt ba bb) :=
  (decode_of19 .power2 (w := formX 19 bt ba bb 33#10 0#1) (formX_op ..) (formX_xo ..)).trans
    (congrArg Decoded.instr (by simp))

theorem creqv (bt : BitVec 5) (ba : BitVec 5) (bb : BitVec 5) : Statement (.creqv bt ba bb) :=
  (decode_of19 .power2 (w := formX 19 bt ba bb 289#10 0#1) (formX_op ..) (formX_xo ..)).trans
    (congrArg Decoded.instr (by simp))

theorem crandc (bt : BitVec 5) (ba : BitVec 5) (bb : BitVec 5) : Statement (.crandc bt ba bb) :=
  (decode_of19 .power2 (w := formX 19 bt ba bb 129#10 0#1) (formX_op ..) (formX_xo ..)).trans
    (congrArg Decoded.instr (by simp))

theorem crorc (bt : BitVec 5) (ba : BitVec 5) (bb : BitVec 5) : Statement (.crorc bt ba bb) :=
  (decode_of19 .power2 (w := formX 19 bt ba bb 417#10 0#1) (formX_op ..) (formX_xo ..)).trans
    (congrArg Decoded.instr (by simp))

theorem t (cond : BitVec 5) (ra : RegNum) (rb : RegNum) : Statement (.t cond ra rb) :=
  (decode_of31 .power2 (w := formX 31 cond ra rb 4#10 0#1) (formX_op ..) (formX_xo ..)).trans
    (congrArg Decoded.instr (by simp))

theorem ti (cond : BitVec 5) (ra : RegNum) (si : BitVec 16) : Statement (.ti cond ra si) :=
  (decode_of .power2 (w := formD 3 cond ra si) (formD_op ..)).trans
    (congrArg Decoded.instr (by simp))

theorem lbz (rt : RegNum) (ra : RegNum) (d : BitVec 16) : Statement (.lbz rt ra d) :=
  (decode_of .power2 (w := formD 34 rt ra d) (formD_op ..)).trans
    (congrArg Decoded.instr (by simp))

theorem lbzu (rt : RegNum) (ra : RegNum) (d : BitVec 16) : Statement (.lbzu rt ra d) :=
  (decode_of .power2 (w := formD 35 rt ra d) (formD_op ..)).trans
    (congrArg Decoded.instr (by simp))

theorem lbzx (rt : RegNum) (ra : RegNum) (rb : RegNum) : Statement (.lbzx rt ra rb) :=
  (decode_of31 .power2 (w := formX 31 rt ra rb 87#10 0#1) (formX_op ..) (formX_xo ..)).trans
    (congrArg Decoded.instr (by simp))

theorem lbzux (rt : RegNum) (ra : RegNum) (rb : RegNum) : Statement (.lbzux rt ra rb) :=
  (decode_of31 .power2 (w := formX 31 rt ra rb 119#10 0#1) (formX_op ..) (formX_xo ..)).trans
    (congrArg Decoded.instr (by simp))

theorem lhz (rt : RegNum) (ra : RegNum) (d : BitVec 16) : Statement (.lhz rt ra d) :=
  (decode_of .power2 (w := formD 40 rt ra d) (formD_op ..)).trans
    (congrArg Decoded.instr (by simp))

theorem lhzu (rt : RegNum) (ra : RegNum) (d : BitVec 16) : Statement (.lhzu rt ra d) :=
  (decode_of .power2 (w := formD 41 rt ra d) (formD_op ..)).trans
    (congrArg Decoded.instr (by simp))

theorem lhzx (rt : RegNum) (ra : RegNum) (rb : RegNum) : Statement (.lhzx rt ra rb) :=
  (decode_of31 .power2 (w := formX 31 rt ra rb 279#10 0#1) (formX_op ..) (formX_xo ..)).trans
    (congrArg Decoded.instr (by simp))

theorem lhzux (rt : RegNum) (ra : RegNum) (rb : RegNum) : Statement (.lhzux rt ra rb) :=
  (decode_of31 .power2 (w := formX 31 rt ra rb 311#10 0#1) (formX_op ..) (formX_xo ..)).trans
    (congrArg Decoded.instr (by simp))

theorem lha (rt : RegNum) (ra : RegNum) (d : BitVec 16) : Statement (.lha rt ra d) :=
  (decode_of .power2 (w := formD 42 rt ra d) (formD_op ..)).trans
    (congrArg Decoded.instr (by simp))

theorem lhau (rt : RegNum) (ra : RegNum) (d : BitVec 16) : Statement (.lhau rt ra d) :=
  (decode_of .power2 (w := formD 43 rt ra d) (formD_op ..)).trans
    (congrArg Decoded.instr (by simp))

theorem lhax (rt : RegNum) (ra : RegNum) (rb : RegNum) : Statement (.lhax rt ra rb) :=
  (decode_of31 .power2 (w := formX 31 rt ra rb 343#10 0#1) (formX_op ..) (formX_xo ..)).trans
    (congrArg Decoded.instr (by simp))

theorem lhaux (rt : RegNum) (ra : RegNum) (rb : RegNum) : Statement (.lhaux rt ra rb) :=
  (decode_of31 .power2 (w := formX 31 rt ra rb 375#10 0#1) (formX_op ..) (formX_xo ..)).trans
    (congrArg Decoded.instr (by simp))

theorem l (rt : RegNum) (ra : RegNum) (d : BitVec 16) : Statement (.l rt ra d) :=
  (decode_of .power2 (w := formD 32 rt ra d) (formD_op ..)).trans
    (congrArg Decoded.instr (by simp))

theorem lu (rt : RegNum) (ra : RegNum) (d : BitVec 16) : Statement (.lu rt ra d) :=
  (decode_of .power2 (w := formD 33 rt ra d) (formD_op ..)).trans
    (congrArg Decoded.instr (by simp))

theorem lx (rt : RegNum) (ra : RegNum) (rb : RegNum) : Statement (.lx rt ra rb) :=
  (decode_of31 .power2 (w := formX 31 rt ra rb 23#10 0#1) (formX_op ..) (formX_xo ..)).trans
    (congrArg Decoded.instr (by simp))

theorem lux (rt : RegNum) (ra : RegNum) (rb : RegNum) : Statement (.lux rt ra rb) :=
  (decode_of31 .power2 (w := formX 31 rt ra rb 55#10 0#1) (formX_op ..) (formX_xo ..)).trans
    (congrArg Decoded.instr (by simp))

theorem stb (rs : RegNum) (ra : RegNum) (d : BitVec 16) : Statement (.stb rs ra d) :=
  (decode_of .power2 (w := formD 38 rs ra d) (formD_op ..)).trans
    (congrArg Decoded.instr (by simp))

theorem stbu (rs : RegNum) (ra : RegNum) (d : BitVec 16) : Statement (.stbu rs ra d) :=
  (decode_of .power2 (w := formD 39 rs ra d) (formD_op ..)).trans
    (congrArg Decoded.instr (by simp))

theorem stbx (rs : RegNum) (ra : RegNum) (rb : RegNum) : Statement (.stbx rs ra rb) :=
  (decode_of31 .power2 (w := formX 31 rs ra rb 215#10 0#1) (formX_op ..) (formX_xo ..)).trans
    (congrArg Decoded.instr (by simp))

theorem stbux (rs : RegNum) (ra : RegNum) (rb : RegNum) : Statement (.stbux rs ra rb) :=
  (decode_of31 .power2 (w := formX 31 rs ra rb 247#10 0#1) (formX_op ..) (formX_xo ..)).trans
    (congrArg Decoded.instr (by simp))

theorem sth (rs : RegNum) (ra : RegNum) (d : BitVec 16) : Statement (.sth rs ra d) :=
  (decode_of .power2 (w := formD 44 rs ra d) (formD_op ..)).trans
    (congrArg Decoded.instr (by simp))

theorem sthu (rs : RegNum) (ra : RegNum) (d : BitVec 16) : Statement (.sthu rs ra d) :=
  (decode_of .power2 (w := formD 45 rs ra d) (formD_op ..)).trans
    (congrArg Decoded.instr (by simp))

theorem sthx (rs : RegNum) (ra : RegNum) (rb : RegNum) : Statement (.sthx rs ra rb) :=
  (decode_of31 .power2 (w := formX 31 rs ra rb 407#10 0#1) (formX_op ..) (formX_xo ..)).trans
    (congrArg Decoded.instr (by simp))

theorem sthux (rs : RegNum) (ra : RegNum) (rb : RegNum) : Statement (.sthux rs ra rb) :=
  (decode_of31 .power2 (w := formX 31 rs ra rb 439#10 0#1) (formX_op ..) (formX_xo ..)).trans
    (congrArg Decoded.instr (by simp))

theorem st (rs : RegNum) (ra : RegNum) (d : BitVec 16) : Statement (.st rs ra d) :=
  (decode_of .power2 (w := formD 36 rs ra d) (formD_op ..)).trans
    (congrArg Decoded.instr (by simp))

theorem stu (rs : RegNum) (ra : RegNum) (d : BitVec 16) : Statement (.stu rs ra d) :=
  (decode_of .power2 (w := formD 37 rs ra d) (formD_op ..)).trans
    (congrArg Decoded.instr (by simp))

theorem stx (rs : RegNum) (ra : RegNum) (rb : RegNum) : Statement (.stx rs ra rb) :=
  (decode_of31 .power2 (w := formX 31 rs ra rb 151#10 0#1) (formX_op ..) (formX_xo ..)).trans
    (congrArg Decoded.instr (by simp))

theorem stux (rs : RegNum) (ra : RegNum) (rb : RegNum) : Statement (.stux rs ra rb) :=
  (decode_of31 .power2 (w := formX 31 rs ra rb 183#10 0#1) (formX_op ..) (formX_xo ..)).trans
    (congrArg Decoded.instr (by simp))

theorem lhbrx (rt : RegNum) (ra : RegNum) (rb : RegNum) : Statement (.lhbrx rt ra rb) :=
  (decode_of31 .power2 (w := formX 31 rt ra rb 790#10 0#1) (formX_op ..) (formX_xo ..)).trans
    (congrArg Decoded.instr (by simp))

theorem lbrx (rt : RegNum) (ra : RegNum) (rb : RegNum) : Statement (.lbrx rt ra rb) :=
  (decode_of31 .power2 (w := formX 31 rt ra rb 534#10 0#1) (formX_op ..) (formX_xo ..)).trans
    (congrArg Decoded.instr (by simp))

theorem sthbrx (rs : RegNum) (ra : RegNum) (rb : RegNum) : Statement (.sthbrx rs ra rb) :=
  (decode_of31 .power2 (w := formX 31 rs ra rb 918#10 0#1) (formX_op ..) (formX_xo ..)).trans
    (congrArg Decoded.instr (by simp))

theorem stbrx (rs : RegNum) (ra : RegNum) (rb : RegNum) : Statement (.stbrx rs ra rb) :=
  (decode_of31 .power2 (w := formX 31 rs ra rb 662#10 0#1) (formX_op ..) (formX_xo ..)).trans
    (congrArg Decoded.instr (by simp))

theorem lm (rt : RegNum) (ra : RegNum) (d : BitVec 16) : Statement (.lm rt ra d) :=
  (decode_of .power2 (w := formD 46 rt ra d) (formD_op ..)).trans
    (congrArg Decoded.instr (by simp))

theorem stm (rs : RegNum) (ra : RegNum) (d : BitVec 16) : Statement (.stm rs ra d) :=
  (decode_of .power2 (w := formD 47 rs ra d) (formD_op ..)).trans
    (congrArg Decoded.instr (by simp))

theorem lsi (rt : RegNum) (ra : RegNum) (nb : BitVec 5) : Statement (.lsi rt ra nb) :=
  (decode_of31 .power2 (w := formX 31 rt ra nb 597#10 0#1) (formX_op ..) (formX_xo ..)).trans
    (congrArg Decoded.instr (by simp))

theorem lsx (rt : RegNum) (ra : RegNum) (rb : RegNum) : Statement (.lsx rt ra rb) :=
  (decode_of31 .power2 (w := formX 31 rt ra rb 533#10 0#1) (formX_op ..) (formX_xo ..)).trans
    (congrArg Decoded.instr (by simp))

theorem lscbx (rt : RegNum) (ra : RegNum) (rb : RegNum) (rc : Bool) : Statement (.lscbx rt ra rb rc) :=
  (decode_of31 .power2 (w := formX 31 rt ra rb 277#10 (flag rc)) (formX_op ..) (formX_xo ..)).trans
    (congrArg Decoded.instr (by simp))

theorem stsi (rs : RegNum) (ra : RegNum) (nb : BitVec 5) : Statement (.stsi rs ra nb) :=
  (decode_of31 .power2 (w := formX 31 rs ra nb 725#10 0#1) (formX_op ..) (formX_xo ..)).trans
    (congrArg Decoded.instr (by simp))

theorem stsx (rs : RegNum) (ra : RegNum) (rb : RegNum) : Statement (.stsx rs ra rb) :=
  (decode_of31 .power2 (w := formX 31 rs ra rb 661#10 0#1) (formX_op ..) (formX_xo ..)).trans
    (congrArg Decoded.instr (by simp))

theorem cal (rt : RegNum) (ra : RegNum) (d : BitVec 16) : Statement (.cal rt ra d) :=
  (decode_of .power2 (w := formD 14 rt ra d) (formD_op ..)).trans
    (congrArg Decoded.instr (by simp))

theorem cau (rt : RegNum) (ra : RegNum) (ui : BitVec 16) : Statement (.cau rt ra ui) :=
  (decode_of .power2 (w := formD 15 rt ra ui) (formD_op ..)).trans
    (congrArg Decoded.instr (by simp))

theorem aiDot (rt : RegNum) (ra : RegNum) (si : BitVec 16) : Statement (.aiDot rt ra si) :=
  (decode_of .power2 (w := formD 13 rt ra si) (formD_op ..)).trans
    (congrArg Decoded.instr (by simp))

theorem ai (rt : RegNum) (ra : RegNum) (si : BitVec 16) : Statement (.ai rt ra si) :=
  (decode_of .power2 (w := formD 12 rt ra si) (formD_op ..)).trans
    (congrArg Decoded.instr (by simp))

theorem sfi (rt : RegNum) (ra : RegNum) (si : BitVec 16) : Statement (.sfi rt ra si) :=
  (decode_of .power2 (w := formD 8 rt ra si) (formD_op ..)).trans
    (congrArg Decoded.instr (by simp))

theorem muli (rt : RegNum) (ra : RegNum) (si : BitVec 16) : Statement (.muli rt ra si) :=
  (decode_of .power2 (w := formD 7 rt ra si) (formD_op ..)).trans
    (congrArg Decoded.instr (by simp))

theorem dozi (rt : RegNum) (ra : RegNum) (si : BitVec 16) : Statement (.dozi rt ra si) :=
  (decode_of .power2 (w := formD 9 rt ra si) (formD_op ..)).trans
    (congrArg Decoded.instr (by simp))

theorem cax (rt : RegNum) (ra : RegNum) (rb : RegNum) (oe : Bool) (rc : Bool) : Statement (.cax rt ra rb oe rc) := by
  cases oe
  · exact (decode_of31 .power2 (w := formXO 31 rt ra rb (flag false) 266#9 (flag rc)) (formXO_op ..) (formXO_eo ..)).trans
      (congrArg Decoded.instr (by simp))
  · exact (decode_of31 .power2 (w := formXO 31 rt ra rb (flag true) 266#9 (flag rc)) (formXO_op ..) (formXO_eo ..)).trans
      (congrArg Decoded.instr (by simp))

theorem a (rt : RegNum) (ra : RegNum) (rb : RegNum) (oe : Bool) (rc : Bool) : Statement (.a rt ra rb oe rc) := by
  cases oe
  · exact (decode_of31 .power2 (w := formXO 31 rt ra rb (flag false) 10#9 (flag rc)) (formXO_op ..) (formXO_eo ..)).trans
      (congrArg Decoded.instr (by simp))
  · exact (decode_of31 .power2 (w := formXO 31 rt ra rb (flag true) 10#9 (flag rc)) (formXO_op ..) (formXO_eo ..)).trans
      (congrArg Decoded.instr (by simp))

theorem ae (rt : RegNum) (ra : RegNum) (rb : RegNum) (oe : Bool) (rc : Bool) : Statement (.ae rt ra rb oe rc) := by
  cases oe
  · exact (decode_of31 .power2 (w := formXO 31 rt ra rb (flag false) 138#9 (flag rc)) (formXO_op ..) (formXO_eo ..)).trans
      (congrArg Decoded.instr (by simp))
  · exact (decode_of31 .power2 (w := formXO 31 rt ra rb (flag true) 138#9 (flag rc)) (formXO_op ..) (formXO_eo ..)).trans
      (congrArg Decoded.instr (by simp))

theorem ame (rt : RegNum) (ra : RegNum) (oe : Bool) (rc : Bool) : Statement (.ame rt ra oe rc) := by
  cases oe
  · exact (decode_of31 .power2 (w := formXO 31 rt ra 0#5 (flag false) 234#9 (flag rc)) (formXO_op ..) (formXO_eo ..)).trans
      (congrArg Decoded.instr (by simp))
  · exact (decode_of31 .power2 (w := formXO 31 rt ra 0#5 (flag true) 234#9 (flag rc)) (formXO_op ..) (formXO_eo ..)).trans
      (congrArg Decoded.instr (by simp))

theorem aze (rt : RegNum) (ra : RegNum) (oe : Bool) (rc : Bool) : Statement (.aze rt ra oe rc) := by
  cases oe
  · exact (decode_of31 .power2 (w := formXO 31 rt ra 0#5 (flag false) 202#9 (flag rc)) (formXO_op ..) (formXO_eo ..)).trans
      (congrArg Decoded.instr (by simp))
  · exact (decode_of31 .power2 (w := formXO 31 rt ra 0#5 (flag true) 202#9 (flag rc)) (formXO_op ..) (formXO_eo ..)).trans
      (congrArg Decoded.instr (by simp))

theorem sf (rt : RegNum) (ra : RegNum) (rb : RegNum) (oe : Bool) (rc : Bool) : Statement (.sf rt ra rb oe rc) := by
  cases oe
  · exact (decode_of31 .power2 (w := formXO 31 rt ra rb (flag false) 8#9 (flag rc)) (formXO_op ..) (formXO_eo ..)).trans
      (congrArg Decoded.instr (by simp))
  · exact (decode_of31 .power2 (w := formXO 31 rt ra rb (flag true) 8#9 (flag rc)) (formXO_op ..) (formXO_eo ..)).trans
      (congrArg Decoded.instr (by simp))

theorem sfe (rt : RegNum) (ra : RegNum) (rb : RegNum) (oe : Bool) (rc : Bool) : Statement (.sfe rt ra rb oe rc) := by
  cases oe
  · exact (decode_of31 .power2 (w := formXO 31 rt ra rb (flag false) 136#9 (flag rc)) (formXO_op ..) (formXO_eo ..)).trans
      (congrArg Decoded.instr (by simp))
  · exact (decode_of31 .power2 (w := formXO 31 rt ra rb (flag true) 136#9 (flag rc)) (formXO_op ..) (formXO_eo ..)).trans
      (congrArg Decoded.instr (by simp))

theorem sfme (rt : RegNum) (ra : RegNum) (oe : Bool) (rc : Bool) : Statement (.sfme rt ra oe rc) := by
  cases oe
  · exact (decode_of31 .power2 (w := formXO 31 rt ra 0#5 (flag false) 232#9 (flag rc)) (formXO_op ..) (formXO_eo ..)).trans
      (congrArg Decoded.instr (by simp))
  · exact (decode_of31 .power2 (w := formXO 31 rt ra 0#5 (flag true) 232#9 (flag rc)) (formXO_op ..) (formXO_eo ..)).trans
      (congrArg Decoded.instr (by simp))

theorem sfze (rt : RegNum) (ra : RegNum) (oe : Bool) (rc : Bool) : Statement (.sfze rt ra oe rc) := by
  cases oe
  · exact (decode_of31 .power2 (w := formXO 31 rt ra 0#5 (flag false) 200#9 (flag rc)) (formXO_op ..) (formXO_eo ..)).trans
      (congrArg Decoded.instr (by simp))
  · exact (decode_of31 .power2 (w := formXO 31 rt ra 0#5 (flag true) 200#9 (flag rc)) (formXO_op ..) (formXO_eo ..)).trans
      (congrArg Decoded.instr (by simp))

theorem neg (rt : RegNum) (ra : RegNum) (oe : Bool) (rc : Bool) : Statement (.neg rt ra oe rc) := by
  cases oe
  · exact (decode_of31 .power2 (w := formXO 31 rt ra 0#5 (flag false) 104#9 (flag rc)) (formXO_op ..) (formXO_eo ..)).trans
      (congrArg Decoded.instr (by simp))
  · exact (decode_of31 .power2 (w := formXO 31 rt ra 0#5 (flag true) 104#9 (flag rc)) (formXO_op ..) (formXO_eo ..)).trans
      (congrArg Decoded.instr (by simp))

theorem abs (rt : RegNum) (ra : RegNum) (oe : Bool) (rc : Bool) : Statement (.abs rt ra oe rc) := by
  cases oe
  · exact (decode_of31 .power2 (w := formXO 31 rt ra 0#5 (flag false) 360#9 (flag rc)) (formXO_op ..) (formXO_eo ..)).trans
      (congrArg Decoded.instr (by simp))
  · exact (decode_of31 .power2 (w := formXO 31 rt ra 0#5 (flag true) 360#9 (flag rc)) (formXO_op ..) (formXO_eo ..)).trans
      (congrArg Decoded.instr (by simp))

theorem nabs (rt : RegNum) (ra : RegNum) (oe : Bool) (rc : Bool) : Statement (.nabs rt ra oe rc) := by
  cases oe
  · exact (decode_of31 .power2 (w := formXO 31 rt ra 0#5 (flag false) 488#9 (flag rc)) (formXO_op ..) (formXO_eo ..)).trans
      (congrArg Decoded.instr (by simp))
  · exact (decode_of31 .power2 (w := formXO 31 rt ra 0#5 (flag true) 488#9 (flag rc)) (formXO_op ..) (formXO_eo ..)).trans
      (congrArg Decoded.instr (by simp))

theorem doz (rt : RegNum) (ra : RegNum) (rb : RegNum) (oe : Bool) (rc : Bool) : Statement (.doz rt ra rb oe rc) := by
  cases oe
  · exact (decode_of31 .power2 (w := formXO 31 rt ra rb (flag false) 264#9 (flag rc)) (formXO_op ..) (formXO_eo ..)).trans
      (congrArg Decoded.instr (by simp))
  · exact (decode_of31 .power2 (w := formXO 31 rt ra rb (flag true) 264#9 (flag rc)) (formXO_op ..) (formXO_eo ..)).trans
      (congrArg Decoded.instr (by simp))

theorem mul (rt : RegNum) (ra : RegNum) (rb : RegNum) (oe : Bool) (rc : Bool) : Statement (.mul rt ra rb oe rc) := by
  cases oe
  · exact (decode_of31 .power2 (w := formXO 31 rt ra rb (flag false) 107#9 (flag rc)) (formXO_op ..) (formXO_eo ..)).trans
      (congrArg Decoded.instr (by simp))
  · exact (decode_of31 .power2 (w := formXO 31 rt ra rb (flag true) 107#9 (flag rc)) (formXO_op ..) (formXO_eo ..)).trans
      (congrArg Decoded.instr (by simp))

theorem muls (rt : RegNum) (ra : RegNum) (rb : RegNum) (oe : Bool) (rc : Bool) : Statement (.muls rt ra rb oe rc) := by
  cases oe
  · exact (decode_of31 .power2 (w := formXO 31 rt ra rb (flag false) 235#9 (flag rc)) (formXO_op ..) (formXO_eo ..)).trans
      (congrArg Decoded.instr (by simp))
  · exact (decode_of31 .power2 (w := formXO 31 rt ra rb (flag true) 235#9 (flag rc)) (formXO_op ..) (formXO_eo ..)).trans
      (congrArg Decoded.instr (by simp))

theorem div (rt : RegNum) (ra : RegNum) (rb : RegNum) (oe : Bool) (rc : Bool) : Statement (.div rt ra rb oe rc) := by
  cases oe
  · exact (decode_of31 .power2 (w := formXO 31 rt ra rb (flag false) 331#9 (flag rc)) (formXO_op ..) (formXO_eo ..)).trans
      (congrArg Decoded.instr (by simp))
  · exact (decode_of31 .power2 (w := formXO 31 rt ra rb (flag true) 331#9 (flag rc)) (formXO_op ..) (formXO_eo ..)).trans
      (congrArg Decoded.instr (by simp))

theorem divs (rt : RegNum) (ra : RegNum) (rb : RegNum) (oe : Bool) (rc : Bool) : Statement (.divs rt ra rb oe rc) := by
  cases oe
  · exact (decode_of31 .power2 (w := formXO 31 rt ra rb (flag false) 363#9 (flag rc)) (formXO_op ..) (formXO_eo ..)).trans
      (congrArg Decoded.instr (by simp))
  · exact (decode_of31 .power2 (w := formXO 31 rt ra rb (flag true) 363#9 (flag rc)) (formXO_op ..) (formXO_eo ..)).trans
      (congrArg Decoded.instr (by simp))

theorem cmpi (bf : CrField) (ra : RegNum) (si : BitVec 16) : Statement (.cmpi bf ra si) :=
  (decode_of .power2 (w := formD 11 (bf ++ 0#2) ra si) (formD_op ..)).trans
    (congrArg Decoded.instr (by simp))

theorem cmpli (bf : CrField) (ra : RegNum) (ui : BitVec 16) : Statement (.cmpli bf ra ui) :=
  (decode_of .power2 (w := formD 10 (bf ++ 0#2) ra ui) (formD_op ..)).trans
    (congrArg Decoded.instr (by simp))

theorem cmp (bf : CrField) (ra : RegNum) (rb : RegNum) : Statement (.cmp bf ra rb) :=
  (decode_of31 .power2 (w := formX 31 (bf ++ 0#2) ra rb 0#10 0#1) (formX_op ..) (formX_xo ..)).trans
    (congrArg Decoded.instr (by simp))

theorem cmpl (bf : CrField) (ra : RegNum) (rb : RegNum) : Statement (.cmpl bf ra rb) :=
  (decode_of31 .power2 (w := formX 31 (bf ++ 0#2) ra rb 32#10 0#1) (formX_op ..) (formX_xo ..)).trans
    (congrArg Decoded.instr (by simp))

theorem andilDot (rs : RegNum) (ra : RegNum) (ui : BitVec 16) : Statement (.andilDot rs ra ui) :=
  (decode_of .power2 (w := formD 28 rs ra ui) (formD_op ..)).trans
    (congrArg Decoded.instr (by simp))

theorem andiuDot (rs : RegNum) (ra : RegNum) (ui : BitVec 16) : Statement (.andiuDot rs ra ui) :=
  (decode_of .power2 (w := formD 29 rs ra ui) (formD_op ..)).trans
    (congrArg Decoded.instr (by simp))

theorem oril (rs : RegNum) (ra : RegNum) (ui : BitVec 16) : Statement (.oril rs ra ui) :=
  (decode_of .power2 (w := formD 24 rs ra ui) (formD_op ..)).trans
    (congrArg Decoded.instr (by simp))

theorem oriu (rs : RegNum) (ra : RegNum) (ui : BitVec 16) : Statement (.oriu rs ra ui) :=
  (decode_of .power2 (w := formD 25 rs ra ui) (formD_op ..)).trans
    (congrArg Decoded.instr (by simp))

theorem xoril (rs : RegNum) (ra : RegNum) (ui : BitVec 16) : Statement (.xoril rs ra ui) :=
  (decode_of .power2 (w := formD 26 rs ra ui) (formD_op ..)).trans
    (congrArg Decoded.instr (by simp))

theorem xoriu (rs : RegNum) (ra : RegNum) (ui : BitVec 16) : Statement (.xoriu rs ra ui) :=
  (decode_of .power2 (w := formD 27 rs ra ui) (formD_op ..)).trans
    (congrArg Decoded.instr (by simp))

theorem and (rs : RegNum) (ra : RegNum) (rb : RegNum) (rc : Bool) : Statement (.and rs ra rb rc) :=
  (decode_of31 .power2 (w := formX 31 rs ra rb 28#10 (flag rc)) (formX_op ..) (formX_xo ..)).trans
    (congrArg Decoded.instr (by simp))

theorem or (rs : RegNum) (ra : RegNum) (rb : RegNum) (rc : Bool) : Statement (.or rs ra rb rc) :=
  (decode_of31 .power2 (w := formX 31 rs ra rb 444#10 (flag rc)) (formX_op ..) (formX_xo ..)).trans
    (congrArg Decoded.instr (by simp))

theorem xor (rs : RegNum) (ra : RegNum) (rb : RegNum) (rc : Bool) : Statement (.xor rs ra rb rc) :=
  (decode_of31 .power2 (w := formX 31 rs ra rb 316#10 (flag rc)) (formX_op ..) (formX_xo ..)).trans
    (congrArg Decoded.instr (by simp))

theorem nand (rs : RegNum) (ra : RegNum) (rb : RegNum) (rc : Bool) : Statement (.nand rs ra rb rc) :=
  (decode_of31 .power2 (w := formX 31 rs ra rb 476#10 (flag rc)) (formX_op ..) (formX_xo ..)).trans
    (congrArg Decoded.instr (by simp))

theorem nor (rs : RegNum) (ra : RegNum) (rb : RegNum) (rc : Bool) : Statement (.nor rs ra rb rc) :=
  (decode_of31 .power2 (w := formX 31 rs ra rb 124#10 (flag rc)) (formX_op ..) (formX_xo ..)).trans
    (congrArg Decoded.instr (by simp))

theorem eqv (rs : RegNum) (ra : RegNum) (rb : RegNum) (rc : Bool) : Statement (.eqv rs ra rb rc) :=
  (decode_of31 .power2 (w := formX 31 rs ra rb 284#10 (flag rc)) (formX_op ..) (formX_xo ..)).trans
    (congrArg Decoded.instr (by simp))

theorem andc (rs : RegNum) (ra : RegNum) (rb : RegNum) (rc : Bool) : Statement (.andc rs ra rb rc) :=
  (decode_of31 .power2 (w := formX 31 rs ra rb 60#10 (flag rc)) (formX_op ..) (formX_xo ..)).trans
    (congrArg Decoded.instr (by simp))

theorem orc (rs : RegNum) (ra : RegNum) (rb : RegNum) (rc : Bool) : Statement (.orc rs ra rb rc) :=
  (decode_of31 .power2 (w := formX 31 rs ra rb 412#10 (flag rc)) (formX_op ..) (formX_xo ..)).trans
    (congrArg Decoded.instr (by simp))

theorem exts (rs : RegNum) (ra : RegNum) (rc : Bool) : Statement (.exts rs ra rc) :=
  (decode_of31 .power2 (w := formX 31 rs ra 0#5 922#10 (flag rc)) (formX_op ..) (formX_xo ..)).trans
    (congrArg Decoded.instr (by simp))

theorem cntlz (rs : RegNum) (ra : RegNum) (rc : Bool) : Statement (.cntlz rs ra rc) :=
  (decode_of31 .power2 (w := formX 31 rs ra 0#5 26#10 (flag rc)) (formX_op ..) (formX_xo ..)).trans
    (congrArg Decoded.instr (by simp))

theorem rlimi (rs : RegNum) (ra : RegNum) (sh : BitVec 5) (mb : BitVec 5) (me : BitVec 5) (rc : Bool) :
    Statement (.rlimi rs ra sh mb me rc) :=
  (decode_of .power2 (w := formA 20 rs ra sh mb me (flag rc)) (formA_op ..)).trans
    (congrArg Decoded.instr (by simp))

theorem rlinm (rs : RegNum) (ra : RegNum) (sh : BitVec 5) (mb : BitVec 5) (me : BitVec 5) (rc : Bool) :
    Statement (.rlinm rs ra sh mb me rc) :=
  (decode_of .power2 (w := formA 21 rs ra sh mb me (flag rc)) (formA_op ..)).trans
    (congrArg Decoded.instr (by simp))

theorem rlmi (rs : RegNum) (ra : RegNum) (rb : RegNum) (mb : BitVec 5) (me : BitVec 5) (rc : Bool) :
    Statement (.rlmi rs ra rb mb me rc) :=
  (decode_of .power2 (w := formA 22 rs ra rb mb me (flag rc)) (formA_op ..)).trans
    (congrArg Decoded.instr (by simp))

theorem rlnm (rs : RegNum) (ra : RegNum) (rb : RegNum) (mb : BitVec 5) (me : BitVec 5) (rc : Bool) :
    Statement (.rlnm rs ra rb mb me rc) :=
  (decode_of .power2 (w := formA 23 rs ra rb mb me (flag rc)) (formA_op ..)).trans
    (congrArg Decoded.instr (by simp))

theorem rrib (rs : RegNum) (ra : RegNum) (rb : RegNum) (rc : Bool) : Statement (.rrib rs ra rb rc) :=
  (decode_of31 .power2 (w := formX 31 rs ra rb 537#10 (flag rc)) (formX_op ..) (formX_xo ..)).trans
    (congrArg Decoded.instr (by simp))

theorem maskg (rs : RegNum) (ra : RegNum) (rb : RegNum) (rc : Bool) : Statement (.maskg rs ra rb rc) :=
  (decode_of31 .power2 (w := formX 31 rs ra rb 29#10 (flag rc)) (formX_op ..) (formX_xo ..)).trans
    (congrArg Decoded.instr (by simp))

theorem maskir (rs : RegNum) (ra : RegNum) (rb : RegNum) (rc : Bool) : Statement (.maskir rs ra rb rc) :=
  (decode_of31 .power2 (w := formX 31 rs ra rb 541#10 (flag rc)) (formX_op ..) (formX_xo ..)).trans
    (congrArg Decoded.instr (by simp))

theorem sl (rs : RegNum) (ra : RegNum) (rb : RegNum) (rc : Bool) : Statement (.sl rs ra rb rc) :=
  (decode_of31 .power2 (w := formX 31 rs ra rb 24#10 (flag rc)) (formX_op ..) (formX_xo ..)).trans
    (congrArg Decoded.instr (by simp))

theorem sr (rs : RegNum) (ra : RegNum) (rb : RegNum) (rc : Bool) : Statement (.sr rs ra rb rc) :=
  (decode_of31 .power2 (w := formX 31 rs ra rb 536#10 (flag rc)) (formX_op ..) (formX_xo ..)).trans
    (congrArg Decoded.instr (by simp))

theorem slq (rs : RegNum) (ra : RegNum) (rb : RegNum) (rc : Bool) : Statement (.slq rs ra rb rc) :=
  (decode_of31 .power2 (w := formX 31 rs ra rb 152#10 (flag rc)) (formX_op ..) (formX_xo ..)).trans
    (congrArg Decoded.instr (by simp))

theorem srq (rs : RegNum) (ra : RegNum) (rb : RegNum) (rc : Bool) : Statement (.srq rs ra rb rc) :=
  (decode_of31 .power2 (w := formX 31 rs ra rb 664#10 (flag rc)) (formX_op ..) (formX_xo ..)).trans
    (congrArg Decoded.instr (by simp))

theorem sliq (rs : RegNum) (ra : RegNum) (sh : BitVec 5) (rc : Bool) : Statement (.sliq rs ra sh rc) :=
  (decode_of31 .power2 (w := formX 31 rs ra sh 184#10 (flag rc)) (formX_op ..) (formX_xo ..)).trans
    (congrArg Decoded.instr (by simp))

theorem sriq (rs : RegNum) (ra : RegNum) (sh : BitVec 5) (rc : Bool) : Statement (.sriq rs ra sh rc) :=
  (decode_of31 .power2 (w := formX 31 rs ra sh 696#10 (flag rc)) (formX_op ..) (formX_xo ..)).trans
    (congrArg Decoded.instr (by simp))

theorem slliq (rs : RegNum) (ra : RegNum) (sh : BitVec 5) (rc : Bool) : Statement (.slliq rs ra sh rc) :=
  (decode_of31 .power2 (w := formX 31 rs ra sh 248#10 (flag rc)) (formX_op ..) (formX_xo ..)).trans
    (congrArg Decoded.instr (by simp))

theorem srliq (rs : RegNum) (ra : RegNum) (sh : BitVec 5) (rc : Bool) : Statement (.srliq rs ra sh rc) :=
  (decode_of31 .power2 (w := formX 31 rs ra sh 760#10 (flag rc)) (formX_op ..) (formX_xo ..)).trans
    (congrArg Decoded.instr (by simp))

theorem sllq (rs : RegNum) (ra : RegNum) (rb : RegNum) (rc : Bool) : Statement (.sllq rs ra rb rc) :=
  (decode_of31 .power2 (w := formX 31 rs ra rb 216#10 (flag rc)) (formX_op ..) (formX_xo ..)).trans
    (congrArg Decoded.instr (by simp))

theorem srlq (rs : RegNum) (ra : RegNum) (rb : RegNum) (rc : Bool) : Statement (.srlq rs ra rb rc) :=
  (decode_of31 .power2 (w := formX 31 rs ra rb 728#10 (flag rc)) (formX_op ..) (formX_xo ..)).trans
    (congrArg Decoded.instr (by simp))

theorem sle (rs : RegNum) (ra : RegNum) (rb : RegNum) (rc : Bool) : Statement (.sle rs ra rb rc) :=
  (decode_of31 .power2 (w := formX 31 rs ra rb 153#10 (flag rc)) (formX_op ..) (formX_xo ..)).trans
    (congrArg Decoded.instr (by simp))

theorem sre (rs : RegNum) (ra : RegNum) (rb : RegNum) (rc : Bool) : Statement (.sre rs ra rb rc) :=
  (decode_of31 .power2 (w := formX 31 rs ra rb 665#10 (flag rc)) (formX_op ..) (formX_xo ..)).trans
    (congrArg Decoded.instr (by simp))

theorem sleq (rs : RegNum) (ra : RegNum) (rb : RegNum) (rc : Bool) : Statement (.sleq rs ra rb rc) :=
  (decode_of31 .power2 (w := formX 31 rs ra rb 217#10 (flag rc)) (formX_op ..) (formX_xo ..)).trans
    (congrArg Decoded.instr (by simp))

theorem sreq (rs : RegNum) (ra : RegNum) (rb : RegNum) (rc : Bool) : Statement (.sreq rs ra rb rc) :=
  (decode_of31 .power2 (w := formX 31 rs ra rb 729#10 (flag rc)) (formX_op ..) (formX_xo ..)).trans
    (congrArg Decoded.instr (by simp))

theorem sra (rs : RegNum) (ra : RegNum) (rb : RegNum) (rc : Bool) : Statement (.sra rs ra rb rc) :=
  (decode_of31 .power2 (w := formX 31 rs ra rb 792#10 (flag rc)) (formX_op ..) (formX_xo ..)).trans
    (congrArg Decoded.instr (by simp))

theorem srai (rs : RegNum) (ra : RegNum) (sh : BitVec 5) (rc : Bool) : Statement (.srai rs ra sh rc) :=
  (decode_of31 .power2 (w := formX 31 rs ra sh 824#10 (flag rc)) (formX_op ..) (formX_xo ..)).trans
    (congrArg Decoded.instr (by simp))

theorem sraq (rs : RegNum) (ra : RegNum) (rb : RegNum) (rc : Bool) : Statement (.sraq rs ra rb rc) :=
  (decode_of31 .power2 (w := formX 31 rs ra rb 920#10 (flag rc)) (formX_op ..) (formX_xo ..)).trans
    (congrArg Decoded.instr (by simp))

theorem sraiq (rs : RegNum) (ra : RegNum) (sh : BitVec 5) (rc : Bool) : Statement (.sraiq rs ra sh rc) :=
  (decode_of31 .power2 (w := formX 31 rs ra sh 952#10 (flag rc)) (formX_op ..) (formX_xo ..)).trans
    (congrArg Decoded.instr (by simp))

theorem srea (rs : RegNum) (ra : RegNum) (rb : RegNum) (rc : Bool) : Statement (.srea rs ra rb rc) :=
  (decode_of31 .power2 (w := formX 31 rs ra rb 921#10 (flag rc)) (formX_op ..) (formX_xo ..)).trans
    (congrArg Decoded.instr (by simp))

theorem mtspr (rs : RegNum) (spr : BitVec 5) : Statement (.mtspr rs spr) :=
  (decode_of31 .power2 (w := formX 31 rs spr 0#5 467#10 0#1) (formX_op ..) (formX_xo ..)).trans
    (congrArg Decoded.instr (by simp))

theorem mfspr (rt : RegNum) (spr : BitVec 5) : Statement (.mfspr rt spr) :=
  (decode_of31 .power2 (w := formX 31 rt spr 0#5 339#10 0#1) (formX_op ..) (formX_xo ..)).trans
    (congrArg Decoded.instr (by simp))

theorem mcrxr (bf : CrField) : Statement (.mcrxr bf) :=
  (decode_of31 .power2 (w := formX 31 (bf ++ 0#2) 0#5 0#5 512#10 0#1) (formX_op ..) (formX_xo ..)).trans
    (congrArg Decoded.instr (by simp))

theorem mtcrf (rs : RegNum) (fxm : BitVec 8) : Statement (.mtcrf rs fxm) :=
  (decode_of31 .power2 (w := formX 31 rs (0#1 ++ fxm.extractLsb' 4 4) (fxm.extractLsb' 0 4 ++ 0#1) 144#10 0#1) (formX_op ..) (formX_xo ..)).trans
    (congrArg Decoded.instr (by simp))

theorem mfcr (rt : RegNum) : Statement (.mfcr rt) :=
  (decode_of31 .power2 (w := formX 31 rt 0#5 0#5 19#10 0#1) (formX_op ..) (formX_xo ..)).trans
    (congrArg Decoded.instr (by simp))

theorem mfmsr (rt : RegNum) : Statement (.mfmsr rt) :=
  (decode_of31 .power2 (w := formX 31 rt 0#5 0#5 83#10 0#1) (formX_op ..) (formX_xo ..)).trans
    (congrArg Decoded.instr (by simp))

theorem mtmsr (rs : RegNum) : Statement (.mtmsr rs) :=
  (decode_of31 .power2 (w := formX 31 rs 0#5 0#5 146#10 0#1) (formX_op ..) (formX_xo ..)).trans
    (congrArg Decoded.instr (by simp))

theorem lfs (frt : RegNum) (ra : RegNum) (d : BitVec 16) : Statement (.lfs frt ra d) :=
  (decode_of .power2 (w := formD 48 frt ra d) (formD_op ..)).trans
    (congrArg Decoded.instr (by simp))

theorem lfsu (frt : RegNum) (ra : RegNum) (d : BitVec 16) : Statement (.lfsu frt ra d) :=
  (decode_of .power2 (w := formD 49 frt ra d) (formD_op ..)).trans
    (congrArg Decoded.instr (by simp))

theorem lfsx (frt : RegNum) (ra : RegNum) (rb : RegNum) : Statement (.lfsx frt ra rb) :=
  (decode_of31 .power2 (w := formX 31 frt ra rb 535#10 0#1) (formX_op ..) (formX_xo ..)).trans
    (congrArg Decoded.instr (by simp))

theorem lfsux (frt : RegNum) (ra : RegNum) (rb : RegNum) : Statement (.lfsux frt ra rb) :=
  (decode_of31 .power2 (w := formX 31 frt ra rb 567#10 0#1) (formX_op ..) (formX_xo ..)).trans
    (congrArg Decoded.instr (by simp))

theorem lfd (frt : RegNum) (ra : RegNum) (d : BitVec 16) : Statement (.lfd frt ra d) :=
  (decode_of .power2 (w := formD 50 frt ra d) (formD_op ..)).trans
    (congrArg Decoded.instr (by simp))

theorem lfdu (frt : RegNum) (ra : RegNum) (d : BitVec 16) : Statement (.lfdu frt ra d) :=
  (decode_of .power2 (w := formD 51 frt ra d) (formD_op ..)).trans
    (congrArg Decoded.instr (by simp))

theorem lfdx (frt : RegNum) (ra : RegNum) (rb : RegNum) : Statement (.lfdx frt ra rb) :=
  (decode_of31 .power2 (w := formX 31 frt ra rb 599#10 0#1) (formX_op ..) (formX_xo ..)).trans
    (congrArg Decoded.instr (by simp))

theorem lfdux (frt : RegNum) (ra : RegNum) (rb : RegNum) : Statement (.lfdux frt ra rb) :=
  (decode_of31 .power2 (w := formX 31 frt ra rb 631#10 0#1) (formX_op ..) (formX_xo ..)).trans
    (congrArg Decoded.instr (by simp))

theorem stfs (frs : RegNum) (ra : RegNum) (d : BitVec 16) : Statement (.stfs frs ra d) :=
  (decode_of .power2 (w := formD 52 frs ra d) (formD_op ..)).trans
    (congrArg Decoded.instr (by simp))

theorem stfsu (frs : RegNum) (ra : RegNum) (d : BitVec 16) : Statement (.stfsu frs ra d) :=
  (decode_of .power2 (w := formD 53 frs ra d) (formD_op ..)).trans
    (congrArg Decoded.instr (by simp))

theorem stfsx (frs : RegNum) (ra : RegNum) (rb : RegNum) : Statement (.stfsx frs ra rb) :=
  (decode_of31 .power2 (w := formX 31 frs ra rb 663#10 0#1) (formX_op ..) (formX_xo ..)).trans
    (congrArg Decoded.instr (by simp))

theorem stfsux (frs : RegNum) (ra : RegNum) (rb : RegNum) : Statement (.stfsux frs ra rb) :=
  (decode_of31 .power2 (w := formX 31 frs ra rb 695#10 0#1) (formX_op ..) (formX_xo ..)).trans
    (congrArg Decoded.instr (by simp))

theorem stfd (frs : RegNum) (ra : RegNum) (d : BitVec 16) : Statement (.stfd frs ra d) :=
  (decode_of .power2 (w := formD 54 frs ra d) (formD_op ..)).trans
    (congrArg Decoded.instr (by simp))

theorem stfdu (frs : RegNum) (ra : RegNum) (d : BitVec 16) : Statement (.stfdu frs ra d) :=
  (decode_of .power2 (w := formD 55 frs ra d) (formD_op ..)).trans
    (congrArg Decoded.instr (by simp))

theorem stfdx (frs : RegNum) (ra : RegNum) (rb : RegNum) : Statement (.stfdx frs ra rb) :=
  (decode_of31 .power2 (w := formX 31 frs ra rb 727#10 0#1) (formX_op ..) (formX_xo ..)).trans
    (congrArg Decoded.instr (by simp))

theorem stfdux (frs : RegNum) (ra : RegNum) (rb : RegNum) : Statement (.stfdux frs ra rb) :=
  (decode_of31 .power2 (w := formX 31 frs ra rb 759#10 0#1) (formX_op ..) (formX_xo ..)).trans
    (congrArg Decoded.instr (by simp))

theorem lfq (frt : RegNum) (ra : RegNum) (ds : BitVec 14) : Statement (.lfq frt ra ds) :=
  (decode_of .power2 (w := formDS 56 frt ra ds 0#2) (formDS_op ..)).trans
    (by simp [decodeOp, p2])

theorem lfqu (frt : RegNum) (ra : RegNum) (ds : BitVec 14) : Statement (.lfqu frt ra ds) :=
  (decode_of .power2 (w := formDS 57 frt ra ds 0#2) (formDS_op ..)).trans
    (by simp [decodeOp, p2])

theorem lfqx (frt : RegNum) (ra : RegNum) (rb : RegNum) : Statement (.lfqx frt ra rb) :=
  (decode_of31 .power2 (w := formX 31 frt ra rb 791#10 0#1) (formX_op ..) (formX_xo ..)).trans
    (congrArg Decoded.instr (by simp))

theorem lfqux (frt : RegNum) (ra : RegNum) (rb : RegNum) : Statement (.lfqux frt ra rb) :=
  (decode_of31 .power2 (w := formX 31 frt ra rb 823#10 0#1) (formX_op ..) (formX_xo ..)).trans
    (congrArg Decoded.instr (by simp))

theorem stfq (frs : RegNum) (ra : RegNum) (ds : BitVec 14) : Statement (.stfq frs ra ds) :=
  (decode_of .power2 (w := formDS 60 frs ra ds 0#2) (formDS_op ..)).trans
    (by simp [decodeOp, p2])

theorem stfqu (frs : RegNum) (ra : RegNum) (ds : BitVec 14) : Statement (.stfqu frs ra ds) :=
  (decode_of .power2 (w := formDS 61 frs ra ds 0#2) (formDS_op ..)).trans
    (by simp [decodeOp, p2])

theorem stfqx (frs : RegNum) (ra : RegNum) (rb : RegNum) : Statement (.stfqx frs ra rb) :=
  (decode_of31 .power2 (w := formX 31 frs ra rb 919#10 0#1) (formX_op ..) (formX_xo ..)).trans
    (congrArg Decoded.instr (by simp))

theorem stfqux (frs : RegNum) (ra : RegNum) (rb : RegNum) : Statement (.stfqux frs ra rb) :=
  (decode_of31 .power2 (w := formX 31 frs ra rb 951#10 0#1) (formX_op ..) (formX_xo ..)).trans
    (congrArg Decoded.instr (by simp))

theorem fmr (frt : RegNum) (frb : RegNum) (rc : Bool) : Statement (.fmr frt frb rc) :=
  (decode_of63x .power2 (w := formX 63 frt 0#5 frb 72#10 (flag rc)) (formX_op ..) (formX_low ..) (formX_xo ..) rfl).trans
    (congrArg Decoded.instr (by simp))

theorem fneg (frt : RegNum) (frb : RegNum) (rc : Bool) : Statement (.fneg frt frb rc) :=
  (decode_of63x .power2 (w := formX 63 frt 0#5 frb 40#10 (flag rc)) (formX_op ..) (formX_low ..) (formX_xo ..) rfl).trans
    (congrArg Decoded.instr (by simp))

theorem fabs (frt : RegNum) (frb : RegNum) (rc : Bool) : Statement (.fabs frt frb rc) :=
  (decode_of63x .power2 (w := formX 63 frt 0#5 frb 264#10 (flag rc)) (formX_op ..) (formX_low ..) (formX_xo ..) rfl).trans
    (congrArg Decoded.instr (by simp))

theorem fnabs (frt : RegNum) (frb : RegNum) (rc : Bool) : Statement (.fnabs frt frb rc) :=
  (decode_of63x .power2 (w := formX 63 frt 0#5 frb 136#10 (flag rc)) (formX_op ..) (formX_low ..) (formX_xo ..) rfl).trans
    (congrArg Decoded.instr (by simp))

theorem fa (frt : RegNum) (fra : RegNum) (frb : RegNum) (rc : Bool) : Statement (.fa frt fra frb rc) :=
  (decode_of63 .power2 (w := formA 63 frt fra frb 0#5 21#5 (flag rc)) (formA_op ..) (formA_e ..)).trans
    (congrArg Decoded.instr (by simp))

theorem fs (frt : RegNum) (fra : RegNum) (frb : RegNum) (rc : Bool) : Statement (.fs frt fra frb rc) :=
  (decode_of63 .power2 (w := formA 63 frt fra frb 0#5 20#5 (flag rc)) (formA_op ..) (formA_e ..)).trans
    (congrArg Decoded.instr (by simp))

theorem fm (frt : RegNum) (fra : RegNum) (frc : RegNum) (rc : Bool) : Statement (.fm frt fra frc rc) :=
  (decode_of63 .power2 (w := formA 63 frt fra 0#5 frc 25#5 (flag rc)) (formA_op ..) (formA_e ..)).trans
    (congrArg Decoded.instr (by simp))

theorem fd (frt : RegNum) (fra : RegNum) (frb : RegNum) (rc : Bool) : Statement (.fd frt fra frb rc) :=
  (decode_of63 .power2 (w := formA 63 frt fra frb 0#5 18#5 (flag rc)) (formA_op ..) (formA_e ..)).trans
    (congrArg Decoded.instr (by simp))

theorem fma (frt : RegNum) (fra : RegNum) (frb : RegNum) (frc : RegNum) (rc : Bool) :
    Statement (.fma frt fra frb frc rc) :=
  (decode_of63 .power2 (w := formA 63 frt fra frb frc 29#5 (flag rc)) (formA_op ..) (formA_e ..)).trans
    (congrArg Decoded.instr (by simp))

theorem fms (frt : RegNum) (fra : RegNum) (frb : RegNum) (frc : RegNum) (rc : Bool) :
    Statement (.fms frt fra frb frc rc) :=
  (decode_of63 .power2 (w := formA 63 frt fra frb frc 28#5 (flag rc)) (formA_op ..) (formA_e ..)).trans
    (congrArg Decoded.instr (by simp))

theorem fnma (frt : RegNum) (fra : RegNum) (frb : RegNum) (frc : RegNum) (rc : Bool) :
    Statement (.fnma frt fra frb frc rc) :=
  (decode_of63 .power2 (w := formA 63 frt fra frb frc 31#5 (flag rc)) (formA_op ..) (formA_e ..)).trans
    (congrArg Decoded.instr (by simp))

theorem fnms (frt : RegNum) (fra : RegNum) (frb : RegNum) (frc : RegNum) (rc : Bool) :
    Statement (.fnms frt fra frb frc rc) :=
  (decode_of63 .power2 (w := formA 63 frt fra frb frc 30#5 (flag rc)) (formA_op ..) (formA_e ..)).trans
    (congrArg Decoded.instr (by simp))

theorem frsp (frt : RegNum) (frb : RegNum) (rc : Bool) : Statement (.frsp frt frb rc) :=
  (decode_of63x .power2 (w := formX 63 frt 0#5 frb 12#10 (flag rc)) (formX_op ..) (formX_low ..) (formX_xo ..) rfl).trans
    (congrArg Decoded.instr (by simp))

theorem fcir (frt : RegNum) (frb : RegNum) (rc : Bool) : Statement (.fcir frt frb rc) :=
  (decode_of63x .power2 (w := formX 63 frt 0#5 frb 14#10 (flag rc)) (formX_op ..) (formX_low ..) (formX_xo ..) rfl).trans
    (congrArg Decoded.instr (by simp))

theorem fcirz (frt : RegNum) (frb : RegNum) (rc : Bool) : Statement (.fcirz frt frb rc) :=
  (decode_of63x .power2 (w := formX 63 frt 0#5 frb 15#10 (flag rc)) (formX_op ..) (formX_low ..) (formX_xo ..) rfl).trans
    (congrArg Decoded.instr (by simp))

theorem fsqrt (frt : RegNum) (frb : RegNum) (rc : Bool) : Statement (.fsqrt frt frb rc) :=
  (decode_of63 .power2 (w := formA 63 frt 0#5 frb 0#5 22#5 (flag rc)) (formA_op ..) (formA_e ..)).trans
    (congrArg Decoded.instr (by simp))

theorem fcmpu (bf : CrField) (fra : RegNum) (frb : RegNum) : Statement (.fcmpu bf fra frb) :=
  (decode_of63x .power2 (w := formX 63 (bf ++ 0#2) fra frb 0#10 0#1) (formX_op ..) (formX_low ..) (formX_xo ..) rfl).trans
    (congrArg Decoded.instr (by simp))

theorem fcmpo (bf : CrField) (fra : RegNum) (frb : RegNum) : Statement (.fcmpo bf fra frb) :=
  (decode_of63x .power2 (w := formX 63 (bf ++ 0#2) fra frb 32#10 0#1) (formX_op ..) (formX_low ..) (formX_xo ..) rfl).trans
    (congrArg Decoded.instr (by simp))

theorem mffs (frt : RegNum) (rc : Bool) : Statement (.mffs frt rc) :=
  (decode_of63x .power2 (w := formX 63 frt 0#5 0#5 583#10 (flag rc)) (formX_op ..) (formX_low ..) (formX_xo ..) rfl).trans
    (congrArg Decoded.instr (by simp))

theorem mcrfs (bf : CrField) (bfa : CrField) : Statement (.mcrfs bf bfa) :=
  (decode_of63x .power2 (w := formX 63 (bf ++ 0#2) (bfa ++ 0#2) 0#5 64#10 0#1) (formX_op ..) (formX_low ..) (formX_xo ..) rfl).trans
    (congrArg Decoded.instr (by simp))

theorem mtfsf (flm : BitVec 8) (frb : RegNum) (rc : Bool) : Statement (.mtfsf flm frb rc) :=
  (decode_of63x .power2 (w := formX 63 (0#1 ++ flm.extractLsb' 4 4) (flm.extractLsb' 0 4 ++ 0#1) frb 711#10 (flag rc)) (formX_op ..) (formX_low ..) (formX_xo ..) rfl).trans
    (congrArg Decoded.instr (by simp))

theorem mtfsfi (bf : CrField) (i : BitVec 4) (rc : Bool) : Statement (.mtfsfi bf i rc) :=
  (decode_of63x .power2 (w := formX 63 (bf ++ 0#2) 0#5 (i ++ 0#1) 134#10 (flag rc)) (formX_op ..) (formX_low ..) (formX_xo ..) rfl).trans
    (congrArg Decoded.instr (by simp))

theorem mtfsb0 (bt : BitVec 5) (rc : Bool) : Statement (.mtfsb0 bt rc) :=
  (decode_of63x .power2 (w := formX 63 bt 0#5 0#5 70#10 (flag rc)) (formX_op ..) (formX_low ..) (formX_xo ..) rfl).trans
    (congrArg Decoded.instr (by simp))

theorem mtfsb1 (bt : BitVec 5) (rc : Bool) : Statement (.mtfsb1 bt rc) :=
  (decode_of63x .power2 (w := formX 63 bt 0#5 0#5 38#10 (flag rc)) (formX_op ..) (formX_low ..) (formX_xo ..) rfl).trans
    (congrArg Decoded.instr (by simp))

theorem dcs : Statement .dcs :=
  (decode_of31 .power2 (w := formX 31 0#5 0#5 0#5 598#10 0#1) (formX_op ..) (formX_xo ..)).trans
    (congrArg Decoded.instr (by simp))

theorem ics : Statement .ics :=
  (decode_of19 .power2 (w := formX 19 0#5 0#5 0#5 150#10 0#1) (formX_op ..) (formX_xo ..)).trans
    (congrArg Decoded.instr (by simp))

theorem clf (ra : RegNum) (rb : RegNum) : Statement (.clf ra rb) :=
  (decode_of31 .power2 (w := formX 31 0#5 ra rb 118#10 0#1) (formX_op ..) (formX_xo ..)).trans
    (congrArg Decoded.instr (by simp))

theorem cli (ra : RegNum) (rb : RegNum) : Statement (.cli ra rb) :=
  (decode_of31 .power2 (w := formX 31 0#5 ra rb 502#10 0#1) (formX_op ..) (formX_xo ..)).trans
    (congrArg Decoded.instr (by simp))

theorem dclst (ra : RegNum) (rb : RegNum) : Statement (.dclst ra rb) :=
  (decode_of31 .power2 (w := formX 31 0#5 ra rb 630#10 0#1) (formX_op ..) (formX_xo ..)).trans
    (congrArg Decoded.instr (by simp))

theorem dclz (ra : RegNum) (rb : RegNum) : Statement (.dclz ra rb) :=
  (decode_of31 .power2 (w := formX 31 0#5 ra rb 1014#10 0#1) (formX_op ..) (formX_xo ..)).trans
    (congrArg Decoded.instr (by simp))

theorem mtsr (rs : RegNum) (sr : BitVec 4) : Statement (.mtsr rs sr) :=
  (decode_of31 .power2 (w := formX 31 rs (0#1 ++ sr) 0#5 210#10 0#1) (formX_op ..) (formX_xo ..)).trans
    (congrArg Decoded.instr (by simp))

theorem mtsri (rs : RegNum) (ra : RegNum) (rb : RegNum) : Statement (.mtsri rs ra rb) :=
  (decode_of31 .power2 (w := formX 31 rs ra rb 242#10 0#1) (formX_op ..) (formX_xo ..)).trans
    (congrArg Decoded.instr (by simp))

theorem mfsr (rt : RegNum) (sr : BitVec 4) : Statement (.mfsr rt sr) :=
  (decode_of31 .power2 (w := formX 31 rt (0#1 ++ sr) 0#5 595#10 0#1) (formX_op ..) (formX_xo ..)).trans
    (congrArg Decoded.instr (by simp))

theorem mfsri (rs : RegNum) (ra : RegNum) (rb : RegNum) : Statement (.mfsri rs ra rb) :=
  (decode_of31 .power2 (w := formX 31 rs ra rb 627#10 0#1) (formX_op ..) (formX_xo ..)).trans
    (congrArg Decoded.instr (by simp))

theorem clcs (rt : RegNum) (ra : RegNum) : Statement (.clcs rt ra) :=
  (decode_of31 .power2 (w := formX 31 rt ra 0#5 531#10 0#1) (formX_op ..) (formX_xo ..)).trans
    (congrArg Decoded.instr (by simp))

theorem tlbi (ra : RegNum) (rb : RegNum) : Statement (.tlbi ra rb) :=
  (decode_of31 .power2 (w := formX 31 0#5 ra rb 306#10 0#1) (formX_op ..) (formX_xo ..)).trans
    (congrArg Decoded.instr (by simp))

theorem rac (rt : RegNum) (ra : RegNum) (rb : RegNum) (rc : Bool) : Statement (.rac rt ra rb rc) :=
  (decode_of31 .power2 (w := formX 31 rt ra rb 818#10 (flag rc)) (formX_op ..) (formX_xo ..)).trans
    (congrArg Decoded.instr (by simp))

end Sys2Proof.Laws.Encoding
end

