-- ==== Sys2Proof/Laws/Translate.lean ====
section
/-!
SUPPORT. Address translation and instruction fetch, said once for each of their operations (20_memory R109, 21_translation
R163 to R210): what a look-up answers, what recording a reference or a change does to the table and the TLB, where a
translation ends, an aligned access through it, and the word that a fetch finds.
-/

namespace Sys2Proof.Machine

/-! ### The TLB stays as it is under accesses to memory -/

theorem State.reload_tlb (s : State) (line : Nat) : (s.reload line).2.tlb = s.tlb := by
  unfold State.reload
  split <;> rfl

theorem State.finishLine_tlb (s : State) (line : Nat) : (s.finishLine line).tlb = s.tlb := by
  obtain ⟨m, b, h⟩ := s.finishLine_rest line
  rw [h]

theorem State.touchLine_tlb (s : State) (line : Nat) : (s.touchLine line).2.tlb = s.tlb := by
  have h := s.finishLine_tlb line
  unfold State.touchLine
  generalize s.finishLine line = s1 at h
  simp only
  cases s1.dataLine line with
  | some d => exact h
  | none => exact (s1.reload_tlb line).trans h

theorem State.loadReal_tlb (s : State) (ra : Word) : (s.loadReal ra).2.tlb = s.tlb := s.touchLine_tlb (s.lineOf ra)

theorem State.storeReal_tlb (s : State) (ra : Word) (v : Byte) : (s.storeReal ra v).tlb = s.tlb := by
  unfold State.storeReal
  split
  · exact s.finishLine_tlb (s.lineOf ra)
  · exact s.touchLine_tlb (s.lineOf ra)

theorem State.loadRealBytes_tlb (n : Nat) (ra : Word) (s : State) : (State.loadRealBytes n ra s).2.tlb = s.tlb := by
  induction n generalizing ra s with
  | zero => rfl
  | succ n ih => exact (ih (ra + 1) (s.loadReal ra).2).trans (s.loadReal_tlb ra)

theorem State.storeRealBytes_tlb (l : List Byte) (ra : Word) (s : State) : (State.storeRealBytes l ra s).tlb = s.tlb := by
  induction l generalizing ra s with
  | nil => rfl
  | cons v l ih => exact (ih (ra + 1) (s.storeReal ra v)).trans (s.storeReal_tlb ra v)

theorem State.realReadWord_tlb (s : State) (ra : Word) : (s.realReadWord ra).2.tlb = s.tlb := by
  have h := State.loadRealBytes_tlb 4 ra s
  unfold State.realReadWord
  generalize State.loadRealBytes 4 ra s = x at h
  exact h

theorem State.realWriteWord_tlb (s : State) (ra v : Word) : (s.realWriteWord ra v).tlb = s.tlb := by
  unfold State.realWriteWord
  exact State.storeRealBytes_tlb (toBytes 4 v) ra s

/-! ### Look-up (R163, R173, R182, R200) -/

/-- What a chain of the POWER tables answers is an entry of the page. -/
theorem searchChain_key {sid : BitVec 24} {vpi : BitVec 16} {fuel : Nat} {next : BitVec 20} {s : State} {e : TlbEntry}
    (h : (searchChain sid vpi fuel next s).1 = .entry e) : e.sid = sid ∧ e.vpi = vpi := by
  induction fuel generalizing next s with
  | zero => cases h
  | succ fuel ih =>
    unfold searchChain at h
    simp only at h
    split at h
    · simp only [Found.entry.injEq] at h
      rw [← h]
      exact ⟨rfl, rfl⟩
    · split at h
      · cases h
      · exact ih h

/-- What a group of the POWER2 table answers is an entry of the page. -/
theorem searchGroup_key {sid : BitVec 24} {vpi : BitVec 16} {b : Bool} {fuel : Nat} {addr : Word} {s : State} {e : TlbEntry}
    (h : (searchGroup sid vpi b fuel addr s).1 = some e) : e.sid = sid ∧ e.vpi = vpi := by
  induction fuel generalizing addr s with
  | zero => cases h
  | succ fuel ih =>
    unfold searchGroup at h
    simp only at h
    split at h
    · simp only [Option.some.injEq] at h
      rw [← h]
      exact ⟨rfl, rfl⟩
    · exact ih h

theorem searchPower_key {sid : BitVec 24} {vpi : BitVec 16} {s : State} {e : TlbEntry}
    (h : (searchPower sid vpi s).1 = .entry e) : e.sid = sid ∧ e.vpi = vpi := by
  unfold searchPower at h
  simp only at h
  split at h
  · cases h
  · exact searchChain_key h

theorem searchPower2_key {sid : BitVec 24} {vpi : BitVec 16} {s : State} {e : TlbEntry}
    (h : (searchPower2 sid vpi s).1 = .entry e) : e.sid = sid ∧ e.vpi = vpi := by
  unfold searchPower2 at h
  split at h
  · next x s1 heq =>
    cases h
    exact searchGroup_key (congrArg Prod.fst heq)
  · split at h
    · next x s2 heq =>
      cases h
      exact searchGroup_key (congrArg Prod.fst heq)
    · cases h

theorem searchTables_key {sid : BitVec 24} {vpi : BitVec 16} {s : State} {e : TlbEntry}
    (h : (searchTables sid vpi s).1 = .entry e) : e.sid = sid ∧ e.vpi = vpi := by
  unfold searchTables at h
  split at h
  · exact searchPower_key h
  · exact searchPower2_key h

theorem State.mem_addTlb (s : State) (e : TlbEntry) : e ∈ (s.addTlb e).tlb := by
  unfold State.addTlb
  split
  · assumption
  · exact List.mem_cons_self

/-- An entry that a walk finds is the page's, and is in the TLB then. -/
theorem walkTables_entry {sid : BitVec 24} {vpi : BitVec 16} {s : State} {e : TlbEntry}
    (h : (walkTables sid vpi s).1 = .entry e) : (e.sid = sid ∧ e.vpi = vpi) ∧ e ∈ (walkTables sid vpi s).2.tlb := by
  unfold walkTables at h ⊢
  rcases hs : searchTables sid vpi s with ⟨r, s1⟩
  rw [hs] at h
  cases r with
  | entry x =>
    cases h
    exact ⟨searchTables_key (congrArg Prod.fst hs), s1.mem_addTlb e⟩
  | notFound => cases h
  | loop => cases h

theorem State.mem_tlbCopies {s : State} {sid : BitVec 24} {vpi : BitVec 16} {e : TlbEntry} :
    e ∈ s.tlbCopies sid vpi ↔ e ∈ s.tlb ∧ e.sid = sid ∧ e.vpi = vpi := by
  simp [State.tlbCopies]

/-- An entry that a look-up answers is the page's, and is in the TLB then. -/
theorem lookupPage_entry {sid : BitVec 24} {vpi : BitVec 16} {s : State} {e : TlbEntry}
    (h : (lookupPage sid vpi s).1 = .entry e) : (e.sid = sid ∧ e.vpi = vpi) ∧ e ∈ (lookupPage sid vpi s).2.tlb := by
  obtain ⟨-, hl⟩ | ⟨-, ⟨x, hx, hl⟩ | hl⟩ := lookupPage_cases sid vpi s
  · rw [hl] at h ⊢; exact walkTables_entry h
  · rw [hl] at h ⊢
    cases h
    have := State.mem_tlbCopies.1 hx
    exact ⟨this.2, this.1⟩
  · rw [hl] at h ⊢; exact walkTables_entry h

/-! ### Recording (R207, R208) -/

/-- Nothing is recorded that the entry has already. -/
theorem State.recordBits_done {s : State} {e : TlbEntry} {f c : Bool} (hf : f = true → e.f = true) (hc : c = true → e.c = true) :
    s.recordBits e f c = (e, s) := by
  unfold State.recordBits
  rw [if_neg]
  cases f <;> cases c <;> simp_all

theorem State.replaceTlb_tlb (s : State) (e e1 : TlbEntry) :
    (s.replaceTlb e e1).tlb = s.tlb.map fun x => if x = e then e1 else x := rfl

/-- What is recorded stands in the copy that was used, and in no other. -/
theorem State.recordBits_tlb (s : State) (e : TlbEntry) (f c : Bool) :
    (s.recordBits e f c).2.tlb = s.tlb.map fun x => if x = e then { e with f := e.f || f, c := e.c || c } else x := by
  unfold State.recordBits
  split
  · have h1 := State.realReadWord_tlb s e.word
    rcases hw : s.realReadWord e.word with ⟨w, s1⟩
    rw [hw] at h1
    simp only [State.replaceTlb_tlb]
    rw [State.realWriteWord_tlb, h1]
  · next hn =>
    have he : ({ e with f := e.f || f, c := e.c || c } : TlbEntry) = e := by
      cases e with
      | mk _ _ _ _ ef ec _ _ _ =>
        revert hn
        cases ef <;> cases ec <;> cases f <;> cases c <;> simp
    rw [he]
    refine Eq.trans (List.map_id s.tlb).symm (List.map_congr_left fun x _ => ?_)
    split
    · next hx => exact hx
    · rfl

/-- The word that recording adds to the table word. -/
def recordMask (e : TlbEntry) (f c : Bool) : Word :=
  (if f && !e.f then bitMask refBit else 0) ||| (if c && !e.c then bitMask changeBit else 0)

/-- The bytes of a word, as an access and as statements have them. -/
theorem toBytes_word (v : Word) : toBytes 4 v = wordBytes v := by
  have sub (i j : Nat) (h : j + 8 ≤ 16) : (v.extractLsb' i 16).extractLsb' j 8 = v.extractLsb' (i + j) 8 := by
    apply BitVec.eq_of_getLsbD_eq
    intro k hk
    simp [show k < 8 from hk, show j + k < 16 by omega, Nat.add_assoc]
  rw [toBytes_four]
  unfold wordBytes halfBytes
  rw [sub 16 8 (by omega), sub 16 0 (by omega), sub 0 8 (by omega), sub 0 0 (by omega)]
  rfl

theorem State.Moved.replaceTlb {s t : State} (h : s.Moved t) (e e1 : TlbEntry) : s.Moved (t.replaceTlb e e1) :=
  ⟨h.storage.trans rfl, h.wf, h.lines⟩

theorem State.Stored.replaceTlb {s t : State} {a : Word} {l : List Byte} (h : s.Stored t a l) (e e1 : TlbEntry) :
    s.Stored (t.replaceTlb e e1) a l := ⟨h.stored, h.others⟩

/-- Loads found the same before a store. -/
theorem State.Stored.after {s t u : State} {a : Word} {l : List Byte} (h : t.Stored u a l) (sm : s.SameMemory t) :
    s.Stored u a l := ⟨h.stored, fun b hb => (h.others b hb).trans (sm b)⟩

/-- Recording sets the bits in the table word, where it is memory, and changes no other byte. -/
theorem State.recordBits_stored {s : State} {e : TlbEntry} {f c : Bool} (h : Memory.wf s.mem = true)
    (hn : recordMask e f c ≠ 0) (hr : s.Readable e.word 4) (hrom : s.NoRom e.word 4) :
    s.Moved (s.recordBits e f c).2 ∧ s.Stored (s.recordBits e f c).2 e.word (wordBytes (s.wordAt e.word ||| recordMask e f c)) := by
  obtain ⟨v, mv, sm⟩ := State.loadRealBytes_spec 4 e.word h hr
  have hlen : (wordBytes (s.wordAt e.word ||| recordMask e f c)).length = 4 := rfl
  have hc : ((f && !e.f) || (c && !e.c)) = true := by
    revert hn
    unfold recordMask
    cases f && !e.f <;> cases c && !e.c <;> simp
  have hw : wordOfBytes (State.loadRealBytes 4 e.word s).1 = s.wordAt e.word := by rw [v]; exact loadZero_word s e.word
  unfold State.recordBits
  rw [if_pos hc]
  simp only [State.realReadWord, State.realWriteWord, hw]
  have hv : (if (c && !e.c) = true then (if (f && !e.f) = true then s.wordAt e.word ||| bitMask refBit else s.wordAt e.word)
        ||| bitMask changeBit
      else if (f && !e.f) = true then s.wordAt e.word ||| bitMask refBit else s.wordAt e.word)
      = s.wordAt e.word ||| recordMask e f c := by
    unfold recordMask
    cases f && !e.f <;> cases c && !e.c <;> simp [BitVec.or_assoc]
  rw [hv]
  rw [toBytes_word]
  generalize wordBytes (s.wordAt e.word ||| recordMask e f c) = l at *
  have hl : l.length = 4 := hlen
  obtain ⟨mv2, st⟩ := State.storeRealBytes_spec l e.word mv.wf (by omega) (by rw [hl]; exact hr.moved mv)
    (by rw [hl]; exact hrom.moved mv)
  exact ⟨(mv.trans mv2).replaceTlb _ _, (st.after sm).replaceTlb _ _⟩

/-! ### Translation (R163) -/

/-- Where a translation ends, for the entry that its look-up answers: the lock of a special segment is checked for data
alone (R210), then protection (R205). A lock that changes its words is left out. -/
theorem translate_entry {ea : Word} {data store : Bool} {s : State} {e : TlbEntry}
    (h : (lookupPage (bitsAt (s.segmentOf ea) 8 24) (bitsAt ea 4 16) s).1 = .entry e) :
    let u := (lookupPage (bitsAt (s.segmentOf ea) 8 24) (bitsAt ea 4 16) s).2
    let lock := Config.lockRule e.lock2 e.lock3 (u.tid &&& tidMask) (bitsAt ea 20 5) store
    ((data && bitAt (s.segmentOf ea) 2) = true → lock = .deny → translate ea data store s = (.fail .lock, u.failedAccess e))
    ∧ ((data && bitAt (s.segmentOf ea) 2) = false ∨ lock = .allow →
      translate ea data store s =
        if permitted (bitAt (s.segmentOf ea) 1) e.pp store then (.real (e.rpn ++ bitsAt ea 20 12), (u.recordBits e true store).2)
        else (.fail .protection, u.failedAccess e)) := by
  unfold translate
  simp only
  rcases hl : lookupPage (bitsAt (s.segmentOf ea) 8 24) (bitsAt ea 4 16) s with ⟨r, u⟩
  rw [hl] at h
  cases h
  simp only
  refine ⟨fun h1 h2 => ?_, fun h1 => ?_⟩
  · rw [if_pos h1]
    unfold lockCheck
    rw [h2]
  · have : (if (data && bitAt (s.segmentOf ea) 2) = true then lockCheck e ea store u else some (e, u)) = some (e, u) := by
      rcases h1 with h1 | h1
      · rw [h1]; rfl
      · split
        · unfold lockCheck; rw [h1]
        · rfl
    rw [this]

theorem translate_notFound {ea : Word} {data store : Bool} {s : State}
    (h : (lookupPage (bitsAt (s.segmentOf ea) 8 24) (bitsAt ea 4 16) s).1 = .notFound) :
    translate ea data store s = (.fail .notFound, (lookupPage (bitsAt (s.segmentOf ea) 8 24) (bitsAt ea 4 16) s).2) := by
  unfold translate
  simp only
  rcases hl : lookupPage (bitsAt (s.segmentOf ea) 8 24) (bitsAt ea 4 16) s with ⟨r, u⟩
  rw [hl] at h
  cases h
  rfl

theorem translate_loop {ea : Word} {data store : Bool} {s : State}
    (h : (lookupPage (bitsAt (s.segmentOf ea) 8 24) (bitsAt ea 4 16) s).1 = .loop) :
    translate ea data store s = (.fail .loop, (lookupPage (bitsAt (s.segmentOf ea) 8 24) (bitsAt ea 4 16) s).2) := by
  unfold translate
  simp only
  rcases hl : lookupPage (bitsAt (s.segmentOf ea) 8 24) (bitsAt ea 4 16) s with ⟨r, u⟩
  rw [hl] at h
  cases h
  rfl

/-- A failed access changes nothing but the number of the next free value when the reference bit is recorded already. -/
theorem State.failedAccess_done {s : State} {e : TlbEntry} (h : e.f = true) : s.failedAccess e = s.drawBit.2 := by
  unfold State.failedAccess
  simp only
  rw [State.recordBits_done (fun _ => h) (fun hc => by cases hc)]

/-! ### An aligned access (R108, R111) -/

theorem pieceSize_aligned {ea : Word} {n : Nat} (hd : n ∣ 128) (h : ea.toNat % n = 0) : pieceSize ea n = n := by
  obtain ⟨k, hk⟩ := hd
  have h1 : n ∣ ea.toNat % 128 := (Nat.dvd_mod_iff ⟨k, hk⟩).2 (Nat.dvd_of_mod_eq_zero h)
  have h2 : n ∣ 128 - ea.toNat % 128 := Nat.dvd_sub ⟨k, hk⟩ h1
  have h3 : ea.toNat % 128 < 128 := Nat.mod_lt _ (by decide)
  have := Nat.le_of_dvd (by omega) h2
  unfold pieceSize
  omega

/-- An aligned load is one piece. -/
theorem State.loadMem_aligned {s : State} {ea : Word} {n : Nat} (hn : 0 < n) (hd : n ∣ 128) (h : ea.toNat % n = 0) :
    s.loadMem ea n = match dataAddr ea false s with
      | (.fail c, s1) => .fail c ea [] s1
      | (.real ra, s1) => .ok (State.loadRealBytes n ra s1).1 (State.loadRealBytes n ra s1).2 := by
  obtain ⟨k, rfl⟩ : ∃ k, n = k + 1 := ⟨n - 1, by omega⟩
  unfold State.loadMem loadPieces
  rw [if_neg (by omega)]
  rcases dataAddr ea false s with ⟨r, s1⟩
  cases r with
  | fail c => rfl
  | real ra =>
    simp only [pieceSize_aligned hd h, Nat.sub_self, List.nil_append]
    cases k <;> simp [loadPieces]

/-- An aligned store is one piece. -/
theorem State.storeMem_aligned {s : State} {ea : Word} {l : List Byte} (hn : 0 < l.length) (hd : l.length ∣ 128)
    (h : ea.toNat % l.length = 0) :
    s.storeMem ea l = match dataAddr ea true s with
      | (.fail c, s1) => .fail c ea [] s1
      | (.real ra, s1) => .ok [] (State.storeRealBytes l ra s1) := by
  obtain ⟨k, hk⟩ : ∃ k, l.length = k + 1 := ⟨l.length - 1, by omega⟩
  have hne : l ≠ [] := List.length_pos_iff.1 hn
  have hp := pieceSize_aligned hd h
  unfold State.storeMem
  rw [hk] at hp ⊢
  unfold storePieces
  rw [if_neg hne]
  rcases dataAddr ea true s with ⟨r, s1⟩
  cases r with
  | fail c => rfl
  | real ra =>
    have ht : l.take (k + 1) = l := List.take_of_length_le (by omega)
    have hdr : l.drop (k + 1) = [] := List.drop_eq_nil_of_le (by omega)
    simp only [hk, hp, ht, hdr]
    cases k <;> simp [storePieces]

/-! ### Instruction fetch (R109, R133) -/

/-- Lines of the instruction cache of `t` are those of `s`, or memory's own where `s` has none; nothing else differs. -/
structure State.Refilled (s t : State) : Prop where
  rest : t = { s with ic := t.ic }
  lines : ∀ line, t.instrLine line = s.instrLine line
    ∨ (s.instrLine line = none ∧ t.instrLine line = some ⟨line, s.memBytes (s.lineBase line) s.lineSize⟩)

theorem State.Refilled.refl (s : State) : s.Refilled s := ⟨rfl, fun _ => .inl rfl⟩

theorem State.memBytes_line (s : State) (a : Nat) :
    (s.memBytes (s.lineBase (a / s.lineSize)) s.lineSize).getD (a % s.lineSize) 0 = s.memByte a := by
  have hlt : a % s.lineSize < s.lineSize := Nat.mod_lt _ s.lineSize_pos
  have := Nat.div_add_mod' a s.lineSize
  unfold State.memBytes State.lineBase
  rw [List.getD_eq_getElem?_getD, List.getElem?_map, List.getElem?_range hlt]
  exact congrArg s.memByte this

/-- A byte whose line the instruction cache does not have, and which is wholly memory and ROM, comes from memory. -/
theorem State.fetchByte_refilled {s t : State} (h : s.Refilled t) {ra : Word} (hn : s.instrLine (s.lineOf ra) = none)
    (hb : s.lineBacked (s.lineOf ra) = true) : ∃ u, t.fetchByte ra = some (s.memByte ra.toNat, u) ∧ s.Refilled u := by
  have hcfg : t.cfg = s.cfg := by rw [h.rest]
  have hline : t.lineOf ra = s.lineOf ra := State.lineOf_congr hcfg ra
  have hmem : ∀ a, t.memByte a = s.memByte a := fun a => by rw [h.rest]; rfl
  have hsz : t.lineSize = s.lineSize := by unfold State.lineSize; rw [hcfg]
  unfold State.fetchByte
  rw [hline]
  rcases h.lines (s.lineOf ra) with e | ⟨-, e⟩
  · rw [e, hn]
    have hbt : t.lineBacked (s.lineOf ra) = true := (State.lineBacked_congr hcfg _).trans hb
    have hbytes : t.memBytes (t.lineBase (s.lineOf ra)) t.lineSize = s.memBytes (s.lineBase (s.lineOf ra)) s.lineSize := by
      unfold State.memBytes State.lineBase
      simp only [hsz, hmem]
    simp only [State.fillInstr, hbt, if_true]
    refine ⟨_, congrArg (fun b => some (b, _)) (hmem ra.toNat), by rw [h.rest], fun line => ?_⟩
    rw [hbytes]
    by_cases hl : line = s.lineOf ra
    · subst hl
      refine .inr ⟨hn, ?_⟩
      simp [State.instrLine]
    · have hl' : (s.lineOf ra == line) = false := beq_eq_false_iff_ne.2 (Ne.symm hl)
      rcases h.lines line with e | e
      · refine .inl (Eq.trans ?_ e)
        simp [State.instrLine, List.find?, hl']
      · refine .inr ⟨e.1, Eq.trans ?_ e.2⟩
        simp [State.instrLine, List.find?, hl']
  · rw [e]
    refine ⟨t, ?_, h⟩
    rw [State.lineOff_congr hcfg]
    exact congrArg (fun b => some (b, t)) (s.memBytes_line ra.toNat)

/-- Bytes that the instruction cache does not have come from memory. -/
theorem State.fetchBytes_refilled (n : Nat) (ra : Word) {s t : State} (h : s.Refilled t)
    (hl : ∀ k, k < n → s.instrLine (s.lineOf (ra + BitVec.ofNat 32 k)) = none
      ∧ s.lineBacked (s.lineOf (ra + BitVec.ofNat 32 k)) = true) :
    ∃ u, State.fetchBytes n ra t = some ((List.range n).map fun k => s.memByte (ra + BitVec.ofNat 32 k).toNat, u)
      ∧ s.Refilled u := by
  induction n generalizing ra t with
  | zero => exact ⟨t, rfl, h⟩
  | succ n ih =>
    have h0 := hl 0 (by omega)
    rw [ofNat_zero_add] at h0
    obtain ⟨u, e, hu⟩ := State.fetchByte_refilled h h0.1 h0.2
    obtain ⟨v, e2, hv⟩ := ih (ra + 1) hu fun k hk => by rw [one_add_ofNat]; exact hl (k + 1) (by omega)
    refine ⟨v, ?_, hv⟩
    unfold State.fetchBytes
    rw [e]
    simp only [e2, List.range_succ_eq_map, List.map_cons, List.map_map, ofNat_zero_add]
    congr 3
    exact List.map_congr_left fun k _ => by simp only [Function.comp, one_add_ofNat]

/-- A word that the instruction cache does not have comes from memory; nothing but the instruction cache changes. -/
theorem fetchReal_memory {s : State} {ra : Word} (ha : ra.toNat % 4 = 0)
    (hl : ∀ k, k < 4 → s.instrLine (s.lineOf (ra + BitVec.ofNat 32 k)) = none
      ∧ s.lineBacked (s.lineOf (ra + BitVec.ofNat 32 k)) = true) :
    ∃ l, fetchReal ra s = .word ((s.memByte ra.toNat ++ s.memByte (ra.toNat + 1))
      ++ (s.memByte (ra.toNat + 2) ++ s.memByte (ra.toNat + 3))) { s with ic := l } := by
  obtain ⟨u, e, hu⟩ := State.fetchBytes_refilled 4 ra (State.Refilled.refl s) hl
  refine ⟨u.ic, ?_⟩
  have hk : ∀ k, k < 4 → (ra + BitVec.ofNat 32 k).toNat = ra.toNat + k := by
    intro k hk
    rw [BitVec.toNat_add, BitVec.toNat_ofNat]
    have := ra.isLt
    omega
  have hm : ((List.range 4).map fun k => s.memByte (ra + BitVec.ofNat 32 k).toNat)
      = [s.memByte ra.toNat, s.memByte (ra.toNat + 1), s.memByte (ra.toNat + 2), s.memByte (ra.toNat + 3)] := by
    simp only [List.range_succ, List.range_zero, List.map_nil, List.map_cons, List.nil_append,
      List.cons_append, hk 0 (by decide), hk 1 (by decide), hk 2 (by decide), hk 3 (by decide), Nat.add_zero]
  unfold fetchReal
  rw [e, hm]
  simp only [word_of_four]
  rw [← hu.rest]

end Sys2Proof.Machine
end

