-- ==== Sys2Proof/Machine/Platform.lean ====
section
/-!
DEFINITION. What stands around the machine: the Vital Product Data that boards carry and how a Micro Channel adapter
presents them (65_vpd_iplrom R971, R975, R976, R978), and the state in which the IPL ROM hands the machine to the code it
loaded (R996). No step calls these: adapters are devices of the host (R831), and the ROM is a program (R980).
-/

namespace Sys2Proof.Machine

/-! ### Keyword descriptors (R971) -/

/-- One keyword descriptor: the two characters of its mnemonic and its data. -/
structure Descriptor where
  first : Byte
  second : Byte
  data : List Byte
  deriving DecidableEq, Repr

/-- The bytes of a descriptor: an asterisk, the mnemonic, the length in 2-byte words with the header, the data. -/
def Descriptor.bytes (d : Descriptor) : List Byte :=
  [0x2A, d.first, d.second, BitVec.ofNat 8 ((d.data.length + 4) / 2)] ++ d.data

/-- The descriptors that a list of bytes holds one after the other, at most `fuel` of them; `none` where the bytes are no
descriptors. -/
def descriptors : Nat → List Byte → Option (List Descriptor)
  | _, [] => some []
  | fuel + 1, a :: k1 :: k2 :: n :: l =>
    if a = 0x2A ∧ 2 ≤ n.toNat ∧ 2 * n.toNat ≤ l.length + 4 then
      (descriptors fuel (l.drop (2 * n.toNat - 4))).map fun r => ⟨k1, k2, l.take (2 * n.toNat - 4)⟩ :: r
    else none
  | _, _ => none

/-! ### The header and its CRC (R976, R978) -/

/-- n bits into the CRC register, least significant bit first: the polynomial 1 + X^5 + X^12 + X^16 with the bits of the
register reversed (decision D53, log entry 58). -/
def crcShift : Nat → Half → Half
  | 0, c => c
  | n + 1, c => crcShift n (if c.getLsbD 0 then (c >>> 1) ^^^ 0x8408 else c >>> 1)

/-- The CRC of some bytes: the register starts as ones, and is not complemented at the end. -/
def vpdCrc (l : List Byte) : Half := l.foldl (fun c b => crcShift 8 (c ^^^ b.setWidth 16)) 0xFFFF

/-- The Vital Product Data of an adapter whose bytes from subaddress 1 on are these: the header VPD, the length of what
follows in 2-byte words, its CRC, then the descriptors. The CRC function is a parameter (decision D53): `vpdCrc` is the
one that reproduces the sample. -/
def vitalProductData (crc : List Byte → Half) (rom : List Byte) : Option (List Descriptor) :=
  let n := 2 * (ofBytes 16 ((rom.drop 3).take 2) : Half).toNat
  let area := (rom.drop 7).take n
  if rom.take 3 = [0x56, 0x50, 0x44] ∧ area.length = n ∧ crc area = ofBytes 16 ((rom.drop 5).take 2) then
    descriptors n area
  else none

/-! ### The adapter (R975, 64_iocc_facilities R934) -/

/-- An adapter with the preferred presentation: its eight POS registers, and the bytes of its ROM from subaddress 0 on. -/
structure Adapter where
  pos : Vector Byte 8
  rom : List Byte
  deriving DecidableEq, Repr

/-- The subaddress that POS registers 7 and 6 make. -/
def Adapter.subaddress (a : Adapter) : Half := a.pos[7] ++ a.pos[6]

/-- Power-on: POS register 6 becomes 0 (R975, R1001); of the others the spec says nothing, and they keep their bytes
(log entry 63). -/
def Adapter.powerOn (a : Adapter) : Adapter := { a with pos := a.pos.set 6 0 }

/-- A setup cycle loads POS register r: register 3 is the port to the ROM when the subaddress is not 0 (R975). Past the
end of the ROM, of which the spec says nothing, it reads 0 (log entry 63). -/
def Adapter.load (a : Adapter) (r : BitVec 3) : Byte :=
  if r = 3 ∧ a.subaddress ≠ 0 then a.rom.getD a.subaddress.toNat 0 else a.pos[r.toNat]'r.isLt

/-- A setup cycle stores a byte to POS register r: R975 says so of registers 6 and 7. Of the others, the identification and
register 3 among them, the spec says nothing, and the model keeps any byte (log entry 63). -/
def Adapter.store (a : Adapter) (r : BitVec 3) (v : Byte) : Adapter := { a with pos := a.pos.set r.toNat v r.isLt }

/-! ### Hand-over (R996) -/

/-- A state at the first instruction of loaded code: real mode, external interrupts off, privileged (decision D55, log
entry 57), register 3 with the address of the IPL control block, at the entry point. All else is as it is in `s`. -/
def State.handOver (s : State) (entry block : Word) : State :=
  { s with
    msr := s.msr &&& 0xFFFF3FCF
    pc := wordAlign entry }.setReg 3 block

end Sys2Proof.Machine
end

