-- ==== Sys2Proof/Tests/Slice0.lean ====
section
/-!
SUPPORT. Tests: ill-formed terms, a word for each constructor decoded, single steps, and the witnesses of the hypotheses
of the statements in Certificates/Slice0/Obligations.lean. The words are written from the opcode table (30_encoding R263),
every field with a value of its own; the results of steps are those of the spec's examples, or calculated by hand from
the rule.
-/

namespace Sys2Proof.Machine.Tests

set_option Elab.async false

open Host (Outcome)

/-! ### Well-formed terms (R273) -/

theorem test_wf_square_root_is_power2 : Instr.wf .power (.fsqrt 1 2 false) = false := by decide
theorem test_wf_quad_load_is_power2 : Instr.wf .power (.lfq 1 2 3) = false := by decide
theorem test_wf_convert_is_power2 : Instr.wf .power (.fcirz 1 2 true) = false := by decide
theorem test_wf_on_power2 : Instr.wf .power2 (.fsqrt 1 2 false) = true ∧ Instr.wf .power (.fa 1 2 3 false) = true := by
  decide

/-! ### Words and instructions -/

theorem test_decode_branch :
    decode .power2 0x4A048D17 = .instr (.b 0x812345 true true)
    ∧ decode .power2 0x40D97BE3 = .instr (.bc 6 25 0x1ef8 true true)
    ∧ decode .power2 0x4CD90021 = .instr (.bcr 6 25 true)
    ∧ decode .power2 0x4CD90421 = .instr (.bcc 6 25 true)
    ∧ decode .power2 0x44009CF7 = .instr (.svc 9 0x67 5 true true)
    ∧ decode .power2 0x4C000064 = .instr (.rfi)
    ∧ decode .power2 0x4C0000A5 = .instr (.rfsvc true)
    ∧ decode .power2 0x4E940000 = .instr (.mcrf 5 5)
    ∧ decode .power2 0x4CD96202 = .instr (.crand 6 25 12)
    ∧ decode .power2 0x4CD96382 = .instr (.cror 6 25 12)
    ∧ decode .power2 0x4CD96182 = .instr (.crxor 6 25 12)
    ∧ decode .power2 0x4CD961C2 = .instr (.crnand 6 25 12)
    ∧ decode .power2 0x4CD96042 = .instr (.crnor 6 25 12)
    ∧ decode .power2 0x4CD96242 = .instr (.creqv 6 25 12)
    ∧ decode .power2 0x4CD96102 = .instr (.crandc 6 25 12)
    ∧ decode .power2 0x4CD96342 = .instr (.crorc 6 25 12)
    ∧ decode .power2 0x7CD96008 = .instr (.t 6 25 12)
    ∧ decode .power2 0x0CD9DEF8 = .instr (.ti 6 25 0xdef8) := by
  decide +kernel

theorem test_decode_fixed_loadstore_1 :
    decode .power2 0x88D9DEF8 = .instr (.lbz 6 25 0xdef8)
    ∧ decode .power2 0x8CD9DEF8 = .instr (.lbzu 6 25 0xdef8)
    ∧ decode .power2 0x7CD960AE = .instr (.lbzx 6 25 12)
    ∧ decode .power2 0x7CD960EE = .instr (.lbzux 6 25 12)
    ∧ decode .power2 0xA0D9DEF8 = .instr (.lhz 6 25 0xdef8)
    ∧ decode .power2 0xA4D9DEF8 = .instr (.lhzu 6 25 0xdef8)
    ∧ decode .power2 0x7CD9622E = .instr (.lhzx 6 25 12)
    ∧ decode .power2 0x7CD9626E = .instr (.lhzux 6 25 12)
    ∧ decode .power2 0xA8D9DEF8 = .instr (.lha 6 25 0xdef8)
    ∧ decode .power2 0xACD9DEF8 = .instr (.lhau 6 25 0xdef8)
    ∧ decode .power2 0x7CD962AE = .instr (.lhax 6 25 12)
    ∧ decode .power2 0x7CD962EE = .instr (.lhaux 6 25 12)
    ∧ decode .power2 0x80D9DEF8 = .instr (.l 6 25 0xdef8)
    ∧ decode .power2 0x84D9DEF8 = .instr (.lu 6 25 0xdef8)
    ∧ decode .power2 0x7CD9602E = .instr (.lx 6 25 12)
    ∧ decode .power2 0x7CD9606E = .instr (.lux 6 25 12)
    ∧ decode .power2 0x98D9DEF8 = .instr (.stb 6 25 0xdef8)
    ∧ decode .power2 0x9CD9DEF8 = .instr (.stbu 6 25 0xdef8)
    ∧ decode .power2 0x7CD961AE = .instr (.stbx 6 25 12)
    ∧ decode .power2 0x7CD961EE = .instr (.stbux 6 25 12)
    ∧ decode .power2 0xB0D9DEF8 = .instr (.sth 6 25 0xdef8)
    ∧ decode .power2 0xB4D9DEF8 = .instr (.sthu 6 25 0xdef8)
    ∧ decode .power2 0x7CD9632E = .instr (.sthx 6 25 12)
    ∧ decode .power2 0x7CD9636E = .instr (.sthux 6 25 12)
    ∧ decode .power2 0x90D9DEF8 = .instr (.st 6 25 0xdef8) := by
  decide +kernel

theorem test_decode_fixed_loadstore_2 :
    decode .power2 0x94D9DEF8 = .instr (.stu 6 25 0xdef8)
    ∧ decode .power2 0x7CD9612E = .instr (.stx 6 25 12)
    ∧ decode .power2 0x7CD9616E = .instr (.stux 6 25 12)
    ∧ decode .power2 0x7CD9662C = .instr (.lhbrx 6 25 12)
    ∧ decode .power2 0x7CD9642C = .instr (.lbrx 6 25 12)
    ∧ decode .power2 0x7CD9672C = .instr (.sthbrx 6 25 12)
    ∧ decode .power2 0x7CD9652C = .instr (.stbrx 6 25 12)
    ∧ decode .power2 0xB8D9DEF8 = .instr (.lm 6 25 0xdef8)
    ∧ decode .power2 0xBCD9DEF8 = .instr (.stm 6 25 0xdef8)
    ∧ decode .power2 0x7CD964AA = .instr (.lsi 6 25 12)
    ∧ decode .power2 0x7CD9642A = .instr (.lsx 6 25 12)
    ∧ decode .power2 0x7CD9622B = .instr (.lscbx 6 25 12 true)
    ∧ decode .power2 0x7CD965AA = .instr (.stsi 6 25 12)
    ∧ decode .power2 0x7CD9652A = .instr (.stsx 6 25 12) := by
  decide +kernel

theorem test_decode_fixed_arith_1 :
    decode .power2 0x38D9DEF8 = .instr (.cal 6 25 0xdef8)
    ∧ decode .power2 0x3CD9DEF8 = .instr (.cau 6 25 0xdef8)
    ∧ decode .power2 0x34D9DEF8 = .instr (.aiDot 6 25 0xdef8)
    ∧ decode .power2 0x30D9DEF8 = .instr (.ai 6 25 0xdef8)
    ∧ decode .power2 0x20D9DEF8 = .instr (.sfi 6 25 0xdef8)
    ∧ decode .power2 0x1CD9DEF8 = .instr (.muli 6 25 0xdef8)
    ∧ decode .power2 0x24D9DEF8 = .instr (.dozi 6 25 0xdef8)
    ∧ decode .power2 0x7CD96615 = .instr (.cax 6 25 12 true true)
    ∧ decode .power2 0x7CD96415 = .instr (.a 6 25 12 true true)
    ∧ decode .power2 0x7CD96515 = .instr (.ae 6 25 12 true true)
    ∧ decode .power2 0x7CD905D5 = .instr (.ame 6 25 true true)
    ∧ decode .power2 0x7CD90595 = .instr (.aze 6 25 true true)
    ∧ decode .power2 0x7CD96411 = .instr (.sf 6 25 12 true true)
    ∧ decode .power2 0x7CD96511 = .instr (.sfe 6 25 12 true true)
    ∧ decode .power2 0x7CD905D1 = .instr (.sfme 6 25 true true)
    ∧ decode .power2 0x7CD90591 = .instr (.sfze 6 25 true true)
    ∧ decode .power2 0x7CD904D1 = .instr (.neg 6 25 true true)
    ∧ decode .power2 0x7CD906D1 = .instr (.abs 6 25 true true)
    ∧ decode .power2 0x7CD907D1 = .instr (.nabs 6 25 true true)
    ∧ decode .power2 0x7CD96611 = .instr (.doz 6 25 12 true true)
    ∧ decode .power2 0x7CD964D7 = .instr (.mul 6 25 12 true true)
    ∧ decode .power2 0x7CD965D7 = .instr (.muls 6 25 12 true true)
    ∧ decode .power2 0x7CD96697 = .instr (.div 6 25 12 true true)
    ∧ decode .power2 0x7CD966D7 = .instr (.divs 6 25 12 true true)
    ∧ decode .power2 0x2E99DEF8 = .instr (.cmpi 5 25 0xdef8) := by
  decide +kernel

theorem test_decode_fixed_arith_2 :
    decode .power2 0x2A99DEF8 = .instr (.cmpli 5 25 0xdef8)
    ∧ decode .power2 0x7E996000 = .instr (.cmp 5 25 12)
    ∧ decode .power2 0x7E996040 = .instr (.cmpl 5 25 12)
    ∧ decode .power2 0x70D9DEF8 = .instr (.andilDot 6 25 0xdef8)
    ∧ decode .power2 0x74D9DEF8 = .instr (.andiuDot 6 25 0xdef8)
    ∧ decode .power2 0x60D9DEF8 = .instr (.oril 6 25 0xdef8)
    ∧ decode .power2 0x64D9DEF8 = .instr (.oriu 6 25 0xdef8)
    ∧ decode .power2 0x68D9DEF8 = .instr (.xoril 6 25 0xdef8)
    ∧ decode .power2 0x6CD9DEF8 = .instr (.xoriu 6 25 0xdef8)
    ∧ decode .power2 0x7CD96039 = .instr (.and 6 25 12 true)
    ∧ decode .power2 0x7CD96379 = .instr (.or 6 25 12 true)
    ∧ decode .power2 0x7CD96279 = .instr (.xor 6 25 12 true)
    ∧ decode .power2 0x7CD963B9 = .instr (.nand 6 25 12 true)
    ∧ decode .power2 0x7CD960F9 = .instr (.nor 6 25 12 true)
    ∧ decode .power2 0x7CD96239 = .instr (.eqv 6 25 12 true)
    ∧ decode .power2 0x7CD96079 = .instr (.andc 6 25 12 true)
    ∧ decode .power2 0x7CD96339 = .instr (.orc 6 25 12 true)
    ∧ decode .power2 0x7CD90735 = .instr (.exts 6 25 true)
    ∧ decode .power2 0x7CD90035 = .instr (.cntlz 6 25 true)
    ∧ decode .power2 0x50D964CD = .instr (.rlimi 6 25 12 19 6 true)
    ∧ decode .power2 0x54D964CD = .instr (.rlinm 6 25 12 19 6 true)
    ∧ decode .power2 0x58D964CD = .instr (.rlmi 6 25 12 19 6 true)
    ∧ decode .power2 0x5CD964CD = .instr (.rlnm 6 25 12 19 6 true)
    ∧ decode .power2 0x7CD96433 = .instr (.rrib 6 25 12 true)
    ∧ decode .power2 0x7CD9603B = .instr (.maskg 6 25 12 true) := by
  decide +kernel

theorem test_decode_fixed_arith_3 :
    decode .power2 0x7CD9643B = .instr (.maskir 6 25 12 true)
    ∧ decode .power2 0x7CD96031 = .instr (.sl 6 25 12 true)
    ∧ decode .power2 0x7CD96431 = .instr (.sr 6 25 12 true)
    ∧ decode .power2 0x7CD96131 = .instr (.slq 6 25 12 true)
    ∧ decode .power2 0x7CD96531 = .instr (.srq 6 25 12 true)
    ∧ decode .power2 0x7CD96171 = .instr (.sliq 6 25 12 true)
    ∧ decode .power2 0x7CD96571 = .instr (.sriq 6 25 12 true)
    ∧ decode .power2 0x7CD961F1 = .instr (.slliq 6 25 12 true)
    ∧ decode .power2 0x7CD965F1 = .instr (.srliq 6 25 12 true)
    ∧ decode .power2 0x7CD961B1 = .instr (.sllq 6 25 12 true)
    ∧ decode .power2 0x7CD965B1 = .instr (.srlq 6 25 12 true)
    ∧ decode .power2 0x7CD96133 = .instr (.sle 6 25 12 true)
    ∧ decode .power2 0x7CD96533 = .instr (.sre 6 25 12 true)
    ∧ decode .power2 0x7CD961B3 = .instr (.sleq 6 25 12 true)
    ∧ decode .power2 0x7CD965B3 = .instr (.sreq 6 25 12 true)
    ∧ decode .power2 0x7CD96631 = .instr (.sra 6 25 12 true)
    ∧ decode .power2 0x7CD96671 = .instr (.srai 6 25 12 true)
    ∧ decode .power2 0x7CD96731 = .instr (.sraq 6 25 12 true)
    ∧ decode .power2 0x7CD96771 = .instr (.sraiq 6 25 12 true)
    ∧ decode .power2 0x7CD96733 = .instr (.srea 6 25 12 true)
    ∧ decode .power2 0x7CD903A6 = .instr (.mtspr 6 25)
    ∧ decode .power2 0x7CD902A6 = .instr (.mfspr 6 25)
    ∧ decode .power2 0x7E800400 = .instr (.mcrxr 5)
    ∧ decode .power2 0x7CCE7120 = .instr (.mtcrf 6 0xe7)
    ∧ decode .power2 0x7CC00026 = .instr (.mfcr 6) := by
  decide +kernel

theorem test_decode_fixed_arith_4 :
    decode .power2 0x7CC000A6 = .instr (.mfmsr 6)
    ∧ decode .power2 0x7CC00124 = .instr (.mtmsr 6) := by
  decide +kernel

theorem test_decode_float_1 :
    decode .power2 0xC0D9DEF8 = .instr (.lfs 6 25 0xdef8)
    ∧ decode .power2 0xC4D9DEF8 = .instr (.lfsu 6 25 0xdef8)
    ∧ decode .power2 0x7CD9642E = .instr (.lfsx 6 25 12)
    ∧ decode .power2 0x7CD9646E = .instr (.lfsux 6 25 12)
    ∧ decode .power2 0xC8D9DEF8 = .instr (.lfd 6 25 0xdef8)
    ∧ decode .power2 0xCCD9DEF8 = .instr (.lfdu 6 25 0xdef8)
    ∧ decode .power2 0x7CD964AE = .instr (.lfdx 6 25 12)
    ∧ decode .power2 0x7CD964EE = .instr (.lfdux 6 25 12)
    ∧ decode .power2 0xD0D9DEF8 = .instr (.stfs 6 25 0xdef8)
    ∧ decode .power2 0xD4D9DEF8 = .instr (.stfsu 6 25 0xdef8)
    ∧ decode .power2 0x7CD9652E = .instr (.stfsx 6 25 12)
    ∧ decode .power2 0x7CD9656E = .instr (.stfsux 6 25 12)
    ∧ decode .power2 0xD8D9DEF8 = .instr (.stfd 6 25 0xdef8)
    ∧ decode .power2 0xDCD9DEF8 = .instr (.stfdu 6 25 0xdef8)
    ∧ decode .power2 0x7CD965AE = .instr (.stfdx 6 25 12)
    ∧ decode .power2 0x7CD965EE = .instr (.stfdux 6 25 12)
    ∧ decode .power2 0xE0D97BE0 = .instr (.lfq 6 25 0x1ef8)
    ∧ decode .power2 0xE4D97BE0 = .instr (.lfqu 6 25 0x1ef8)
    ∧ decode .power2 0x7CD9662E = .instr (.lfqx 6 25 12)
    ∧ decode .power2 0x7CD9666E = .instr (.lfqux 6 25 12)
    ∧ decode .power2 0xF0D97BE0 = .instr (.stfq 6 25 0x1ef8)
    ∧ decode .power2 0xF4D97BE0 = .instr (.stfqu 6 25 0x1ef8)
    ∧ decode .power2 0x7CD9672E = .instr (.stfqx 6 25 12)
    ∧ decode .power2 0x7CD9676E = .instr (.stfqux 6 25 12)
    ∧ decode .power2 0xFCC0C891 = .instr (.fmr 6 25 true) := by
  decide +kernel

theorem test_decode_float_2 :
    decode .power2 0xFCC0C851 = .instr (.fneg 6 25 true)
    ∧ decode .power2 0xFCC0CA11 = .instr (.fabs 6 25 true)
    ∧ decode .power2 0xFCC0C911 = .instr (.fnabs 6 25 true)
    ∧ decode .power2 0xFCD9602B = .instr (.fa 6 25 12 true)
    ∧ decode .power2 0xFCD96029 = .instr (.fs 6 25 12 true)
    ∧ decode .power2 0xFCD90333 = .instr (.fm 6 25 12 true)
    ∧ decode .power2 0xFCD96025 = .instr (.fd 6 25 12 true)
    ∧ decode .power2 0xFCD964FB = .instr (.fma 6 25 12 19 true)
    ∧ decode .power2 0xFCD964F9 = .instr (.fms 6 25 12 19 true)
    ∧ decode .power2 0xFCD964FF = .instr (.fnma 6 25 12 19 true)
    ∧ decode .power2 0xFCD964FD = .instr (.fnms 6 25 12 19 true)
    ∧ decode .power2 0xFCC0C819 = .instr (.frsp 6 25 true)
    ∧ decode .power2 0xFCC0C81D = .instr (.fcir 6 25 true)
    ∧ decode .power2 0xFCC0C81F = .instr (.fcirz 6 25 true)
    ∧ decode .power2 0xFCC0C82D = .instr (.fsqrt 6 25 true)
    ∧ decode .power2 0xFE996000 = .instr (.fcmpu 5 25 12)
    ∧ decode .power2 0xFE996040 = .instr (.fcmpo 5 25 12)
    ∧ decode .power2 0xFCC0048F = .instr (.mffs 6 true)
    ∧ decode .power2 0xFE940080 = .instr (.mcrfs 5 5)
    ∧ decode .power2 0xFDACCD8F = .instr (.mtfsf 0xd6 25 true)
    ∧ decode .power2 0xFE80910D = .instr (.mtfsfi 5 9 true)
    ∧ decode .power2 0xFCC0008D = .instr (.mtfsb0 6 true)
    ∧ decode .power2 0xFCC0004D = .instr (.mtfsb1 6 true) := by
  decide +kernel

theorem test_decode_storage_control_instr :
    decode .power2 0x7C0004AC = .instr (.dcs)
    ∧ decode .power2 0x4C00012C = .instr (.ics)
    ∧ decode .power2 0x7C06C8EC = .instr (.clf 6 25)
    ∧ decode .power2 0x7C06CBEC = .instr (.cli 6 25)
    ∧ decode .power2 0x7C06CCEC = .instr (.dclst 6 25)
    ∧ decode .power2 0x7C06CFEC = .instr (.dclz 6 25)
    ∧ decode .power2 0x7CC901A4 = .instr (.mtsr 6 9)
    ∧ decode .power2 0x7CD961E4 = .instr (.mtsri 6 25 12)
    ∧ decode .power2 0x7CC904A6 = .instr (.mfsr 6 9)
    ∧ decode .power2 0x7CD964E6 = .instr (.mfsri 6 25 12)
    ∧ decode .power2 0x7CD90426 = .instr (.clcs 6 25)
    ∧ decode .power2 0x7C06CA64 = .instr (.tlbi 6 25)
    ∧ decode .power2 0x7CD96665 = .instr (.rac 6 25 12 true) := by
  decide +kernel
/-- Words that are no instruction: an unused primary opcode, an unused extended one, POWER2's on POWER. -/
theorem test_decode_rejects :
    (∀ i, decode .power2 0x00000000 ≠ .instr i) ∧ (∀ i, decode .power2 0x7C0007FE ≠ .instr i)
      ∧ (∀ i, decode .power 0xFC20102C ≠ .instr i) := by
  refine ⟨?_, ?_, ?_⟩ <;> intro i h <;> cases h

/-! ### Single instructions -/

/-- POWER in real mode, with sixteen bytes X'80' to X'8F' at X'1000', which is in register 4. -/
def small : State :=
  { State.reset with
    cfg := { resetConfig with impl := .power }
    msr := 0
    pc := 0x2000
    mem := (List.range 16).map fun i => (0x1000 + i, BitVec.ofNat 8 (0x80 + i)) }.setReg 4 0x1000

/-- POWER with floating point on: -2.5, 1, 2 and 3 in registers 1 to 4, and 1.5 as a double at X'1008'. -/
def floats : State :=
  (((({ small with msr := 0x2000, mem := [(0x1008, 0x3F), (0x1009, 0xF8)] }.setReg 5 8).setFreg 1
    0xC004000000000000).setFreg 2 0x3FF0000000000000).setFreg 3 0x4000000000000000).setFreg 4 0x4008000000000000

/-- What `f` shows of the state after the instruction with this word; nothing if it does not complete. -/
def after (s : State) (w : Word) (f : State → List Nat) : List Nat :=
  match decode s.cfg.impl w with
  | .instr i =>
    match exec i s with
    | .next t => f t
    | _ => []
  | _ => []

theorem test_run_branch :
    after ({ small with pc := 0x1000 } : State) 0x48000008 (fun t => [t.pc.toNat]) = [0x1008]
    ∧ after ({ small with pc := 0x2000, cr := 0x20000000 } : State) 0x41820008 (fun t => [t.pc.toNat]) = [0x2008]
    ∧ after ({ small with pc := 0x2000, ctr := 0x0 } : State) 0x4200FFFC (fun t => [t.pc.toNat, t.ctr.toNat]) = [0x1FFC, 0xFFFFFFFF]
    ∧ after ({ small with lr := 0x3457 } : State) 0x4E800020 (fun t => [t.pc.toNat]) = [0x3454]
    ∧ after ({ small with ctr := 0x4000 } : State) 0x4E800420 (fun t => [t.pc.toNat]) = [0x4000]
    ∧ after ({ small with msr := 0xD000, pc := 0x2000 } : State) 0x440000A0 (fun t => [t.ctr.toNat, t.msr.toNat, t.pc.toNat]) = [0x00A0D000, 0x1000, 0x10A0]
    ∧ after ({ small with srr0 := 0x12346, srr1 := 0xB030 } : State) 0x4C000064 (fun t => [t.pc.toNat, t.msr.toNat]) = [0x12344, 0xB030]
    ∧ after ({ small with lr := 0x2004, ctr := 0x00A0D030 } : State) 0x4C0000A4 (fun t => [t.pc.toNat, t.msr.toNat]) = [0x2004, 0xD030]
    ∧ after ({ small with cr := 0x12345678 } : State) 0x4C040000 (fun t => [t.cr.toNat]) = [0x22345678]
    ∧ after ({ small with cr := 0x60000000 } : State) 0x4C011202 (fun t => [t.cr.toNat]) = [0xE0000000]
    ∧ after ({ small with cr := 0x20000000 } : State) 0x4C011382 (fun t => [t.cr.toNat]) = [0xA0000000]
    ∧ after ({ small with cr := 0x80000000 } : State) 0x4C000182 (fun t => [t.cr.toNat]) = [0x0]
    ∧ after ({ small with cr := 0x20000000 } : State) 0x4C0111C2 (fun t => [t.cr.toNat]) = [0xA0000000]
    ∧ after ({ small with cr := 0x20000000 } : State) 0x4C011042 (fun t => [t.cr.toNat]) = [0x20000000]
    ∧ after ({ small with cr := 0x60000000 } : State) 0x4C011242 (fun t => [t.cr.toNat]) = [0xE0000000]
    ∧ after ({ small with cr := 0x40000000 } : State) 0x4C011102 (fun t => [t.cr.toNat]) = [0xC0000000]
    ∧ after ({ small with cr := 0x20000000 } : State) 0x4C011342 (fun t => [t.cr.toNat]) = [0x20000000]
    ∧ after ((small.setReg 3 0x5).setReg 4 0x5) 0x7C832008 (fun t => [t.pc.toNat]) = [0x700]
    ∧ after small 0x0FE00000 (fun t => [t.pc.toNat]) = [0x700] := by
  decide +kernel

theorem test_run_fixed_loadstore_1 :
    after small 0x88640005 (fun t => [(t.reg 3).toNat]) = [0x85]
    ∧ after small 0x8C640005 (fun t => [(t.reg 3).toNat, (t.reg 4).toNat]) = [0x85, 0x1005]
    ∧ after (small.setReg 5 0x5) 0x7C6428AE (fun t => [(t.reg 3).toNat]) = [0x85]
    ∧ after (small.setReg 5 0x5) 0x7C6428EE (fun t => [(t.reg 3).toNat, (t.reg 4).toNat]) = [0x85, 0x1005]
    ∧ after small 0xA0640002 (fun t => [(t.reg 3).toNat]) = [0x8283]
    ∧ after small 0xA4640002 (fun t => [(t.reg 3).toNat, (t.reg 4).toNat]) = [0x8283, 0x1002]
    ∧ after (small.setReg 5 0x2) 0x7C642A2E (fun t => [(t.reg 3).toNat]) = [0x8283]
    ∧ after (small.setReg 5 0x2) 0x7C642A6E (fun t => [(t.reg 3).toNat, (t.reg 4).toNat]) = [0x8283, 0x1002]
    ∧ after small 0xA8640002 (fun t => [(t.reg 3).toNat]) = [0xFFFF8283]
    ∧ after small 0xAC640002 (fun t => [(t.reg 3).toNat, (t.reg 4).toNat]) = [0xFFFF8283, 0x1002]
    ∧ after (small.setReg 5 0x2) 0x7C642AAE (fun t => [(t.reg 3).toNat]) = [0xFFFF8283]
    ∧ after (small.setReg 5 0x2) 0x7C642AEE (fun t => [(t.reg 3).toNat, (t.reg 4).toNat]) = [0xFFFF8283, 0x1002]
    ∧ after small 0x80640004 (fun t => [(t.reg 3).toNat]) = [0x84858687]
    ∧ after small 0x84640004 (fun t => [(t.reg 3).toNat, (t.reg 4).toNat]) = [0x84858687, 0x1004]
    ∧ after (small.setReg 5 0x4) 0x7C64282E (fun t => [(t.reg 3).toNat]) = [0x84858687]
    ∧ after (small.setReg 5 0x4) 0x7C64286E (fun t => [(t.reg 3).toNat, (t.reg 4).toNat]) = [0x84858687, 0x1004]
    ∧ after (small.setReg 3 0x11223344) 0x98640005 (fun t => [(t.dataByte 0x1005).toNat, (t.dataByte 0x1004).toNat, (t.dataByte 0x1006).toNat]) = [0x44, 0x84, 0x86]
    ∧ after (small.setReg 3 0x11223344) 0x9C640005 (fun t => [(t.dataByte 0x1005).toNat, (t.reg 4).toNat]) = [0x44, 0x1005]
    ∧ after ((small.setReg 3 0x11223344).setReg 5 0x5) 0x7C6429AE (fun t => [(t.dataByte 0x1005).toNat]) = [0x44]
    ∧ after ((small.setReg 3 0x11223344).setReg 5 0x5) 0x7C6429EE (fun t => [(t.dataByte 0x1005).toNat, (t.reg 4).toNat]) = [0x44, 0x1005] := by
  decide +kernel

theorem test_run_fixed_loadstore_2 :
    after (small.setReg 3 0x11223344) 0xB0640002 (fun t => [(t.dataByte 0x1002).toNat, (t.dataByte 0x1003).toNat, (t.dataByte 0x1004).toNat]) = [0x33, 0x44, 0x84]
    ∧ after (small.setReg 3 0x11223344) 0xB4640002 (fun t => [(t.dataByte 0x1002).toNat, (t.dataByte 0x1003).toNat, (t.reg 4).toNat]) = [0x33, 0x44, 0x1002]
    ∧ after ((small.setReg 3 0x11223344).setReg 5 0x2) 0x7C642B2E (fun t => [(t.dataByte 0x1002).toNat, (t.dataByte 0x1003).toNat]) = [0x33, 0x44]
    ∧ after ((small.setReg 3 0x11223344).setReg 5 0x2) 0x7C642B6E (fun t => [(t.dataByte 0x1002).toNat, (t.dataByte 0x1003).toNat, (t.reg 4).toNat]) = [0x33, 0x44, 0x1002]
    ∧ after (small.setReg 3 0x11223344) 0x90640004 (fun t => [(t.dataByte 0x1004).toNat, (t.dataByte 0x1005).toNat, (t.dataByte 0x1006).toNat, (t.dataByte 0x1007).toNat, (t.dataByte 0x1008).toNat]) = [0x11, 0x22, 0x33, 0x44, 0x88]
    ∧ after (small.setReg 3 0x11223344) 0x94640004 (fun t => [(t.dataByte 0x1004).toNat, (t.dataByte 0x1007).toNat, (t.reg 4).toNat]) = [0x11, 0x44, 0x1004]
    ∧ after ((small.setReg 3 0x11223344).setReg 5 0x4) 0x7C64292E (fun t => [(t.dataByte 0x1004).toNat, (t.dataByte 0x1007).toNat]) = [0x11, 0x44]
    ∧ after ((small.setReg 3 0x11223344).setReg 5 0x4) 0x7C64296E (fun t => [(t.dataByte 0x1004).toNat, (t.dataByte 0x1007).toNat, (t.reg 4).toNat]) = [0x11, 0x44, 0x1004]
    ∧ after (small.setReg 5 0x2) 0x7C642E2C (fun t => [(t.reg 3).toNat]) = [0x8382]
    ∧ after (small.setReg 5 0x4) 0x7C642C2C (fun t => [(t.reg 3).toNat]) = [0x87868584]
    ∧ after ((small.setReg 5 0x2).setReg 3 0x11223344) 0x7C642F2C (fun t => [(t.dataByte 0x1002).toNat, (t.dataByte 0x1003).toNat]) = [0x44, 0x33]
    ∧ after ((small.setReg 5 0x4).setReg 3 0x11223344) 0x7C642D2C (fun t => [(t.dataByte 0x1004).toNat, (t.dataByte 0x1005).toNat, (t.dataByte 0x1006).toNat, (t.dataByte 0x1007).toNat]) = [0x44, 0x33, 0x22, 0x11]
    ∧ after small 0xBBA40004 (fun t => [(t.reg 29).toNat, (t.reg 30).toNat, (t.reg 31).toNat]) = [0x84858687, 0x88898A8B, 0x8C8D8E8F]
    ∧ after (((small.setReg 29 0x1).setReg 30 0x2).setReg 31 0x3) 0xBFA40004 (fun t => [(t.dataByte 0x1007).toNat, (t.dataByte 0x100B).toNat, (t.dataByte 0x100F).toNat, (t.dataByte 0x1004).toNat]) = [0x1, 0x2, 0x3, 0x0]
    ∧ after small 0x7CA434AA (fun t => [(t.reg 5).toNat, (t.reg 6).toNat]) = [0x80818283, 0x84850000]
    ∧ after ({ small with xer := 0x5 } : State) 0x7CA0242A (fun t => [(t.reg 5).toNat, (t.reg 6).toNat]) = [0x80818283, 0x84000000]
    ∧ after ({ small with xer := 0x8410 } : State) 0x7CA0222B (fun t => [(t.reg 5).toNat, t.xer.toNat, t.cr.toNat]) = [0x80818283, 0x8405, 0x20000000]
    ∧ after ((small.setReg 5 0x01020304).setReg 6 0x05060708) 0x7CA435AA (fun t => [(t.dataByte 0x1000).toNat, (t.dataByte 0x1005).toNat, (t.dataByte 0x1006).toNat]) = [0x1, 0x6, 0x86]
    ∧ after (({ small with xer := 0x3 } : State).setReg 5 0xAABBCCDD) 0x7CA0252A (fun t => [(t.dataByte 0x1000).toNat, (t.dataByte 0x1002).toNat, (t.dataByte 0x1003).toNat]) = [0xAA, 0xCC, 0x83] := by
  decide +kernel

theorem test_run_fixed_arith_1 :
    after small 0x3860FFFF (fun t => [(t.reg 3).toNat]) = [0xFFFFFFFF]
    ∧ after small 0x3C601234 (fun t => [(t.reg 3).toNat]) = [0x12340000]
    ∧ after (small.setReg 4 0x7FFFFFFF) 0x34640001 (fun t => [(t.reg 3).toNat, t.cr.toNat, t.xer.toNat]) = [0x80000000, 0x80000000, 0x0]
    ∧ after (small.setReg 4 0x5) 0x3064FFFF (fun t => [(t.reg 3).toNat, t.xer.toNat]) = [0x4, 0x20000000]
    ∧ after (small.setReg 4 0x3) 0x2064000A (fun t => [(t.reg 3).toNat, t.xer.toNat]) = [0x7, 0x20000000]
    ∧ after (small.setReg 4 0x7) 0x1C64FFFD (fun t => [(t.reg 3).toNat]) = [0xFFFFFFEB]
    ∧ after (small.setReg 4 0x3) 0x2464000A (fun t => [(t.reg 3).toNat]) = [0x7]
    ∧ after ((small.setReg 4 0xFFFFFFFF).setReg 5 0x2) 0x7C642A14 (fun t => [(t.reg 3).toNat, t.xer.toNat]) = [0x1, 0x0]
    ∧ after ((small.setReg 4 0x7FFFFFFF).setReg 5 0x1) 0x7C642C15 (fun t => [(t.reg 3).toNat, t.xer.toNat, t.cr.toNat]) = [0x80000000, 0xC0000000, 0x90000000]
    ∧ after ((({ small with xer := 0x20000000 } : State).setReg 4 0xFFFFFFFF).setReg 5 0x0) 0x7C642914 (fun t => [(t.reg 3).toNat, t.xer.toNat]) = [0x0, 0x20000000]
    ∧ after (small.setReg 4 0x5) 0x7C6401D4 (fun t => [(t.reg 3).toNat, t.xer.toNat]) = [0x4, 0x20000000]
    ∧ after (({ small with xer := 0x20000000 } : State).setReg 4 0xFFFFFFFF) 0x7C640194 (fun t => [(t.reg 3).toNat, t.xer.toNat]) = [0x0, 0x20000000]
    ∧ after ((small.setReg 4 0x3).setReg 5 0xA) 0x7C642810 (fun t => [(t.reg 3).toNat, t.xer.toNat]) = [0x7, 0x20000000]
    ∧ after ((small.setReg 4 0x3).setReg 5 0xA) 0x7C642910 (fun t => [(t.reg 3).toNat, t.xer.toNat]) = [0x6, 0x20000000]
    ∧ after (({ small with xer := 0x20000000 } : State).setReg 4 0x0) 0x7C6401D0 (fun t => [(t.reg 3).toNat, t.xer.toNat]) = [0xFFFFFFFF, 0x20000000]
    ∧ after (({ small with xer := 0x20000000 } : State).setReg 4 0x0) 0x7C640190 (fun t => [(t.reg 3).toNat, t.xer.toNat]) = [0x0, 0x20000000]
    ∧ after (({ small with xer := 0x20000000 } : State).setReg 4 0x1) 0x7C640190 (fun t => [(t.reg 3).toNat, t.xer.toNat]) = [0xFFFFFFFF, 0x0]
    ∧ after (small.setReg 4 0x5) 0x7C6400D0 (fun t => [(t.reg 3).toNat]) = [0xFFFFFFFB]
    ∧ after (small.setReg 4 0x80000000) 0x7C6404D0 (fun t => [(t.reg 3).toNat, t.xer.toNat]) = [0x80000000, 0xC0000000]
    ∧ after (small.setReg 4 0xFFFFFFFB) 0x7C6402D0 (fun t => [(t.reg 3).toNat]) = [0x5] := by
  decide +kernel

theorem test_run_fixed_arith_2 :
    after (small.setReg 4 0x5) 0x7C6403D0 (fun t => [(t.reg 3).toNat]) = [0xFFFFFFFB]
    ∧ after ((small.setReg 4 0x3).setReg 5 0xA) 0x7C642A10 (fun t => [(t.reg 3).toNat]) = [0x7]
    ∧ after ((small.setReg 4 0xA).setReg 5 0x3) 0x7C642A10 (fun t => [(t.reg 3).toNat]) = [0x0]
    ∧ after ((small.setReg 4 0x10000).setReg 5 0x30000) 0x7C6428D6 (fun t => [(t.reg 3).toNat, t.mq.toNat]) = [0x3, 0x0]
    ∧ after ((small.setReg 4 0xFFFFFFFF).setReg 5 0x2) 0x7C6428D6 (fun t => [(t.reg 3).toNat, t.mq.toNat]) = [0xFFFFFFFF, 0xFFFFFFFE]
    ∧ after ((small.setReg 4 0x7).setReg 5 0xFFFFFFFD) 0x7C6429D6 (fun t => [(t.reg 3).toNat]) = [0xFFFFFFEB]
    ∧ after ((({ small with mq := 0x64 } : State).setReg 4 0x0).setReg 5 0x7) 0x7C642A96 (fun t => [(t.reg 3).toNat, t.mq.toNat]) = [0xE, 0x2]
    ∧ after ((({ small with mq := 0xFFFFFF9C } : State).setReg 4 0xFFFFFFFF).setReg 5 0x7) 0x7C642A96 (fun t => [(t.reg 3).toNat, t.mq.toNat]) = [0xFFFFFFF2, 0xFFFFFFFE]
    ∧ after ((small.setReg 4 0xFFFFFFF9).setReg 5 0x2) 0x7C642AD6 (fun t => [(t.reg 3).toNat, t.mq.toNat]) = [0xFFFFFFFD, 0xFFFFFFFF]
    ∧ after (small.setReg 4 0xFFFFFFFF) 0x2C040005 (fun t => [t.cr.toNat]) = [0x80000000]
    ∧ after (small.setReg 4 0xFFFFFFFF) 0x28840005 (fun t => [t.cr.toNat]) = [0x04000000]
    ∧ after ((({ small with xer := 0x80000000 } : State).setReg 4 0x9).setReg 5 0x9) 0x7C042800 (fun t => [t.cr.toNat]) = [0x30000000]
    ∧ after ((small.setReg 4 0x1).setReg 5 0x80000000) 0x7F842840 (fun t => [t.cr.toNat]) = [0x8]
    ∧ after (small.setReg 3 0x12345678) 0x706400FF (fun t => [(t.reg 4).toNat, t.cr.toNat]) = [0x78, 0x40000000]
    ∧ after (small.setReg 3 0x12345678) 0x7464FF00 (fun t => [(t.reg 4).toNat]) = [0x12000000]
    ∧ after (small.setReg 3 0x12345670) 0x6064000F (fun t => [(t.reg 4).toNat]) = [0x1234567F]
    ∧ after (small.setReg 3 0x1) 0x64648000 (fun t => [(t.reg 4).toNat]) = [0x80000001]
    ∧ after (small.setReg 3 0x12345678) 0x6864FFFF (fun t => [(t.reg 4).toNat]) = [0x1234A987]
    ∧ after (small.setReg 3 0x12345678) 0x6C64FFFF (fun t => [(t.reg 4).toNat]) = [0xEDCB5678]
    ∧ after ((small.setReg 3 0x0F0F00FF).setReg 5 0x00FFFF00) 0x7C642838 (fun t => [(t.reg 4).toNat]) = [0x000F0000] := by
  decide +kernel

theorem test_run_fixed_arith_3 :
    after ((small.setReg 3 0x0F0F00FF).setReg 5 0x00FFFF00) 0x7C642B78 (fun t => [(t.reg 4).toNat]) = [0x0FFFFFFF]
    ∧ after ((small.setReg 3 0x0F0F00FF).setReg 5 0x00FFFF00) 0x7C642A78 (fun t => [(t.reg 4).toNat]) = [0x0FF0FFFF]
    ∧ after ((small.setReg 3 0x0F0F00FF).setReg 5 0x00FFFF00) 0x7C642BB8 (fun t => [(t.reg 4).toNat]) = [0xFFF0FFFF]
    ∧ after ((small.setReg 3 0x0F0F00FF).setReg 5 0x00FFFF00) 0x7C6428F8 (fun t => [(t.reg 4).toNat]) = [0xF0000000]
    ∧ after ((small.setReg 3 0x0F0F00FF).setReg 5 0x00FFFF00) 0x7C642A38 (fun t => [(t.reg 4).toNat]) = [0xF00F0000]
    ∧ after ((small.setReg 3 0x0F0F00FF).setReg 5 0x00FFFF00) 0x7C642878 (fun t => [(t.reg 4).toNat]) = [0x0F0000FF]
    ∧ after ((small.setReg 3 0x0F0F00FF).setReg 5 0x00FFFF00) 0x7C642B38 (fun t => [(t.reg 4).toNat]) = [0xFF0F00FF]
    ∧ after (small.setReg 3 0x12348000) 0x7C640734 (fun t => [(t.reg 4).toNat]) = [0xFFFF8000]
    ∧ after (small.setReg 3 0x10000) 0x7C640034 (fun t => [(t.reg 4).toNat]) = [0xF]
    ∧ after (small.setReg 3 0x0) 0x7C640034 (fun t => [(t.reg 4).toNat]) = [0x20]
    ∧ after ((small.setReg 3 0x12345678).setReg 4 0xAAAAAAAA) 0x5064421E (fun t => [(t.reg 4).toNat]) = [0xAA56AAAA]
    ∧ after (small.setReg 3 0x12345678) 0x54642036 (fun t => [(t.reg 4).toNat]) = [0x23456780]
    ∧ after (small.setReg 3 0x12345678) 0x54644706 (fun t => [(t.reg 4).toNat]) = [0x30000002]
    ∧ after (((small.setReg 3 0x12345678).setReg 4 0xAAAAAAAA).setReg 5 0x4) 0x5864280E (fun t => [(t.reg 4).toNat]) = [0x23AAAAAA]
    ∧ after ((small.setReg 3 0x12345678).setReg 5 0x28) 0x5C642E3E (fun t => [(t.reg 4).toNat]) = [0x12]
    ∧ after (((small.setReg 3 0x80000000).setReg 4 0x0).setReg 5 0x4) 0x7C642C32 (fun t => [(t.reg 4).toNat]) = [0x08000000]
    ∧ after ((small.setReg 3 0x8).setReg 5 0xF) 0x7C64283A (fun t => [(t.reg 4).toNat]) = [0x00FF0000]
    ∧ after ((small.setReg 3 0x1C).setReg 5 0x3) 0x7C64283A (fun t => [(t.reg 4).toNat]) = [0xF000000F]
    ∧ after (((small.setReg 3 0x12345678).setReg 4 0xAAAAAAAA).setReg 5 0xFFFF) 0x7C642C3A (fun t => [(t.reg 4).toNat]) = [0xAAAA5678]
    ∧ after ((small.setReg 3 0x12345678).setReg 5 0x4) 0x7C642830 (fun t => [(t.reg 4).toNat]) = [0x23456780] := by
  decide +kernel

theorem test_run_fixed_arith_4 :
    after ((small.setReg 3 0x12345678).setReg 5 0x20) 0x7C642830 (fun t => [(t.reg 4).toNat]) = [0x0]
    ∧ after ((small.setReg 3 0x12345678).setReg 5 0x40) 0x7C642830 (fun t => [(t.reg 4).toNat]) = [0x12345678]
    ∧ after ((small.setReg 3 0x12345678).setReg 5 0x4) 0x7C642C30 (fun t => [(t.reg 4).toNat]) = [0x01234567]
    ∧ after ((small.setReg 3 0x12345678).setReg 5 0x4) 0x7C642930 (fun t => [(t.reg 4).toNat, t.mq.toNat]) = [0x23456780, 0x23456781]
    ∧ after ((small.setReg 3 0x12345678).setReg 5 0x4) 0x7C642D30 (fun t => [(t.reg 4).toNat, t.mq.toNat]) = [0x01234567, 0x81234567]
    ∧ after (small.setReg 3 0x12345678) 0x7C644170 (fun t => [(t.reg 4).toNat, t.mq.toNat]) = [0x34567800, 0x34567812]
    ∧ after (small.setReg 3 0x12345678) 0x7C644570 (fun t => [(t.reg 4).toNat, t.mq.toNat]) = [0x00123456, 0x78123456]
    ∧ after (({ small with mq := 0xAABBCCDD } : State).setReg 3 0x12345678) 0x7C6441F0 (fun t => [(t.reg 4).toNat, t.mq.toNat]) = [0x345678DD, 0x34567812]
    ∧ after (({ small with mq := 0xAABBCCDD } : State).setReg 3 0x12345678) 0x7C6445F0 (fun t => [(t.reg 4).toNat, t.mq.toNat]) = [0xAA123456, 0x78123456]
    ∧ after ((({ small with mq := 0xAABBCCDD } : State).setReg 3 0x12345678).setReg 5 0x4) 0x7C6429B0 (fun t => [(t.reg 4).toNat, t.mq.toNat]) = [0x2345678D, 0xAABBCCDD]
    ∧ after ((({ small with mq := 0xAABBCCDD } : State).setReg 3 0x12345678).setReg 5 0x4) 0x7C642DB0 (fun t => [(t.reg 4).toNat]) = [0xA1234567]
    ∧ after ((small.setReg 3 0x12345678).setReg 5 0x4) 0x7C642932 (fun t => [(t.reg 4).toNat, t.mq.toNat]) = [0x23456780, 0x23456781]
    ∧ after ((small.setReg 3 0x12345678).setReg 5 0x4) 0x7C642D32 (fun t => [(t.reg 4).toNat, t.mq.toNat]) = [0x01234567, 0x81234567]
    ∧ after ((({ small with mq := 0xAABBCCDD } : State).setReg 3 0x12345678).setReg 5 0x4) 0x7C6429B2 (fun t => [(t.reg 4).toNat, t.mq.toNat]) = [0x2345678D, 0x23456781]
    ∧ after ((({ small with mq := 0xAABBCCDD } : State).setReg 3 0x12345678).setReg 5 0x4) 0x7C642DB2 (fun t => [(t.reg 4).toNat, t.mq.toNat]) = [0xA1234567, 0x81234567]
    ∧ after ((small.setReg 3 0xFFFFFFF5).setReg 5 0x1) 0x7C642E30 (fun t => [(t.reg 4).toNat, t.xer.toNat]) = [0xFFFFFFFA, 0x20000000]
    ∧ after ((small.setReg 3 0x80000000).setReg 5 0x20) 0x7C642E30 (fun t => [(t.reg 4).toNat, t.xer.toNat]) = [0xFFFFFFFF, 0x20000000]
    ∧ after (small.setReg 3 0xFFFFFF00) 0x7C642670 (fun t => [(t.reg 4).toNat, t.xer.toNat]) = [0xFFFFFFF0, 0x0]
    ∧ after ((small.setReg 3 0xFFFFFFF5).setReg 5 0x1) 0x7C642F30 (fun t => [(t.reg 4).toNat, t.mq.toNat, t.xer.toNat]) = [0xFFFFFFFA, 0xFFFFFFFA, 0x20000000]
    ∧ after (small.setReg 3 0x80000001) 0x7C642770 (fun t => [(t.reg 4).toNat, t.mq.toNat, t.xer.toNat]) = [0xF8000000, 0x18000000, 0x20000000] := by
  decide +kernel

theorem test_run_fixed_arith_5 :
    after ((small.setReg 3 0x80000001).setReg 5 0x4) 0x7C642F32 (fun t => [(t.reg 4).toNat, t.mq.toNat, t.xer.toNat]) = [0xF8000000, 0x18000000, 0x20000000]
    ∧ after (small.setReg 3 0x99) 0x7C6803A6 (fun t => [t.lr.toNat]) = [0x99]
    ∧ after ({ small with ctr := 0x77 } : State) 0x7C6902A6 (fun t => [(t.reg 3).toNat]) = [0x77]
    ∧ after ({ small with xer := 0xC0000000 } : State) 0x7F800400 (fun t => [t.cr.toNat, t.xer.toNat]) = [0xC, 0x0]
    ∧ after (({ small with cr := 0x12345678 } : State).setReg 3 0xA0000000) 0x7C680120 (fun t => [t.cr.toNat]) = [0xA2345678]
    ∧ after ({ small with cr := 0x12345678 } : State) 0x7C600026 (fun t => [(t.reg 3).toNat]) = [0x12345678]
    ∧ after (small.setReg 3 0x1030) 0x7C600124 (fun t => [t.msr.toNat]) = [0x1030] := by
  decide +kernel

theorem test_run_float_1 :
    after floats 0xC0240008 (fun t => [(t.freg 1).toNat]) = [0x3FFF000000000000]
    ∧ after floats 0xC4240008 (fun t => [(t.freg 1).toNat, (t.reg 4).toNat]) = [0x3FFF000000000000, 0x1008]
    ∧ after floats 0x7C242C2E (fun t => [(t.freg 1).toNat]) = [0x3FFF000000000000]
    ∧ after floats 0x7C242C6E (fun t => [(t.freg 1).toNat, (t.reg 4).toNat]) = [0x3FFF000000000000, 0x1008]
    ∧ after floats 0xC8240008 (fun t => [(t.freg 1).toNat]) = [0x3FF8000000000000]
    ∧ after floats 0xCC240008 (fun t => [(t.freg 1).toNat, (t.reg 4).toNat]) = [0x3FF8000000000000, 0x1008]
    ∧ after floats 0x7C242CAE (fun t => [(t.freg 1).toNat]) = [0x3FF8000000000000]
    ∧ after floats 0x7C242CEE (fun t => [(t.freg 1).toNat, (t.reg 4).toNat]) = [0x3FF8000000000000, 0x1008]
    ∧ after floats 0xD0240008 (fun t => [(t.wordAt 0x1008).toNat]) = [0xC0200000]
    ∧ after floats 0xD4240008 (fun t => [(t.wordAt 0x1008).toNat, (t.reg 4).toNat]) = [0xC0200000, 0x1008]
    ∧ after floats 0x7C242D2E (fun t => [(t.wordAt 0x1008).toNat]) = [0xC0200000]
    ∧ after floats 0x7C242D6E (fun t => [(t.wordAt 0x1008).toNat, (t.reg 4).toNat]) = [0xC0200000, 0x1008]
    ∧ after floats 0xD8240008 (fun t => [(t.wordAt 0x1008).toNat, (t.wordAt 0x100C).toNat]) = [0xC0040000, 0x0]
    ∧ after floats 0xDC240008 (fun t => [(t.wordAt 0x1008).toNat, (t.reg 4).toNat]) = [0xC0040000, 0x1008]
    ∧ after floats 0x7C242DAE (fun t => [(t.wordAt 0x1008).toNat]) = [0xC0040000]
    ∧ after floats 0x7C242DEE (fun t => [(t.wordAt 0x1008).toNat, (t.reg 4).toNat]) = [0xC0040000, 0x1008]
    ∧ after (({ floats with cfg := resetConfig } : State).setReg 4 0x0FF8) 0xE0440010 (fun t => [(t.freg 2).toNat, (t.freg 3).toNat, (t.reg 4).toNat]) = [0x3FF8000000000000, 0x0, 0xFF8]
    ∧ after (({ floats with cfg := resetConfig } : State).setReg 4 0x0FF8) 0xE4440010 (fun t => [(t.freg 2).toNat, (t.reg 4).toNat]) = [0x3FF8000000000000, 0x1008]
    ∧ after ({ floats with cfg := resetConfig } : State) 0x7C442E2E (fun t => [(t.freg 2).toNat]) = [0x3FF8000000000000]
    ∧ after ({ floats with cfg := resetConfig } : State) 0x7C442E6E (fun t => [(t.freg 2).toNat, (t.reg 4).toNat]) = [0x3FF8000000000000, 0x1008] := by
  decide +kernel

theorem test_run_float_2 :
    after ({ floats with cfg := resetConfig } : State) 0xF0440010 (fun t => [(t.wordAt 0x1010).toNat, (t.wordAt 0x1018).toNat]) = [0x3FF00000, 0x40000000]
    ∧ after ({ floats with cfg := resetConfig } : State) 0xF4440010 (fun t => [(t.wordAt 0x1010).toNat, (t.wordAt 0x1018).toNat, (t.reg 4).toNat]) = [0x3FF00000, 0x40000000, 0x1010]
    ∧ after ({ floats with cfg := resetConfig } : State) 0x7C442F2E (fun t => [(t.wordAt 0x1008).toNat, (t.wordAt 0x1010).toNat]) = [0x3FF00000, 0x40000000]
    ∧ after ({ floats with cfg := resetConfig } : State) 0x7C442F6E (fun t => [(t.wordAt 0x1008).toNat, (t.reg 4).toNat]) = [0x3FF00000, 0x1008]
    ∧ after floats 0xFC201890 (fun t => [(t.freg 1).toNat]) = [0x4000000000000000]
    ∧ after floats 0xFC201850 (fun t => [(t.freg 1).toNat]) = [0xC000000000000000]
    ∧ after floats 0xFC201A10 (fun t => [(t.freg 1).toNat]) = [0x4000000000000000]
    ∧ after floats 0xFC201910 (fun t => [(t.freg 1).toNat]) = [0xC000000000000000]
    ∧ after floats 0xFC22182A (fun t => [(t.freg 1).toNat, t.fpscr.toNat]) = [0x4008000000000000, 0x4000]
    ∧ after floats 0xFC221828 (fun t => [(t.freg 1).toNat, t.fpscr.toNat]) = [0xBFF0000000000000, 0x8000]
    ∧ after floats 0xFC2200F2 (fun t => [(t.freg 1).toNat, t.fpscr.toNat]) = [0x4000000000000000, 0x4000]
    ∧ after floats 0xFC221824 (fun t => [(t.freg 1).toNat, t.fpscr.toNat]) = [0x3FE0000000000000, 0x4000]
    ∧ after (floats.setFreg 3 0x4008000000000000) 0xFC221824 (fun t => [(t.freg 1).toNat, t.fpscr.toNat]) = [0x3FD5555555555555, 0x82024000]
    ∧ after (floats.setFreg 3 0x0) 0xFC221824 (fun t => [(t.freg 1).toNat, t.fpscr.toNat]) = [0x7FF0000000000000, 0x84005000]
    ∧ after floats 0xFC2220FA (fun t => [(t.freg 1).toNat, t.fpscr.toNat]) = [0x4014000000000000, 0x4000]
    ∧ after floats 0xFC2220F8 (fun t => [(t.freg 1).toNat, t.fpscr.toNat]) = [0xBFF0000000000000, 0x8000]
    ∧ after floats 0xFC2220FE (fun t => [(t.freg 1).toNat, t.fpscr.toNat]) = [0xC014000000000000, 0x8000]
    ∧ after floats 0xFC2220FC (fun t => [(t.freg 1).toNat, t.fpscr.toNat]) = [0x3FF0000000000000, 0x4000]
    ∧ after (floats.setFreg 3 0x3FB999999999999A) 0xFC201818 (fun t => [(t.freg 1).toNat, t.fpscr.toNat]) = [0x3FB99999A0000000, 0x82064000]
    ∧ after (({ floats with cfg := resetConfig } : State).setFreg 3 0x4010000000000000) 0xFC20182C (fun t => [(t.freg 1).toNat, t.fpscr.toNat]) = [0x4000000000000000, 0x4000] := by
  decide +kernel

theorem test_run_float_3 :
    after floats 0xFC021800 (fun t => [t.cr.toNat, t.fpscr.toNat]) = [0x80000000, 0x8000]
    ∧ after (floats.setFreg 2 0x7FF8000000000000) 0xFC821840 (fun t => [t.cr.toNat, t.fpscr.toNat]) = [0x01000000, 0xA0081000]
    ∧ after ({ floats with fpscr := 0x82064000 } : State) 0xFC000080 (fun t => [t.cr.toNat, t.fpscr.toNat]) = [0x80000000, 0x02064000]
    ∧ after (floats.setFreg 3 0xF9) 0xFDFE1D8E (fun t => [t.fpscr.toNat]) = [0xF9]
    ∧ after floats 0xFF80110C (fun t => [t.fpscr.toNat]) = [0x1]
    ∧ after ({ floats with fpscr := 0x80 } : State) 0xFF00008C (fun t => [t.fpscr.toNat]) = [0x0]
    ∧ after floats 0xFF00004C (fun t => [t.fpscr.toNat]) = [0x80] := by
  decide +kernel

theorem test_run_storage_control_instr :
    after (small.setReg 5 0x40) 0x7C0428EC (fun t => [(t.reg 4).toNat]) = [0x1040]
    ∧ after (small.setReg 5 0x40) 0x7C042BEC (fun t => [(t.reg 4).toNat]) = [0x1040]
    ∧ after (({ small with msr := 0x4000 } : State).setReg 5 0x40) 0x7C042BEC (fun t => [(t.reg 4).toNat, t.srr1.toNat]) = [0x1000, 0x44000]
    ∧ after (small.setReg 5 0x40) 0x7C042CEC (fun t => [(t.reg 4).toNat]) = [0x1040]
    ∧ after (small.setReg 5 0x0) 0x7C042FEC (fun t => [(t.reg 4).toNat, (t.dataByte 0x1003).toNat]) = [0x1000, 0x0]
    ∧ after small 0x7C6D0426 (fun t => [(t.reg 3).toNat]) = [0x40]
    ∧ after small 0x7C0004AC (fun t => [t.pc.toNat]) = [0x2004]
    ∧ after small 0x4C00012C (fun t => [t.pc.toNat]) = [0x2004]
    ∧ after (small.setReg 3 0x82000020) 0x7C6501A4 (fun t => [(t.segment 5).toNat]) = [0x82000020]
    ∧ after ((small.setReg 6 0x5000ABCD).setReg 3 0x123456) 0x7C6031E4 (fun t => [(t.segment 5).toNat]) = [0x123456]
    ∧ after (small.setSegment 5 0x82000020) 0x7C6504A6 (fun t => [(t.reg 3).toNat]) = [0x82000020]
    ∧ after (((small.setReg 4 0x50000000).setReg 5 0x100).setSegment 5 0x82000020) 0x7C642CE6 (fun t => [(t.reg 3).toNat, (t.reg 4).toNat]) = [0x82000020, 0x50000100] := by
  decide +kernel
/-! ### Instructions without a fixed result -/

theorem test_mfmsr : after ({ small with msr := 0x1234 } : State) 0x7C6000A6 (fun t => [(t.reg 3).toNat]) = [0x1234] := by
  decide +kernel

/-- R603: -2.5 cut off is -2; R602: to nearest, of two the even, -2 too. -/
theorem test_converts :
    (convertInt floats (floats.freg 1) 1).low = some 0xFFFFFFFE ∧ (convertInt floats (floats.freg 1) 0).low = some 0xFFFFFFFE := by
  decide +kernel

/-! ### Witnesses: reset, the step and its invariants -/

/-- POWER2 in real mode with the same sixteen bytes. -/
def small2 : State := { small with cfg := resetConfig }

theorem small_canonical : small.Canonical :=
  ⟨by decide +kernel, by decide +kernel, fun x hx =>
    have h : ∀ x ∈ small.ioccs, x.tcw = [] ∧ x.tag = [] := by decide +kernel
    ⟨by rw [(h x hx).1]; rfl, by rw [(h x hx).2]; rfl⟩⟩

theorem small_legal : small.Legal :=
  ⟨by decide +kernel, by decide +kernel, by decide +kernel, by decide +kernel, by decide +kernel, by decide +kernel⟩

/-- The outcome is a next state with these properties. -/
def nextHas (o : Outcome State Fault Refusal) (p : State → Bool) : Bool :=
  match o with
  | .next t => p t
  | _ => false

theorem nextHas_iff {o : Outcome State Fault Refusal} {p : State → Bool} (h : nextHas o p = true) :
    ∃ t, o = .next t ∧ p t = true := by
  cases o with
  | next t => exact ⟨t, rfl, h⟩
  | fault f => cases h
  | refused r => cases h

/-- The fetch answers a word that decodes to an instruction. -/
def fetches (s : State) (p : Word → State → Bool) : Bool :=
  match ifetch s with
  | .word w s1 => p w s1
  | _ => false

theorem fetches_iff {s : State} {p : Word → State → Bool} (h : fetches s p = true) :
    ∃ w s1, ifetch s = .word w s1 ∧ p w s1 = true := by
  unfold fetches at h
  cases e : ifetch s with
  | word w s1 => rw [e] at h; exact ⟨w, s1, rfl, h⟩
  | storage i s1 => rw [e] at h; cases h
  | machineCheck s1 => rw [e] at h; cases h

theorem witness_EncodingRoundTrip :
    WellFormed .power (.lx 3 4 5) ∧ WellFormed .power2 (.fsqrt 31 31 true)
      ∧ decode .power 0x7C64282E = .instr (.lx 3 4 5) :=
  ⟨fun h => (by cases h), fun _ => rfl, by decide +kernel⟩

/-- Reading the n bytes at `ea` needs no reload that fails. -/
def readable (s : State) (ea : Word) (n : Nat) : Bool :=
  (List.range n).all fun i => (s.dataLine (s.lineOf (ea + BitVec.ofNat 32 i))).isSome
    || s.lineBacked (s.lineOf (ea + BitVec.ofNat 32 i))

theorem readable_iff {s : State} {ea : Word} {n : Nat} (h : readable s ea n = true) : s.Readable ea n := by
  intro i hi
  have := List.all_eq_true.1 h i (List.mem_range.2 hi)
  simpa using this

/-- The entry of page 1 of segment 0, at real page 2, the reference bit recorded. -/
def page : TlbEntry := ⟨0, 1, 2, 0, true, false, 0x20, 0, 0⟩

/-- The tables with that page: the hash table's entry at 4 names entry 2 of the page table, at X'20' (R173). -/
def pageTable (pp : BitVec 2) : List Host.Cell := [(7, 2), (0x23, 0x18 ||| pp.setWidth 8)]

/-- At page 1 of segment 0, with fetches translated. The hash table's entry for the page is empty in `[(4, 0x80)]`. -/
def fetching (sr : Word) (mem : List Host.Cell) : State :=
  { small with msr := 0x20, pc := 0x1000, mem := mem }.setSegment 0 sr

/-- What the look-up of the fetch answers. -/
def fetchLookup (s : State) : Found × State := lookupPage (bitsAt (s.segmentOf s.pc) 8 24) (bitsAt s.pc 4 16) s

/-- A word that is an instruction, and one that is none, are fetched; the fetch path of real mode is open. -/
theorem witness_StepRunsTheInstructionAtThePc :
    let s := small.placeWord 0x7C64282E
    let u := small.placeWord 0x00000000
    (s.agenda = [] ∧ s.tickDue = false ∧ s.checkstopped = false ∧ s.sysReset = false ∧ s.machineCheck = false
      ∧ ∃ w s1, ifetch s.countStep = .word w s1
        ∧ (s1.externalSignal = false && s1.fpiCondition = false && decode s1.cfg.impl w = .instr (.lx 3 4 5)) = true)
    ∧ (∃ w s1, ifetch u.countStep = .word w s1
        ∧ (s1.externalSignal = false && s1.fpiCondition = false && decide (decode s1.cfg.impl w = .invalid (.opcode 0))) = true)
    ∧ (s.msrIR = false ∧ s.pc.toNat % 4 = 0 ∧ s.prefetched s.pc = []
      ∧ ∀ k, k < 4 → s.instrLine (s.lineOf (s.pc + BitVec.ofNat 32 k)) = none
        ∧ s.lineBacked (s.lineOf (s.pc + BitVec.ofNat 32 k)) = true) :=
  ⟨⟨rfl, by decide +kernel, rfl, rfl, rfl, fetches_iff (by decide +kernel)⟩, fetches_iff (by decide +kernel),
    by decide +kernel, by decide +kernel, by decide +kernel, by decide +kernel⟩

/-- Translated fetches: from an I/O segment, a special one, a page the tables do not have, a chain that is a loop, a page that
K = 1 and PP = 00 close, and a mapped page whose line the instruction cache does not have. -/
theorem witness_StepRunsTheInstructionAtThePc_translated :
    let unmapped : List Host.Cell := [(4, 0x80)]
    let states := [fetching 0x80000000 unmapped, fetching 0x20000000 unmapped, fetching 0 unmapped,
      fetching 0 [(2, 0xFF)], fetching 0x40000000 (pageTable 0), fetching 0 (pageTable 0)]
    let mapped := fetching 0 (pageTable 0)
    let u := ((fetchLookup mapped).2.recordBits page true false).2
    (∀ s ∈ states, s.msrIR = true ∧ s.pc.toNat % 4 = 0 ∧ s.prefetched s.pc = [] ∧ s.sdrBefore = [])
    ∧ states.map (fun s => (bitAt (s.segmentOf s.pc) 0, bitAt (s.segmentOf s.pc) 2))
      = [(true, false), (false, true), (false, false), (false, false), (false, false), (false, false)]
    ∧ (states.drop 2).map (fun s => (fetchLookup s).1) = [.notFound, .loop, .entry page, .entry page]
    ∧ page.pp = 0 ∧ bitAt ((fetching 0x40000000 (pageTable 0)).segmentOf 0x1000) 1 = true
    ∧ bitAt (mapped.segmentOf 0x1000) 1 = false
    ∧ ∀ k, k < 4 → u.instrLine (u.lineOf (0x2000 + BitVec.ofNat 32 k)) = none
      ∧ u.lineBacked (u.lineOf (0x2000 + BitVec.ofNat 32 k)) = true :=
  ⟨by decide +kernel, by decide +kernel, by decide +kernel, by decide +kernel, by decide +kernel, by decide +kernel,
    by decide +kernel⟩

/-- Each clause: check stopped; a system reset request; a machine check condition with ME = 1 and with ME = 0; a fetch
that no page answers; an enabled external interrupt; a Floating-Point Imprecise condition whose delay has gone by. -/
theorem witness_PendingConditionsComeFirst :
    (({ small with checkstopped := true } : State).agenda = [] ∧ small.tickDue = false)
    ∧ ({ small with sysReset := true } : State).checkstopped = false
    ∧ (({ small with machineCheck := true, msr := 0x1000 } : State).msrME = true
      ∧ ({ small with machineCheck := true } : State).msrME = false)
    ∧ (∃ info s1, ifetch ({ small with msr := 0x20, mem := [(8, 0x80)] } : State).countStep = .storage info s1)
    ∧ (∃ w s1, ifetch ({ small with msr := 0x8000, eis := 1#64 <<< 63, eim := 1#64 <<< 63 } : State).countStep = .word w s1
        ∧ (s1.externalSignal && s1.msrEE) = true)
    ∧ (∃ w s1, ifetch ({ small2 with msr := 0x100, fpscr := 0x40000000 } : State).countStep = .word w s1
        ∧ (!(s1.externalSignal && s1.msrEE) && s1.fpiCondition && decide (s1.cfg.fpiDelay ≤ s1.fpiWait)) = true) := by
  refine ⟨⟨rfl, by decide +kernel⟩, rfl, ⟨by decide +kernel, by decide +kernel⟩, ?_, fetches_iff (by decide +kernel),
    fetches_iff (by decide +kernel)⟩
  have h : (match ifetch ({ small with msr := 0x20, mem := [(8, 0x80)] } : State).countStep with | .storage _ _ => true | _ => false) = true := by
    decide +kernel
  cases e : ifetch ({ small with msr := 0x20, mem := [(8, 0x80)] } : State).countStep with
  | storage i s1 => exact ⟨i, s1, rfl⟩
  | word w s1 => rw [e] at h; cases h
  | machineCheck s1 => rw [e] at h; cases h

/-- A traced addition and a traced branch; not traced: rfi with SE = 1, an addition with BE = 1 alone, POWER. -/
theorem witness_TraceFollowsCompletedInstructions :
    (small2.cfg.impl = .power2 ∧ small2.entered = false
      ∧ ({ small2 with msr := 0x400 } : State).msrSE = true ∧ ({ small2 with msr := 0x200 } : State).msrBE = true)
    ∧ (∃ a b c, Instr.b 1 false false = .b a b c)
    ∧ (Instr.rfi = .rfi ∧ ({ small2 with msr := 0x200 } : State).msrSE = false
      ∧ ∀ a b c, Instr.a 3 4 4 false false ≠ .b a b c)
    ∧ small.cfg.impl = .power ∧ ({ small2 with entered := true } : State).entered = true :=
  ⟨⟨rfl, rfl, by decide +kernel, by decide +kernel⟩, ⟨1, false, false, rfl⟩,
    ⟨rfl, by decide +kernel, fun _ _ _ h => by cases h⟩, rfl, rfl⟩

theorem witness_StepKeepsRegistersLegal :
    small.Legal ∧ ∃ t, step (small.placeWord 0x7C64282E) = .next t ∧ decide (t.pc = 0x2004) = true :=
  ⟨small_legal, nextHas_iff (by decide +kernel)⟩

theorem witness_StepKeepsStorageCanonical :
    small.Canonical ∧ ∃ t, step { small with agenda := [.tick] } = .next t ∧ decide (t.rtcl = 256) = true :=
  ⟨small_canonical, nextHas_iff (by decide +kernel)⟩

/-- An addition in problem state. -/
theorem witness_ProblemStateKeepsPrivilegedRegisters :
    let s : State := { small with msr := 0x4000 }
    s.msrPR = true ∧ s.entered = false
      ∧ ∃ t, exec (.a 3 4 4 true true) s = .next t ∧ decide (t.entered = false) = true :=
  ⟨by decide +kernel, rfl, nextHas_iff (by decide +kernel)⟩

/-! ### Witnesses: interrupts -/

theorem witness_ReturnFromInterrupt :
    small.msrPR = false ∧ small.Legal ∧ ¬ (small.msrFE = true ∧ bitAt small.fpscr 1 = true) :=
  ⟨by decide +kernel, small_legal, by decide +kernel⟩

theorem witness_ReturnFromSupervisorCall : small.msrPR = false := by decide +kernel

/-- A privileged instruction in problem state; the smallest and the largest number of a privileged register; the numbers
of SDR0 and ILCR; numbers that name no register, 2, which is below 16, and 31. -/
theorem witness_PrivilegeAndInvalidRegisters :
    ({ small with msr := 0x4000 } : State).msrPR = true ∧ Instr.isPrivileged .rfi = true
    ∧ small.cfg.impl = .power ∧ (small2.cfg.impl = .power2 ∧ small2.cfg.OwnIlcr)
    ∧ (17#5).toNat ∈ [17, 18, 19, 20, 21, 22, 25, 26, 27] ∧ (27#5).toNat ∈ [17, 18, 19, 25, 26, 27]
    ∧ (∀ n ∈ [2#5, 31#5], ¬ (small.cfg.impl = .power ∧ n = 24) ∧ ¬ (small.cfg.impl = .power2 ∧ n = small.cfg.sprIlcr)
      ∧ n.toNat ∉ [0, 1, 8, 9, 17, 18, 19, 20, 21, 22, 25, 26, 27]
      ∧ n.toNat ∉ [0, 1, 4, 5, 6, 8, 9, 17, 18, 19, 25, 26, 27]) := by
  unfold Config.Machine.OwnIlcr
  decide +kernel

theorem witness_FloatingPointUnavailable : Instr.isFloat (.mtfsb1 31 false) = true ∧ small.msrFP = false := by
  decide +kernel

/-- Alignment checking and floating point on. -/
def checked : State := { small with msr := 0x2080 }

/-- The same on POWER2. -/
def checked2 : State := { small2 with msr := 0x2080 }

/-- An unaligned word, a doubleword one byte before its boundary, an unaligned load multiple. -/
theorem witness_AlignmentInterrupt :
    (checked.msrAL = true ∧ checked.msrFP = true)
    ∧ (checked.scalarAccess (.l 3 4 1) = some (checked.eaD 4 1, 4) ∧ checked.isIo (checked.eaD 4 1) = false
      ∧ (checked.eaD 4 1).toNat % 4 ≠ 0)
    ∧ (checked.scalarAccess (.lfd 3 4 7) = some (checked.eaD 4 7, 8) ∧ checked.isIo (checked.eaD 4 7) = false
      ∧ (checked.eaD 4 7).toNat % 8 ≠ 0)
    ∧ (checked.isIo (checked.eaD 4 2) = false ∧ (checked.eaD 4 2).toNat % 4 ≠ 0) :=
  ⟨by decide +kernel, ⟨rfl, by decide +kernel⟩, ⟨rfl, by decide +kernel⟩, by decide +kernel⟩

/-- Data addresses are translated, and no table has page 1 of segment 0. -/
def unmapped : State := { small with msr := 0x10, mem := [(4, 0x80)] }

/-- The tables have the page, with these protection bits. -/
def guarded (pp : BitVec 2) : State := { unmapped with mem := pageTable pp }

/-- The tables have the page, and it is open. -/
def mapped : State := guarded 0

/-- With K = 1 the page's protection closes it. -/
def closed : State := mapped.setSegment 0 0x40000000

theorem witness_TranslatedAccesses_unmapped :
    unmapped.msrDR = true ∧ bitAt (unmapped.segmentOf 0x1000) 0 = false ∧ unmapped.eaD 4 0 = 0x1000
      ∧ (lookupPage (bitsAt (unmapped.segmentOf 0x1000) 8 24) (bitsAt (0x1000 : Word) 4 16) unmapped).1 = .notFound := by
  decide +kernel

/-- Entry 0 of the table, which the hash table names, is not the page's and names itself as the next. -/
theorem witness_TranslatedAccesses_loop :
    let s : State := { small with msr := 0x10, mem := [(2, 0xFF)] }
    (lookupPage (bitsAt (s.segmentOf 0x1000) 8 24) (bitsAt (0x1000 : Word) 4 16) s).1 = .loop := by
  decide +kernel

/-- A special segment: its lock is one of the three answers. -/
theorem witness_TranslatedAccesses_special :
    bitAt ((mapped.setSegment 0 0x20000000).segmentOf 0x1000) 2 = true := by
  decide +kernel

/-- Closed to both by K = 1 and PP = 00, to stores by K = 1 and PP = 01 and, with K = 0, by PP = 11; the reference bit is
recorded. -/
theorem witness_TranslatedAccesses_closed :
    let look (s : State) := (lookupPage (bitsAt (s.segmentOf 0x1000) 8 24) (bitsAt (0x1000 : Word) 4 16) s).1
    let k1 := (guarded 1).setSegment 0 0x40000000
    (look k1 = .entry { page with pp := 1 } ∧ bitAt (k1.segmentOf 0x1000) 1 = true)
    ∧ (look (guarded 3) = .entry { page with pp := 3 } ∧ bitAt ((guarded 3).segmentOf 0x1000) 1 = false)
    ∧ bitAt (closed.segmentOf 0x1000) 0 = false ∧ bitAt (closed.segmentOf 0x1000) 2 = false
      ∧ (lookupPage (bitsAt (closed.segmentOf 0x1000) 8 24) (bitsAt (0x1000 : Word) 4 16) closed).1 = .entry page
      ∧ bitAt (closed.segmentOf 0x1000) 1 = true ∧ page.pp = 0 := by
  decide +kernel

/-- Without a copy in the TLB the look-up is a walk; with two copies that differ, as two TLBs may have them, it is one of them or
a walk (R200). -/
theorem witness_TranslatedAccesses_copies :
    mapped.tlbCopies 0 1 = []
    ∧ ({ mapped with tlb := [page, { page with rpn := 3 }] } : State).tlbCopies 0 1 = [page, { page with rpn := 3 }] := by
  decide +kernel

theorem mapped_canonical : mapped.Canonical :=
  ⟨by decide +kernel, by decide +kernel, fun x hx => small_canonical.ioccs x hx⟩

/-- The last word of the page, with the reference bit set already: nothing is to be recorded for a load, for a store the change
bit, in memory. -/
theorem witness_TranslatedAccesses_mapped :
    mapped.Canonical ∧ (mapped.eaD 4 0xFFC = 0x1FFC
      ∧ (lookupPage (bitsAt (mapped.segmentOf 0x1FFC) 8 24) (bitsAt (0x1FFC : Word) 4 16) mapped).1 = .entry page
      ∧ page.f = true ∧ bitAt (mapped.segmentOf 0x1FFC) 1 = false)
    ∧ ((lookupPage (bitsAt (mapped.segmentOf 0x1FFC) 8 24) (bitsAt (0x1FFC : Word) 4 16) mapped).2.recordBits
        page true false).2.Readable 0x2FFC 4
    ∧ (let p := lookupPage (bitsAt (mapped.segmentOf 0x1FFC) 8 24) (bitsAt (0x1FFC : Word) 4 16) mapped
      let u := (p.2.recordBits page true true).2
      page.c = false ∧ p.2.Readable page.word 4 ∧ p.2.NoRom page.word 4 ∧ u.Readable 0x2FFC 4 ∧ u.NoRom 0x2FFC 4) :=
  ⟨mapped_canonical, by decide +kernel, readable_iff (by decide +kernel), rfl, readable_iff (by decide +kernel),
    by unfold State.NoRom; decide +kernel, readable_iff (by decide +kernel), by unfold State.NoRom; decide +kernel⟩

/-! ### Witnesses: loads and stores -/

/-- An access of n bytes at `a` can be performed in real mode. -/
def allowed (s : State) (a : Word) (n : Nat) : Bool :=
  !s.msrDR && readable s a n
    && (List.range n).all fun i => !s.isIo (a + BitVec.ofNat 32 i) && !s.isRom (a + BitVec.ofNat 32 i).toNat

theorem canStoreBlock {s : State} (c : s.Canonical) {a : Word} {n : Nat} (h : allowed s a n = true) :
    s.CanStoreBlock a n := by
  simp only [allowed, Bool.and_eq_true, Bool.not_eq_true', List.all_eq_true, List.mem_range] at h
  exact ⟨⟨c, ⟨h.1.1, fun i hi => (h.2 i hi).1⟩, readable_iff h.1.2⟩, fun i hi => (h.2 i hi).2⟩

/-- The access at `ea` with its boundary can be performed. -/
def ready (s : State) (ea : Word) (n : Nat) : Bool := (ea.toNat % n == 0 || !s.msrAL) && allowed s (boundary ea n) n

theorem canStore {s : State} (c : s.Canonical) {ea : Word} {n : Nat} (h : ready s ea n = true) : s.CanStore ea n := by
  simp only [ready, Bool.and_eq_true, Bool.or_eq_true, beq_iff_eq, Bool.not_eq_true'] at h
  have b := canStoreBlock c h.2
  exact ⟨⟨c, h.1, b.real, b.readable⟩, b.noRom⟩

theorem canStores {s : State} (c : s.Canonical) {ea : Word} {l : List Nat} (h : (l.all fun n => ready s ea n) = true) :
    ∀ n ∈ l, s.CanStore ea n :=
  fun n hn => canStore c (List.all_eq_true.1 h n hn)

theorem checked_canonical : checked.Canonical := ⟨small_canonical.mem, small_canonical.nvram, small_canonical.ioccs⟩

/-- Quads whose first doubleword can be loaded and stored, on a word boundary only. -/
theorem witness_AlignmentInterrupt_quad :
    (Instr.isQuad (.lfq 1 4 1) = true ∧ checked2.scalarAccess (.lfq 1 4 1) = some (0x1004, 8))
    ∧ (Instr.isQuad (.stfqu 1 4 1) = true ∧ checked2.scalarAccess (.stfqu 1 4 1) = some (0x1004, 8))
    ∧ (checked2.msrAL = true ∧ checked2.msrFP = true ∧ (0x1004 : Word).toNat % 8 ≠ 0)
    ∧ checked2.CanStoreBlock 0x1004 8 ∧ checked2.isIo (0x1004 + 8) = false :=
  ⟨by decide +kernel, by decide +kernel, by decide +kernel,
    canStoreBlock (s := checked2) ⟨small_canonical.mem, small_canonical.nvram, small_canonical.ioccs⟩ (by decide +kernel),
    by decide +kernel⟩

/-- An address on no boundary with checking off, one on every boundary with checking on, and the last bytes of memory. -/
theorem scalar_accesses :
    (∀ n ∈ [1, 2, 4, 8], small.CanStore (small.eaD 4 3) n) ∧ (∀ n ∈ [1, 2, 4, 8], checked.CanStore (checked.eaX 4 0) n)
      ∧ ∀ n ∈ [1, 2, 4, 8], small.CanStore 0x00FFFFFF n :=
  ⟨canStores small_canonical (by decide +kernel), canStores checked_canonical (by decide +kernel),
    canStores small_canonical (by decide +kernel)⟩

theorem witness_LoadsWithoutUpdate : ∀ n ∈ [1, 2, 4], small.CanLoad (small.eaD 4 3) n ∧ checked.CanLoad (checked.eaX 4 0) n :=
  fun n hn => ⟨(scalar_accesses.1 n (by simp at hn ⊢; omega)).toCanLoad,
    (scalar_accesses.2.1 n (by simp at hn ⊢; omega)).toCanLoad⟩

theorem witness_LoadsWithUpdate : ∀ n ∈ [1, 2, 4], small.CanLoad (small.eaD 4 3) n ∧ checked.CanLoad (checked.eaX 4 0) n :=
  witness_LoadsWithoutUpdate

theorem witness_StoresWithoutUpdate : ∀ n ∈ [1, 2, 4], small.CanStore (small.eaD 4 3) n ∧ checked.CanStore (checked.eaX 4 0) n :=
  fun n hn => ⟨scalar_accesses.1 n (by simp at hn ⊢; omega), scalar_accesses.2.1 n (by simp at hn ⊢; omega)⟩

theorem witness_StoresWithUpdate : ∀ n ∈ [1, 2, 4], small.CanStore (small.eaD 4 3) n ∧ checked.CanStore (checked.eaX 4 0) n :=
  witness_StoresWithoutUpdate

/-- All registers and the last one alone. -/
theorem witness_LoadAndStoreMultiple :
    small.AlignFree (small.eaD 4 2) 4 ∧ ∀ r ∈ [0#5, 31#5], small.CanStoreBlock (boundary (small.eaD 4 2) 4) (4 * (32 - r.toNat)) := by
  refine ⟨Or.inr (by decide +kernel), fun r hr => canStoreBlock small_canonical ?_⟩
  exact List.all_eq_true.1 (by decide +kernel :
    ([0#5, 31#5].all fun r => allowed small (boundary (small.eaD 4 2) 4) (4 * (32 - r.toNat))) = true) r hr

/-- The same bytes with a string count of n in XER and the compare byte X'82'. -/
def counting (n : BitVec 7) : State := { small with xer := 0x8200 ||| n.setWidth 32 }

theorem counting_canonical (n : BitVec 7) : (counting n).Canonical :=
  ⟨small_canonical.mem, small_canonical.nvram, small_canonical.ioccs⟩

/-- One byte and 32; by XER one byte, 127 and none. -/
theorem witness_LoadStrings :
    (∀ n ∈ [1, 32], small.CanLoadBlock (small.regOr0 4) n)
    ∧ (∀ n ∈ [1#7, 127#7], (bitsAt (counting n).xer 25 7).toNat ≠ 0
      ∧ (counting n).CanLoadBlock ((counting n).eaX 4 0) (bitsAt (counting n).xer 25 7).toNat)
    ∧ bitsAt (counting 0).xer 25 7 = 0 := by
  refine ⟨fun n hn => (canStoreBlock small_canonical (List.all_eq_true.1 (by decide +kernel :
      ([1, 32].all fun n => allowed small (small.regOr0 4) n) = true) n hn)).toCanLoadBlock, fun n hn => ⟨?_, ?_⟩,
    by decide +kernel⟩
  · revert n; decide +kernel
  · exact (canStoreBlock (counting_canonical n) (List.all_eq_true.1 (by decide +kernel : ([1#7, 127#7].all fun n =>
      allowed (counting n) ((counting n).eaX 4 0) (bitsAt (counting n).xer 25 7).toNat) = true) n hn)).toCanLoadBlock

/-- No byte, and more bytes than there are before the compare byte. -/
theorem witness_LoadStringAndCompare :
    ∀ n ∈ [0#7, 5#7], (counting n).CanLoadBlock ((counting n).eaX 4 0) (bitsAt (counting n).xer 25 7).toNat :=
  fun n hn => (canStoreBlock (counting_canonical n) (List.all_eq_true.1 (by decide +kernel : ([0#7, 5#7].all fun n =>
    allowed (counting n) ((counting n).eaX 4 0) (bitsAt (counting n).xer 25 7).toNat) = true) n hn)).toCanLoadBlock

theorem witness_StoreStrings :
    (∀ n ∈ [1, 32], small.CanStoreBlock (small.regOr0 4) n)
    ∧ (∀ n ∈ [1#7, 127#7], (bitsAt (counting n).xer 25 7).toNat ≠ 0
      ∧ (counting n).CanStoreBlock ((counting n).eaX 4 0) (bitsAt (counting n).xer 25 7).toNat)
    ∧ bitsAt (counting 0).xer 25 7 = 0 := by
  refine ⟨fun n hn => canStoreBlock small_canonical (List.all_eq_true.1 (by decide +kernel :
      ([1, 32].all fun n => allowed small (small.regOr0 4) n) = true) n hn), fun n hn => ⟨?_, ?_⟩, by decide +kernel⟩
  · revert n; decide +kernel
  · exact canStoreBlock (counting_canonical n) (List.all_eq_true.1 (by decide +kernel : ([1#7, 127#7].all fun n =>
      allowed (counting n) ((counting n).eaX 4 0) (bitsAt (counting n).xer 25 7).toNat) = true) n hn)

theorem witness_FailedLoadsAlterNothing :
    Instr.isFixedLoad (.l 3 4 0) = true ∧ unmapped.entered = false
      ∧ ∃ t, exec (.l 3 4 0) unmapped = .next t ∧ t.entered = true :=
  ⟨rfl, rfl, nextHas_iff (by decide +kernel)⟩

/-! ### Witnesses: fixed point -/

/-- Registers 5 and 6 and MQ as given. -/
def dividing (a b mq : Word) : State := ({ small with mq := mq }.setReg 5 a).setReg 6 b

/-- For div and for divs: a quotient, the most negative dividend by -1, a zero divisor, and for div a quotient that is one
too large. -/
theorem witness_Divisions :
    let n (s : State) : Int := (s.reg 5 ++ s.mq).toInt
    let m (s : State) : Int := (s.reg 5).toInt
    let d (s : State) : Int := (s.reg 6).toInt
    (d (dividing 0 1 0x7FFFFFFF) ≠ 0 ∧ ¬ Overflows ((n (dividing 0 1 0x7FFFFFFF)).tdiv (d (dividing 0 1 0x7FFFFFFF))))
    ∧ (n (dividing 0xFFFFFFFF 0xFFFFFFFF 0x80000000) = -2 ^ 31 ∧ d (dividing 0xFFFFFFFF 0xFFFFFFFF 0x80000000) = -1)
    ∧ (d (dividing 0 0 1) = 0
      ∧ ¬ (n (dividing 0 0 1) = -2 ^ 31 ∧ d (dividing 0 0 1) = -1))
    ∧ (Overflows ((n (dividing 0 1 0x80000000)).tdiv (d (dividing 0 1 0x80000000)))
      ∧ ¬ (n (dividing 0 1 0x80000000) = -2 ^ 31 ∧ d (dividing 0 1 0x80000000) = -1))
    ∧ (d (dividing 7 0xFFFFFFFE 0) ≠ 0 ∧ ¬ Overflows ((m (dividing 7 0xFFFFFFFE 0)).tdiv (d (dividing 7 0xFFFFFFFE 0))))
    ∧ (m (dividing 0x80000000 0xFFFFFFFF 0) = -2 ^ 31 ∧ d (dividing 0x80000000 0xFFFFFFFF 0) = -1)
    ∧ (d (dividing 7 0 0) = 0 ∧ ¬ (m (dividing 7 0 0) = -2 ^ 31 ∧ d (dividing 7 0 0) = -1)) := by
  decide +kernel

/-- cntlz of a word whose first bit is 1, and of 0. -/
theorem witness_LogicalInstructions :
    ((0 : Nat) ≤ 32 ∧ (∀ k, k < 0 → bitAt ((dividing 0x80000000 0 0).reg 5) k = false)
      ∧ bitAt ((dividing 0x80000000 0 0).reg 5) 0 = true)
    ∧ ((32 : Nat) ≤ 32 ∧ ∀ k, k < 32 → bitAt ((dividing 0 0 0).reg 5) k = false) := by
  decide +kernel

/-- For each form there is the word with the bits it asks for. -/
theorem witness_RotateAndMask (f : Nat → Bool) : ∃ v : Word, ∀ k, k < 32 → bitAt v k = f k := by
  refine ⟨BitVec.ofFnLE fun i => f (31 - i.val), fun k hk => ?_⟩
  rw [bitAt_eq _ hk, BitVec.getLsbD_ofFnLE]
  have : 31 - k < 32 := by omega
  rw [dif_pos this]
  congr 1
  show 31 - (31 - k) = k
  omega

/-! ### Witnesses: branches and special registers -/

/-- A branch always, one on CTR that reaches 0, one on CTR that is not 0, and one that is not taken. -/
theorem witness_Branches :
    BranchTaken small 20 0 0 ∧ BranchTaken small 18 0 0 ∧ BranchTaken small 16 0 1 ∧ ¬ BranchTaken small 16 0 0
      ∧ ¬ BranchTaken small 12 0 0 := by
  unfold BranchTaken
  decide +kernel

/-- A word equal to itself traps on equality, and not on inequality. -/
theorem witness_Traps :
    (4#5).getMsbD 2 = true ∧ (dividing 7 7 0).reg 5 = (dividing 7 7 0).reg 6
      ∧ ¬ ((dividing 7 7 0).reg 5).toInt < ((dividing 7 7 0).reg 6).toInt
      ∧ ¬ ((dividing 7 7 0).reg 5).toNat < ((dividing 7 7 0).reg 6).toNat ∧ (27#5).getMsbD 2 = false := by
  decide +kernel

theorem witness_SpecialRegisterMoves :
    small.msrPR = false ∧ small.cfg.impl = .power ∧ small2.msrPR = false ∧ small2.cfg.impl = .power2
      ∧ small.msrIR = false ∧ ({ small with msr := 0x20 } : State).msrIR = true := by
  decide +kernel

theorem witness_StateMoves : small.msrPR = false ∧ small.msrIR = false ∧ small.ic = [] := by decide +kernel

/-- No level pending, the first and the last one pending; the three commands with their smallest or
largest level; a read too soon, a level that is too large for each of the two commands, the first code without a
command. -/
theorem witness_InterruptLevelsAndSignal :
    (small2.cfg.impl = .power2 ∧ small2.msrPR = false ∧ small2.cfg.OwnIlcr)
    ∧ (small2.ilcrSettle = 0 ∧ small2.eis = 0)
    ∧ (({ small2 with eis := 1#64 <<< 63 } : State).eis.getMsbD 0 = true)
    ∧ (({ small2 with eis := 1#64 } : State).eis.getMsbD 63 = true
      ∧ ∀ m, m < 63 → ({ small2 with eis := 1#64 } : State).eis.getMsbD m = false)
    ∧ bitsAt ((small2.setReg 5 0x0000FF00).reg 5) 0 8 = 0
    ∧ (bitsAt ((small2.setReg 5 0x0100003F).reg 5) 0 8 = 1 ∧ (bitsAt ((small2.setReg 5 0x0100003F).reg 5) 24 8).toNat < 64)
    ∧ (bitsAt ((small2.setReg 5 0x02000000).reg 5) 0 8 = 2
      ∧ (bitsAt ((small2.setReg 5 0x02000000).reg 5) 24 8).toNat < 64)
    ∧ ({ small2 with ilcrSettle := 1 } : State).ilcrSettle ≠ 0
    ∧ (bitsAt ((small2.setReg 5 0x02000040).reg 5) 0 8 = 2
      ∧ 64 ≤ (bitsAt ((small2.setReg 5 0x02000040).reg 5) 24 8).toNat)
    ∧ (bitsAt ((small2.setReg 5 0x01000040).reg 5) 0 8 = 1
      ∧ 64 ≤ (bitsAt ((small2.setReg 5 0x01000040).reg 5) 24 8).toNat)
    ∧ 3 ≤ (bitsAt ((small2.setReg 5 0x03000000).reg 5) 0 8).toNat
    ∧ small.cfg.impl = .power := by
  unfold Config.Machine.OwnIlcr
  decide +kernel

/-- RTCL one unit before its terminal count, at it, and one unit above; the last tick that may come and one more; a tick
that is due. -/
theorem witness_TimeBase :
    ({ small with agenda := [.tick], rtcl := 999999488 } : State).agenda = .tick :: []
      ∧ ({ small with agenda := [.tick], rtcl := 999999488 } : State).rtcl.toNat < 999999744
      ∧ ({ small with agenda := [.tick], rtcl := 999999744 } : State).rtcl.toNat = 999999744
      ∧ 999999744 < ({ small with agenda := [.tick], rtcl := 1000000000 } : State).rtcl.toNat
      ∧ ({ small with ticksRun := 3906249 } : State).ticksRun < 3906250
      ∧ (small.checkstopped = false ∧ 3906250 ≤ ({ small with ticksRun := 3906250 } : State).ticksRun)
      ∧ (small.agenda = [] ∧ small.cfg.tickEvery < ({ small with stepsRun := 0x100001 } : State).stepsRun) :=
  ⟨rfl, by decide +kernel, by decide +kernel, by decide +kernel, by decide +kernel, by decide +kernel,
    by decide +kernel⟩

/-! ### Witnesses: storage control -/

/-- An address in an I/O segment; one in real mode whose line is in the data cache, modified. -/
theorem witness_CacheInstructions :
    let io : State := small.setSegment 0 0x80000000
    let s : State := { small with dc := [⟨0x40, List.replicate 64 7, true⟩] }
    (small.Canonical ∧ small.msrPR = false) ∧ io.isIo (io.eaX 4 0) = true
    ∧ (s.Canonical ∧ s.RealMode (s.eaX 4 0) 1 ∧ s.dataLine (s.lineOf (s.eaX 4 0)) = some ⟨0x40, List.replicate 64 7, true⟩
      ∧ ∀ k, k < s.lineSize → s.isRam (s.lineBase (s.lineOf (s.eaX 4 0)) + k) = true) :=
  ⟨⟨small_canonical, by decide +kernel⟩, by decide +kernel,
    ⟨small_canonical.mem, small_canonical.nvram, small_canonical.ioccs⟩, ⟨by decide +kernel, by decide +kernel⟩,
    by decide +kernel, by decide +kernel⟩

/-- The first and the last selector of clcs with a stated answer; rac in an I/O segment and on a page that the tables have. -/
theorem witness_SegmentAndTranslationInstructions :
    small.msrPR = false ∧ (∀ r ∈ [12#5, 15#5], 12 ≤ r.toNat ∧ r.toNat < 16)
    ∧ (small.setSegment 0 0x80000000).isIo 0x1000 = true
    ∧ (mapped.isIo (mapped.eaX 4 0) = false
      ∧ (lookupPage (bitsAt (mapped.segmentOf (mapped.eaX 4 0)) 8 24) (bitsAt (mapped.eaX 4 0) 4 16) mapped).1 = .entry page) := by
  decide +kernel

/-! ### Witnesses: floating point -/

/-- Floating point on, with these two numbers in registers 5 and 6. -/
def numbers (a b : DWord) : State := (floats.setFreg 5 a).setFreg 6 b

theorem floats_canonical : floats.Canonical :=
  ⟨by decide +kernel, small_canonical.nvram, fun x hx => small_canonical.ioccs x hx⟩

theorem witness_FloatingPointMoves : floats.msrFP = true := by decide +kernel

theorem witness_FloatingPointLoads :
    floats.msrFP = true ∧ (∀ n ∈ [4, 8], floats.CanLoad (floats.eaX 4 5) n)
      ∧ floats.CanLoad (floats.eaX 4 5) 8 ∧ floats.CanLoad (floats.eaX 4 5 + 8) 8 :=
  have h := canStores (ea := floats.eaX 4 5) (l := [4, 8]) floats_canonical (by decide +kernel)
  ⟨by decide +kernel, fun n hn => (h n hn).toCanLoad, (h 8 (by simp)).toCanLoad,
    (canStore floats_canonical (by decide +kernel)).toCanLoad⟩

/-- The doublewords of a quad, at an address that is on no boundary. -/
theorem witness_FloatingPointStores :
    floats.msrFP = true ∧ (∀ n ∈ [4, 8], floats.CanStore (floats.eaD 4 1) n) ∧ floats.CanStore (floats.eaD 4 1 + 8) 8 :=
  ⟨by decide +kernel, canStores floats_canonical (by decide +kernel), canStore floats_canonical (by decide +kernel)⟩

/-- A denormalized single and the largest finite one. -/
theorem witness_SinglesSurviveRegisters :
    ((1 : Word).extractLsb' 23 8).toNat = 0 ∧ ((0x7F7FFFFF : Word).extractLsb' 23 8).toNat = 254 := by
  decide +kernel

theorem witness_FloatingPointArithmeticCompletes : floats.msrFP = true := by decide +kernel

theorem fpValue_one : fpValue 0x3FF0000000000000 = 1 := by
  unfold fpValue
  rw [show fpSign 0x3FF0000000000000 = false by decide +kernel, show fpExp 0x3FF0000000000000 = 1023 by decide +kernel,
    show fpFrac 0x3FF0000000000000 = 0 by decide +kernel]
  norm_num

theorem fpValue_zero : fpValue 0 = 0 := by
  unfold fpValue
  rw [show fpSign 0 = false by decide +kernel, show fpExp 0 = 0 by decide +kernel, show fpFrac 0 = 0 by decide +kernel]
  norm_num

theorem fpValue_tiny : fpValue 1 = 2 ^ (-1074 : ℤ) := by
  unfold fpValue
  rw [show fpSign 1 = false by decide +kernel, show fpExp 1 = 0 by decide +kernel, show fpFrac 1 = 1 by decide +kernel]
  norm_num

theorem fpValue_large : fpValue 0x7FE0000000000000 = 2 ^ 1023 := by
  unfold fpValue
  rw [show fpSign 0x7FE0000000000000 = false by decide +kernel, show fpExp 0x7FE0000000000000 = 2046 by decide +kernel,
    show fpFrac 0x7FE0000000000000 = 0 by decide +kernel]
  norm_num
  rw [show (4503599627370496 : ℚ) = 2 ^ 52 by norm_num, ← pow_add]

theorem fpValue_largest : fpValue 0x7FEFFFFFFFFFFFFF = 2 ^ 55 * 2 ^ 969 - 4 * 2 ^ 969 := by
  unfold fpValue
  rw [show fpSign 0x7FEFFFFFFFFFFFFF = false by decide +kernel, show fpExp 0x7FEFFFFFFFFFFFFF = 2046 by decide +kernel,
    show fpFrac 0x7FEFFFFFFFFFFFFF = 0xFFFFFFFFFFFFF by decide +kernel,
    show (2 : ℚ) ^ (((2046 : ℕ) : ℤ) - 1075) = 4 * 2 ^ 969 by
      rw [show ((2046 : ℕ) : ℤ) - 1075 = ((2 + 969 : ℕ) : ℤ) by norm_num, zpow_natCast, pow_add]; norm_num]
  generalize (2 : ℚ) ^ 969 = x
  norm_num
  ring

theorem fpValue_pow970 : fpValue 0x7C90000000000000 = 2 * 2 ^ 969 := by
  unfold fpValue
  rw [show fpSign 0x7C90000000000000 = false by decide +kernel, show fpExp 0x7C90000000000000 = 1993 by decide +kernel,
    show fpFrac 0x7C90000000000000 = 0 by decide +kernel]
  norm_num
  rw [show (4503599627370496 : ℚ) = 2 ^ 52 by norm_num, ← pow_add, ← pow_succ']

theorem fpValue_pow969 : fpValue 0x7C80000000000000 = 2 ^ 969 := by
  unfold fpValue
  rw [show fpSign 0x7C80000000000000 = false by decide +kernel, show fpExp 0x7C80000000000000 = 1992 by decide +kernel,
    show fpFrac 0x7C80000000000000 = 0 by decide +kernel]
  norm_num
  rw [show (4503599627370496 : ℚ) = 2 ^ 52 by norm_num, ← pow_add]

theorem pow_range : (1 : ℚ) ≤ 2 ^ 969 ∧ maxDouble = 2 ^ 55 * 2 ^ 969 - 4 * 2 ^ 969 ∧ (2 : ℚ) ^ 1024 = 2 ^ 55 * 2 ^ 969
    ∧ (2 : ℚ) ^ 1024 = 2 * 2 ^ 1023 :=
  ⟨one_le_pow₀ (by norm_num), by rw [maxDouble, ← pow_add, show (4 : ℚ) = 2 ^ 2 by norm_num, ← pow_add], by rw [← pow_add],
    by rw [← pow_succ']⟩

/-- Finite operands, a divisor that is not zero, and the square roots of zero and of one. -/
theorem witness_ArithmeticRounds :
    floats.msrFP = true ∧ (∀ r ∈ [1#5, 2#5, 3#5], fpFinite (floats.freg r) = true)
      ∧ (0 ≤ fpValue (floats.freg 2) ∧ fpValue (floats.freg 2) ≠ 0)
      ∧ fpFinite (floats.freg 0) = true ∧ fpValue (floats.freg 0) = 0 := by
  refine ⟨by decide +kernel, by decide +kernel, ?_, by decide +kernel, ?_⟩
  · rw [show floats.freg 2 = 0x3FF0000000000000 by decide +kernel, fpValue_one]; norm_num
  · rw [show floats.freg 0 = 0 by decide +kernel, fpValue_zero]

/-- Each case of `Delivers`, for a sum to the nearest: 1, and 0 as the difference of equal numbers; a tiny number with the
underflow exception enabled and not; the largest number and a quarter of its last place, which is rounded back; it and half a
place, and 2^1024, beyond, with the overflow exception enabled and not. -/
theorem witness_ArithmeticRounds_cases :
    (|fpValue 0x3FF0000000000000 + fpValue 0| ≤ maxDouble ∧ bitAt (0 : Word) 26 = false
      ∧ fpValue 0x3FF0000000000000 - fpValue 0x3FF0000000000000 = 0)
    ∧ (fpFinite 1 = true ∧ fpValue 1 + fpValue 0 ≠ 0 ∧ |fpValue 1 + fpValue 0| < 2 ^ (-1022 : ℤ)
      ∧ bitAt (0x20 : Word) 26 = true ∧ |fpValue 1 + fpValue 0| ≤ maxDouble)
    ∧ (maxDouble < |fpValue 0x7FEFFFFFFFFFFFFF + fpValue 0x7C80000000000000|
      ∧ ¬ RoundsBeyond (bitsAt (0 : Word) 30 2) maxDouble (2 ^ 1024) (fpValue 0x7FEFFFFFFFFFFFFF + fpValue 0x7C80000000000000))
    ∧ RoundsBeyond (bitsAt (0 : Word) 30 2) maxDouble (2 ^ 1024) (fpValue 0x7FEFFFFFFFFFFFFF + fpValue 0x7C90000000000000)
    ∧ RoundsBeyond (bitsAt (1 : Word) 30 2) maxDouble (2 ^ 1024) (fpValue 0x7FE0000000000000 + fpValue 0x7FE0000000000000)
    ∧ bitAt (0x40 : Word) 25 = true ∧ bitAt (0 : Word) 25 = false := by
  obtain ⟨h1, h2, h3, h4⟩ := pow_range
  refine ⟨⟨?_, by decide +kernel, sub_self _⟩, ⟨by decide +kernel, ?_, ?_, by decide +kernel, ?_⟩, ?_, ?_, ?_,
    by decide +kernel, by decide +kernel⟩
  · rw [fpValue_one, fpValue_zero, h2, add_zero, abs_one]
    generalize (2 : ℚ) ^ 969 = x at h1
    linarith
  · rw [fpValue_tiny, fpValue_zero, add_zero]; exact (zpow_pos (by norm_num) _).ne'
  · rw [fpValue_tiny, fpValue_zero, add_zero, abs_of_pos (zpow_pos (by norm_num) _)]
    exact zpow_lt_zpow_right₀ (by norm_num) (by norm_num)
  · rw [fpValue_tiny, fpValue_zero, add_zero, abs_of_pos (zpow_pos (by norm_num) _), h2]
    have h5 : (2 : ℚ) ^ (-1074 : ℤ) ≤ 1 := zpow_le_one_of_nonpos₀ (by norm_num) (by norm_num)
    generalize (2 : ℚ) ^ 969 = x at h1
    linarith
  · rw [RoundsBeyond, fpValue_largest, fpValue_pow969, h2, h3, show bitsAt (0 : Word) 30 2 = 0 by decide +kernel]
    generalize (2 : ℚ) ^ 969 = x at h1
    rw [abs_of_pos (by linarith)]
    refine ⟨by linarith, ?_⟩
    rintro (h | ⟨-, ⟨-, h⟩ | ⟨h, -⟩ | ⟨h, -⟩⟩)
    · linarith
    · linarith
    · exact absurd h (by decide)
    · exact absurd h (by decide)
  · rw [RoundsBeyond, fpValue_largest, fpValue_pow970, h2, h3, show bitsAt (0 : Word) 30 2 = 0 by decide +kernel]
    generalize (2 : ℚ) ^ 969 = x at h1
    rw [abs_of_pos (by linarith)]
    exact .inr ⟨by linarith, .inl ⟨rfl, by linarith⟩⟩
  · rw [RoundsBeyond, fpValue_large, ← two_mul, ← h4]; exact .inl (le_abs_self _)

/-- This number in register 5, a quiet NaN in register 6, and the FPSCR. -/
def nans (x : DWord) (fpscr : Word) : State := { numbers x 0x7FF8000000000000 with fpscr := fpscr }

/-- A quiet NaN after a number, with VE = 0 and with VE = 1, where nothing is invalid; a signaling one; a NaN added to a product
of zero and infinity. -/
theorem witness_ArithmeticOnNans :
    (∀ s ∈ [nans 0 0, nans 0 0x80], s.msrFP = true
      ∧ s.floatOperands (.fa 1 2 6 false) = some (1, [s.freg 2, s.freg 6], false)
      ∧ [s.freg 2, s.freg 6] = [s.freg 2] ++ s.freg 6 :: [] ∧ isNan (s.freg 2) = false ∧ isNan (s.freg 6) = true
      ∧ isSnan (s.freg 2) = false ∧ isSnan (s.freg 6) = false)
    ∧ (bitAt (0 : Word) 24 = false ∧ bitAt (0x80 : Word) 24 = true)
    ∧ (let s := nans 0x7FF0000000000001 0x80
      s.floatOperands (.fa 1 2 5 false) = some (1, [s.freg 2, s.freg 5], false) ∧ isSnan (s.freg 5) = true)
    ∧ (let s := nans 0x7FF0000000000000 0x80
      s.floatOperands (.fma 1 0 6 5 false) = some (1, [s.freg 0, s.freg 6, s.freg 5], false)
        ∧ isZero (s.freg 0) = true ∧ isInf (s.freg 5) = true ∧ isNan (s.freg 6) = true) :=
  ⟨by decide +kernel, by decide +kernel, by decide +kernel, by decide +kernel⟩

/-- Infinities of different and of one sign, zeros, an infinity and zero both ways, a negative number for the root, one
divided by zero; an infinite product of an infinity and a number, infinities of either sign to add to it, a product of
numbers, and the root of an infinity. -/
theorem witness_InvalidOperationsAndZeroDivide :
    floats.msrFP = true
    ∧ (isInf (0x7FF0000000000000 : DWord) = true ∧ isInf (0xFFF0000000000000 : DWord) = true
      ∧ fpSign (0x7FF0000000000000 : DWord) ≠ fpSign 0xFFF0000000000000)
    ∧ isZero (0 : DWord) = true
    ∧ (fpSign (floats.freg 1) = true ∧ isZero (floats.freg 1) = false ∧ isNan (floats.freg 1) = false)
    ∧ (fpFinite (floats.freg 2) = true ∧ isZero (floats.freg 2) = false ∧ isNan (floats.freg 2) = false)
    ∧ (isNan (0x7FF0000000000000 : DWord) = false ∧ fpSign (0x7FF0000000000000 : DWord) = false)
    ∧ ((fpSign (0x7FF0000000000000 : DWord) != fpSign (floats.freg 2)) ≠ (fpSign (0xFFF0000000000000 : DWord) != false)
      ∧ (fpSign (0x7FF0000000000000 : DWord) != fpSign (floats.freg 2)) = (fpSign (0x7FF0000000000000 : DWord) != false))
    ∧ isInf (floats.freg 2) = false := by
  decide +kernel

theorem fpValue_single : fpValue 0x47EFFFFFE0000000 = 2 ^ 128 - 2 ^ 104 := by
  unfold fpValue
  rw [show fpSign 0x47EFFFFFE0000000 = false by decide +kernel, show fpExp 0x47EFFFFFE0000000 = 1150 by decide +kernel,
    show fpFrac 0x47EFFFFFE0000000 = 0xFFFFFE0000000 by decide +kernel]
  norm_num

theorem fpValue_aboveSingle : fpValue 0x47F0000000000000 = 2 ^ 128 := by
  unfold fpValue
  rw [show fpSign 0x47F0000000000000 = false by decide +kernel, show fpExp 0x47F0000000000000 = 1151 by decide +kernel,
    show fpFrac 0x47F0000000000000 = 0 by decide +kernel]
  norm_num

theorem fpValue_smallSingle : fpValue 0x3810000000000000 = 2 ^ (-126 : ℤ) := by
  unfold fpValue
  rw [show fpSign 0x3810000000000000 = false by decide +kernel, show fpExp 0x3810000000000000 = 897 by decide +kernel,
    show fpFrac 0x3810000000000000 = 0 by decide +kernel]
  norm_num

theorem fpValue_halfBeyond : fpValue 0x47EFFFFFF0000000 = 2 ^ 128 - 2 ^ 103 := by
  unfold fpValue
  rw [show fpSign 0x47EFFFFFF0000000 = false by decide +kernel, show fpExp 0x47EFFFFFF0000000 = 1150 by decide +kernel,
    show fpFrac 0x47EFFFFFF0000000 = 0xFFFFFF0000000 by decide +kernel]
  norm_num

theorem fpValue_notBeyond : fpValue 0x47EFFFFFE8000000 = 2 ^ 128 - 2 ^ 104 + 2 ^ 102 := by
  unfold fpValue
  rw [show fpSign 0x47EFFFFFE8000000 = false by decide +kernel, show fpExp 0x47EFFFFFE8000000 = 1150 by decide +kernel,
    show fpFrac 0x47EFFFFFE8000000 = 0xFFFFFE8000000 by decide +kernel]
  norm_num

/-- Zero, an infinity, a quiet and a signaling NaN; 2^-126 and the largest single; a tiny number, with underflow exceptions
enabled and not. -/
theorem witness_RoundToSingle :
    (floats.msrFP = true ∧ floats.cfg.fpaErratum = false ∧ isZero 0 = true ∧ isInf 0xFFF0000000000000 = true
      ∧ (isNan 0x7FF8000000000000 = true ∧ isSnan 0x7FF8000000000000 = false) ∧ isSnan 0x7FF0000000000001 = true
      ∧ fpFinite 0x3810000000000000 = true)
    ∧ ((2 : ℚ) ^ (-126 : ℤ) ≤ |fpValue 0x3810000000000000| ∧ |fpValue 0x3810000000000000| ≤ maxSingle)
    ∧ ((2 : ℚ) ^ (-126 : ℤ) ≤ |fpValue 0x47EFFFFFE0000000| ∧ |fpValue 0x47EFFFFFE0000000| ≤ maxSingle
      ∧ (0x47EFFFFFE0000000 : DWord).extractLsb' 0 29 = 0 ∧ fpExp 0x47EFFFFFE0000000 = 1150)
    ∧ (fpValue 1 ≠ 0 ∧ |fpValue 1| < 2 ^ (-126 : ℤ) ∧ bitAt (0x20 : Word) 26 = true ∧ bitAt (0 : Word) 26 = false) := by
  refine ⟨by decide +kernel, ⟨?_, ?_⟩, ⟨?_, ?_, by decide +kernel⟩, ?_, ?_, by decide +kernel, by decide +kernel⟩
  · rw [fpValue_smallSingle]; exact le_abs_self _
  · rw [fpValue_smallSingle]; norm_num [maxSingle, abs_of_pos]
  · rw [fpValue_single]; norm_num
  · rw [fpValue_single]; norm_num [maxSingle]
  · rw [fpValue_tiny]; exact (zpow_pos (by norm_num) _).ne'
  · rw [fpValue_tiny, abs_of_pos (zpow_pos (by norm_num) _)]
    exact zpow_lt_zpow_right₀ (by norm_num) (by norm_num)

/-- To the nearest: the largest single and a quarter of its last place, which is rounded back; it and half a place, beyond;
2^128, beyond in every mode. -/
theorem witness_RoundToSingle_overflow :
    (fpFinite 0x47EFFFFFE8000000 = true ∧ maxSingle < |fpValue 0x47EFFFFFE8000000|
      ∧ ¬ RoundsBeyond (bitsAt (0 : Word) 30 2) maxSingle (2 ^ 128) (fpValue 0x47EFFFFFE8000000))
    ∧ (fpFinite 0x47EFFFFFF0000000 = true
      ∧ RoundsBeyond (bitsAt (0 : Word) 30 2) maxSingle (2 ^ 128) (fpValue 0x47EFFFFFF0000000))
    ∧ (fpFinite 0x47F0000000000000 = true
      ∧ RoundsBeyond (bitsAt (1 : Word) 30 2) maxSingle (2 ^ 128) (fpValue 0x47F0000000000000)) := by
  refine ⟨⟨by decide +kernel, ?_, ?_⟩, ⟨by decide +kernel, ?_⟩, by decide +kernel, ?_⟩
  · rw [fpValue_notBeyond, maxSingle]; norm_num
  · rw [RoundsBeyond, fpValue_notBeyond, maxSingle, show bitsAt (0 : Word) 30 2 = 0 by decide +kernel]; norm_num; decide
  · rw [RoundsBeyond, fpValue_halfBeyond, maxSingle, show bitsAt (0 : Word) 30 2 = 0 by decide +kernel]; norm_num
  · rw [RoundsBeyond, fpValue_aboveSingle]; exact .inl (le_abs_self _)

theorem fpValue_max : fpValue 0x41DFFFFFFFC00000 = 2 ^ 31 - 1 := by
  unfold fpValue
  rw [show fpSign 0x41DFFFFFFFC00000 = false by decide +kernel, show fpExp 0x41DFFFFFFFC00000 = 1053 by decide +kernel,
    show fpFrac 0x41DFFFFFFFC00000 = 0xFFFFFFFC00000 by decide +kernel]
  norm_num

theorem fpValue_halfAbove : fpValue 0x41DFFFFFFFE00000 = 2 ^ 31 - 1 / 2 := by
  unfold fpValue
  rw [show fpSign 0x41DFFFFFFFE00000 = false by decide +kernel, show fpExp 0x41DFFFFFFFE00000 = 1053 by decide +kernel,
    show fpFrac 0x41DFFFFFFFE00000 = 0xFFFFFFFE00000 by decide +kernel]
  norm_num

theorem fpValue_halfBelow : fpValue 0xC1E0000000100000 = -2 ^ 31 - 1 / 2 := by
  unfold fpValue
  rw [show fpSign 0xC1E0000000100000 = true by decide +kernel, show fpExp 0xC1E0000000100000 = 1054 by decide +kernel,
    show fpFrac 0xC1E0000000100000 = 0x100000 by decide +kernel]
  norm_num

/-- A NaN, an infinity; the largest integer of a signed word; the number half above it, which is 2^31 to the nearest and the
largest integer toward zero; the number half below the smallest one, which is that one to the nearest. -/
theorem witness_ConvertToInteger :
    (floats.msrFP = true ∧ isNan 0x7FF8000000000000 = true ∧ isInf 0xFFF0000000000000 = true
      ∧ bitsAt floats.fpscr 30 2 = 0 ∧ bitAt floats.fpscr 24 = false)
    ∧ (fpFinite 0x41DFFFFFFFC00000 = true ∧ RoundedInt 1 (2 ^ 31 - 1) (fpValue 0x41DFFFFFFFC00000))
    ∧ (fpFinite 0x41DFFFFFFFE00000 = true ∧ RoundedInt 0 (2 ^ 31) (fpValue 0x41DFFFFFFFE00000)
      ∧ RoundedInt 1 (2 ^ 31 - 1) (fpValue 0x41DFFFFFFFE00000))
    ∧ (fpFinite 0xC1E0000000100000 = true ∧ RoundedInt 0 (-2 ^ 31) (fpValue 0xC1E0000000100000)) := by
  refine ⟨by decide +kernel, ⟨by decide +kernel, ?_⟩, ⟨by decide +kernel, ?_, ?_⟩, by decide +kernel, ?_⟩
  · rw [fpValue_max]; constructor <;> first | exact fun h => absurd h (by decide) | norm_num
  · rw [fpValue_halfAbove]; constructor <;> first | exact fun h => absurd h (by decide) | norm_num [abs_of_pos]
  · rw [fpValue_halfAbove]; constructor <;> first | exact fun h => absurd h (by decide) | norm_num
  · rw [fpValue_halfBelow]; constructor <;> first | exact fun h => absurd h (by decide) | norm_num [abs_of_pos]

theorem witness_FloatingPointCompares :
    floats.msrFP = true ∧ isNan (0x7FF0000000000001 : DWord) = true
      ∧ (fpFinite (floats.freg 1) = true ∧ fpFinite (floats.freg 2) = true)
      ∧ (isInf (0xFFF0000000000000 : DWord) = true ∧ isNan (floats.freg 1) = false
        ∧ (0xFFF0000000000000 : DWord) ≠ floats.freg 1)
      ∧ fpFinite (floats.freg 1) = true ∧ isInf (0x7FF0000000000000 : DWord) = true := by
  decide +kernel

theorem witness_FpscrInstructions : floats.msrFP = true := by decide +kernel

/-! ### Witnesses: input and output -/

/-- DAR of an unaligned access whose later byte fails: in the page it begins in, and in the next (R699). -/
theorem test_dar_of_a_scalar_access :
    (match (Got.fail .lock 0x1080 [] small).scalar 0x107E with | .fail _ d _ _ => d.toNat | _ => 0) = 0x107E
      ∧ (match (Got.fail .notFound 0x2000 [] small).scalar 0x1FFE with | .fail _ d _ _ => d.toNat | _ => 0) = 0x2000 := by
  decide +kernel

/-- The access to BUID 0 by the displacement `d` is to the register at `a`. -/
def toBuid0 (s : State) (d : BitVec 16) (a : BitVec 28) : Bool :=
  let sr := s.segmentOf (s.eaD 0 d)
  bitAt sr 0 && !bitAt sr 1 && bitsAt sr 4 8 == 0 && bitsAt sr 12 20 == 0 && bitsAt (s.eaD 0 d) 4 28 == a

/-- The registers of BUID 0 at their four addresses. -/
theorem witness_ExternalInterruptRegisters :
    (small.setSegment 0 0x80000000).cfg.impl = .power
    ∧ toBuid0 (small.setSegment 0 0x80000000) 0x00 0x00 = true
    ∧ toBuid0 (small.setSegment 0 0x80000000) 0x04 0x04 = true
    ∧ toBuid0 (small.setSegment 0 0x80000000) 0x10 0x10 = true
    ∧ toBuid0 (small.setSegment 0 0x80000000) 0x14 0x14 = true
    ∧ toBuid0 (small.setSegment 0 0x80000000) 0x20 0x20 = true
    ∧ (small2.setSegment 0 0x80000000).cfg.impl = .power2
    ∧ toBuid0 (small2.setSegment 0 0x80000000) 0x24 0x24 = true
    ∧ toBuid0 (small2.setSegment 0 0x80000000) 0x34 0x34 = true := by
  decide +kernel

/-- The first IOCC's control space in segment 0, with this key bit, and this address in register 5. -/
def control (k base : Word) : State := (small.setSegment 0 (0x82000080 ||| k)).setReg 5 base

theorem control_canonical (k base : Word) : (control k base).Canonical :=
  ⟨small_canonical.mem, small_canonical.nvram, small_canonical.ioccs⟩

/-- The access by the displacement `d` is to the control space. -/
def toControl (s : State) (d : BitVec 16) : Bool :=
  let sr := s.segmentOf (s.eaD 5 d)
  bitAt sr 0 && bitsAt sr 4 8 == 0x20 && bitAt sr 24 && sr &&& 0x3003FF10 == 0 && !isTimeDelay s sr (s.eaD 5 d)

/-- Control space with K = 0: the Configuration and the Interrupt Enable register; the first TCW, the last of 24576 and the
one after; the first and the last word of the tags; the first and the last word of NVRAM; registers 0 and 4 of channel 15.
An aligned address with K = 1. -/
theorem witness_IoccFacilities :
    let ea (base : Word) : Word := (control 0 base).eaD 5 0
    let page (base : Word) : Nat := (bitsAt (ea base) 10 20).toNat
    ((control 0 0).ioccs = Iocc.reset :: [] ∧ Iocc.reset.delay = 0 ∧ Iocc.reset.fault = 0 ∧ (control 0 0).Canonical)
    ∧ (([0x00400010#32, 0x00400080, 0x00C00000, 0x00C17FFC, 0x00C18000, 0x00800000, 0x00807FFC, 0x00A00000,
          0x00A07FFC, 0x004F0060, 0x004F0064].all fun base => toControl (control 0 base) 0) = true
      ∧ bitAt ((control 0 0).segmentOf 0) 1 = false)
    ∧ (page 0x00C00000 = 0 ∧ page 0x00C17FFC = 24575 ∧ page 0x00C18000 = 24576 ∧ bitsAt (ea 0x00C18000) 8 2 = 3
      ∧ bitsAt Iocc.reset.cfgReg 9 3 = 0 ∧ bitsAt Iocc.reset.cfgReg 26 2 = 0 ∧ bitAt Iocc.reset.cfgReg 23 = false)
    ∧ (0x0807FFC = 0x0800000 + 4 * 8191 ∧ 4 * 8191 + 4 ≤ (control 0 0).cfg.nvramBytes)
    ∧ ([0x004F0060#32, 0x004F0064].all fun base => bitsAt (ea base) 8 2 != 3 && iocRegAt (base.toNat / 4 * 4) == none
      && lostAt (control 0 0).cfg.lost (bitsAt (ea base) 4 28) == some (.channelReg, 15)) = true
    ∧ (toControl (control 0x40000000 0x00400000) 0x10 = true
      ∧ bitAt ((control 0x40000000 0x00400000).segmentOf 0x00400010) 1 = true) := by
  refine ⟨⟨rfl, rfl, rfl, control_canonical 0 0⟩, ?_⟩
  decide +kernel

/-- Bus I/O space in segment 0, the slots out of reset, and the answer of slot 1. -/
theorem witness_IoccFacilities_bus :
    let x : Iocc := { Iocc.reset with crr := 0xFF000001 }
    let s : State := { (small.setSegment 0 0x82000000) with
      ioccs := [x], busIn := [⟨1, .word, .data [1, 2, 3, 4]⟩] }
    let sr := s.segmentOf (s.eaD 0 0x100)
    (bitAt sr 0 = true ∧ bitsAt sr 4 8 = 0x20 ∧ sr &&& 0x3003FF10 = 0 ∧ isTimeDelay s sr (s.eaD 0 0x100) = false)
    ∧ (bitAt sr 24 = false ∧ bitAt sr 25 = false ∧ bitAt sr 1 = false ∧ bitsAt (x.csr 15) 0 4 = 0)
    ∧ ((bitsAt sr 28 4 ++ bitsAt (s.eaD 0 0x100) 4 28 : Word).toNat < 0x10000
      ∧ x.allHeld .io (bitsAt sr 28 4 ++ bitsAt (s.eaD 0 0x100) 4 28) = false ∧ x.slotHeld 1 = false) := by
  decide +kernel

/-! ### Channels and interrupts of an IOCC: the worked sequences of R902 and R929

The words of R902 are written here with the slave flag in bit 4, where R899 has it. -/

/-- An IOCC with master enable and its slots out of reset; channel 2 has these registers, tag 3 those of R902. -/
def dma (r0 r4 : Word) : State :=
  let x : Iocc := { Iocc.reset with cfgReg := 0x80000000, crr := 0xFF000001, tag := [(6, 0x05FFF001), (7, 0x00009000)] }
  { small with ioccs := [((x.setCsr 2 r0).setReg4 2 r4).setReg8 2 0x20000000] }

/-- Without buffers: device to memory and memory to device, in the middle of the length, at its end with a next tag, with
good parity and bad, and at the end of the chain. -/
theorem witness_IoccFacilities_dma :
    let s := dma 0x1D003003 0x00005FFC
    let x : Iocc := { (s.iocc 0) with cfgReg := 0x80000010 }
    let u : State := { s with ioccs := [x] }
    (u.ioccs = x :: [] ∧ u.Canonical) ∧ bitsAt x.cfgReg 25 3 = 1 ∧ bitAt x.cfgReg 23 = false
    ∧ ([0x1D003003#32, 0x1C003003, 0x1D003000, 0x1DFFF000].all fun w => bitsAt w 0 2 == 0 && bitAt w 3 && bitAt w 4
      && bitAt w 5) = true
    ∧ (bitsAt (0x1D003003 : Word) 20 12 ≠ 0 ∧ ((0x5FFC : Word).toNat + 1) % 4096 ≠ 0)
    ∧ (bitsAt (0x1D003000 : Word) 20 12 = 0 ∧ bitsAt (0x1D003000 : Word) 8 12 ≠ 0xFFF ∧ x.fault ≠ 0b1110
      ∧ ({ x with fault := 0b1110 } : Iocc).fault = 0b1110)
    ∧ (bitsAt (0x1DFFF000 : Word) 20 12 = 0 ∧ bitsAt (0x1DFFF000 : Word) 8 12 = 0xFFF)
    ∧ u.Readable 0x5FFC 1 ∧ u.NoRom 0x5FFC 1 :=
  ⟨⟨rfl, small_canonical.mem, small_canonical.nvram, fun x hx => by
      rw [List.mem_singleton.1 hx]; exact ⟨by decide +kernel, by decide +kernel⟩⟩,
    by decide +kernel, by decide +kernel, by decide +kernel, by decide +kernel, by decide +kernel, by decide +kernel,
    readable_iff (by decide +kernel), fun i hi => by obtain rfl : i = 0 := by omega
                                                     decide +kernel⟩

/-- The registers 0 and 4 of channel 2 after one request of its two-byte device. -/
def served (s : State) : Option (Word × Word) :=
  match slaveRequest 0 2 2 [0xAB, 0xCD] .go s with
  | .ok t => some ((t.iocc 0).csr 2, (t.iocc 0).reg4 2)
  | .refused _ => none

theorem test_dma_request_moves_two_bytes :
    served (dma 0x1D003003 0x00005FFC) = some (0x1D003001, 0x00005FFE) := by decide +kernel
theorem test_dma_request_reloads_from_the_tag :
    served (dma 0x1D003001 0x00005FFE) = some (0x1DFFF001, 0x00009000) := by decide +kernel
theorem test_dma_request_with_bad_tag_parity :
    served ((dma 0x1D003001 0x00005FFE).setFault 0 0xE) = some (0xED003FFF, 0x00006000) := by decide +kernel
theorem test_dma_request_ends_the_chain :
    served (dma 0x1DFFF001 0x00009000) = some (0x0DFFFFFF, 0x00009002) := by decide +kernel
theorem test_dma_extra_request :
    served (dma 0x0DFFFFFF 0x00009002) = some (0x4DFFFFFF, 0x00009002) := by decide +kernel

/-- Registers 0 of channel 2, the registers 4 and 8 of buffer 3 and the waiting fault after a bus master's read of a byte at
bus address X'00040044', whose TCW names frame 5 and buffer 3; the channel is as R881 sets it up, and a fault waits. -/
def mastered (fault : BitVec 4) : Option (Word × Word × Word × BitVec 4) :=
  let x := ({ (dma 0x340FC000 0).iocc 0 with tcw := [(0x40, 0x00005303)] }.setReg8 15 0x20000000).setReg8 3 0x20000000
  match busMasterCycle 0 2 0x00040044 1 none ({ small with ioccs := [x] }.setFault 0 fault) with
  | .ok t => some ((t.iocc 0).csr 2, (t.iocc 0).reg4 3, (t.iocc 0).reg8 3, (t.iocc 0).fault)
  | .refused _ => none

/-- The TCW and the line come into buffer 3, and the reference bit is set (R886). -/
theorem test_master_read_fills_the_buffer :
    mastered 0 = some (0x3403C000, 0x0000530B, 0x40001001, 0) := by decide +kernel
/-- An ECC error of the line fetch comes after registers 4 and 8 are loaded (R886, R890). -/
theorem test_master_read_with_ecc_error :
    mastered 0xC = some (0xC4001000, 0x00005303, 0x20001001, 0) := by decide +kernel

/-- Line 3 is up, level 3 is enabled and has the vector 20: EIS bit 20 is set, and the level is masked (R929). -/
theorem test_present_level :
    let x : Iocc := { Iocc.reset with
      cfgReg := 0x80000000, crr := 0xFF000001, en := 0x1020, lines := (Vector.replicate 16 0).set 1 0x1000 }
    let s := { small with ioccs := [x.setVector 3 20] }
    let t := presentLevel 0 3 s
    (s.iocc 0).requestReg = 0x1000 ∧ t.eis.getMsbD 20 = true ∧ levelOf (t.iocc 0).pm 3 = false := by
  decide +kernel

/-! ### Vital Product Data and the hand-over -/

/-- The bytes of the sample adapter of R978, from subaddress 1 on. -/
def vpdSample : List Byte :=
  [0x56, 0x50, 0x44, 0x00, 0x28, 0xFC, 0xBC]
    ++ [0x2A, 0x50, 0x4E, 0x06, 0x36, 0x31, 0x38, 0x31, 0x36, 0x38, 0x32, 0x41]
    ++ [0x2A, 0x45, 0x43, 0x07, 0x34, 0x39, 0x35, 0x30, 0x32, 0x36, 0x32, 0x35, 0x33, 0x36]
    ++ [0x2A, 0x53, 0x4E, 0x06, 0x30, 0x30, 0x30, 0x30, 0x30, 0x31, 0x39, 0x34]
    ++ [0x2A, 0x46, 0x4E, 0x05, 0x31, 0x33, 0x35, 0x37, 0x32, 0x32]
    ++ [0x2A, 0x4D, 0x46, 0x05, 0x49, 0x42, 0x4D, 0x30, 0x33, 0x37]
    ++ [0x2A, 0x44, 0x53, 0x05, 0x38, 0x2D, 0x50, 0x4F, 0x52, 0x54] ++ [0x2A, 0x44, 0x47, 0x03, 0x30, 0x31]
    ++ [0x2A, 0x44, 0x44, 0x03, 0x30, 0x31]

/-- The sample holds eight descriptors; the fourth is FN with six characters (R971, R978). -/
theorem test_vpd_descriptors :
    ((descriptors 80 (vpdSample.drop 7)).map List.length) = some 8
    ∧ ((descriptors 80 (vpdSample.drop 7)).bind fun l => l[3]?)
        = some ⟨0x46, 0x4E, [0x31, 0x33, 0x35, 0x37, 0x32, 0x32]⟩ := by
  decide +kernel

/-- The CRC register after some bytes. -/
def crcOn (c : Half) (l : List Byte) : Half := l.foldl (fun c b => crcShift 8 (c ^^^ b.setWidth 16)) c

theorem test_vpd_crc_part1 : crcOn 0xFFFF ((vpdSample.drop 7).take 20) = 20844 := by decide +kernel
theorem test_vpd_crc_part2 : crcOn 20844 (((vpdSample.drop 7).drop 20).take 20) = 21789 := by decide +kernel
theorem test_vpd_crc_part3 : crcOn 21789 (((vpdSample.drop 7).drop 40).take 20) = 7204 := by decide +kernel
theorem test_vpd_crc_part4 : crcOn 7204 ((vpdSample.drop 7).drop 60) = 0xFCBC := by decide +kernel

/-- The sample's CRC is the one it states, X'FCBC' (R978). -/
theorem test_vpd_crc : vpdCrc (vpdSample.drop 7) = 0xFCBC := by
  have h : vpdSample.drop 7
      = ((vpdSample.drop 7).take 20 ++ ((vpdSample.drop 7).drop 20).take 20 ++ ((vpdSample.drop 7).drop 40).take 20)
        ++ (vpdSample.drop 7).drop 60 := by decide
  rw [h]
  simp only [vpdCrc, List.foldl_append]
  have h1 := test_vpd_crc_part1
  have h2 := test_vpd_crc_part2
  have h3 := test_vpd_crc_part3
  have h4 := test_vpd_crc_part4
  simp only [crcOn] at h1 h2 h3 h4
  rw [h1, h2, h3, h4]

/-- An adapter's port reads its ROM at the subaddress, its second identification byte at subaddress 0 (R975). -/
theorem test_adapter_port :
    let a : Adapter := ⟨Vector.replicate 8 7, [0, 0x56, 0x50]⟩
    ((a.store 7 0).store 6 2).load 3 = 0x50 ∧ ((a.store 7 0).store 6 0).load 3 = 7 := by
  decide +kernel

/-- Loaded code starts in real mode at its entry point with the IPL control block in register 3 (R996). -/
theorem test_hand_over :
    let s := ({ State.reset with msr := 0x0000D070 }).handOver 0x2000 0x500
    s.pc = 0x2000 ∧ s.reg 3 = 0x500 ∧ s.msr = 0x00001040 := by
  decide +kernel

end Sys2Proof.Machine.Tests
end

/-! ### Effective addresses (R103, R105 to R107) -/

section

namespace Sys2Proof.Machine

/-- The integer that `(RA|0)` stands for in an address sum. -/
def State.baseValue (s : State) (ra : RegNum) : Int := if ra = 0 then 0 else (s.reg ra).toNat

/-- A word is the residue of its unsigned value, the form in which the statements add addresses. -/
theorem ofInt_toNat (v : Word) : BitVec.ofInt 32 (v.toNat : Int) = v := by
  rw [BitVec.ofInt_natCast, BitVec.ofNat_toNat, BitVec.setWidth_eq]

/-- Ties `baseValue` to the model's `(RA|0)` (R103). -/
theorem regOr0_eq_ofInt (s : State) (ra : RegNum) : s.regOr0 ra = BitVec.ofInt 32 (s.baseValue ra) := by
  unfold State.regOr0 State.baseValue
  split
  case isTrue => rfl
  case isFalse => exact (ofInt_toNat _).symm

/-- A sign-extended displacement of any width counts with its signed value. -/
theorem regOr0_add_signExtend {n : Nat} (s : State) (ra : RegNum) (d : BitVec n) :
    s.regOr0 ra + d.signExtend 32 = BitVec.ofInt 32 (s.baseValue ra + d.toInt) := by
  rw [regOr0_eq_ofInt, BitVec.signExtend, BitVec.ofInt_add]

/-- The D-form address (R106). -/
theorem eaD_eq_ofInt (s : State) (ra : RegNum) (d : BitVec 16) :
    s.eaD ra d = BitVec.ofInt 32 (s.baseValue ra + d.toInt) :=
  regOr0_add_signExtend s ra d

/-- The X-form address (R105). -/
theorem eaX_eq_ofInt (s : State) (ra rb : RegNum) :
    s.eaX ra rb = BitVec.ofInt 32 (s.baseValue ra + (s.reg rb).toNat) := by
  rw [State.eaX, regOr0_eq_ofInt, BitVec.ofInt_add, ofInt_toNat (s.reg rb)]

/-- The DS-form address (R107): the two zero bits on the right multiply the displacement by 4. -/
theorem eaDS_eq_ofInt (s : State) (ra : RegNum) (ds : BitVec 14) :
    s.eaDS ra ds = BitVec.ofInt 32 (s.baseValue ra + 4 * ds.toInt) := by
  have scaled : (ds ++ 0#2).toInt = 4 * ds.toInt := BitVec.toInt_append_zero
  rw [State.eaDS, regOr0_add_signExtend, scaled]

/-- Settles O19: each address form by its own equation. -/
theorem effectiveAddresses : Obligations.EffectiveAddresses :=
  fun s ra rb d ds => ⟨eaD_eq_ofInt s ra d, eaX_eq_ofInt s ra rb, eaDS_eq_ofInt s ra ds⟩

end Sys2Proof.Machine

end

/-! ### Traps (R302 to R304) -/

section

namespace Sys2Proof.Machine

/-- The conditions TO can name, as relations of the operands' signed and unsigned values (R304). -/
def TrapCondition (cond : BitVec 5) (a b : Word) : Prop :=
  (cond.getMsbD 0 = true ∧ a.toInt < b.toInt) ∨ (cond.getMsbD 1 = true ∧ b.toInt < a.toInt)
    ∨ (cond.getMsbD 2 = true ∧ a = b) ∨ (cond.getMsbD 3 = true ∧ a.toNat < b.toNat)
    ∨ (cond.getMsbD 4 = true ∧ b.toNat < a.toNat)

/-- Ties `TrapCondition` to the model's test of the five TO bits. -/
theorem trapTaken_iff (cond : BitVec 5) (a b : Word) : trapTaken cond a b = true ↔ TrapCondition cond a b := by
  simp only [trapTaken, TrapCondition, Bool.or_eq_true, Bool.and_eq_true, beq_iff_eq, BitVec.slt_iff_toInt_lt,
    BitVec.ult_iff_lt, BitVec.lt_def, or_assoc]

/-- A condition that holds takes the Program interrupt, SRR1 bit 14 set (R304, R709). -/
theorem trapOn_of_trapCondition {cond : BitVec 5} {a b : Word} (s : State) (met : TrapCondition cond a b) :
    s.trapOn cond a b = s.interrupt .program s.pc 0x0002 := by
  rw [State.trapOn, if_pos ((trapTaken_iff cond a b).mpr met), State.program, programInfo]

/-- Where no named condition holds, the program counter alone moves (R304). -/
theorem trapOn_of_not_trapCondition {cond : BitVec 5} {a b : Word} (s : State) (unmet : ¬ TrapCondition cond a b) :
    s.trapOn cond a b = { s with pc := s.pc + 4 } := by
  rw [State.trapOn, if_neg (mt (trapTaken_iff cond a b).mp unmet), State.advance]

theorem exec_t (s : State) (cond : BitVec 5) (ra rb : RegNum) :
    exec (.t cond ra rb) s = .next (s.trapOn cond (s.reg ra) (s.reg rb)) := rfl

theorem exec_ti (s : State) (cond : BitVec 5) (ra : RegNum) (si : BitVec 16) :
    exec (.ti cond ra si) s = .next (s.trapOn cond (s.reg ra) (si.signExtend 32)) := rfl

/-- An instruction that answers with `trapOn` traps exactly when a named condition holds. -/
theorem traps_of_exec_eq_trapOn {i : Instr} {s : State} {cond : BitVec 5} {a b : Word}
    (runs : exec i s = .next (s.trapOn cond a b)) :
    (TrapCondition cond a b → exec i s = .next (s.interrupt .program s.pc 0x0002))
      ∧ (¬ TrapCondition cond a b → exec i s = .next { s with pc := s.pc + 4 }) := by
  constructor
  · intro met
    rw [runs, trapOn_of_trapCondition s met]
  · intro unmet
    rw [runs, trapOn_of_not_trapCondition s unmet]

/-- Settles O40: `t` and `ti` both answer with `trapOn`, on their own operands. -/
theorem traps : Obligations.Traps :=
  fun s cond ra rb si =>
    ⟨traps_of_exec_eq_trapOn (exec_t s cond ra rb), traps_of_exec_eq_trapOn (exec_ti s cond ra si)⟩

end Sys2Proof.Machine

end

/-! ### Adding and subtracting (R401, R404 to R406, R410 to R417) -/

section

namespace Sys2Proof.Machine

/-- The adder and the end of the instruction leave MQ alone (R401). -/
@[simp] theorem adder_mq (s : State) (rd : RegNum) (x y : Word) (c oe rc : Bool) :
    (s.adder rd x y c oe rc).mq = s.mq := by
  cases oe <;> cases rc <;> rfl

/-- The complement a subtraction feeds to the adder, as a signed number. -/
theorem toInt_complement (a : Word) : (~~~a).toInt = -a.toInt - 1 := by
  rw [BitVec.toInt_not, BitVec.toInt_eq_toNat_bmod, Int.bmod_def, Int.bmod_def]
  omega

/-- An instruction that ends in `adder` computes the sum of its signed operands and the carry in, with CA the carry out
of the unsigned sum; `n` and `carry` are other forms of the two (R401). -/
theorem computes_of_exec_eq_adder {i : Instr} {s : State} {rd : RegNum} {x y : Word} {c oe rc : Bool} {n : Int}
    {carry : Prop} [Decidable carry] (runs : exec i s = .next (s.adder rd x y c oe rc))
    (value : n = x.toInt + y.toInt + c.toNat) (carries : carry ↔ 2 ^ 32 ≤ x.toNat + y.toNat + c.toNat) :
    Computes s i rd n (some (decide carry)) oe rc := by
  have result := s.adder_result rd x y c oe rc
  rw [sum3_eq, overflowOut_eq, ← value, carryOut, ← decide_eq_decide.mpr carries] at result
  exact ⟨_, runs, result, adder_mq s rd x y c oe rc⟩

/-- An instruction that adds the complement of `a` subtracts: with a carry in of 1 it computes `y - a`, else one less;
CA tells that the unsigned subtraction takes no borrow (R401). -/
theorem computes_of_exec_eq_adder_complement {i : Instr} {s : State} {rd : RegNum} {a y : Word} {c oe rc : Bool}
    {n : Int} {noBorrow : Prop} [Decidable noBorrow] (runs : exec i s = .next (s.adder rd (~~~a) y c oe rc))
    (value : n = y.toInt - a.toInt - 1 + c.toNat) (borrows : noBorrow ↔ a.toNat + 1 ≤ y.toNat + c.toNat) :
    Computes s i rd n (some (decide noBorrow)) oe rc := by
  refine computes_of_exec_eq_adder runs ?_ ?_
  · rw [value, toInt_complement]
    ring
  · rw [borrows, BitVec.toNat_not]
    have := a.isLt
    omega

theorem toInt_allOnes_word : (0xFFFFFFFF : Word).toInt = -1 := rfl

theorem toNat_allOnes_word : (0xFFFFFFFF : Word).toNat = 2 ^ 32 - 1 := rfl

/-- Settles O29: every form is the adder on its own operands, the subtractions with the complement of RA. -/
theorem addingAndSubtracting : Obligations.AddingAndSubtracting := by
  intro s rt ra rb si oe rc
  dsimp only
  refine ⟨?ai, ?aiDot, ?a, ?ae, ?ame, ?aze, ?sfi, ?sf, ?sfe, ?sfme, ?sfze⟩
  case ai => exact computes_of_exec_eq_adder (y := si.signExtend 32) (c := false) rfl (by simp) (by simp)
  case aiDot => exact computes_of_exec_eq_adder (y := si.signExtend 32) (c := false) rfl (by simp) (by simp)
  case a => exact computes_of_exec_eq_adder (c := false) rfl (by simp) (by simp)
  case ae => exact computes_of_exec_eq_adder rfl rfl Iff.rfl
  case ame => exact computes_of_exec_eq_adder rfl (by rw [toInt_allOnes_word]; ring) (by rw [toNat_allOnes_word])
  case aze => exact computes_of_exec_eq_adder rfl (by simp) (by simp)
  case sfi =>
    exact computes_of_exec_eq_adder_complement (y := si.signExtend 32) (c := true) rfl (by simp) (by simp)
  case sf => exact computes_of_exec_eq_adder_complement (c := true) rfl (by simp) (by simp)
  case sfe => exact computes_of_exec_eq_adder_complement rfl rfl Iff.rfl
  case sfme =>
    exact computes_of_exec_eq_adder_complement rfl (by rw [toInt_allOnes_word]; ring) (by rw [toNat_allOnes_word])
  case sfze => exact computes_of_exec_eq_adder_complement rfl (by simp) (by simp)

end Sys2Proof.Machine

end

/-! ### Supervisor call (R291, R722) -/

section

namespace Sys2Proof.Machine

/-- The high half of a word put together from two halves. -/
theorem bitsAt_append_high (high low : Half) : bitsAt (high ++ low) 0 16 = high :=
  BitVec.extractLsb'_append_eq_left

/-- The low half of a word put together from two halves. -/
theorem bitsAt_append_low (high low : Half) : bitsAt (high ++ low) 16 16 = low :=
  BitVec.extractLsb'_append_eq_right

theorem encode_svc (fl1 : BitVec 4) (lev : BitVec 7) (fl2 : BitVec 3) (sa lk : Bool) :
    encode (.svc fl1 lev fl2 sa lk) = formSC 17 fl1 lev fl2 (flag sa) (flag lk) := rfl

/-- The low half of svc's word is what `execSvc` puts in the high half of CTR (R291). -/
theorem bitsAt_encode_svc (fl1 : BitVec 4) (lev : BitVec 7) (fl2 : BitVec 3) (sa lk : Bool) :
    bitsAt (encode (.svc fl1 lev fl2 sa lk)) 16 16 = fl1 ++ lev ++ fl2 ++ BitVec.ofBool sa ++ BitVec.ofBool lk := by
  have halves : encode (.svc fl1 lev fl2 sa lk)
      = ((17 : BitVec 6) ++ 0#10) ++ (fl1 ++ lev ++ fl2 ++ BitVec.ofBool sa ++ BitVec.ofBool lk) := by
    simp only [encode_svc, formSC, flag, BitVec.append_assoc, BitVec.cast_eq]
  rw [halves, bitsAt_append_low]

/-- The bits svc clears are EE, PR and FE (R722). -/
theorem bitAt_svcClearedMsr : ∀ n, n < 32 → bitAt svcClearedMsr n = [16, 17, 20].contains n := by
  decide

theorem bitAt_and_not_svcClearedMsr (msr : Word) {n : Nat} (hn : n < 32) :
    bitAt (msr &&& ~~~svcClearedMsr) n = (bitAt msr n && !([16, 17, 20].contains n)) := by
  rw [bitAt_and, bitAt_not _ hn, bitAt_svcClearedMsr n hn]

/-- Without SA the level is the number of a 32-byte block from X'1000' on (R722). -/
theorem svcOffset_false_toNat (lev : BitVec 7) : (svcOffset lev false).toNat = 0x1000 + 32 * lev.toNat := by
  have leading : (0#19 ++ 1#1).toNat = 1 := rfl
  rw [svcOffset, if_neg Bool.false_ne_true, BitVec.toNat_append, BitVec.toNat_append, leading,
    ← Nat.shiftLeft_add_eq_or_of_lt lev.isLt, BitVec.toNat_zero, Nat.or_zero, Nat.shiftLeft_eq, Nat.shiftLeft_eq]
  omega

theorem svcOffset_eq (lev : BitVec 7) (sa : Bool) :
    svcOffset lev sa = if sa then 0x1FE0 else 0x1000 + 32 * BitVec.ofNat 32 lev.toNat := by
  cases sa
  case true => rfl
  case false =>
    have fits := lev.isLt
    have value := svcOffset_false_toNat lev
    rw [if_neg Bool.false_ne_true]
    bv_omega

/-- `vectorPrefix` sets none of the low 13 bits (R686). -/
theorem vectorPrefix_eq_append (ip : Bool) : vectorPrefix ip = (if ip then 0x7FF80#19 else 0#19) ++ 0#13 := by
  cases ip <;> rfl

/-- Every entry point of svc is one of 13 bits (R722). -/
theorem svcOffset_eq_append (lev : BitVec 7) (sa : Bool) :
    svcOffset lev sa = 0#19 ++ (if sa then 0x1FE0#13 else 1#1 ++ lev ++ 0#5) := by
  cases sa
  case true =>
    rw [svcOffset, if_pos rfl, if_pos rfl]
    rfl
  case false =>
    rw [svcOffset, if_neg Bool.false_ne_true, if_neg Bool.false_ne_true]
    simp only [BitVec.append_assoc, BitVec.cast_eq]

/-- The two parts of an entry point have no bit in common, so `|||` adds them. -/
theorem vectorPrefix_or_svcOffset (ip : Bool) (lev : BitVec 7) (sa : Bool) :
    vectorPrefix ip ||| svcOffset lev sa = vectorPrefix ip + svcOffset lev sa := by
  refine (BitVec.add_eq_or_of_and_eq_zero _ _ ?_).symm
  rw [vectorPrefix_eq_append, svcOffset_eq_append]
  calc _ = (_ &&& 0#19) ++ (0#13 &&& _) := BitVec.and_append
    _ = 0#19 ++ 0#13 := by rw [BitVec.and_zero, BitVec.zero_and]
    _ = 0#32 := rfl

theorem exec_svc (fl1 : BitVec 4) (lev : BitVec 7) (fl2 : BitVec 3) (sa lk : Bool) (s : State) :
    exec (.svc fl1 lev fl2 sa lk) s = execSvc fl1 lev fl2 sa lk s := rfl

/-- Settles O13: the fields `execSvc` writes are read off it one by one; LR and the frame are the model's own. -/
theorem supervisorCall : Obligations.SupervisorCall := by
  intro fl1 lev fl2 sa lk s
  refine ⟨_, exec_svc fl1 lev fl2 sa lk s, ?lr, ?word, ?savedMsr, ?msr, ?entry, ?frame⟩
  case lr => rfl
  case word => exact (bitsAt_append_high _ _).trans (bitsAt_encode_svc fl1 lev fl2 sa lk).symm
  case savedMsr => exact bitsAt_append_low _ _
  case msr => exact fun _ hn => bitAt_and_not_svcClearedMsr s.msr hn
  case entry => exact (vectorPrefix_or_svcOffset s.msrIP lev sa).trans (congrArg _ (svcOffset_eq lev sa))
  case frame => rfl

end Sys2Proof.Machine

end

/-! ### The external interrupt registers in BUID 0 (R762, R767 to R770, R772) -/

section

namespace Sys2Proof.Machine

/-- Loading the bytes of a word gives the word back (R118). -/
theorem wordOfBytes_toBytes (v : Word) : wordOfBytes (toBytes 4 v) = v := by
  rw [toBytes_four, word_of_four]
  have high : v.extractLsb' 24 8 ++ v.extractLsb' 16 8 = v.extractLsb' 16 16 :=
    BitVec.extractLsb'_append_extractLsb'_eq_extractLsb' rfl
  have low : v.extractLsb' 8 8 ++ v.extractLsb' 0 8 = v.extractLsb' 0 16 :=
    BitVec.extractLsb'_append_extractLsb'_eq_extractLsb' rfl
  have whole : v.extractLsb' 16 16 ++ v.extractLsb' 0 16 = v.extractLsb' 0 32 :=
    BitVec.extractLsb'_append_extractLsb'_eq_extractLsb' rfl
  rw [high, low, whole, BitVec.extractLsb'_eq_self]

/-- Every register of BUID 0 is a word on a word boundary, below the addresses of the memory controller (R762). -/
theorem eicrAt_bounds {m : Config.Impl} {a : Nat} {e : Eicr} (found : eicrAt m a = some e) :
    a < 0x1000 ∧ a % 4 = 0 := by
  cases m <;> simp only [eicrAt] at found
  case power => split_ifs at found <;> omega
  case power2 => split_ifs at found <;> omega

/-- The access at `ea` is to the register `e` of BUID 0, with key 0 and the reserved bits zero (R762). -/
structure State.AddressesEicr (s : State) (ea : Word) (e : Eicr) : Prop where
  io : bitAt (s.segmentOf ea) 0 = true
  key : bitAt (s.segmentOf ea) 1 = false
  unit : bitsAt (s.segmentOf ea) 4 8 = 0
  reserved : bitsAt (s.segmentOf ea) 12 20 = 0
  register : eicrAt s.cfg.impl (bitsAt ea 4 28).toNat = some e

theorem State.AddressesEicr.aligned {s : State} {ea : Word} {e : Eicr} (h : s.AddressesEicr ea e) :
    ea.toNat % 4 = 0 := by
  have low : (bitsAt ea 4 28).toNat = ea.toNat % 2 ^ 28 := by simp [bitsAt]
  have := (eicrAt_bounds h.register).2
  omega

theorem State.AddressesEicr.lowBits {s : State} {ea : Word} {e : Eicr} (h : s.AddressesEicr ea e) :
    bitsAt ea 30 2 = 0 := by
  apply BitVec.eq_of_toNat_eq
  simpa [bitsAt] using h.aligned

theorem State.AddressesEicr.notMemoryControl {s : State} {ea : Word} {e : Eicr} (h : s.AddressesEicr ea e) :
    ¬ (0x1000 ≤ (bitsAt ea 4 28).toNat ∧ (bitsAt ea 4 28).toNat ≤ 0x10D0) := by
  have := (eicrAt_bounds h.register).1
  omega

theorem State.AddressesEicr.isIo {s : State} {ea : Word} {e : Eicr} (h : s.AddressesEicr ea e) : s.isIo ea = true :=
  h.io

/-- A word access on its boundary takes no Alignment interrupt (R117). -/
theorem State.AddressesEicr.alignIoTrap {s : State} {ea : Word} {e : Eicr} (h : s.AddressesEicr ea e) :
    s.alignIoTrap ea 4 = false := by
  simp [State.alignIoTrap, unaligned, h.aligned]

/-- A word access to a register of BUID 0 comes down to one step of `buid0Words`. -/
theorem State.AddressesEicr.ioAccess {s : State} {ea : Word} {e : Eicr} (h : s.AddressesEicr ea e)
    (store : Option (List Byte)) (upTo : Option Byte) :
    ioAccess ea 4 store upTo s = buid0Words store 1 (bitsAt ea 4 28) [] s := by
  simp [Machine.ioAccess, buid0Access, h.unit, h.key, h.reserved, h.lowBits]

theorem State.AddressesEicr.ioAccess_load {s : State} {ea : Word} {e : Eicr} (h : s.AddressesEicr ea e)
    (upTo : Option Byte) :
    Machine.ioAccess ea 4 none upTo s = .ok (toBytes 4 (eicrLoad e s).1) (eicrLoad e s).2 := by
  simp only [h.ioAccess, buid0Words, if_neg h.notMemoryControl, h.register, List.nil_append]

theorem State.AddressesEicr.ioAccess_store {s t : State} {ea v : Word} {e : Eicr} (h : s.AddressesEicr ea e)
    (stored : eicrStore e v s = some t) :
    Machine.ioAccess ea 4 (some (toBytes 4 v)) none s = .ok [] t := by
  have word : (toBytes 4 v).take 4 = toBytes 4 v := rfl
  simp only [h.ioAccess, buid0Words, if_neg h.notMemoryControl, h.register, word, wordOfBytes_toBytes, stored]

theorem exec_l (s : State) (rt ra : RegNum) (d : BitVec 16) :
    exec (.l rt ra d) s = s.loadInto (encode (.l rt ra d)) (s.eaD ra d) 4 loadZero rt := rfl

theorem exec_st (s : State) (rs ra : RegNum) (d : BitVec 16) :
    exec (.st rs ra d) s = s.storeFrom (encode (.st rs ra d)) (s.eaD ra d) (toBytes 4 (s.reg rs)) := rfl

/-- A word load from a register of BUID 0 puts what `eicrLoad` answers into RT, in the state it leaves. -/
theorem State.AddressesEicr.exec_l {s u : State} {r ra : RegNum} {d : BitVec 16} {e : Eicr} {v : Word}
    (h : s.AddressesEicr (s.eaD ra d) e) (loaded : eicrLoad e s = (v, u)) :
    exec (.l r ra d) s = .next (u.setReg r v).advance := by
  have got : s.ioGot (s.eaD ra d) 4 none none = .ok (toBytes 4 v) u := by
    rw [State.ioGot, h.ioAccess_load, loaded]
  simp [Machine.exec_l, State.loadInto, State.fixedLoad, h.isIo, h.alignIoTrap, got, Res.outcome, loadZero,
    wordOfBytes_toBytes]

/-- A word store to a register of BUID 0 leaves the state that `eicrStore` answers. -/
theorem State.AddressesEicr.exec_st {s t : State} {r ra : RegNum} {d : BitVec 16} {e : Eicr}
    (h : s.AddressesEicr (s.eaD ra d) e) (stored : eicrStore e (s.reg r) s = some t) :
    exec (.st r ra d) s = .next { t with pc := t.pc + 4 } := by
  have length : (toBytes 4 (s.reg r)).length = 4 := rfl
  have got : s.ioGot (s.eaD ra d) 4 (some (toBytes 4 (s.reg r))) none = .ok [] t := by
    rw [State.ioGot, h.ioAccess_store stored]
  simp [Machine.exec_st, State.storeFrom, State.fixedStore, h.isIo, length, h.alignIoTrap, got, endIoStore,
    Res.outcome, State.advance]

/-- A load from EIM or EIS reads a half, and changes at most EIS (R767, R768). -/
theorem State.AddressesEicr.completes_half {s : State} {r ra : RegNum} {d : BitVec 16} {e : Eicr} {v : Word}
    {eis : BitVec 64} (h : s.AddressesEicr (s.eaD ra d) e) (loaded : eicrLoad e s = (v, { s with eis := eis })) :
    Completes (.l r ra d) s fun t =>
      t.reg r = v ∧ (∀ q, q ≠ r → t.reg q = s.reg q) ∧ t = { s with gpr := t.gpr, eis := eis, pc := s.pc + 4 } :=
  ⟨_, h.exec_l loaded, State.reg_setReg_self _ r v, fun _ other => State.reg_setReg_of_ne _ v other, rfl⟩

/-- A load of the number of a source has it in its low-order six bits, the others free (R772). -/
theorem State.AddressesEicr.completes_number {s : State} {r ra : RegNum} {d : BitVec 16} {e : Eicr} {n : BitVec 6}
    (h : s.AddressesEicr (s.eaD ra d) e)
    (loaded : eicrLoad e s = (s.drawWord.1.extractLsb' 0 26 ++ n, s.drawWord.2)) :
    Completes (.l r ra d) s fun t =>
      bitsAt (t.reg r) 26 6 = n ∧ (∀ q, q ≠ r → t.reg q = s.reg q)
        ∧ t = { s with gpr := t.gpr, draws := t.draws, pc := s.pc + 4 } := by
  refine ⟨_, h.exec_l loaded, ?number, fun _ other => State.reg_setReg_of_ne _ _ other, rfl⟩
  have target := State.reg_setReg_self s.drawWord.2 r (s.drawWord.1.extractLsb' 0 26 ++ n)
  exact (congrArg (bitsAt · 26 6) target).trans BitVec.extractLsb'_append_eq_right

/-- Settles O59: each address selects its register, and `eicrLoad` and `eicrStore` say what a word of it does. -/
theorem externalInterruptRegisters : Obligations.ExternalInterruptRegisters := by
  intro s r ra d ea sr io key unit reserved
  have atRegister {m : Config.Impl} {a : BitVec 28} (impl : s.cfg.impl = m) (address : bitsAt ea 4 28 = a)
      {e : Eicr} (found : eicrAt m a.toNat = some e) : s.AddressesEicr ea e :=
    ⟨io, key, unit, reserved, by rw [impl, address, found]⟩
  refine ⟨fun power =>
      ⟨fun address => ?eimHigh, fun address => ?eimLow, fun address => ?eisHigh, fun address => ?eisLow⟩,
    fun address => ?decrementer, fun power2 address => ?externalCheck, fun power2 address => ?epow⟩
  case eimHigh =>
    have h : s.AddressesEicr ea (.eim true) := atRegister power address rfl
    exact ⟨h.completes_half rfl, h.exec_st rfl⟩
  case eimLow =>
    have h : s.AddressesEicr ea (.eim false) := atRegister power address rfl
    exact ⟨h.completes_half rfl, h.exec_st rfl⟩
  case eisHigh =>
    have h : s.AddressesEicr ea (.eis true) := atRegister power address rfl
    exact ⟨h.completes_half rfl, h.exec_st rfl⟩
  case eisLow =>
    have h : s.AddressesEicr ea (.eis false) := atRegister power address rfl
    exact ⟨h.completes_half rfl, h.exec_st rfl⟩
  case decrementer =>
    have h : s.AddressesEicr ea .decrementer := by
      cases impl : s.cfg.impl
      case power => exact atRegister impl address rfl
      case power2 => exact atRegister impl address rfl
    exact ⟨h.completes_number rfl, h.exec_st rfl⟩
  case externalCheck =>
    have h : s.AddressesEicr ea .externalCheck := atRegister power2 address rfl
    exact ⟨h.completes_number rfl, h.exec_st rfl⟩
  case epow =>
    have h : s.AddressesEicr ea .epow := atRegister power2 address rfl
    exact ⟨h.completes_number rfl, h.exec_st rfl⟩

end Sys2Proof.Machine

end

/-! ### Encoding and decoding on both implementations (R222 to R273) -/

section

namespace Sys2Proof

open Machine (bitsAt bitAt)

/-- What POWER makes of a word that POWER2 decodes to `d2`: the same instruction, unless only POWER2 has it, and no
other instruction (R273). -/
structure PowerView (d d2 : Decoded) : Prop where
  own : ∀ i, d = .instr i → i.power2Only = false
  shared : ∀ i, d2 = .instr i → i.power2Only = false → d = .instr i

theorem PowerView.instr {i : Instr} (h : i.power2Only = false) : PowerView (.instr i) (.instr i) where
  own j hj := by cases hj; exact h
  shared _ hj _ := hj

theorem PowerView.p2 {i : Instr} (name : String) (h : i.power2Only = true) :
    PowerView (p2 .power name i) (p2 .power2 name i) where
  own _ hj := by cases hj
  shared j hj hs := by cases hj; rw [h] at hs; cases hs

theorem PowerView.invalid (r : Reject) : PowerView (.invalid r) (.invalid r) where
  own _ hj := by cases hj
  shared _ hj _ := by cases hj

theorem decode19_powerView (w : Word) (xo : Nat) : PowerView (decode19 .power w xo) (decode19 .power2 w xo) := by
  unfold decode19
  split <;> first
    | exact .instr rfl
    | exact .invalid _

theorem decode31c_powerView (w : Word) (xo : Nat) : PowerView (decode31c .power w xo) (decode31c .power2 w xo) := by
  unfold decode31c
  split <;> first
    | exact .instr rfl
    | exact .p2 _ rfl
    | exact .invalid _

theorem decode31b_powerView (w : Word) (xo : Nat) : PowerView (decode31b .power w xo) (decode31b .power2 w xo) := by
  unfold decode31b
  split <;> first
    | exact .instr rfl
    | exact decode31c_powerView w _

theorem decode31_powerView (w : Word) (xo : Nat) : PowerView (decode31 .power w xo) (decode31 .power2 w xo) := by
  unfold decode31
  split <;> first
    | exact .instr rfl
    | exact decode31b_powerView w _

theorem decode63x_powerView (w : Word) (xo : Nat) : PowerView (decode63x .power w xo) (decode63x .power2 w xo) := by
  unfold decode63x
  split <;> first
    | exact .instr rfl
    | exact .p2 _ rfl
    | exact .invalid _

theorem decode63_powerView (w : Word) (xo : Nat) : PowerView (decode63 .power w xo) (decode63 .power2 w xo) := by
  unfold decode63
  split <;> first
    | exact .instr rfl
    | exact .p2 _ rfl
    | exact decode63x_powerView w _

theorem decodeOp_powerView (w : Word) (op : Nat) : PowerView (decodeOp .power w op) (decodeOp .power2 w op) := by
  unfold decodeOp
  split <;> first
    | exact .instr rfl
    | exact .invalid _
    | exact decode19_powerView w _
    | exact decode31_powerView w _
    | exact decode63_powerView w _
    | (split <;> first
        | exact .p2 _ rfl
        | exact .invalid _)

theorem decode_powerView (w : Word) : PowerView (decode .power w) (decode .power2 w) := decodeOp_powerView w _

theorem decode_power2_encode : ∀ i : Instr, decode .power2 (encode i) = .instr i
  | .b .. => Laws.Encoding.b ..
  | .bc .. => Laws.Encoding.bc ..
  | .bcr .. => Laws.Encoding.bcr ..
  | .bcc .. => Laws.Encoding.bcc ..
  | .svc .. => Laws.Encoding.svc ..
  | .rfi => Laws.Encoding.rfi
  | .rfsvc .. => Laws.Encoding.rfsvc ..
  | .mcrf .. => Laws.Encoding.mcrf ..
  | .crand .. => Laws.Encoding.crand ..
  | .cror .. => Laws.Encoding.cror ..
  | .crxor .. => Laws.Encoding.crxor ..
  | .crnand .. => Laws.Encoding.crnand ..
  | .crnor .. => Laws.Encoding.crnor ..
  | .creqv .. => Laws.Encoding.creqv ..
  | .crandc .. => Laws.Encoding.crandc ..
  | .crorc .. => Laws.Encoding.crorc ..
  | .t .. => Laws.Encoding.t ..
  | .ti .. => Laws.Encoding.ti ..
  | .lbz .. => Laws.Encoding.lbz ..
  | .lbzu .. => Laws.Encoding.lbzu ..
  | .lbzx .. => Laws.Encoding.lbzx ..
  | .lbzux .. => Laws.Encoding.lbzux ..
  | .lhz .. => Laws.Encoding.lhz ..
  | .lhzu .. => Laws.Encoding.lhzu ..
  | .lhzx .. => Laws.Encoding.lhzx ..
  | .lhzux .. => Laws.Encoding.lhzux ..
  | .lha .. => Laws.Encoding.lha ..
  | .lhau .. => Laws.Encoding.lhau ..
  | .lhax .. => Laws.Encoding.lhax ..
  | .lhaux .. => Laws.Encoding.lhaux ..
  | .l .. => Laws.Encoding.l ..
  | .lu .. => Laws.Encoding.lu ..
  | .lx .. => Laws.Encoding.lx ..
  | .lux .. => Laws.Encoding.lux ..
  | .stb .. => Laws.Encoding.stb ..
  | .stbu .. => Laws.Encoding.stbu ..
  | .stbx .. => Laws.Encoding.stbx ..
  | .stbux .. => Laws.Encoding.stbux ..
  | .sth .. => Laws.Encoding.sth ..
  | .sthu .. => Laws.Encoding.sthu ..
  | .sthx .. => Laws.Encoding.sthx ..
  | .sthux .. => Laws.Encoding.sthux ..
  | .st .. => Laws.Encoding.st ..
  | .stu .. => Laws.Encoding.stu ..
  | .stx .. => Laws.Encoding.stx ..
  | .stux .. => Laws.Encoding.stux ..
  | .lhbrx .. => Laws.Encoding.lhbrx ..
  | .lbrx .. => Laws.Encoding.lbrx ..
  | .sthbrx .. => Laws.Encoding.sthbrx ..
  | .stbrx .. => Laws.Encoding.stbrx ..
  | .lm .. => Laws.Encoding.lm ..
  | .stm .. => Laws.Encoding.stm ..
  | .lsi .. => Laws.Encoding.lsi ..
  | .lsx .. => Laws.Encoding.lsx ..
  | .lscbx .. => Laws.Encoding.lscbx ..
  | .stsi .. => Laws.Encoding.stsi ..
  | .stsx .. => Laws.Encoding.stsx ..
  | .cal .. => Laws.Encoding.cal ..
  | .cau .. => Laws.Encoding.cau ..
  | .aiDot .. => Laws.Encoding.aiDot ..
  | .ai .. => Laws.Encoding.ai ..
  | .sfi .. => Laws.Encoding.sfi ..
  | .muli .. => Laws.Encoding.muli ..
  | .dozi .. => Laws.Encoding.dozi ..
  | .cax .. => Laws.Encoding.cax ..
  | .a .. => Laws.Encoding.a ..
  | .ae .. => Laws.Encoding.ae ..
  | .ame .. => Laws.Encoding.ame ..
  | .aze .. => Laws.Encoding.aze ..
  | .sf .. => Laws.Encoding.sf ..
  | .sfe .. => Laws.Encoding.sfe ..
  | .sfme .. => Laws.Encoding.sfme ..
  | .sfze .. => Laws.Encoding.sfze ..
  | .neg .. => Laws.Encoding.neg ..
  | .abs .. => Laws.Encoding.abs ..
  | .nabs .. => Laws.Encoding.nabs ..
  | .doz .. => Laws.Encoding.doz ..
  | .mul .. => Laws.Encoding.mul ..
  | .muls .. => Laws.Encoding.muls ..
  | .div .. => Laws.Encoding.div ..
  | .divs .. => Laws.Encoding.divs ..
  | .cmpi .. => Laws.Encoding.cmpi ..
  | .cmpli .. => Laws.Encoding.cmpli ..
  | .cmp .. => Laws.Encoding.cmp ..
  | .cmpl .. => Laws.Encoding.cmpl ..
  | .andilDot .. => Laws.Encoding.andilDot ..
  | .andiuDot .. => Laws.Encoding.andiuDot ..
  | .oril .. => Laws.Encoding.oril ..
  | .oriu .. => Laws.Encoding.oriu ..
  | .xoril .. => Laws.Encoding.xoril ..
  | .xoriu .. => Laws.Encoding.xoriu ..
  | .and .. => Laws.Encoding.and ..
  | .or .. => Laws.Encoding.or ..
  | .xor .. => Laws.Encoding.xor ..
  | .nand .. => Laws.Encoding.nand ..
  | .nor .. => Laws.Encoding.nor ..
  | .eqv .. => Laws.Encoding.eqv ..
  | .andc .. => Laws.Encoding.andc ..
  | .orc .. => Laws.Encoding.orc ..
  | .exts .. => Laws.Encoding.exts ..
  | .cntlz .. => Laws.Encoding.cntlz ..
  | .rlimi .. => Laws.Encoding.rlimi ..
  | .rlinm .. => Laws.Encoding.rlinm ..
  | .rlmi .. => Laws.Encoding.rlmi ..
  | .rlnm .. => Laws.Encoding.rlnm ..
  | .rrib .. => Laws.Encoding.rrib ..
  | .maskg .. => Laws.Encoding.maskg ..
  | .maskir .. => Laws.Encoding.maskir ..
  | .sl .. => Laws.Encoding.sl ..
  | .sr .. => Laws.Encoding.sr ..
  | .slq .. => Laws.Encoding.slq ..
  | .srq .. => Laws.Encoding.srq ..
  | .sliq .. => Laws.Encoding.sliq ..
  | .sriq .. => Laws.Encoding.sriq ..
  | .slliq .. => Laws.Encoding.slliq ..
  | .srliq .. => Laws.Encoding.srliq ..
  | .sllq .. => Laws.Encoding.sllq ..
  | .srlq .. => Laws.Encoding.srlq ..
  | .sle .. => Laws.Encoding.sle ..
  | .sre .. => Laws.Encoding.sre ..
  | .sleq .. => Laws.Encoding.sleq ..
  | .sreq .. => Laws.Encoding.sreq ..
  | .sra .. => Laws.Encoding.sra ..
  | .srai .. => Laws.Encoding.srai ..
  | .sraq .. => Laws.Encoding.sraq ..
  | .sraiq .. => Laws.Encoding.sraiq ..
  | .srea .. => Laws.Encoding.srea ..
  | .mtspr .. => Laws.Encoding.mtspr ..
  | .mfspr .. => Laws.Encoding.mfspr ..
  | .mcrxr .. => Laws.Encoding.mcrxr ..
  | .mtcrf .. => Laws.Encoding.mtcrf ..
  | .mfcr .. => Laws.Encoding.mfcr ..
  | .mfmsr .. => Laws.Encoding.mfmsr ..
  | .mtmsr .. => Laws.Encoding.mtmsr ..
  | .lfs .. => Laws.Encoding.lfs ..
  | .lfsu .. => Laws.Encoding.lfsu ..
  | .lfsx .. => Laws.Encoding.lfsx ..
  | .lfsux .. => Laws.Encoding.lfsux ..
  | .lfd .. => Laws.Encoding.lfd ..
  | .lfdu .. => Laws.Encoding.lfdu ..
  | .lfdx .. => Laws.Encoding.lfdx ..
  | .lfdux .. => Laws.Encoding.lfdux ..
  | .stfs .. => Laws.Encoding.stfs ..
  | .stfsu .. => Laws.Encoding.stfsu ..
  | .stfsx .. => Laws.Encoding.stfsx ..
  | .stfsux .. => Laws.Encoding.stfsux ..
  | .stfd .. => Laws.Encoding.stfd ..
  | .stfdu .. => Laws.Encoding.stfdu ..
  | .stfdx .. => Laws.Encoding.stfdx ..
  | .stfdux .. => Laws.Encoding.stfdux ..
  | .lfq .. => Laws.Encoding.lfq ..
  | .lfqu .. => Laws.Encoding.lfqu ..
  | .lfqx .. => Laws.Encoding.lfqx ..
  | .lfqux .. => Laws.Encoding.lfqux ..
  | .stfq .. => Laws.Encoding.stfq ..
  | .stfqu .. => Laws.Encoding.stfqu ..
  | .stfqx .. => Laws.Encoding.stfqx ..
  | .stfqux .. => Laws.Encoding.stfqux ..
  | .fmr .. => Laws.Encoding.fmr ..
  | .fneg .. => Laws.Encoding.fneg ..
  | .fabs .. => Laws.Encoding.fabs ..
  | .fnabs .. => Laws.Encoding.fnabs ..
  | .fa .. => Laws.Encoding.fa ..
  | .fs .. => Laws.Encoding.fs ..
  | .fm .. => Laws.Encoding.fm ..
  | .fd .. => Laws.Encoding.fd ..
  | .fma .. => Laws.Encoding.fma ..
  | .fms .. => Laws.Encoding.fms ..
  | .fnma .. => Laws.Encoding.fnma ..
  | .fnms .. => Laws.Encoding.fnms ..
  | .frsp .. => Laws.Encoding.frsp ..
  | .fcir .. => Laws.Encoding.fcir ..
  | .fcirz .. => Laws.Encoding.fcirz ..
  | .fsqrt .. => Laws.Encoding.fsqrt ..
  | .fcmpu .. => Laws.Encoding.fcmpu ..
  | .fcmpo .. => Laws.Encoding.fcmpo ..
  | .mffs .. => Laws.Encoding.mffs ..
  | .mcrfs .. => Laws.Encoding.mcrfs ..
  | .mtfsf .. => Laws.Encoding.mtfsf ..
  | .mtfsfi .. => Laws.Encoding.mtfsfi ..
  | .mtfsb0 .. => Laws.Encoding.mtfsb0 ..
  | .mtfsb1 .. => Laws.Encoding.mtfsb1 ..
  | .dcs => Laws.Encoding.dcs
  | .ics => Laws.Encoding.ics
  | .clf .. => Laws.Encoding.clf ..
  | .cli .. => Laws.Encoding.cli ..
  | .dclst .. => Laws.Encoding.dclst ..
  | .dclz .. => Laws.Encoding.dclz ..
  | .mtsr .. => Laws.Encoding.mtsr ..
  | .mtsri .. => Laws.Encoding.mtsri ..
  | .mfsr .. => Laws.Encoding.mfsr ..
  | .mfsri .. => Laws.Encoding.mfsri ..
  | .clcs .. => Laws.Encoding.clcs ..
  | .tlbi .. => Laws.Encoding.tlbi ..
  | .rac .. => Laws.Encoding.rac ..

end Sys2Proof

open Sys2Proof

/-- Settles O1: POWER2 by the lemma of each constructor, POWER through `PowerView`. -/
theorem encodingRoundTrip : Obligations.EncodingRoundTrip := by
  refine ⟨fun m i wf => ?_, fun m w i h => ?_⟩
  · cases m with
    | power2 => exact decode_power2_encode i
    | power =>
      have notOnly : i.power2Only = false := by
        cases h : i.power2Only with
        | false => rfl
        | true => cases wf h
      exact (decode_powerView _).shared i (decode_power2_encode i) notOnly
  · intro only
    cases m with
    | power2 => rfl
    | power => rw [(decode_powerView w).own i h] at only; cases only

end

/-! ### Addresses of instructions (R7) and the FPSCR's summaries (R36, R37) -/

section

namespace Sys2Proof.Machine

theorem wordAlign_eq_boundary (v : Word) : wordAlign v = boundary v 4 := boundary_eq_and v 2 (by decide)

theorem wordAlign_eq_iff (v : Word) : wordAlign v = v ↔ v.toNat % 4 = 0 := by
  rw [wordAlign_eq_boundary]
  constructor
  · intro e
    unfold boundary at e
    have h := congrArg BitVec.toNat (BitVec.sub_eq_iff_eq_add.1 e)
    rw [BitVec.toNat_add, BitVec.toNat_ofNat] at h
    have := v.isLt
    omega
  · exact boundary_of_aligned

@[simp] theorem wordAlign_wordAlign (v : Word) : wordAlign (wordAlign v) = wordAlign v := by
  unfold wordAlign
  rw [BitVec.and_assoc, BitVec.and_self]

theorem wordAlign_add {v w : Word} (hv : wordAlign v = v) (hw : wordAlign w = w) : wordAlign (v + w) = v + w := by
  rw [wordAlign_eq_iff] at *
  rw [BitVec.toNat_add]
  omega

/-- A displacement in words. -/
theorem wordAlign_signExtend {n : Nat} (hn : n ≤ 30) (d : BitVec n) :
    wordAlign ((d ++ 0#2).signExtend 32) = (d ++ 0#2).signExtend 32 := by
  rw [wordAlign_eq_iff]
  have low : ∀ i, i < 2 → ((d ++ 0#2).signExtend 32).getLsbD i = false := by
    intro i hi
    have hin : i < n + 2 := by omega
    have hi32 : i < 32 := by omega
    rw [BitVec.getLsbD_signExtend, BitVec.getLsbD_append]
    simp [hin, hi, hi32]
  have h0 := low 0 (by decide)
  have h1 := low 1 (by decide)
  simp only [← BitVec.testBit_toNat, Nat.testBit_eq_decide_div_mod_eq, decide_eq_false_iff_not] at h0 h1
  omega

/-! #### Bits of the FPSCR -/

theorem ne_zero_eq_any (v : Word) : (v != 0) = (List.range 32).any (bitAt v) := by
  rw [Bool.eq_iff_iff]
  simp only [bne_iff_ne, ne_eq, List.any_eq_true, List.mem_range]
  constructor
  · intro h
    by_contra none
    exact h (eq_of_bitAt fun i hi => by
      rw [bitAt_zero]
      exact Bool.eq_false_iff.2 fun hb => none ⟨i, hi, hb⟩)
  · rintro ⟨i, -, hb⟩ rfl
    rw [bitAt_zero] at hb
    cases hb

/-- A mask that has exactly the bits of a list tests for any of them. -/
theorem and_ne_zero_eq_any {m : Word} {l : List Nat} (hl : ∀ n, n < 32 → bitAt m n = l.contains n)
    (hlt : ∀ n ∈ l, n < 32) (v : Word) : (v &&& m != 0) = l.any (bitAt v) := by
  rw [ne_zero_eq_any, Bool.eq_iff_iff]
  simp only [List.any_eq_true, List.mem_range, bitAt_and, Bool.and_eq_true]
  constructor
  · rintro ⟨n, hn, hv, hm⟩
    rw [hl n hn, List.contains_iff_mem] at hm
    exact ⟨n, hm, hv⟩
  · rintro ⟨n, hn, hv⟩
    refine ⟨n, hlt n hn, hv, ?_⟩
    rw [hl n (hlt n hn), List.contains_iff_mem]
    exact hn

/-- The exception bits of invalid operations (R37). -/
def invalidBits : List Nat := [7, 8, 9, 10, 11, 12, 22, 23]

/-- The exception bits (R35). -/
def exceptionBits : List Nat := [3, 4, 5, 6, 7, 8, 9, 10, 11, 12, 22, 23]

theorem bitAt_invalidMask : ∀ n, n < 32 → bitAt invalidMask n = invalidBits.contains n := by decide
theorem bitAt_exceptionMask : ∀ n, n < 32 → bitAt exceptionMask n = exceptionBits.contains n := by decide
theorem bitAt_fpscrMask : ∀ n, n < 32 → bitAt fpscrMask n = !([20, 21, 29].contains n) := by decide

/-- VX (R37). -/
def vxOf (v : Word) : Bool := invalidBits.any (bitAt v)

/-- FEX (R36). -/
def fexOf (v : Word) : Bool :=
  vxOf v && bitAt v 24 || bitAt v 3 && bitAt v 25 || bitAt v 4 && bitAt v 26 || bitAt v 5 && bitAt v 27
    || bitAt v 6 && bitAt v 28

theorem fpSummary_eq (v : Word) : fpSummary v = setBit (setBit (v &&& fpscrMask) 2 (vxOf v)) 1 (fexOf v) := by
  unfold fpSummary fexOf vxOf
  rw [and_ne_zero_eq_any bitAt_invalidMask (by decide)]

/-- Bit by bit: FEX, VX, the reserved bits, and the rest. -/
theorem bitAt_fpSummary (v : Word) {n : Nat} (hn : n < 32) :
    bitAt (fpSummary v) n =
      if n = 1 then fexOf v else if n = 2 then vxOf v else bitAt v n && !([20, 21, 29].contains n) := by
  rw [fpSummary_eq, bitAt_setBit _ (by decide) hn, bitAt_setBit _ (by decide) hn, bitAt_and, bitAt_fpscrMask n hn]
  simp only [eq_comm]

/-- A bit that is written as it is. -/
theorem bitAt_fpSummary_of (v : Word) {n : Nat} (hn : n < 32) (h : n ∉ [1, 2, 20, 21, 29]) :
    bitAt (fpSummary v) n = bitAt v n := by
  simp only [List.mem_cons, List.not_mem_nil, or_false, not_or] at h
  obtain ⟨h1, h2, h20, h21, h29⟩ := h
  rw [bitAt_fpSummary v hn]
  simp [h1, h2, h20, h21, h29]

theorem vxOf_congr {v w : Word} (h : ∀ n ∈ invalidBits, bitAt w n = bitAt v n) : vxOf w = vxOf v := by
  unfold vxOf
  exact Bool.eq_iff_iff.2 (by
    simp only [List.any_eq_true]
    exact exists_congr fun n => and_congr_right fun hn => by rw [h n hn])

@[simp] theorem vxOf_fpSummary (v : Word) : vxOf (fpSummary v) = vxOf v :=
  vxOf_congr (by simp [invalidBits, bitAt_fpSummary])

@[simp] theorem fexOf_fpSummary (v : Word) : fexOf (fpSummary v) = fexOf v := by
  simp [fexOf, bitAt_fpSummary]

theorem summarized_fpSummary (v : Word) : Summarized (fpSummary v) := by
  have vx : bitAt (fpSummary v) 2 = vxOf v := bitAt_fpSummary v (by decide)
  have fex : bitAt (fpSummary v) 1 = fexOf v := bitAt_fpSummary v (by decide)
  refine ⟨?_, ?_, ?_, ?_, ?_⟩
  · rw [vx, ← vxOf_fpSummary]; rfl
  · rw [fex, vx, ← fexOf_fpSummary]
    unfold fexOf
    rw [vxOf_fpSummary]
  all_goals rw [bitAt_fpSummary v (by decide)]; simp

@[simp] theorem fpSummary_fpSummary (v : Word) : fpSummary (fpSummary v) = fpSummary v := by
  refine eq_of_bitAt fun n hn => ?_
  rw [bitAt_fpSummary (fpSummary v) hn, fexOf_fpSummary, vxOf_fpSummary, bitAt_fpSummary v hn]
  split
  · rfl
  split
  · rfl
  · rw [Bool.and_assoc, Bool.and_self]

end Sys2Proof.Machine

end

/-! ### What every instruction and every move keeps: the invariants, and in problem state the registers of protection

A step is made of a few updates. `State.Preserves` says that an update keeps the invariants, `State.Userlike` that it
leaves the registers alone as well that protection rests on; both are transitive, so that each instruction's proof names
its updates in order. -/

section

namespace Sys2Proof.Machine

open Host (Outcome)

/-! #### The relations -/

/-- `t` meets the invariants of the machine if `s` does, and the implementation is the same. -/
structure State.Preserves (s t : State) : Prop where
  cfg : t.cfg = s.cfg
  canonical : s.Canonical → t.Canonical
  legal : s.Legal → t.Legal

/-- The registers that protection rests on are the same (R745, R746). -/
structure State.SameGuards (s t : State) : Prop where
  msr : t.msr = s.msr
  sr : t.sr = s.sr
  sdr0 : t.sdr0 = s.sdr0
  sdr1 : t.sdr1 = s.sdr1
  tid : t.tid = s.tid
  srr0 : t.srr0 = s.srr0
  srr1 : t.srr1 = s.srr1
  dsisr : t.dsisr = s.dsisr
  dar : t.dar = s.dar
  cil : t.cil = s.cil

/-- An update that a program in problem state may make. -/
structure State.Userlike (s t : State) : Prop extends s.Preserves t where
  guards : s.SameGuards t

theorem State.Preserves.trans {s t u : State} (h1 : s.Preserves t) (h2 : t.Preserves u) : s.Preserves u :=
  ⟨h2.cfg.trans h1.cfg, h2.canonical ∘ h1.canonical, h2.legal ∘ h1.legal⟩

theorem State.SameGuards.trans {s t u : State} (h1 : s.SameGuards t) (h2 : t.SameGuards u) : s.SameGuards u where
  msr := h2.msr.trans h1.msr
  sr := h2.sr.trans h1.sr
  sdr0 := h2.sdr0.trans h1.sdr0
  sdr1 := h2.sdr1.trans h1.sdr1
  tid := h2.tid.trans h1.tid
  srr0 := h2.srr0.trans h1.srr0
  srr1 := h2.srr1.trans h1.srr1
  dsisr := h2.dsisr.trans h1.dsisr
  dar := h2.dar.trans h1.dar
  cil := h2.cil.trans h1.cil

theorem State.Userlike.trans {s t u : State} (h1 : s.Userlike t) (h2 : t.Userlike u) : s.Userlike u :=
  ⟨h1.toPreserves.trans h2.toPreserves, h1.guards.trans h2.guards⟩

/-- An update of fields that no invariant speaks of. -/
theorem State.Preserves.same {s t : State} (cfg : t.cfg = s.cfg := by rfl) (mem : t.mem = s.mem := by rfl)
    (nvram : t.nvram = s.nvram := by rfl) (ioccs : t.ioccs = s.ioccs := by rfl) (pc : t.pc = s.pc := by rfl)
    (msr : t.msr = s.msr := by rfl) (xer : t.xer = s.xer := by rfl) (fpscr : t.fpscr = s.fpscr := by rfl)
    (rtcl : t.rtcl = s.rtcl := by rfl) (dec : t.dec = s.dec := by rfl) : s.Preserves t where
  cfg := cfg
  canonical c := ⟨mem ▸ c.mem, nvram ▸ c.nvram, ioccs ▸ c.ioccs⟩
  legal l := ⟨by rw [pc]; exact l.pc, by rw [msr, cfg]; exact l.msr, by rw [xer]; exact l.xer,
    by rw [fpscr]; exact l.fpscr, by rw [rtcl]; exact l.rtcl, by rw [dec]; exact l.dec⟩

theorem State.SameGuards.same {s t : State} (msr : t.msr = s.msr := by rfl) (sr : t.sr = s.sr := by rfl)
    (sdr0 : t.sdr0 = s.sdr0 := by rfl) (sdr1 : t.sdr1 = s.sdr1 := by rfl) (tid : t.tid = s.tid := by rfl)
    (srr0 : t.srr0 = s.srr0 := by rfl) (srr1 : t.srr1 = s.srr1 := by rfl) (dsisr : t.dsisr = s.dsisr := by rfl)
    (dar : t.dar = s.dar := by rfl) (cil : t.cil = s.cil := by rfl) : s.SameGuards t :=
  ⟨msr, sr, sdr0, sdr1, tid, srr0, srr1, dsisr, dar, cil⟩

theorem State.Preserves.refl (s : State) : s.Preserves s := .same
theorem State.Userlike.refl (s : State) : s.Userlike s := ⟨.same, .same⟩

theorem State.Userlike.ite {s t u : State} {c : Prop} [Decidable c] (h1 : s.Userlike t) (h2 : s.Userlike u) :
    s.Userlike (if c then t else u) := by
  split
  · exact h1
  · exact h2

theorem State.Preserves.ite {s t u : State} {c : Prop} [Decidable c] (h1 : s.Preserves t) (h2 : s.Preserves u) :
    s.Preserves (if c then t else u) := by
  split
  · exact h1
  · exact h2

/-! #### Updates of registers -/

theorem State.setReg_userlike (s : State) (r : RegNum) (v : Word) : s.Userlike (s.setReg r v) := ⟨.same, .same⟩
theorem State.setFreg_userlike (s : State) (r : RegNum) (v : DWord) : s.Userlike (s.setFreg r v) := ⟨.same, .same⟩
theorem State.setCrField_userlike (s : State) (n : CrField) (v : BitVec 4) : s.Userlike (s.setCrField n v) :=
  ⟨.same, .same⟩
theorem State.setCrBit_userlike (s : State) (i : BitVec 5) (v : Bool) : s.Userlike (s.setCrBit i v) := ⟨.same, .same⟩
theorem State.setMq_userlike (s : State) (v : Word) : s.Userlike { s with mq := v } := ⟨.same, .same⟩
theorem State.draws_userlike (s : State) (n : Nat) : s.Userlike { s with draws := n } := ⟨.same, .same⟩

theorem State.setGprs_userlike (s : State) (g : Vector Word 32) : s.Userlike { s with gpr := g } := ⟨.same, .same⟩

/-- A new XER whose reserved bits are 0. -/
theorem State.xer_userlike (s : State) {v : Word} (h : s.xer &&& xerMask = s.xer → v &&& xerMask = v) :
    s.Userlike { s with xer := v } where
  cfg := rfl
  canonical c := ⟨c.mem, c.nvram, c.ioccs⟩
  legal l := ⟨l.pc, l.msr, h l.xer, l.fpscr, l.rtcl, l.dec⟩
  guards := .same

theorem State.setXer_userlike (s : State) (v : Word) : s.Userlike (s.setXer v) :=
  s.xer_userlike fun _ => by rw [BitVec.and_assoc, BitVec.and_self]

theorem State.setCA_userlike (s : State) (v : Bool) : s.Userlike (s.setCA v) :=
  s.xer_userlike fun h => setBit_within h (by decide) rfl v

theorem State.setOV_userlike (s : State) (v : Bool) : s.Userlike (s.setOV v) :=
  s.xer_userlike fun h => setBit_within (setBit_within h (by decide) rfl v) (by decide) rfl _

/-- A new FPSCR whose summaries follow from its other bits. -/
theorem State.fpscr_userlike (s : State) (v : Word) : s.Userlike { s with fpscr := fpSummary v } where
  cfg := rfl
  canonical c := ⟨c.mem, c.nvram, c.ioccs⟩
  legal l := ⟨l.pc, l.msr, l.xer, fpSummary_fpSummary v, l.rtcl, l.dec⟩
  guards := .same

/-- A new instruction address on a word boundary. -/
theorem State.pc_userlike (s : State) {v : Word} (h : wordAlign s.pc = s.pc → wordAlign v = v) :
    s.Userlike { s with pc := v } where
  cfg := rfl
  canonical c := ⟨c.mem, c.nvram, c.ioccs⟩
  legal l := ⟨h l.pc, l.msr, l.xer, l.fpscr, l.rtcl, l.dec⟩
  guards := .same

theorem State.advance_userlike (s : State) : s.Userlike s.advance := s.pc_userlike fun h => wordAlign_add h rfl

theorem State.overflow_userlike (s : State) (oe v : Bool) : s.Userlike (s.overflow oe v) :=
  .ite (s.setOV_userlike v) (.refl s)

theorem State.record_userlike (s : State) (rc : Bool) (v : Word) : s.Userlike (s.record rc v) :=
  .ite (s.setCrField_userlike 0 _) (.refl s)

theorem State.recordFp_userlike (s : State) (rc : Bool) : s.Userlike (s.recordFp rc) :=
  .ite (s.setCrField_userlike 1 _) (.refl s)

theorem State.updateBase_userlike (s : State) (ra : RegNum) (ea : Word) : s.Userlike (s.updateBase ra ea) :=
  .ite (s.setReg_userlike ra ea) (.refl s)

theorem State.updateLoad_userlike (s : State) (ra rt : RegNum) (ea : Word) : s.Userlike (s.updateLoad ra rt ea) :=
  .ite (s.setReg_userlike ra ea) (.refl s)

/-- What a data access keeps. -/
theorem State.Kept.userlike {s t : State} (h : s.Kept t) : s.Userlike t := by
  have e : t = s.withOutside t := h.outside
  refine ⟨⟨h.cfg, h.canonical, fun l => ?_⟩, ?_⟩
  · have timers := h.timers ⟨l.rtcl, l.dec⟩
    rw [e]
    exact ⟨l.pc, l.msr, l.xer, l.fpscr, timers.rtcl, timers.dec⟩
  · rw [e]
    exact .same

/-! #### Interrupts -/

theorem clearedMsr_within (m : Config.Impl) (v c : Word) (h : v &&& msrMask m = v) :
    v &&& ~~~c &&& msrMask m = v &&& ~~~c := by
  rw [BitVec.and_assoc, BitVec.and_comm (~~~c), ← BitVec.and_assoc, h]

theorem wordAlign_vector (ip : Bool) (k : IntKind) :
    wordAlign (vectorPrefix ip + vectorOffset k) = vectorPrefix ip + vectorOffset k := by
  cases ip <;> cases k <;> rfl

theorem State.interrupt_preserves (s : State) (k : IntKind) (addr : Word) (info : Half) :
    s.Preserves (s.interrupt k addr info) where
  cfg := rfl
  canonical c := ⟨c.mem, c.nvram, c.ioccs⟩
  legal l := ⟨wordAlign_vector s.msrIP k, clearedMsr_within _ _ _ l.msr, l.xer, l.fpscr, l.rtcl, l.dec⟩

/-! #### How an instruction may end -/

/-- Where an instruction may lead from `s`: the invariants hold, and in problem state an interrupt has been taken or no
register of protection has changed. -/
structure State.Leads (s t : State) : Prop extends s.Preserves t where
  guarded : s.msrPR = true → t.entered = false → s.SameGuards t

/-- Whatever state the outcome is, `s` may lead to it. -/
def EndsWell (s : State) (o : Outcome State Fault Refusal) : Prop := ∀ t, o = .next t → s.Leads t

theorem EndsWell.next {s t : State} (h : s.Leads t) : EndsWell s (.next t) := fun _ e => by cases e; exact h

theorem State.Userlike.leads {s t : State} (h : s.Userlike t) : s.Leads t := ⟨h.toPreserves, fun _ _ => h.guards⟩

theorem State.Userlike.interrupt {s u : State} (h : s.Userlike u) (k : IntKind) (addr : Word) (info : Half) :
    s.Leads (u.interrupt k addr info) :=
  ⟨h.toPreserves.trans (u.interrupt_preserves k addr info), fun _ e => nomatch e⟩

theorem State.Preserves.leads {s t : State} (h : s.Preserves t) (privileged : s.msrPR = false) : s.Leads t :=
  ⟨h, fun e => by rw [privileged] at e; cases e⟩

theorem State.Leads.ite {s t u : State} {c : Prop} [Decidable c] (h1 : s.Leads t) (h2 : s.Leads u) :
    s.Leads (if c then t else u) := by
  split
  · exact h1
  · exact h2

theorem EndsWell.user {s t : State} (h : s.Userlike t) : EndsWell s (.next t) := .next h.leads

theorem EndsWell.program (s : State) (k : ProgKind) : EndsWell s (.next (s.program k)) :=
  .next ((State.Userlike.refl s).interrupt _ _ _)

/-- A privileged instruction: in the privileged state only the invariants count. -/
theorem EndsWell.privileged {s t : State} (h : s.Preserves t) :
    EndsWell s (Machine.privileged s (.next t)) := by
  intro u e
  obtain ⟨-, rfl⟩ | ⟨hp, e⟩ := privileged_next e
  · exact (State.Userlike.refl s).interrupt _ _ _
  · cases e; exact h.leads hp

theorem EndsWell.privilegedOf {s : State} {o : Outcome State Fault Refusal} (h : EndsWell s o) :
    EndsWell s (Machine.privileged s o) := by
  intro u e
  obtain ⟨-, rfl⟩ | ⟨-, e⟩ := privileged_next e
  · exact (State.Userlike.refl s).interrupt _ _ _
  · exact h u e

theorem EndsWell.needFp {s : State} {o : Outcome State Fault Refusal} (h : EndsWell s o) :
    EndsWell s (Machine.needFp s o) := by
  intro u e
  obtain ⟨-, rfl⟩ | ⟨-, e⟩ := needFp_next e
  · exact (State.Userlike.refl s).interrupt _ _ _
  · exact h u e

theorem State.TrapOf.leads {s t : State} (h : s.TrapOf t) : s.Leads t := by
  obtain ⟨u, k, w, d, kept, rfl⟩ := h
  refine ⟨kept.userlike.toPreserves.trans (.trans ?_ (State.interrupt_preserves _ k s.pc 0)), fun _ e => nomatch e⟩
  exact State.Preserves.same

/-- An access of which every end is well. -/
def Res.EndsWell {α : Type} (s : State) : Res α → Prop
  | .ok _ t => s.Userlike t
  | .trap t => s.Leads t
  | .refused _ => True

theorem Res.Keeps.endsWell {α : Type} {s : State} {x : Res α} (h : x.Keeps s) : x.EndsWell s := by
  cases x with
  | ok a t => exact State.Kept.userlike h
  | trap t => exact State.TrapOf.leads h
  | refused r => trivial

theorem EndsWell.outcome {α : Type} {s : State} {x : Res α} {f : α → State → State} (h : x.EndsWell s)
    (hf : ∀ a u, State.Userlike u (f a u)) : EndsWell s (x.outcome f) := by
  intro t e
  obtain ⟨a, u, rfl, rfl⟩ | rfl := Res.outcome_next e
  · exact (State.Userlike.trans h (hf a u)).leads
  · exact h

/-! #### Fixed-point forms -/

theorem State.arith_userlike (s : State) (rt : RegNum) (v : Word) (oe ovf rc : Bool) :
    s.Userlike (s.arith rt v oe ovf rc) :=
  (((s.setReg_userlike rt v).trans (State.overflow_userlike _ oe ovf)).trans (State.record_userlike _ rc v)).trans
    (State.advance_userlike _)

theorem State.adder_userlike (s : State) (rt : RegNum) (x y : Word) (c oe rc : Bool) :
    s.Userlike (s.adder rt x y c oe rc) :=
  (s.setCA_userlike _).trans (State.arith_userlike _ rt _ oe _ rc)

theorem State.logical_userlike (s : State) (ra : RegNum) (v : Word) (rc : Bool) : s.Userlike (s.logical ra v rc) :=
  ((s.setReg_userlike ra v).trans (State.record_userlike _ rc v)).trans (State.advance_userlike _)

theorem State.shiftQ_userlike (s : State) (ra : RegNum) (v mq : Word) (rc : Bool) : s.Userlike (s.shiftQ ra v mq rc) :=
  (s.setMq_userlike mq).trans (State.logical_userlike _ ra v rc)

theorem State.algebraic_userlike (s : State) (ra : RegNum) (src r m : Word) (rc : Bool) :
    s.Userlike (s.algebraic ra src r m rc) :=
  (s.setCA_userlike _).trans (State.logical_userlike _ ra _ rc)

theorem State.freeMq_userlike (s : State) : s.Userlike s.freeMq := ⟨.same, .same⟩

theorem State.divided_userlike (s : State) (rt : RegNum) (q r : Word) (oe ovf rc : Bool) :
    s.Userlike (s.divided rt q r oe ovf rc) :=
  (s.setMq_userlike r).trans (State.arith_userlike _ rt q oe ovf rc)

theorem State.undivided_userlike (s : State) (rt : RegNum) (oe rc : Bool) : s.Userlike (s.undivided rt oe rc) := by
  have h := (s.draws_userlike (s.draws + 3)).trans
    (State.divided_userlike _ rt s.drawWord.1 s.drawWord.2.drawWord.1 oe true false)
  exact .ite (h.trans (State.setCrField_userlike _ 0 _)) h

/-! #### Branches -/

theorem State.branch_userlike (s : State) (taken : Bool) {target : Word} (ctr : Word) (lk : Bool)
    (h : wordAlign s.pc = s.pc → wordAlign target = target) : s.Userlike (s.branch taken target ctr lk) := by
  have regs : s.Userlike { s with ctr := ctr, lr := if lk then s.nia else s.lr } := ⟨.same, .same⟩
  refine regs.trans (State.pc_userlike _ fun aligned => ?_)
  split
  · exact h aligned
  · exact wordAlign_add aligned rfl

/-- A branch target made of a displacement in words. -/
theorem wordAlign_target {n : Nat} (hn : n ≤ 30) (d : BitVec n) (aa : Bool) {pc : Word} (h : wordAlign pc = pc) :
    wordAlign (if aa then (d ++ 0#2).signExtend 32 else pc + (d ++ 0#2).signExtend 32)
      = if aa then (d ++ 0#2).signExtend 32 else pc + (d ++ 0#2).signExtend 32 := by
  cases aa with
  | false => exact wordAlign_add h (wordAlign_signExtend hn d)
  | true => exact wordAlign_signExtend hn d

theorem State.trapOn_leads (s : State) (cond : BitVec 5) (a b : Word) : s.Leads (s.trapOn cond a b) :=
  .ite ((State.Userlike.refl s).interrupt _ _ _) s.advance_userlike.leads

theorem State.crLogic_userlike (s : State) (f : Bool → Bool → Bool) (bt ba bb : BitVec 5) :
    s.Userlike (s.crLogic f bt ba bb) :=
  (s.setCrBit_userlike bt _).trans (State.advance_userlike _)

theorem execBcc_endsWell (bo bi : BitVec 5) (lk : Bool) (s : State) : EndsWell s (execBcc bo bi lk s) := by
  unfold execBcc
  split
  · exact .user (s.branch_userlike _ _ lk fun _ => wordAlign_wordAlign _)
  · exact .user ((s.draws_userlike _).trans (State.branch_userlike _ _ _ lk fun _ => wordAlign_wordAlign _))

/-! #### The MSR in the privileged state -/

theorem State.setMsr_preserves (s : State) (v : Word) : s.Preserves (s.setMsr v) where
  cfg := rfl
  canonical c := ⟨c.mem, c.nvram, c.ioccs⟩
  legal l := ⟨l.pc, by
    show v &&& msrMask s.cfg.impl &&& msrMask s.cfg.impl = v &&& msrMask s.cfg.impl
    rw [BitVec.and_assoc, BitVec.and_self], l.xer, l.fpscr, l.rtcl, l.dec⟩

theorem State.afterMsr_preserves (s : State) : s.Preserves s.afterMsr :=
  .ite (s.interrupt_preserves _ _ _) (.refl s)

theorem State.serializeFetch_userlike (s : State) : s.Userlike s.serializeFetch := ⟨.same, .same⟩

theorem State.returnFromInterrupt_preserves (s : State) : s.Preserves s.returnFromInterrupt :=
  (((s.setMsr_preserves _).trans (State.pc_userlike _ fun _ => wordAlign_wordAlign s.srr0).toPreserves).trans
    (State.serializeFetch_userlike _).toPreserves).trans (State.afterMsr_preserves _)

theorem execRfsvc_endsWell (lk : Bool) (s : State) : EndsWell s (execRfsvc lk s) := by
  have h := (s.setMsr_preserves (setBits s.msr 16 16 (s.ctr.extractLsb' 0 16))).trans
    (State.pc_userlike _ fun _ => wordAlign_wordAlign s.lr).toPreserves
  refine EndsWell.privileged (.trans ?_ (State.afterMsr_preserves _))
  cases lk with
  | false => exact h.trans .same
  | true => exact h.trans .same

theorem execSvc_preserves (fl1 : BitVec 4) (lev : BitVec 7) (fl2 : BitVec 3) (sa lk : Bool) {s t : State}
    (e : execSvc fl1 lev fl2 sa lk s = .next t) : s.Preserves t := by
  cases e
  refine ⟨rfl, fun c => ⟨c.mem, c.nvram, c.ioccs⟩, fun l =>
    ⟨?_, clearedMsr_within _ _ _ l.msr, l.xer, l.fpscr, l.rtcl, l.dec⟩⟩
  show wordAlign (vectorPrefix s.msrIP ||| svcOffset lev sa) = vectorPrefix s.msrIP ||| svcOffset lev sa
  rw [vectorPrefix_or_svcOffset]
  refine wordAlign_add (by cases s.msrIP <;> rfl) ?_
  cases sa with
  | true => exact (by decide : wordAlign (0x1FE0 : Word) = 0x1FE0)
  | false => rw [wordAlign_eq_iff, svcOffset_false_toNat]; omega

/-! #### Special registers -/

theorem State.signal_userlike (s : State) (n : BitVec 6) : s.Userlike (s.signal n) := (s.signal_kept n).userlike

theorem State.writeDec_userlike (s : State) (v : Word) : s.Userlike (s.writeDec v) := by
  have h : s.Userlike { s with dec := v &&& timerMask } :=
    ⟨⟨rfl, fun c => ⟨c.mem, c.nvram, c.ioccs⟩,
      fun l => ⟨l.pc, l.msr, l.xer, l.fpscr, l.rtcl, timer_mask v⟩⟩, .same⟩
  exact .ite (h.trans (State.signal_userlike _ _)) h

theorem State.ilcrCommand_preserves {s t : State} {v : Word} (h : s.ilcrCommand v = some t) : s.Preserves t := by
  unfold State.ilcrCommand at h
  simp only at h
  split at h
  · cases h; exact .same
  split at h
  · split at h
    · cases h; exact .same
    · cases h
  split at h
  · split at h
    · cases h; exact .same
    · cases h
  · cases h; exact .same

theorem State.writeSpr_preserves {s t : State} {r : Spr} {v : Word} (h : s.writeSpr r v = some t) :
    s.Preserves t := by
  cases r with
  | xer => cases h; exact (s.setXer_userlike v).toPreserves
  | dec => cases h; exact (s.writeDec_userlike v).toPreserves
  | rtcl =>
    cases h
    exact ⟨rfl, fun c => ⟨c.mem, c.nvram, c.ioccs⟩, fun l => ⟨l.pc, l.msr, l.xer, l.fpscr, timer_mask v, l.dec⟩⟩
  | ilcr =>
    obtain ⟨u, hu, rfl⟩ := Option.map_eq_some_iff.1 h
    exact (State.ilcrCommand_preserves hu).trans .same
  | _ => cases h; exact .same

/-- A register that a program in problem state can write is none that protection rests on. -/
theorem State.writeSpr_guards {s t : State} {n : BitVec 5} {r : Spr} {v : Word} (named : sprTo s.cfg n = some r)
    (free : sprPrivileged n r = false) (h : s.writeSpr r v = some t) : s.SameGuards t := by
  have low : n.toNat < 16 := by
    have msb : n.msb = false := (Bool.or_eq_false_iff.1 free).1
    rw [BitVec.msb_eq_false_iff_two_mul_lt] at msb
    omega
  have notIlcr : r ≠ .ilcr := by
    rintro rfl
    cases (Bool.or_eq_false_iff.1 free).2
  have few : r = .mq ∨ r = .xer ∨ r = .lr ∨ r = .ctr := by
    unfold sprTo sprBoth at named
    split at named
    all_goals first
      | omega
      | (split at named
         all_goals first
           | omega
           | (cases named; simp)
           | (split at named
              · cases named; exact absurd rfl notIlcr
              · cases named))
  obtain rfl | rfl | rfl | rfl := few
  all_goals cases h; exact .same

theorem execMtspr_endsWell (rs : RegNum) (n : BitVec 5) (s : State) : EndsWell s (execMtspr rs n s) := by
  unfold execMtspr
  cases named : sprTo s.cfg n with
  | none => exact .program s .invalid
  | some r =>
    simp only
    split
    · exact .program s .privileged
    · rename_i notTrapped
      cases written : s.writeSpr r (s.reg rs) with
      | none => intro t e; cases e
      | some t =>
        refine .next ⟨(State.writeSpr_preserves written).trans t.advance_userlike.toPreserves, fun pr _ => ?_⟩
        have free : sprPrivileged n r = false := by simpa [pr] using notTrapped
        exact (State.writeSpr_guards named free written).trans t.advance_userlike.guards

theorem State.readIlcr_userlike (s : State) : s.Userlike s.readIlcr.2 := by
  unfold State.readIlcr
  split
  · exact .refl s
  · exact ⟨.same, .same⟩

theorem State.takeIlcr_userlike (s : State) : s.Userlike s.takeIlcr.2 := by
  unfold State.takeIlcr
  split
  · exact s.readIlcr_userlike
  · exact (s.draws_userlike (s.draws + 1 + 1)).trans (.ite (State.readIlcr_userlike _) (.refl _))

theorem State.readSpr_userlike (s : State) (r : Spr) : s.Userlike (s.readSpr r).2 := by
  cases r with
  | ilcr => exact s.takeIlcr_userlike
  | _ => exact .refl s

theorem execMfspr_endsWell (rt : RegNum) (n : BitVec 5) (s : State) : EndsWell s (execMfspr rt n s) := by
  unfold execMfspr
  cases sprFrom s.cfg n with
  | none => exact .program s .invalid
  | some r =>
    simp only
    split
    · exact .program s .privileged
    · exact .user (((s.readSpr_userlike r).trans (State.setReg_userlike _ rt _)).trans (State.advance_userlike _))

theorem execMcrxr_endsWell (bf : CrField) (s : State) : EndsWell s (execMcrxr bf s) := by
  have h : s.Userlike { s with xer := setBits s.xer 0 4 0 } :=
    s.xer_userlike fun h => setBits_within h (by decide) 0 fun j _ _ hj => by
      rw [BitVec.ofNat_eq_ofNat, BitVec.getMsbD_zero] at hj; cases hj
  exact .user ((h.trans (State.setCrField_userlike _ bf _)).trans (State.advance_userlike _))

end Sys2Proof.Machine

end

/-! ### The invariants under floating-point instructions, loads and stores, and storage control -/

section

namespace Sys2Proof.Machine

open Host (Outcome)

/-! #### Floating point -/

theorem State.fpEnd_leads {s u : State} (h : s.Userlike u) : s.Leads u.fpEnd :=
  .ite (h.interrupt _ _ _) (h.trans u.advance_userlike).leads

theorem State.fpRecent_userlike (s : State) (l : List (RegNum × Nat)) : s.Userlike { s with fpRecent := l } :=
  ⟨.same, .same⟩

theorem State.fpComplete_leads {s u : State} (h : s.Userlike u) (o : FpOut) (frt : RegNum) (srcs : List RegNum)
    (rc : Bool) : s.Leads (u.fpComplete o frt srcs rc) := by
  have recorded := (h.trans (u.fpscr_userlike _)).trans (State.recordFp_userlike { u with fpscr := o.fpscr u.fpscr } rc)
  unfold State.fpComplete
  refine State.fpEnd_leads ?_
  cases o.result with
  | none => exact recorded
  | some v => exact (recorded.trans (State.setFreg_userlike _ frt v)).trans (State.fpRecent_userlike _ _)

theorem EndsWell.fpComplete {s u : State} (h : s.Userlike u) (o : FpOut) (frt : RegNum) (srcs : List RegNum)
    (rc : Bool) : EndsWell s (.next (u.fpComplete o frt srcs rc)) :=
  .next (State.fpComplete_leads h o frt srcs rc)

theorem State.convert_leads (s : State) (frt frb : RegNum) (mode : BitVec 2) (rc : Bool) :
    s.Leads (s.convert frt frb mode rc) :=
  State.fpComplete_leads (s.draws_userlike (s.draws + 1 + 1)) _ frt [frb] rc

theorem State.fpMove_endsWell (s : State) (frt : RegNum) (v : DWord) (rc : Bool) : EndsWell s (s.fpMove frt v rc) :=
  .needFp (.user (((s.setFreg_userlike frt v).trans (State.recordFp_userlike _ rc)).trans (State.advance_userlike _)))

theorem execFrsp_endsWell (frt frb : RegNum) (rc : Bool) (s : State) : EndsWell s (execFrsp frt frb rc s) := by
  unfold execFrsp
  refine .needFp ?_
  split
  · exact .fpComplete (s.draws_userlike _) _ frt [frb] rc
  · exact .fpComplete (.refl s) _ frt [frb] rc

theorem State.compare_leads (s : State) (bf : CrField) (a b : DWord) (bits : Word) :
    s.Leads (s.compare bf a b bits) :=
  State.fpEnd_leads ((s.fpscr_userlike _).trans (State.setCrField_userlike _ bf _))

theorem State.writeFpscr_leads (s : State) (v : Word) (rc : Bool) : s.Leads (s.writeFpscr v rc) :=
  State.fpEnd_leads ((s.fpscr_userlike v).trans (State.recordFp_userlike _ rc))

theorem execMffs_endsWell (frt : RegNum) (rc : Bool) (s : State) : EndsWell s (execMffs frt rc s) :=
  .needFp (.user ((((s.draws_userlike _).trans (State.setFreg_userlike _ frt _)).trans
    (State.recordFp_userlike _ rc)).trans (State.advance_userlike _)))

theorem execMcrfs_endsWell (bf bfa : CrField) (s : State) : EndsWell s (execMcrfs bf bfa s) :=
  .needFp (.user (((s.fpscr_userlike _).trans (State.setCrField_userlike _ bf _)).trans (State.advance_userlike _)))

/-! #### Scalar loads and stores -/

theorem State.loadInto_endsWell (s : State) (w ea : Word) (n : Nat) (conv : List Byte → Word) (rt : RegNum) :
    EndsWell s (s.loadInto w ea n conv rt) :=
  .outcome (s.fixedLoad_keeps w ea n).endsWell fun l u =>
    (u.setReg_userlike rt (conv l)).trans (State.advance_userlike _)

theorem State.loadUpdating_endsWell (s : State) (w ea : Word) (n : Nat) (conv : List Byte → Word) (rt ra : RegNum) :
    EndsWell s (s.loadUpdating w ea n conv rt ra) :=
  .outcome (s.fixedLoad_keeps w ea n).endsWell fun l u =>
    ((u.setReg_userlike rt (conv l)).trans (State.updateLoad_userlike _ ra rt ea)).trans (State.advance_userlike _)

theorem State.storeFrom_endsWell (s : State) (w ea : Word) (l : List Byte) : EndsWell s (s.storeFrom w ea l) :=
  .outcome (s.fixedStore_keeps w ea l).endsWell fun _ u => u.advance_userlike

theorem State.storeUpdating_endsWell (s : State) (w ea : Word) (l : List Byte) (ra : RegNum) :
    EndsWell s (s.storeUpdating w ea l ra) :=
  .outcome (s.fixedStore_keeps w ea l).endsWell fun _ u =>
    (u.updateBase_userlike ra ea).trans (State.advance_userlike _)

theorem State.floatInto_endsWell (s : State) (w ea : Word) (n : Nat) (conv : List Byte → DWord) (frt : RegNum) :
    EndsWell s (s.floatInto w ea n conv frt) :=
  .needFp (.outcome (s.floatLoad_keeps w ea n ea).endsWell fun l u =>
    (u.setFreg_userlike frt (conv l)).trans (State.advance_userlike _))

theorem State.floatIntoUpdating_endsWell (s : State) (w ea : Word) (n : Nat) (conv : List Byte → DWord)
    (frt ra : RegNum) : EndsWell s (s.floatIntoUpdating w ea n conv frt ra) :=
  .needFp (.outcome (s.floatLoad_keeps w ea n ea).endsWell fun l u =>
    ((u.setFreg_userlike frt (conv l)).trans (State.updateBase_userlike _ ra ea)).trans (State.advance_userlike _))

theorem State.floatFrom_endsWell (s : State) (w ea : Word) (l : List Byte) : EndsWell s (s.floatFrom w ea l) :=
  .needFp (.outcome (s.floatStore_keeps w ea l ea).endsWell fun _ u => u.advance_userlike)

theorem State.floatFromUpdating_endsWell (s : State) (w ea : Word) (l : List Byte) (ra : RegNum) :
    EndsWell s (s.floatFromUpdating w ea l ra) :=
  .needFp (.outcome (s.floatStore_keeps w ea l ea).endsWell fun _ u =>
    (u.updateBase_userlike ra ea).trans (State.advance_userlike _))

/-! #### Quads -/

/-- A later state from which an access ends well. -/
theorem Res.EndsWell.after {α : Type} {s t : State} {x : Res α} (h : s.Kept t) (hx : x.EndsWell t) :
    x.EndsWell s := by
  cases x with
  | ok a u => exact h.userlike.trans hx
  | trap u =>
    refine ⟨h.userlike.toPreserves.trans hx.toPreserves, fun pr e => h.userlike.guards.trans (hx.guarded ?_ e)⟩
    unfold State.msrPR at pr ⊢
    rwa [h.msr]
  | refused r => trivial

theorem Res.EndsWell.andThen {α β : Type} {s : State} {x : Res α} {f : α → State → Res β} (h : x.Keeps s)
    (hf : ∀ a u, (f a u).EndsWell u) : (x.andThen f).EndsWell s := by
  cases x with
  | ok a u => exact .after h (hf a u)
  | trap u => exact State.TrapOf.leads h
  | refused r => trivial

theorem State.quadLoad_endsWell (s : State) (w ea : Word) : (s.quadLoad w ea).EndsWell s :=
  .andThen (s.floatLoad_keeps w ea 8 ea) fun _ u =>
    .andThen (u.floatLoad_keeps w (ea + 8) 8 ea) fun _ v => State.Userlike.refl v

theorem State.quadInto_endsWell (s : State) (w ea : Word) (frt : RegNum) {update : State → State}
    (h : ∀ u, State.Userlike u (update u)) : EndsWell s (s.quadInto w ea frt update) :=
  .needFp (.outcome (s.quadLoad_endsWell w ea) fun p u =>
    (((u.setFreg_userlike frt p.1).trans (State.setFreg_userlike _ (frt + 1) p.2)).trans (h _)).trans
      (State.advance_userlike _))

/-- An interrupt has been taken: what the access keeps of the registers does not matter to protection. -/
theorem State.TrapOf.entered {s t : State} (h : s.TrapOf t) : t.entered = true := by
  obtain ⟨u, k, w, d, -, rfl⟩ := h
  rfl

theorem State.quadStore_endsWell (s : State) (w ea : Word) (frs : RegNum) : (s.quadStore w ea frs).EndsWell s := by
  have first := s.floatStore_keeps w ea (s.doubleBytes frs) ea
  unfold State.quadStore
  cases hx : s.floatStore w ea (s.doubleBytes frs) with
  | trap t => rw [hx] at first; exact State.TrapOf.leads first
  | refused r => trivial
  | ok a u =>
    rw [hx] at first
    have kept : s.Kept u := first
    have second := u.floatStore_keeps w (ea + 8) (s.doubleBytes (frs + 1)) ea
    simp only [Res.andThen]
    cases hy : u.floatStore w (ea + 8) (s.doubleBytes (frs + 1)) ea with
    | ok b v => rw [hy] at second; exact .after kept (Res.Keeps.endsWell second)
    | refused r => trivial
    | trap t =>
      rw [hy] at second
      have trapped : u.TrapOf t := second
      have ends : s.Leads t := Res.EndsWell.after (x := Res.trap (α := Unit) t) kept trapped.leads
      have entered : t.entered = true := trapped.entered
      have drawn : s.Preserves t.drawBit.2 := ends.toPreserves.trans .same
      simp only
      split
      · exact ⟨drawn, fun _ e => by rw [show t.drawBit.2.entered = t.entered from rfl, entered] at e; cases e⟩
      · refine ⟨⟨drawn.cfg, fun c => ?_, fun l => ?_⟩, fun _ e => by
          rw [show t.entered = false from e] at entered; cases entered⟩
        · exact ⟨c.mem, (drawn.canonical c).nvram, (drawn.canonical c).ioccs⟩
        · obtain ⟨pc, msr, xer, fpscr, rtcl, dec⟩ := drawn.legal l
          exact ⟨pc, msr, xer, fpscr, rtcl, dec⟩

theorem State.quadFrom_endsWell (s : State) (w ea : Word) (frs : RegNum) {update : State → State}
    (h : ∀ u, State.Userlike u (update u)) : EndsWell s (s.quadFrom w ea frs update) :=
  .needFp (.outcome (s.quadStore_endsWell w ea frs) fun _ u => (h u).trans (State.advance_userlike _))

/-! #### Multiples and strings -/

theorem putRegs_userlike (skip : RegNum → Bool) (fuel : Nat) (r : RegNum) (l : List Byte) (s : State) :
    s.Userlike (putRegs skip fuel r l s) := by
  induction fuel generalizing r l s with
  | zero => exact .refl s
  | succ fuel ih =>
    unfold putRegs
    exact .ite (.refl s) (.trans (.ite (.refl s) (s.setReg_userlike r _)) (ih _ _ _))

theorem State.Userlike.dataStorage {s u : State} (h : s.Userlike u) (c : DsiCause) (store : Bool) (dar : Word) :
    s.Leads (u.dataStorage c store dar) :=
  ⟨h.toPreserves.trans (.trans .same (State.interrupt_preserves _ _ _ _)), fun _ e => nomatch e⟩

theorem State.loadBlock_endsWell (s : State) (ea : Word) (n : Nat) {put : List Byte → State → State}
    (h : ∀ l u, State.Userlike u (put l u)) : (s.loadBlock ea n put).EndsWell s := by
  have keeps : (if s.isIo ea then s.ioGot ea n none none else s.loadMem ea n).Keeps s := by
    split
    · exact s.ioGot_keeps ea n none none
    · exact s.loadMem_keeps ea n
  unfold State.loadBlock
  generalize (if s.isIo ea then s.ioGot ea n none none else s.loadMem ea n) = g at keeps
  cases g with
  | ok l u => exact (State.Kept.userlike keeps).trans (h l u)
  | refused r => trivial
  | fail c dar got u =>
    have drawn : s.Userlike u.drawBit.2 := (State.Kept.userlike keeps).trans (u.draws_userlike _)
    exact State.Userlike.dataStorage (.ite (drawn.trans (h got _)) drawn) c false dar

theorem State.alignment_leads (s : State) (w ea access : Word) : s.Leads (s.alignment w ea access) :=
  ((State.Kept.refl s).alignment w ea access).leads

/-- The three ways in which lm and stm begin. -/
theorem EndsWell.multiple {s : State} {w ea : Word} {go : Word → Outcome State Fault Refusal}
    (h : ∀ a, EndsWell s (go a)) :
    EndsWell s (if s.isIo ea then if s.alignIoTrap ea 4 then .next (s.alignment w ea) else go ea
      else match s.alignMultiple ea with
        | none => .next (s.alignment w ea)
        | some a => go a) := by
  split
  · split
    · exact .next (s.alignment_leads w ea ea)
    · exact h ea
  · cases s.alignMultiple ea with
    | none => exact .next (s.alignment_leads w ea ea)
    | some a => exact h a

theorem execLm_endsWell (rt ra : RegNum) (d : BitVec 16) (s : State) : EndsWell s (execLm rt ra d s) :=
  .multiple fun a => .outcome (s.loadBlock_endsWell a _ fun l u => putRegs_userlike _ 32 rt (wholeWords l) u)
    fun _ u => u.advance_userlike

theorem execStm_endsWell (rs ra : RegNum) (d : BitVec 16) (s : State) : EndsWell s (execStm rs ra d s) :=
  .multiple fun a => .outcome (s.storeBlock_keeps a _).endsWell fun _ u => u.advance_userlike

theorem State.loadString_endsWell (s : State) (skip : RegNum → Bool) (rt : RegNum) (ea : Word) (n : Nat) :
    EndsWell s (s.loadString skip rt ea n) :=
  .outcome (s.loadBlock_endsWell ea n fun _ u => putRegs_userlike skip 32 rt _ u) fun _ u => u.advance_userlike

theorem State.freedMq_userlike (s : State) :
    s.Userlike ({ s.drawWord.2 with mq := s.drawWord.1 } : State).advance :=
  ((s.draws_userlike _).trans (State.setMq_userlike _ _)).trans (State.advance_userlike _)

theorem State.storeString_endsWell (s : State) (rs : RegNum) (ea : Word) (n : Nat) :
    EndsWell s (s.storeString rs ea n) :=
  .outcome (s.storeBlock_keeps ea _).endsWell fun _ u => u.freedMq_userlike

theorem State.freedReg_userlike (s : State) (r : RegNum) : s.Userlike (s.drawWord.2.setReg r s.drawWord.1) :=
  (s.draws_userlike _).trans (State.setReg_userlike _ r _)

theorem execLsx_endsWell (rt ra rb : RegNum) (s : State) : EndsWell s (execLsx rt ra rb s) := by
  unfold execLsx
  split
  · exact .user ((s.freedReg_userlike rt).trans (State.advance_userlike _))
  · exact s.loadString_endsWell _ rt _ _

theorem execStsx_endsWell (rs ra rb : RegNum) (s : State) : EndsWell s (execStsx rs ra rb s) := by
  unfold execStsx
  split
  · exact .user s.freedMq_userlike
  · exact s.storeString_endsWell rs _ _

theorem State.putStringByte_userlike (s : State) (skip : RegNum → Bool) (r : RegNum) (k : Nat) (b : Byte) :
    s.Userlike (s.putStringByte skip r k b) :=
  .ite (.refl s) (s.setReg_userlike _ _)

theorem scanString_endsWell (g0 : Vector Word 32) (skip : RegNum → Bool) (rt : RegNum) (ea : Word) (c : Byte)
    (left k : Nat) {s0 : State} (s : State) (h : s0.Userlike s) :
    (scanString g0 skip rt ea c left k s).EndsWell s0 := by
  induction left generalizing k s with
  | zero => exact h
  | succ left ih =>
    have keeps := s.loadMem_keeps (ea + BitVec.ofNat 32 k) 1
    unfold scanString
    simp only
    generalize s.loadMem (ea + BitVec.ofNat 32 k) 1 = g at keeps
    cases g with
    | refused r => trivial
    | fail cause dar got u =>
      refine State.Userlike.dataStorage ?_ cause false dar
      exact ((h.trans (State.Kept.userlike keeps)).trans (u.draws_userlike _)).trans (State.setGprs_userlike _ _)
    | ok l u =>
      have put := (h.trans (State.Kept.userlike keeps)).trans (u.putStringByte_userlike skip rt k (l.getD 0 0))
      simp only
      split
      · exact put
      · exact ih (k + 1) _ put

theorem placeUntil_userlike (skip : RegNum → Bool) (rt : RegNum) (c : Byte) (l : List Byte) (k : Nat) (s : State) :
    s.Userlike (placeUntil skip rt c l k s).2 := by
  induction l generalizing k s with
  | nil => exact .refl s
  | cons b l ih =>
    unfold placeUntil
    simp only
    split
    · exact s.putStringByte_userlike skip rt k b
    · exact (s.putStringByte_userlike skip rt k b).trans (ih (k + 1) _)

theorem scanIo_endsWell (skip : RegNum → Bool) (rt : RegNum) (ea : Word) (c : Byte) (n : Nat) (s : State) :
    (scanIo skip rt ea c n s).EndsWell s := by
  have keeps := s.ioGot_keeps ea n none (some c)
  unfold scanIo
  generalize s.ioGot ea n none (some c) = g at keeps
  cases g with
  | refused r => trivial
  | ok l u => exact (State.Kept.userlike keeps).trans (placeUntil_userlike skip rt c _ 0 u)
  | fail cause dar got u =>
    have drawn : s.Userlike u.drawBit.2 := (State.Kept.userlike keeps).trans (u.draws_userlike _)
    exact State.Userlike.dataStorage (.ite (drawn.trans (placeUntil_userlike skip rt c got 0 _)) drawn) cause false dar

theorem State.scan_endsWell (s : State) (skip : RegNum → Bool) (rt : RegNum) (ea : Word) (c : Byte) (n : Nat) :
    (s.scan skip rt ea c n).EndsWell s := by
  unfold State.scan
  split
  · exact scanIo_endsWell skip rt ea c n s
  · exact scanString_endsWell s.gpr skip rt ea c n 0 s (.refl s)

theorem State.freeTail_userlike (s : State) (skip : RegNum → Bool) (r : RegNum) (k : Nat) :
    s.Userlike (s.freeTail skip r k) :=
  .ite (s.freedReg_userlike r)
    (.ite (.refl s) ((s.draws_userlike _).trans (State.setReg_userlike _ _ _)))

theorem bitAt_xerMask_count : ∀ j, 25 ≤ j → j < 32 → bitAt xerMask j = true := by decide

theorem execLscbx_endsWell (rt ra rb : RegNum) (rc : Bool) (s : State) : EndsWell s (execLscbx rt ra rb rc s) := by
  refine .outcome (s.scan_endsWell _ rt _ _ _) fun p u => ?_
  obtain ⟨k, hit⟩ := p
  have counted := (u.freeTail_userlike (skipBoth ra rb) rt k).trans
    (State.xer_userlike _ (v := setBits (u.freeTail (skipBoth ra rb) rt k).xer 25 7 (BitVec.ofNat 7 k)) fun h =>
      setBits_within h (by decide) _ fun j hj hj' _ => bitAt_xerMask_count j hj hj')
  exact (counted.trans (.ite (State.setCrField_userlike _ 0 _) (.refl _))).trans (State.advance_userlike _)

/-! #### Storage control -/

/-- An update of the caches, the store-backs and the TLB. -/
theorem State.Userlike.caches (s : State) (dc : List DLine) (ic : List ILine) (wb : List StoreBack)
    (tlb : List TlbEntry) : s.Userlike { s with dc := dc, ic := ic, wb := wb, tlb := tlb } := ⟨.same, .same⟩

theorem State.storeBackIfModified_userlike (s : State) (line : Nat) : s.Userlike (s.storeBackIfModified line) := by
  unfold State.storeBackIfModified
  split
  · exact .ite ⟨.same, .same⟩ (.refl s)
  · exact .refl s

theorem State.flushLine_userlike (s : State) (line : Nat) : s.Userlike (s.flushLine line) :=
  (s.storeBackIfModified_userlike line).trans ⟨.same, .same⟩

theorem State.invalidateLine_userlike (s : State) (line : Nat) : s.Userlike (s.invalidateLine line) := ⟨.same, .same⟩

theorem State.storeLine_userlike (s : State) (line : Nat) : s.Userlike (s.storeLine line) :=
  (s.storeBackIfModified_userlike line).trans ⟨.same, .same⟩

theorem State.zeroLine_userlike (s : State) (line : Nat) : s.Userlike (s.zeroLine line) :=
  (s.finishLine_behind line).kept.userlike.trans ⟨.same, .same⟩

theorem State.evictData_userlike (s : State) (line : Nat) : s.Userlike (s.evictData line) :=
  (s.storeBackIfModified_userlike line).trans ⟨.same, .same⟩

theorem State.cacheAccess_endsWell (s : State) (ea : Word) (store : Bool) : (s.cacheAccess ea store).EndsWell s := by
  have kept := dataAddr_kept ea store s
  unfold State.cacheAccess
  split
  · exact State.Userlike.refl s
  · generalize dataAddr ea store s = p at kept
    obtain ⟨r, u⟩ := p
    cases r with
    | real ra => exact State.Kept.userlike kept
    | fail c => exact (State.Kept.dataStorage kept c store ea).leads

theorem State.cacheInstr_endsWell (s : State) (ra rb : RegNum) (store : Bool) {f : State → Nat → State}
    (h : ∀ u n, State.Userlike u (f u n)) : EndsWell s (s.cacheInstr ra rb store f) := by
  refine .outcome (s.cacheAccess_endsWell _ store) fun line u => ?_
  refine .trans (.trans ?_ (State.updateBase_userlike _ ra _)) (State.advance_userlike _)
  cases line with
  | none => exact .refl u
  | some n => exact h u n

theorem State.setSegment_preserves (s : State) (n : BitVec 4) (v : Word) : s.Preserves (s.setSegment n v) := .same

theorem execClcs_endsWell (rt ra : RegNum) (s : State) : EndsWell s (execClcs rt ra s) := by
  unfold execClcs
  split
  · exact .user ((s.setReg_userlike rt _).trans (State.advance_userlike _))
  · exact .user ((s.freedReg_userlike rt).trans (State.advance_userlike _))

theorem State.realAddress_kept (s : State) (ea : Word) : s.Kept (s.realAddress ea).2 := by
  have looked := lookupPage_behind (bitsAt (s.segmentOf ea) 8 24) (bitsAt ea 4 16) s
  unfold State.realAddress
  split
  · exact .refl s
  · generalize lookupPage (bitsAt (s.segmentOf ea) 8 24) (bitsAt ea 4 16) s = p at looked
    obtain ⟨r, u⟩ := p
    cases r with
    | entry e => exact (looked.trans (u.failedAccess_behind e)).kept
    | notFound => exact looked.kept
    | loop => exact looked.kept

theorem execRac_endsWell (rt ra rb : RegNum) (rc : Bool) (s : State) : EndsWell s (execRac rt ra rb rc s) := by
  have kept := s.realAddress_kept (s.eaX ra rb)
  unfold execRac
  simp only
  generalize s.realAddress (s.eaX ra rb) = p at kept
  obtain ⟨r, u⟩ := p
  have found := ((kept.userlike.trans (u.setReg_userlike rt (r.getD 0))).trans
    (State.updateLoad_userlike _ ra rt (s.eaX ra rb))).trans (State.setCrBit_userlike _ 2 r.isSome)
  refine EndsWell.privileged (State.Preserves.trans ?_ (State.advance_userlike _).toPreserves)
  cases rc with
  | false => exact found.toPreserves
  | true => exact ((found.trans (State.draws_userlike _ _)).trans (State.setCrField_userlike _ 0 _)).toPreserves

/-! #### Instruction fetch and mtmsr -/

/-- What an instruction fetch keeps: it stays behind the registers, but for the instruction cache and the prefetch
buffer. -/
structure State.Fetches (s t : State) : Prop where
  rest : t = { s.withStorage t with ic := t.ic, pf := t.pf }
  wf : Memory.wf s.mem = true → Memory.wf t.mem = true

theorem State.Behind.fetches {s t : State} (h : s.Behind t) : s.Fetches t := by
  have e : t = s.withStorage t := h.storage
  refine ⟨?_, h.wf⟩
  rw [e]
  rfl

theorem State.Fetches.trans {s t u : State} (h1 : s.Fetches t) (h2 : t.Fetches u) : s.Fetches u := by
  refine ⟨?_, h2.wf ∘ h1.wf⟩
  have e := h2.rest
  rw [h1.rest] at e
  exact e

theorem State.Fetches.refl (s : State) : s.Fetches s := ⟨rfl, id⟩

theorem State.Fetches.userlike {s t : State} (h : s.Fetches t) : s.Userlike t := by
  refine ⟨⟨?_, fun c => ⟨h.wf c.mem, ?_, ?_⟩, fun l => ?_⟩, ?_⟩
  · rw [h.rest]; rfl
  · rw [h.rest]; exact c.nvram
  · rw [h.rest]; exact c.ioccs
  · rw [h.rest]; exact ⟨l.pc, l.msr, l.xer, l.fpscr, l.rtcl, l.dec⟩
  · rw [h.rest]; exact .same

theorem State.fillInstr_fetches {s t : State} {line : Nat} (h : s.fillInstr line = some t) : s.Fetches t := by
  unfold State.fillInstr at h
  split at h
  · cases h; exact ⟨rfl, id⟩
  · cases h

theorem State.fetchByte_fetches {s t : State} {ra : Word} {b : Byte} (h : s.fetchByte ra = some (b, t)) :
    s.Fetches t := by
  unfold State.fetchByte at h
  split at h
  · cases h; exact .refl s
  · split at h
    · cases h; exact State.fillInstr_fetches ‹_›
    · cases h

theorem State.fetchBytes_fetches {n : Nat} {ra : Word} {s t : State} {l : List Byte}
    (h : State.fetchBytes n ra s = some (l, t)) : s.Fetches t := by
  induction n generalizing ra s l with
  | zero => cases h; exact .refl _
  | succ n ih =>
    unfold State.fetchBytes at h
    split at h
    · cases h
    · split at h
      · cases h
      · cases h; exact (State.fetchByte_fetches ‹_›).trans (ih ‹_›)

/-- A fetch, however it ends. -/
def Fetched.Keeps (s : State) : Fetched → Prop
  | .word _ t => s.Fetches t
  | .storage _ t => s.Fetches t
  | .machineCheck t => s.Fetches t

theorem fetchReal_keeps {s t : State} (h : s.Fetches t) (ra : Word) : (fetchReal ra t).Keeps s := by
  unfold fetchReal
  split
  · exact h.trans (State.fetchBytes_fetches ‹_›)
  · exact h

theorem fetchTranslate_fetches (ea : Word) (s : State) : s.Fetches (fetchTranslate ea s).2 := by
  unfold fetchTranslate
  split
  · exact (translate_behind ea false false s).fetches
  · simp only
    generalize (s.pickSdr s.sdr0 (s.sdrBefore.map Prod.fst)).1 = a
    generalize hb : ((s.pickSdr s.sdr0 (s.sdrBefore.map Prod.fst)).2.pickSdr s.sdr1 (s.sdrBefore.map Prod.snd)).1 = b
    generalize hu : ((s.pickSdr s.sdr0 (s.sdrBefore.map Prod.fst)).2.pickSdr s.sdr1 (s.sdrBefore.map Prod.snd)).2 = u
    have drawn : u = { s with draws := s.draws + 1 + 1 } := hu.symm
    subst drawn
    have walked := translate_behind ea false false { s with draws := s.draws + 1 + 1, sdr0 := a, sdr1 := b }
    generalize translate ea false false { s with draws := s.draws + 1 + 1, sdr0 := a, sdr1 := b } = p at walked
    obtain ⟨r, v⟩ := p
    have e := walked.storage
    refine ⟨?_, walked.wf⟩
    unfold State.StorageOnly at e
    simp only at e ⊢
    rw [e]
    rfl

theorem fetchNow_keeps (ea : Word) (s : State) : (fetchNow ea s).Keeps s := by
  unfold fetchNow
  split
  · exact fetchReal_keeps (.refl s) ea
  split
  · exact State.Fetches.refl s
  split
  · exact State.Fetches.refl s
  · have walked := fetchTranslate_fetches ea s
    generalize fetchTranslate ea s = p at walked
    obtain ⟨r, u⟩ := p
    cases r with
    | real ra => exact fetchReal_keeps walked ra
    | fail c => exact walked

theorem ifetch_keeps (s : State) : (ifetch s).Keeps s := by
  unfold ifetch
  split
  · exact fetchNow_keeps s.pc s
  · split
    · exact State.Fetches.refl s
    · exact s.drawWord_behind.fetches

theorem State.prefetchWord_fetches (s : State) (ea : Word) : s.Fetches (s.prefetchWord ea) := by
  have keeps := fetchNow_keeps (wordAlign ea) s
  unfold State.prefetchWord
  generalize fetchNow (wordAlign ea) s = f at keeps
  cases f with
  | word w u => exact State.Fetches.trans keeps ⟨rfl, id⟩
  | storage i u => exact .refl s
  | machineCheck u => exact .refl s

theorem State.refill_fetches (n : Nat) (ea : Word) (s : State) : s.Fetches (State.refill n ea s) := by
  induction n generalizing ea s with
  | zero => exact .refl s
  | succ n ih =>
    unfold State.refill
    refine State.Fetches.trans ?_ (ih (ea + 4) _)
    have drawn := s.drawBit_behind.fetches
    split
    · exact drawn.trans (State.prefetchWord_fetches _ ea)
    · exact drawn

/-- The old registers with the caches, the memory and the prefetch buffer after some fetches. -/
theorem State.withFetched_userlike {s t : State} (h : Memory.wf s.mem = true → Memory.wf t.mem = true) :
    s.Userlike (s.withFetched t) :=
  ⟨⟨rfl, fun c => ⟨h c.mem, c.nvram, c.ioccs⟩, fun l => ⟨l.pc, l.msr, l.xer, l.fpscr, l.rtcl, l.dec⟩⟩, .same⟩

theorem execMtmsr_endsWell (rs : RegNum) (s : State) : EndsWell s (execMtmsr rs s) := by
  refine EndsWell.privileged (.trans (.trans (.trans ?_ (State.setMsr_preserves _ (s.reg rs)))
    (State.advance_userlike _).toPreserves) (State.afterMsr_preserves _))
  exact (State.withFetched_userlike (s := s)
    fun c => (State.refill_fetches _ s.nia ({ s with pf := [] } : State).drawWord.2).wf c).toPreserves

end Sys2Proof.Machine

end

/-! ### The invariants under every instruction -/

section

namespace Sys2Proof.Machine

open Host (Outcome)

theorem EndsWell.arith {s u : State} (h : s.Userlike u) (rt : RegNum) (v : Word) (oe ovf rc : Bool) :
    EndsWell s (.next (u.arith rt v oe ovf rc)) :=
  .user (h.trans (u.arith_userlike rt v oe ovf rc))

theorem EndsWell.logical (s : State) (ra : RegNum) (v : Word) (rc : Bool) : EndsWell s (.next (s.logical ra v rc)) :=
  .user (s.logical_userlike ra v rc)

/-- An instruction that does nothing but go on after an update. -/
theorem EndsWell.advance {s u : State} (h : s.Userlike u) : EndsWell s (.next u.advance) :=
  .user (h.trans u.advance_userlike)

theorem execDoz_endsWell (rt ra rb : RegNum) (oe rc : Bool) (s : State) : EndsWell s (execDoz rt ra rb oe rc s) := by
  unfold execDoz
  split
  · exact .arith (.refl s) rt _ oe _ rc
  · exact .arith (.refl s) rt _ oe _ rc

theorem execMul_endsWell (rt ra rb : RegNum) (oe rc : Bool) (s : State) : EndsWell s (execMul rt ra rb oe rc s) :=
  .advance (((s.setMq_userlike _).trans (State.setReg_userlike _ rt _)).trans (State.overflow_userlike _ oe _)
    |>.trans (State.record_userlike _ rc _))

theorem execDiv_endsWell (rt ra rb : RegNum) (oe rc : Bool) (s : State) : EndsWell s (execDiv rt ra rb oe rc s) := by
  unfold execDiv
  simp only
  split
  · split
    · exact .user (s.divided_userlike rt _ _ oe _ rc)
    · exact .user (s.undivided_userlike rt oe rc)
  · exact .user (s.divided_userlike rt _ _ oe _ rc)

theorem execDivs_endsWell (rt ra rb : RegNum) (oe rc : Bool) (s : State) : EndsWell s (execDivs rt ra rb oe rc s) := by
  unfold execDivs
  simp only
  split
  · exact .user (s.undivided_userlike rt oe rc)
  split
  · exact .user (s.divided_userlike rt _ _ oe _ rc)
  · exact .user (s.divided_userlike rt _ _ oe _ rc)

theorem State.setCr_userlike (s : State) (v : Word) : s.Userlike { s with cr := v } := ⟨.same, .same⟩

theorem State.dropTlbPage_preserves (s : State) (vsid : BitVec 24) (page : Half) :
    s.Preserves (s.dropTlbPage vsid page) := .same

theorem State.finishWb_userlike (s : State) : s.Userlike s.finishWb := s.finishWb_behind.kept.userlike

/-- Every instruction but svc. -/
theorem exec_endsWell (i : Instr) (s : State) (notSvc : ∀ fl1 lev fl2 sa lk, i ≠ .svc fl1 lev fl2 sa lk) :
    EndsWell s (exec i s) := by
  cases i with
  | svc fl1 lev fl2 sa lk => exact absurd rfl (notSvc fl1 lev fl2 sa lk)
  | b li aa lk => exact .user (s.branch_userlike _ _ lk fun h => wordAlign_target (by decide) li aa h)
  | bc bo bi bd aa lk => exact .user (s.branch_userlike _ _ lk fun h => wordAlign_target (by decide) bd aa h)
  | bcr bo bi lk => exact .user (s.branch_userlike _ _ lk fun _ => wordAlign_wordAlign _)
  | bcc bo bi lk => exact execBcc_endsWell bo bi lk s
  | rfi => exact .privileged s.returnFromInterrupt_preserves
  | rfsvc lk => exact execRfsvc_endsWell lk s
  | mcrf bf bfa => exact .advance (s.setCrField_userlike bf _)
  | crand bt ba bb | cror bt ba bb | crxor bt ba bb | crnand bt ba bb | crnor bt ba bb | creqv bt ba bb
  | crandc bt ba bb | crorc bt ba bb => exact .user (s.crLogic_userlike _ bt ba bb)
  | t cond ra rb | ti cond ra si => exact .next (s.trapOn_leads cond _ _)
  | lbz rt ra d | lhz rt ra d | lha rt ra d | l rt ra d | lbzx rt ra d | lhzx rt ra d | lhax rt ra d | lx rt ra d
  | lhbrx rt ra d | lbrx rt ra d => exact s.loadInto_endsWell _ _ _ _ rt
  | lbzu rt ra d | lhzu rt ra d | lhau rt ra d | lu rt ra d | lbzux rt ra d | lhzux rt ra d | lhaux rt ra d
  | lux rt ra d => exact s.loadUpdating_endsWell _ _ _ _ rt ra
  | stb rs ra d | sth rs ra d | st rs ra d | stbx rs ra d | sthx rs ra d | stx rs ra d | sthbrx rs ra d
  | stbrx rs ra d => exact s.storeFrom_endsWell _ _ _
  | stbu rs ra d | sthu rs ra d | stu rs ra d | stbux rs ra d | sthux rs ra d | stux rs ra d =>
    exact s.storeUpdating_endsWell _ _ _ ra
  | lm rt ra d => exact execLm_endsWell rt ra d s
  | stm rs ra d => exact execStm_endsWell rs ra d s
  | lsi rt ra nb => exact s.loadString_endsWell _ rt _ _
  | lsx rt ra rb => exact execLsx_endsWell rt ra rb s
  | lscbx rt ra rb rc => exact execLscbx_endsWell rt ra rb rc s
  | stsi rs ra nb => exact s.storeString_endsWell rs _ _
  | stsx rs ra rb => exact execStsx_endsWell rs ra rb s
  | cal rt ra d | cau rt ra d | dozi rt ra d => exact .advance (s.setReg_userlike rt _)
  | muli rt ra si => exact .advance (s.freeMq_userlike.trans (State.setReg_userlike _ rt _))
  | aiDot rt ra si | ai rt ra si | sfi rt ra si | ame rt ra oe rc | aze rt ra oe rc | sfme rt ra oe rc
  | sfze rt ra oe rc | a rt ra rb oe rc | ae rt ra rb oe rc | sf rt ra rb oe rc | sfe rt ra rb oe rc =>
    exact .user (s.adder_userlike rt _ _ _ _ _)
  | cax rt ra rb oe rc | neg rt ra oe rc | abs rt ra oe rc | nabs rt ra oe rc =>
    exact .arith (.refl s) rt _ oe _ rc
  | doz rt ra rb oe rc => exact execDoz_endsWell rt ra rb oe rc s
  | mul rt ra rb oe rc => exact execMul_endsWell rt ra rb oe rc s
  | muls rt ra rb oe rc => exact .arith s.freeMq_userlike rt _ oe _ rc
  | div rt ra rb oe rc => exact execDiv_endsWell rt ra rb oe rc s
  | divs rt ra rb oe rc => exact execDivs_endsWell rt ra rb oe rc s
  | cmpi bf ra v | cmpli bf ra v | cmp bf ra v | cmpl bf ra v => exact .advance (s.setCrField_userlike bf _)
  | andilDot rs ra ui | andiuDot rs ra ui | oril rs ra ui | oriu rs ra ui | xoril rs ra ui | xoriu rs ra ui =>
    exact .logical s ra _ _
  | and rs ra rb rc | or rs ra rb rc | xor rs ra rb rc | nand rs ra rb rc | nor rs ra rb rc | eqv rs ra rb rc
  | andc rs ra rb rc | orc rs ra rb rc | exts rs ra rc | cntlz rs ra rc | rlimi rs ra sh mb me rc
  | rlinm rs ra sh mb me rc | rlmi rs ra rb mb me rc | rlnm rs ra rb mb me rc | rrib rs ra rb rc | maskg rs ra rb rc
  | maskir rs ra rb rc | sl rs ra rb rc | sr rs ra rb rc | sllq rs ra rb rc | srlq rs ra rb rc =>
    exact .logical s ra _ rc
  | slq rs ra rb rc | srq rs ra rb rc | sliq rs ra rb rc | sriq rs ra rb rc | slliq rs ra rb rc | srliq rs ra rb rc
  | sle rs ra rb rc | sre rs ra rb rc | sleq rs ra rb rc | sreq rs ra rb rc =>
    exact .user (s.shiftQ_userlike ra _ _ rc)
  | sra rs ra rb rc | srai rs ra rb rc =>
    exact .user ((s.draws_userlike _).trans ((State.setMq_userlike _ _).trans (State.algebraic_userlike _ ra _ _ _ rc)))
  | sraq rs ra rb rc | sraiq rs ra rb rc | srea rs ra rb rc =>
    exact .user ((s.setMq_userlike _).trans (State.algebraic_userlike _ ra _ _ _ rc))
  | mtspr rs spr => exact execMtspr_endsWell rs spr s
  | mfspr rt spr => exact execMfspr_endsWell rt spr s
  | mcrxr bf => exact execMcrxr_endsWell bf s
  | mtcrf rs fxm => exact .advance (s.setCr_userlike _)
  | mfcr rt | mfmsr rt => exact .advance (s.setReg_userlike rt _)
  | mtmsr rs => exact execMtmsr_endsWell rs s
  | lfs frt ra d | lfd frt ra d | lfsx frt ra d | lfdx frt ra d => exact s.floatInto_endsWell _ _ _ _ frt
  | lfsu frt ra d | lfdu frt ra d | lfsux frt ra d | lfdux frt ra d =>
    exact s.floatIntoUpdating_endsWell _ _ _ _ frt ra
  | stfs frs ra d | stfd frs ra d | stfsx frs ra d | stfdx frs ra d => exact s.floatFrom_endsWell _ _ _
  | stfsu frs ra d | stfdu frs ra d | stfsux frs ra d | stfdux frs ra d => exact s.floatFromUpdating_endsWell _ _ _ ra
  | lfq frt ra d | lfqx frt ra d => exact s.quadInto_endsWell _ _ frt State.Userlike.refl
  | lfqu frt ra d | lfqux frt ra d => exact s.quadInto_endsWell _ _ frt fun u => u.updateBase_userlike ra _
  | stfq frs ra d | stfqx frs ra d => exact s.quadFrom_endsWell _ _ frs State.Userlike.refl
  | stfqu frs ra d | stfqux frs ra d => exact s.quadFrom_endsWell _ _ frs fun u => u.updateBase_userlike ra _
  | fmr frt frb rc | fneg frt frb rc | fabs frt frb rc | fnabs frt frb rc => exact s.fpMove_endsWell frt _ rc
  | fa frt fra frb rc | fs frt fra frb rc | fm frt fra frb rc | fd frt fra frb rc | fsqrt frt frb rc
  | fma frt fra frb frc rc | fms frt fra frb frc rc | fnma frt fra frb frc rc | fnms frt fra frb frc rc =>
    exact .needFp (.fpComplete (.refl s) _ frt _ rc)
  | frsp frt frb rc => exact execFrsp_endsWell frt frb rc s
  | fcir frt frb rc | fcirz frt frb rc => exact .needFp (.next (s.convert_leads frt frb _ rc))
  | fcmpu bf fra frb | fcmpo bf fra frb => exact .needFp (.next (s.compare_leads bf _ _ _))
  | mffs frt rc => exact execMffs_endsWell frt rc s
  | mcrfs bf bfa => exact execMcrfs_endsWell bf bfa s
  | mtfsf flm frb rc | mtfsfi bf imm rc | mtfsb0 bt rc | mtfsb1 bt rc => exact .needFp (.next (s.writeFpscr_leads _ rc))
  | dcs => exact .advance s.finishWb_userlike
  | ics => exact .advance s.serializeFetch_userlike
  | clf ra rb => exact s.cacheInstr_endsWell ra rb false State.flushLine_userlike
  | cli ra rb => exact .privilegedOf (s.cacheInstr_endsWell ra rb true State.invalidateLine_userlike)
  | dclst ra rb => exact s.cacheInstr_endsWell ra rb false State.storeLine_userlike
  | dclz ra rb => exact s.cacheInstr_endsWell ra rb true State.zeroLine_userlike
  | mtsr rs sr => exact .privileged ((s.setSegment_preserves _ _).trans (State.advance_userlike _).toPreserves)
  | mtsri rs ra rb => exact .privileged ((s.setSegment_preserves _ _).trans (State.advance_userlike _).toPreserves)
  | mfsr rt sr => exact .advance (s.setReg_userlike rt _)
  | mfsri rs ra rb => exact .advance ((s.setReg_userlike rs _).trans (State.updateLoad_userlike _ ra rs _))
  | clcs rt ra => exact execClcs_endsWell rt ra s
  | tlbi ra rb =>
    exact .privileged (((s.dropTlbPage_preserves _ _).trans (State.updateBase_userlike _ ra _).toPreserves).trans
      (State.advance_userlike _).toPreserves)
  | rac rt ra rb rc => exact execRac_endsWell rt ra rb rc s

theorem exec_preserves {i : Instr} {s t : State} (h : exec i s = .next t) : s.Preserves t := by
  by_cases svc : ∃ fl1 lev fl2 sa lk, i = .svc fl1 lev fl2 sa lk
  · obtain ⟨fl1, lev, fl2, sa, lk, rfl⟩ := svc
    exact execSvc_preserves fl1 lev fl2 sa lk h
  · exact (exec_endsWell i s (fun fl1 lev fl2 sa lk e => svc ⟨fl1, lev, fl2, sa, lk, e⟩) t h).toPreserves

end Sys2Proof.Machine

end

/-! ### The invariants under the moves of the other agents, and under a step -/

section

namespace Sys2Proof.Machine

open Host (Outcome)

/-! #### Moves of the other agents -/

theorem State.Kept.preserves {s t : State} (h : s.Kept t) : s.Preserves t := h.userlike.toPreserves

theorem State.setNvram_preserves (l : List Byte) (off : Nat) (s : State) : s.Preserves (State.setNvram l off s) := by
  induction l generalizing off s with
  | nil => exact .refl s
  | cons b l ih =>
    have written : s.Preserves { s with nvram := cellWrite 0 s.nvram off b } :=
      ⟨rfl, fun c => ⟨c.mem, cellsFrom_cellWrite b c.nvram (Nat.zero_le off), c.ioccs⟩,
        fun h => ⟨h.pc, h.msr, h.xer, h.fpscr, h.rtcl, h.dec⟩⟩
    exact written.trans (ih (off + 1) _)

/-- Every IOCC changed, each to one whose tables are in canonical form. -/
theorem canonical_map {l : List Iocc} {f : Iocc → Iocc} (hf : ∀ x : Iocc, x.Canonical → (f x).Canonical)
    (h : ∀ x ∈ l, x.Canonical) : ∀ x ∈ l.map f, x.Canonical := by
  intro y hy
  obtain ⟨x, hx, rfl⟩ := List.mem_map.1 hy
  exact hf x (h x hx)

theorem resetMsr_within (m : Config.Impl) : (0x00000040 : Word) &&& msrMask m = 0x00000040 := by
  cases m <;> decide

theorem State.powerOn_preserves (s : State) : s.Preserves s.powerOn where
  cfg := rfl
  canonical c := ⟨c.mem, c.nvram, canonical_map (fun _ _ => ⟨rfl, rfl⟩) c.ioccs⟩
  legal _ := ⟨(by decide : wordAlign (0xFFF00100 : Word) = 0xFFF00100), resetMsr_within s.cfg.impl,
    (by decide : (0 : Word) &&& xerMask = 0), (by decide : fpSummary 0 = 0), (by decide : (0 : Word) &&& timerMask = 0),
    (by decide : (0 : Word) &&& timerMask = 0)⟩

theorem State.coldReset_preserves (s : State) : s.Preserves s.coldReset where
  cfg := rfl
  canonical c := ⟨c.mem, c.nvram, canonical_map (fun _ h => ⟨h.tcw, h.tag⟩) c.ioccs⟩
  legal l := by
    obtain ⟨pc, msr, xer, fpscr, -, -⟩ := s.powerOn_preserves.legal l
    exact ⟨pc, msr, xer, fpscr, l.rtcl, l.dec⟩

theorem State.pushReset_preserves (s : State) (k : ResetKind) : s.Preserves (s.pushReset k) := by
  unfold State.pushReset
  split
  · exact .refl s
  · cases k with
    | cold => exact s.coldReset_preserves
    | warm =>
      exact ⟨rfl, fun c => ⟨c.mem, c.nvram, canonical_map (fun _ h => ⟨h.tcw, h.tag⟩) c.ioccs⟩,
        fun l => ⟨l.pc, l.msr, l.xer, l.fpscr, l.rtcl, l.dec⟩⟩

theorem State.ocsRestart_preserves (s : State) : s.Preserves s.ocsRestart :=
  .ite (s.coldReset_preserves.trans (State.setNvram_preserves _ _ _)) (.refl s)

theorem State.fillData_preserves (s : State) (line : Nat) : s.Preserves (s.fillData line) :=
  .ite (s.touchLine_behind line).kept.preserves (.refl s)

theorem State.finishStoreBackAt_preserves (s : State) (n : Nat) : s.Preserves (s.finishStoreBackAt n) := by
  unfold State.finishStoreBackAt
  split
  · exact (s.finishStoreBack_behind _).kept.preserves.trans .same
  · exact .refl s

theorem State.fillInstr_preserves (s : State) (line : Nat) : s.Preserves ((s.fillInstr line).getD s) := by
  cases h : s.fillInstr line with
  | none => exact .refl s
  | some t => exact (State.fillInstr_fetches h).userlike.toPreserves

theorem presentLevel_kept (k : Nat) (l : BitVec 4) (s : State) : s.Kept (presentLevel k l s) :=
  .ite ((s.signal_kept _).trans (State.onIocc_kept_same _ k)) (.refl s)

theorem State.setMisc_kept (s : State) (k : Nat) (slot : BitVec 4) (bit : BitVec 3) : s.Kept (s.setMisc k slot bit) :=
  s.onIocc_kept_same k (fun x => by split <;> rfl) fun x => by split <;> rfl

theorem readAhead_kept (k : Nat) (b : BitVec 4) (s : State) : s.Kept (readAhead k b s) := by
  unfold readAhead
  simp only
  split
  · split
    · exact .ite (State.onIocc_kept_same s k) (.refl s)
    · exact .refl s
  · exact .refl s

theorem channelFault_kept (k : Nat) (slot c code : BitVec 4) (ba : Word) (store : Bool) (s : State) :
    s.Kept (channelFault k slot c code ba store s) :=
  .ite (.refl s) (.ite (dmaErr_kept k c code s) (.ite ((s.logBus_kept k _ _ _ _ _).trans (State.pulse_kept _ k _ c))
    (.ite (State.onIocc_kept_same s k) (failedCycle_kept k c code false ba store s))))

/-- A move of an agent, unless it is refused, keeps the invariants. -/
def MoveRes.Preserves (s : State) (r : MoveRes) : Prop := ∀ t, r = .ok t → s.Preserves t

theorem MoveRes.Preserves.ok {s t : State} (h : s.Preserves t) : MoveRes.Preserves s (.ok t) := fun _ e => by
  cases e; exact h

theorem agentMove_preserves (m : Move) (s : State) : MoveRes.Preserves s (agentMove m s) := by
  cases m with
  | cpu => exact .ok (.refl s)
  | tick => exact .ok (.ite s.tick_kept.preserves (.refl s))
  | prefetch ea => exact .ok (s.prefetchWord_fetches ea).userlike.toPreserves
  | evictData line => exact .ok (s.evictData_userlike line).toPreserves
  | fillData line => exact .ok (s.fillData_preserves line)
  | finishStoreBack n => exact .ok (s.finishStoreBackAt_preserves n)
  | evictInstr line => exact .ok .same
  | fillInstr line => exact .ok (s.fillInstr_preserves line)
  | dropTlb n => exact .ok .same
  | machineCheck => exact .ok .same
  | checkStop => exact .ok .same
  | externalCheck => exact .ok (.ite (s.signal_kept _).preserves (.refl s))
  | epow => exact .ok (.ite (s.signal_kept _).preserves (.refl s))
  | resetButton kind => exact .ok (s.pushReset_preserves kind)
  | turnKey k => exact .ok .same
  | ocsRestart => exact .ok s.ocsRestart_preserves
  | ocsWrite off b => exact .ok (.ite (State.setNvram_preserves [b] off s) (.refl s))
  | powerOn => exact .ok s.powerOn_preserves
  | line k slot l up => exact .ok (s.onIocc_kept_same k).preserves
  | present k l => exact .ok (presentLevel_kept k l s).preserves
  | asyncCheck k slot => exact .ok (s.setMisc_kept k slot _).preserves
  | keyboard k => exact .ok (s.setMisc_kept k 15 _).preserves
  | busTimeout k slot signals => exact .ok (.ite (.refl s) (busTimeout_kept k signals s).preserves)
  | request k r => exact .ok (requestBus_kept k r s).preserves
  | readAhead k b => exact .ok (readAhead_kept k b s).preserves
  | channelFault k slot c code ba store => exact .ok (channelFault_kept k slot c code ba store s).preserves
  | accessFault k code => exact .ok (s.onIocc_kept_same k).preserves
  | answer a => exact .ok .same
  | grant k =>
    intro t e
    have keeps := grantBus_keeps k [] (pause := pauseBus k) (pauseBus_keeps k) s
    rw [show grantBus k [] (pauseBus k) s = .ok t from e] at keeps
    exact State.Kept.preserves keeps

theorem runMove_preserves (m : Move) (s : State) : MoveRes.Preserves s (runMove m s) := by
  unfold runMove
  split
  · exact .ok (.refl s)
  · exact agentMove_preserves m s

/-! #### A step of the processor -/

/-- A step's outcome, unless it is a fault or a refusal, meets the invariants if `s` does. -/
def StepPreserves (s : State) (o : Outcome State Fault Refusal) : Prop := ∀ t, o = .next t → s.Preserves t

theorem StepPreserves.next {s t : State} (h : s.Preserves t) : StepPreserves s (.next t) := fun _ e => by
  cases e; exact h

theorem State.takeMachineCheck_preserves (s : State) (addr : Word) : s.Preserves (s.takeMachineCheck addr) :=
  .ite (s.interrupt_preserves _ _ _) .same

theorem State.fpiNow_preserves (s : State) : s.Preserves s.fpiNow.2 := by
  unfold State.fpiNow
  split
  · exact .refl s
  split
  · exact .refl s
  · exact .same

theorem afterExec_preserves (i : Instr) (s t : State) : t.Preserves (afterExec i s t) :=
  .ite (State.Preserves.trans .same (State.interrupt_preserves _ _ _ _)) .same

theorem runWord_preserves (w : Word) (s : State) : StepPreserves s (runWord w s) := by
  have before : s.Preserves s.beforeExec := .same
  unfold runWord
  cases decode s.cfg.impl w with
  | invalid _ => exact .next (before.trans (State.interrupt_preserves _ _ _ _))
  | instr i =>
    simp only
    cases ran : exec i s.beforeExec with
    | next u => exact .next ((before.trans (exec_preserves ran)).trans (afterExec_preserves i _ u))
    | fault f => intro t e; cases e
    | refused r => intro t e; cases e

theorem runFetched_preserves {s u : State} (w : Word) (h : s.Preserves u) : StepPreserves s (runFetched w u) := by
  unfold runFetched
  split
  · exact .next (h.trans (u.interrupt_preserves _ _ _))
  · have chosen := h.trans u.fpiNow_preserves
    generalize u.fpiNow = p at chosen
    obtain ⟨now, v⟩ := p
    simp only at chosen ⊢
    split
    · exact .next (chosen.trans (v.interrupt_preserves _ _ _))
    · exact fun t e => chosen.trans (runWord_preserves w v t e)

theorem cpuStep_preserves (s : State) : StepPreserves s (cpuStep s) := by
  unfold cpuStep
  split
  · intro t e; cases e
  split
  · exact .next (State.Preserves.trans .same (State.interrupt_preserves _ _ _ _))
  split
  · exact .next (State.Preserves.trans .same (State.takeMachineCheck_preserves _ _))
  · have keeps := ifetch_keeps s
    generalize ifetch s = f at keeps
    cases f with
    | word w u => exact runFetched_preserves w (State.Fetches.userlike keeps).toPreserves
    | storage info u =>
      exact .next ((State.Fetches.userlike keeps).toPreserves.trans (u.interrupt_preserves _ _ _))
    | machineCheck u =>
      exact .next ((State.Fetches.userlike keeps).toPreserves.trans (u.takeMachineCheck_preserves _))

theorem StepPreserves.after {s u : State} {o : Outcome State Fault Refusal} (h1 : s.Preserves u)
    (h2 : StepPreserves u o) : StepPreserves s o := fun t e => h1.trans (h2 t e)

theorem step_preserves (s : State) : StepPreserves s (step s) := by
  have byMove : ∀ m l, StepPreserves s
      (match runMove m { s with agenda := l } with
        | .ok t => .next t
        | .refused r => .refused r) := by
    intro m l
    have moved := runMove_preserves m { s with agenda := l }
    cases e : runMove m { s with agenda := l } with
    | ok t => exact .next (State.Preserves.trans .same (moved t e))
    | refused r => intro t h; cases h
  unfold step
  split
  · split
    · exact .next s.tick_kept.preserves
    · exact .after .same (cpuStep_preserves s.countStep)
  · split
    · exact .next s.tick_kept.preserves
    · exact .after .same (cpuStep_preserves _)
  · exact byMove _ _

/-! #### The obligations -/

/-- Settles O8: each instruction and each move is made of updates that keep the registers legal. -/
theorem stepKeepsRegistersLegal : Obligations.StepKeepsRegistersLegal :=
  fun s t legal h => ⟨(step_preserves s t h).legal legal, (step_preserves s t h).cfg⟩

/-- Settles O9, by the same walk through the instructions and the moves. -/
theorem stepKeepsStorageCanonical : Obligations.StepKeepsStorageCanonical :=
  fun s t canonical h => (step_preserves s t h).canonical canonical

/-- Settles O10: an instruction other than svc leads on by updates of a program's own registers, unless it enters an
interrupt or finds itself in the privileged state. -/
theorem problemStateKeepsPrivilegedRegisters : Obligations.ProblemStateKeepsPrivilegedRegisters := by
  intro i s t pr _ notSvc h completes
  have same := (exec_endsWell i s notSvc t h).guarded pr completes
  exact ⟨same.msr, same.sr, same.sdr0, same.sdr1, same.tid, same.srr0, same.srr1, same.dsisr, same.dar, same.cil⟩

end Sys2Proof.Machine

end

/-! ### Frames: what an update of general and of floating-point registers leaves -/

section

namespace Sys2Proof.Machine

/-- Nothing but the general registers of `rs` differs. -/
structure State.OnlyGprs (s t : State) (rs : List RegNum) : Prop where
  others : ∀ r, r ∉ rs → t.reg r = s.reg r
  rest : t = { s with gpr := t.gpr }

/-- Nothing but the floating-point registers of `rs`, with the record of their recent targets, differs. -/
structure State.OnlyFprs (s t : State) (rs : List RegNum) : Prop where
  others : ∀ r, r ∉ rs → t.freg r = s.freg r
  rest : t = { s with fpr := t.fpr, fpRecent := t.fpRecent }

theorem State.OnlyGprs.refl (s : State) : s.OnlyGprs s [] := ⟨fun _ _ => rfl, rfl⟩

theorem State.OnlyGprs.trans {s t u : State} {l m : List RegNum} (h1 : s.OnlyGprs t l) (h2 : t.OnlyGprs u m) :
    s.OnlyGprs u (l ++ m) := by
  refine ⟨fun r hr => ?_, ?_⟩
  · rw [List.mem_append, not_or] at hr
    rw [h2.others r hr.2, h1.others r hr.1]
  · have e := h2.rest
    rw [h1.rest] at e
    exact e

theorem State.OnlyGprs.mono {s t : State} {l m : List RegNum} (h : s.OnlyGprs t l) (hlm : ∀ r ∈ l, r ∈ m) :
    s.OnlyGprs t m :=
  ⟨fun r hr => h.others r fun hl => hr (hlm r hl), h.rest⟩

theorem State.setReg_onlyGprs (s : State) (r : RegNum) (v : Word) : s.OnlyGprs (s.setReg r v) [r] :=
  ⟨fun _ hq => s.reg_setReg_of_ne v fun e => hq (List.mem_singleton.2 e), rfl⟩

theorem State.setFreg_onlyFprs (s : State) (r : RegNum) (v : DWord) : s.OnlyFprs (s.setFreg r v) [r] :=
  ⟨fun _ hq => s.freg_setFreg_of_ne v fun e => hq (List.mem_singleton.2 e), rfl⟩

/-! #### Updates of a base register (R321, R563) -/

theorem State.updateBase_onlyGprs (s : State) (ra : RegNum) (ea : Word) :
    s.OnlyGprs (s.updateBase ra ea) (if ra = 0 then [] else [ra]) := by
  unfold State.updateBase
  by_cases h : ra = 0
  · simpa only [h, ne_eq, not_true_eq_false, if_false, if_true] using State.OnlyGprs.refl s
  · simpa only [h, ne_eq, not_false_eq_true, if_false, if_true] using s.setReg_onlyGprs ra ea

theorem State.reg_updateBase (s : State) {ra : RegNum} (ea : Word) (h : ra ≠ 0) : (s.updateBase ra ea).reg ra = ea := by
  rw [State.updateBase, if_pos h, State.reg_setReg_self]

theorem State.updateLoad_onlyGprs (s : State) (ra rt : RegNum) (ea : Word) :
    s.OnlyGprs (s.updateLoad ra rt ea) (if ra = 0 then [] else [ra]) := by
  unfold State.updateLoad
  split
  · next h => simpa only [if_neg h.1] using s.setReg_onlyGprs ra ea
  · exact (State.OnlyGprs.refl s).mono fun _ h => nomatch h

theorem State.reg_updateLoad (s : State) {ra rt : RegNum} (ea : Word) (h : ra ≠ 0) (hrt : ra ≠ rt) :
    (s.updateLoad ra rt ea).reg ra = ea := by
  rw [State.updateLoad, if_pos ⟨h, hrt⟩, State.reg_setReg_self]

/-- A load with update never replaces the register just loaded. -/
theorem State.reg_updateLoad_target (s : State) (ra rt : RegNum) (ea : Word) :
    (s.updateLoad ra rt ea).reg rt = s.reg rt := by
  unfold State.updateLoad
  split
  · next h => exact s.reg_setReg_of_ne ea fun e => h.2 e.symm
  · rfl

/-! #### An instruction's end -/

theorem State.OnlyGprs.onlyRegs {s t : State} {rs : List RegNum} (h : s.OnlyGprs t rs) : s.OnlyRegs t.advance rs := by
  refine ⟨h.others, ?_, fun b => ?_⟩
  · exact congrArg (fun v => v.advance) h.rest
  · rw [h.rest]; rfl

/-- What is left once storage has been accessed and general registers have been updated. -/
theorem State.Moved.rest {s u t : State} (h : s.Moved u) (ht : t = { u with gpr := t.gpr }) :
    t.advance = { s.withStorage t.advance with gpr := t.advance.gpr, pc := s.pc + 4 } := by
  have e : u = s.withStorage u := h.storage
  rw [ht, e]
  rfl

theorem State.OnlyGprs.onlyLoads {s u t : State} {rs : List RegNum} (hm : s.Moved u) (same : s.SameMemory u)
    (h : u.OnlyGprs t rs) : s.OnlyLoads t.advance rs := by
  refine ⟨fun r hr => (h.others r hr).trans ?_, hm.rest h.rest, fun b => ?_⟩
  · rw [show u = s.withStorage u from hm.storage]; rfl
  · rw [← same b, h.rest]; rfl

theorem State.OnlyGprs.onlyStores {s u t : State} {rs : List RegNum} {a : Word} {l : List Byte} (hm : s.Moved u)
    (stored : s.Stored u a l) (h : u.OnlyGprs t rs) : s.OnlyStores t.advance rs a l := by
  have same : u.SameMemory t.advance := fun b => by rw [h.rest]; rfl
  refine ⟨fun r hr => (h.others r hr).trans ?_, hm.rest h.rest, ⟨?_, fun b hb => ?_⟩⟩
  · rw [show u = s.withStorage u from hm.storage]; rfl
  · rw [same.dataBytes]; exact stored.stored
  · rw [same b]; exact stored.others b hb

end Sys2Proof.Machine

end

/-! ### Scalar fixed-point loads and stores (R321 to R353) -/

section

namespace Sys2Proof.Machine

open Host (Outcome)

/-! #### Loads -/

/-- A load whose bytes `conv` makes a value of, in real mode. -/
theorem loadsInto_of_exec {s : State} {i : Instr} {w ea : Word} {k : Nat} {conv : List Byte → Word} {rt : RegNum}
    {v : Word → Word} (hk : k ≤ 28) (runs : exec i s = s.loadInto w ea (2 ^ k) conv rt)
    (value : ∀ a, conv (s.dataBytes a (2 ^ k)) = v a) : LoadsInto s i ea (2 ^ k) rt v := by
  intro can
  obtain ⟨u, loaded, moved, same⟩ := State.fixedLoad_real hk w can
  refine ⟨(u.setReg rt (v (boundary ea (2 ^ k)))).advance, ?_, u.reg_setReg_self rt _,
    (u.setReg_onlyGprs rt _).onlyLoads moved same⟩
  rw [runs, State.loadInto, loaded, ← value]
  rfl

theorem loadsUpdating_of_exec {s : State} {i : Instr} {w ea : Word} {k : Nat} {conv : List Byte → Word}
    {rt ra : RegNum} {v : Word → Word} (hk : k ≤ 28) (runs : exec i s = s.loadUpdating w ea (2 ^ k) conv rt ra)
    (value : ∀ a, conv (s.dataBytes a (2 ^ k)) = v a) : LoadsUpdating s i ea (2 ^ k) rt ra v := by
  intro can
  obtain ⟨u, loaded, moved, same⟩ := State.fixedLoad_real hk w can
  refine ⟨((u.setReg rt (v (boundary ea (2 ^ k)))).updateLoad ra rt ea).advance, ?_, ?_, State.reg_updateLoad _ ea, ?_⟩
  · rw [runs, State.loadUpdating, loaded, ← value]
    rfl
  · exact (State.reg_updateLoad_target _ ra rt ea).trans (u.reg_setReg_self rt _)
  · refine (((u.setReg_onlyGprs rt _).trans (State.updateLoad_onlyGprs _ ra rt ea)).mono ?_).onlyLoads moved same
    intro r hr
    by_cases h : ra = 0
    · simpa [h] using hr
    · simpa [h, show ¬ ra = 0#5 from h] using hr

theorem loadZero_half_reversed (s : State) (a : Word) :
    loadZero (s.dataBytes a 2).reverse = (s.dataByte (a + 1) ++ s.dataByte a).setWidth 32 := by
  rw [State.dataBytes_two]
  exact word_of_two _ _

theorem loadZero_word_reversed (s : State) (a : Word) :
    loadZero (s.dataBytes a 4).reverse
      = (s.dataByte (a + 3) ++ s.dataByte (a + 2)) ++ (s.dataByte (a + 1) ++ s.dataByte a) := by
  rw [State.dataBytes_four]
  exact word_of_four _ _ _ _

/-- Settles O20: each load by the conversion it makes of its bytes. -/
theorem loadsWithoutUpdate : Obligations.LoadsWithoutUpdate := fun s _ _ _ _ =>
  ⟨loadsInto_of_exec (k := 0) (by decide) rfl (loadZero_byte s),
    loadsInto_of_exec (k := 0) (by decide) rfl (loadZero_byte s),
    loadsInto_of_exec (k := 1) (by decide) rfl (loadZero_half s),
    loadsInto_of_exec (k := 1) (by decide) rfl (loadZero_half s),
    loadsInto_of_exec (k := 1) (by decide) rfl (loadAlgebraic_half s),
    loadsInto_of_exec (k := 1) (by decide) rfl (loadAlgebraic_half s),
    loadsInto_of_exec (k := 2) (by decide) rfl (loadZero_word s),
    loadsInto_of_exec (k := 2) (by decide) rfl (loadZero_word s),
    loadsInto_of_exec (k := 1) (by decide) rfl (loadZero_half_reversed s),
    loadsInto_of_exec (k := 2) (by decide) rfl (loadZero_word_reversed s)⟩

/-- Settles O21. -/
theorem loadsWithUpdate : Obligations.LoadsWithUpdate := fun s _ _ _ _ =>
  ⟨loadsUpdating_of_exec (k := 0) (by decide) rfl (loadZero_byte s),
    loadsUpdating_of_exec (k := 0) (by decide) rfl (loadZero_byte s),
    loadsUpdating_of_exec (k := 1) (by decide) rfl (loadZero_half s),
    loadsUpdating_of_exec (k := 1) (by decide) rfl (loadZero_half s),
    loadsUpdating_of_exec (k := 1) (by decide) rfl (loadAlgebraic_half s),
    loadsUpdating_of_exec (k := 1) (by decide) rfl (loadAlgebraic_half s),
    loadsUpdating_of_exec (k := 2) (by decide) rfl (loadZero_word s),
    loadsUpdating_of_exec (k := 2) (by decide) rfl (loadZero_word s)⟩

/-! #### Stores -/

/-- A byte of a field. -/
theorem extractLsb'_field {w i n : Nat} (v : BitVec w) (j : Nat) (h : j + 8 ≤ n) :
    (v.extractLsb' i n).extractLsb' j 8 = v.extractLsb' (i + j) 8 := by
  ext k hk
  rw [BitVec.getElem_extractLsb', BitVec.getLsbD_extractLsb', BitVec.getElem_extractLsb', Nat.add_assoc]
  have inside : j + k < n := by omega
  simp [inside]

theorem toBytes_two_eq (v : Word) : toBytes 2 v = halfBytes (v.extractLsb' 0 16) := by
  rw [toBytes_two, halfBytes, extractLsb'_field v 8 (by decide), extractLsb'_field v 0 (by decide)]

theorem toBytes_four_eq (v : Word) : toBytes 4 v = wordBytes v := by
  rw [toBytes_four, wordBytes, halfBytes, halfBytes, extractLsb'_field v 8 (by decide),
    extractLsb'_field v 0 (by decide), extractLsb'_field v 8 (by decide), extractLsb'_field v 0 (by decide)]
  rfl

theorem storesFrom_of_exec {s : State} {i : Instr} {w ea : Word} {k : Nat} {l m : List Byte} (hk : k ≤ 28)
    (bytes : l = m) (hl : m.length = 2 ^ k) (runs : exec i s = s.storeFrom w ea l) : StoresFrom s i ea m := by
  subst bytes
  intro can
  rw [hl] at can ⊢
  obtain ⟨u, done, moved, stored⟩ := State.fixedStore_real hk hl w can
  refine ⟨u.advance, ?_, (State.OnlyGprs.refl u).onlyStores moved stored⟩
  rw [runs, State.storeFrom, done]
  rfl

theorem storesUpdating_of_exec {s : State} {i : Instr} {w ea : Word} {k : Nat} {l m : List Byte} {ra : RegNum}
    (hk : k ≤ 28) (bytes : l = m) (hl : m.length = 2 ^ k) (runs : exec i s = s.storeUpdating w ea l ra) :
    StoresUpdating s i ea ra m := by
  subst bytes
  intro can
  rw [hl] at can ⊢
  obtain ⟨u, done, moved, stored⟩ := State.fixedStore_real hk hl w can
  refine ⟨(u.updateBase ra ea).advance, ?_, u.reg_updateBase ea, (u.updateBase_onlyGprs ra ea).onlyStores moved stored⟩
  rw [runs, State.storeUpdating, done]
  rfl

/-- Settles O22: each store by the bytes it makes of its register. -/
theorem storesWithoutUpdate : Obligations.StoresWithoutUpdate := fun s rs _ _ _ =>
  ⟨storesFrom_of_exec (k := 0) (by decide) (toBytes_one (s.reg rs)) rfl rfl,
    storesFrom_of_exec (k := 0) (by decide) (toBytes_one (s.reg rs)) rfl rfl,
    storesFrom_of_exec (k := 1) (by decide) (toBytes_two_eq (s.reg rs)) rfl rfl,
    storesFrom_of_exec (k := 1) (by decide) (toBytes_two_eq (s.reg rs)) rfl rfl,
    storesFrom_of_exec (k := 2) (by decide) (toBytes_four_eq (s.reg rs)) rfl rfl,
    storesFrom_of_exec (k := 2) (by decide) (toBytes_four_eq (s.reg rs)) rfl rfl,
    storesFrom_of_exec (k := 1) (by decide) (congrArg List.reverse (toBytes_two_eq (s.reg rs))) rfl rfl,
    storesFrom_of_exec (k := 2) (by decide) (congrArg List.reverse (toBytes_four_eq (s.reg rs))) rfl rfl⟩

/-- Settles O23. -/
theorem storesWithUpdate : Obligations.StoresWithUpdate := fun s rs _ _ _ =>
  ⟨storesUpdating_of_exec (k := 0) (by decide) (toBytes_one (s.reg rs)) rfl rfl,
    storesUpdating_of_exec (k := 0) (by decide) (toBytes_one (s.reg rs)) rfl rfl,
    storesUpdating_of_exec (k := 1) (by decide) (toBytes_two_eq (s.reg rs)) rfl rfl,
    storesUpdating_of_exec (k := 1) (by decide) (toBytes_two_eq (s.reg rs)) rfl rfl,
    storesUpdating_of_exec (k := 2) (by decide) (toBytes_four_eq (s.reg rs)) rfl rfl,
    storesUpdating_of_exec (k := 2) (by decide) (toBytes_four_eq (s.reg rs)) rfl rfl⟩

/-! #### A load that enters an interrupt (R321, R683) -/

/-- What is the same after an interrupt that an access has entered. -/
theorem State.TrapOf.alters_nothing {s t : State} (h : s.TrapOf t) :
    t.gpr = s.gpr ∧ t.cr = s.cr ∧ t.xer = s.xer ∧ t.lr = s.lr ∧ t.ctr = s.ctr ∧ t.mq = s.mq ∧ t.fpr = s.fpr
      ∧ t.fpscr = s.fpscr ∧ t.srr0 = wordAlign s.pc := by
  obtain ⟨u, k, w, d, kept, rfl⟩ := h
  rw [show u = s.withOutside u from kept.outside]
  exact ⟨rfl, rfl, rfl, rfl, rfl, rfl, rfl, rfl, rfl⟩

/-- An access that completes, with updates of registers after it, has entered no interrupt. -/
theorem Res.Keeps.trapped {α : Type} {s t : State} {x : Res α} {f : α → State → State} (h : x.Keeps s)
    (notYet : s.entered = false) (runs : x.outcome f = .next t) (entered : t.entered = true)
    (silent : ∀ a u, (f a u).entered = u.entered) : s.TrapOf t := by
  obtain ⟨a, u, rfl, rfl⟩ | rfl := Res.outcome_next runs
  · have kept : s.Kept u := h
    have same : u.entered = s.entered := by rw [show u = s.withOutside u from kept.outside]; rfl
    rw [silent, same, notYet] at entered
    cases entered
  · exact h

theorem State.updateLoad_entered (s : State) (ra rt : RegNum) (ea : Word) :
    (s.updateLoad ra rt ea).entered = s.entered := by
  rw [(s.updateLoad_onlyGprs ra rt ea).rest]

/-- Settles O28: a scalar load is an access whose value goes to registers only when it completes. -/
theorem failedLoadsAlterNothing : Obligations.FailedLoadsAlterNothing := by
  intro i s t fixedLoad notYet runs entered
  have plain : ∀ {w ea n conv rt}, s.loadInto w ea n conv rt = .next t → s.TrapOf t := fun h =>
    (s.fixedLoad_keeps _ _ _).trapped notYet h entered fun _ _ => rfl
  have updating : ∀ {w ea n conv rt ra}, s.loadUpdating w ea n conv rt ra = .next t → s.TrapOf t := fun h =>
    (s.fixedLoad_keeps _ _ _).trapped notYet h entered fun _ u => State.updateLoad_entered (u.setReg _ _) _ _ _
  apply State.TrapOf.alters_nothing
  cases i with
  | lbz rt ra d | lhz rt ra d | lha rt ra d | l rt ra d | lbzx rt ra d | lhzx rt ra d | lhax rt ra d | lx rt ra d
  | lhbrx rt ra d | lbrx rt ra d => exact plain runs
  | lbzu rt ra d | lhzu rt ra d | lhau rt ra d | lu rt ra d | lbzux rt ra d | lhzux rt ra d | lhaux rt ra d
  | lux rt ra d => exact updating runs
  | _ => cases fixedLoad

end Sys2Proof.Machine

end

/-! ### Multiples and strings (R354 to R361) -/

section

namespace Sys2Proof.Machine

open Host (Outcome)

/-! #### Registers from a list of bytes -/

/-- Word j of a list of bytes, filled with zeros on the right. -/
def listWord (l : List Byte) (j : Nat) : Word := wordOfBytes ((List.range 4).map fun i => l.getD (4 * j + i) 0)

theorem listWord_drop (l : List Byte) (j : Nat) : listWord (l.drop 4) j = listWord l (j + 1) := by
  unfold listWord
  congr 2
  funext i
  rw [List.getD_eq_getElem?_getD, List.getD_eq_getElem?_getD, List.getElem?_drop]
  congr 2
  omega

theorem add_succ_reg (r : RegNum) (j : Nat) : r + BitVec.ofNat 5 (j + 1) = r + 1 + BitVec.ofNat 5 j := by
  rw [BitVec.add_assoc, Nat.add_comm j 1, BitVec.ofNat_add]
  rfl

theorem add_reg_inj (r : RegNum) {i j : Nat} (hi : i < 32) (hj : j < 32)
    (h : r + BitVec.ofNat 5 i = r + BitVec.ofNat 5 j) : i = j := by
  have := congrArg BitVec.toNat (add_left_cancel h)
  rw [BitVec.toNat_ofNat, BitVec.toNat_ofNat] at this
  omega

/-- Every register is one of the 32 that follow `r`. -/
theorem exists_add_reg (r q : RegNum) : ∃ j, j < 32 ∧ q = r + BitVec.ofNat 5 j := by
  refine ⟨(q - r).toNat, (q - r).isLt, ?_⟩
  rw [BitVec.ofNat_toNat, BitVec.setWidth_eq, BitVec.add_comm, BitVec.sub_add_cancel]

theorem putRegs_onlyGprs (skip : RegNum → Bool) (fuel : Nat) (r : RegNum) (l : List Byte) (s : State) :
    putRegs skip fuel r l s = { s with gpr := (putRegs skip fuel r l s).gpr } := by
  induction fuel generalizing r l s with
  | zero => rfl
  | succ fuel ih =>
    unfold putRegs
    split
    · rfl
    · simp only
      split
      · exact ih (r + 1) (l.drop 4) s
      · exact ih (r + 1) (l.drop 4) (s.setReg r _)

/-- Register j of a sequence that receives a list of bytes: its word, unless the list ends before it or the register is to
be skipped. -/
theorem reg_putRegs (skip : RegNum → Bool) {fuel : Nat} (hf : fuel ≤ 32) (r : RegNum) {l : List Byte}
    (hl : l.length ≤ 4 * fuel) (s : State) {j : Nat} (hj : j < 32) :
    (putRegs skip fuel r l s).reg (r + BitVec.ofNat 5 j) =
      if 4 * j < l.length ∧ skip (r + BitVec.ofNat 5 j) = false then listWord l j
      else s.reg (r + BitVec.ofNat 5 j) := by
  induction fuel generalizing r l s j with
  | zero => rw [if_neg (by omega)]; rfl
  | succ fuel ih =>
    unfold putRegs
    by_cases empty : l = []
    · rw [if_pos empty, if_neg (by simp [empty])]
    rw [if_neg empty]
    have some : 0 < l.length := List.length_pos_iff.2 empty
    have rest : (l.drop 4).length ≤ 4 * fuel := by rw [List.length_drop]; omega
    simp only
    cases j with
    | zero =>
      have around : r + BitVec.ofNat 5 0 = r + 1 + BitVec.ofNat 5 31 := by
        rw [← add_succ_reg]; rfl
      have first : r + BitVec.ofNat 5 0 = r := BitVec.add_zero r
      rw [around, ih (by omega) (r + 1) rest _ (by decide), if_neg (by omega), ← around, first]
      cases hs : skip r with
      | true => simp
      | false => simp [some, listWord]
    | succ j =>
      have other : r + BitVec.ofNat 5 (j + 1) ≠ r := fun e => by
        have := add_reg_inj r (i := j + 1) (j := 0) hj (by decide) (e.trans (BitVec.add_zero r).symm)
        omega
      rw [add_succ_reg, ih (by omega) (r + 1) rest _ (by omega), ← add_succ_reg, listWord_drop, List.length_drop]
      have cond : 4 * j < l.length - 4 ↔ 4 * (j + 1) < l.length := by omega
      have same : (if skip r = true then s else s.setReg r (wordOfBytes ((List.range 4).map fun i => l.getD i 0))).reg
          (r + BitVec.ofNat 5 (j + 1)) = s.reg (r + BitVec.ofNat 5 (j + 1)) := by
        split
        · rfl
        · exact s.reg_setReg_of_ne _ other
      simp only [cond, same]

theorem getD_dataBytes (s : State) (a : Word) (n k : Nat) :
    (s.dataBytes a n).getD k 0 = if k < n then s.dataByte (a + BitVec.ofNat 32 k) else 0 := by
  unfold State.dataBytes
  rw [List.getD_eq_getElem?_getD, List.getElem?_map]
  by_cases h : k < n
  · rw [List.getElem?_range h, if_pos h]; rfl
  · rw [List.getElem?_eq_none (by rw [List.length_range]; omega), if_neg h]; rfl

theorem listWord_dataBytes (s : State) (a : Word) (n j : Nat) : listWord (s.dataBytes a n) j = s.stringWord a n j := by
  unfold listWord State.stringWord
  rw [← word_of_four]
  simp only [← getD_dataBytes]
  rfl

/-- A word of a string that lies within it. -/
theorem stringWord_within (s : State) (a : Word) {n j : Nat} (h : 4 * j + 4 ≤ n) :
    s.stringWord a n j = s.wordAt (a + BitVec.ofNat 32 (4 * j)) := by
  unfold State.stringWord State.wordAt State.halfAt
  simp only
  rw [if_pos (by omega), if_pos (by omega), if_pos (by omega), if_pos (by omega)]
  have e : ∀ k, a + BitVec.ofNat 32 (4 * j) + BitVec.ofNat 32 k = a + BitVec.ofNat 32 (4 * j + k) := fun k =>
    ofNat_add_assoc a _ k
  rw [← e 1, ← e 2, ← e 3, ← ofNat_add_assoc (a + BitVec.ofNat 32 (4 * j)) 2 1]
  rfl

/-- What the registers of a sequence hold after a load into them. -/
theorem reg_putRegs_dataBytes {s u : State} (skip : RegNum → Bool) (r : RegNum) {a : Word} {n : Nat} (hn : n ≤ 128)
    (same : u.gpr = s.gpr) {j : Nat} (hj : j < 32) :
    (putRegs skip 32 r (s.dataBytes a n) u).reg (r + BitVec.ofNat 5 j) =
      if 4 * j < n ∧ skip (r + BitVec.ofNat 5 j) = false then s.stringWord a n j
      else s.reg (r + BitVec.ofNat 5 j) := by
  rw [reg_putRegs skip (Nat.le_refl 32) r (by rw [State.dataBytes_length]; omega) u hj, State.dataBytes_length,
    listWord_dataBytes]
  unfold State.reg
  rw [same]

/-! #### Which registers keep their values -/

theorem skipBase_eq_false (ra r : RegNum) : skipBase ra r = false ↔ ¬ (r = ra ∧ ra ≠ 0) := by
  simp [skipBase]

theorem skipBoth_eq_true (ra rb r : RegNum) : skipBoth ra rb r = true ↔ (r = ra ∧ ra ≠ 0) ∨ r = rb := by
  simp [skipBoth, skipBase]

theorem skipBoth_eq_false (ra rb r : RegNum) : skipBoth ra rb r = false ↔ ¬ (r = ra ∧ ra ≠ 0) ∧ r ≠ rb := by
  rw [← Bool.not_eq_true, skipBoth_eq_true, not_or]

/-! #### Multiples -/

theorem State.alignMultiple_free {s : State} {ea : Word} (h : s.AlignFree ea 4) :
    s.alignMultiple ea = some (boundary ea 4) := by
  unfold State.alignMultiple
  cases aligned : unaligned ea 4 with
  | false =>
    have : ea.toNat % 4 = 0 := by
      by_contra e
      rw [(unaligned_iff ea 4).2 e] at aligned
      cases aligned
    rw [boundary_of_aligned this]
    rfl
  | true =>
    have off : s.msrAL = false := h.resolve_left ((unaligned_iff ea 4).1 aligned)
    rw [off]
    exact congrArg some (wordAlign_eq_boundary ea)

theorem State.RealMode.notIo {s : State} {a : Word} {n : Nat} (h : s.RealMode a n) (hn : 0 < n) : s.isIo a = false := by
  have := h.noIo 0 hn
  rwa [ofNat_zero_add] at this

theorem execLm_real {s : State} {r ra : RegNum} {d : BitVec 16} (align : s.AlignFree (s.eaD ra d) 4)
    (real : s.RealMode (boundary (s.eaD ra d) 4) (4 * (32 - r.toNat))) :
    execLm r ra d s = (s.loadBlock (boundary (s.eaD ra d) 4) (4 * (32 - r.toNat)) fun l =>
      putRegs (skipBase ra) 32 r (wholeWords l)).outcome fun _ u => u.advance := by
  have notIo : s.isIo (s.eaD ra d) = false :=
    (s.isIo_boundary (s.eaD ra d) (k := 2) (by decide)).symm.trans (real.notIo (by have := r.isLt; omega))
  unfold execLm
  simp only [notIo, State.alignMultiple_free align, Bool.false_eq_true, if_false]
  rfl

theorem execStm_real {s : State} {r ra : RegNum} {d : BitVec 16} (align : s.AlignFree (s.eaD ra d) 4)
    (real : s.RealMode (boundary (s.eaD ra d) 4) (4 * (32 - r.toNat))) :
    execStm r ra d s = (s.storeBlock (boundary (s.eaD ra d) 4) (s.regsFrom (32 - r.toNat) r.toNat)).outcome
      fun _ u => u.advance := by
  have notIo : s.isIo (s.eaD ra d) = false :=
    (s.isIo_boundary (s.eaD ra d) (k := 2) (by decide)).symm.trans (real.notIo (by have := r.isLt; omega))
  unfold execStm
  simp only [notIo, State.alignMultiple_free align, Bool.false_eq_true, if_false]
  rfl

theorem wholeWords_of_mod {l : List Byte} (h : l.length % 4 = 0) : wholeWords l = l := by
  unfold wholeWords
  exact List.take_of_length_le (by omega)

theorem regsFrom_eq (s : State) (k r : Nat) :
    s.regsFrom k r = (List.range k).flatMap fun i => wordBytes (s.reg (BitVec.ofNat 5 (r + i))) := by
  induction k generalizing r with
  | zero => rfl
  | succ k ih =>
    rw [State.regsFrom, ih, List.range_succ_eq_map, List.flatMap_cons, List.flatMap_map, toBytes_four_eq]
    simp only [Nat.add_zero, Nat.add_assoc, Nat.add_comm 1]

theorem wordBytes_length (v : Word) : (wordBytes v).length = 4 := rfl

theorem lm_loads {s : State} {r ra : RegNum} {d : BitVec 16} (align : s.AlignFree (s.eaD ra d) 4)
    (can : s.CanLoadBlock (boundary (s.eaD ra d) 4) (4 * (32 - r.toNat))) :
    Completes (.lm r ra d) s fun t =>
      (∀ q : RegNum, t.reg q = if r.toNat ≤ q.toNat ∧ ¬ (q = ra ∧ ra ≠ 0)
        then s.wordAt (boundary (s.eaD ra d) 4 + BitVec.ofNat 32 (4 * (q.toNat - r.toNat))) else s.reg q)
      ∧ t = { s.withStorage t with gpr := t.gpr, pc := s.pc + 4 } ∧ s.SameMemory t := by
  generalize ha : boundary (s.eaD ra d) 4 = a at can
  have hr := r.isLt
  have positive : 0 < 4 * (32 - r.toNat) := by omega
  obtain ⟨u, loaded, moved, same⟩ := State.loadBlock_real can.canonical.mem positive can.real can.readable
    fun l => putRegs (skipBase ra) 32 r (wholeWords l)
  have whole : wholeWords (s.dataBytes a (4 * (32 - r.toNat))) = s.dataBytes a (4 * (32 - r.toNat)) :=
    wholeWords_of_mod (by rw [State.dataBytes_length]; omega)
  rw [whole] at loaded
  have sameGpr : u.gpr = s.gpr := by rw [show u = s.withStorage u from moved.storage]; rfl
  have only := putRegs_onlyGprs (skipBase ra) 32 r (s.dataBytes a (4 * (32 - r.toNat))) u
  refine ⟨_, ?_, fun q => ?_, moved.rest only, fun b => ?_⟩
  · rw [show exec (.lm r ra d) s = execLm r ra d s from rfl, execLm_real align (ha ▸ can.real), ha, loaded]
    rfl
  · obtain ⟨j, hj, rfl⟩ := exists_add_reg r q
    refine (reg_putRegs_dataBytes (skipBase ra) r (by omega) sameGpr hj).trans ?_
    have place : (r + BitVec.ofNat 5 j).toNat = (r.toNat + j) % 32 := by
      rw [BitVec.toNat_add, BitVec.toNat_ofNat]; omega
    have within : 4 * j < 4 * (32 - r.toNat) ↔ r.toNat ≤ (r + BitVec.ofNat 5 j).toNat := by
      rw [place]; omega
    simp only [within, skipBase_eq_false]
    split
    · next h =>
      rw [stringWord_within s a (by have := within.2 h.1; omega)]
      congr 3
      have := within.2 h.1
      rw [place]
      omega
    · rfl
  · rw [← same b, only]; rfl

theorem stm_stores {s : State} {r ra : RegNum} {d : BitVec 16} (align : s.AlignFree (s.eaD ra d) 4)
    (can : s.CanStoreBlock (boundary (s.eaD ra d) 4) (4 * (32 - r.toNat))) :
    Completes (.stm r ra d) s fun t => s.OnlyStores t [] (boundary (s.eaD ra d) 4)
      ((List.range (32 - r.toNat)).flatMap fun k => wordBytes (s.reg (r + BitVec.ofNat 5 k))) := by
  have bytes : s.regsFrom (32 - r.toNat) r.toNat
      = (List.range (32 - r.toNat)).flatMap fun k => wordBytes (s.reg (r + BitVec.ofNat 5 k)) := by
    rw [regsFrom_eq]
    congr 2
    funext k
    rw [BitVec.ofNat_add, BitVec.ofNat_toNat, BitVec.setWidth_eq]
  have len : (s.regsFrom (32 - r.toNat) r.toNat).length = 4 * (32 - r.toNat) := by
    rw [regsFrom_eq, List.length_flatMap]
    simp [wordBytes_length, Nat.mul_comm]
  have hr := r.isLt
  rw [← bytes]
  obtain ⟨u, done, moved, stored⟩ := State.storeBlock_real can.canonical.mem (by rw [len]; omega) (by rw [len]; omega)
    (len ▸ can.real) (len ▸ can.readable) (len ▸ can.noRom)
  refine ⟨u.advance, ?_, (State.OnlyGprs.refl u).onlyStores moved stored⟩
  rw [show exec (.stm r ra d) s = execStm r ra d s from rfl, execStm_real align can.real, done]
  rfl

/-- Settles O24. -/
theorem loadAndStoreMultiple : Obligations.LoadAndStoreMultiple := fun _ _ _ _ align =>
  ⟨lm_loads align, stm_stores align⟩

/-! #### String loads -/

theorem State.loadString_real {s : State} {skip : RegNum → Bool} {rt : RegNum} {a : Word} {n : Nat} (hn : 0 < n)
    (can : s.CanLoadBlock a n) :
    ∃ u, s.loadString skip rt a n = .next (putRegs skip 32 rt (s.dataBytes a n) u).advance ∧ s.Moved u ∧ s.SameMemory u := by
  obtain ⟨u, loaded, moved, same⟩ := State.loadBlock_real can.canonical.mem hn can.real can.readable
    fun l => putRegs skip 32 rt (if l.length < n then wholeWords l else l)
  refine ⟨u, ?_, moved, same⟩
  rw [State.loadString, loaded, State.dataBytes_length, if_neg (Nat.lt_irrefl n)]
  rfl

/-- A string load of at most 32 registers: each register of the sequence, and what is left. -/
theorem string_loads {s : State} {i : Instr} {skip : RegNum → Bool} {rt : RegNum} {a : Word} {n : Nat} (hn : 0 < n)
    (bound : n ≤ 128) (can : s.CanLoadBlock a n) (runs : exec i s = s.loadString skip rt a n) :
    Completes i s fun t =>
      (∀ j, j < 32 → t.reg (rt + BitVec.ofNat 5 j) =
        if 4 * j < n ∧ skip (rt + BitVec.ofNat 5 j) = false then s.stringWord a n j else s.reg (rt + BitVec.ofNat 5 j))
      ∧ t = { s.withStorage t with gpr := t.gpr, pc := s.pc + 4 } ∧ s.SameMemory t := by
  obtain ⟨u, loaded, moved, same⟩ := State.loadString_real (skip := skip) (rt := rt) hn can
  have sameGpr : u.gpr = s.gpr := by rw [show u = s.withStorage u from moved.storage]; rfl
  have only := putRegs_onlyGprs skip 32 rt (s.dataBytes a n) u
  refine ⟨_, runs.trans loaded, fun j hj => reg_putRegs_dataBytes skip rt bound sameGpr hj, moved.rest only, fun b => ?_⟩
  rw [← same b, only]
  rfl

theorem stringCount_bounds (nb : BitVec 5) : 0 < stringCount nb ∧ stringCount nb ≤ 32 := by
  unfold stringCount
  split
  · decide
  · next h =>
    have : nb.toNat ≠ 0 := fun e => h (BitVec.eq_of_toNat_eq e)
    have := nb.isLt
    omega

theorem lsi_loads {s : State} {rt ra : RegNum} {nb : BitVec 5} (can : s.CanLoadBlock (s.regOr0 ra) (stringCount nb)) :
    Completes (.lsi rt ra nb) s fun t =>
      (∀ j, j < 8 → t.reg (rt + BitVec.ofNat 5 j) =
        if 4 * j < stringCount nb ∧ ¬ (rt + BitVec.ofNat 5 j = ra ∧ ra ≠ 0) then s.stringWord (s.regOr0 ra) (stringCount nb) j
        else s.reg (rt + BitVec.ofNat 5 j))
      ∧ s.OnlyLoads t ((List.range 8).map fun j => rt + BitVec.ofNat 5 j) := by
  obtain ⟨positive, bound⟩ := stringCount_bounds nb
  obtain ⟨t, runs, regs, rest, same⟩ := string_loads (i := .lsi rt ra nb) (skip := skipBase ra) (rt := rt) positive
    (by omega) can rfl
  refine ⟨t, runs, fun j hj => ?_, fun q hq => ?_, rest, same⟩
  · simp only [regs j (by omega), skipBase_eq_false]
  · obtain ⟨j, hj, rfl⟩ := exists_add_reg rt q
    have far : ¬ j < 8 := fun h => hq (List.mem_map.2 ⟨j, List.mem_range.2 h, rfl⟩)
    rw [regs j hj, if_neg (by omega)]

theorem lsx_loads {s : State} {rt ra rb : RegNum} (hn : s.xerCount ≠ 0) (can : s.CanLoadBlock (s.eaX ra rb) s.xerCount) :
    Completes (.lsx rt ra rb) s fun t =>
      (∀ j, j < 32 → t.reg (rt + BitVec.ofNat 5 j) =
        if 4 * j < s.xerCount ∧ ¬ (rt + BitVec.ofNat 5 j = ra ∧ ra ≠ 0) ∧ rt + BitVec.ofNat 5 j ≠ rb
        then s.stringWord (s.eaX ra rb) s.xerCount j else s.reg (rt + BitVec.ofNat 5 j))
      ∧ t = { s.withStorage t with gpr := t.gpr, pc := s.pc + 4 } ∧ s.SameMemory t := by
  have bound : s.xerCount < 128 := (bitsAt s.xer 25 7).isLt
  have runs : exec (.lsx rt ra rb) s = s.loadString (skipBoth ra rb) rt (s.eaX ra rb) s.xerCount := if_neg hn
  obtain ⟨t, done, regs, frame⟩ := string_loads (Nat.pos_of_ne_zero hn) (by omega) can runs
  refine ⟨t, done, fun j hj => ?_, frame⟩
  simp only [regs j hj, skipBoth_eq_false]

theorem lsx_nothing {s : State} {rt ra rb : RegNum} (h : s.xerCount = 0) :
    Completes (.lsx rt ra rb) s fun t => (∀ r, r ≠ rt → t.reg r = s.reg r)
      ∧ t = { s with gpr := t.gpr, draws := t.draws, pc := s.pc + 4 } ∧ s.SameMemory t :=
  ⟨(s.drawWord.2.setReg rt s.drawWord.1).advance, if_pos h, fun _ hr => s.drawWord.2.reg_setReg_of_ne _ hr, rfl,
    fun _ => rfl⟩

/-- Settles O25. -/
theorem loadStrings : Obligations.LoadStrings := fun _ _ _ _ _ =>
  ⟨lsi_loads, fun hn => lsx_loads hn, fun h => lsx_nothing (congrArg BitVec.toNat h)⟩

/-! #### String stores -/

theorem string_stores {s : State} {i : Instr} {rs : RegNum} {a : Word} {n : Nat} (hn : 0 < n) (bound : n ≤ 128)
    (can : s.CanStoreBlock a n) (runs : exec i s = s.storeString rs a n) :
    Completes i s fun t => s.Stored t a ((List.range n).map fun k => s.stringByte rs k)
      ∧ t = { s.withStorage t with mq := t.mq, pc := s.pc + 4 } := by
  have len : (s.stringBytes rs n).length = n := by rw [State.stringBytes, List.length_map, List.length_range]
  obtain ⟨u, done, moved, stored⟩ := State.storeBlock_real can.canonical.mem (by rw [len]; exact hn)
    (by rw [len]; omega) (len.symm ▸ can.real) (len.symm ▸ can.readable) (len.symm ▸ can.noRom)
  refine ⟨({ u.drawWord.2 with mq := u.drawWord.1 } : State).advance, ?_, ⟨stored.stored, stored.others⟩, ?_⟩
  · rw [runs, State.storeString, done]
    rfl
  · rw [show u = s.withStorage u from moved.storage]
    rfl

theorem stsx_nothing {s : State} {rs ra rb : RegNum} (h : s.xerCount = 0) :
    Completes (.stsx rs ra rb) s fun t => t = { s with mq := t.mq, draws := t.draws, pc := s.pc + 4 } ∧ s.SameMemory t :=
  ⟨({ s.drawWord.2 with mq := s.drawWord.1 } : State).advance, if_pos h, rfl, fun _ => rfl⟩

/-- Settles O27. -/
theorem storeStrings : Obligations.StoreStrings := by
  intro s rs ra rb nb
  refine ⟨fun can => ?_, fun hn can => ?_, fun h => stsx_nothing (congrArg BitVec.toNat h)⟩
  · obtain ⟨positive, bound⟩ := stringCount_bounds nb
    exact string_stores (n := stringCount nb) positive (by omega) can rfl
  · have bound : s.xerCount < 128 := (bitsAt s.xer 25 7).isLt
    exact string_stores (n := s.xerCount) (Nat.pos_of_ne_zero hn) (by omega) can (if_neg hn)

end Sys2Proof.Machine

end

/-! ### Load string and compare byte (R358) -/

section

namespace Sys2Proof.Machine

open Host (Outcome)

/-! #### Bytes of the register sequence -/

/-- Byte k of a register sequence as a field of its register. -/
theorem stringByte_eq_bitsAt (s : State) (r : RegNum) (k : Nat) :
    s.stringByte r k = bitsAt (s.reg (r + BitVec.ofNat 5 (k / 4))) (8 * (k % 4)) 8 := by
  unfold State.stringByte bitsAt
  congr 1
  omega

theorem putStringByte_skipped (s : State) {skip : RegNum → Bool} {r : RegNum} {k : Nat} (b : Byte)
    (h : skip (r + BitVec.ofNat 5 (k / 4)) = true) : s.putStringByte skip r k b = s := if_pos h

theorem putStringByte_placed (s : State) {skip : RegNum → Bool} {r : RegNum} {k : Nat} (b : Byte)
    (h : skip (r + BitVec.ofNat 5 (k / 4)) = false) :
    s.putStringByte skip r k b = s.setReg (r + BitVec.ofNat 5 (k / 4))
      (setBits (s.reg (r + BitVec.ofNat 5 (k / 4))) (8 * (k % 4)) 8 b) :=
  if_neg (by rw [h]; decide)

theorem stringByte_placed (s : State) {skip : RegNum → Bool} {r : RegNum} {k : Nat} (b : Byte)
    (h : skip (r + BitVec.ofNat 5 (k / 4)) = false) : (s.putStringByte skip r k b).stringByte r k = b := by
  rw [putStringByte_placed s b h, stringByte_eq_bitsAt, State.reg_setReg_self]
  exact bitsAt_setBits _ (by omega) b

/-- Another byte of the sequence, which is no longer than the register file. -/
theorem stringByte_putStringByte_of_ne (s : State) (skip : RegNum → Bool) (r : RegNum) {j k : Nat} (b : Byte)
    (hj : j < 128) (hk : k < 128) (hjk : j ≠ k) : (s.putStringByte skip r k b).stringByte r j = s.stringByte r j := by
  cases h : skip (r + BitVec.ofNat 5 (k / 4)) with
  | true => rw [putStringByte_skipped s b h]
  | false =>
    rw [putStringByte_placed s b h, stringByte_eq_bitsAt, stringByte_eq_bitsAt, State.reg_setReg]
    split
    · next e =>
      have word := add_reg_inj r (i := j / 4) (j := k / 4) (by omega) (by omega) e
      rw [e]
      exact bitsAt_setBits_of_disjoint _ (by omega) (by omega) b (by omega)
    · rfl

theorem reg_putStringByte_of_ne (s : State) (skip : RegNum → Bool) (r : RegNum) {q : RegNum} (k : Nat) (b : Byte)
    (hq : q = r + BitVec.ofNat 5 (k / 4) → skip q = true) : (s.putStringByte skip r k b).reg q = s.reg q := by
  cases h : skip (r + BitVec.ofNat 5 (k / 4)) with
  | true => rw [putStringByte_skipped s b h]
  | false =>
    rw [putStringByte_placed s b h]
    exact s.reg_setReg_of_ne _ fun e => by
      have := hq e
      rw [e, h] at this
      cases this

theorem putStringByte_rest (s : State) (skip : RegNum → Bool) (r : RegNum) (k : Nat) (b : Byte) :
    s.putStringByte skip r k b = { s with gpr := (s.putStringByte skip r k b).gpr } := by
  unfold State.putStringByte
  simp only
  split <;> rfl

/-! #### The scan -/

/-- The scan of a string at `a` has loaded k bytes into the sequence at `r`, from `s` on. -/
structure Scanned (s : State) (skip : RegNum → Bool) (r : RegNum) (a : Word) (k : Nat) (u : State) : Prop where
  moved : s.Moved { u with gpr := s.gpr }
  memory : s.SameMemory u
  bytes : ∀ j, j < k → skip (r + BitVec.ofNat 5 (j / 4)) = false → u.stringByte r j = s.dataByte (a + BitVec.ofNat 32 j)
  others : ∀ q, (∀ j, j < k → q = r + BitVec.ofNat 5 (j / 4) → skip q = true) → u.reg q = s.reg q

theorem Scanned.start {s : State} (h : Memory.wf s.mem = true) (skip : RegNum → Bool) (r : RegNum) (a : Word) :
    Scanned s skip r a 0 s :=
  ⟨State.Moved.refl h, fun _ => rfl, fun _ hj => absurd hj (Nat.not_lt_zero _), fun _ _ => rfl⟩

/-- The next byte can be loaded, and is that of `s`. -/
theorem Scanned.load {s u : State} {skip : RegNum → Bool} {r : RegNum} {a : Word} {k n : Nat}
    (h : Scanned s skip r a k u) (can : s.CanLoadBlock a n) (hk : k < n) :
    ∃ v, u.loadMem (a + BitVec.ofNat 32 k) 1 = .ok [s.dataByte (a + BitVec.ofNat 32 k)] v ∧ Scanned s skip r a k v := by
  have at0 : ∀ i, i < 1 → a + BitVec.ofNat 32 k + BitVec.ofNat 32 i = a + BitVec.ofNat 32 k := fun i hi => by
    rw [Nat.lt_one_iff.1 hi]; exact BitVec.add_zero _
  have real : s.RealMode (a + BitVec.ofNat 32 k) 1 :=
    ⟨can.real.noTranslation, fun i hi => by rw [at0 i hi]; exact can.real.noIo k hk⟩
  have readable : s.Readable (a + BitVec.ofNat 32 k) 1 := fun i hi => by rw [at0 i hi]; exact can.readable k hk
  have realU : u.RealMode (a + BitVec.ofNat 32 k) 1 :=
    ⟨(real.moved h.moved).noTranslation, (real.moved h.moved).noIo⟩
  have readableU : u.Readable (a + BitVec.ofNat 32 k) 1 := readable.moved h.moved
  obtain ⟨v, loaded, moved, same⟩ := State.loadMem_real (s := u) h.moved.wf realU readableU
  have gpr : v.gpr = u.gpr := by rw [show v = u.withStorage v from moved.storage]; rfl
  rw [State.dataBytes_one, h.memory] at loaded
  refine ⟨v, loaded, h.moved.trans ⟨?_, moved.wf, moved.lines⟩, h.memory.trans same, fun j hj hs => ?_, fun q hq => ?_⟩
  · exact congrArg (fun x : State => { x with gpr := s.gpr }) moved.storage
  · rw [← h.bytes j hj hs]
    unfold State.stringByte State.reg
    rw [gpr]
  · rw [← h.others q hq]
    unfold State.reg
    rw [gpr]

theorem Scanned.put {s u : State} {skip : RegNum → Bool} {r : RegNum} {a : Word} {k : Nat}
    (h : Scanned s skip r a k u) (hk : k < 128) :
    Scanned s skip r a (k + 1) (u.putStringByte skip r k (s.dataByte (a + BitVec.ofNat 32 k))) := by
  generalize hb : s.dataByte (a + BitVec.ofNat 32 k) = b
  have rest := putStringByte_rest u skip r k b
  refine ⟨?_, fun x => ?_, fun j hj hs => ?_, fun q hq => ?_⟩
  · rw [rest]; exact h.moved
  · rw [← h.memory x, rest]; rfl
  · by_cases e : j = k
    · subst e
      rw [stringByte_placed u b hs, hb]
    · rw [stringByte_putStringByte_of_ne u skip r b (by omega) hk e]
      exact h.bytes j (by omega) hs
  · rw [reg_putStringByte_of_ne u skip r k b fun e => hq k (by omega) e]
    exact h.others q fun j hj => hq j (by omega)

/-- How a scan of `left` more bytes after the first k ends: it stops at the first compare byte. -/
theorem scanString_spec {s : State} {skip : RegNum → Bool} {r : RegNum} {a : Word} {n : Nat} (c : Byte)
    (can : s.CanLoadBlock a n) (bound : n ≤ 128) (left : Nat) {k : Nat} {u : State} (h : Scanned s skip r a k u)
    (total : k + left = n) :
    ∃ (k' : Nat) (hit : Bool) (v : State), scanString s.gpr skip r a c left k u = .ok (k', hit) v
      ∧ Scanned s skip r a k' v ∧ k ≤ k' ∧ k' ≤ n
      ∧ (hit = true → k < k' ∧ s.dataByte (a + BitVec.ofNat 32 (k' - 1)) = c) ∧ (hit = false → k' = n)
      ∧ ∀ j, k ≤ j → j < k' → (j + 1 = k' → hit = false) → s.dataByte (a + BitVec.ofNat 32 j) ≠ c := by
  induction left generalizing k u with
  | zero =>
    exact ⟨k, false, u, rfl, h, Nat.le_refl k, by omega, fun e => (nomatch e), fun _ => total,
      fun j h1 h2 => absurd h2 (by omega)⟩
  | succ left ih =>
    obtain ⟨v, loaded, scanned⟩ := h.load can (by omega)
    have placed := scanned.put (by omega)
    unfold scanString
    simp only [loaded, List.getD_cons_zero]
    split
    · next hit =>
      refine ⟨k + 1, true, _, rfl, placed, by omega, by omega, fun _ => ⟨by omega, hit⟩, fun e => (nomatch e),
        fun j h1 h2 last => ?_⟩
      have := last (by omega)
      cases this
    · next miss =>
      obtain ⟨k', hit, w, runs, done, le, bounded, onHit, onMiss, before⟩ := ih placed (by omega)
      refine ⟨k', hit, w, runs, done, by omega, bounded, fun e => ⟨by have := (onHit e).1; omega, (onHit e).2⟩, onMiss,
        fun j h1 h2 last => ?_⟩
      by_cases e : j = k
      · subst e; exact miss
      · exact before j (by omega) h2 last

theorem State.scan_real {s : State} {skip : RegNum → Bool} {r : RegNum} {a : Word} {n : Nat} (c : Byte)
    (can : s.CanLoadBlock a n) : s.scan skip r a c n = scanString s.gpr skip r a c n 0 s := by
  unfold State.scan
  cases n with
  | zero => simp
  | succ n => rw [can.real.notIo (by omega)]; rfl

/-! #### The bytes that no scan reached -/

/-- After the free values: the loaded bytes, and which registers may have changed. -/
structure Tailed (s : State) (skip : RegNum → Bool) (r : RegNum) (a : Word) (k : Nat) (u : State) : Prop where
  rest : u = { s.withStorage u with gpr := u.gpr }
  memory : s.SameMemory u
  bytes : ∀ j, j < k → skip (r + BitVec.ofNat 5 (j / 4)) = false → u.stringByte r j = s.dataByte (a + BitVec.ofNat 32 j)
  others : ∀ q, (∀ j, j < k → q = r + BitVec.ofNat 5 (j / 4) → skip q = true) → (k = 0 → q ≠ r) → u.reg q = s.reg q

theorem Scanned.tailed {s u : State} {skip : RegNum → Bool} {r : RegNum} {a : Word} {k : Nat}
    (h : Scanned s skip r a k u) : Tailed s skip r a k u :=
  ⟨congrArg (fun x : State => { x with gpr := u.gpr }) h.moved.storage, h.memory, h.bytes,
    fun q hq _ => h.others q hq⟩

theorem Tailed.draw {s u : State} {skip : RegNum → Bool} {r : RegNum} {a : Word} {k : Nat}
    (h : Tailed s skip r a k u) : Tailed s skip r a k u.drawWord.2 :=
  ⟨congrArg (fun x : State => { x with draws := u.draws + 1 }) h.rest, h.memory, h.bytes, h.others⟩

theorem Tailed.freeTail {s u : State} {skip : RegNum → Bool} {r : RegNum} {a : Word} {k : Nat}
    (h : Tailed s skip r a k u) (hk : k < 128) : Tailed s skip r a k (u.freeTail skip r k) := by
  have setReg : ∀ (v : State) (q : RegNum) (w : Word), Tailed s skip r a k v →
      (∀ j, j < k → skip (r + BitVec.ofNat 5 (j / 4)) = false → (v.setReg q w).stringByte r j = v.stringByte r j) →
      ((∃ j, j < k ∧ q = r + BitVec.ofNat 5 (j / 4) ∧ skip q = false) ∨ k = 0 ∧ q = r) →
      Tailed s skip r a k (v.setReg q w) := by
    intro v q w hv same reached
    refine ⟨congrArg (fun x : State => { x with gpr := (v.setReg q w).gpr }) hv.rest, hv.memory,
      fun j hj hs => (same j hj hs).trans (hv.bytes j hj hs), fun p hp hz => ?_⟩
    rw [v.reg_setReg_of_ne w ?_]
    · exact hv.others p hp hz
    · rintro rfl
      obtain ⟨j, hj, hq, hs⟩ | ⟨hz', hr⟩ := reached
      · have := hp j hj hq
        rw [hs] at this
        cases this
      · exact hz hz' hr
  unfold State.freeTail
  simp only
  split
  · next zero => exact setReg _ r _ h.draw (fun j hj => absurd hj (by omega)) (.inr ⟨zero, rfl⟩)
  split
  · exact h
  · next positive partly =>
    rw [Bool.or_eq_true, not_or, decide_eq_true_eq, Bool.not_eq_true] at partly
    refine setReg _ _ _ h.draw (fun j hj _ => ?_) (.inl ⟨k - 1, by omega, by congr 2; omega, partly.2⟩)
    rw [stringByte_eq_bitsAt, stringByte_eq_bitsAt, State.reg_setReg]
    split
    · next e =>
      have word := add_reg_inj r (i := j / 4) (j := k / 4) (by omega) (by omega) e
      rw [e]
      exact bitsAt_setBits_of_disjoint _ (by omega) (by omega) _ (by omega)
    · rfl

/-! #### The instruction -/

theorem bitsAt_count (x : Word) (k : Nat) :
    bitsAt (setBits x 25 7 (BitVec.ofNat 7 k)) 25 7 = BitVec.ofNat 7 k
      ∧ bitsAt (setBits x 25 7 (BitVec.ofNat 7 k)) 0 25 = bitsAt x 0 25
      ∧ bitAt (setBits x 25 7 (BitVec.ofNat 7 k)) 0 = bitAt x 0 :=
  ⟨bitsAt_setBits x (by decide) _, bitsAt_setBits_of_disjoint x (by decide) (by decide) _ (.inr (by decide)), by
    rw [bitAt_setBits x (by decide) _ (by decide), if_neg (by omega)]⟩

/-- Settles O26: the scan's invariant is that the bytes so far stand in the register sequence. -/
theorem loadStringAndCompare : Obligations.LoadStringAndCompare := by
  intro s rt ra rb rc n a c kept can
  have bound : n < 128 := (bitsAt s.xer 25 7).isLt
  have skips : ∀ q, skipBoth ra rb q = true ↔ kept q := skipBoth_eq_true ra rb
  obtain ⟨k, hit, u, scans, scanned, -, le, onHit, onMiss, before⟩ :=
    scanString_spec c can (by omega) n (Scanned.start can.canonical.mem (skipBoth ra rb) rt a) (by omega)
  have tail := scanned.tailed.freeTail (by omega)
  generalize hv : u.freeTail (skipBoth ra rb) rt k = v at tail
  have xer : v.xer = s.xer := by rw [tail.rest]; rfl
  have cr : v.cr = s.cr := by rw [tail.rest]; rfl
  obtain ⟨count, flags, so⟩ := bitsAt_count s.xer k
  let w : State := { v with xer := setBits s.xer 25 7 (BitVec.ofNat 7 k) }
  let t : State := (if rc then w.setCrField 0 (crNibble false false hit w.xerSO) else w).advance
  have runs : exec (.lscbx rt ra rb rc) s = .next t := by
    show execLscbx rt ra rb rc s = .next t
    have all : s.scan (skipBoth ra rb) rt (s.eaX ra rb) (bitsAt s.xer 16 8) s.xerCount = .ok (k, hit) u :=
      (State.scan_real c can).trans scans
    unfold execLscbx
    simp only [all, Res.outcome, hv, xer]
    rfl
  have gpr : t.gpr = v.gpr := by cases rc <;> rfl
  refine ⟨t, runs, k, hit, le, fun e => ⟨(onHit e).1, (onHit e).2⟩, onMiss, fun j hj => before j (Nat.zero_le j) hj,
    fun j hj hkept => ?_, fun q hq hz => ?_, ?_, ?_, ?_, ?_, fun b => ?_⟩
  · have free : skipBoth ra rb (rt + BitVec.ofNat 5 (j / 4)) = false :=
      Bool.eq_false_iff.2 fun e => hkept ((skips _).1 e)
    rw [← tail.bytes j hj free]
    unfold State.stringByte State.reg
    rw [gpr]
  · have same := tail.others q (fun j hj e => by
      obtain h | h := hq (by omega)
      · exact (skips q).2 h
      · exact absurd e (h j hj)) hz
    rw [← same]
    unfold State.reg
    rw [gpr]
  · cases rc <;> exact count
  · cases rc <;> exact flags
  · cases rc with
    | false => exact cr
    | true =>
      refine ⟨?_, fun f hf => ?_⟩
      · rw [show t.crField 0 = crNibble false false hit w.xerSO from w.crField_setCrField_self 0 _]
        exact congrArg (crNibble false false hit) so
      · refine (w.crField_setCrField_of_ne _ hf).trans ?_
        unfold State.crField
        rw [show w.cr = v.cr from rfl, cr]
  · have rest := congrArg (fun x : State => ({ x with xer := t.xer, cr := t.cr } : State).advance) tail.rest
    cases rc <;> exact rest
  · rw [← tail.memory b]
    cases rc <;> rfl

end Sys2Proof.Machine

end

/-! ### Fixed-point results: records of another value, free values (R400, R510) -/

section

namespace Sys2Proof.Machine

/-- Without Rc no value is shown. -/
theorem FixedResult.unrecorded {s t : State} {rd : RegNum} {v w : Word} {ca : Option Bool} {oe ov : Bool}
    (h : FixedResult s t rd v w ca oe ov false) (shown : Word) : FixedResult s t rd v shown ca oe ov false :=
  ⟨h.target, h.others, h.carry, h.overflow, h.summary, h.xerRest, fun e => (nomatch e), h.crRest, h.noRecord, h.rest,
    h.memory⟩

/-- CR0 with Rc, after everything else (R10). -/
theorem FixedResult.record {s t : State} {rd : RegNum} {v w : Word} {ca : Option Bool} {oe ov : Bool}
    (h : FixedResult s t rd v w ca oe ov false) (rc : Bool) (shown : Word) :
    FixedResult s (t.record rc shown) rd v shown ca oe ov rc := by
  cases rc with
  | false => exact h.unrecorded shown
  | true =>
    refine ⟨h.target, h.others, h.carry, h.overflow, h.summary, h.xerRest, fun _ => ?_, fun f hf => ?_,
      fun e => (nomatch e), ?_, h.memory⟩
    · exact (t.crField_setCrField_self 0 _).trans (compareSigned_zero shown t.xerSO)
    · exact (t.crField_setCrField_of_ne _ hf).trans (h.crRest f hf)
    · exact congrArg (fun x : State => { x with cr := (t.setCR0 shown).cr }) h.rest

/-- A new MQ and free values come before the result. -/
theorem FixedResult.after_mq {s t : State} {rd : RegNum} {v w : Word} {ca : Option Bool} {oe ov rc : Bool} {mq : Word}
    {draws : Nat} (h : FixedResult { s with mq := mq, draws := draws } t rd v w ca oe ov rc) :
    FixedResult s t rd v w ca oe ov rc :=
  ⟨h.target, h.others, h.carry, h.overflow, h.summary, h.xerRest, h.cr0, h.crRest, h.noRecord, h.rest, h.memory⟩

@[simp] theorem State.arith_mq (s : State) (rd : RegNum) (v : Word) (oe ov rc : Bool) :
    (s.arith rd v oe ov rc).mq = s.mq := by
  cases oe <;> cases rc <;> rfl

@[simp] theorem State.arith_draws (s : State) (rd : RegNum) (v : Word) (oe ov rc : Bool) :
    (s.arith rd v oe ov rc).draws = s.draws := by
  cases oe <;> cases rc <;> rfl

/-- An instruction that ends in `arith` computes the number its value and its overflow tell of. -/
theorem computes_of_exec_eq_arith {i : Instr} {s : State} {rd : RegNum} {v : Word} {oe ov rc : Bool} {n : Int}
    (runs : exec i s = .next (s.arith rd v oe ov rc)) (value : v = BitVec.ofInt 32 n)
    (overflow : ov = decide (Overflows n)) : Computes s i rd n none oe rc := by
  subst value overflow
  exact ⟨_, runs, s.arith_result rd _ oe _ rc, s.arith_mq rd _ oe _ rc⟩

/-- An instruction that writes a general register and goes on. -/
theorem completes_setReg {i : Instr} {s : State} {r : RegNum} {v w : Word}
    (runs : exec i s = .next (s.setReg r v).advance) (value : v = w) :
    Completes i s fun t => t.reg r = w ∧ s.OnlyRegs t [r] := by
  subst value
  exact ⟨_, runs, s.reg_setReg_self r v, (s.setReg_onlyGprs r v).onlyRegs⟩

end Sys2Proof.Machine

end

/-! ### Address computation, negation, absolute values, difference or zero (R402, R403, R408, R409, R418 to R421) -/

section

namespace Sys2Proof.Machine

theorem toInt_bounds (a : Word) : -2 ^ 31 ≤ a.toInt ∧ a.toInt < 2 ^ 31 :=
  ⟨BitVec.le_toInt a, BitVec.toInt_lt⟩

theorem not_overflows_toInt (a : Word) : ¬ Overflows a.toInt := by
  have := toInt_bounds a
  unfold Overflows
  omega

theorem eq_minWord_iff (a : Word) : a = minWord ↔ a.toInt = -2 ^ 31 :=
  BitVec.toInt_inj.symm

theorem neg_eq_ofInt (a : Word) : -a = BitVec.ofInt 32 (-a.toInt) := by
  rw [BitVec.ofInt_neg, BitVec.ofInt_toInt]

theorem sub_eq_ofInt (a b : Word) : a - b = BitVec.ofInt 32 (a.toInt - b.toInt) := by
  rw [BitVec.sub_eq_add_neg, Int.sub_eq_add_neg, BitVec.ofInt_add, BitVec.ofInt_neg, BitVec.ofInt_toInt,
    BitVec.ofInt_toInt]

theorem add_eq_ofInt (a b : Word) : a + b = BitVec.ofInt 32 (a.toInt + b.toInt) := by
  rw [BitVec.ofInt_add, BitVec.ofInt_toInt, BitVec.ofInt_toInt]

theorem overflows_neg_iff (a : Word) : Overflows (-a.toInt) ↔ a = minWord := by
  have := toInt_bounds a
  rw [eq_minWord_iff]
  unfold Overflows
  omega

theorem absWord_eq_ofInt (a : Word) : absWord a = BitVec.ofInt 32 |a.toInt| := by
  unfold absWord
  split
  · next negative =>
    rw [neg_eq_ofInt, abs_of_nonpos (BitVec.toInt_neg_of_msb_true negative).le]
  · next positive =>
    rw [abs_of_nonneg (BitVec.toInt_nonneg_of_msb_false (Bool.eq_false_iff.2 positive)), BitVec.ofInt_toInt]

theorem overflows_abs_iff (a : Word) : Overflows |a.toInt| ↔ a = minWord := by
  have := toInt_bounds a
  rw [eq_minWord_iff]
  unfold Overflows
  obtain ⟨h, e⟩ | ⟨h, e⟩ := abs_cases a.toInt <;> omega

theorem not_overflows_neg_abs (a : Word) : ¬ Overflows (-|a.toInt|) := by
  have := toInt_bounds a
  unfold Overflows
  obtain ⟨h, e⟩ | ⟨h, e⟩ := abs_cases a.toInt <;> omega

theorem beq_minWord (a : Word) {n : Int} (h : Overflows n ↔ a = minWord) : (a == minWord) = decide (Overflows n) := by
  rw [Bool.eq_iff_iff, beq_iff_eq, decide_eq_true_iff, h]

/-- The base of an address as a signed number. -/
theorem regOr0_eq_ofInt_signed (s : State) (ra : RegNum) :
    s.regOr0 ra = BitVec.ofInt 32 (if ra = 0 then 0 else (s.reg ra).toInt) := by
  unfold State.regOr0
  split
  · rfl
  · exact (BitVec.ofInt_toInt).symm

/-- The immediate of cau stands in the high half (R403). -/
theorem high_half_eq_ofInt (v : Half) : v ++ 0#16 = BitVec.ofInt 32 (65536 * (v.toNat : Int)) := by
  apply BitVec.eq_of_toNat_eq
  have product : (65536 * (v.toNat : Int)) = ((65536 * v.toNat : Nat) : Int) := by push_cast; rfl
  rw [product, BitVec.ofInt_natCast, BitVec.toNat_ofNat, BitVec.toNat_append, BitVec.toNat_ofNat, Nat.zero_mod,
    Nat.or_zero, Nat.shiftLeft_eq]
  have := v.isLt
  omega

theorem execDoz_computes (s : State) (rt ra rb : RegNum) (oe rc : Bool) :
    Computes s (.doz rt ra rb oe rc) rt (if (s.reg rb).toInt < (s.reg ra).toInt then 0
      else (s.reg rb).toInt - (s.reg ra).toInt) none oe rc := by
  by_cases h : (s.reg rb).toInt < (s.reg ra).toInt
  · rw [if_pos h]
    exact computes_of_exec_eq_arith (if_pos (BitVec.slt_iff_toInt_lt.2 h)) rfl (by decide)
  · rw [if_neg h]
    refine computes_of_exec_eq_arith (if_neg (mt BitVec.slt_iff_toInt_lt.1 h)) (sub_eq_ofInt _ _) ?_
    rw [overflowOut_eq, toInt_complement]
    congr 2
    simp
    ring

/-- Settles O30. -/
theorem instructionsWithoutCarry : Obligations.InstructionsWithoutCarry := by
  intro s rt ra rb v oe rc
  refine ⟨?cal, ?cau, ?dozi, ?cax, ?neg, ?abs, ?nabs, execDoz_computes s rt ra rb oe rc⟩
  case cal =>
    refine completes_setReg (v := s.eaD ra v) rfl ?_
    rw [State.eaD, sext16, regOr0_eq_ofInt_signed, BitVec.signExtend, ← BitVec.ofInt_add]
  case cau =>
    refine completes_setReg (v := s.regOr0 ra + (v ++ 0#16)) rfl ?_
    rw [regOr0_eq_ofInt_signed, high_half_eq_ofInt, ← BitVec.ofInt_add]
  case dozi =>
    have value : (sext16 v).toInt = v.toInt := BitVec.toInt_signExtend_of_le (by decide)
    refine completes_setReg (v := if (sext16 v).slt (s.reg ra) then 0 else sext16 v - s.reg ra) rfl ?_
    simp only [BitVec.slt_iff_toInt_lt, value, sub_eq_ofInt]
  case cax =>
    refine computes_of_exec_eq_arith rfl (add_eq_ofInt _ _) ?_
    rw [overflowOut_eq]
    simp
  case neg => exact computes_of_exec_eq_arith rfl (neg_eq_ofInt _) (beq_minWord _ (overflows_neg_iff _))
  case abs => exact computes_of_exec_eq_arith rfl (absWord_eq_ofInt _) (beq_minWord _ (overflows_abs_iff _))
  case nabs =>
    refine computes_of_exec_eq_arith (v := -absWord (s.reg ra)) (ov := false) rfl ?_
      (decide_eq_false (not_overflows_neg_abs _)).symm
    rw [absWord_eq_ofInt, ← BitVec.ofInt_neg]

end Sys2Proof.Machine

end

/-! ### Multiplications (R407, R422, R423) -/

section

namespace Sys2Proof.Machine

theorem outsideWord_eq (p : Int) : outsideWord p = decide (Overflows p) := by
  unfold outsideWord
  simp only [Bool.decide_or]

theorem mul_eq_ofInt (a b : Word) : a * b = BitVec.ofInt 32 (a.toInt * b.toInt) := by
  rw [BitVec.ofInt_mul, BitVec.ofInt_toInt, BitVec.ofInt_toInt]

theorem low_of_product (p : Int) : (BitVec.ofInt 64 p).extractLsb' 0 32 = BitVec.ofInt 32 p := by
  apply BitVec.eq_of_toNat_eq
  rw [BitVec.extractLsb'_toNat, BitVec.toNat_ofInt, BitVec.toNat_ofInt, Nat.shiftRight_zero]
  omega

theorem high_of_product (p : Int) : (BitVec.ofInt 64 p).extractLsb' 32 32 = BitVec.ofInt 32 (p / 2 ^ 32) := by
  apply BitVec.eq_of_toNat_eq
  rw [BitVec.extractLsb'_toNat, BitVec.toNat_ofInt, BitVec.toNat_ofInt, Nat.shiftRight_eq_div_pow]
  omega

theorem record_advance (s : State) (rc : Bool) (v : Word) : (s.record rc v).advance = s.advance.record rc v := by
  cases rc <;> rfl

/-- The end of mul: one value in the target, another in MQ and shown in CR0 (R422). -/
theorem multiplied_result (s : State) (rd : RegNum) (high low : Word) (oe ov rc : Bool) :
    let t := (((({ s with mq := low } : State).setReg rd high).overflow oe ov).record rc low).advance
    FixedResult s t rd high low none oe ov rc ∧ t.mq = low ∧ t.draws = s.draws := by
  intro t
  have order : t = (({ s with mq := low } : State).arith rd high oe ov false).record rc low :=
    record_advance _ rc low
  rw [order]
  generalize hu : ({ s with mq := low } : State) = u
  have draws : u.draws = s.draws := by rw [← hu]
  have mq : u.mq = low := by rw [← hu]
  refine ⟨FixedResult.record (FixedResult.unrecorded (w := high) (FixedResult.after_mq (mq := low) (draws := s.draws)
    (hu ▸ State.arith_result _ rd high oe ov false)) 0) rc low, ?_, ?_⟩
  · cases rc <;> exact (u.arith_mq rd high oe ov false).trans mq
  · cases rc <;> exact (u.arith_draws rd high oe ov false).trans draws

theorem freeMq_arith_result (s : State) (rd : RegNum) (v : Word) (oe ov rc : Bool) :
    FixedResult s (s.freeMq.arith rd v oe ov rc) rd v v none oe ov rc :=
  FixedResult.after_mq (mq := s.drawWord.1) (draws := s.draws + 1) (State.arith_result _ rd v oe ov rc)

theorem exec_mul (s : State) (rt ra rb : RegNum) (oe rc : Bool) (p : Int)
    (hp : p = (s.reg ra).toInt * (s.reg rb).toInt) :
    exec (.mul rt ra rb oe rc) s = .next (((({ s with mq := BitVec.ofInt 32 p } : State).setReg rt
      (BitVec.ofInt 32 (p / 2 ^ 32))).overflow oe (decide (Overflows p))).record rc (BitVec.ofInt 32 p)).advance := by
  show execMul rt ra rb oe rc s = _
  unfold execMul product
  rw [← hp]
  simp only [low_of_product, high_of_product, outsideWord_eq]

/-- Settles O31. -/
theorem multiplications : Obligations.Multiplications := by
  intro s rt ra rb si oe rc p
  refine ⟨⟨_, exec_mul s rt ra rb oe rc p rfl, multiplied_result s rt _ _ oe _ rc⟩, ?muls, ?muli⟩
  case muls =>
    have runs : exec (.muls rt ra rb oe rc) s
        = .next (s.freeMq.arith rt (BitVec.ofInt 32 p) oe (decide (Overflows p)) rc) := by
      show execMuls rt ra rb oe rc s = _
      unfold execMuls product
      rw [outsideWord_eq, mul_eq_ofInt]
    exact ⟨_, runs, freeMq_arith_result s rt _ oe _ rc⟩
  case muli =>
    have value : (sext16 si).toInt = si.toInt := BitVec.toInt_signExtend_of_le (by decide)
    have runs : exec (.muli rt ra si) s
        = .next (s.freeMq.arith rt (BitVec.ofInt 32 ((s.reg ra).toInt * si.toInt)) false false false) := by
      rw [← value, ← mul_eq_ofInt]
      rfl
    exact ⟨_, runs, (freeMq_arith_result s rt _ false false false).unrecorded 0⟩

end Sys2Proof.Machine

end

/-! ### Divisions (R424, R425) -/

section

namespace Sys2Proof.Machine

/-- The results of a divide that the spec leaves unspecified. -/
def State.Undivided (s : State) (rt : RegNum) (oe rc : Bool) (t : State) : Prop := ∃ u : State,
  FixedResult s u rt (t.reg rt) 0 none oe true false ∧ t = { u with cr := t.cr }
    ∧ (∀ f, f ≠ 0 → t.crField f = s.crField f) ∧ (rc = true → bitAt t.cr 3 = t.xerSO) ∧ (rc = false → t.cr = s.cr)

theorem divided_result (s : State) (rt : RegNum) (q r : Word) (oe ov rc : Bool) :
    FixedResult s (s.divided rt q r oe ov rc) rt q q none oe ov rc ∧ (s.divided rt q r oe ov rc).mq = r :=
  ⟨FixedResult.after_mq (mq := r) (draws := s.draws) (State.arith_result _ rt q oe ov rc),
    State.arith_mq _ rt q oe ov rc⟩

/-- The last bit of a field that is written to CR0. -/
theorem bitAt_setCrField_last (s : State) (f : BitVec 3) (b : Bool) :
    bitAt (s.setCrField 0 (f ++ BitVec.ofBool b)).cr 3 = b := by
  refine (bitAt_setBits s.cr (i := 0) (n := 4) (by decide) (f ++ BitVec.ofBool b) (j := 3) (by decide)).trans ?_
  rw [if_pos (by decide)]
  have last : ∀ (g : BitVec 3) (c : Bool), (g ++ BitVec.ofBool c).getMsbD 3 = c := by decide
  exact last f b

theorem undivided_result (s : State) (rt : RegNum) (oe rc : Bool) : s.Undivided rt oe rc (s.undivided rt oe rc) := by
  let u : State := ({ s with draws := s.draws + 3 } : State).divided rt s.drawWord.1 s.drawWord.2.drawWord.1 oe true false
  let f := s.drawWord.2.drawWord.2.drawWord.1.extractLsb' 0 3
  have result : FixedResult s u rt s.drawWord.1 0 none oe true false := by
    have := (divided_result { s with draws := s.draws + 3 } rt s.drawWord.1 s.drawWord.2.drawWord.1 oe true false).1
    exact (FixedResult.after_mq (mq := s.mq) this).unrecorded 0
  have e : s.undivided rt oe rc = if rc then u.setCrField 0 (f ++ BitVec.ofBool u.xerSO) else u := rfl
  rw [e]
  cases rc with
  | false => exact ⟨u, result.target.symm ▸ result, rfl, result.crRest, fun h => (nomatch h), fun _ => result.noRecord rfl⟩
  | true =>
    refine ⟨u, ?_, rfl, fun g hg => ?_, fun _ => bitAt_setCrField_last u f u.xerSO, fun h => (nomatch h)⟩
    · exact result.target.symm ▸ result
    · exact (u.crField_setCrField_of_ne _ hg).trans (result.crRest g hg)

theorem sub_mul_tdiv (n d : Int) : n - n.tdiv d * d = n.tmod d := by
  have := Int.mul_tdiv_add_tmod n d
  linarith [mul_comm d (n.tdiv d)]

theorem extractLsb'_append_high (a b : Word) : (a ++ b).extractLsb' 32 32 = a := BitVec.extractLsb'_append_eq_left
theorem extractLsb'_append_low (a b : Word) : (a ++ b).extractLsb' 0 32 = b := BitVec.extractLsb'_append_eq_right

/-- The dividend -2^31 of 64 bits, as its two words. -/
theorem dividend_eq_min_iff (a m : Word) : (a ++ m).toInt = -2 ^ 31 ↔ a = 0xFFFFFFFF ∧ m = minWord := by
  have pattern : (-2 ^ 31 : Int) = ((0xFFFFFFFF : Word) ++ minWord).toInt := rfl
  rw [pattern, BitVec.toInt_inj]
  constructor
  · intro e
    exact ⟨by rw [← extractLsb'_append_high a m, e, extractLsb'_append_high], by rw [← extractLsb'_append_low a m, e, extractLsb'_append_low]⟩
  · rintro ⟨rfl, rfl⟩
    rfl

/-- Only -2^31 by -1 has a quotient of words that is no word. -/
theorem overflows_tdiv_iff {a b : Word} (hb : b.toInt ≠ 0) :
    Overflows (a.toInt.tdiv b.toInt) ↔ a.toInt = -2 ^ 31 ∧ b.toInt = -1 := by
  have ha := toInt_bounds a
  have hle : (a.toInt.tdiv b.toInt).natAbs ≤ a.toInt.natAbs := by
    rw [Int.natAbs_tdiv]; exact Nat.div_le_self _ _
  constructor
  · intro h
    have extreme : a.toInt = -2 ^ 31 := by unfold Overflows at h; omega
    refine ⟨extreme, ?_⟩
    by_contra other
    by_cases one : b.toInt = 1
    · rw [one, Int.tdiv_one] at h
      exact not_overflows_toInt a h
    · have half : (a.toInt.tdiv b.toInt).natAbs ≤ 2 ^ 30 := by
        rw [Int.natAbs_tdiv, extreme]
        have two : 2 ≤ b.toInt.natAbs := by omega
        calc (-2 ^ 31 : Int).natAbs / b.toInt.natAbs ≤ (-2 ^ 31 : Int).natAbs / 2 := Nat.div_le_div_left two (by decide)
          _ = 2 ^ 30 := by decide
      unfold Overflows at h
      omega
  · rintro ⟨ha, hb⟩
    rw [ha, hb]
    decide

/-- What a divide instruction of these operands leaves. -/
def State.Divides (s : State) (rt : RegNum) (oe rc : Bool) (i : Instr) (n d : Int) : Prop :=
  (d ≠ 0 → ¬ Overflows (n.tdiv d) → Completes i s fun t =>
      FixedResult s t rt (BitVec.ofInt 32 (n.tdiv d)) (BitVec.ofInt 32 (n.tdiv d)) none oe false rc
        ∧ t.mq = BitVec.ofInt 32 (n.tmod d))
    ∧ (n = -2 ^ 31 → d = -1 → Completes i s fun t =>
      FixedResult s t rt 0x80000000 0x80000000 none oe true rc ∧ t.mq = 0)
    ∧ (d = 0 ∨ Overflows (n.tdiv d) → ¬ (n = -2 ^ 31 ∧ d = -1) → Completes i s (s.Undivided rt oe rc))

/-- The three ways in which a divide ends. -/
theorem divides_of_exec {s : State} {rt : RegNum} {oe rc : Bool} {i : Instr} {n d : Int}
    (exact_ : d ≠ 0 → ¬ Overflows (n.tdiv d) →
      exec i s = .next (s.divided rt (BitVec.ofInt 32 (n.tdiv d)) (BitVec.ofInt 32 (n - n.tdiv d * d)) oe false rc))
    (extreme : n = -2 ^ 31 → d = -1 → exec i s = .next (s.divided rt minWord 0 oe true rc))
    (none_ : d = 0 ∨ Overflows (n.tdiv d) → ¬ (n = -2 ^ 31 ∧ d = -1) → exec i s = .next (s.undivided rt oe rc)) :
    s.Divides rt oe rc i n d :=
  ⟨fun h1 h2 => by
      have runs := exact_ h1 h2
      rw [sub_mul_tdiv] at runs
      exact ⟨_, runs, divided_result s rt _ _ oe false rc⟩,
    fun h1 h2 => ⟨_, extreme h1 h2, divided_result s rt _ _ oe true rc⟩,
    fun h1 h2 => ⟨_, none_ h1 h2, undivided_result s rt oe rc⟩⟩

theorem div_divides (s : State) (rt ra rb : RegNum) (oe rc : Bool) :
    s.Divides rt oe rc (.div rt ra rb oe rc) (s.reg ra ++ s.mq).toInt (s.reg rb).toInt := by
  have bad : ∀ n d : Int, (d = 0 ∨ outsideWord (n.tdiv d) = true) ↔ (d = 0 ∨ Overflows (n.tdiv d)) := fun n d => by
    rw [outsideWord_eq, decide_eq_true_iff]
  have least : ∀ d : Int, (s.reg ra = 0xFFFFFFFF ∧ s.mq = minWord ∧ d = -1)
      ↔ ((s.reg ra ++ s.mq).toInt = -2 ^ 31 ∧ d = -1) := fun d => by rw [dividend_eq_min_iff, and_assoc]
  refine divides_of_exec (fun h1 h2 => ?_) (fun h1 h2 => ?_) fun h1 h2 => ?_
  · exact if_neg fun h => ((bad _ _).1 h).elim h1 h2
  · have beyond : Overflows ((s.reg ra ++ s.mq).toInt.tdiv (s.reg rb).toInt) := by rw [h1, h2]; decide
    exact (if_pos ((bad _ _).2 (.inr beyond))).trans (if_pos ((least _).2 ⟨h1, h2⟩))
  · exact (if_pos ((bad _ _).2 h1)).trans (if_neg fun h => h2 ((least _).1 h))

theorem divs_divides (s : State) (rt ra rb : RegNum) (oe rc : Bool) :
    s.Divides rt oe rc (.divs rt ra rb oe rc) (s.reg ra).toInt (s.reg rb).toInt := by
  refine divides_of_exec (fun h1 h2 => ?_) (fun h1 h2 => ?_) fun h1 h2 => ?_
  · exact (if_neg h1).trans (if_neg fun h => h2 ((overflows_tdiv_iff h1).2 ⟨(eq_minWord_iff _).1 h.1, h.2⟩))
  · have nonzero : (s.reg rb).toInt ≠ 0 := by rw [h2]; decide
    exact (if_neg nonzero).trans (if_pos ⟨(eq_minWord_iff _).2 h1, h2⟩)
  · by_cases zero : (s.reg rb).toInt = 0
    · exact if_pos zero
    · exact absurd ((overflows_tdiv_iff zero).1 (h1.resolve_left zero)) h2

/-- Settles O32. -/
theorem divisions : Obligations.Divisions := fun s rt ra rb oe rc =>
  ⟨div_divides s rt ra rb oe rc, divs_divides s rt ra rb oe rc⟩

end Sys2Proof.Machine

end

/-! ### Comparisons (R426 to R429) -/

section

namespace Sys2Proof.Machine

theorem State.setCrField_onlyCr (s : State) (f : CrField) (v : BitVec 4) : s.OnlyCr (s.setCrField f v).advance [f] :=
  ⟨fun _ hg => s.crField_setCrField_of_ne v fun e => hg (List.mem_singleton.2 e), rfl, fun _ => rfl⟩

theorem compareSigned_eq (a b : Word) (so : Bool) : compareSigned a b so =
    crNibble (decide (a.toInt < b.toInt)) (decide (b.toInt < a.toInt)) (decide (a.toInt = b.toInt)) so := by
  unfold compareSigned
  rw [BitVec.slt_eq_decide, BitVec.slt_eq_decide, decide_eq_decide.2 (BitVec.toInt_inj (x := a) (y := b))]
  rfl

theorem compareUnsigned_eq (a b : Word) (so : Bool) : compareUnsigned a b so =
    crNibble (decide ((a.toNat : Int) < b.toNat)) (decide ((b.toNat : Int) < a.toNat)) (decide ((a.toNat : Int) = b.toNat))
      so := by
  unfold compareUnsigned
  rw [BitVec.ult_eq_decide, BitVec.ult_eq_decide]
  simp only [Nat.cast_lt, Nat.cast_inj, BitVec.toNat_inj]
  rfl

/-- Settles O33. -/
theorem comparisons : Obligations.Comparisons := by
  intro s bf ra rb v
  have sets : ∀ {i : Instr} {c : BitVec 4} {m n : Int}, exec i s = .next (s.setCrField bf c).advance →
      c = crNibble (decide (m < n)) (decide (n < m)) (decide (m = n)) s.xerSO → Completes i s fun t =>
        t.crField bf = crNibble (decide (m < n)) (decide (n < m)) (decide (m = n)) s.xerSO ∧ s.OnlyCr t [bf] := by
    rintro i c m n runs rfl
    exact ⟨_, runs, s.crField_setCrField_self bf _, s.setCrField_onlyCr bf _⟩
  refine ⟨sets rfl ?_, sets rfl ?_, sets rfl (compareSigned_eq _ _ _), sets rfl (compareUnsigned_eq _ _ _)⟩
  · have value : (sext16 v).toInt = v.toInt := BitVec.toInt_signExtend_of_le (by decide)
    rw [compareSigned_eq, value]
  · have value : (0#16 ++ v : Word).toNat = v.toNat := by
      rw [BitVec.toNat_append, BitVec.toNat_zero, Nat.zero_shiftLeft, Nat.zero_or]
    rw [compareUnsigned_eq, value]

end Sys2Proof.Machine

end

/-! ### Bits of shifts, rotations and masks (R246, R446) -/

section

namespace Sys2Proof.Machine

theorem bitAt_rotl (x : Word) (n : Nat) {k : Nat} (hk : k < 32) : bitAt (rotl x n) k = bitAt x ((k + n) % 32) := by
  rw [bitAt, rotl, BitVec.getMsbD_rotateLeft, decide_eq_true hk, Bool.true_and, Nat.add_comm]
  rfl

theorem bitAt_rotr (x : Word) (n : Nat) {k : Nat} (hk : k < 32) :
    bitAt (rotr x n) k = bitAt x ((k + (32 - n)) % 32) := by
  rw [rotr, bitAt_rotl x _ hk, Nat.add_mod_mod]

theorem bitAt_shiftLeft (x : Word) (n k : Nat) :
    bitAt (x <<< n) k = (decide (k + n < 32) && bitAt x (k + n)) := by
  rw [bitAt, BitVec.getMsbD_shiftLeft]
  unfold bitAt
  by_cases h : k + n < 32
  · simp [h]
  · rw [decide_eq_false h, Bool.false_and]
    exact BitVec.getMsbD_of_ge x _ (by omega)

theorem bitAt_shiftRight (x : Word) {n k : Nat} (hk : k < 32) :
    bitAt (x >>> n) k = (decide (n ≤ k) && bitAt x (k - n)) := by
  rw [bitAt, BitVec.getMsbD_ushiftRight]
  by_cases h : n ≤ k
  · simp [h, hk, Nat.not_lt.2 h, bitAt]
  · simp [h, Nat.not_le.1 h]

theorem bitAt_sshiftRight (x : Word) {n k : Nat} (hk : k < 32) :
    bitAt (x.sshiftRight n) k = if n ≤ k then bitAt x (k - n) else x.msb := by
  rw [bitAt_eq _ hk, BitVec.getLsbD_sshiftRight]
  by_cases h : n ≤ k
  · rw [if_pos h, bitAt_eq _ (by omega)]
    simp only [show ¬ 32 ≤ 31 - k by omega, show n + (31 - k) < 32 by omega, decide_false, Bool.not_false,
      Bool.true_and, if_true]
    congr 1
    omega
  · rw [if_neg h]
    simp only [show ¬ 32 ≤ 31 - k by omega, show ¬ n + (31 - k) < 32 by omega, decide_false, Bool.not_false,
      Bool.true_and, if_false]

theorem bitAt_maskOf {b e k : Nat} (hb : b < 32) (he : e < 32) (hk : k < 32) : bitAt (maskOf b e) k = inMask b e k := by
  unfold maskOf inMask
  split
  · rw [bitAt_fieldMask (by omega), if_pos (by omega), ← Bool.decide_and]
    exact decide_eq_decide.2 (by omega)
  split
  · rw [if_neg (by omega), decide_eq_true (show b ≤ k ∨ k ≤ e by omega), bitAt, BitVec.getMsbD_allOnes]
    exact decide_eq_true hk
  · rw [bitAt_not _ hk, bitAt_fieldMask (by omega), if_neg (by omega), ← Bool.decide_and, ← decide_not]
    exact decide_eq_decide.2 (by omega)

theorem bitAt_ones {j k : Nat} (hj : j ≤ 32) (hk : k < 32) :
    bitAt (BitVec.ofNat 32 (2 ^ j - 1)) k = decide (32 - j ≤ k) := by
  rw [bitAt_eq _ hk, BitVec.getLsbD_ofNat, Nat.testBit_two_pow_sub_one, ← Bool.decide_and]
  exact decide_eq_decide.2 (by omega)

theorem leftMask_eq {n : Nat} (hn : n < 32) : leftMask n = ~~~BitVec.ofNat 32 (2 ^ n - 1) := by
  refine eq_of_bitAt fun k hk => ?_
  rw [leftMask, bitAt_maskOf (by decide) (by omega) hk, bitAt_not _ hk, bitAt_ones (by omega) hk, inMask,
    if_pos (Nat.zero_le _), ← decide_not]
  exact decide_eq_decide.2 (by omega)

theorem rightMask_eq {n : Nat} (hn : n < 32) : rightMask n = BitVec.ofNat 32 (2 ^ (32 - n) - 1) := by
  refine eq_of_bitAt fun k hk => ?_
  rw [rightMask, bitAt_maskOf hn (by decide) hk, bitAt_ones (by omega) hk, inMask, if_pos (by omega)]
  exact decide_eq_decide.2 (by omega)

theorem rotr_eq (x : Word) {n : Nat} (hn : n < 32) : rotr x n = x.rotateRight n := by
  refine eq_of_bitAt fun k hk => ?_
  have at_ : (k + (32 - n)) % 32 < 32 := Nat.mod_lt _ (by decide)
  rw [bitAt_rotr x n hk, bitAt_eq _ hk, bitAt_eq _ at_, BitVec.getLsbD_rotateRight, Nat.mod_eq_of_lt hn]
  by_cases h : 31 - k < 32 - n
  · simp only [h, decide_true, cond_true]
    congr 1
    omega
  · simp only [h, decide_false, cond_false, show 31 - k < 32 by omega, decide_true, Bool.true_and]
    congr 1
    omega

/-- A left shift is a rotation under a mask (R454). -/
theorem rotl_and_leftMask (x : Word) {n : Nat} (hn : n < 32) : rotl x n &&& leftMask n = x <<< n := by
  refine eq_of_bitAt fun k hk => ?_
  rw [bitAt_and, bitAt_rotl x n hk, leftMask_eq hn, bitAt_not _ hk, bitAt_ones (by omega) hk, bitAt_shiftLeft x,
    ← decide_not, Bool.and_comm]
  by_cases h : k + n < 32
  · rw [Nat.mod_eq_of_lt h, decide_eq_true h, decide_eq_true (by omega)]
  · rw [decide_eq_false h, decide_eq_false (by omega)]
    rfl

/-- A right shift is a rotation under a mask (R455). -/
theorem rotr_and_rightMask (x : Word) {n : Nat} (hn : n < 32) : rotr x n &&& rightMask n = x >>> n := by
  refine eq_of_bitAt fun k hk => ?_
  rw [bitAt_and, bitAt_rotr x n hk, rightMask_eq hn, bitAt_ones (by omega) hk, bitAt_shiftRight x hk, Bool.and_comm]
  by_cases h : n ≤ k
  · rw [decide_eq_true h, decide_eq_true (by omega)]
    congr 2
    omega
  · rw [decide_eq_false h, decide_eq_false (by omega)]
    rfl

/-- What a right shift takes off, at the left end of a word. -/
theorem rotr_and_not_rightMask (x : Word) {n : Nat} (hn : n < 32) :
    rotr x n &&& ~~~rightMask n = x <<< (32 - n) := by
  refine eq_of_bitAt fun k hk => ?_
  rw [bitAt_and, bitAt_rotr x n hk, rightMask_eq hn, bitAt_not _ hk, bitAt_ones (by omega) hk, bitAt_shiftLeft x,
    ← decide_not, Bool.and_comm]
  by_cases h : k < n
  · rw [Nat.mod_eq_of_lt (by omega), decide_eq_true (by omega), decide_eq_true (by omega)]
  · rw [decide_eq_false (by omega), decide_eq_false (by omega)]
    rfl

theorem merge_leftMask (x q : Word) {n : Nat} (hn : n < 32) :
    merge (leftMask n) (rotl x n) q = x <<< n ||| q &&& BitVec.ofNat 32 (2 ^ n - 1) := by
  rw [merge, rotl_and_leftMask x hn, leftMask_eq hn, BitVec.not_not]

theorem merge_rightMask (x q : Word) {n : Nat} (hn : n < 32) :
    merge (rightMask n) (rotr x n) q = x >>> n ||| q &&& ~~~BitVec.ofNat 32 (2 ^ (32 - n) - 1) := by
  rw [merge, rotr_and_rightMask x hn, rightMask_eq hn]

theorem bitAt_merge (m a b : Word) {k : Nat} (hk : k < 32) :
    bitAt (merge m a b) k = if bitAt m k then bitAt a k else bitAt b k := by
  rw [merge, bitAt_or, bitAt_and, bitAt_and, bitAt_not _ hk]
  cases bitAt m k <;> simp

end Sys2Proof.Machine

end

/-! ### Logical instructions, rotate and mask, shifts (R430 to R472) -/

section

namespace Sys2Proof.Machine

/-- The end of a logical instruction. -/
theorem logical_result (s : State) (rd : RegNum) (v : Word) (rc : Bool) :
    FixedResult s (s.logical rd v rc) rd v v none false false rc :=
  s.arith_result rd v false false rc

@[simp] theorem logical_mq (s : State) (rd : RegNum) (v : Word) (rc : Bool) : (s.logical rd v rc).mq = s.mq :=
  s.arith_mq rd v false false rc

theorem yields_of_exec {s : State} {i : Instr} {rd : RegNum} {v w : Word} {rc : Bool}
    (runs : exec i s = .next (s.logical rd v rc)) (value : v = w) : Yields s i rd w rc := by
  subst value
  exact ⟨_, runs, logical_result s rd v rc, logical_mq s rd v rc⟩

theorem yieldsMq_of_exec {s : State} {i : Instr} {rd : RegNum} {v w q r : Word} {rc : Bool}
    (runs : exec i s = .next (s.shiftQ rd v q rc)) (value : v = w) (mq : q = r) : YieldsMq s i rd w r rc := by
  subst value mq
  exact ⟨_, runs, FixedResult.after_mq (mq := q) (draws := s.draws) (logical_result _ rd v rc), logical_mq _ rd v rc⟩

/-! #### Logical instructions -/

theorem zero_append_half (v : Half) : 0#16 ++ v = v.setWidth 32 := by
  ext k hk
  rw [BitVec.getElem_append, BitVec.getElem_setWidth]
  by_cases h : k < 16
  · simp [h]
  · simp [h, BitVec.getLsbD_of_ge v k (by omega)]

theorem half_append_zero (v : Half) : v ++ 0#16 = (v.setWidth 32 : Word) <<< 16 := by
  ext k hk
  rw [BitVec.getElem_append, BitVec.getElem_shiftLeft]
  by_cases h : k < 16
  · simp [h]
  · simp only [h, dif_neg, not_false_eq_true, decide_false, Bool.not_false, Bool.true_and, BitVec.getElem_setWidth]
    exact (BitVec.getLsbD_eq_getElem _).symm

/-- The count of cntlz, from bit i on. -/
theorem leadingZeros_eq {v : Word} {m i j : Nat} (zeros : ∀ k, i ≤ k → k < i + j → bitAt v k = false) (hj : j ≤ m)
    (stop : j = m ∨ bitAt v (i + j) = true) : leadingZeros v m i = j := by
  induction m generalizing i j with
  | zero => exact (Nat.le_zero.1 hj).symm
  | succ m ih =>
    unfold leadingZeros
    cases j with
    | zero => rw [if_pos (show bitAt v i = true from stop.resolve_left (by omega))]
    | succ j =>
      rw [if_neg (by rw [zeros i (Nat.le_refl i) (by omega)]; decide),
        ih (i := i + 1) (j := j) (fun k h1 h2 => zeros k (by omega) (by omega)) (by omega)
          (stop.imp (by omega) fun h => by rw [← h]; congr 1; omega), Nat.add_comm]

/-- Settles O34. -/
theorem logicalInstructions : Obligations.LogicalInstructions := by
  intro s rs ra rb ui rc
  have low : ∀ f : Word → Word, f (0#16 ++ ui) = f (ui.setWidth 32) := fun f => congrArg f (zero_append_half ui)
  have high : ∀ f : Word → Word, f (ui ++ 0#16) = f ((ui.setWidth 32 : Word) <<< 16) := fun f =>
    congrArg f (half_append_zero ui)
  refine ⟨yields_of_exec rfl (low fun w => s.reg rs &&& w), yields_of_exec rfl (high fun w => s.reg rs &&& w),
    yields_of_exec rfl (low fun w => s.reg rs ||| w), yields_of_exec rfl (high fun w => s.reg rs ||| w),
    yields_of_exec rfl (low fun w => s.reg rs ^^^ w), yields_of_exec rfl (high fun w => s.reg rs ^^^ w),
    yields_of_exec rfl rfl, yields_of_exec rfl rfl, yields_of_exec rfl rfl, yields_of_exec rfl rfl,
    yields_of_exec rfl rfl, yields_of_exec rfl rfl, yields_of_exec rfl rfl, yields_of_exec rfl rfl,
    yields_of_exec rfl rfl, fun n hn zeros stop => yields_of_exec rfl (congrArg (BitVec.ofNat 32) ?_)⟩
  exact leadingZeros_eq (fun k _ hk => zeros k (by omega)) hn (stop.imp id fun h => by rw [Nat.zero_add]; exact h)

/-! #### Rotate and mask -/

/-- A count is less than 32. -/
theorem State.count_lt (s : State) (rb : RegNum) : s.count rb < 32 := (bitsAt (s.reg rb) 27 5).isLt

theorem yields_bits {s : State} {i : Instr} {rd : RegNum} {v : Word} {rc : Bool} {f : Nat → Bool}
    (runs : exec i s = .next (s.logical rd v rc)) (bits : ∀ k, k < 32 → bitAt v k = f k) (w : Word)
    (hw : ∀ k, k < 32 → bitAt w k = f k) : Yields s i rd w rc :=
  yields_of_exec runs (eq_of_bitAt fun k hk => (bits k hk).trans (hw k hk).symm)

/-- Settles O35: the mask, the rotation and the merge, each bit by bit. -/
theorem rotateAndMask : Obligations.RotateAndMask := by
  intro s rs ra rb sh mb me rc
  have mask : ∀ k, k < 32 → bitAt (maskOf mb.toNat me.toNat) k = inMask mb.toNat me.toNat k := fun k hk =>
    bitAt_maskOf mb.isLt me.isLt hk
  have rotated : ∀ n, n < 32 → ∀ k, k < 32 → bitAt (rotl (s.reg rs) n) k = bitAt (s.reg rs) ((k + n) % 32) :=
    fun n hn k hk => bitAt_rotl (s.reg rs) n hk
  have inserted : ∀ n, n < 32 → ∀ k, k < 32 →
      bitAt (merge (maskOf mb.toNat me.toNat) (rotl (s.reg rs) n) (s.reg ra)) k
        = if inMask mb.toNat me.toNat k then bitAt (s.reg rs) ((k + n) % 32) else bitAt (s.reg ra) k :=
    fun n hn k hk => by rw [bitAt_merge _ _ _ hk, mask k hk, rotated n hn k hk]
  have under : ∀ n, n < 32 → ∀ k, k < 32 → bitAt (rotl (s.reg rs) n &&& maskOf mb.toNat me.toNat) k
      = (inMask mb.toNat me.toNat k && bitAt (s.reg rs) ((k + n) % 32)) :=
    fun n hn k hk => by rw [bitAt_and, mask k hk, rotated n hn k hk, Bool.and_comm]
  refine ⟨yields_bits rfl (inserted _ sh.isLt), yields_bits rfl (under _ sh.isLt),
    yields_bits rfl (inserted _ (s.count_lt rb)), yields_bits rfl (under _ (s.count_lt rb)),
    yields_bits rfl fun k hk => ?rrib, yields_bits rfl fun k hk => ?maskg,
    yields_bits rfl fun k hk => bitAt_merge _ _ _ hk⟩
  case rrib =>
    rw [bitAt_setBit _ (s.count_lt rb) hk]
    simp only [eq_comm, State.count]
  case maskg =>
    rw [bitAt_maskOf (s.count_lt rs) (s.count_lt rb) hk]
    show inMask (s.count rs) (s.count rb) k
      = if s.count rs = s.count rb + 1 then true else inMask (s.count rs) (s.count rb) k
    split
    · next all =>
      unfold inMask
      rw [all, if_neg (by omega), decide_eq_true (by omega)]
    · rfl

/-! #### Logical shifts -/

/-- Settles O36. -/
theorem logicalShifts : Obligations.LogicalShifts := by
  intro s rs ra rb sh rc
  have hn := s.count_lt rb
  have hk := sh.isLt
  have left : ∀ far : Bool, (rotl (s.reg rs) (s.count rb) &&& if far then 0 else leftMask (s.count rb))
      = if far then 0 else s.reg rs <<< s.count rb := fun far => by
    cases far with
    | true => exact BitVec.and_zero
    | false => exact rotl_and_leftMask _ hn
  have right : ∀ far : Bool, (rotr (s.reg rs) (s.count rb) &&& if far then 0 else rightMask (s.count rb))
      = if far then 0 else s.reg rs >>> s.count rb := fun far => by
    cases far with
    | true => exact BitVec.and_zero
    | false => exact rotr_and_rightMask _ hn
  refine ⟨yields_of_exec rfl (left _), yields_of_exec rfl (right _), yieldsMq_of_exec rfl (left _) rfl,
    yieldsMq_of_exec rfl (right _) (rotr_eq _ hn), yieldsMq_of_exec rfl (rotl_and_leftMask _ hk) rfl,
    yieldsMq_of_exec rfl (rotr_and_rightMask _ hk) (rotr_eq _ hk), yieldsMq_of_exec rfl (merge_leftMask _ _ hk) rfl,
    yieldsMq_of_exec rfl (merge_rightMask _ _ hk) (rotr_eq _ hk), yields_of_exec rfl ?sllq, yields_of_exec rfl ?srlq,
    yieldsMq_of_exec rfl (rotl_and_leftMask _ hn) rfl, yieldsMq_of_exec rfl (rotr_and_rightMask _ hn) (rotr_eq _ hn),
    yieldsMq_of_exec rfl (merge_leftMask _ _ hn) rfl, yieldsMq_of_exec rfl (merge_rightMask _ _ hn) (rotr_eq _ hn)⟩
  case sllq => rw [merge_leftMask _ _ hn, leftMask_eq hn]; rfl
  case srlq => rw [merge_rightMask _ _ hn, rightMask_eq hn]; rfl

/-! #### Algebraic shifts -/

theorem sshiftRight_eq_ofInt (a : Word) (n : Nat) : a.sshiftRight n = BitVec.ofInt 32 (a.toInt / 2 ^ n) := by
  rw [BitVec.sshiftRight_eq, Int.shiftRight_eq_div_pow]
  push_cast
  rfl

theorem bitAt_sign (a : Word) {k : Nat} (hk : k < 32) :
    bitAt (if a.msb then BitVec.allOnes 32 else 0 : Word) k = a.msb := by
  cases a.msb with
  | false => exact bitAt_zero k
  | true => exact BitVec.getMsbD_allOnes.trans (decide_eq_true hk)

/-- A rotation to the right with the sign where the mask of the shift is 0 (R468). -/
theorem algebraic_value (a : Word) {n : Nat} (hn : n < 32) :
    merge (rightMask n) (rotr a n) (if a.msb then BitVec.allOnes 32 else 0) = a.sshiftRight n := by
  refine eq_of_bitAt fun k hk => ?_
  rw [bitAt_merge _ _ _ hk, rightMask_eq hn, bitAt_ones (by omega) hk, bitAt_rotr a n hk, bitAt_sign a hk,
    bitAt_sshiftRight a hk]
  by_cases h : n ≤ k
  · rw [if_pos h, decide_eq_true (by omega), if_pos rfl]
    congr 1
    omega
  · rw [if_neg h, decide_eq_false (by omega), if_neg (by decide)]

theorem algebraic_value_far (a r : Word) :
    merge 0 r (if a.msb then BitVec.allOnes 32 else 0) = a.sshiftRight 32 := by
  refine eq_of_bitAt fun k hk => ?_
  rw [bitAt_merge _ _ _ hk, bitAt_zero, bitAt_sign a hk, bitAt_sshiftRight a hk, if_neg (by decide), if_neg (by omega)]

theorem toInt_emod (a : Word) {n : Nat} (hn : n ≤ 32) : a.toInt % 2 ^ n = (a.toNat % 2 ^ n : Nat) := by
  have whole : ((2 : Int) ^ n) ∣ ((2 ^ 32 : Nat) : Int) := by
    push_cast
    exact pow_dvd_pow 2 hn
  rw [BitVec.toInt_eq_toNat_bmod, ← Int.emod_emod_of_dvd _ whole, Int.bmod_emod, Int.emod_emod_of_dvd _ whole]
  push_cast
  rfl

/-- A shift to the right loses no 1 when it loses nothing of the number. -/
theorem shifted_out_iff (a : Word) {n : Nat} (hn : n < 32) :
    rotr a n &&& ~~~rightMask n = 0 ↔ a.toNat % 2 ^ n = 0 := by
  have product : (2 : Nat) ^ 32 = 2 ^ n * 2 ^ (32 - n) := by rw [← pow_add]; congr 1; omega
  rw [rotr_and_not_rightMask a hn, ← BitVec.toNat_inj, BitVec.toNat_shiftLeft, Nat.shiftLeft_eq, product,
    Nat.mul_mod_mul_right]
  exact Nat.mul_eq_zero.trans (or_iff_left (Nat.two_pow_pos _).ne')

theorem algebraic_carry (a : Word) {n : Nat} (hn : n < 32) : (a.msb && (rotr a n &&& ~~~rightMask n) != 0)
    = decide (a.toInt < 0 ∧ a.toInt % 2 ^ n ≠ 0) := by
  rw [BitVec.msb_eq_toInt, Bool.decide_and, toInt_emod a (by omega), Bool.eq_iff_iff]
  simp only [Bool.and_eq_true, decide_eq_true_iff, bne_iff_ne, ne_eq, shifted_out_iff a hn, Nat.cast_eq_zero]

theorem rotr_eq_zero_iff (a : Word) {n : Nat} (hn : n < 32) : rotr a n = 0 ↔ a = 0 := by
  constructor
  · intro h
    refine eq_of_bitAt fun k hk => ?_
    have at_ := congrArg (fun w => bitAt w ((k + n) % 32)) h
    simp only [bitAt_rotr a n (Nat.mod_lt _ (by decide)), bitAt_zero] at at_
    rw [bitAt_zero, ← at_]
    congr 1
    omega
  · rintro rfl
    refine eq_of_bitAt fun k hk => ?_
    rw [bitAt_rotr 0 n hk, bitAt_zero, bitAt_zero]

theorem algebraic_carry_far (a : Word) {n : Nat} (hn : n < 32) : (a.msb && (rotr a n &&& ~~~(0 : Word)) != 0)
    = decide (a.toInt < 0 ∧ a.toInt % 2 ^ 32 ≠ 0) := by
  have full : ~~~(0 : Word) = BitVec.allOnes 32 := rfl
  have same : a.toNat = 0 ↔ a = 0 := ⟨fun h => BitVec.eq_of_toNat_eq h, fun h => by rw [h]; rfl⟩
  rw [BitVec.msb_eq_toInt, Bool.decide_and, toInt_emod a (Nat.le_refl 32), Bool.eq_iff_iff, full, BitVec.and_allOnes,
    Nat.mod_eq_of_lt a.isLt]
  simp only [Bool.and_eq_true, decide_eq_true_iff, bne_iff_ne, ne_eq, rotr_eq_zero_iff a hn, Nat.cast_eq_zero, same]

/-- An algebraic shift of `a`, which may be by 32 or more. -/
theorem algebraic_result (s : State) (ra : RegNum) (a : Word) {n : Nat} (hn : n < 32) (far rc : Bool) (q : Word)
    (draws : Nat) :
    let k := if far then 32 else n
    FixedResult s (({ s with mq := q, draws := draws } : State).algebraic ra a (rotr a n)
        (if far then 0 else rightMask n) rc) ra (BitVec.ofInt 32 (a.toInt / 2 ^ k)) (BitVec.ofInt 32 (a.toInt / 2 ^ k))
        (some (decide (a.toInt < 0 ∧ a.toInt % 2 ^ k ≠ 0))) false false rc
      ∧ (({ s with mq := q, draws := draws } : State).algebraic ra a (rotr a n)
        (if far then 0 else rightMask n) rc).mq = q := by
  intro k
  generalize hu : ({ s with mq := q, draws := draws } : State) = u
  have mq : u.mq = q := by rw [← hu]
  have value : merge (if far then 0 else rightMask n) (rotr a n) (if a.msb then BitVec.allOnes 32 else 0)
      = BitVec.ofInt 32 (a.toInt / 2 ^ k) := by
    rw [← sshiftRight_eq_ofInt]
    cases far with
    | false => exact algebraic_value a hn
    | true => exact algebraic_value_far a _
  have carry : (a.msb && (rotr a n &&& ~~~(if far then (0 : Word) else rightMask n)) != 0)
      = decide (a.toInt < 0 ∧ a.toInt % 2 ^ k ≠ 0) := by
    cases far with
    | false => exact algebraic_carry a hn
    | true => exact algebraic_carry_far a hn
  unfold State.algebraic
  simp only [value, carry]
  refine ⟨FixedResult.after_mq (mq := q) (draws := draws) (hu ▸ State.arith_setCA_result _ ra _ _ false false rc), ?_⟩
  exact (logical_mq _ ra _ rc).trans mq

/-- Settles O37. -/
theorem algebraicShifts : Obligations.AlgebraicShifts := by
  intro s rs ra rb sh rc
  have hn := s.count_lt rb
  have byReg := fun (far : Bool) q draws => algebraic_result s ra (s.reg rs) hn far rc q draws
  have byImm := fun q draws => algebraic_result s ra (s.reg rs) sh.isLt false rc q draws
  refine ⟨⟨_, rfl, (byReg (s.bit26 rb) s.drawWord.1 (s.draws + 1)).1, trivial⟩,
    ⟨_, rfl, (byImm s.drawWord.1 (s.draws + 1)).1, trivial⟩, ⟨_, rfl, ?sraq⟩, ⟨_, rfl, ?sraiq⟩, ⟨_, rfl, ?srea⟩⟩
  case sraq => exact rotr_eq (s.reg rs) hn ▸ byReg (s.bit26 rb) (rotr (s.reg rs) (s.count rb)) s.draws
  case sraiq => exact rotr_eq (s.reg rs) sh.isLt ▸ byImm (rotr (s.reg rs) sh.toNat) s.draws
  case srea => exact rotr_eq (s.reg rs) hn ▸ byReg false (rotr (s.reg rs) (s.count rb)) s.draws

end Sys2Proof.Machine

end

/-! ### Branches and the condition register (R281 to R301) -/

section

namespace Sys2Proof.Machine

open Host (Outcome)

/-! #### Branches -/

/-- A displacement in words, as the statements count it. -/
theorem displacement_eq_ofInt {n : Nat} (d : BitVec n) :
    (d ++ 0#2).signExtend 32 = BitVec.ofInt 32 (4 * d.toInt) := by
  have scaled : (d ++ 0#2).toInt = 4 * d.toInt := BitVec.toInt_append_zero
  rw [BitVec.signExtend, scaled]

theorem target_eq_ofInt {n : Nat} (s : State) (d : BitVec n) (aa : Bool) :
    (if aa then (d ++ 0#2).signExtend 32 else s.pc + (d ++ 0#2).signExtend 32)
      = BitVec.ofInt 32 ((if aa then 0 else (s.pc.toNat : Int)) + 4 * d.toInt) := by
  cases aa with
  | true => rw [if_pos rfl, if_pos rfl, displacement_eq_ofInt, Int.zero_add]
  | false => rw [if_neg Bool.false_ne_true, if_neg Bool.false_ne_true, displacement_eq_ofInt, BitVec.ofInt_add,
      ofInt_toNat]

/-- The model's test of BO (R284). -/
theorem boTaken_iff (s : State) (bo bi : BitVec 5) : s.boTaken bo bi = true ↔ BranchTaken s bo bi (s.boCtr bo) := by
  have zero : (s.boCtr bo != 0) = true ↔ s.boCtr bo ≠ 0 := bne_iff_ne
  unfold State.boTaken BranchTaken State.crBit
  simp only [Bool.and_eq_true, Bool.or_eq_true, beq_iff_eq]
  refine and_congr (or_congr Iff.rfl ?_) Iff.rfl
  cases hb : bo.getMsbD 3 <;> cases hz : (s.boCtr bo != 0) <;> simp_all

/-- What a branch leaves, by whether it is taken. -/
def State.Goes (s : State) (bo bi : BitVec 5) (lk : Bool) (i : Instr) (ctr c : Word) (target : Word → Prop) : Prop :=
  Completes i s fun t =>
    (BranchTaken s bo bi ctr → target t.pc) ∧ (¬ BranchTaken s bo bi ctr → t.pc = s.pc + 4)
      ∧ t = { s with pc := t.pc, lr := if lk then s.pc + 4 else s.lr, ctr := c, draws := t.draws }

theorem goes_of_exec {s : State} {bo bi : BitVec 5} {lk : Bool} {i : Instr} {target : Word} {draws : Nat}
    {p : Word → Prop}
    (runs : exec i s = .next (({ s with draws := draws } : State).branch (s.boTaken bo bi) target (s.boCtr bo) lk))
    (hp : p target) : s.Goes bo bi lk i (s.boCtr bo) (s.boCtr bo) p := by
  refine ⟨_, runs, fun taken => ?_, fun untaken => ?_, rfl⟩
  · show p (if s.boTaken bo bi then target else _)
    rw [if_pos ((boTaken_iff s bo bi).2 taken)]
    exact hp
  · exact if_neg (mt (boTaken_iff s bo bi).1 untaken)

theorem bcc_goes (s : State) (bo bi : BitVec 5) (lk : Bool) :
    s.Goes bo bi lk (.bcc bo bi lk) (s.boCtr bo) (s.boCtr bo)
      fun p => p = s.ctr &&& 0xFFFFFFFC ∨ p = s.boCtr bo &&& 0xFFFFFFFC := by
  by_cases h : bo.getMsbD 2 = true
  · have kept : s.ctr = s.boCtr bo := (if_pos h).symm
    refine goes_of_exec (draws := s.draws) (target := wordAlign s.ctr) ((if_pos h).trans ?_) (.inl rfl)
    rw [← kept]
  · refine goes_of_exec (draws := s.draws + 1)
      (target := wordAlign (if s.drawBit.1 then s.ctr else s.boCtr bo)) (if_neg h) ?_
    cases s.drawBit.1 with
    | true => exact .inl rfl
    | false => exact .inr rfl

/-- Settles O38. -/
theorem branches : Obligations.Branches := by
  intro s li bd bo bi aa lk
  have bc : s.Goes bo bi lk (.bc bo bi bd aa lk) (s.boCtr bo) (s.boCtr bo) fun p =>
      p = BitVec.ofInt 32 ((if aa then 0 else (s.pc.toNat : Int)) + 4 * bd.toInt) :=
    goes_of_exec (draws := s.draws) (target := s.targetB bd aa) rfl (target_eq_ofInt s bd aa)
  have bcr : s.Goes bo bi lk (.bcr bo bi lk) (s.boCtr bo) (s.boCtr bo) fun p => p = s.lr &&& 0xFFFFFFFC :=
    goes_of_exec (draws := s.draws) (target := wordAlign s.lr) rfl rfl
  refine ⟨?b, bc, bcr, bcc_goes s bo bi lk⟩
  have target : s.targetI li aa = BitVec.ofInt 32 ((if aa then 0 else (s.pc.toNat : Int)) + 4 * li.toInt) :=
    target_eq_ofInt s li aa
  exact congrArg (fun p => Host.Outcome.next { s with pc := p, lr := if lk then s.pc + 4 else s.lr }) target

/-! #### The condition register -/

/-- What an instruction leaves that writes bit BT of the condition register. -/
def State.SetsCrBit (s : State) (bt : BitVec 5) (i : Instr) (v : Bool) : Prop := Completes i s fun t =>
  bitAt t.cr bt.toNat = v ∧ (∀ n, n < 32 → n ≠ bt.toNat → bitAt t.cr n = bitAt s.cr n)
    ∧ t = { s with cr := t.cr, pc := s.pc + 4 } ∧ s.SameMemory t

theorem setsCrBit_of_exec {s : State} {f : Bool → Bool → Bool} {bt ba bb : BitVec 5} {i : Instr} {v : Bool}
    (runs : exec i s = .next (s.crLogic f bt ba bb)) (value : f (bitAt s.cr ba.toNat) (bitAt s.cr bb.toNat) = v) :
    s.SetsCrBit bt i v := by
  refine ⟨_, runs, (bitAt_setBit_self s.cr bt.isLt _).trans value, fun n hn hne => ?_, rfl, fun _ => rfl⟩
  exact bitAt_setBit_of_ne s.cr bt.isLt hn (Ne.symm hne) _

/-- Settles O39. -/
theorem conditionRegisterInstructions : Obligations.ConditionRegisterInstructions := by
  intro s bf bfa bt ba bb a b
  have sets : ∀ {f : Bool → Bool → Bool} {i : Instr} {v : Bool}, exec i s = .next (s.crLogic f bt ba bb) → f a b = v →
      s.SetsCrBit bt i v := setsCrBit_of_exec
  refine ⟨⟨_, rfl, s.crField_setCrField_self bf _, s.setCrField_onlyCr bf _⟩, sets rfl rfl, sets rfl rfl, sets rfl ?_,
    sets rfl rfl, sets rfl rfl, sets rfl ?_, sets rfl rfl, sets rfl rfl⟩
  · cases a <;> cases b <;> rfl
  · cases a <;> cases b <;> rfl

end Sys2Proof.Machine

end

/-! ### Interrupts and returns (R292, R311, R682 to R687) -/

section

namespace Sys2Proof.Machine

theorem bitsAt_wordAlign (v : Word) : bitsAt (wordAlign v) 0 30 = bitsAt v 0 30 ∧ bitsAt (wordAlign v) 30 2 = 0 := by
  have mask : ∀ k, k < 32 → bitAt (0xFFFFFFFC : Word) k = decide (k < 30) := by decide
  constructor
  · refine BitVec.eq_of_getMsbD_eq fun j hj => ?_
    rw [getMsbD_bitsAt _ (by decide) hj, getMsbD_bitsAt _ (by decide) hj, wordAlign, bitAt_and, mask _ (by omega),
      decide_eq_true (by omega), Bool.and_true]
  · refine BitVec.eq_of_getMsbD_eq fun j hj => ?_
    rw [getMsbD_bitsAt _ (by decide) hj, wordAlign, bitAt_and, mask _ (by omega), decide_eq_false (by omega),
      Bool.and_false]
    exact BitVec.getMsbD_zero.symm

theorem bitAt_clearedMsr (m : Config.Impl) (k : IntKind) : ∀ n, n < 32 → bitAt (clearedMsr m k) n =
    ([16, 17, 18, 20, 24, 26, 27].contains n || (k == .machineCheck && n == 19)
      || (m == .power2 && [21, 22, 23, 29].contains n)) := by
  cases m <;> cases k <;> decide

/-- Settles O11. -/
theorem interruptEntry : Obligations.InterruptEntry := by
  intro s k addr info
  have address := bitsAt_wordAlign addr
  refine ⟨address.1, address.2, bitsAt_append_high _ _, bitsAt_append_low _ _, fun n hn => ?_, ?_, rfl⟩
  · show bitAt (s.msr &&& ~~~clearedMsr s.cfg.impl k) n = _
    rw [bitAt_and, bitAt_not _ hn, bitAt_clearedMsr _ _ n hn, Bool.not_or, Bool.not_or]
    simp only [Bool.and_assoc]
  · cases k <;> rfl

/-- The bits of the MSR after its low half has been restored (R28). -/
theorem bitAt_restoredMsr (s : State) (w : Word) {n : Nat} (hn : n < 32) :
    bitAt (setBits s.msr 16 16 (w.extractLsb' 0 16) &&& msrMask s.cfg.impl) n
      = (bitAt (msrMask s.cfg.impl) n && (if n < 16 then bitAt s.msr n else bitAt w n)) := by
  have field : w.extractLsb' 0 16 = bitsAt w 16 16 := rfl
  rw [bitAt_and, bitAt_setBits _ (by decide) _ hn, Bool.and_comm, field]
  by_cases h : n < 16
  · rw [if_pos h, if_neg (by omega)]
  · rw [if_neg h, if_pos (by omega), getMsbD_bitsAt _ (by decide) (by omega)]
    congr 2
    omega

/-- The MSR that an interrupt has changed, restored. -/
theorem restored_interrupt_msr {s : State} (h : s.msr &&& msrMask s.cfg.impl = s.msr) (k : IntKind) (addr : Word)
    (info : Half) :
    setBits (s.interrupt k addr info).msr 16 16 ((s.interrupt k addr info).srr1.extractLsb' 0 16)
      &&& msrMask s.cfg.impl = s.msr := by
  have high : ∀ n, n < 16 → bitAt (msrMask s.cfg.impl) n = false := by
    cases s.cfg.impl <;> decide
  refine eq_of_bitAt fun n hn => ?_
  have within : bitAt s.msr n = (bitAt s.msr n && bitAt (msrMask s.cfg.impl) n) := by rw [← bitAt_and, h]
  refine (bitAt_restoredMsr (s.interrupt k addr info) (s.interrupt k addr info).srr1 hn).trans ?_
  show (bitAt (msrMask s.cfg.impl) n && _) = _
  split
  · next low =>
    rw [within, high n low, Bool.false_and, Bool.and_false]
  · next low =>
    have saved : bitAt (s.interrupt k addr info).srr1 n = bitAt s.msr n := by
      show bitAt (info ++ s.msr.extractLsb' 0 16) n = _
      have field := bitsAt_append_low info (s.msr.extractLsb' 0 16)
      have : (bitsAt (info ++ s.msr.extractLsb' 0 16) 16 16).getMsbD (n - 16)
          = (s.msr.extractLsb' 0 16).getMsbD (n - 16) := congrArg (BitVec.getMsbD · (n - 16)) field
      rw [getMsbD_bitsAt _ (by decide) (by omega)] at this
      have source : (s.msr.extractLsb' 0 16).getMsbD (n - 16) = bitAt s.msr (16 + (n - 16)) :=
        getMsbD_bitsAt s.msr (i := 16) (by decide) (by omega)
      rw [source, Nat.add_sub_cancel' (by omega)] at this
      exact this
    rw [saved, Bool.and_comm, ← within]

/-- Settles O12. -/
theorem returnFromInterrupt : Obligations.ReturnFromInterrupt := by
  refine ⟨fun s privileged => ⟨s.returnFromInterrupt, privileged_on privileged _,
    { s with msr := setBits s.msr 16 16 (s.srr1.extractLsb' 0 16) &&& msrMask s.cfg.impl, pc := wordAlign s.srr0,
             pf := [], sdrBefore := [] },
    fun n hn => bitAt_restoredMsr s s.srr1 hn, (bitsAt_wordAlign s.srr0).1, (bitsAt_wordAlign s.srr0).2, rfl, rfl⟩, ?_⟩
  intro s k legal silent
  have privileged : (s.interrupt k s.pc 0).msrPR = false := by
    show bitAt (s.msr &&& ~~~clearedMsr s.cfg.impl k) 17 = false
    rw [bitAt_and, bitAt_not _ (by decide), bitAt_clearedMsr _ _ 17 (by decide)]
    exact Bool.and_false _
  have msr := restored_interrupt_msr legal.msr k s.pc 0
  have pc : wordAlign (s.interrupt k s.pc 0).srr0 = s.pc :=
    (wordAlign_wordAlign s.pc).trans legal.pc
  have noTrap : ¬ (s.msrFE && s.fex) = true := fun h => silent (Bool.and_eq_true_iff.1 h)
  refine (privileged_on privileged _).trans (congrArg Host.Outcome.next ?_)
  unfold State.returnFromInterrupt State.setMsr State.afterMsr
  simp only [pc]
  rw [show (s.interrupt k s.pc 0).cfg = s.cfg from rfl, msr]
  exact if_neg noTrap

/-- Settles O14. -/
theorem returnFromSupervisorCall : Obligations.ReturnFromSupervisorCall := by
  intro lk s privileged
  let u : State := { s with
    msr := setBits s.msr 16 16 (s.ctr.extractLsb' 0 16) &&& msrMask s.cfg.impl, pc := wordAlign s.lr, pf := [],
    sdrBefore := [], lr := if lk then s.drawWord.1 else s.lr, draws := if lk then s.draws + 1 else s.draws }
  have runs : exec (.rfsvc lk) s = .next u.afterMsr := by
    refine (privileged_on privileged _).trans ?_
    cases lk <;> rfl
  refine ⟨u.afterMsr, runs, u, fun n hn => bitAt_restoredMsr s s.ctr hn, (bitsAt_wordAlign s.lr).1,
    (bitsAt_wordAlign s.lr).2, ?_, rfl, rfl⟩
  rintro rfl
  exact ⟨rfl, rfl⟩

end Sys2Proof.Machine

end

/-! ### Privilege, register numbers, floating-point availability (R497, R498, R708, R716) -/

section

namespace Sys2Proof.Machine

theorem privileged_off {s : State} (h : s.msrPR = true) (f : Host.Outcome State Fault Refusal) :
    privileged s f = .next (s.interrupt .program s.pc 0x0004) := if_pos h

theorem needFp_off {s : State} (h : s.msrFP = false) (f : Host.Outcome State Fault Refusal) :
    needFp s f = .next (s.interrupt .fpUnavailable s.pc 0) := if_neg (by rw [h]; decide)

theorem exec_isPrivileged {i : Instr} {s : State} (hi : i.isPrivileged = true) (h : s.msrPR = true) :
    exec i s = .next (s.interrupt .program s.pc 0x0004) := by
  cases i with
  | rfi | rfsvc | mtmsr | mtsr | mtsri | tlbi | rac | cli => exact privileged_off h _
  | _ => cases hi

/-- Settles O16: each floating-point instruction tests MSR(FP) before anything else. -/
theorem floatingPointUnavailable : Obligations.FloatingPointUnavailable := by
  intro i s float off
  cases i with
  | lfs | lfsu | lfsx | lfsux | lfd | lfdu | lfdx | lfdux | stfs | stfsu | stfsx | stfsux | stfd | stfdu | stfdx
  | stfdux | lfq | lfqu | lfqx | lfqux | stfq | stfqu | stfqx | stfqux | fmr | fneg | fabs | fnabs | fa | fs | fm | fd
  | fma | fms | fnma | fnms | frsp | fcir | fcirz | fsqrt | fcmpu | fcmpo | mffs | mcrfs | mtfsf | mtfsfi | mtfsb0
  | mtfsb1 => exact needFp_off off _
  | _ => cases float

/-! #### Register numbers -/

theorem mtspr_unnamed {s : State} {n : BitVec 5} (h : sprTo s.cfg n = none) (r : RegNum) :
    exec (.mtspr r n) s = .next (s.interrupt .program s.pc 0x0008) := by
  show execMtspr r n s = _
  unfold execMtspr
  rw [h]
  rfl

theorem mfspr_unnamed {s : State} {n : BitVec 5} (h : sprFrom s.cfg n = none) (r : RegNum) :
    exec (.mfspr r n) s = .next (s.interrupt .program s.pc 0x0008) := by
  show execMfspr r n s = _
  unfold execMfspr
  rw [h]
  rfl

theorem mtspr_problem {s : State} {n : BitVec 5} {x : Spr} (pr : s.msrPR = true) (named : sprTo s.cfg n = some x)
    (hx : sprPrivileged n x = true) (r : RegNum) : exec (.mtspr r n) s = .next (s.interrupt .program s.pc 0x0004) := by
  show execMtspr r n s = _
  unfold execMtspr
  rw [named]
  exact if_pos (by rw [hx, pr]; rfl)

theorem mfspr_problem {s : State} {n : BitVec 5} {x : Spr} (pr : s.msrPR = true) (named : sprFrom s.cfg n = some x)
    (hx : sprPrivileged n x = true) (r : RegNum) : exec (.mfspr r n) s = .next (s.interrupt .program s.pc 0x0004) := by
  show execMfspr r n s = _
  unfold execMfspr
  rw [named]
  exact if_pos (by rw [hx, pr]; rfl)

theorem sprPrivileged_high {n : BitVec 5} (h : 16 ≤ n.toNat) (x : Spr) : sprPrivileged n x = true := by
  unfold sprPrivileged
  rw [BitVec.msb_eq_decide, decide_eq_true h]
  rfl

theorem sprTo_privileged (m : Config.Machine) {n : BitVec 5} (h : n.toNat ∈ [17, 18, 19, 20, 21, 22, 25, 26, 27]) :
    ∃ x, sprTo m n = some x := by
  simp only [List.mem_cons, List.not_mem_nil, or_false] at h
  unfold sprTo sprBoth
  obtain h | h | h | h | h | h | h | h | h := h <;> (rw [h]; exact ⟨_, rfl⟩)

theorem sprFrom_privileged (m : Config.Machine) {n : BitVec 5} (h : n.toNat ∈ [17, 18, 19, 25, 26, 27]) :
    ∃ x, sprFrom m n = some x := by
  simp only [List.mem_cons, List.not_mem_nil, or_false] at h
  unfold sprFrom sprBoth
  obtain h | h | h | h | h | h := h <;> (rw [h]; exact ⟨_, rfl⟩)

theorem sprBoth_sdr0 {m : Config.Machine} (power : m.impl = .power) : sprBoth m 24 = some .sdr0 := if_pos power

theorem sprBoth_ilcr {m : Config.Machine} (power2 : m.impl = .power2) (own : m.OwnIlcr) :
    sprBoth m m.sprIlcr = some .ilcr := by
  have notPower : m.impl ≠ .power := by rw [power2]; decide
  unfold Config.Machine.OwnIlcr at own
  simp only [List.mem_cons, List.not_mem_nil, or_false, not_or] at own
  unfold sprBoth
  split
  all_goals first
    | omega
    | (rw [if_neg notPower, if_pos rfl])
    | exact if_pos ⟨power2, rfl⟩

theorem sprTo_eq_sprBoth (m : Config.Machine) {n : BitVec 5} (h : n.toNat ∉ [20, 21, 22]) :
    sprTo m n = sprBoth m n := by
  simp only [List.mem_cons, List.not_mem_nil, or_false, not_or] at h
  unfold sprTo
  split
  case h_4 => rfl
  all_goals omega

theorem sprFrom_eq_sprBoth (m : Config.Machine) {n : BitVec 5} (h : n.toNat ∉ [4, 5, 6]) :
    sprFrom m n = sprBoth m n := by
  simp only [List.mem_cons, List.not_mem_nil, or_false, not_or] at h
  unfold sprFrom
  split
  case h_4 => rfl
  all_goals omega

theorem sprBoth_unnamed {m : Config.Machine} {n : BitVec 5} (h : n.toNat ∉ [0, 1, 8, 9, 17, 18, 19, 25, 26, 27])
    (notSdr0 : ¬ (m.impl = .power ∧ n = 24)) (notIlcr : ¬ (m.impl = .power2 ∧ n = m.sprIlcr)) : sprBoth m n = none := by
  simp only [List.mem_cons, List.not_mem_nil, or_false, not_or] at h
  unfold sprBoth
  split
  case h_8 h24 =>
    have number : n = 24 := BitVec.eq_of_toNat_eq h24
    have power2 : m.impl = .power2 := by
      cases hm : m.impl with
      | power => exact absurd ⟨hm, number⟩ notSdr0
      | power2 => rfl
    rw [if_neg (by rw [power2]; decide), if_neg fun e => notIlcr ⟨power2, e⟩]
  case h_12 => exact if_neg notIlcr
  all_goals omega

/-- Settles O15. -/
theorem privilegeAndInvalidRegisters : Obligations.PrivilegeAndInvalidRegisters := by
  intro s
  refine ⟨fun pr => ⟨fun i hi => exec_isPrivileged hi pr, fun r n hn => ?mtspr, fun r n hn => ?mfspr, fun r n hn => ?own⟩,
    fun r n notSdr0 notIlcr => ⟨fun hn => mtspr_unnamed ?_ r, fun hn => mfspr_unnamed ?_ r⟩⟩
  case mtspr =>
    obtain ⟨x, named⟩ := sprTo_privileged s.cfg hn
    refine mtspr_problem pr named (sprPrivileged_high ?_ x) r
    simp only [List.mem_cons, List.not_mem_nil, or_false] at hn
    omega
  case mfspr =>
    obtain ⟨x, named⟩ := sprFrom_privileged s.cfg hn
    refine mfspr_problem pr named (sprPrivileged_high ?_ x) r
    simp only [List.mem_cons, List.not_mem_nil, or_false] at hn
    omega
  case own =>
    obtain ⟨power, rfl⟩ | ⟨power2, rfl, own⟩ := hn
    · have toNamed : sprTo s.cfg 24 = some .sdr0 := sprBoth_sdr0 power
      have fromNamed : sprFrom s.cfg 24 = some .sdr0 := sprBoth_sdr0 power
      exact ⟨mtspr_problem pr toNamed rfl r, mfspr_problem pr fromNamed rfl r⟩
    · have both := sprBoth_ilcr power2 own
      unfold Config.Machine.OwnIlcr at own
      have privilegedIlcr : sprPrivileged s.cfg.sprIlcr .ilcr = true := Bool.or_true _
      have toNamed := (sprTo_eq_sprBoth s.cfg (n := s.cfg.sprIlcr) (fun h => own (by
        simp only [List.mem_cons, List.not_mem_nil, or_false] at h ⊢; omega))).trans both
      have fromNamed := (sprFrom_eq_sprBoth s.cfg (n := s.cfg.sprIlcr) (fun h => own (by
        simp only [List.mem_cons, List.not_mem_nil, or_false] at h ⊢; omega))).trans both
      exact ⟨mtspr_problem pr toNamed privilegedIlcr r, mfspr_problem pr fromNamed privilegedIlcr r⟩
  · simp only [List.mem_cons, List.not_mem_nil, or_false, not_or] at hn
    rw [sprTo_eq_sprBoth _ (by simp only [List.mem_cons, List.not_mem_nil, or_false, not_or]; omega)]
    exact sprBoth_unnamed (by simp only [List.mem_cons, List.not_mem_nil, or_false, not_or]; omega) notSdr0 notIlcr
  · simp only [List.mem_cons, List.not_mem_nil, or_false, not_or] at hn
    rw [sprFrom_eq_sprBoth _ (by simp only [List.mem_cons, List.not_mem_nil, or_false, not_or]; omega)]
    exact sprBoth_unnamed (by simp only [List.mem_cons, List.not_mem_nil, or_false, not_or]; omega) notSdr0 notIlcr

end Sys2Proof.Machine

end

/-! ### Words of the spec, reset, the order of a step (R91, R718, R730, R731) -/

section

namespace Sys2Proof.Machine

open Host (Outcome)

/-- Settles O2. -/
theorem decodesWordsOfTheSpec : Obligations.DecodesWordsOfTheSpec := by
  refine ⟨rfl, rfl, rfl, rfl, rfl, rfl, fun i h => ?_⟩
  have undefined : (match decode .power (encode (.fsqrt 1 2 false)) with | .instr _ => true | .invalid _ => false) = false :=
    rfl
  rw [h] at undefined
  cases undefined

/-- Settles O6. -/
theorem resetState : Obligations.ResetState := by
  refine ⟨rfl, rfl, rfl, rfl, rfl, rfl, rfl, rfl, rfl, rfl, ?_⟩
  decide

/-- Settles O7. -/
theorem resetMeetsTheInvariants : Obligations.ResetMeetsTheInvariants := by
  refine ⟨⟨by decide, by decide, by decide, by decide, by decide, by decide⟩, rfl, rfl, fun x hx => ?_⟩
  have empty : ∀ y ∈ State.reset.ioccs, cellsFrom 0 0 y.tcw = true ∧ cellsFrom 0 0 y.tag = true := by decide
  exact ⟨(empty x hx).1, (empty x hx).2⟩

/-! #### Trace (R718) -/

theorem isBranch_iff (i : Instr) : isBranch i = true ↔ (∃ a b c, i = .b a b c) ∨ (∃ a b c d e, i = .bc a b c d e)
    ∨ (∃ a b c, i = .bcr a b c) ∨ ∃ a b c, i = .bcc a b c := by
  constructor
  · intro h
    cases i with
    | b a b c => exact .inl ⟨a, b, c, rfl⟩
    | bc a b c d e => exact .inr (.inl ⟨a, b, c, d, e, rfl⟩)
    | bcr a b c => exact .inr (.inr (.inl ⟨a, b, c, rfl⟩))
    | bcc a b c => exact .inr (.inr (.inr ⟨a, b, c, rfl⟩))
    | _ => cases h
  · rintro (⟨a, b, c, rfl⟩ | ⟨a, b, c, d, e, rfl⟩ | ⟨a, b, c, rfl⟩ | ⟨a, b, c, rfl⟩) <;> rfl

theorem neverTraced_eq_false_iff (i : Instr) : neverTraced i = false ↔
    (∀ a b c d e, i ≠ .svc a b c d e) ∧ i ≠ .rfi ∧ (∀ k, i ≠ .rfsvc k) ∧ ∀ r, i ≠ .mtmsr r := by
  constructor
  · intro h
    refine ⟨?_, ?_, ?_, ?_⟩
    · rintro a b c d e rfl; cases h
    · rintro rfl; cases h
    · rintro k rfl; cases h
    · rintro r rfl; cases h
  · rintro ⟨hsvc, hrfi, hrfsvc, hmtmsr⟩
    cases i with
    | svc a b c d e => exact absurd rfl (hsvc a b c d e)
    | rfi => exact absurd rfl hrfi
    | rfsvc k => exact absurd rfl (hrfsvc k)
    | mtmsr r => exact absurd rfl (hmtmsr r)
    | _ => rfl

theorem traced_iff (i : Instr) (s t : State) : traced i s t = true ↔
    s.cfg.impl = .power2 ∧ t.entered = false
      ∧ ((∀ a b c d e, i ≠ .svc a b c d e) ∧ i ≠ .rfi ∧ (∀ k, i ≠ .rfsvc k) ∧ ∀ r, i ≠ .mtmsr r)
      ∧ (s.msrSE = true ∨ s.msrBE = true ∧ isBranch i = true) := by
  unfold traced
  rw [← neverTraced_eq_false_iff]
  simp only [Bool.and_eq_true, Bool.or_eq_true, Bool.not_eq_true', beq_iff_eq, and_assoc]

/-- Settles O5. -/
theorem traceFollowsCompletedInstructions : Obligations.TraceFollowsCompletedInstructions := by
  intro i s t u traces
  have condition : traced i s t = true ↔ traces := by
    rw [traced_iff, isBranch_iff]
    simp only [traces, and_assoc]
  by_cases h : traces
  · have ht := condition.2 h
    exact ⟨fun _ => by simp only [u, afterExec, ht]; rfl, fun n => absurd h n⟩
  · have ht : ¬ traced i s t = true := mt condition.1 h
    exact ⟨fun y => absurd y h, fun _ => by simp only [u, afterExec, ht]; rfl⟩

/-! #### The order of a step (R730, R731) -/

theorem step_eq_cpuStep {s : State} (agenda : s.agenda = []) (tick : s.tickDue = false) :
    step s = cpuStep s.countStep := by
  unfold step
  rw [agenda]
  exact if_neg (by rw [tick]; decide)

/-- With nothing pending a step of the processor begins with the fetch. -/
theorem cpuStep_fetch {u : State} (running : u.checkstopped = false) (noReset : u.sysReset = false)
    (noCheck : u.machineCheck = false) : cpuStep u = match ifetch u with
      | .word w s1 => runFetched w s1
      | .storage info s1 => .next (s1.interrupt .instrStorage s1.pc info)
      | .machineCheck s1 => .next (s1.takeMachineCheck s1.pc) := by
  exact (if_neg (by rw [running]; decide)).trans
    ((if_neg (by rw [noReset]; decide)).trans (if_neg (by rw [noCheck]; decide)))

theorem cpuStep_word {u s1 : State} {w : Word} (running : u.checkstopped = false) (noReset : u.sysReset = false)
    (noCheck : u.machineCheck = false) (fetched : ifetch u = .word w s1) : cpuStep u = runFetched w s1 := by
  rw [cpuStep_fetch running noReset noCheck, fetched]

/-- Settles O4. -/
theorem pendingConditionsComeFirst : Obligations.PendingConditionsComeFirst := by
  intro s agenda tick u
  rw [step_eq_cpuStep agenda tick]
  refine ⟨fun stopped => if_pos stopped, fun running reset => ?_, fun running noReset check => ?_,
    fun running noReset noCheck => ⟨fun info s1 fetched => ?_, fun w s1 fetched =>
      ⟨fun signal enabled => ?_, fun quiet imprecise late => ?_⟩⟩⟩
  · exact (if_neg (by rw [State.countStep, running]; decide)).trans (if_pos reset)
  · refine (if_neg (by rw [State.countStep, running]; decide)).trans
      ((if_neg (by rw [State.countStep, noReset]; decide)).trans ((if_pos check).trans (congrArg Outcome.next ?_)))
    rfl
  · rw [cpuStep_fetch (u := s.countStep) running noReset noCheck, show ifetch s.countStep = _ from fetched]
  · rw [cpuStep_word (u := s.countStep) running noReset noCheck fetched]
    exact if_pos (by rw [signal, enabled]; rfl)
  · rw [cpuStep_word (u := s.countStep) running noReset noCheck fetched]
    have now : s1.fpiNow = (true, s1) := by
      unfold State.fpiNow
      rw [imprecise]
      exact if_pos late
    unfold runFetched
    rw [if_neg (by rw [Bool.and_eq_true]; exact quiet), now]
    rfl

/-- Nothing pending after the fetch: the word runs. -/
theorem runFetched_eq_runWord {s1 : State} (w : Word) (quiet : ¬ (s1.externalSignal = true ∧ s1.msrEE = true))
    (precise : s1.fpiCondition = false) : runFetched w s1 = runWord w s1 := by
  have later : s1.fpiNow = (false, s1) := by
    unfold State.fpiNow
    rw [precise]
    rfl
  unfold runFetched
  rw [if_neg (by rw [Bool.and_eq_true]; exact quiet), later]
  rfl

/-- A word that is an instruction runs as it does; one that is none is an invalid operation (R707). -/
theorem runWord_instr {w : Word} {s : State} {i : Instr} (h : decode s.cfg.impl w = .instr i) :
    runWord w s = finishExec i s.beforeExec (exec i s.beforeExec) := by
  unfold runWord
  rw [h]

theorem runWord_undefined {w : Word} {s : State} (h : ∀ i, decode s.cfg.impl w ≠ .instr i) :
    runWord w s = .next (s.beforeExec.interrupt .program s.pc 0x0008) := by
  unfold runWord
  cases hd : decode s.cfg.impl w with
  | instr i => exact absurd hd (h i)
  | invalid x => rfl

/-! #### The fetch (R109) -/

theorem ifetch_eq_fetchNow {s : State} (h : s.prefetched s.pc = []) : ifetch s = fetchNow s.pc s := by
  unfold ifetch
  rw [h]

theorem fetchNow_real {s : State} (ea : Word) (h : s.msrIR = false) : fetchNow ea s = fetchReal ea s :=
  if_pos (by rw [h]; rfl)

/-- The protection of a page against loads. -/
theorem permitted_load (k : Bool) (pp : BitVec 2) : permitted k pp false = decide (k = false ∨ pp ≠ 0) := by
  revert k pp
  decide

/-- A translated fetch from an ordinary segment. -/
theorem fetchNow_translate {s : State} {ea : Word} (translated : s.msrIR = true)
    (memory : bitAt (s.segmentOf ea) 0 = false) (ordinary : bitAt (s.segmentOf ea) 2 = false)
    (tables : s.sdrBefore = []) : fetchNow ea s = match translate ea false false s with
      | (.real ra, s1) => fetchReal ra s1
      | (.fail c, s1) => .storage (isiInfo c) s1 := by
  have table : fetchTranslate ea s = translate ea false false s := if_pos tables
  unfold fetchNow
  rw [if_neg (by rw [translated]; decide), if_neg (by rw [memory]; decide), if_neg (by rw [ordinary]; decide)]
  exact table ▸ rfl

theorem fetchNow_fails {s t : State} {ea : Word} {c : DsiCause} (translated : s.msrIR = true)
    (memory : bitAt (s.segmentOf ea) 0 = false) (ordinary : bitAt (s.segmentOf ea) 2 = false)
    (tables : s.sdrBefore = []) (h : translate ea false false s = (.fail c, t)) :
    fetchNow ea s = .storage (isiInfo c) t := by
  rw [fetchNow_translate translated memory ordinary tables, h]

theorem toNat_append_field (n : BitVec 20) (ea : Word) (h : ea.toNat % 4 = 0) :
    (n ++ bitsAt ea 20 12 : Word).toNat % 4 = 0 := by
  have offset : (bitsAt ea 20 12).toNat = ea.toNat % 4096 := by
    show (ea.extractLsb' 0 12).toNat = _
    rw [BitVec.extractLsb'_toNat, Nat.shiftRight_zero]
  rw [BitVec.toNat_append, ← Nat.shiftLeft_add_eq_or_of_lt (bitsAt ea 20 12).isLt, offset, Nat.shiftLeft_eq]
  omega

/-- Settles O3. -/
theorem stepRunsTheInstructionAtThePc : Obligations.StepRunsTheInstructionAtThePc := by
  refine ⟨fun s s1 w agenda tick running noReset noCheck fetched quiet precise => ?_,
    fun s real aligned cold lines => ?_, fun s translated aligned cold => ?_⟩
  · rw [step_eq_cpuStep agenda tick, cpuStep_word (u := s.countStep) running noReset noCheck fetched, runFetched_eq_runWord w quiet precise]
    exact ⟨fun i h => (runWord_instr h).trans rfl, fun h => runWord_undefined h⟩
  · rw [ifetch_eq_fetchNow cold, fetchNow_real s.pc real]
    exact fetchReal_memory aligned lines
  intro sr page fails
  have now := ifetch_eq_fetchNow cold
  have found : s.Behind page.2 := lookupPage_behind _ _ _
  refine ⟨fun io => ?_, fun memory special => ?_, fun memory ordinary tables => ?_⟩
  · rw [now]
    unfold fetchNow
    rw [if_neg (by rw [translated]; decide)]
    exact if_pos io
  · rw [now]
    unfold fetchNow
    rw [if_neg (by rw [translated]; decide), if_neg (by rw [show bitAt (s.segmentOf s.pc) 0 = false from memory]; decide)]
    exact if_pos special
  have fail : ∀ {c : DsiCause} {t : State}, translate s.pc false false s = (.fail c, t) → s.StorageOnly t →
      fails (isiInfo c) := fun h only =>
    ⟨_, now.trans (fetchNow_fails translated memory ordinary tables h), only⟩
  refine ⟨fun h => fail (translate_notFound h) found.storage, fun h => fail (translate_loop h) found.storage,
    fun e entry => ?_⟩
  have translation := (translate_entry (data := false) (store := false) entry).2 (.inl rfl)
  rw [permitted_load] at translation
  refine ⟨fun key closed => fail (translation.trans (if_neg ?_)) (found.trans (State.failedAccess_behind _ e)).storage,
    fun allowed => ?_⟩
  · rw [decide_eq_true_eq]
    rintro (h | h)
    · rw [show bitAt (s.segmentOf s.pc) 1 = true from key] at h
      cases h
    · exact h closed
  rw [if_pos (decide_eq_true allowed)] at translation
  refine ⟨(found.trans (State.recordBits_behind _ e true false)).storage, fun lines => ?_⟩
  obtain ⟨l, word⟩ := fetchReal_memory (toNat_append_field e.rpn s.pc aligned) lines
  refine ⟨l, now.trans ?_⟩
  rw [fetchNow_translate translated memory ordinary tables, translation]
  exact word

end Sys2Proof.Machine

end

/-! ### Translated accesses (R163, R205 to R210, R697, R698) -/

section

namespace Sys2Proof.Machine

open Host (Outcome)

/-! #### How a word load and a word store end -/

theorem alignCheck_aligned {s : State} {ea : Word} {n : Nat} (h : ea.toNat % n = 0) (w : Word) :
    s.alignCheck w ea n = some ea := by
  refine if_pos ?_
  rw [Bool.not_eq_true', Bool.eq_false_iff, ne_eq, unaligned_iff]
  exact fun unaligned => unaligned h

/-- A scalar access reports the address it begins at. -/
theorem Got.scalar_fail_self (ea : Word) (c : DsiCause) (got : List Byte) (s : State) :
    (Got.fail c ea got s).scalar ea = .fail c ea got s :=
  congrArg (fun a => Got.fail c a got s) (ite_self ea)

section

variable {s u : State} {r ra : RegNum} {d : BitVec 16} {c : DsiCause} {real : Word}

theorem exec_l_fail (memory : s.isIo (s.eaD ra d) = false) (aligned : (s.eaD ra d).toNat % 4 = 0)
    (h : dataAddr (s.eaD ra d) false s = (.fail c, u)) :
    exec (.l r ra d) s = .next (u.dataStorage c false (s.eaD ra d)) := by
  rw [exec_l, State.loadInto, State.fixedLoad, if_neg (by rw [memory]; decide), alignCheck_aligned aligned]
  simp only [State.loadMem_aligned (n := 4) (by decide) (by decide) aligned, h, Got.scalar_fail_self]
  rfl

theorem exec_l_real (memory : s.isIo (s.eaD ra d) = false) (aligned : (s.eaD ra d).toNat % 4 = 0)
    (h : dataAddr (s.eaD ra d) false s = (.real real, u)) :
    exec (.l r ra d) s = .next ((State.loadRealBytes 4 real u).2.setReg r
      (loadZero (State.loadRealBytes 4 real u).1)).advance := by
  rw [exec_l, State.loadInto, State.fixedLoad, if_neg (by rw [memory]; decide), alignCheck_aligned aligned]
  simp only [State.loadMem_aligned (n := 4) (by decide) (by decide) aligned, h]
  rfl

theorem exec_st_fail (memory : s.isIo (s.eaD ra d) = false) (aligned : (s.eaD ra d).toNat % 4 = 0)
    (h : dataAddr (s.eaD ra d) true s = (.fail c, u)) :
    exec (.st r ra d) s = .next ((s.partway u).2.dataStorage c true (s.eaD ra d)) := by
  rw [exec_st, State.storeFrom, State.fixedStore, if_neg (by rw [memory]; decide), show (toBytes 4 (s.reg r)).length = 4 from rfl,
    alignCheck_aligned aligned]
  simp only [State.storeMem_aligned (l := toBytes 4 (s.reg r)) (by decide : 0 < 4) (by decide : 4 ∣ 128) aligned, h,
    Got.scalar_fail_self]
  rfl

theorem exec_st_real (memory : s.isIo (s.eaD ra d) = false) (aligned : (s.eaD ra d).toNat % 4 = 0)
    (h : dataAddr (s.eaD ra d) true s = (.real real, u)) :
    exec (.st r ra d) s = .next (State.storeRealBytes (toBytes 4 (s.reg r)) real u).advance := by
  rw [exec_st, State.storeFrom, State.fixedStore, if_neg (by rw [memory]; decide), show (toBytes 4 (s.reg r)).length = 4 from rfl,
    alignCheck_aligned aligned]
  simp only [State.storeMem_aligned (l := toBytes 4 (s.reg r)) (by decide : 0 < 4) (by decide : 4 ∣ 128) aligned, h]
  rfl

end

/-! #### The Data Storage interrupt (R697 to R699) -/

/-- Where loads look is main memory, the data cache and the queue of store-backs. -/
theorem State.sameMemory_of {s t : State} (cfg : t.cfg = s.cfg) (mem : t.mem = s.mem) (dc : t.dc = s.dc)
    (wb : t.wb = s.wb) : s.SameMemory t := by
  intro b
  cases s
  cases t
  cases cfg
  cases mem
  cases dc
  cases wb
  rfl

/-- What a Data Storage interrupt of an access leaves that has changed only what lies behind the registers. -/
theorem State.StorageOnly.dataStorage {s u : State} (h : s.StorageOnly u) (c : DsiCause) (store : Bool) (ea : Word) :
    let t := u.dataStorage c store ea
    bitsAt t.dsisr 0 15 = dsiBits c store ∧ t.dar = ea ∧ t.srr0 = wordAlign s.pc
      ∧ t.pc = (if s.msrIP then 0xFFF00300 else 0x300) ∧ t.gpr = s.gpr ∧ u.SameMemory t := by
  have cause (w : Word) : bitsAt (dsiBits c store ++ w.extractLsb' 0 17) 0 15 = dsiBits c store :=
    BitVec.extractLsb'_append_eq_left
  refine ⟨cause _, rfl, congrArg wordAlign h.pc, ?_, (State.interrupt_gpr _ _ _ _).trans h.gpr,
    State.sameMemory_of (State.interrupt_cfg _ _ _ _) (State.interrupt_mem _ _ _ _) (State.interrupt_dc _ _ _ _)
      (State.interrupt_wb _ _ _ _)⟩
  have ip : u.msrIP = s.msrIP := by unfold State.msrIP; rw [h.msr]
  have vector : ∀ b : Bool, vectorPrefix b + vectorOffset .dataStorage = if b then 0xFFF00300 else 0x300 := by decide
  exact (congrArg (vectorPrefix · + vectorOffset .dataStorage) ip).trans (vector s.msrIP)

theorem State.partway_snd (s u : State) : (s.partway u).2 = if u.drawBit.1 then u.drawBit.2
    else { s with draws := u.drawBit.2.draws, machineCheck := u.drawBit.2.machineCheck } := rfl

/-- A store that fails part-way leaves the effects it has had, or none (R370). -/
theorem State.partway_sameMemory (s u : State) : u.SameMemory (s.partway u).2 ∨ s.SameMemory (s.partway u).2 := by
  rw [State.partway_snd]
  split
  · exact .inl fun _ => rfl
  · exact .inr fun _ => rfl

theorem State.StorageOnly.partway {s u : State} (h : s.StorageOnly u) : s.StorageOnly (s.partway u).2 := by
  rw [State.partway_snd]
  split
  · exact h.trans u.drawBit_behind.storage
  · rfl

/-- The registers after an update of general registers that follows an access to storage. -/
theorem State.StorageOnly.rest {s u t : State} (h : s.StorageOnly u) (ht : t = { u with gpr := t.gpr }) :
    t.advance = { s.withStorage t.advance with gpr := t.advance.gpr, pc := s.pc + 4 } := by
  have e : u = s.withStorage u := h
  rw [ht, e]
  rfl

/-! #### Protection and recording -/

/-- The accesses that the key and a page's protection bits close (R205). -/
theorem permitted_iff (k : Bool) (pp : BitVec 2) (store : Bool) : permitted k pp store = true ↔
    ¬ ((k = true ∧ (pp = 0 ∨ (pp = 1 ∧ store = true))) ∨ (pp = 3 ∧ store = true)) := by
  revert k pp store
  decide

/-- What recording of an access adds to the table word. -/
theorem recordMask_access (e : TlbEntry) (store : Bool) :
    recordMask e true store = (if e.f then 0 else 8) ||| (if e.c || !store then 0 else 4) := by
  unfold recordMask
  cases e.f <;> cases e.c <;> cases store <;> rfl

theorem recordMask_eq_zero {e : TlbEntry} {store : Bool} (h : recordMask e true store = 0) :
    e.f = true ∧ (store = true → e.c = true) := by
  revert h
  unfold recordMask
  cases e.f <;> cases e.c <;> cases store <;> decide

/-- What an access by an entry of the page records. -/
theorem State.records_access {s : State} {e : TlbEntry} {store : Bool} (wf : Memory.wf s.mem = true) :
    ((s.recordBits e true store).2.tlb
        = s.tlb.map fun x => if x = e then { e with f := true, c := e.c || store } else x)
      ∧ (recordMask e true store = 0 → (s.recordBits e true store).2 = s)
      ∧ (recordMask e true store ≠ 0 → s.Readable e.word 4 → s.NoRom e.word 4 →
        s.Stored (s.recordBits e true store).2 e.word (wordBytes (s.wordAt e.word ||| recordMask e true store))) := by
  refine ⟨?_, fun none => ?_, fun some readable noRom => (State.recordBits_stored wf some readable noRom).2⟩
  · rw [State.recordBits_tlb, Bool.or_true]
  · obtain ⟨hf, hc⟩ := recordMask_eq_zero none
    rw [State.recordBits_done (fun _ => hf) hc]

/-! #### The statement's clauses -/

/-- What an access leaves that ends in a Data Storage interrupt with these bits of DSISR. -/
def State.Traps (s : State) (i : Instr) (store : Bool) (ea : Word) (cause : BitVec 15) (p : State → Prop) : Prop :=
  Completes i s fun t =>
    bitsAt t.dsisr 0 15 = (cause ||| if store then 0b000000100000000 else 0) ∧ t.dar = ea ∧ t.srr0 = wordAlign s.pc
      ∧ t.pc = (if s.msrIP then 0xFFF00300 else 0x300) ∧ t.gpr = s.gpr ∧ p t

/-- The instruction of the statement. -/
def wordAccess (store : Bool) (r ra : RegNum) (d : BitVec 16) : Instr := if store then .st r ra d else .l r ra d

section

variable {s u : State} {store : Bool} {r ra : RegNum} {d : BitVec 16}

/-- An access whose translation fails ends in a Data Storage interrupt; a load leaves memory as the translation left it, a
store may leave it as it was. -/
theorem wordAccess_fail {c : DsiCause} {cause : BitVec 15} (memory : s.isIo (s.eaD ra d) = false)
    (aligned : (s.eaD ra d).toNat % 4 = 0) (translated : s.msrDR = true)
    (h : translate (s.eaD ra d) true store s = (.fail c, u))
    (bits : dsiBits c store = (cause ||| if store then 0b000000100000000 else 0)) :
    s.Traps (wordAccess store r ra d) store (s.eaD ra d) cause
      fun t => u.SameMemory t ∨ (store = true ∧ s.SameMemory t) := by
  have fails : dataAddr (s.eaD ra d) store s = (.fail c, u) :=
    (if_neg (by rw [show bitAt (s.segmentOf (s.eaD ra d)) 0 = false from memory]; decide)).trans
      ((if_pos translated).trans h)
  have behind : s.StorageOnly u := ((dataAddr_behind (s.eaD ra d) store s).ofEq fails).storage
  cases store with
  | false =>
    obtain ⟨dsisr, dar, srr0, pc, gpr, same⟩ := behind.dataStorage c false (s.eaD ra d)
    exact ⟨_, exec_l_fail memory aligned fails, dsisr.trans bits, dar, srr0, pc, gpr, .inl same⟩
  | true =>
    obtain ⟨dsisr, dar, srr0, pc, gpr, same⟩ := behind.partway.dataStorage c true (s.eaD ra d)
    refine ⟨_, exec_st_fail memory aligned fails, dsisr.trans bits, dar, srr0, pc, gpr, ?_⟩
    exact (State.partway_sameMemory s u).imp (·.trans same) fun kept => ⟨rfl, kept.trans same⟩

/-- A word load whose address is found, with its bytes there. -/
theorem exec_l_loads {real : Word} (behind : s.StorageOnly u) (wf : Memory.wf u.mem = true) (readable : u.Readable real 4)
    (memory : s.isIo (s.eaD ra d) = false) (aligned : (s.eaD ra d).toNat % 4 = 0)
    (address : dataAddr (s.eaD ra d) false s = (.real real, u)) : Completes (.l r ra d) s fun t =>
      t.reg r = u.wordAt real ∧ (∀ q, q ≠ r → t.reg q = s.reg q)
        ∧ t = { s.withStorage t with gpr := t.gpr, pc := s.pc + 4 } ∧ u.SameMemory t ∧ t.tlb = u.tlb := by
  have runs := exec_l_real (r := r) memory aligned address
  have tlb := State.loadRealBytes_tlb 4 real u
  obtain ⟨value, moved, same⟩ := State.loadRealBytes_spec 4 real wf readable
  generalize State.loadRealBytes 4 real u = x at *
  obtain ⟨bytes, v⟩ := x
  have only := v.setReg_onlyGprs r (loadZero bytes)
  refine ⟨_, runs, ?_, fun q hq => ?_, (behind.trans moved.storage).rest only.rest, fun b => same b, tlb⟩
  · exact (v.reg_setReg_self r _).trans ((congrArg loadZero value).trans (loadZero_word u real))
  · refine (v.reg_setReg_of_ne _ hq).trans ?_
    unfold State.reg
    rw [(behind.trans moved.storage).gpr]

/-- A word store whose address is found, to memory that is there. -/
theorem exec_st_stores {real : Word} (behind : s.StorageOnly u) (wf : Memory.wf u.mem = true) (readable : u.Readable real 4)
    (noRom : u.NoRom real 4) (memory : s.isIo (s.eaD ra d) = false) (aligned : (s.eaD ra d).toNat % 4 = 0)
    (address : dataAddr (s.eaD ra d) true s = (.real real, u)) : Completes (.st r ra d) s fun t =>
      u.Stored t real (wordBytes (s.reg r)) ∧ t = { s.withStorage t with pc := s.pc + 4 } ∧ t.tlb = u.tlb := by
  have runs := exec_st_real (r := r) memory aligned address
  have tlb := State.storeRealBytes_tlb (toBytes 4 (s.reg r)) real u
  obtain ⟨moved, bytes⟩ :=
    State.storeRealBytes_spec (toBytes 4 (s.reg r)) real wf (by decide : 4 ≤ 2 ^ 32) readable noRom
  generalize State.storeRealBytes (toBytes 4 (s.reg r)) real u = v at *
  refine ⟨_, runs, ?_, ?_, tlb⟩
  · rw [← toBytes_word]
    exact ⟨bytes.stored, bytes.others⟩
  · exact congrArg State.advance (show v = s.withStorage v from behind.trans moved.storage)

theorem State.Traps.mono {i : Instr} {ea : Word} {cause : BitVec 15} {p q : State → Prop} (h : s.Traps i store ea cause p)
    (hpq : ∀ t, p t → q t) : s.Traps i store ea cause q := by
  obtain ⟨t, runs, dsisr, dar, srr0, pc, gpr, hp⟩ := h
  exact ⟨t, runs, dsisr, dar, srr0, pc, gpr, hpq t hp⟩

end

/-- Settles O18. -/
theorem translatedAccesses : Obligations.TranslatedAccesses := by
  intro s store r ra d i ea sr sid vpi page lock opens closed traps denied copies translated memory aligned
  have found : s.Behind page.2 := lookupPage_behind sid vpi s
  have fails : ∀ {c : DsiCause} {u : State} {cause : BitVec 15}, translate ea true store s = (.fail c, u) →
      dsiBits c store = (cause ||| if store then 0b000000100000000 else 0) →
      traps cause fun t => u.SameMemory t ∨ (store = true ∧ s.SameMemory t) :=
    wordAccess_fail memory aligned translated
  refine ⟨fun none => ?_, fun some => ?_, fun h => ?_, fun h => ?_, fun e entry => ?_⟩
  · obtain ⟨-, walk⟩ | ⟨some, -⟩ := lookupPage_cases sid vpi s
    · exact walk
    · exact absurd none some
  · obtain ⟨none, -⟩ | ⟨-, choice⟩ := lookupPage_cases sid vpi s
    · exact absurd none some
    · exact choice
  · exact State.Traps.mono (fails (translate_notFound h) rfl) fun _ _ => trivial
  · exact State.Traps.mono (fails (translate_loop h) rfl) fun _ _ => trivial
  have tid : page.2.tid = s.tid :=
    show page.2.tid = (s.withStorage page.2).tid from congrArg State.tid found.storage
  obtain ⟨locked, opened⟩ := translate_entry (data := true) (store := store) entry
  have lockEq : Config.lockRule e.lock2 e.lock3 (page.2.tid &&& tidMask) (bitsAt ea 20 5) store = lock e := by
    rw [tid]
    rfl
  rw [lockEq] at locked opened
  have failedMemory : e.f = true → ∀ t, (page.2.failedAccess e).SameMemory t ∨ (store = true ∧ s.SameMemory t) →
      page.2.SameMemory t ∨ (store = true ∧ s.SameMemory t) := by
    intro recorded t h
    rw [State.failedAccess_done recorded] at h
    exact h
  refine ⟨fun special deny => ?_, fun opens closed => ?_, fun opens allowed canonical => ?_⟩
  · exact State.Traps.mono (fails (locked special deny) rfl) fun t h recorded => failedMemory recorded t h
  · have protects := opened opens
    rw [if_neg (mt (permitted_iff _ _ _).1 (not_not_intro closed))] at protects
    exact State.Traps.mono (fails protects rfl) fun t h recorded => failedMemory recorded t h
  have goes := opened opens
  rw [if_pos ((permitted_iff _ _ _).2 allowed)] at goes
  intro u real new recorded readable
  have pageWf : Memory.wf page.2.mem = true := found.wf canonical.mem
  have wf : Memory.wf u.mem = true := (page.2.recordBits_behind e true store).wf pageWf
  have behind : s.StorageOnly u := (found.trans (page.2.recordBits_behind e true store)).storage
  obtain ⟨tlb, unchanged, stored⟩ := State.records_access (e := e) (store := store) pageWf
  rw [recordMask_access] at unchanged stored
  have records : ∀ t : State, t.tlb = u.tlb → recorded t := fun t h =>
    ⟨(lookupPage_entry entry).2, h.trans tlb, unchanged, stored⟩
  have address : dataAddr ea store s = (.real real, u) :=
    (if_neg (by rw [show bitAt (s.segmentOf ea) 0 = false from memory]; decide)).trans ((if_pos translated).trans goes)
  refine ⟨fun load => ?_, fun isStore noRom => ?_⟩
  · subst load
    obtain ⟨t, runs, value, others, rest, same, kept⟩ := exec_l_loads (r := r) behind wf readable memory aligned address
    exact ⟨t, runs, value, others, rest, same, records t kept⟩
  · subst isStore
    obtain ⟨t, runs, stored, rest, kept⟩ := exec_st_stores (r := r) behind wf readable noRom memory aligned address
    exact ⟨t, runs, stored, rest, records t kept⟩

end Sys2Proof.Machine

end

/-! ### Alignment interrupts (R704, R705, R112 to R116, R563) -/

section

namespace Sys2Proof.Machine

open Host (Outcome)

/-! #### DSISR (R705) -/

/-- What DSISR tells of the instruction with word `w`. -/
def AlignFields (w dsisr : Word) : Prop :=
  bitsAt dsisr 0 15 = 0
    ∧ (if bitsAt w 0 6 = 31 then
        bitsAt dsisr 15 2 = bitsAt w 29 2 ∧ bitAt dsisr 17 = bitAt w 25 ∧ bitsAt dsisr 18 4 = bitsAt w 21 4
       else bitsAt dsisr 15 2 = 0 ∧ bitAt dsisr 17 = bitAt w 5 ∧ bitsAt dsisr 18 4 = bitsAt w 1 4)
    ∧ bitsAt dsisr 22 10 = bitsAt w 6 10

/-- The fields of a word made of five fields. -/
theorem bitsAt_fields (z : BitVec 15) (a : BitVec 2) (b : BitVec 1) (c : BitVec 4) (g : BitVec 10) :
    let v : Word := z ++ (a ++ b ++ c) ++ g
    bitsAt v 0 15 = z ∧ bitsAt v 15 2 = a ∧ bitAt v 17 = b.getLsbD 0 ∧ bitsAt v 18 4 = c ∧ bitsAt v 22 10 = g := by
  intro v
  have bit (k : Nat) : v.getLsbD k = if k < 10 then g.getLsbD k else if k - 10 < 4 then c.getLsbD (k - 10)
      else if k - 14 < 1 then b.getLsbD (k - 14) else if k - 15 < 2 then a.getLsbD (k - 15) else z.getLsbD (k - 17) := by
    refine (BitVec.getLsbD_append (x := z ++ (a ++ b ++ c)) (y := g)).trans ?_
    simp only [BitVec.getLsbD_append]
    grind
  have field (i n : Nat) (x : BitVec n) (h : ∀ j, j < n → v.getLsbD (32 - i - n + j) = x.getLsbD j) : bitsAt v i n = x := by
    refine BitVec.eq_of_getLsbD_eq fun j hj => ?_
    rw [bitsAt, BitVec.getLsbD_extractLsb', h j hj, decide_eq_true hj, Bool.true_and]
  refine ⟨field 0 15 z fun j hj => ?_, field 15 2 a fun j hj => ?_, ?_, field 18 4 c fun j hj => ?_,
    field 22 10 g fun j hj => ?_⟩
  · rw [bit]; grind
  · rw [bit]; grind
  · exact bit 14
  · rw [bit]; grind
  · rw [bit]; grind

theorem bitsAt_one (w : Word) (n : Nat) (h : n < 32) : (bitsAt w n 1).getLsbD 0 = bitAt w n := by
  rw [bitsAt, BitVec.getLsbD_extractLsb', bitAt, BitVec.getMsbD_eq_getLsbD, decide_eq_true h]
  rw [show 32 - n - 1 + 0 = 32 - 1 - n by omega]
  rfl

/-- DSISR after an Alignment interrupt for an access to a memory segment. -/
theorem alignDsisr_fields (w : Word) : AlignFields w (alignDsisr w false) := by
  unfold AlignFields alignDsisr
  by_cases h : bitsAt w 0 6 = 31
  · simp only [if_pos h]
    obtain ⟨zero, form, lead, op, regs⟩ := bitsAt_fields (0#14 ++ BitVec.ofBool false) (bitsAt w 29 2) (bitsAt w 25 1) (bitsAt w 21 4) (bitsAt w 6 10)
    exact ⟨zero, ⟨form, lead.trans (bitsAt_one w 25 (by decide)), op⟩, regs⟩
  · simp only [if_neg h]
    obtain ⟨zero, form, lead, op, regs⟩ := bitsAt_fields (0#14 ++ BitVec.ofBool false) 0#2 (bitsAt w 5 1) (bitsAt w 1 4) (bitsAt w 6 10)
    exact ⟨zero, ⟨form, lead.trans (bitsAt_one w 5 (by decide)), op⟩, regs⟩

/-! #### Accesses that are not on their boundary -/

/-- An access with alignment checking on that neither is on its boundary nor performed by the hardware, to a memory
segment. -/
structure State.Unaligned (s : State) (w ea : Word) (n : Nat) : Prop where
  checking : s.msrAL = true
  memory : s.isIo ea = false
  off : ea.toNat % n ≠ 0
  helpless : Config.alignHw n ea w = false

section

variable {s : State} {w ea first : Word} {n : Nat} {l : List Byte} {r ra : RegNum}

theorem State.Unaligned.alignCheck (h : s.Unaligned w ea n) : s.alignCheck w ea n = none := by
  unfold State.alignCheck
  rw [if_neg (by rw [(unaligned_iff ea n).2 h.off]; decide), if_neg (by rw [h.checking]; decide),
    if_neg (by rw [h.helpless]; decide)]

/-- The hardware performs an access that is not on its boundary. -/
theorem alignCheck_performed (checking : s.msrAL = true) (off : ea.toNat % n ≠ 0)
    (helps : Config.alignHw n ea w = true) : s.alignCheck w ea n = some ea := by
  unfold State.alignCheck
  rw [if_neg (by rw [(unaligned_iff ea n).2 off]; decide), if_neg (by rw [checking]; decide), if_pos helps]

theorem State.Unaligned.fixedLoad (h : s.Unaligned w ea n) : s.fixedLoad w ea n = .trap (s.alignment w ea) := by
  unfold State.fixedLoad
  rw [if_neg (by rw [h.memory]; decide), h.alignCheck]

theorem State.Unaligned.fixedStore (h : s.Unaligned w ea l.length) :
    s.fixedStore w ea l = .trap (s.alignment w ea) := by
  unfold State.fixedStore
  rw [if_neg (by rw [h.memory]; decide), h.alignCheck]

theorem State.Unaligned.floatLoad (h : s.Unaligned w ea n) :
    s.floatLoad w ea n first = .trap (s.alignment w first ea) := by
  unfold State.floatLoad
  rw [if_neg (by rw [h.memory]; decide), h.alignCheck]

theorem State.Unaligned.floatStore (h : s.Unaligned w ea l.length) :
    s.floatStore w ea l first = .trap (s.alignment w first ea) := by
  unfold State.floatStore
  rw [if_neg (by rw [h.memory]; decide), h.alignCheck]

/-! Each form of instruction ends in the interrupt. -/

theorem State.Unaligned.loadInto (h : s.Unaligned w ea n) (conv : List Byte → Word) :
    s.loadInto w ea n conv r = .next (s.alignment w ea) := by
  rw [State.loadInto, h.fixedLoad]
  rfl

theorem State.Unaligned.loadUpdating (h : s.Unaligned w ea n) (conv : List Byte → Word) :
    s.loadUpdating w ea n conv r ra = .next (s.alignment w ea) := by
  rw [State.loadUpdating, h.fixedLoad]
  rfl

theorem State.Unaligned.storeFrom (h : s.Unaligned w ea l.length) : s.storeFrom w ea l = .next (s.alignment w ea) := by
  rw [State.storeFrom, h.fixedStore]
  rfl

theorem State.Unaligned.storeUpdating (h : s.Unaligned w ea l.length) :
    s.storeUpdating w ea l ra = .next (s.alignment w ea) := by
  rw [State.storeUpdating, h.fixedStore]
  rfl

theorem State.Unaligned.floatInto (h : s.Unaligned w ea n) (fp : s.msrFP = true) (conv : List Byte → DWord) :
    s.floatInto w ea n conv r = .next (s.alignment w ea) := by
  rw [State.floatInto, needFp_on fp, h.floatLoad]
  rfl

theorem State.Unaligned.floatIntoUpdating (h : s.Unaligned w ea n) (fp : s.msrFP = true) (conv : List Byte → DWord) :
    s.floatIntoUpdating w ea n conv r ra = .next (s.alignment w ea) := by
  rw [State.floatIntoUpdating, needFp_on fp, h.floatLoad]
  rfl

theorem State.Unaligned.floatFrom (h : s.Unaligned w ea l.length) (fp : s.msrFP = true) :
    s.floatFrom w ea l = .next (s.alignment w ea) := by
  rw [State.floatFrom, needFp_on fp, h.floatStore]
  rfl

theorem State.Unaligned.floatFromUpdating (h : s.Unaligned w ea l.length) (fp : s.msrFP = true) :
    s.floatFromUpdating w ea l ra = .next (s.alignment w ea) := by
  rw [State.floatFromUpdating, needFp_on fp, h.floatStore]
  rfl

theorem State.Unaligned.quadInto (h : s.Unaligned w ea 8) (fp : s.msrFP = true) (update : State → State) :
    s.quadInto w ea r update = .next (s.alignment w ea) := by
  rw [State.quadInto, needFp_on fp, State.quadLoad, h.floatLoad]
  rfl

theorem State.Unaligned.quadFrom (h : s.Unaligned w ea 8) (fp : s.msrFP = true) (update : State → State) :
    s.quadFrom w ea r update = .next (s.alignment w ea) := by
  have stored : s.floatStore w ea (s.doubleBytes r) = .trap (s.alignment w ea) :=
    State.Unaligned.floatStore (l := s.doubleBytes r) h
  rw [State.quadFrom, needFp_on fp, State.quadStore, stored]
  rfl

end

/-- Every scalar access that is not on its boundary, where the hardware does not perform it. -/
theorem exec_unaligned {i : Instr} {s : State} {ea : Word} {n : Nat} (access : s.scalarAccess i = some (ea, n))
    (h : s.Unaligned (encode i) ea n) (fp : i.isFloat = true → s.msrFP = true) :
    exec i s = .next (s.alignment (encode i) ea) := by
  cases i with
  | lhz | lha | lhzx | lhax | lhbrx | l | lx | lbrx =>
    obtain ⟨rfl, rfl⟩ := Prod.mk.inj (Option.some.inj access)
    exact h.loadInto _
  | lhzu | lhau | lhzux | lhaux | lu | lux =>
    obtain ⟨rfl, rfl⟩ := Prod.mk.inj (Option.some.inj access)
    exact h.loadUpdating _
  | sth | sthx | sthbrx | st | stx | stbrx =>
    obtain ⟨rfl, rfl⟩ := Prod.mk.inj (Option.some.inj access)
    exact State.Unaligned.storeFrom h
  | sthu | sthux | stu | stux =>
    obtain ⟨rfl, rfl⟩ := Prod.mk.inj (Option.some.inj access)
    exact State.Unaligned.storeUpdating h
  | lfs | lfsx | lfd | lfdx =>
    obtain ⟨rfl, rfl⟩ := Prod.mk.inj (Option.some.inj access)
    exact h.floatInto (fp rfl) _
  | lfsu | lfsux | lfdu | lfdux =>
    obtain ⟨rfl, rfl⟩ := Prod.mk.inj (Option.some.inj access)
    exact h.floatIntoUpdating (fp rfl) _
  | stfs | stfsx | stfd | stfdx =>
    obtain ⟨rfl, rfl⟩ := Prod.mk.inj (Option.some.inj access)
    exact State.Unaligned.floatFrom h (fp rfl)
  | stfsu | stfsux | stfdu | stfdux =>
    obtain ⟨rfl, rfl⟩ := Prod.mk.inj (Option.some.inj access)
    exact State.Unaligned.floatFromUpdating h (fp rfl)
  | lfq | lfqx =>
    obtain ⟨rfl, rfl⟩ := Prod.mk.inj (Option.some.inj access)
    exact h.quadInto (fp rfl) id
  | lfqu | lfqux =>
    obtain ⟨rfl, rfl⟩ := Prod.mk.inj (Option.some.inj access)
    exact h.quadInto (fp rfl) fun t => t.updateBase _ _
  | stfq | stfqu | stfqx | stfqux =>
    obtain ⟨rfl, rfl⟩ := Prod.mk.inj (Option.some.inj access)
    exact h.quadFrom (fp rfl) _
  | _ => cases access

/-- lm and stm that are not on a word boundary. -/
theorem exec_multiple_unaligned {s : State} {r ra : RegNum} {d : BitVec 16} {i : Instr} (hi : i = .lm r ra d ∨ i = .stm r ra d)
    (checking : s.msrAL = true) (memory : s.isIo (s.eaD ra d) = false) (off : (s.eaD ra d).toNat % 4 ≠ 0) :
    exec i s = .next (s.alignment (encode i) (s.eaD ra d)) := by
  have refused : s.alignMultiple (s.eaD ra d) = none := by
    unfold State.alignMultiple
    rw [if_neg (by rw [(unaligned_iff _ 4).2 off]; decide), if_neg (by rw [checking]; decide)]
  have inMemory : ¬ s.isIo (s.eaD ra d) = true := by rw [memory]; decide
  obtain rfl | rfl := hi
  · show execLm r ra d s = _
    unfold execLm
    simp only [if_neg inMemory, refused]
  · show execStm r ra d s = _
    unfold execStm
    simp only [if_neg inMemory, refused]

/-! #### The second doubleword of a quad -/

/-- What a quad access leaves whose second doubleword raises the Alignment interrupt: nothing but what lies behind the
registers, DSISR and DAR has changed. -/
def State.AlignsBehind (s : State) (i : Instr) (ea : Word) : Prop :=
  ∃ u : State, exec i s = .next (u.interrupt .alignment s.pc 0)
    ∧ u = { s.withStorage u with dsisr := u.dsisr, dar := ea } ∧ AlignFields (encode i) u.dsisr

section

variable {s : State} {w ea : Word} {r : RegNum}

/-- The hardware performs the access to the first doubleword and not to the second. -/
structure State.HalfPerformed (s : State) (w ea : Word) : Prop where
  fp : s.msrFP = true
  checking : s.msrAL = true
  off : ea.toNat % 8 ≠ 0
  can : s.CanStoreBlock ea 8
  memory : s.isIo (ea + 8) = false
  performs : Config.alignHw 8 ea w = true
  helpless : Config.alignHw 8 (ea + 8) w = false

theorem State.HalfPerformed.firstMemory (h : s.HalfPerformed w ea) : s.isIo ea = false := by
  have first := h.can.real.noIo 0 (by decide)
  rwa [show ea + BitVec.ofNat 32 0 = ea from BitVec.add_zero ea] at first

theorem State.HalfPerformed.second {t : State} (h : s.HalfPerformed w ea) (only : s.StorageOnly t) :
    t.Unaligned w (ea + 8) 8 where
  checking := by
    unfold State.msrAL
    rw [only.msr]
    exact h.checking
  memory := (only.isIo _).trans h.memory
  off := by
    have off := h.off
    rw [BitVec.toNat_add]
    show (ea.toNat + 8) % 2 ^ 32 % 8 ≠ 0
    omega
  helpless := h.helpless

theorem State.HalfPerformed.floatLoad (h : s.HalfPerformed w ea) :
    ∃ l t, s.floatLoad w ea 8 = .ok l t ∧ s.StorageOnly t := by
  obtain ⟨t, loaded, moved, -⟩ := State.loadMem_real h.can.canonical.mem h.can.real h.can.readable
  refine ⟨s.dataBytes ea 8, t, ?_, moved.storage⟩
  unfold State.floatLoad
  rw [if_neg (by rw [h.firstMemory]; decide), alignCheck_performed h.checking h.off h.performs]
  simp only [loaded, Got.scalar_ok]

theorem State.HalfPerformed.floatStore (h : s.HalfPerformed w ea) (r : RegNum) :
    ∃ t, s.floatStore w ea (s.doubleBytes r) = .ok () t ∧ s.StorageOnly t := by
  obtain ⟨t, stored, moved, -⟩ := State.storeMem_real (l := s.doubleBytes r) h.can.canonical.mem
    (by decide : 8 ≤ 2 ^ 32) h.can.real h.can.readable h.can.noRom
  refine ⟨t, ?_, moved.storage⟩
  unfold State.floatStore
  rw [if_neg (by rw [h.firstMemory]; decide), show (s.doubleBytes r).length = 8 from rfl,
    alignCheck_performed h.checking h.off h.performs]
  simp only [stored, Got.scalar_ok]
  rfl

/-- A quad load that traps at its second doubleword. -/
theorem State.HalfPerformed.quadInto (h : s.HalfPerformed w ea) (update : State → State) :
    ∃ t, s.StorageOnly t ∧ s.quadInto w ea r update = .next (t.alignment w ea (ea + 8)) := by
  obtain ⟨l, t, loaded, only⟩ := h.floatLoad
  refine ⟨t, only, ?_⟩
  rw [State.quadInto, needFp_on h.fp, State.quadLoad, loaded]
  show Res.outcome (Res.andThen (t.floatLoad w (ea + 8) 8 ea) _) _ = _
  rw [(h.second only).floatLoad]
  rfl

theorem State.alignment_eq {t : State} {bit : Bool} {w a b : Word} (h : bitAt (t.segmentOf b) 0 = bit) :
    t.alignment w a b = State.interrupt { t with dsisr := alignDsisr w bit, dar := a } .alignment t.pc 0 := by
  rw [State.alignment, h]

theorem State.interrupt_drawn (t : State) (k : IntKind) (a : Word) (info : Half) :
    (t.interrupt k a info).drawBit.2 = t.drawBit.2.interrupt k a info := rfl

theorem State.interrupt_undone (t s : State) (k : IntKind) (a : Word) (info : Half) :
    ({ (t.interrupt k a info).drawBit.2 with mem := s.mem, dc := s.dc, wb := s.wb, tlb := s.tlb } : State)
      = State.interrupt { t.drawBit.2 with mem := s.mem, dc := s.dc, wb := s.wb, tlb := s.tlb } k a info := rfl

theorem State.alignment_drawn (t : State) (w a b : Word) :
    (t.alignment w a b).drawBit.2 = t.drawBit.2.alignment w a b := by
  have segment : bitAt (t.drawBit.2.segmentOf b) 0 = bitAt (t.segmentOf b) 0 := rfl
  rw [State.alignment_eq segment, State.alignment_eq rfl]
  exact State.interrupt_drawn _ _ _ _

theorem State.alignment_undone (t s : State) (w a b : Word) :
    ({ (t.alignment w a b).drawBit.2 with mem := s.mem, dc := s.dc, wb := s.wb, tlb := s.tlb } : State)
      = State.alignment { t.drawBit.2 with mem := s.mem, dc := s.dc, wb := s.wb, tlb := s.tlb } w a b := by
  have segment : bitAt
      (State.segmentOf { t.drawBit.2 with mem := s.mem, dc := s.dc, wb := s.wb, tlb := s.tlb } b) 0
        = bitAt (t.segmentOf b) 0 := rfl
  rw [State.alignment_eq segment, State.alignment_eq (t := t) rfl]
  exact State.interrupt_undone _ _ _ _ _

/-- A quad store that traps at its second doubleword keeps the first, or undoes it (R370). -/
theorem State.HalfPerformed.quadFrom (h : s.HalfPerformed w ea) (update : State → State) :
    ∃ t, s.StorageOnly t ∧ s.quadFrom w ea r update = .next (t.alignment w ea (ea + 8)) := by
  obtain ⟨t, stored, only⟩ := h.floatStore r
  have second : t.floatStore w (ea + 8) (s.doubleBytes (r + 1)) ea = .trap (t.alignment w ea (ea + 8)) :=
    State.Unaligned.floatStore (l := s.doubleBytes (r + 1)) (h.second only)
  have runs : s.quadFrom w ea r update = .next (if (t.alignment w ea (ea + 8)).drawBit.1
      then (t.alignment w ea (ea + 8)).drawBit.2
      else { (t.alignment w ea (ea + 8)).drawBit.2 with mem := s.mem, dc := s.dc, wb := s.wb, tlb := s.tlb }) := by
    rw [State.quadFrom, needFp_on h.fp, State.quadStore, stored]
    show Res.outcome (match t.floatStore w (ea + 8) (s.doubleBytes (r + 1)) ea with | .trap t => _ | r => r) _ = _
    rw [second]
    rfl
  rw [runs]
  split
  · exact ⟨t.drawBit.2, only.trans t.drawBit_behind.storage, congrArg Outcome.next (t.alignment_drawn w ea (ea + 8))⟩
  · refine ⟨{ t.drawBit.2 with mem := s.mem, dc := s.dc, wb := s.wb, tlb := s.tlb }, ?_,
      congrArg Outcome.next (t.alignment_undone s w ea (ea + 8))⟩
    exact congrArg (fun x : State => { x.drawBit.2 with mem := s.mem, dc := s.dc, wb := s.wb, tlb := s.tlb })
      (show t = s.withStorage t from only)

end

/-- An Alignment interrupt taken once nothing but what lies behind the registers has changed. -/
theorem alignsBehind_of_exec {s t : State} {i : Instr} {ea access : Word} (only : s.StorageOnly t)
    (memory : s.isIo access = false) (runs : exec i s = .next (t.alignment (encode i) ea access)) :
    s.AlignsBehind i ea := by
  have segment : bitAt (t.segmentOf access) 0 = false := (only.isIo access).trans memory
  refine ⟨{ t with dsisr := alignDsisr (encode i) false, dar := ea }, ?_, ?_, alignDsisr_fields _⟩
  · rw [runs, State.alignment, segment, only.pc]
  · exact congrArg (fun x : State => { x with dsisr := alignDsisr (encode i) false, dar := ea })
      (show t = s.withStorage t from only)

theorem exec_quad_second {i : Instr} {s : State} {ea : Word} (quad : i.isQuad = true)
    (access : s.scalarAccess i = some (ea, 8)) (h : s.HalfPerformed (encode i) ea) : s.AlignsBehind i ea := by
  have raised : (∃ t, s.StorageOnly t ∧ exec i s = .next (t.alignment (encode i) ea (ea + 8))) → s.AlignsBehind i ea :=
    fun ⟨_, only, runs⟩ => alignsBehind_of_exec only h.memory runs
  refine raised ?_
  cases i with
  | lfq | lfqx =>
    obtain ⟨rfl, -⟩ := Prod.mk.inj (Option.some.inj access)
    exact h.quadInto id
  | lfqu | lfqux =>
    obtain ⟨rfl, -⟩ := Prod.mk.inj (Option.some.inj access)
    exact h.quadInto fun t => t.updateBase _ _
  | stfq | stfqu | stfqx | stfqux =>
    obtain ⟨rfl, -⟩ := Prod.mk.inj (Option.some.inj access)
    exact h.quadFrom _
  | _ => cases quad

/-- Settles O17. -/
theorem alignmentInterrupt : Obligations.AlignmentInterrupt := by
  refine ⟨fun i s ea checking memory fp unaligned => ?_, fun i s ea quad access checking fp off can memory => ?_⟩
  · have raised : exec i s = .next (s.alignment (encode i) ea) → ∃ u : State,
        exec i s = .next (u.interrupt .alignment s.pc 0) ∧ u = { s with dsisr := u.dsisr, dar := ea }
          ∧ AlignFields (encode i) u.dsisr := by
      intro runs
      refine ⟨{ s with dsisr := alignDsisr (encode i) false, dar := ea }, ?_, rfl, alignDsisr_fields _⟩
      rw [runs, State.alignment, show bitAt (s.segmentOf ea) 0 = false from memory]
    obtain ⟨n, access, off⟩ | ⟨⟨r, ra, d, hi, rfl⟩, off⟩ := unaligned
    · by_cases helps : Config.alignHw n ea (encode i) = true
      · exact .inl ⟨n, access, helps⟩
      · exact .inr (raised (exec_unaligned access ⟨checking, memory, off, Bool.eq_false_iff.2 helps⟩ fp))
    · exact .inr (raised (exec_multiple_unaligned hi checking memory off))
  · by_cases first : Config.alignHw 8 ea (encode i) = true
    · by_cases second : Config.alignHw 8 (ea + 8) (encode i) = true
      · exact .inl ⟨first, second⟩
      · exact .inr (exec_quad_second quad access
          ⟨fp, checking, off, can, memory, first, Bool.eq_false_iff.2 second⟩)
    · have inMemory : s.isIo ea = false := by
        have byte := can.real.noIo 0 (by decide)
        rwa [show ea + BitVec.ofNat 32 0 = ea from BitVec.add_zero ea] at byte
      exact .inr (alignsBehind_of_exec (State.StorageOnly.refl s) inMemory
        (exec_unaligned access ⟨checking, inMemory, off, Bool.eq_false_iff.2 first⟩ fun _ => fp))

end Sys2Proof.Machine

end

/-! ### Floating-point moves, loads and stores (R563 to R592, R630) -/

section

namespace Sys2Proof.Machine

open Host (Outcome)

/-! #### Moves (R589 to R592) -/

/-- The end of an instruction that writes no general register: CR field 1 with Rc (R11). -/
theorem State.recordFp_onlyFloat {s u : State} {rs : List RegNum} (others : ∀ r, r ∉ rs → u.freg r = s.freg r)
    (cr : u.cr = s.cr)
    (rest : u = { s with fpr := u.fpr, fpRecent := u.fpRecent, fpscr := u.fpscr, cr := u.cr, draws := u.draws })
    (memory : s.SameMemory u) (rc : Bool) : s.OnlyFloat (u.recordFp rc) rs rc := by
  have field (f : CrField) : u.crField f = s.crField f := congrArg (fun v => bitsAt v (4 * f.toNat) 4) cr
  cases rc with
  | false => exact ⟨others, fun h => (nomatch h), fun f _ => field f, fun _ => cr, rest, memory⟩
  | true =>
    refine ⟨others, fun _ => u.crField_setCrField_self 1 _, fun f hf => ?_, fun h => (nomatch h), ?_, memory⟩
    · exact (u.crField_setCrField_of_ne _ hf).trans (field f)
    · exact congrArg (fun x : State => x.setCrField 1 (bitsAt u.fpscr 0 4)) rest

theorem advance_of_pc {s t : State} (h : t.pc = s.pc) : t.advance = { t with pc := s.pc + 4 } :=
  congrArg (fun p : Word => { t with pc := p + 4 }) h

theorem State.recordFp_fpscr (s : State) (rc : Bool) : (s.recordFp rc).fpscr = s.fpscr := by cases rc <;> rfl
theorem State.recordFp_freg (s : State) (rc : Bool) (r : RegNum) : (s.recordFp rc).freg r = s.freg r := by cases rc <;> rfl
theorem State.recordFp_pc (s : State) (rc : Bool) : (s.recordFp rc).pc = s.pc := by cases rc <;> rfl

/-- What a move of `v` into FRT leaves. -/
def State.FloatMoves (s : State) (i : Instr) (frt : RegNum) (rc : Bool) (p : DWord → Prop) : Prop :=
  ∃ u : State, exec i s = .next { u with pc := s.pc + 4 } ∧ s.OnlyFloat u [frt] rc ∧ u.fpscr = s.fpscr ∧ p (u.freg frt)

theorem floatMoves_of_exec {s : State} {i : Instr} {frt : RegNum} {rc : Bool} {v : DWord} {n : Nat} {p : DWord → Prop}
    (runs : exec i s = .next ((({ s with draws := n } : State).setFreg frt v).recordFp rc).advance) (hp : p v) :
    s.FloatMoves i frt rc p := by
  let u : State := ({ s with draws := n } : State).setFreg frt v
  refine ⟨u.recordFp rc, ?_, State.recordFp_onlyFloat (s := s) (u := u) (rs := [frt]) (fun r hr => ?_) rfl rfl (fun _ => rfl) rc,
    State.recordFp_fpscr u rc, ?_⟩
  · rw [runs, advance_of_pc (State.recordFp_pc u rc)]
    rfl
  · exact State.freg_setFreg_of_ne _ v fun e => hr (List.mem_singleton.2 e)
  · rw [State.recordFp_freg, State.freg_setFreg_self]
    exact hp

theorem floatMoves_fpMove {s : State} {i : Instr} {frt : RegNum} {rc : Bool} {v : DWord} {p : DWord → Prop}
    (fp : s.msrFP = true) (runs : exec i s = s.fpMove frt v rc) (hp : p v) : s.FloatMoves i frt rc p :=
  floatMoves_of_exec (n := s.draws) (runs.trans (needFp_on fp _)) hp

/-- The operations on the sign bit. -/
theorem sign_operation {x y : DWord} {b : Bool} (h : ∀ k, k < 64 → y.getLsbD k = if k = 63 then b else x.getLsbD k) :
    fpSign y = b ∧ y.extractLsb' 0 63 = x.extractLsb' 0 63 := by
  constructor
  · exact (h 63 (by decide)).trans (if_pos rfl)
  · refine BitVec.eq_of_getLsbD_eq fun k hk => ?_
    rw [BitVec.getLsbD_extractLsb', BitVec.getLsbD_extractLsb', Nat.zero_add, h k (by omega), if_neg (by omega)]

theorem getLsbD_signBit {k : Nat} (hk : k < 64) : (0x8000000000000000 : DWord).getLsbD k = decide (k = 63) := by
  have all : ∀ k, k < 64 → (0x8000000000000000 : DWord).getLsbD k = decide (k = 63) := by decide
  exact all k hk

theorem getLsbD_magnitude {k : Nat} (hk : k < 64) : (0x7FFFFFFFFFFFFFFF : DWord).getLsbD k = !decide (k = 63) := by
  have all : ∀ k, k < 64 → (0x7FFFFFFFFFFFFFFF : DWord).getLsbD k = !decide (k = 63) := by decide
  exact all k hk

theorem negated_sign (x : DWord) :
    fpSign (negated x) = (!fpSign x) ∧ (negated x).extractLsb' 0 63 = x.extractLsb' 0 63 := by
  refine sign_operation fun k hk => ?_
  rw [negated, BitVec.getLsbD_xor, getLsbD_signBit hk]
  split
  · next h =>
    subst h
    exact Bool.xor_true _
  · next h => rw [decide_eq_false h, Bool.xor_false]

theorem and_magnitude (x : DWord) : fpSign (x &&& 0x7FFFFFFFFFFFFFFF) = false
    ∧ (x &&& 0x7FFFFFFFFFFFFFFF).extractLsb' 0 63 = x.extractLsb' 0 63 := by
  refine sign_operation fun k hk => ?_
  rw [BitVec.getLsbD_and, getLsbD_magnitude hk]
  split
  · next h => rw [decide_eq_true h, Bool.not_true, Bool.and_false]
  · next h => rw [decide_eq_false h, Bool.not_false, Bool.and_true]

theorem or_signBit (x : DWord) : fpSign (x ||| 0x8000000000000000) = true
    ∧ (x ||| 0x8000000000000000).extractLsb' 0 63 = x.extractLsb' 0 63 := by
  refine sign_operation fun k hk => ?_
  rw [BitVec.getLsbD_or, getLsbD_signBit hk]
  split
  · next h => rw [decide_eq_true h, Bool.or_true]
  · next h => rw [decide_eq_false h, Bool.or_false]

/-- Settles O47. -/
theorem floatingPointMoves : Obligations.FloatingPointMoves := by
  intro s frt frb rc fp x moves
  have free : s.FloatMoves (.mffs frt rc) frt rc fun v => v.extractLsb' 0 32 = s.fpscr :=
    floatMoves_of_exec (n := s.draws + 1) (v := s.drawWord.1 ++ s.fpscr) (needFp_on fp _)
      (BitVec.extractLsb'_append_eq_right)
  have moved : ∀ {i : Instr} {v : DWord} {p : DWord → Prop}, exec i s = s.fpMove frt v rc → p v →
      s.FloatMoves i frt rc p := floatMoves_fpMove fp
  exact ⟨moved (p := fun v => v = x) rfl rfl, 
    moved (p := fun v => fpSign v = !fpSign x ∧ v.extractLsb' 0 63 = x.extractLsb' 0 63) rfl (negated_sign x),
    moved (p := fun v => fpSign v = false ∧ v.extractLsb' 0 63 = x.extractLsb' 0 63) rfl (and_magnitude x),
    moved (p := fun v => fpSign v = true ∧ v.extractLsb' 0 63 = x.extractLsb' 0 63) rfl (or_signBit x), free⟩

/-! #### What a load leaves -/

/-- A doubleword from its bytes. -/
theorem dword_of_bytes (a b c d e f g h : Byte) :
    ofBytes 64 [a, b, c, d, e, f, g, h] = ((a ++ b) ++ (c ++ d)) ++ ((e ++ f) ++ (g ++ h)) := by
  refine BitVec.eq_of_getLsbD_eq fun k hk => ?_
  simp only [ofBytes, List.foldl, BitVec.getLsbD_or, BitVec.getLsbD_shiftLeft, BitVec.getLsbD_setWidth,
    BitVec.getLsbD_append]
  interval_cases k <;> simp

theorem fromDouble_dword (s : State) (a : Word) : fromDouble (s.dataBytes a 8) = s.dwordAt a := by
  have bytes : s.dataBytes a 8 = [s.dataByte a, s.dataByte (a + 1), s.dataByte (a + 2), s.dataByte (a + 3),
      s.dataByte (a + 4), s.dataByte (a + 5), s.dataByte (a + 6), s.dataByte (a + 7)] := by
    simp [State.dataBytes, List.range_succ]
  rw [fromDouble, bytes, dword_of_bytes]
  unfold State.dwordAt State.wordAt State.halfAt
  simp only [BitVec.add_assoc]
  rfl

theorem fromSingle_word (s : State) (a : Word) : fromSingle (s.dataBytes a 4) = doubleOfSingle (s.wordAt a) :=
  congrArg doubleOfSingle (loadZero_word s a)

/-- What is left of an access to storage and updates of floating-point registers, then of general ones. -/
theorem State.Moved.onlyFloatLoads {s u v t : State} {frs rs : List RegNum} (moved : s.Moved u) (same : s.SameMemory u)
    (floats : u.OnlyFprs v frs) (gprs : v.OnlyGprs t rs) : s.OnlyFloatLoads t.advance frs rs := by
  have storage : u = s.withStorage u := moved.storage
  refine ⟨fun r hr => ?_, fun r hr => ?_, ?_, fun b => ?_⟩
  · refine Eq.trans ?_ ((floats.others r hr).trans ?_)
    · rw [gprs.rest]; rfl
    · rw [storage]; rfl
  · refine (gprs.others r hr).trans ?_
    rw [floats.rest, storage]
    rfl
  · rw [gprs.rest, floats.rest, storage]
    rfl
  · rw [← same b, gprs.rest, floats.rest]
    rfl

/-! #### Loads (R563 to R572, R581 to R584) -/

theorem floatLoadsInto_of_exec {s : State} {i : Instr} {w ea : Word} {k : Nat} {conv : List Byte → DWord} {frt : RegNum}
    {v : Word → DWord} (hk : k ≤ 28) (runs : exec i s = s.floatInto w ea (2 ^ k) conv frt)
    (value : ∀ a, conv (s.dataBytes a (2 ^ k)) = v a) : FloatLoadsInto s i ea (2 ^ k) frt v := by
  intro fp can
  obtain ⟨u, loaded, moved, same⟩ := State.floatLoad_real hk w ea can
  refine ⟨(u.setFreg frt (v (boundary ea (2 ^ k)))).advance, ?_, u.freg_setFreg_self frt _,
    moved.onlyFloatLoads same (u.setFreg_onlyFprs frt _) (State.OnlyGprs.refl _)⟩
  rw [runs, State.floatInto, needFp_on fp, loaded, ← value]
  rfl

theorem floatLoadsUpdating_of_exec {s : State} {i : Instr} {w ea : Word} {k : Nat} {conv : List Byte → DWord}
    {frt ra : RegNum} {v : Word → DWord} (hk : k ≤ 28) (runs : exec i s = s.floatIntoUpdating w ea (2 ^ k) conv frt ra)
    (value : ∀ a, conv (s.dataBytes a (2 ^ k)) = v a) : FloatLoadsUpdating s i ea (2 ^ k) frt ra v := by
  intro fp can
  obtain ⟨u, loaded, moved, same⟩ := State.floatLoad_real hk w ea can
  have only := State.updateBase_onlyGprs (u.setFreg frt (v (boundary ea (2 ^ k)))) ra ea
  refine ⟨((u.setFreg frt (v (boundary ea (2 ^ k)))).updateBase ra ea).advance, ?_, ?_, State.reg_updateBase _ ea,
    moved.onlyFloatLoads same (u.setFreg_onlyFprs frt _) only⟩
  · rw [runs, State.floatIntoUpdating, needFp_on fp, loaded, ← value]
    rfl
  · exact (congrArg (fun x : State => x.freg frt) only.rest).trans (u.freg_setFreg_self frt _)

/-- An access that can be made still can after another. -/
theorem State.CanLoad.moved {s t : State} {ea : Word} {n : Nat} (h : s.CanLoad ea n) (moved : s.Moved t) :
    t.CanLoad ea n where
  canonical := moved.storage.canonical moved.wf h.canonical
  align := by
    have al : t.msrAL = s.msrAL := by unfold State.msrAL; rw [moved.storage.msr]
    unfold State.AlignFree
    rw [al]
    exact h.align
  real := h.real.moved moved
  readable := h.readable.moved moved

theorem State.CanStore.moved {s t : State} {ea : Word} {n : Nat} (h : s.CanStore ea n) (moved : s.Moved t) :
    t.CanStore ea n :=
  ⟨h.toCanLoad.moved moved, h.noRom.moved moved⟩

theorem State.OnlyGprs.freg {s t : State} {rs : List RegNum} (h : s.OnlyGprs t rs) (r : RegNum) : t.freg r = s.freg r := by
  rw [h.rest]
  rfl

theorem add_one_ne_self (r : RegNum) : r ≠ r + 1 := by
  revert r
  decide

theorem State.setFreg_pair (s : State) (r : RegNum) (x y : DWord) :
    s.OnlyFprs ((s.setFreg r x).setFreg (r + 1) y) [r, r + 1] where
  others q hq := by
    simp only [List.mem_cons, List.not_mem_nil, or_false, not_or] at hq
    rw [State.freg_setFreg_of_ne _ _ hq.2, State.freg_setFreg_of_ne _ _ hq.1]
  rest := rfl

/-- A quad load, with its update of general registers. -/
theorem quadLoads_of_exec {s : State} {i : Instr} {w ea : Word} {frt : RegNum} {rs : List RegNum}
    {update : State → State} (runs : exec i s = s.quadInto w ea frt update)
    (updates : ∀ t : State, t.OnlyGprs (update t) rs ∧ ∀ r ∈ rs, (update t).reg r = ea) : QuadLoads s i ea frt rs := by
  intro fp first second
  obtain ⟨u, loaded1, moved1, same1⟩ := State.floatLoad_real (k := 3) (by decide) w ea first
  obtain ⟨v, loaded2, moved2, same2⟩ := State.floatLoad_real (k := 3) (by decide) w ea (second.moved moved1)
  have first8 : s.floatLoad w ea 8 = .ok (s.dataBytes (boundary ea 8) 8) u := loaded1
  have second8 : u.floatLoad w (ea + 8) 8 ea = .ok (s.dataBytes (boundary (ea + 8) 8) 8) v :=
    loaded2.trans (congrArg (Res.ok · v) (same1.dataBytes _ _))
  let x := s.dwordAt (boundary ea 8)
  let y := s.dwordAt (boundary (ea + 8) 8)
  obtain ⟨only, based⟩ := updates ((v.setFreg frt x).setFreg (frt + 1) y)
  refine ⟨(update ((v.setFreg frt x).setFreg (frt + 1) y)).advance, ?_, ?_, ?_, based, (moved1.trans moved2).onlyFloatLoads (same1.trans same2) (v.setFreg_pair frt x y) only⟩
  · rw [runs, State.quadInto, needFp_on fp, State.quadLoad, first8]
    show Res.outcome (Res.andThen (u.floatLoad w (ea + 8) 8 ea) _) _ = _
    rw [second8]
    show Outcome.next (update ((v.setFreg frt (fromDouble (s.dataBytes (boundary ea 8) 8))).setFreg (frt + 1)
      (fromDouble (s.dataBytes (boundary (ea + 8) 8) 8)))).advance = _
    rw [fromDouble_dword, fromDouble_dword]
  · exact (only.freg frt).trans ((State.freg_setFreg_of_ne _ y (add_one_ne_self frt)).trans (v.freg_setFreg_self frt x))
  · exact (only.freg (frt + 1)).trans (State.freg_setFreg_self _ _ y)

theorem no_update (ea : Word) (t : State) : t.OnlyGprs (id t) [] ∧ ∀ r ∈ ([] : List RegNum), (id t).reg r = ea :=
  ⟨State.OnlyGprs.refl t, fun _ h => (nomatch h)⟩

theorem base_update (ra : RegNum) (ea : Word) (t : State) : t.OnlyGprs (t.updateBase ra ea) (if ra = 0 then [] else [ra])
    ∧ ∀ r ∈ (if ra = 0 then [] else [ra]), (t.updateBase ra ea).reg r = ea := by
  refine ⟨t.updateBase_onlyGprs ra ea, fun r hr => ?_⟩
  by_cases h : ra = 0
  · rw [if_pos h] at hr
    cases hr
  · rw [if_neg h, List.mem_singleton] at hr
    rw [hr, t.reg_updateBase ea h]

/-- Settles O48. -/
theorem floatingPointLoads : Obligations.FloatingPointLoads := fun s _ ra _ _ _ =>
  ⟨floatLoadsInto_of_exec (k := 2) (by decide) rfl (fromSingle_word s),
    floatLoadsInto_of_exec (k := 2) (by decide) rfl (fromSingle_word s),
    floatLoadsUpdating_of_exec (k := 2) (by decide) rfl (fromSingle_word s),
    floatLoadsUpdating_of_exec (k := 2) (by decide) rfl (fromSingle_word s),
    floatLoadsInto_of_exec (k := 3) (by decide) rfl (fromDouble_dword s),
    floatLoadsInto_of_exec (k := 3) (by decide) rfl (fromDouble_dword s),
    floatLoadsUpdating_of_exec (k := 3) (by decide) rfl (fromDouble_dword s),
    floatLoadsUpdating_of_exec (k := 3) (by decide) rfl (fromDouble_dword s),
    quadLoads_of_exec (update := id) rfl (no_update _),
    quadLoads_of_exec (update := id) rfl (no_update _),
    quadLoads_of_exec (update := fun t => t.updateBase ra _) rfl (base_update ra _),
    quadLoads_of_exec (update := fun t => t.updateBase ra _) rfl (base_update ra _)⟩

/-! #### Stores (R563, R573 to R580, R585 to R588) -/

theorem toBytes_eight_eq (v : DWord) : toBytes 8 v = dwordBytes v := by
  rw [dwordBytes, ← toBytes_four_eq, ← toBytes_four_eq, toBytes_four, toBytes_four]
  rw [extractLsb'_field v 24 (by decide), extractLsb'_field v 16 (by decide), extractLsb'_field v 8 (by decide),
    extractLsb'_field v 0 (by decide), extractLsb'_field v 24 (by decide), extractLsb'_field v 16 (by decide),
    extractLsb'_field v 8 (by decide), extractLsb'_field v 0 (by decide)]
  rfl

theorem floatStoresFrom_of_exec {s : State} {i : Instr} {w ea : Word} {k : Nat} {l m : List Byte} (hk : k ≤ 28)
    (bytes : l = m) (hl : m.length = 2 ^ k) (runs : exec i s = s.floatFrom w ea l) : FloatStoresFrom s i ea m := by
  subst bytes
  intro fp can
  rw [hl] at can ⊢
  obtain ⟨u, done, moved, stored⟩ := State.floatStore_real hk hl w ea can
  refine ⟨u.advance, ?_, (State.OnlyGprs.refl u).onlyStores moved stored⟩
  rw [runs, State.floatFrom, needFp_on fp, done]
  rfl

theorem floatStoresUpdating_of_exec {s : State} {i : Instr} {w ea : Word} {k : Nat} {l m : List Byte} {ra : RegNum}
    (hk : k ≤ 28) (bytes : l = m) (hl : m.length = 2 ^ k) (runs : exec i s = s.floatFromUpdating w ea l ra) :
    FloatStoresUpdating s i ea ra m := by
  subst bytes
  intro fp can
  rw [hl] at can ⊢
  obtain ⟨u, done, moved, stored⟩ := State.floatStore_real hk hl w ea can
  refine ⟨(u.updateBase ra ea).advance, ?_, u.reg_updateBase ea, (u.updateBase_onlyGprs ra ea).onlyStores moved stored⟩
  rw [runs, State.floatFromUpdating, needFp_on fp, done]
  rfl

/-- The boundary of the second doubleword. -/
theorem boundary_add_eight (ea : Word) : boundary (ea + 8) 8 = boundary ea 8 + 8 := by
  have offset : (ea + 8 : Word).toNat % 8 = ea.toNat % 8 := by
    rw [BitVec.toNat_add]
    show (ea.toNat + 8) % 2 ^ 32 % 8 = _
    omega
  unfold boundary
  rw [offset]
  exact sub_add_eq_add_sub ea _ 8 |>.symm

/-- A quad store, with its update of general registers. -/
theorem quadStores_of_exec {s : State} {i : Instr} {w ea : Word} {frs : RegNum} {rs : List RegNum}
    {update : State → State} (runs : exec i s = s.quadFrom w ea frs update)
    (updates : ∀ t : State, t.OnlyGprs (update t) rs ∧ ∀ r ∈ rs, (update t).reg r = ea) : QuadStores s i ea frs rs := by
  intro fp first second
  obtain ⟨u, done1, moved1, stored1⟩ :=
    State.floatStore_real (l := s.doubleBytes frs) (k := 3) (by decide) rfl w ea first
  obtain ⟨v, done2, moved2, stored2⟩ :=
    State.floatStore_real (l := s.doubleBytes (frs + 1)) (k := 3) (by decide) rfl w ea (second.moved moved1)
  obtain ⟨only, based⟩ := updates v
  have stored : s.Stored v (boundary ea 8) (s.doubleBytes frs ++ s.doubleBytes (frs + 1)) := by
    refine stored1.append (by decide : 8 + 8 ≤ 2 ^ 32) ?_
    have place : boundary ea 8 + BitVec.ofNat 32 (s.doubleBytes frs).length = boundary (ea + 8) 8 :=
      (boundary_add_eight ea).symm
    rw [place]
    exact stored2
  rw [State.doubleBytes, State.doubleBytes, toBytes_eight_eq, toBytes_eight_eq] at stored
  refine ⟨(update v).advance, ?_, based, only.onlyStores (moved1.trans moved2) stored⟩
  rw [runs, State.quadFrom, needFp_on fp, State.quadStore, done1]
  show Res.outcome (match u.floatStore w (ea + 8) (s.doubleBytes (frs + 1)) ea with | .trap t => _ | r => r) _ = _
  rw [done2]
  rfl

/-- Settles O49. -/
theorem floatingPointStores : Obligations.FloatingPointStores := fun s frs ra _ _ _ =>
  ⟨floatStoresFrom_of_exec (k := 2) (by decide) (toBytes_four_eq _) rfl rfl,
    floatStoresFrom_of_exec (k := 2) (by decide) (toBytes_four_eq _) rfl rfl,
    floatStoresUpdating_of_exec (k := 2) (by decide) (toBytes_four_eq _) rfl rfl,
    floatStoresUpdating_of_exec (k := 2) (by decide) (toBytes_four_eq _) rfl rfl,
    floatStoresFrom_of_exec (k := 3) (by decide) (toBytes_eight_eq (s.freg frs)) rfl rfl,
    floatStoresFrom_of_exec (k := 3) (by decide) (toBytes_eight_eq (s.freg frs)) rfl rfl,
    floatStoresUpdating_of_exec (k := 3) (by decide) (toBytes_eight_eq (s.freg frs)) rfl rfl,
    floatStoresUpdating_of_exec (k := 3) (by decide) (toBytes_eight_eq (s.freg frs)) rfl rfl,
    quadStores_of_exec (update := id) rfl (no_update _),
    quadStores_of_exec (update := id) rfl (no_update _),
    quadStores_of_exec (update := fun t => t.updateBase ra _) rfl (base_update ra _),
    quadStores_of_exec (update := fun t => t.updateBase ra _) rfl (base_update ra _)⟩

end Sys2Proof.Machine

end

/-! ### What instructions do to the FPSCR (R35 to R38, R545, R605 to R607, R631 to R635) -/

section

namespace Sys2Proof.Machine

open Host (Outcome)

/-! #### Exception bits and FX -/

/-- Exception bits that are set stay, and FX tells of a new one (R35). -/
theorem bitAt_setExceptions (v bits : Word) {n : Nat} (hn : n < 32) (h0 : n ≠ 0) :
    bitAt (setExceptions v bits) n = (bitAt v n || bitAt bits n) := by
  unfold setExceptions
  split
  · next h =>
    have none := congrArg (bitAt · n) h
    simp only [bitAt_and, bitAt_not v hn, bitAt_zero] at none
    revert none
    cases bitAt v n <;> cases bitAt bits n <;> decide
  · rw [bitAt_setBit_of_ne _ (by decide) hn (Ne.symm h0), bitAt_or]

/-- The bits of a word are exception bits. -/
def OnlyExceptions (bits : Word) : Prop := ∀ n, n < 32 → bitAt bits n = true → n ∈ exceptionBits

theorem mem_exceptionBits_lt {n : Nat} (h : n ∈ exceptionBits) : n < 32 ∧ n ≠ 0 := by
  revert n
  decide

theorem bitAt_setExceptions_fx {bits : Word} (h : OnlyExceptions bits) (v : Word) :
    bitAt (setExceptions v bits) 0 = (bitAt v 0 || exceptionBits.any fun n => bitAt bits n && !bitAt v n) := by
  have new : (bits &&& ~~~v != 0) = exceptionBits.any fun n => bitAt bits n && !bitAt v n := by
    rw [ne_zero_eq_any, Bool.eq_iff_iff]
    simp only [List.any_eq_true, List.mem_range, bitAt_and]
    constructor
    · rintro ⟨n, hn, hb⟩
      rw [bitAt_not v hn] at hb
      exact ⟨n, h n hn (Bool.and_eq_true_iff.1 hb).1, hb⟩
    · rintro ⟨n, hn, hb⟩
      exact ⟨n, (mem_exceptionBits_lt hn).1, by rw [bitAt_not v (mem_exceptionBits_lt hn).1]; exact hb⟩
  rw [← new]
  unfold setExceptions
  split
  · next none => rw [none, bne_self_eq_false, Bool.or_false]
  · next some => rw [bitAt_setBit_self _ (by decide), bne_iff_ne.2 some, Bool.or_true]

/-- FX after exception bits are set in an FPSCR whose exception bits and FX were those of `before`. -/
theorem setsFx_setExceptions {before v bits : Word} (h : OnlyExceptions bits) (fx : bitAt v 0 = bitAt before 0)
    (same : ∀ n ∈ exceptionBits, bitAt v n = bitAt before n) : SetsFx before (fpSummary (setExceptions v bits)) := by
  have sticky : ∀ n ∈ exceptionBits, n ∉ [1, 2, 20, 21, 29] := by decide
  have bit (n : Nat) (hn : n ∈ exceptionBits) :
      (bitAt (fpSummary (setExceptions v bits)) n && !bitAt before n) = (bitAt bits n && !bitAt v n) := by
    obtain ⟨hlt, h0⟩ := mem_exceptionBits_lt hn
    rw [bitAt_fpSummary_of _ hlt (sticky n hn), bitAt_setExceptions v bits hlt h0, same n hn]
    cases bitAt before n <;> cases bitAt bits n <;> rfl
  have all : (exceptionBits.any fun n => bitAt (fpSummary (setExceptions v bits)) n && !bitAt before n)
      = exceptionBits.any fun n => bitAt bits n && !bitAt v n := by
    rw [Bool.eq_iff_iff, List.any_eq_true, List.any_eq_true]
    exact exists_congr fun n => and_congr_right fun hn => by rw [bit n hn]
  show bitAt _ 0 = (bitAt before 0 || exceptionBits.any fun n => _)
  rw [all, bitAt_fpSummary_of _ (by decide) (by decide), bitAt_setExceptions_fx h, fx]

/-! #### Moves to the FPSCR (R631 to R635) -/

/-- What a move of `v` to the FPSCR leaves. -/
def State.WritesFpscr (s : State) (i : Instr) (rc : Bool) (f : Nat → Bool) : Prop :=
  ∃ u : State, exec i s = .next u.fpNext ∧ s.OnlyFloat u [] rc ∧ u.fpr = s.fpr ∧ Summarized u.fpscr
    ∧ ∀ n, n < 32 → n ∉ [1, 2, 20, 21, 29] → bitAt u.fpscr n = f n

theorem State.recordFp_fpr (s : State) (rc : Bool) : (s.recordFp rc).fpr = s.fpr := by cases rc <;> rfl

theorem writesFpscr_of_exec {s : State} {i : Instr} {rc : Bool} {v : Word} {f : Nat → Bool} (fp : s.msrFP = true)
    (runs : exec i s = needFp s (.next (s.writeFpscr v rc)))
    (bits : ∀ n, n < 32 → n ∉ [1, 2, 20, 21, 29] → bitAt v n = f n) : s.WritesFpscr i rc f := by
  let u : State := { s with fpscr := fpSummary v }
  refine ⟨u.recordFp rc, runs.trans (needFp_on fp _),
    State.recordFp_onlyFloat (s := s) (u := u) (rs := []) (fun _ _ => rfl) rfl rfl (fun _ => rfl) rc,
    State.recordFp_fpr u rc, ?_, fun n hn hfree => ?_⟩
  · rw [State.recordFp_fpscr]
    exact summarized_fpSummary v
  · rw [State.recordFp_fpscr]
    exact (bitAt_fpSummary_of v hn hfree).trans (bits n hn hfree)

/-- The bits under a mask of fields (R632). -/
theorem bitAt_flmMask (flm : BitVec 8) (k i : Nat) (h : i + k ≤ 8) (n : Nat) :
    bitAt (flmMask flm k i) n = (decide (i ≤ n / 4) && decide (n / 4 < i + k) && flm.getMsbD (n / 4)) := by
  induction k generalizing i with
  | zero =>
    rw [flmMask, bitAt_zero]
    have empty : ¬ (i ≤ n / 4 ∧ n / 4 < i + 0) := by omega
    by_cases low : i ≤ n / 4
    · rw [decide_eq_false (p := n / 4 < i + 0) fun high => empty ⟨low, high⟩, Bool.and_false, Bool.false_and]
    · rw [decide_eq_false low, Bool.false_and, Bool.false_and]
  | succ k ih =>
    have field : bitAt (if flm.getMsbD i then fieldMask (4 * i) 4 else 0) n = (decide (n / 4 = i) && flm.getMsbD (n / 4)) := by
      by_cases here : n / 4 = i
      · rw [here, decide_eq_true rfl, Bool.true_and]
        cases flm.getMsbD i with
        | false => exact bitAt_zero n
        | true =>
          rw [if_pos rfl, bitAt_fieldMask (by omega), decide_eq_true (by omega), decide_eq_true (by omega)]
          rfl
      · rw [decide_eq_false here, Bool.false_and]
        split
        · rw [bitAt_fieldMask (by omega)]
          by_cases low : 4 * i ≤ n
          · rw [decide_eq_false (p := n < 4 * i + 4) (by omega), Bool.and_false]
          · rw [decide_eq_false low, Bool.false_and]
        · exact bitAt_zero n
    rw [flmMask, bitAt_or, field, ih (i + 1) (by omega), ← Bool.and_or_distrib_right]
    congr 1
    rw [Bool.eq_iff_iff]
    simp only [Bool.or_eq_true, Bool.and_eq_true, decide_eq_true_eq]
    omega

theorem bitAt_flmMask_all (flm : BitVec 8) {n : Nat} (hn : n < 32) :
    bitAt (flmMask flm 8 0) n = flm.getMsbD (n / 4) := by
  rw [bitAt_flmMask flm 8 0 (by decide), decide_eq_true (by omega), decide_eq_true (by omega)]
  rfl

/-- Bits chosen by a mask. -/
theorem bitAt_select (x y m : Word) {n : Nat} (hn : n < 32) :
    bitAt ((x &&& m) ||| (y &&& ~~~m)) n = if bitAt m n then bitAt x n else bitAt y n := by
  rw [bitAt_or, bitAt_and, bitAt_and, bitAt_not m hn]
  cases bitAt m n <;> simp

theorem onlyExceptions_and (v : Word) : OnlyExceptions (v &&& exceptionMask) := by
  intro n hn h
  rw [bitAt_and, bitAt_exceptionMask n hn, Bool.and_eq_true, List.contains_iff_mem] at h
  exact h.2

/-- mtfsb1 of an exception bit that was 0 sets FX too (R635). -/
theorem bitAt_mtfsb1 (v : Word) (bt : BitVec 5) {n : Nat} (hn : n < 32) :
    bitAt (setBit (setExceptions v (bitMask bt.toNat &&& exceptionMask)) bt.toNat true) n
      = if n = bt.toNat then true
        else if n = 0 ∧ exceptionBits.contains bt.toNat = true ∧ bitAt v bt.toNat = false then true
        else bitAt v n := by
  rw [bitAt_setBit _ bt.isLt hn]
  by_cases self : n = bt.toNat
  · rw [if_pos self.symm, if_pos self]
  rw [if_neg (Ne.symm self), if_neg self]
  have bit (k : Nat) (hk : k < 32) : bitAt (bitMask bt.toNat &&& exceptionMask) k
      = (decide (bt.toNat = k) && exceptionBits.contains k) := by
    rw [bitAt_and, bitAt_bitMask bt.isLt, bitAt_exceptionMask k hk]
  by_cases zero : n = 0
  · subst zero
    rw [bitAt_setExceptions_fx (onlyExceptions_and _)]
    have new : (exceptionBits.any fun k => bitAt (bitMask bt.toNat &&& exceptionMask) k && !bitAt v k) = true
        ↔ exceptionBits.contains bt.toNat = true ∧ bitAt v bt.toNat = false := by
      rw [List.any_eq_true]
      constructor
      · rintro ⟨k, hk, hb⟩
        rw [bit k (mem_exceptionBits_lt hk).1] at hb
        simp only [Bool.and_eq_true, decide_eq_true_eq, Bool.not_eq_true'] at hb
        obtain ⟨⟨rfl, listed⟩, off⟩ := hb
        exact ⟨listed, off⟩
      · rintro ⟨listed, off⟩
        refine ⟨bt.toNat, List.contains_iff_mem.1 listed, ?_⟩
        rw [bit _ bt.isLt, decide_eq_true rfl, listed, off]
        rfl
    by_cases h : exceptionBits.contains bt.toNat = true ∧ bitAt v bt.toNat = false
    · rw [if_pos ⟨rfl, h⟩, new.2 h, Bool.or_true]
    · rw [if_neg fun all => h all.2, Bool.eq_false_iff.2 fun all => h (new.1 all), Bool.or_false]
  · rw [if_neg fun all => zero all.1, bitAt_setExceptions _ _ hn zero, bit n hn, decide_eq_false (Ne.symm self),
      Bool.false_and, Bool.or_false]

/-- Settles O58. -/
theorem fpscrInstructions : Obligations.FpscrInstructions := by
  intro s bf bfa v bt frb flm rc fp free exceptions writes
  have wrote : ∀ {i : Instr} {v : Word} {f : Nat → Bool}, exec i s = needFp s (.next (s.writeFpscr v rc)) →
      (∀ n, n < 32 → n ∉ free → bitAt v n = f n) → s.WritesFpscr i rc f := writesFpscr_of_exec fp
  refine ⟨wrote rfl fun n hn _ => ?_, wrote rfl fun n hn _ => ?_, wrote rfl fun n hn _ => ?_,
    wrote rfl fun n hn _ => bitAt_mtfsb1 s.fpscr bt hn, ?_⟩
  · rw [bitAt_select _ _ _ hn, bitAt_flmMask_all flm hn]
  · have width := bf.isLt
    rw [bitAt_setBits _ (by omega) v hn]
    by_cases here : n / 4 = bf.toNat
    · rw [if_pos (by omega), if_pos here]
      congr 1
      omega
    · rw [if_neg (by omega), if_neg here]
  · rw [bitAt_setBit _ bt.isLt hn]
    simp only [eq_comm]
  · refine ⟨_, needFp_on fp _, State.crField_setCrField_self _ bf _, fun f hf => ?_, fun n hn hfree => ?_,
      summarized_fpSummary _, rfl⟩
    · exact State.crField_setCrField_of_ne _ _ hf
    · have width := bfa.isLt
      refine (bitAt_fpSummary_of _ hn hfree).trans ?_
      have mask : bitAt mcrfsMask n = (n == 0 || exceptionBits.contains n) := by
        have all : ∀ n, n < 32 → bitAt mcrfsMask n = (n == 0 || exceptionBits.contains n) := by decide
        exact all n hn
      have field : (decide (4 * bfa.toNat ≤ n) && decide (n < 4 * bfa.toNat + 4)) = (n / 4 == bfa.toNat) := by
        rw [Bool.eq_iff_iff]
        simp only [Bool.and_eq_true, decide_eq_true_eq, beq_iff_eq]
        omega
      rw [bitAt_and, bitAt_not _ hn, bitAt_and, mask, bitAt_fieldMask (by omega), field, Bool.and_comm (n == 0 || _)]
      rfl

end Sys2Proof.Machine

end

/-! ### Floating-point numbers by sign and magnitude (R522, R523) -/

section

namespace Sys2Proof.Machine

/-! #### Sign and magnitude -/

/-- The bits below the sign: EXP and FRACTION as one number. It orders the magnitudes. -/
def fpMag (x : DWord) : Nat := (x.extractLsb' 0 63).toNat

/-- The magnitude with these bits. -/
def magValue (m : Nat) : ℚ :=
  if m / 2 ^ 52 = 0 then (m : ℚ) * 2 ^ (-1074 : ℤ)
  else ((2 ^ 52 + m % 2 ^ 52 : Nat) : ℚ) * 2 ^ (((m / 2 ^ 52 : Nat) : ℤ) - 1075)

/-- The bits of an infinity. -/
def infMag : Nat := 2047 * 2 ^ 52

theorem fpExp_eq (x : DWord) : fpExp x = fpMag x / 2 ^ 52 := by
  unfold fpExp fpMag
  rw [BitVec.extractLsb'_toNat, BitVec.extractLsb'_toNat]
  simp only [Nat.shiftRight_eq_div_pow]
  omega

theorem fpFrac_eq (x : DWord) : fpFrac x = fpMag x % 2 ^ 52 := by
  unfold fpFrac fpMag
  rw [BitVec.extractLsb'_toNat, BitVec.extractLsb'_toNat]
  simp only [Nat.shiftRight_eq_div_pow]
  omega

theorem fpMag_lt (x : DWord) : fpMag x < 2 ^ 63 := (x.extractLsb' 0 63).isLt

theorem fpMag_eq_mod (x : DWord) : fpMag x = x.toNat % 2 ^ 63 := by
  rw [fpMag, BitVec.extractLsb'_toNat, Nat.shiftRight_zero]

theorem fpSign_eq (x : DWord) : fpSign x = decide (2 ^ 63 ≤ x.toNat) := by
  rw [fpSign, ← BitVec.msb_eq_getMsbD_zero, BitVec.msb_eq_decide]

/-- A number is its sign and its magnitude. -/
theorem eq_of_sign_mag {x y : DWord} (sign : fpSign x = fpSign y) (mag : fpMag x = fpMag y) : x = y := by
  apply BitVec.eq_of_toNat_eq
  rw [fpSign_eq, fpSign_eq, decide_eq_decide] at sign
  rw [fpMag_eq_mod, fpMag_eq_mod] at mag
  have hx := x.isLt
  have hy := y.isLt
  omega

/-- The number of a sign and a magnitude. -/
theorem sign_mag_append (sign : Bool) (m : BitVec 63) :
    fpSign (BitVec.ofBool sign ++ m) = sign ∧ fpMag (BitVec.ofBool sign ++ m) = m.toNat := by
  constructor
  · cases sign <;> exact BitVec.getMsbD_append.trans rfl
  · exact congrArg BitVec.toNat (BitVec.extractLsb'_append_eq_right (a := BitVec.ofBool sign) (b := m))

/-! #### Classes -/

theorem fpFinite_iff (x : DWord) : fpFinite x = true ↔ fpMag x < infMag := by
  have bound := fpMag_lt x
  unfold fpFinite infMag
  rw [bne_iff_ne, fpExp_eq]
  omega

theorem isInf_iff (x : DWord) : isInf x = true ↔ fpMag x = infMag := by
  have bound := fpMag_lt x
  unfold isInf infMag
  rw [Bool.and_eq_true, beq_iff_eq, beq_iff_eq, fpExp_eq, fpFrac_eq]
  omega

theorem isNan_iff (x : DWord) : isNan x = true ↔ infMag < fpMag x := by
  have bound := fpMag_lt x
  unfold isNan infMag
  rw [Bool.and_eq_true, beq_iff_eq, bne_iff_ne, fpExp_eq, fpFrac_eq]
  omega

theorem isZero_iff (x : DWord) : isZero x = true ↔ fpMag x = 0 := by
  have bound := fpMag_lt x
  unfold isZero
  rw [Bool.and_eq_true, beq_iff_eq, beq_iff_eq, fpExp_eq, fpFrac_eq]
  omega

theorem isNan_of_isSnan {x : DWord} (h : isSnan x = true) : isNan x = true := (Bool.and_eq_true_iff.1 h).1

theorem isNan_eq_false_of_isInf {x : DWord} (h : isInf x = true) : isNan x = false := by
  rw [Bool.eq_false_iff, ne_eq, isNan_iff, (isInf_iff x).1 h]
  exact Nat.lt_irrefl _

theorem isNan_eq_false_of_finite {x : DWord} (h : fpFinite x = true) : isNan x = false := by
  rw [Bool.eq_false_iff, ne_eq, isNan_iff]
  exact Nat.lt_asymm ((fpFinite_iff x).1 h)

theorem isInf_eq_false_of_finite {x : DWord} (h : fpFinite x = true) : isInf x = false := by
  rw [Bool.eq_false_iff, ne_eq, isInf_iff]
  exact Nat.ne_of_lt ((fpFinite_iff x).1 h)

theorem isNan_eq_false_of_isZero {x : DWord} (h : isZero x = true) : isNan x = false := by
  rw [Bool.eq_false_iff, ne_eq, isNan_iff, (isZero_iff x).1 h]
  exact Nat.not_lt_zero _

theorem isInf_eq_false_of_isZero {x : DWord} (h : isZero x = true) : isInf x = false := by
  rw [Bool.eq_false_iff, ne_eq, isInf_iff, (isZero_iff x).1 h]
  decide

/-! #### Values -/

theorem magValue_of_small {m : Nat} (h : m < 2 ^ 52) : magValue m = (m : ℚ) * 2 ^ (-1074 : ℤ) :=
  if_pos (Nat.div_eq_of_lt h)

/-- The magnitude with biased exponent e, not 0, and fraction f. -/
theorem magValue_normal {e f : Nat} (he : 0 < e) (hf : f < 2 ^ 52) :
    magValue (e * 2 ^ 52 + f) = ((2 ^ 52 + f : Nat) : ℚ) * 2 ^ ((e : ℤ) - 1075) := by
  have exp : (e * 2 ^ 52 + f) / 2 ^ 52 = e := by omega
  have frac : (e * 2 ^ 52 + f) % 2 ^ 52 = f := by omega
  unfold magValue
  rw [exp, frac, if_neg (by omega)]

theorem two_zpow_pos (k : ℤ) : (0 : ℚ) < 2 ^ k := zpow_pos (by norm_num) k

theorem magValue_lt_succ (m : Nat) : magValue m < magValue (m + 1) := by
  obtain ⟨e, f, hf, rfl⟩ : ∃ e f, f < 2 ^ 52 ∧ m = e * 2 ^ 52 + f :=
    ⟨m / 2 ^ 52, m % 2 ^ 52, Nat.mod_lt _ (by decide), (Nat.div_add_mod' m _).symm⟩
  have next (h : f + 1 = 2 ^ 52) : magValue (e * 2 ^ 52 + f + 1) = (2 ^ 52 : ℚ) * 2 ^ ((e : ℤ) - 1074) := by
    rw [show e * 2 ^ 52 + f + 1 = (e + 1) * 2 ^ 52 + 0 by omega, magValue_normal (Nat.succ_pos e) (by decide),
      show ((e + 1 : Nat) : ℤ) - 1075 = e - 1074 by push_cast; ring]
    norm_num
  rcases Nat.eq_zero_or_pos e with rfl | he
  · rw [Nat.zero_mul, Nat.zero_add, magValue_of_small hf]
    have pos := two_zpow_pos (-1074)
    by_cases h : f + 1 = 2 ^ 52
    · rw [← Nat.zero_add f, ← Nat.zero_mul (2 ^ 52), next h, Nat.zero_mul, Nat.zero_add]
      have small : (f : ℚ) < 2 ^ 52 := by exact_mod_cast hf
      exact mul_lt_mul_of_pos_right small pos
    · rw [magValue_of_small (by omega), Nat.cast_add_one]
      exact mul_lt_mul_of_pos_right (lt_add_one _) pos
  · have pos := two_zpow_pos ((e : ℤ) - 1075)
    rw [magValue_normal he hf]
    by_cases h : f + 1 = 2 ^ 52
    · have double : (2 : ℚ) ^ ((e : ℤ) - 1074) = 2 * 2 ^ ((e : ℤ) - 1075) := by
        rw [show (e : ℤ) - 1074 = 1 + (e - 1075) by ring, zpow_add₀ (by norm_num), zpow_one]
      have small : (f : ℚ) < 2 ^ 52 := by exact_mod_cast hf
      rw [next h, double]
      push_cast
      nlinarith
    · rw [Nat.add_assoc, magValue_normal he (by omega)]
      push_cast
      linarith

theorem magValue_strictMono : StrictMono magValue := strictMono_nat_of_lt_succ magValue_lt_succ

theorem magValue_zero : magValue 0 = 0 := by rw [magValue_of_small (by decide), Nat.cast_zero, zero_mul]

theorem magValue_nonneg (m : Nat) : 0 ≤ magValue m := by
  rw [← magValue_zero]
  exact magValue_strictMono.monotone (Nat.zero_le m)

/-- A value is the signed magnitude. -/
theorem fpValue_eq (x : DWord) : fpValue x = (if fpSign x then -1 else 1) * magValue (fpMag x) := by
  unfold fpValue magValue
  rw [fpExp_eq, fpFrac_eq]
  by_cases h : fpMag x / 2 ^ 52 = 0
  · rw [if_pos h, if_pos h, Nat.mod_eq_of_lt ((Nat.div_eq_zero_iff_lt (by decide)).1 h)]
  · rw [if_neg h, if_neg h, Nat.cast_add, Nat.cast_pow, Nat.cast_ofNat]

theorem abs_fpValue (x : DWord) : |fpValue x| = magValue (fpMag x) := by
  rw [fpValue_eq, abs_mul, abs_of_nonneg (magValue_nonneg _)]
  cases fpSign x <;> simp

theorem fpValue_of_positive {x : DWord} (h : fpSign x = false) : fpValue x = magValue (fpMag x) := by
  rw [fpValue_eq, h]
  simp

theorem fpValue_of_negative {x : DWord} (h : fpSign x = true) : fpValue x = -magValue (fpMag x) := by
  rw [fpValue_eq, h]
  simp

theorem fpValue_eq_zero_iff (x : DWord) : fpValue x = 0 ↔ fpMag x = 0 := by
  rw [← abs_eq_zero, abs_fpValue, ← magValue_zero]
  exact magValue_strictMono.injective.eq_iff

/-! #### Order (R605) -/

theorem fpOrder_eq (x : DWord) : fpOrder x = if fpSign x then -(fpMag x : ℤ) else fpMag x := rfl

/-- The values order like the numbers by sign and magnitude. -/
theorem fpValue_lt_iff (a b : DWord) : fpValue a < fpValue b ↔ fpOrder a < fpOrder b := by
  have mono : ∀ {m n : Nat}, magValue m < magValue n ↔ m < n := magValue_strictMono.lt_iff_lt
  have ha := magValue_nonneg (fpMag a)
  have hb := magValue_nonneg (fpMag b)
  have zeroA : magValue (fpMag a) = 0 ↔ fpMag a = 0 := by rw [← magValue_zero, magValue_strictMono.injective.eq_iff]
  have zeroB : magValue (fpMag b) = 0 ↔ fpMag b = 0 := by rw [← magValue_zero, magValue_strictMono.injective.eq_iff]
  rw [fpOrder_eq, fpOrder_eq]
  cases sa : fpSign a <;> cases sb : fpSign b
  · rw [fpValue_of_positive sa, fpValue_of_positive sb, mono]
    simp
  · rw [fpValue_of_positive sa, fpValue_of_negative sb]
    constructor
    · intro h; linarith
    · intro h; simp only [Bool.false_eq_true, if_false, if_true] at h; omega
  · rw [fpValue_of_negative sa, fpValue_of_positive sb]
    simp only [Bool.false_eq_true, if_false, if_true]
    constructor
    · intro h
      by_contra none
      have a0 := zeroA.2 (by omega)
      have b0 := zeroB.2 (by omega)
      linarith
    · intro h
      rcases Nat.eq_zero_or_pos (fpMag a) with a0 | a0
      · have : magValue (fpMag b) ≠ 0 := fun e => by have := zeroB.1 e; omega
        have := lt_of_le_of_ne hb (Ne.symm this)
        linarith
      · have : magValue (fpMag a) ≠ 0 := fun e => by have := zeroA.1 e; omega
        have := lt_of_le_of_ne ha (Ne.symm this)
        linarith
  · rw [fpValue_of_negative sa, fpValue_of_negative sb, neg_lt_neg_iff, mono]
    simp

theorem fpValue_eq_iff (a b : DWord) : fpValue a = fpValue b ↔ fpOrder a = fpOrder b := by
  have below := fpValue_lt_iff a b
  have above := fpValue_lt_iff b a
  constructor
  · intro h
    rw [h] at below above
    exact le_antisymm (not_lt.1 fun l => lt_irrefl _ (above.2 l)) (not_lt.1 fun l => lt_irrefl _ (below.2 l))
  · intro h
    rw [h] at below above
    exact le_antisymm (not_lt.1 fun l => lt_irrefl _ (above.1 l)) (not_lt.1 fun l => lt_irrefl _ (below.1 l))

end Sys2Proof.Machine

end

/-! ### Floating-point compares (R605, R606) -/

section

namespace Sys2Proof.Machine

open Host (Outcome)

/-! #### The result of a compare -/

theorem fpCompare_nan {a b : DWord} (h : isNan a = true ∨ isNan b = true) : fpCompare a b = 0b0001 :=
  if_pos (Bool.or_eq_true_iff.2 h)

theorem fpCompare_ordered {a b : DWord} (ha : isNan a = false) (hb : isNan b = false) : fpCompare a b
    = crNibble (decide (fpOrder a < fpOrder b)) (decide (fpOrder b < fpOrder a)) (decide (fpOrder a = fpOrder b)) false :=
  if_neg (by rw [ha, hb]; decide)

theorem fpCompare_finite {a b : DWord} (ha : fpFinite a = true) (hb : fpFinite b = true) : fpCompare a b
    = crNibble (decide (fpValue a < fpValue b)) (decide (fpValue b < fpValue a)) (decide (fpValue a = fpValue b)) false := by
  rw [fpCompare_ordered (isNan_eq_false_of_finite ha) (isNan_eq_false_of_finite hb)]
  simp only [fpValue_lt_iff, fpValue_eq_iff]

/-- An infinity is beyond every other number. -/
theorem fpOrder_inf {a b : DWord} (inf : isInf a = true) (number : isNan b = false) (ne : a ≠ b) :
    (fpSign a = true → fpOrder a < fpOrder b) ∧ (fpSign a = false → fpOrder b < fpOrder a) := by
  have ma := (isInf_iff a).1 inf
  have mb : fpMag b ≤ infMag := by
    rw [Bool.eq_false_iff, ne_eq, isNan_iff] at number
    omega
  have differ : fpMag a = fpMag b → fpSign a ≠ fpSign b := fun mag sign => ne (eq_of_sign_mag sign mag)
  have positive : 0 < infMag := by decide
  rw [fpOrder_eq, fpOrder_eq, ma] at *
  refine ⟨fun sa => ?_, fun sa => ?_⟩
  · rw [sa, if_pos rfl]
    cases sb : fpSign b with
    | true =>
      have := differ.mt (not_not_intro (sa.trans sb.symm))
      simp only [if_true]
      omega
    | false =>
      simp only [Bool.false_eq_true, if_false]
      omega
  · rw [sa, if_neg Bool.false_ne_true]
    cases sb : fpSign b with
    | true =>
      simp only [if_true]
      omega
    | false =>
      have := differ.mt (not_not_intro (sa.trans sb.symm))
      simp only [Bool.false_eq_true, if_false]
      omega

theorem fpCompare_inf_left {a b : DWord} (inf : isInf a = true) (number : isNan b = false) (ne : a ≠ b) :
    fpCompare a b = crNibble (fpSign a) (!fpSign a) false false := by
  obtain ⟨below, above⟩ := fpOrder_inf inf number ne
  rw [fpCompare_ordered (isNan_eq_false_of_isInf inf) number]
  cases sa : fpSign a with
  | true =>
    have := below sa
    rw [decide_eq_true this, decide_eq_false (by omega), decide_eq_false (by omega)]
    rfl
  | false =>
    have := above sa
    rw [decide_eq_false (by omega), decide_eq_true this, decide_eq_false (by omega)]
    rfl

theorem fpCompare_inf_right {a b : DWord} (inf : isInf b = true) (number : isNan a = false) (ne : a ≠ b) :
    fpCompare a b = crNibble (!fpSign b) (fpSign b) false false := by
  obtain ⟨below, above⟩ := fpOrder_inf inf number (Ne.symm ne)
  rw [fpCompare_ordered number (isNan_eq_false_of_isInf inf)]
  cases sb : fpSign b with
  | true =>
    have := below sb
    rw [decide_eq_false (by omega), decide_eq_true this, decide_eq_false (by omega)]
    rfl
  | false =>
    have := above sb
    rw [decide_eq_true this, decide_eq_false (by omega), decide_eq_false (by omega)]
    rfl

theorem fpCompare_self {a : DWord} (inf : isInf a = true) : fpCompare a a = crNibble false false true false := by
  rw [fpCompare_ordered (isNan_eq_false_of_isInf inf) (isNan_eq_false_of_isInf inf)]
  simp

/-! #### Completion -/

/-- What a compare leaves. -/
def State.Compares (s : State) (bf : CrField) (a b : DWord) (i : Instr) (p : Word → Prop) : Prop :=
  ∃ u : State, exec i s = .next u.fpNext ∧ u = { s with cr := u.cr, fpscr := u.fpscr } ∧ Summarized u.fpscr
    ∧ SetsFx s.fpscr u.fpscr
    ∧ (∀ f, f ≠ bf → u.crField f = s.crField f) ∧ bitsAt u.fpscr 16 4 = u.crField bf
    ∧ (∀ n ∈ [3, 4, 5, 6, 8, 9, 10, 11, 13, 14, 15, 22, 23, 24, 25, 26, 27, 28, 30, 31], bitAt u.fpscr n = bitAt s.fpscr n)
    ∧ (isNan a = true ∨ isNan b = true → u.crField bf = 0b0001)
    ∧ (fpFinite a = true → fpFinite b = true →
      u.crField bf = crNibble (decide (fpValue a < fpValue b)) (decide (fpValue b < fpValue a))
        (decide (fpValue a = fpValue b)) false)
    ∧ (isInf a = true → isNan b = false → a ≠ b → u.crField bf = crNibble (fpSign a) (!fpSign a) false false)
    ∧ (isInf b = true → isNan a = false → a ≠ b → u.crField bf = crNibble (!fpSign b) (fpSign b) false false)
    ∧ (isInf a = true → a = b → u.crField bf = crNibble false false true false)
    ∧ p u.fpscr

/-- The FPSCR after a compare, bit by bit. -/
theorem bitAt_compare (v : Word) (c : BitVec 4) (bits : Word) {n : Nat} (hn : n < 32)
    (h : n ∉ [0, 1, 2, 20, 21, 29]) :
    bitAt (fpSummary (setExceptions (setBits v 16 4 c) bits)) n
      = ((if 16 ≤ n ∧ n < 20 then c.getMsbD (n - 16) else bitAt v n) || bitAt bits n) := by
  simp only [List.mem_cons, List.not_mem_nil, or_false, not_or] at h
  obtain ⟨h0, h1, h2, h20, h21, h29⟩ := h
  rw [bitAt_fpSummary_of _ hn (by simp [h1, h2, h20, h21, h29]), bitAt_setExceptions _ _ hn h0,
    bitAt_setBits _ (by decide) c hn]

theorem compares_of_exec {s : State} {bf : CrField} {a b : DWord} {i : Instr} {bits : Word} {p : Word → Prop}
    (runs : exec i s = .next (s.compare bf a b bits)) (within : ∀ n, n < 32 → bitAt bits n = true → n = 7 ∨ n = 12)
    (hp : ∀ v : Word, bitAt v 7 = (bitAt s.fpscr 7 || bitAt bits 7) → bitAt v 12 = (bitAt s.fpscr 12 || bitAt bits 12) → p v) :
    s.Compares bf a b i p := by
  let c := fpCompare a b
  let v := fpSummary (setExceptions (setBits s.fpscr 16 4 c) bits)
  let u : State := ({ s with fpscr := v } : State).setCrField bf c
  have field : u.crField bf = c := State.crField_setCrField_self _ bf c
  have bit (n : Nat) (hn : n < 32) (h : n ∉ [0, 1, 2, 20, 21, 29]) :
      bitAt v n = ((if 16 ≤ n ∧ n < 20 then c.getMsbD (n - 16) else bitAt s.fpscr n) || bitAt bits n) :=
    bitAt_compare s.fpscr c bits hn h
  have exceptions : OnlyExceptions bits := fun n hn hb => by
    obtain rfl | rfl := within n hn hb <;> decide
  have off (n : Nat) (hn : n < 32) (h7 : n ≠ 7) (h12 : n ≠ 12) : bitAt bits n = false :=
    Bool.eq_false_iff.2 fun hb => (within n hn hb).elim h7 h12
  refine ⟨u, runs, rfl, summarized_fpSummary _, setsFx_setExceptions exceptions ?fx ?same,
    fun f hf => State.crField_setCrField_of_ne _ _ hf, ?fpcc, ?keeps, fun h => field.trans (fpCompare_nan h),
    fun ha hb => field.trans (fpCompare_finite ha hb), fun ha hb ne => field.trans (fpCompare_inf_left ha hb ne),
    fun hb ha ne => field.trans (fpCompare_inf_right hb ha ne), fun ha e => ?_, hp v ?_ ?_⟩
  case fx => rw [bitAt_setBits _ (by decide) c (by decide), if_neg (by decide)]
  case same =>
    intro n hn
    have outside : ∀ n ∈ exceptionBits, ¬ (16 ≤ n ∧ n < 16 + 4) := by decide
    rw [bitAt_setBits _ (by decide) c (mem_exceptionBits_lt hn).1, if_neg (outside n hn)]
  case fpcc =>
    rw [field]
    refine BitVec.eq_of_getMsbD_eq fun j hj => ?_
    rw [getMsbD_bitsAt _ (by decide) hj]
    refine (bit (16 + j) (by omega) ?_).trans ?_
    · simp only [List.mem_cons, List.not_mem_nil, or_false, not_or]
      omega
    · rw [if_pos (by omega), off _ (by omega) (by omega) (by omega), Bool.or_false, Nat.add_sub_cancel_left]
  case keeps =>
    intro n hn
    have facts : ∀ n ∈ [3, 4, 5, 6, 8, 9, 10, 11, 13, 14, 15, 22, 23, 24, 25, 26, 27, 28, 30, 31],
        n < 32 ∧ n ∉ [0, 1, 2, 20, 21, 29] ∧ n ≠ 7 ∧ n ≠ 12 ∧ ¬ (16 ≤ n ∧ n < 20) := by decide
    obtain ⟨hlt, free, h7, h12, outside⟩ := facts n hn
    refine (bit n hlt free).trans ?_
    rw [if_neg outside, off n hlt h7 h12, Bool.or_false]
  · subst e
    exact field.trans (fpCompare_self ha)
  · exact bit 7 (by decide) (by decide)
  · exact bit 12 (by decide) (by decide)

theorem snanOr_pair (a b : DWord) : snanOr [a, b] 0 = if isSnan a || isSnan b then vxSnan else 0 := by
  unfold snanOr
  simp only [List.any_cons, List.any_nil, Bool.or_false]

/-- The exception bits of fcmpo (R606). -/
def orderedBits (s : State) (a b : DWord) : Word :=
  if isSnan a || isSnan b then (if s.fpVE then vxSnan else vxSnan ||| vxVc)
  else if isNan a || isNan b then vxVc
  else 0

theorem orderedBits_at : ∀ snan nan ve : Bool, (snan = true → nan = true) →
    bitAt (if snan then (if ve then vxSnan else vxSnan ||| vxVc) else if nan then vxVc else 0) 7 = snan
      ∧ bitAt (if snan then (if ve then vxSnan else vxSnan ||| vxVc) else if nan then vxVc else 0) 12
        = (nan && !(snan && ve)) := by
  decide

theorem within_compare : (∀ n, n < 32 → bitAt vxSnan n = true → n = 7 ∨ n = 12)
    ∧ (∀ n, n < 32 → bitAt (vxSnan ||| vxVc) n = true → n = 7 ∨ n = 12)
    ∧ (∀ n, n < 32 → bitAt vxVc n = true → n = 7 ∨ n = 12) ∧ (∀ n, n < 32 → bitAt 0 n = true → n = 7 ∨ n = 12) := by
  decide

/-- Settles O57. -/
theorem floatingPointCompares : Obligations.FloatingPointCompares := by
  intro s bf fra frb fp a b compares snan nan
  obtain ⟨withinSnan, withinBoth, withinVc, withinNone⟩ := within_compare
  have compared : ∀ {i : Instr} {bits : Word} {p : Word → Prop}, exec i s = .next (s.compare bf a b bits) →
      (∀ n, n < 32 → bitAt bits n = true → n = 7 ∨ n = 12) →
      (∀ v : Word, bitAt v 7 = (bitAt s.fpscr 7 || bitAt bits 7) → bitAt v 12 = (bitAt s.fpscr 12 || bitAt bits 12) → p v) →
      s.Compares bf a b i p := compares_of_exec
  have snanNan : snan = true → nan = true := fun h => by
    obtain h | h := Bool.or_eq_true_iff.1 h
    · exact Bool.or_eq_true_iff.2 (.inl (isNan_of_isSnan h))
    · exact Bool.or_eq_true_iff.2 (.inr (isNan_of_isSnan h))
  constructor
  · have bits : snanOr [a, b] 0 = if snan then vxSnan else 0 := snanOr_pair a b
    refine compared (i := .fcmpu bf fra frb) (bits := snanOr [a, b] 0)
      (p := fun v => bitAt v 7 = (bitAt s.fpscr 7 || snan) ∧ bitAt v 12 = bitAt s.fpscr 12) (needFp_on fp (.next _)) ?_ fun v h7 h12 => ?_
    · rw [bits]
      cases snan
      · exact withinNone
      · exact withinSnan
    · rw [h7, h12, bits]
      cases snan
      · exact ⟨rfl, Bool.or_false _⟩
      · exact ⟨rfl, Bool.or_false _⟩
  · have bits : orderedBits s a b = if snan then (if s.fpVE then vxSnan else vxSnan ||| vxVc) else if nan then vxVc else 0 :=
      rfl
    refine compared (i := .fcmpo bf fra frb) (bits := orderedBits s a b)
      (p := fun v => bitAt v 7 = (bitAt s.fpscr 7 || snan)
        ∧ bitAt v 12 = (bitAt s.fpscr 12 || nan && !(snan && bitAt s.fpscr 24))) (needFp_on fp (.next _)) ?_ fun v h7 h12 => ?_
    · rw [bits]
      split
      · split
        · exact withinSnan
        · exact withinBoth
      · split
        · exact withinVc
        · exact withinNone
    · obtain ⟨snanBit, vcBit⟩ := orderedBits_at snan nan s.fpVE snanNan
      rw [h7, h12, bits, snanBit, vcBit]
      exact ⟨rfl, rfl⟩

end Sys2Proof.Machine

end

/-! ### What an arithmetic instruction leaves (R545, R550, R560) -/

section

namespace Sys2Proof.Machine

open Host (Outcome)

/-! #### The bits of a word -/

/-- The bits of a word are among these. -/
def BitsIn (l : List Nat) (bits : Word) : Prop := ∀ n, n < 32 → bitAt bits n = true → n ∈ l

theorem bitsIn_zero (l : List Nat) : BitsIn l 0 := fun n _ h => by
  rw [bitAt_zero] at h
  cases h

theorem BitsIn.or {l : List Nat} {v w : Word} (hv : BitsIn l v) (hw : BitsIn l w) : BitsIn l (v ||| w) :=
  fun n hn h => by
    rw [bitAt_or, Bool.or_eq_true] at h
    exact h.elim (hv n hn) (hw n hn)

theorem bitsIn_bitMask {l : List Nat} {k : Nat} (h : k ∈ l) (hk : k < 32) : BitsIn l (bitMask k) := fun n _ hb => by
  rw [bitAt_bitMask hk, decide_eq_true_eq] at hb
  exact hb ▸ h

theorem BitsIn.ite {l : List Nat} {v w : Word} {c : Prop} [Decidable c] (hv : BitsIn l v) (hw : BitsIn l w) :
    BitsIn l (if c then v else w) := by
  split
  · exact hv
  · exact hw

theorem BitsIn.mono {l m : List Nat} {v : Word} (h : BitsIn l v) (hlm : ∀ n ∈ l, n ∈ m) : BitsIn m v :=
  fun n hn hb => hlm n (h n hn hb)

theorem BitsIn.off {l : List Nat} {v : Word} (h : BitsIn l v) {n : Nat} (hn : n < 32) (out : n ∉ l) :
    bitAt v n = false :=
  Bool.eq_false_iff.2 fun hb => out (h n hn hb)

/-! #### The FPSCR after an instruction -/

/-- The FPSCR with FPRF, FR and FI written. -/
def FpOut.fields (o : FpOut) (v : Word) : Word :=
  let v1 := match o.fprf with
    | some c => setBits v 15 5 c
    | none => v
  match o.frFi with
  | some (fr, fi) => setBit (setBit v1 13 fr) 14 fi
  | none => v1

theorem FpOut.fpscr_eq (o : FpOut) (v : Word) : o.fpscr v = fpSummary (setExceptions (o.fields v) o.bits) := rfl

/-- FR after an instruction. -/
def FpOut.fr (o : FpOut) (v : Word) : Bool := (o.frFi.map Prod.fst).getD (bitAt v 13)
/-- FI after an instruction. -/
def FpOut.fi (o : FpOut) (v : Word) : Bool := (o.frFi.map Prod.snd).getD (bitAt v 14)

theorem FpOut.bitAt_fields (o : FpOut) (v : Word) {n : Nat} (hn : n < 32) : bitAt (o.fields v) n
    = if n = 14 then o.fi v else if n = 13 then o.fr v
      else if 15 ≤ n ∧ n < 20 then (o.fprf.getD (bitsAt v 15 5)).getMsbD (n - 15) else bitAt v n := by
  have class_ : bitAt (match o.fprf with | some c => setBits v 15 5 c | none => v) n
      = if 15 ≤ n ∧ n < 20 then (o.fprf.getD (bitsAt v 15 5)).getMsbD (n - 15) else bitAt v n := by
    cases o.fprf with
    | some c => exact bitAt_setBits v (by decide) c hn
    | none =>
      by_cases h : 15 ≤ n ∧ n < 20
      · rw [if_pos h]
        refine Eq.symm ((getMsbD_bitsAt v (i := 15) (by decide) (by omega)).trans ?_)
        rw [Nat.add_sub_cancel' h.1]
      · rw [if_neg h]
  unfold FpOut.fields FpOut.fr FpOut.fi
  cases o.frFi with
  | none =>
    refine class_.trans ?_
    by_cases h14 : n = 14
    · subst h14; rfl
    by_cases h13 : n = 13
    · subst h13; rfl
    rw [if_neg h14, if_neg h13]
  | some p =>
    refine (bitAt_setBit _ (by decide) hn _).trans ?_
    simp only [eq_comm (a := 14)]
    by_cases h14 : n = 14
    · rw [if_pos h14, if_pos h14]; rfl
    rw [if_neg h14, if_neg h14, bitAt_setBit _ (by decide) hn]
    by_cases h13 : n = 13
    · rw [if_pos h13.symm, if_pos h13]; rfl
    rw [if_neg (Ne.symm h13), if_neg h13]
    exact class_

section

variable {o : FpOut} {v : Word}

theorem FpOut.bitAt_fpscr (o : FpOut) (v : Word) {n : Nat} (hn : n < 32) (h : n ∉ [0, 1, 2, 20, 21, 29]) :
    bitAt (o.fpscr v) n = (bitAt (o.fields v) n || bitAt o.bits n) := by
  simp only [List.mem_cons, List.not_mem_nil, or_false, not_or] at h
  obtain ⟨h0, h1, h2, h20, h21, h29⟩ := h
  rw [FpOut.fpscr_eq, bitAt_fpSummary_of _ hn (by simp [h1, h2, h20, h21, h29]), bitAt_setExceptions _ _ hn h0]

theorem FpOut.fields_exception (o : FpOut) (v : Word) {n : Nat} (hn : n ∈ exceptionBits) :
    bitAt (o.fields v) n = bitAt v n := by
  have facts : ∀ n ∈ exceptionBits, n < 32 ∧ n ≠ 14 ∧ n ≠ 13 ∧ ¬ (15 ≤ n ∧ n < 20) := by decide
  obtain ⟨hlt, h14, h13, outside⟩ := facts n hn
  rw [o.bitAt_fields v hlt, if_neg h14, if_neg h13, if_neg outside]

/-- The exception bits are sticky (R38). -/
theorem FpOut.fpscr_exception (o : FpOut) (v : Word) {n : Nat} (hn : n ∈ exceptionBits) :
    bitAt (o.fpscr v) n = (bitAt v n || bitAt o.bits n) := by
  have facts : ∀ n ∈ exceptionBits, n < 32 ∧ n ∉ [0, 1, 2, 20, 21, 29] := by decide
  obtain ⟨hlt, free⟩ := facts n hn
  rw [o.bitAt_fpscr v hlt free, o.fields_exception v hn]

/-- An exception bit that an instruction does not set. -/
theorem FpOut.fpscr_kept {l : List Nat} (within : BitsIn l o.bits) {n : Nat} (hn : n ∈ exceptionBits) (out : n ∉ l) :
    bitAt (o.fpscr v) n = bitAt v n := by
  rw [o.fpscr_exception v hn, within.off (mem_exceptionBits_lt hn).1 out, Bool.or_false]

theorem FpOut.fpscr_control (within : OnlyExceptions o.bits) {n : Nat} (hn : n ∈ [24, 25, 26, 27, 28, 30, 31]) :
    bitAt (o.fpscr v) n = bitAt v n := by
  have facts : ∀ n ∈ [24, 25, 26, 27, 28, 30, 31], n < 32 ∧ n ∉ [0, 1, 2, 20, 21, 29] ∧ n ≠ 14 ∧ n ≠ 13
      ∧ ¬ (15 ≤ n ∧ n < 20) ∧ n ∉ exceptionBits := by decide
  obtain ⟨hlt, free, h14, h13, outside, plain⟩ := facts n hn
  rw [o.bitAt_fpscr v hlt free, o.bitAt_fields v hlt, if_neg h14, if_neg h13, if_neg outside,
    BitsIn.off within hlt plain, Bool.or_false]

theorem FpOut.fpscr_fr (within : OnlyExceptions o.bits) : bitAt (o.fpscr v) 13 = o.fr v := by
  rw [o.bitAt_fpscr v (by decide) (by decide), o.bitAt_fields v (by decide), if_neg (by decide), if_pos rfl,
    BitsIn.off within (by decide) (by decide), Bool.or_false]

theorem FpOut.fpscr_fi (within : OnlyExceptions o.bits) : bitAt (o.fpscr v) 14 = o.fi v := by
  rw [o.bitAt_fpscr v (by decide) (by decide), o.bitAt_fields v (by decide), if_pos rfl,
    BitsIn.off within (by decide) (by decide), Bool.or_false]

theorem FpOut.fpscr_class (within : OnlyExceptions o.bits) :
    bitsAt (o.fpscr v) 15 5 = o.fprf.getD (bitsAt v 15 5) := by
  refine BitVec.eq_of_getMsbD_eq fun j hj => ?_
  have free : 15 + j ∉ [0, 1, 2, 20, 21, 29] := by
    simp only [List.mem_cons, List.not_mem_nil, or_false, not_or]
    omega
  have plain : 15 + j ∉ exceptionBits := by
    unfold exceptionBits
    simp only [List.mem_cons, List.not_mem_nil, or_false, not_or]
    omega
  rw [getMsbD_bitsAt _ (by decide) hj, o.bitAt_fpscr v (by omega) free, o.bitAt_fields v (by omega), if_neg (by omega),
    if_neg (by omega), if_pos (by omega), BitsIn.off within (by omega) plain, Bool.or_false, Nat.add_sub_cancel_left]

theorem FpOut.fields_fx (o : FpOut) (v : Word) : bitAt (o.fields v) 0 = bitAt v 0 := by
  rw [o.bitAt_fields v (by decide), if_neg (by decide), if_neg (by decide), if_neg (by decide)]

theorem FpOut.fpscr_setsFx (within : OnlyExceptions o.bits) : SetsFx v (o.fpscr v) :=
  setsFx_setExceptions within (o.fields_fx v) fun _ hn => o.fields_exception v hn

/-- FX stays where no exception bit is set. -/
theorem FpOut.fpscr_fx_of_none (none : o.bits = 0) : bitAt (o.fpscr v) 0 = bitAt v 0 := by
  rw [FpOut.fpscr_eq, none, bitAt_fpSummary_of _ (by decide) (by decide),
    show setExceptions (o.fields v) 0 = o.fields v from if_pos BitVec.zero_and, o.fields_fx v]

end

/-! #### Completion -/

/-- The instruction ends as the arithmetic instructions do, with these effects. -/
def State.FloatEnds (s : State) (i : Instr) (frt : RegNum) (rc : Bool) (o : FpOut) : Prop :=
  ∃ (n : Nat) (srcs : List RegNum),
    exec i s = needFp s (.next (State.fpComplete { s with draws := n } o frt srcs rc))

theorem State.OnlyFloat.setFreg {s u : State} {rc : Bool} (h : s.OnlyFloat u [] rc) (frt : RegNum) (v : DWord)
    (recent : List (RegNum × Nat)) :
    s.OnlyFloat { u.setFreg frt v with fpRecent := recent } [frt] rc where
  others r hr := (State.freg_setFreg_of_ne u v fun e => hr (List.mem_singleton.2 e)).trans
    (h.others r fun h => (nomatch h))
  cr1 := h.cr1
  crRest := h.crRest
  noRecord := h.noRecord
  rest := congrArg (fun x : State => { x.setFreg frt v with fpRecent := recent }) h.rest
  memory := h.memory

/-- What an instruction leaves that ends with these effects. -/
theorem floatCompletes_of_ends {s : State} {i : Instr} {frt : RegNum} {rc : Bool} {o : FpOut} {p : State → Prop}
    (fp : s.msrFP = true) (ends : s.FloatEnds i frt rc o)
    (hp : ∀ u : State, u.fpscr = o.fpscr s.fpscr → u.freg frt = o.result.getD (s.freg frt) → p u) :
    FloatCompletes s i frt rc p := by
  obtain ⟨n, srcs, runs⟩ := ends
  let t : State := { s with fpscr := o.fpscr s.fpscr, draws := n }
  have only : s.OnlyFloat (t.recordFp rc) [] rc :=
    State.recordFp_onlyFloat (s := s) (u := t) (rs := []) (fun _ _ => rfl) rfl rfl (fun _ => rfl) rc
  rw [needFp_on fp] at runs
  cases hr : o.result with
  | none =>
    refine ⟨t.recordFp rc, ?_, ⟨fun r _ => only.others r fun h => (nomatch h), only.cr1, only.crRest, only.noRecord,
      only.rest, only.memory⟩, hp _ (State.recordFp_fpscr t rc) ?_⟩
    · rw [runs, State.fpComplete, hr]
      rfl
    · rw [hr]
      exact State.recordFp_freg t rc frt
  | some v =>
    refine ⟨{ (t.recordFp rc).setFreg frt v with fpRecent := recentAfter s.fpRecent srcs frt }, ?_,
      only.setFreg frt v _, hp _ (State.recordFp_fpscr t rc) ?_⟩
    · rw [runs, State.fpComplete, hr]
      rfl
    · rw [hr]
      exact State.freg_setFreg_self _ frt v

section

variable (s : State) (frt fra frb frc : RegNum) (rc : Bool)

theorem ends_fa : s.FloatEnds (.fa frt fra frb rc) frt rc (fpSum s (s.freg fra) (s.freg frb) [s.freg fra, s.freg frb]) :=
  ⟨s.draws, _, rfl⟩
theorem ends_fs : s.FloatEnds (.fs frt fra frb rc) frt rc
    (fpSum s (s.freg fra) (negated (s.freg frb)) [s.freg fra, s.freg frb]) := ⟨s.draws, _, rfl⟩
theorem ends_fm : s.FloatEnds (.fm frt fra frc rc) frt rc (fpProduct s (s.freg fra) (s.freg frc)) := ⟨s.draws, _, rfl⟩
theorem ends_fd : s.FloatEnds (.fd frt fra frb rc) frt rc (fpQuotient s (s.freg fra) (s.freg frb)) := ⟨s.draws, _, rfl⟩
theorem ends_fma : s.FloatEnds (.fma frt fra frb frc rc) frt rc
    (fpMulAdd s (s.freg fra) (s.freg frb) (s.freg frc) false false) := ⟨s.draws, _, rfl⟩
theorem ends_fms : s.FloatEnds (.fms frt fra frb frc rc) frt rc
    (fpMulAdd s (s.freg fra) (s.freg frb) (s.freg frc) true false) := ⟨s.draws, _, rfl⟩
theorem ends_fnma : s.FloatEnds (.fnma frt fra frb frc rc) frt rc
    (fpMulAdd s (s.freg fra) (s.freg frb) (s.freg frc) false true) := ⟨s.draws, _, rfl⟩
theorem ends_fnms : s.FloatEnds (.fnms frt fra frb frc rc) frt rc
    (fpMulAdd s (s.freg fra) (s.freg frb) (s.freg frc) true true) := ⟨s.draws, _, rfl⟩
theorem ends_fsqrt : s.FloatEnds (.fsqrt frt frb rc) frt rc (fpSquareRoot s (s.freg frb)) := ⟨s.draws, _, rfl⟩

/-- The effects of a convert with these free values (R621). -/
def convertOut (s : State) (x : DWord) (mode : BitVec 2) : FpOut :=
  let o := convertInt s x mode
  ⟨o.low.map fun w => s.drawWord.1 ++ w, o.bits, o.class (s.drawWord.2.drawWord.1.extractLsb' 0 5), some (o.fr, o.fi)⟩

theorem ends_fcir : s.FloatEnds (.fcir frt frb rc) frt rc (convertOut s (s.freg frb) s.fpRN) := ⟨s.draws + 2, _, rfl⟩
theorem ends_fcirz : s.FloatEnds (.fcirz frt frb rc) frt rc (convertOut s (s.freg frb) 1) := ⟨s.draws + 2, _, rfl⟩

/-- frsp delivers the rounded operand, or what the erratum makes of it (R539). -/
theorem ends_frsp : s.FloatEnds (.frsp frt frb rc) frt rc (roundSingle s (s.freg frb))
    ∨ s.cfg.fpaErratum = true ∧ s.FloatEnds (.frsp frt frb rc) frt rc (erratumResult s (s.freg frb)) := by
  have runs : exec (.frsp frt frb rc) s = needFp s (if erratumApplies s frb (s.freg frb) then
      .next (State.fpComplete { s with draws := s.draws + 1 }
        (if s.drawBit.1 then erratumResult s (s.freg frb) else roundSingle s (s.freg frb)) frt [frb] rc)
      else .next (s.fpComplete (roundSingle s (s.freg frb)) frt [frb] rc)) := rfl
  by_cases erratum : erratumApplies s frb (s.freg frb) = true
  · rw [if_pos erratum] at runs
    cases wrong : s.drawBit.1 with
    | true =>
      rw [wrong, if_pos rfl] at runs
      unfold erratumApplies at erratum
      simp only [Bool.and_eq_true] at erratum
      exact .inr ⟨erratum.1.1.1.1.1, _, _, runs⟩
    | false =>
      rw [wrong, if_neg Bool.false_ne_true] at runs
      exact .inl ⟨_, _, runs⟩
  · rw [if_neg erratum] at runs
    exact .inl ⟨s.draws, _, runs⟩

end

/-! #### Which exception bits an instruction sets -/

/-- Overflow, underflow, inexact. -/
theorem bitsIn_roundingBits {l : List Nat} (h : ∀ n ∈ [3, 4, 6], n ∈ l) :
    BitsIn l oxBit ∧ BitsIn l uxBit ∧ BitsIn l xxBit :=
  ⟨bitsIn_bitMask (h 3 (by decide)) (by decide), bitsIn_bitMask (h 4 (by decide)) (by decide),
    bitsIn_bitMask (h 6 (by decide)) (by decide)⟩

theorem bitsIn_deliverExact (z : Exact) (rn : BitVec 2) (oe ue : Bool) : BitsIn [3, 4, 6] (deliverExact z rn oe ue).bits := by
  obtain ⟨ox, ux, xx⟩ := bitsIn_roundingBits (l := [3, 4, 6]) fun _ h => h
  have inexact (fi : Bool) : BitsIn [3, 4, 6] (if fi then xxBit else 0) := xx.ite (bitsIn_zero _)
  unfold deliverExact
  simp only
  split
  · exact bitsIn_zero _
  split
  · exact (ux.or xx).ite (bitsIn_zero _)
  split
  · exact ux.or (inexact _)
  split
  · split
    · exact ox.or (inexact _)
    · exact ox.or xx
  · exact inexact _

theorem bitsIn_fpArith {l : List Nat} {s : State} {bits : Word} {ops : List DWord} {f : FpOut} (hb : BitsIn l bits)
    (hf : BitsIn l f.bits) : BitsIn l (fpArith s bits ops f).bits := by
  unfold fpArith deliverNan
  split
  · split
    · exact hb
    · exact hb
  · exact hf

theorem bitsIn_snanOr {l : List Nat} {bits : Word} (h7 : 7 ∈ l) (hb : BitsIn l bits) (ops : List DWord) :
    BitsIn l (snanOr ops bits) := (bitsIn_bitMask h7 (by decide)).ite hb

theorem exception_rounding : ∀ n ∈ [3, 4, 6], n ∈ exceptionBits := by decide

theorem onlyExceptions_deliverExact (z : Exact) (rn : BitVec 2) (oe ue : Bool) :
    OnlyExceptions (deliverExact z rn oe ue).bits :=
  (bitsIn_deliverExact z rn oe ue).mono exception_rounding

theorem onlyExceptions_fpSum (s : State) (a b : DWord) (ops : List DWord) : OnlyExceptions (fpSum s a b ops).bits := by
  refine bitsIn_fpArith (bitsIn_snanOr (by decide) ((bitsIn_bitMask (by decide) (by decide)).ite (bitsIn_zero _)) ops) ?_
  split
  · exact bitsIn_zero _
  split
  · exact bitsIn_zero _
  · exact onlyExceptions_deliverExact _ _ _ _

theorem onlyExceptions_fpProduct (s : State) (a c : DWord) : OnlyExceptions (fpProduct s a c).bits := by
  refine bitsIn_fpArith (bitsIn_snanOr (by decide) ((bitsIn_bitMask (by decide) (by decide)).ite (bitsIn_zero _)) _) ?_
  split
  · exact bitsIn_zero _
  · exact onlyExceptions_deliverExact _ _ _ _

theorem onlyExceptions_fpQuotient (s : State) (a b : DWord) : OnlyExceptions (fpQuotient s a b).bits := by
  refine bitsIn_fpArith (bitsIn_snanOr (by decide) ((bitsIn_bitMask (by decide) (by decide)).ite
    ((bitsIn_bitMask (by decide) (by decide)).ite (bitsIn_zero _))) _) ?_
  split
  · exact bitsIn_zero _
  split
  · exact bitsIn_zero _
  split
  · split
    · exact bitsIn_bitMask (by decide) (by decide)
    · exact bitsIn_bitMask (by decide) (by decide)
  · exact onlyExceptions_deliverExact _ _ _ _

theorem FpOut.negate_bits (o : FpOut) : o.negate.bits = o.bits := by
  unfold FpOut.negate
  split
  · split <;> rfl
  · rfl

theorem fpMulAdd_neg (s : State) (a b c : DWord) (minus : Bool) :
    fpMulAdd s a b c minus true = (fpMulAdd s a b c minus false).negate := by
  unfold fpMulAdd
  simp only [Bool.false_eq_true, if_true, if_false]

theorem fpMulAdd_eq (s : State) (a b c : DWord) (minus : Bool) : fpMulAdd s a b c minus false
    = fpArith s ((if [a, b, c].any isSnan then vxSnan else 0) ||| (if zeroTimesInf a c then vxImz
        else if (isInf a || isInf c) && isInf b && (fpSign a != fpSign c) != fpSign (if minus then negated b else b)
          && !(List.any [a, b, c] isNan) then vxIsi else 0)) [a, b, c]
      (if isInf a || isInf c then delivered (fpInf (fpSign a != fpSign c)) 0 none
       else if isInf b then delivered (if minus then negated b else b) 0 none
       else deliverExact (exactAdd s.fpRN (exactMul (exactOf a) (exactOf c)) (exactOf (if minus then negated b else b)))
        s.fpRN s.fpOE s.fpUE) := by
  unfold fpMulAdd
  simp only [Bool.false_eq_true, if_false]

theorem onlyExceptions_fpMulAdd (s : State) (a b c : DWord) (minus neg : Bool) :
    OnlyExceptions (fpMulAdd s a b c minus neg).bits := by
  have mask {k : Nat} (h : k ∈ exceptionBits) : BitsIn exceptionBits (bitMask k) :=
    bitsIn_bitMask h (mem_exceptionBits_lt h).1
  have sum : OnlyExceptions (fpMulAdd s a b c minus false).bits := by
    rw [fpMulAdd_eq]
    refine bitsIn_fpArith (((mask (k := 7) (by decide)).ite (bitsIn_zero _)).or
      ((mask (k := 11) (by decide)).ite ((mask (k := 8) (by decide)).ite (bitsIn_zero _)))) ?_
    split
    · exact bitsIn_zero _
    split
    · exact bitsIn_zero _
    · exact onlyExceptions_deliverExact _ _ _ _
  cases neg with
  | false => exact sum
  | true =>
    rw [fpMulAdd_neg, FpOut.negate_bits]
    exact sum

theorem onlyExceptions_fpSquareRoot (s : State) (b : DWord) : OnlyExceptions (fpSquareRoot s b).bits := by
  refine bitsIn_fpArith (bitsIn_snanOr (by decide) ((bitsIn_bitMask (by decide) (by decide)).ite (bitsIn_zero _)) _) ?_
  split
  · exact bitsIn_zero _
  split
  · exact onlyExceptions_deliverExact _ _ _ _
  · exact onlyExceptions_deliverExact _ _ _ _

theorem bitsIn_roundSingleFinite (s : State) (x : DWord) : BitsIn [3, 4, 6] (roundSingleFinite s x).bits := by
  obtain ⟨ox, ux, xx⟩ := bitsIn_roundingBits (l := [3, 4, 6]) fun _ h => h
  have inexact (fi : Bool) : BitsIn [3, 4, 6] (if fi then xxBit else 0) := xx.ite (bitsIn_zero _)
  unfold roundSingleFinite
  simp only
  split
  · exact (ux.or xx).ite (bitsIn_zero _)
  split
  · exact ux.or (inexact _)
  split
  · split
    · exact ox.or (inexact _)
    · exact ox.or xx
  · exact inexact _

theorem onlyExceptions_roundSingle (s : State) (x : DWord) : OnlyExceptions (roundSingle s x).bits := by
  unfold roundSingle
  split
  · split
    · exact bitsIn_bitMask (by decide) (by decide)
    · exact bitsIn_bitMask (by decide) (by decide)
  split
  · exact bitsIn_zero _
  split
  · exact bitsIn_zero _
  · exact (bitsIn_roundSingleFinite s x).mono exception_rounding

theorem onlyExceptions_erratumResult (s : State) (x : DWord) : OnlyExceptions (erratumResult s x).bits :=
  BitsIn.ite (bitsIn_bitMask (by decide) (by decide)) (bitsIn_zero _)

theorem bitsIn_convertInt (s : State) (x : DWord) (mode : BitVec 2) : BitsIn [6, 23] (convertInt s x mode).bits := by
  have cvi : BitsIn [6, 23] vxCvi := bitsIn_bitMask (by decide) (by decide)
  have xx : BitsIn [6, 23] xxBit := bitsIn_bitMask (by decide) (by decide)
  have either {a b : IntOut} {c : Prop} [Decidable c] (ha : BitsIn [6, 23] a.bits) (hb : BitsIn [6, 23] b.bits) :
      BitsIn [6, 23] (if c then a else b).bits := by
    split
    · exact ha
    · exact hb
  exact either cvi (either cvi (either (cvi.or (xx.ite (bitsIn_zero _))) (xx.ite (bitsIn_zero _))))

theorem onlyExceptions_convertOut (s : State) (x : DWord) (mode : BitVec 2) : OnlyExceptions (convertOut s x mode).bits :=
  (bitsIn_convertInt s x mode).mono (by decide)

/-- Settles O51: every arithmetic instruction ends alike, and sets exception bits alone. -/
theorem floatingPointArithmeticCompletes : Obligations.FloatingPointArithmeticCompletes := by
  intro s frt fra frb frc rc fp i hi
  have completes : ∀ {o : FpOut}, s.FloatEnds i frt rc o → OnlyExceptions o.bits →
      FloatCompletes s i frt rc fun u =>
        (∀ n ∈ exceptionBits, bitAt s.fpscr n = true → bitAt u.fpscr n = true)
          ∧ (∀ n ∈ [24, 25, 26, 27, 28, 30, 31], bitAt u.fpscr n = bitAt s.fpscr n) ∧ Summarized u.fpscr
          ∧ SetsFx s.fpscr u.fpscr := by
    intro o ends within
    refine floatCompletes_of_ends fp ends fun u fpscr _ => ?_
    rw [fpscr]
    refine ⟨fun n hn h => ?_, fun n hn => FpOut.fpscr_control within hn, summarized_fpSummary _,
      FpOut.fpscr_setsFx within⟩
    rw [o.fpscr_exception s.fpscr hn, h, Bool.true_or]
  simp only [List.mem_cons, List.not_mem_nil, or_false] at hi
  obtain rfl | rfl | rfl | rfl | rfl | rfl | rfl | rfl | rfl | rfl | rfl | rfl := hi
  · exact completes (ends_fa s frt fra frb rc) (onlyExceptions_fpSum _ _ _ _)
  · exact completes (ends_fs s frt fra frb rc) (onlyExceptions_fpSum _ _ _ _)
  · exact completes (ends_fm s frt fra frc rc) (onlyExceptions_fpProduct _ _ _)
  · exact completes (ends_fd s frt fra frb rc) (onlyExceptions_fpQuotient _ _ _)
  · exact completes (ends_fma s frt fra frb frc rc) (onlyExceptions_fpMulAdd _ _ _ _ _ _)
  · exact completes (ends_fms s frt fra frb frc rc) (onlyExceptions_fpMulAdd _ _ _ _ _ _)
  · exact completes (ends_fnma s frt fra frb frc rc) (onlyExceptions_fpMulAdd _ _ _ _ _ _)
  · exact completes (ends_fnms s frt fra frb frc rc) (onlyExceptions_fpMulAdd _ _ _ _ _ _)
  · obtain ends | ⟨-, ends⟩ := ends_frsp s frt frb rc
    · exact completes ends (onlyExceptions_roundSingle _ _)
    · exact completes ends (onlyExceptions_erratumResult _ _)
  · exact completes (ends_fcir s frt frb rc) (onlyExceptions_convertOut _ _ _)
  · exact completes (ends_fcirz s frt frb rc) (onlyExceptions_convertOut _ _ _)
  · exact completes (ends_fsqrt s frt frb rc) (onlyExceptions_fpSquareRoot _ _)

end Sys2Proof.Machine

end

/-! ### NaN operands (R524, R535, R536, R550) -/

section

namespace Sys2Proof.Machine

open Host (Outcome)

/-- An operand signals. -/
def Signaling (ops : List DWord) : Prop := ∃ y ∈ ops, isSnan y = true

/-- The product of a multiply-add is one of zero and infinity. -/
def ZeroTimesInfinity (ops : List DWord) : Prop :=
  ∃ a b c, ops = [a, b, c] ∧ (isZero a = true ∧ isInf c = true ∨ isInf a = true ∧ isZero c = true)

/-- The exception bits of an instruction one of whose operands is a NaN. -/
structure NanBits (ops : List DWord) (bits : Word) : Prop where
  within : BitsIn [7, 11] bits
  snan : Signaling ops → bitAt bits 7 = true
  imz : ZeroTimesInfinity ops → bitAt bits 11 = true
  quiet : ¬ Signaling ops → ¬ ZeroTimesInfinity ops → bits = 0

/-! #### The NaN that results (R524) -/

theorem isNan_quieted {x : DWord} (h : isNan x = true) : isNan (quieted x) = true := by
  have bit : ∀ k, k < 64 → (0x0008000000000000 : DWord).getLsbD k = decide (k = 51) := by decide
  have exp : (quieted x).extractLsb' 52 11 = x.extractLsb' 52 11 := by
    refine BitVec.eq_of_getLsbD_eq fun k hk => ?_
    rw [BitVec.getLsbD_extractLsb', BitVec.getLsbD_extractLsb', quieted, BitVec.getLsbD_or, bit _ (by omega),
      decide_eq_false (p := 52 + k = 51) (by omega), Bool.or_false]
  have frac : fpFrac (quieted x) ≠ 0 := by
    intro zero
    have lead : ((quieted x).extractLsb' 0 52).getLsbD 51 = true := by
      rw [BitVec.getLsbD_extractLsb', quieted, BitVec.getLsbD_or, bit _ (by omega), decide_eq_true (p := 0 + 51 = 51) rfl,
        Bool.or_true]
      rfl
    rw [show (quieted x).extractLsb' 0 52 = 0 from BitVec.eq_of_toNat_eq zero] at lead
    cases lead
  unfold isNan at h ⊢
  rw [Bool.and_eq_true] at h ⊢
  refine ⟨?_, bne_iff_ne.2 frac⟩
  unfold fpExp at h ⊢
  rw [exp]
  exact h.1

theorem nanResult_first {l r : List DWord} {x : DWord} (hl : ∀ y ∈ l, isNan y = false) (hx : isNan x = true) :
    nanResult (l ++ x :: r) = quieted x := by
  induction l with
  | nil => exact if_pos hx
  | cons y l ih =>
    refine (if_neg ?_).trans (ih fun z hz => hl z (List.mem_cons_of_mem y hz))
    rw [hl y List.mem_cons_self]
    exact Bool.false_ne_true

theorem nanResult_isNan (ops : List DWord) : isNan (nanResult ops) = true := by
  induction ops with
  | nil => decide
  | cons x l ih =>
    unfold nanResult
    split
    · next hx => exact isNan_quieted hx
    · exact ih

theorem fpClass_nan {x : DWord} (h : isNan x = true) : fpClass x = 0b10001 := if_pos h

/-! #### What they deliver -/

theorem fpArith_nan {s : State} {bits : Word} {ops : List DWord} {f : FpOut} (h : ops.any isNan = true) :
    fpArith s bits ops f = deliverNan bits s.fpVE ops :=
  if_pos (by rw [h, Bool.or_true])

theorem deliverNan_bits (bits : Word) (ve : Bool) (ops : List DWord) : (deliverNan bits ve ops).bits = bits := by
  unfold deliverNan
  split <;> rfl

theorem deliverNan_frFi (bits : Word) (ve : Bool) (ops : List DWord) : (deliverNan bits ve ops).frFi = none := by
  unfold deliverNan
  split <;> rfl

/-- An invalid operation that is enabled writes no target (R536). -/
theorem deliverNan_suppressed {bits : Word} (ops : List DWord) (h : bits ≠ 0) :
    deliverNan bits true ops = ⟨none, bits, none, none⟩ :=
  if_pos (by rw [Bool.and_true]; exact bne_iff_ne.2 h)

theorem deliverNan_delivered {bits : Word} {ve : Bool} (ops : List DWord) (h : ve = false ∨ bits = 0) :
    deliverNan bits ve ops = delivered (nanResult ops) bits none := by
  refine if_neg ?_
  obtain rfl | rfl := h
  · rw [Bool.and_false]
    exact Bool.false_ne_true
  · rw [bne_self_eq_false, Bool.false_and]
    exact Bool.false_ne_true

/-- fnma and fnms leave a NaN as it is (R554). -/
theorem negate_deliverNan (bits : Word) (ve : Bool) (ops : List DWord) :
    (deliverNan bits ve ops).negate = deliverNan bits ve ops := by
  unfold deliverNan
  split
  · rfl
  · exact if_pos (nanResult_isNan ops)

/-- What the instruction leaves, in the statement's words. -/
theorem nanCompletes {s : State} {i : Instr} {frt : RegNum} {rc : Bool} {ops : List DWord} {bits : Word}
    (fp : s.msrFP = true) (ends : s.FloatEnds i frt rc (deliverNan bits s.fpVE ops)) (nan : NanBits ops bits) :
    FloatCompletes s i frt rc fun u =>
      (∀ (l r : List DWord) (x : DWord), ops = l ++ x :: r → (∀ y ∈ l, isNan y = false) → isNan x = true →
        (bitAt s.fpscr 24 = false ∨ ¬ Signaling ops ∧ ¬ ZeroTimesInfinity ops) →
          u.freg frt = x ||| 0x0008000000000000 ∧ bitsAt u.fpscr 15 5 = 0b10001)
      ∧ (¬ Signaling ops → ¬ ZeroTimesInfinity ops →
        ∀ n ∈ [0, 3, 4, 5, 6, 7, 8, 9, 10, 11, 12, 22, 23], bitAt u.fpscr n = bitAt s.fpscr n)
      ∧ (Signaling ops → bitAt u.fpscr 7 = true)
      ∧ (ZeroTimesInfinity ops → bitAt u.fpscr 11 = true)
      ∧ (Signaling ops ∨ ZeroTimesInfinity ops → bitAt s.fpscr 24 = true →
        u.freg frt = s.freg frt ∧ bitsAt u.fpscr 15 5 = bitsAt s.fpscr 15 5)
      ∧ ∀ n ∈ [3, 4, 5, 6, 8, 9, 10, 12, 13, 14, 22, 23], bitAt u.fpscr n = bitAt s.fpscr n := by
  have bitsEq := deliverNan_bits bits s.fpVE ops
  have frFi := deliverNan_frFi bits s.fpVE ops
  have within : BitsIn [7, 11] (deliverNan bits s.fpVE ops).bits := by
    rw [bitsEq]
    exact nan.within
  have exceptions : OnlyExceptions (deliverNan bits s.fpVE ops).bits := within.mono (by decide)
  refine floatCompletes_of_ends fp ends fun u fpscr freg => ?_
  rw [fpscr, freg]
  refine ⟨fun l r x split first isNanX valid => ?_, fun noSnan noImz n hn => ?_, fun snan => ?_, fun imz => ?_,
    fun invalid ve => ?_, fun n hn => ?_⟩
  · have delivers := deliverNan_delivered (bits := bits) (ve := s.fpVE) ops
      (valid.imp id fun none => nan.quiet none.1 none.2)
    rw [FpOut.fpscr_class exceptions, delivers, split, nanResult_first first isNanX]
    exact ⟨rfl, fpClass_nan (isNan_quieted isNanX)⟩
  · have none : (deliverNan bits s.fpVE ops).bits = 0 := bitsEq.trans (nan.quiet noSnan noImz)
    by_cases h0 : n = 0
    · rw [h0]
      exact FpOut.fpscr_fx_of_none none
    · have hx : n ∈ exceptionBits := (List.mem_cons.1 hn).resolve_left h0
      exact FpOut.fpscr_kept (l := []) (none ▸ bitsIn_zero []) hx (fun h => nomatch h)
  · rw [FpOut.fpscr_exception _ _ (by decide), bitsEq, nan.snan snan, Bool.or_true]
  · rw [FpOut.fpscr_exception _ _ (by decide), bitsEq, nan.imz imz, Bool.or_true]
  · have some : bits ≠ 0 := by
      rintro rfl
      rcases invalid with snan | imz
      · exact absurd (nan.snan snan) (by rw [bitAt_zero]; decide)
      · exact absurd (nan.imz imz) (by rw [bitAt_zero]; decide)
    have suppressed : deliverNan bits s.fpVE ops = ⟨none, bits, none, none⟩ := by
      rw [show s.fpVE = true from ve]
      exact deliverNan_suppressed ops some
    rw [FpOut.fpscr_class exceptions, suppressed]
    exact ⟨rfl, rfl⟩
  · have facts : ∀ n ∈ [3, 4, 5, 6, 8, 9, 10, 12, 13, 14, 22, 23],
        n = 13 ∨ n = 14 ∨ (n ∈ exceptionBits ∧ n ∉ [7, 11]) := by decide
    obtain rfl | rfl | ⟨hx, out⟩ := facts n hn
    · rw [FpOut.fpscr_fr exceptions, FpOut.fr, frFi]
      rfl
    · rw [FpOut.fpscr_fi exceptions, FpOut.fi, frFi]
      rfl
    · exact FpOut.fpscr_kept within hx out

/-! #### The bits of each instruction -/

theorem signaling_iff (ops : List DWord) : Signaling ops ↔ ops.any isSnan = true := List.any_eq_true.symm

/-- Instructions with no product: a NaN operand is invalid only where it signals. -/
theorem nanBits_snanOr {ops : List DWord} (short : ∀ a b c, ops ≠ [a, b, c]) : NanBits ops (snanOr ops 0) where
  within := bitsIn_snanOr (by decide) (bitsIn_zero _) ops
  snan h := by
    rw [snanOr, if_pos ((signaling_iff ops).1 h)]
    rfl
  imz := fun ⟨a, b, c, h, _⟩ => absurd h (short a b c)
  quiet h _ := if_neg (mt (signaling_iff ops).2 h)

theorem zeroTimesInf_iff (a c : DWord) :
    zeroTimesInf a c = true ↔ isZero a = true ∧ isInf c = true ∨ isInf a = true ∧ isZero c = true := by
  unfold zeroTimesInf
  rw [Bool.or_eq_true, Bool.and_eq_true, Bool.and_eq_true]

theorem zeroTimesInfinity_iff (a b c : DWord) : ZeroTimesInfinity [a, b, c] ↔ zeroTimesInf a c = true := by
  rw [zeroTimesInf_iff]
  constructor
  · rintro ⟨x, y, z, h, product⟩
    cases h
    exact product
  · exact fun h => ⟨a, b, c, rfl, h⟩

theorem nanBits_mulAdd (a b c : DWord) : NanBits [a, b, c]
    ((if [a, b, c].any isSnan then vxSnan else 0) ||| (if zeroTimesInf a c then vxImz else 0)) where
  within := ((bitsIn_bitMask (by decide) (by decide)).ite (bitsIn_zero _)).or
    ((bitsIn_bitMask (by decide) (by decide)).ite (bitsIn_zero _))
  snan h := by
    rw [bitAt_or, if_pos ((signaling_iff _).1 h)]
    rfl
  imz h := by
    rw [bitAt_or, if_pos ((zeroTimesInfinity_iff a b c).1 h), Bool.or_eq_true]
    exact .inr rfl
  quiet hs hz := by
    rw [if_neg (mt (signaling_iff _).2 hs), if_neg (mt (zeroTimesInfinity_iff a b c).2 hz)]
    rfl

theorem isInf_negated (x : DWord) : isInf (negated x) = isInf x := by
  have mag : fpMag (negated x) = fpMag x := congrArg BitVec.toNat (negated_sign x).2
  rw [Bool.eq_iff_iff, isInf_iff, isInf_iff, mag]

theorem isNan_cases {a b : DWord} (h : [a, b].any isNan = true) : isNan a = true ∨ isNan b = true := by
  simpa [List.any_cons] using h

theorem isInf_eq_false_of_isNan {x : DWord} (h : isNan x = true) : isInf x = false := by
  cases hi : isInf x with
  | false => rfl
  | true => rw [isNan_eq_false_of_isInf hi] at h; cases h

theorem isZero_eq_false_of_isNan {x : DWord} (h : isNan x = true) : isZero x = false := by
  cases hz : isZero x with
  | false => rfl
  | true => rw [isNan_eq_false_of_isZero hz] at h; cases h

theorem fpSum_nan {s : State} {a b b' : DWord} (inf : isInf b' = isInf b) (h : [a, b].any isNan = true) :
    fpSum s a b' [a, b] = deliverNan (snanOr [a, b] 0) s.fpVE [a, b] := by
  have valid : (isInf a && isInf b' && fpSign a != fpSign b') = false := by
    rw [inf]
    obtain ha | hb := isNan_cases h
    · rw [isInf_eq_false_of_isNan ha]; rfl
    · rw [isInf_eq_false_of_isNan hb, Bool.and_false]; rfl
  unfold fpSum
  rw [fpArith_nan h, valid]
  rfl

theorem fpProduct_nan {s : State} {a c : DWord} (h : [a, c].any isNan = true) :
    fpProduct s a c = deliverNan (snanOr [a, c] 0) s.fpVE [a, c] := by
  have valid : zeroTimesInf a c = false := by
    unfold zeroTimesInf
    obtain ha | hc := isNan_cases h
    · rw [isInf_eq_false_of_isNan ha, isZero_eq_false_of_isNan ha]; rfl
    · rw [isInf_eq_false_of_isNan hc, isZero_eq_false_of_isNan hc, Bool.and_false, Bool.and_false]; rfl
  unfold fpProduct
  rw [fpArith_nan h, valid]
  rfl

theorem fpQuotient_nan {s : State} {a b : DWord} (h : [a, b].any isNan = true) :
    fpQuotient s a b = deliverNan (snanOr [a, b] 0) s.fpVE [a, b] := by
  have inf : (isInf a && isInf b) = false := by
    obtain ha | hb := isNan_cases h
    · rw [isInf_eq_false_of_isNan ha]; rfl
    · rw [isInf_eq_false_of_isNan hb, Bool.and_false]
  have zero : (isZero a && isZero b) = false := by
    obtain ha | hb := isNan_cases h
    · rw [isZero_eq_false_of_isNan ha]; rfl
    · rw [isZero_eq_false_of_isNan hb, Bool.and_false]
  unfold fpQuotient
  simp only [fpArith_nan h, inf, zero, Bool.false_eq_true, if_false]

theorem fpSquareRoot_nan {s : State} {b : DWord} (h : [b].any isNan = true) :
    fpSquareRoot s b = deliverNan (snanOr [b] 0) s.fpVE [b] := by
  have nan : isNan b = true := by simpa using h
  unfold fpSquareRoot
  rw [fpArith_nan h, nan, Bool.not_true, Bool.and_false]
  rfl

theorem fpMulAdd_nan {s : State} {a b c : DWord} (minus neg : Bool) (h : [a, b, c].any isNan = true) :
    fpMulAdd s a b c minus neg = deliverNan ((if [a, b, c].any isSnan then vxSnan else 0)
      ||| (if zeroTimesInf a c then vxImz else 0)) s.fpVE [a, b, c] := by
  have sum : fpMulAdd s a b c minus false = deliverNan ((if [a, b, c].any isSnan then vxSnan else 0)
      ||| (if zeroTimesInf a c then vxImz else 0)) s.fpVE [a, b, c] := by
    rw [fpMulAdd_eq, fpArith_nan h, h, Bool.not_true, Bool.and_false]
    rfl
  cases neg with
  | false => exact sum
  | true => rw [fpMulAdd_neg, sum, negate_deliverNan]

/-- Settles O53. -/
theorem arithmeticOnNans : Obligations.ArithmeticOnNans := by
  intro i s frt ops rc fp operands hasNan
  have nan : ops.any isNan = true := List.any_eq_true.2 hasNan
  have pair {a b : DWord} : ∀ x y z, ([a, b] : List DWord) ≠ [x, y, z] := fun _ _ _ h => nomatch h
  cases i with
  | fa t fra frb r =>
    cases operands
    exact nanCompletes fp (fpSum_nan (s := s) rfl nan ▸ ends_fa s frt fra frb rc) (nanBits_snanOr pair)
  | fs t fra frb r =>
    cases operands
    exact nanCompletes fp (fpSum_nan (s := s) (isInf_negated _) nan ▸ ends_fs s frt fra frb rc) (nanBits_snanOr pair)
  | fd t fra frb r =>
    cases operands
    exact nanCompletes fp (fpQuotient_nan (s := s) nan ▸ ends_fd s frt fra frb rc) (nanBits_snanOr pair)
  | fm t fra frc r =>
    cases operands
    exact nanCompletes fp (fpProduct_nan (s := s) nan ▸ ends_fm s frt fra frc rc) (nanBits_snanOr pair)
  | fma t fra frb frc r =>
    cases operands
    exact nanCompletes fp (fpMulAdd_nan (s := s) false false nan ▸ ends_fma s frt fra frb frc rc) (nanBits_mulAdd _ _ _)
  | fms t fra frb frc r =>
    cases operands
    exact nanCompletes fp (fpMulAdd_nan (s := s) true false nan ▸ ends_fms s frt fra frb frc rc) (nanBits_mulAdd _ _ _)
  | fnma t fra frb frc r =>
    cases operands
    exact nanCompletes fp (fpMulAdd_nan (s := s) false true nan ▸ ends_fnma s frt fra frb frc rc) (nanBits_mulAdd _ _ _)
  | fnms t fra frb frc r =>
    cases operands
    exact nanCompletes fp (fpMulAdd_nan (s := s) true true nan ▸ ends_fnms s frt fra frb frc rc) (nanBits_mulAdd _ _ _)
  | fsqrt t frb r =>
    cases operands
    exact nanCompletes fp (fpSquareRoot_nan (s := s) nan ▸ ends_fsqrt s frt frb rc)
      (nanBits_snanOr fun _ _ _ h => nomatch h)
  | _ => cases operands

end Sys2Proof.Machine

end

/-! ### Invalid operations, division by zero, infinities (R534, R536, R537, R551, R554) -/

section

namespace Sys2Proof.Machine

open Host (Outcome)

/-! #### Infinities and zeros by their sign -/

theorem infinity_sign_mag (b : Bool) : fpSign (infinity b) = b ∧ fpMag (infinity b) = infMag := by
  cases b <;> decide

theorem fpInf_eq (b : Bool) : fpInf b = infinity b := by cases b <;> rfl

theorem fpZero_eq (b : Bool) : fpZero b = if b then 0x8000000000000000 else 0 := by cases b <;> rfl

theorem isInf_infinity (b : Bool) : isInf (infinity b) = true := (isInf_iff _).2 (infinity_sign_mag b).2

/-- An infinity is its sign's. -/
theorem eq_infinity {x : DWord} (h : isInf x = true) : x = infinity (fpSign x) :=
  eq_of_sign_mag (infinity_sign_mag _).1.symm (((isInf_iff x).1 h).trans (infinity_sign_mag _).2.symm)

theorem negated_infinity (b : Bool) : negated (infinity b) = infinity (!b) := by cases b <;> rfl

/-- An addend as fms and fnms take it (R598). -/
def addend (minus : Bool) (b : DWord) : DWord := if minus then negated b else b

theorem addend_sign (minus : Bool) (b : DWord) : fpSign (addend minus b) = (fpSign b != minus) := by
  cases minus with
  | false => exact (Bool.bne_false _).symm
  | true => exact (negated_sign b).1.trans (Bool.bne_true _).symm

theorem addend_mag (minus : Bool) (b : DWord) : fpMag (addend minus b) = fpMag b := by
  cases minus with
  | false => rfl
  | true => exact congrArg BitVec.toNat (negated_sign b).2

theorem addend_isInf (minus : Bool) (b : DWord) : isInf (addend minus b) = isInf b := by
  rw [Bool.eq_iff_iff, isInf_iff, isInf_iff, addend_mag]

/-! #### The template of the arithmetic instructions (R550) -/

theorem isSnan_eq_false {x : DWord} (h : isNan x = false) : isSnan x = false := by
  unfold isSnan
  rw [h]
  rfl

theorem snanOr_numbers {ops : List DWord} (h : ∀ y ∈ ops, isNan y = false) (bits : Word) : snanOr ops bits = bits := by
  refine if_neg ?_
  rw [List.any_eq_true]
  rintro ⟨y, hy, snan⟩
  rw [isSnan_eq_false (h y hy)] at snan
  cases snan

theorem any_isNan_numbers {ops : List DWord} (h : ∀ y ∈ ops, isNan y = false) : ops.any isNan = false := by
  rw [Bool.eq_false_iff, ne_eq, List.any_eq_true]
  rintro ⟨y, hy, nan⟩
  rw [h y hy] at nan
  cases nan

theorem nanResult_numbers {ops : List DWord} (h : ∀ y ∈ ops, isNan y = false) : nanResult ops = 0x7FF8000000000000 := by
  induction ops with
  | nil => rfl
  | cons x l ih =>
    refine (if_neg ?_).trans (ih fun y hy => h y (List.mem_cons_of_mem x hy))
    rw [h x List.mem_cons_self]
    exact Bool.false_ne_true

theorem fpArith_invalid {s : State} {bits : Word} (ops : List DWord) (f : FpOut) (h : bits ≠ 0) :
    fpArith s bits ops f = deliverNan bits s.fpVE ops :=
  if_pos (by rw [bne_iff_ne.2 h, Bool.true_or])

theorem fpArith_valid {s : State} {ops : List DWord} (f : FpOut) (h : ∀ y ∈ ops, isNan y = false) :
    fpArith s 0 ops f = f :=
  if_neg (by rw [any_isNan_numbers h]; decide)

theorem bitMask_ne_zero {k : Nat} (hk : k < 32) : bitMask k ≠ 0 := fun h => by
  have bit := bitAt_bitMask hk k
  rw [h, bitAt_zero, decide_eq_true rfl] at bit
  cases bit

/-- What an invalid operation of numbers leaves. -/
def State.Invalid (s : State) (i : Instr) (frt : RegNum) (rc : Bool) (bit : Nat) : Prop :=
  FloatCompletes s i frt rc fun u => bitAt u.fpscr bit = true
    ∧ (bitAt s.fpscr 24 = true → u.freg frt = s.freg frt)
    ∧ (bitAt s.fpscr 24 = false → u.freg frt = 0x7FF8000000000000)

/-- What an instruction leaves that delivers a number exactly. -/
def State.Gives (s : State) (i : Instr) (frt : RegNum) (rc : Bool) (r : DWord) : Prop :=
  FloatCompletes s i frt rc fun u => u.freg frt = r
    ∧ ∀ n ∈ [0, 3, 4, 5, 6, 7, 8, 9, 10, 11, 12, 13, 14, 22, 23], bitAt u.fpscr n = bitAt s.fpscr n

section

variable {s : State} {i : Instr} {frt : RegNum} {rc : Bool}

/-- An invalid operation sets its bit, and leaves the target alone where it is enabled. -/
theorem invalid_sets {bits : Word} {ops : List DWord} {k : Nat} (fp : s.msrFP = true)
    (ends : s.FloatEnds i frt rc (deliverNan bits s.fpVE ops)) (hk : k ∈ exceptionBits) (set : bitAt bits k = true) :
    FloatCompletes s i frt rc fun u => bitAt u.fpscr k = true
      ∧ (bitAt s.fpscr 24 = true → u.freg frt = s.freg frt)
      ∧ (bitAt s.fpscr 24 = false → u.freg frt = nanResult ops) := by
  refine floatCompletes_of_ends fp ends fun u fpscr freg => ?_
  rw [fpscr, freg]
  have some : bits ≠ 0 := fun h => by
    rw [h, bitAt_zero] at set
    cases set
  refine ⟨?_, fun ve => ?_, fun ve => ?_⟩
  · rw [FpOut.fpscr_exception _ _ hk, deliverNan_bits, set, Bool.or_true]
  · rw [show s.fpVE = true from ve, deliverNan_suppressed ops some]
    rfl
  · rw [deliverNan_delivered ops (.inl (show s.fpVE = false from ve))]
    rfl

theorem invalid_of_ends {ops : List DWord} {k : Nat} (fp : s.msrFP = true)
    (ends : s.FloatEnds i frt rc (deliverNan (bitMask k) s.fpVE ops)) (hk : k ∈ exceptionBits)
    (numbers : ∀ y ∈ ops, isNan y = false) : s.Invalid i frt rc k := by
  have sets := invalid_sets fp ends hk ((bitAt_bitMask (mem_exceptionBits_lt hk).1 k).trans (decide_eq_true rfl))
  rw [nanResult_numbers numbers] at sets
  exact sets

/-- An exact result with no exception. -/
theorem gives_of_ends {r : DWord} {c : Option (BitVec 5)} (fp : s.msrFP = true)
    (ends : s.FloatEnds i frt rc ⟨some r, 0, c, none⟩) : s.Gives i frt rc r := by
  refine floatCompletes_of_ends fp ends fun u fpscr freg => ?_
  rw [fpscr, freg]
  refine ⟨rfl, fun n hn => ?_⟩
  have facts : ∀ n ∈ [0, 3, 4, 5, 6, 7, 8, 9, 10, 11, 12, 13, 14, 22, 23],
      n = 0 ∨ n = 13 ∨ n = 14 ∨ n ∈ exceptionBits := by decide
  obtain rfl | rfl | rfl | hx := facts n hn
  · exact FpOut.fpscr_fx_of_none rfl
  · exact FpOut.fpscr_fr (bitsIn_zero _)
  · exact FpOut.fpscr_fi (bitsIn_zero _)
  · exact FpOut.fpscr_kept (l := []) (bitsIn_zero _) hx fun h => nomatch h

end

/-! #### Each operation on numbers that are no NaNs -/

section

variable {s : State} {a b b' c : DWord}

theorem numbers_pair (ha : isNan a = false) (hb : isNan b = false) : ∀ y ∈ [a, b], isNan y = false := by
  intro y hy
  simp only [List.mem_cons, List.not_mem_nil, or_false] at hy
  obtain rfl | rfl := hy
  · exact ha
  · exact hb

theorem numbers_triple (ha : isNan a = false) (hb : isNan b = false) (hc : isNan c = false) :
    ∀ y ∈ [a, b, c], isNan y = false := by
  intro y hy
  simp only [List.mem_cons, List.not_mem_nil, or_false] at hy
  obtain rfl | rfl | rfl := hy
  · exact ha
  · exact hb
  · exact hc

theorem fpSum_invalid (ha : isInf a = true) (hb : isInf b' = true) (sign : fpSign a ≠ fpSign b') {ops : List DWord}
    (numbers : ∀ y ∈ ops, isNan y = false) : fpSum s a b' ops = deliverNan (bitMask 8) s.fpVE ops := by
  unfold fpSum
  rw [snanOr_numbers numbers, ha, hb, bne_iff_ne.2 sign]
  exact fpArith_invalid ops _ (bitMask_ne_zero (k := 8) (by decide))

/-- A sum that is not of infinities of opposite signs. -/
theorem fpSum_valid (valid : isInf a = true → isInf b' = true → fpSign a = fpSign b') {ops : List DWord}
    (numbers : ∀ y ∈ ops, isNan y = false) : fpSum s a b' ops = if isInf a then delivered a 0 none
      else if isInf b' then delivered b' 0 none
      else deliverExact (exactAdd s.fpRN (exactOf a) (exactOf b')) s.fpRN s.fpOE s.fpUE := by
  have none : (isInf a && isInf b' && fpSign a != fpSign b') = false := by
    cases ha : isInf a with
    | false => rfl
    | true =>
      cases hb : isInf b' with
      | false => rfl
      | true => rw [valid ha hb, bne_self_eq_false]; rfl
  unfold fpSum
  rw [snanOr_numbers numbers, none]
  exact fpArith_valid _ numbers

/-- A sum whose second operand is an infinity. -/
theorem fpSum_infinity (hb : isInf b' = true) (valid : isInf a = true → fpSign a = fpSign b') {ops : List DWord}
    (numbers : ∀ y ∈ ops, isNan y = false) : fpSum s a b' ops = delivered b' 0 none := by
  rw [fpSum_valid (fun ha _ => valid ha) numbers, if_pos hb]
  by_cases ha : isInf a = true
  · rw [if_pos ha, eq_infinity ha, valid ha, ← eq_infinity hb]
  · rw [if_neg ha]

theorem fpProduct_invalid (h : zeroTimesInf a c = true) (numbers : ∀ y ∈ [a, c], isNan y = false) :
    fpProduct s a c = deliverNan (bitMask 11) s.fpVE [a, c] := by
  unfold fpProduct
  rw [snanOr_numbers numbers, h]
  exact fpArith_invalid _ _ (bitMask_ne_zero (k := 11) (by decide))

theorem fpProduct_valid (h : zeroTimesInf a c = false) (numbers : ∀ y ∈ [a, c], isNan y = false) :
    fpProduct s a c = if isInf a || isInf c then delivered (fpInf (fpSign a != fpSign c)) 0 none
      else deliverExact (exactMul (exactOf a) (exactOf c)) s.fpRN s.fpOE s.fpUE := by
  unfold fpProduct
  rw [snanOr_numbers numbers, h]
  exact fpArith_valid _ numbers

/-- A quotient that is not of two infinities, nor of two zeros. -/
theorem fpQuotient_valid (inf : (isInf a && isInf b) = false) (zero : (isZero a && isZero b) = false)
    (numbers : ∀ y ∈ [a, b], isNan y = false) :
    fpQuotient s a b = if isInf a then delivered (fpInf (fpSign a != fpSign b)) 0 none
      else if isInf b then delivered (fpZero (fpSign a != fpSign b)) 0 none
      else if isZero b then
        (if s.fpZE then ⟨none, zxBit, none, none⟩ else delivered (fpInf (fpSign a != fpSign b)) zxBit none)
      else deliverExact (exactDiv (exactOf a) (exactOf b)) s.fpRN s.fpOE s.fpUE := by
  unfold fpQuotient
  simp only [snanOr_numbers numbers, inf, zero, Bool.false_eq_true, if_false]
  exact fpArith_valid _ numbers

theorem fpQuotient_inf_inf (ha : isInf a = true) (hb : isInf b = true) (numbers : ∀ y ∈ [a, b], isNan y = false) :
    fpQuotient s a b = deliverNan (bitMask 9) s.fpVE [a, b] := by
  unfold fpQuotient
  simp only [snanOr_numbers numbers, ha, hb, Bool.and_self, if_true]
  exact fpArith_invalid _ _ (bitMask_ne_zero (k := 9) (by decide))

theorem fpQuotient_zero_zero (ha : isZero a = true) (hb : isZero b = true) (numbers : ∀ y ∈ [a, b], isNan y = false) :
    fpQuotient s a b = deliverNan (bitMask 10) s.fpVE [a, b] := by
  unfold fpQuotient
  simp only [snanOr_numbers numbers, isInf_eq_false_of_isZero ha, ha, hb, Bool.and_self, Bool.false_and,
    Bool.false_eq_true, if_false, if_true]
  exact fpArith_invalid _ _ (bitMask_ne_zero (k := 10) (by decide))

theorem fpSquareRoot_invalid (sign : fpSign b = true) (zero : isZero b = false) (nan : isNan b = false) :
    fpSquareRoot s b = deliverNan (bitMask 22) s.fpVE [b] := by
  unfold fpSquareRoot
  rw [snanOr_numbers (List.forall_mem_singleton.2 nan), sign, zero, nan]
  exact fpArith_invalid _ _ (bitMask_ne_zero (k := 22) (by decide))

theorem fpSquareRoot_valid (sign : fpSign b = false ∨ isZero b = true) (nan : isNan b = false) :
    fpSquareRoot s b = if isInf b then delivered b 0 none
      else if isZero b then deliverExact (exactOf b) s.fpRN s.fpOE s.fpUE
      else deliverExact (exactSqrt (exactOf b)) s.fpRN s.fpOE s.fpUE := by
  have none : (fpSign b && !isZero b && !isNan b) = false := by
    obtain h | h := sign
    · rw [h]; rfl
    · rw [h, Bool.not_true, Bool.and_false]; rfl
  unfold fpSquareRoot
  rw [snanOr_numbers (List.forall_mem_singleton.2 nan), none]
  exact fpArith_valid _ (List.forall_mem_singleton.2 nan)

/-- The negation at the end of fnma and fnms (R554). -/
def negateIf (neg : Bool) (o : FpOut) : FpOut := if neg then o.negate else o

theorem negateIf_false (o : FpOut) : negateIf false o = o := rfl

theorem negateIf_true (o : FpOut) : negateIf true o = o.negate := rfl

theorem fpMulAdd_negateIf (s : State) (a b c : DWord) (minus neg : Bool) :
    fpMulAdd s a b c minus neg = negateIf neg (fpMulAdd s a b c minus false) := by
  cases neg with
  | false => exact (negateIf_false _).symm
  | true => exact (fpMulAdd_neg s a b c minus).trans (negateIf_true _).symm

theorem negateIf_deliverNan (neg : Bool) (bits : Word) (ve : Bool) (ops : List DWord) :
    negateIf neg (deliverNan bits ve ops) = deliverNan bits ve ops := by
  cases neg with
  | false => rfl
  | true => exact negate_deliverNan bits ve ops

theorem any_isSnan_numbers {ops : List DWord} (h : ∀ y ∈ ops, isNan y = false) : ops.any isSnan = false := by
  rw [Bool.eq_false_iff, ne_eq, List.any_eq_true]
  rintro ⟨y, hy, snan⟩
  rw [isSnan_eq_false (h y hy)] at snan
  cases snan

/-- A product of zero and infinity, whatever the addend. -/
theorem fpMulAdd_imz (minus neg : Bool) (h : zeroTimesInf a c = true) : fpMulAdd s a b c minus neg
    = deliverNan ((if [a, b, c].any isSnan then vxSnan else 0) ||| bitMask 11) s.fpVE [a, b, c] := by
  rw [fpMulAdd_negateIf, fpMulAdd_eq, h, if_pos rfl, fpArith_invalid, negateIf_deliverNan]
  · rfl
  · intro none
    have bit := congrArg (bitAt · 11) none
    simp only [bitAt_or, bitAt_zero, Bool.or_eq_false_iff] at bit
    exact absurd bit.2 (by decide)

theorem fpMulAdd_isi (minus neg : Bool) (product : (isInf a || isInf c) = true) (imz : zeroTimesInf a c = false)
    (hb : isInf b = true) (sign : (fpSign a != fpSign c) ≠ (fpSign b != minus))
    (numbers : ∀ y ∈ [a, b, c], isNan y = false) :
    fpMulAdd s a b c minus neg = deliverNan (bitMask 8) s.fpVE [a, b, c] := by
  rw [fpMulAdd_negateIf, fpMulAdd_eq, show (if minus then negated b else b) = addend minus b from rfl, addend_sign,
    any_isSnan_numbers numbers, any_isNan_numbers numbers, product, imz, hb, bne_iff_ne.2 sign,
    fpArith_invalid, negateIf_deliverNan]
  · rfl
  · decide

/-- A multiply-add in which nothing is invalid. -/
theorem fpMulAdd_valid (minus neg : Bool) (imz : zeroTimesInf a c = false)
    (valid : (isInf a || isInf c) = true → isInf b = true → (fpSign a != fpSign c) = (fpSign b != minus))
    (numbers : ∀ y ∈ [a, b, c], isNan y = false) :
    fpMulAdd s a b c minus neg = negateIf neg (if isInf a || isInf c then delivered (fpInf (fpSign a != fpSign c)) 0 none
      else if isInf b then delivered (addend minus b) 0 none
      else deliverExact (exactAdd s.fpRN (exactMul (exactOf a) (exactOf c)) (exactOf (addend minus b))) s.fpRN s.fpOE
        s.fpUE) := by
  have none : ((isInf a || isInf c) && isInf b && (fpSign a != fpSign c) != fpSign (addend minus b)
      && !([a, b, c].any isNan)) = false := by
    rw [addend_sign]
    cases hp : isInf a || isInf c with
    | false => rfl
    | true =>
      cases hb : isInf b with
      | false => rfl
      | true => rw [valid hp hb, bne_self_eq_false]; rfl
  rw [fpMulAdd_negateIf, fpMulAdd_eq, show (if minus then negated b else b) = addend minus b from rfl, none,
    any_isSnan_numbers numbers, imz]
  exact congrArg (negateIf neg) (fpArith_valid _ numbers)

end

theorem negate_delivered {v : DWord} (h : isNan v = false) (bits : Word) (frFi : Option (Bool × Bool)) :
    (delivered v bits frFi).negate = delivered (negated v) bits frFi :=
  if_neg (c := isNan v = true) (Bool.eq_false_iff.1 h)

theorem negateIf_delivered (neg sign : Bool) :
    negateIf neg (delivered (infinity sign) 0 none) = delivered (infinity (sign != neg)) 0 none := by
  cases neg with
  | false =>
    rw [Bool.bne_false]
    rfl
  | true =>
    rw [Bool.bne_true, ← negated_infinity]
    exact negate_delivered (isNan_eq_false_of_isInf (isInf_infinity sign)) _ _

/-- fma, fms, fnma, fnms. -/
def multiplyAdd (frt fra frb frc : RegNum) (rc minus neg : Bool) : Instr :=
  match minus, neg with
  | false, false => .fma frt fra frb frc rc
  | true, false => .fms frt fra frb frc rc
  | false, true => .fnma frt fra frb frc rc
  | true, true => .fnms frt fra frb frc rc

theorem ends_multiplyAdd (s : State) (frt fra frb frc : RegNum) (rc minus neg : Bool) :
    s.FloatEnds (multiplyAdd frt fra frb frc rc minus neg) frt rc
      (fpMulAdd s (s.freg fra) (s.freg frb) (s.freg frc) minus neg) := by
  cases minus <;> cases neg
  · exact ends_fma s frt fra frb frc rc
  · exact ends_fnma s frt fra frb frc rc
  · exact ends_fms s frt fra frb frc rc
  · exact ends_fnms s frt fra frb frc rc

section

variable {s : State} {frt fra frb frc : RegNum} {rc : Bool} (fp : s.msrFP = true)

include fp

/-- Two infinities (R536, R551). -/
theorem infinities_invalid (ha : isInf (s.freg fra) = true) (hb : isInf (s.freg frb) = true) :
    s.Invalid (.fd frt fra frb rc) frt rc 9
      ∧ (fpSign (s.freg fra) ≠ fpSign (s.freg frb) → s.Invalid (.fa frt fra frb rc) frt rc 8)
      ∧ (fpSign (s.freg fra) = fpSign (s.freg frb) → s.Invalid (.fs frt fra frb rc) frt rc 8) := by
  have numbers := numbers_pair (isNan_eq_false_of_isInf ha) (isNan_eq_false_of_isInf hb)
  refine ⟨?_, fun sign => ?_, fun sign => ?_⟩
  · exact invalid_of_ends fp (fpQuotient_inf_inf (s := s) ha hb numbers ▸ ends_fd s frt fra frb rc) (by decide) numbers
  · exact invalid_of_ends fp (fpSum_invalid (s := s) ha hb sign numbers ▸ ends_fa s frt fra frb rc) (by decide) numbers
  · have opposite : fpSign (s.freg fra) ≠ fpSign (negated (s.freg frb)) := by
      rw [(negated_sign _).1, sign]
      exact (Bool.not_ne_self _).symm
    exact invalid_of_ends fp (fpSum_invalid (s := s) ha ((isInf_negated _).trans hb) opposite numbers ▸
      ends_fs s frt fra frb rc) (by decide) numbers

/-- A product of zero and infinity (R536). -/
theorem zeroTimesInfinity_invalid (h : zeroTimesInf (s.freg fra) (s.freg frc) = true) :
    s.Invalid (.fm frt fra frc rc) frt rc 11
      ∧ ∀ minus neg,
        (isNan (s.freg frb) = false → s.Invalid (multiplyAdd frt fra frb frc rc minus neg) frt rc 11)
        ∧ FloatCompletes s (multiplyAdd frt fra frb frc rc minus neg) frt rc fun u =>
          bitAt u.fpscr 11 = true ∧ (bitAt s.fpscr 24 = true → u.freg frt = s.freg frt) := by
  obtain ⟨na, nc⟩ : isNan (s.freg fra) = false ∧ isNan (s.freg frc) = false := by
    obtain ⟨ha, hc⟩ | ⟨ha, hc⟩ := (zeroTimesInf_iff _ _).1 h
    · exact ⟨isNan_eq_false_of_isZero ha, isNan_eq_false_of_isInf hc⟩
    · exact ⟨isNan_eq_false_of_isInf ha, isNan_eq_false_of_isZero hc⟩
  have numbers := numbers_pair na nc
  refine ⟨invalid_of_ends fp (fpProduct_invalid (s := s) h numbers ▸ ends_fm s frt fra frc rc) (by decide) numbers,
    fun minus neg => ⟨fun nb => ?_, ?_⟩⟩
  · have all := numbers_triple na nb nc
    have ends := ends_multiplyAdd s frt fra frb frc rc minus neg
    rw [fpMulAdd_imz minus neg h, any_isSnan_numbers all, show (if false = true then vxSnan else 0) ||| bitMask 11
      = bitMask 11 from rfl] at ends
    exact invalid_of_ends fp ends (by decide) all
  · have ends := ends_multiplyAdd s frt fra frb frc rc minus neg
    rw [fpMulAdd_imz minus neg h] at ends
    have set : ∀ b : Bool, bitAt ((if b then vxSnan else 0) ||| bitMask 11) 11 = true := by decide
    obtain ⟨u, runs, only, bit, kept, -⟩ := invalid_sets fp ends (k := 11) (by decide) (set _)
    exact ⟨u, runs, only, bit, kept⟩

/-- A number divided by zero (R537). -/
theorem zeroDivide (ha : fpFinite (s.freg fra) = true) (nonzero : isZero (s.freg fra) = false)
    (hb : isZero (s.freg frb) = true) : FloatCompletes s (.fd frt fra frb rc) frt rc fun u =>
      bitAt u.fpscr 5 = true ∧ u.freg frt = if bitAt s.fpscr 27 then s.freg frt
        else infinity (fpSign (s.freg fra) != fpSign (s.freg frb)) := by
  have ends := ends_fd s frt fra frb rc
  rw [fpQuotient_valid (by rw [isInf_eq_false_of_finite ha]; rfl) (by rw [nonzero]; rfl)
    (numbers_pair (isNan_eq_false_of_finite ha) (isNan_eq_false_of_isZero hb)), isInf_eq_false_of_finite ha,
    isInf_eq_false_of_isZero hb, hb, fpInf_eq] at ends
  have ze : s.fpZE = bitAt s.fpscr 27 := rfl
  rw [if_neg Bool.false_ne_true, if_neg Bool.false_ne_true, if_pos rfl, ze] at ends
  refine floatCompletes_of_ends fp ends fun u fpscr freg => ?_
  have zx : bitAt zxBit 5 = true := by decide
  rw [fpscr, freg, FpOut.fpscr_exception _ _ (by decide)]
  by_cases enabled : bitAt s.fpscr 27 = true
  · simp only [enabled, if_true]
    exact ⟨Bool.or_eq_true_iff.2 (.inr zx), rfl⟩
  · simp only [enabled, Bool.false_eq_true, if_false]
    exact ⟨Bool.or_eq_true_iff.2 (.inr zx), rfl⟩

/-- A sum with an infinity (R551). -/
theorem infinity_sums (ha : isInf (s.freg fra) = true) (nb : isNan (s.freg frb) = false) :
    ((isInf (s.freg frb) = true → fpSign (s.freg fra) = fpSign (s.freg frb)) →
      s.Gives (.fa frt fra frb rc) frt rc (s.freg fra))
    ∧ ((isInf (s.freg frb) = true → fpSign (s.freg fra) ≠ fpSign (s.freg frb)) →
      s.Gives (.fs frt fra frb rc) frt rc (s.freg fra)) := by
  have numbers := numbers_pair (isNan_eq_false_of_isInf ha) nb
  refine ⟨fun sign => ?_, fun sign => ?_⟩
  · have ends := ends_fa s frt fra frb rc
    rw [fpSum_valid (fun _ hb => sign hb) numbers, if_pos ha] at ends
    exact gives_of_ends fp ends
  · have ends := ends_fs s frt fra frb rc
    rw [fpSum_valid (fun _ hb => by
      rw [(negated_sign _).1]
      exact Bool.eq_not.2 (sign ((isInf_negated _).symm.trans hb))) numbers, if_pos ha] at ends
    exact gives_of_ends fp ends

theorem sums_infinity (hb : isInf (s.freg frb) = true) (na : isNan (s.freg fra) = false) :
    ((isInf (s.freg fra) = true → fpSign (s.freg fra) = fpSign (s.freg frb)) →
      s.Gives (.fa frt fra frb rc) frt rc (s.freg frb))
    ∧ ((isInf (s.freg fra) = true → fpSign (s.freg fra) ≠ fpSign (s.freg frb)) →
      s.Gives (.fs frt fra frb rc) frt rc (infinity (!fpSign (s.freg frb)))) := by
  have numbers := numbers_pair na (isNan_eq_false_of_isInf hb)
  have negatedInf : isInf (negated (s.freg frb)) = true := (isInf_negated _).trans hb
  refine ⟨fun sign => ?_, fun sign => ?_⟩
  · have ends := ends_fa s frt fra frb rc
    rw [fpSum_infinity hb sign numbers] at ends
    exact gives_of_ends fp ends
  · have opposite (ha : isInf (s.freg fra) = true) : fpSign (s.freg fra) = fpSign (negated (s.freg frb)) :=
      (Bool.eq_not.2 (sign ha)).trans (negated_sign _).1.symm
    have ends := ends_fs s frt fra frb rc
    rw [fpSum_infinity negatedInf opposite numbers, eq_infinity negatedInf, (negated_sign _).1] at ends
    exact gives_of_ends fp ends

/-- A quotient with an infinity (R551). -/
theorem infinity_quotients :
    (isInf (s.freg fra) = true → fpFinite (s.freg frb) = true →
      s.Gives (.fd frt fra frb rc) frt rc (infinity (fpSign (s.freg fra) != fpSign (s.freg frb))))
    ∧ (fpFinite (s.freg fra) = true → isInf (s.freg frb) = true → s.Gives (.fd frt fra frb rc) frt rc
      (if fpSign (s.freg fra) != fpSign (s.freg frb) then 0x8000000000000000 else 0)) := by
  refine ⟨fun ha hb => ?_, fun ha hb => ?_⟩
  · have notZero : isZero (s.freg fra) = false := Bool.eq_false_iff.2 fun hz => by
      rw [isInf_eq_false_of_isZero hz] at ha
      cases ha
    have ends := ends_fd s frt fra frb rc
    rw [fpQuotient_valid (by rw [isInf_eq_false_of_finite hb, Bool.and_false]) (by rw [notZero]; rfl)
      (numbers_pair (isNan_eq_false_of_isInf ha) (isNan_eq_false_of_finite hb)), if_pos ha, fpInf_eq] at ends
    exact gives_of_ends fp ends
  · have notZero : isZero (s.freg frb) = false := Bool.eq_false_iff.2 fun hz => by
      rw [isInf_eq_false_of_isZero hz] at hb
      cases hb
    have ends := ends_fd s frt fra frb rc
    rw [fpQuotient_valid (by rw [isInf_eq_false_of_finite ha]; rfl) (by rw [notZero, Bool.and_false])
      (numbers_pair (isNan_eq_false_of_finite ha) (isNan_eq_false_of_isInf hb)), isInf_eq_false_of_finite ha,
      if_neg Bool.false_ne_true, if_pos hb, fpZero_eq] at ends
    exact gives_of_ends fp ends

/-- A product with an infinity and no zero (R551). -/
theorem infinite_products (na : isNan (s.freg fra) = false) (nc : isNan (s.freg frc) = false)
    (inf : (isInf (s.freg fra) || isInf (s.freg frc)) = true) (imz : zeroTimesInf (s.freg fra) (s.freg frc) = false) :
    s.Gives (.fm frt fra frc rc) frt rc (infinity (fpSign (s.freg fra) != fpSign (s.freg frc)))
    ∧ ∀ minus neg,
      (isInf (s.freg frb) = true → (fpSign (s.freg fra) != fpSign (s.freg frc)) ≠ (fpSign (s.freg frb) != minus) →
        s.Invalid (multiplyAdd frt fra frb frc rc minus neg) frt rc 8)
      ∧ (isNan (s.freg frb) = false →
        (isInf (s.freg frb) = true → (fpSign (s.freg fra) != fpSign (s.freg frc)) = (fpSign (s.freg frb) != minus)) →
        s.Gives (multiplyAdd frt fra frb frc rc minus neg) frt rc
          (infinity ((fpSign (s.freg fra) != fpSign (s.freg frc)) != neg))) := by
  refine ⟨?_, fun minus neg => ⟨fun hb sign => ?_, fun nb sign => ?_⟩⟩
  · have ends := ends_fm s frt fra frc rc
    rw [fpProduct_valid imz (numbers_pair na nc), if_pos inf, fpInf_eq] at ends
    exact gives_of_ends fp ends
  · have numbers := numbers_triple na (isNan_eq_false_of_isInf hb) nc
    have ends := ends_multiplyAdd s frt fra frb frc rc minus neg
    rw [fpMulAdd_isi minus neg inf imz hb sign numbers] at ends
    exact invalid_of_ends fp ends (by decide) numbers
  · have ends := ends_multiplyAdd s frt fra frb frc rc minus neg
    rw [fpMulAdd_valid minus neg imz (fun _ hb => sign hb) (numbers_triple na nb nc), if_pos inf, fpInf_eq,
      negateIf_delivered] at ends
    exact gives_of_ends fp ends

/-- A finite product with an infinite addend (R551). -/
theorem infinite_addend (ha : fpFinite (s.freg fra) = true) (hc : fpFinite (s.freg frc) = true)
    (hb : isInf (s.freg frb) = true) (minus neg : Bool) :
    s.Gives (multiplyAdd frt fra frb frc rc minus neg) frt rc (infinity ((fpSign (s.freg frb) != minus) != neg)) := by
  have finite : (isInf (s.freg fra) || isInf (s.freg frc)) = false := by
    rw [isInf_eq_false_of_finite ha, isInf_eq_false_of_finite hc]
    rfl
  have imz : zeroTimesInf (s.freg fra) (s.freg frc) = false := by
    unfold zeroTimesInf
    rw [isInf_eq_false_of_finite ha, isInf_eq_false_of_finite hc, Bool.and_false]
    rfl
  have ends := ends_multiplyAdd s frt fra frb frc rc minus neg
  rw [fpMulAdd_valid minus neg imz (fun inf _ => absurd inf (by rw [finite]; decide))
      (numbers_triple (isNan_eq_false_of_finite ha) (isNan_eq_false_of_isInf hb) (isNan_eq_false_of_finite hc)),
    finite, if_neg Bool.false_ne_true, if_pos hb, eq_infinity ((addend_isInf minus _).trans hb), addend_sign,
    negateIf_delivered] at ends
  exact gives_of_ends fp ends

end

/-- Settles O54. -/
theorem invalidOperationsAndZeroDivide : Obligations.InvalidOperationsAndZeroDivide := by
  intro s frt fra frb frc rc fp a b c keeps invalid gives product infiniteProduct addends
  have product_cases : infiniteProduct → isNan a = false ∧ isNan c = false ∧ (isInf a || isInf c) = true
      ∧ zeroTimesInf a c = false := by
    rintro (⟨ha, nc, zc⟩ | ⟨hc, na, za⟩)
    · refine ⟨isNan_eq_false_of_isInf ha, nc, by rw [ha]; rfl, ?_⟩
      have za : isZero a = false := Bool.eq_false_iff.2 fun hz => by
        rw [isInf_eq_false_of_isZero hz] at ha
        cases ha
      unfold zeroTimesInf
      rw [za, zc, Bool.and_false]
      rfl
    · refine ⟨na, isNan_eq_false_of_isInf hc, by rw [hc, Bool.or_true], ?_⟩
      have zc : isZero c = false := Bool.eq_false_iff.2 fun hz => by
        rw [isInf_eq_false_of_isZero hz] at hc
        cases hc
      unfold zeroTimesInf
      rw [za, zc, Bool.and_false]
      rfl
  refine ⟨fun ha hb => infinities_invalid fp ha hb, fun ha hb => ?_, fun h => zeroTimesInfinity_invalid fp ((zeroTimesInf_iff a c).2 h),
    fun sign zero nan => ?_, fun ha zero hb => zeroDivide fp ha zero hb, fun ha nb => infinity_sums fp ha nb,
    fun hb na => sums_infinity fp hb na, (infinity_quotients fp).1, (infinity_quotients fp).2, fun h => ?_,
    fun ha hc hb minus neg => infinite_addend fp ha hc hb minus neg, fun hb sign => ?_⟩
  · have numbers := numbers_pair (isNan_eq_false_of_isZero ha) (isNan_eq_false_of_isZero hb)
    exact invalid_of_ends fp (fpQuotient_zero_zero (s := s) ha hb numbers ▸ ends_fd s frt fra frb rc) (by decide) numbers
  · exact invalid_of_ends fp (fpSquareRoot_invalid (s := s) sign zero nan ▸ ends_fsqrt s frt frb rc) (by decide)
      (List.forall_mem_singleton.2 nan)
  · obtain ⟨na, nc, inf, imz⟩ := product_cases h
    exact infinite_products fp na nc inf imz
  · have ends := ends_fsqrt s frt frb rc
    rw [fpSquareRoot_valid (.inl sign) (isNan_eq_false_of_isInf hb), if_pos hb] at ends
    exact gives_of_ends fp ends

end Sys2Proof.Machine

end

/-! ### Moves to and from the special registers (R497 to R503) -/

section

namespace Sys2Proof.Machine

open Host (Outcome)

theorem exec_mtspr {s t : State} {n : BitVec 5} {x : Spr} {rs : RegNum} (named : sprTo s.cfg n = some x)
    (may : (sprPrivileged n x && s.msrPR) = false) (written : s.writeSpr x (s.reg rs) = some t) :
    exec (.mtspr rs n) s = .next t.advance := by
  show execMtspr rs n s = _
  unfold execMtspr
  rw [named]
  simp only [may, written, Bool.false_eq_true, if_false]

theorem exec_mtspr_refused {s : State} {n : BitVec 5} {x : Spr} {rs : RegNum} (named : sprTo s.cfg n = some x)
    (may : (sprPrivileged n x && s.msrPR) = false) (refused : s.writeSpr x (s.reg rs) = none) :
    exec (.mtspr rs n) s = .refused .ilcrLevel := by
  show execMtspr rs n s = _
  unfold execMtspr
  rw [named]
  simp only [may, refused, Bool.false_eq_true, if_false]

theorem exec_mfspr {s : State} {n : BitVec 5} {x : Spr} (rt : RegNum) (named : sprFrom s.cfg n = some x)
    (may : (sprPrivileged n x && s.msrPR) = false) :
    exec (.mfspr rt n) s = .next ((s.readSpr x).2.setReg rt (s.readSpr x).1).advance := by
  show execMfspr rt n s = _
  unfold execMfspr
  rw [named]
  simp only [may, Bool.false_eq_true, if_false]

/-- A register whose reading changes nothing. -/
theorem mfspr_completes {s : State} {n : BitVec 5} {x : Spr} {v : Word} (rt : RegNum)
    (named : sprFrom s.cfg n = some x) (may : (sprPrivileged n x && s.msrPR) = false) (read : s.readSpr x = (v, s)) :
    Completes (.mfspr rt n) s fun t => t.reg rt = v ∧ s.OnlyRegs t [rt] := by
  have runs := exec_mfspr rt named may
  rw [read] at runs
  exact completes_setReg runs rfl

theorem may_privileged {s : State} (pr : s.msrPR = false) (n : BitVec 5) (x : Spr) :
    (sprPrivileged n x && s.msrPR) = false := by
  rw [pr, Bool.and_false]

/-- The Decrementer's request, where its sign bit becomes 1 (R806, R807). -/
theorem State.signalDec_when (t : State) (b c : Bool) :
    (if !b && c then t.signalDec else t)
      = { t with eis := if b = false ∧ c = true then t.eis ||| 1#64 <<< (63 - t.eisbidDec.toNat) else t.eis } := by
  cases b <;> cases c <;> rfl

theorem State.writeDec_eq (s : State) (v : Word) : s.writeDec v = { s with
    dec := v &&& 0xFFFFFF00
    eis := if bitAt s.dec 0 = false ∧ bitAt v 0 = true then s.eis ||| 1#64 <<< (63 - s.eisbidDec.toNat)
      else s.eis } := by
  have sign : bitAt (v &&& timerMask) 0 = bitAt v 0 := by
    rw [bitAt_and]
    exact Bool.and_true _
  unfold State.writeDec
  simp only [sign]
  exact State.signalDec_when _ _ _

/-- Settles O41. -/
theorem specialRegisterMoves : Obligations.SpecialRegisterMoves := by
  refine ⟨fun s rs => ?writes, fun s rt => ?reads⟩
  case writes =>
    refine ⟨exec_mtspr (x := .mq) rfl rfl rfl, exec_mtspr (x := .xer) rfl rfl rfl, exec_mtspr (x := .lr) rfl rfl rfl,
      exec_mtspr (x := .ctr) rfl rfl rfl, fun pr => ?_⟩
    have may := may_privileged pr
    refine ⟨exec_mtspr (x := .tid) rfl (may _ _) rfl, exec_mtspr (x := .dsisr) rfl (may _ _) rfl,
      exec_mtspr (x := .dar) rfl (may _ _) rfl, exec_mtspr (x := .rtcu) rfl (may _ _) rfl,
      exec_mtspr (x := .rtcl) rfl (may _ _) rfl, ?dec, fun power => ?sdr0, exec_mtspr (x := .sdr1) rfl (may _ _) rfl,
      exec_mtspr (x := .srr0) rfl (may _ _) rfl, exec_mtspr (x := .srr1) rfl (may _ _) rfl⟩
    case dec => exact exec_mtspr (x := .dec) rfl (may _ _) (congrArg some (s.writeDec_eq (s.reg rs)))
    case sdr0 => exact exec_mtspr (x := .sdr0) (sprBoth_sdr0 power) (may _ _) rfl
  case reads =>
    refine ⟨mfspr_completes (x := .mq) rt rfl rfl rfl, mfspr_completes (x := .xer) rt rfl rfl rfl,
      mfspr_completes (x := .rtcu) rt rfl rfl rfl, mfspr_completes (x := .rtcl) rt rfl rfl rfl,
      mfspr_completes (x := .dec) rt rfl rfl rfl, mfspr_completes (x := .lr) rt rfl rfl rfl,
      mfspr_completes (x := .ctr) rt rfl rfl rfl, fun pr => ?_⟩
    have may := may_privileged pr
    have sdr1 (m : Word) (mask : sdr1Mask s.cfg.impl = m) : s.readSpr .sdr1 = (s.sdr1 &&& m, s) := by
      rw [← mask]
      rfl
    refine ⟨mfspr_completes (x := .tid) rt rfl (may _ _) rfl, mfspr_completes (x := .dsisr) rt rfl (may _ _) rfl,
      mfspr_completes (x := .dar) rt rfl (may _ _) rfl, fun power => ⟨?sdr0, ?sdr1⟩, fun power2 => ?both,
      mfspr_completes (x := .srr0) rt rfl (may _ _) rfl, mfspr_completes (x := .srr1) rt rfl (may _ _) rfl⟩
    case sdr0 => exact mfspr_completes (x := .sdr0) rt (sprBoth_sdr0 power) (may _ _) rfl
    case sdr1 => exact mfspr_completes (x := .sdr1) rt rfl (may _ _) (sdr1 _ (by rw [power]; rfl))
    case both => exact mfspr_completes (x := .sdr1) rt rfl (may _ _) (sdr1 _ (by rw [power2]; rfl))

end Sys2Proof.Machine

end

/-! ### Interrupt levels and ILCR (R761, R780 to R785) -/

section

namespace Sys2Proof.Machine

open Host (Outcome)

/-- The levels from `n` on, `k` of them, of which none is pending. -/
theorem firstLevel_eq_none {v : BitVec 64} {k n : Nat} :
    firstLevel v k n = none ↔ ∀ m, n ≤ m → m < n + k → v.getMsbD m = false := by
  induction k generalizing n with
  | zero => exact ⟨fun _ m _ _ => absurd (a := n ≤ m) ‹_› (by omega), fun _ => rfl⟩
  | succ k ih =>
    unfold firstLevel
    by_cases pending : v.getMsbD n = true
    · rw [if_pos pending]
      refine ⟨fun h => (nomatch h), fun h => ?_⟩
      rw [h n (Nat.le_refl n) (by omega)] at pending
      cases pending
    · rw [if_neg pending, ih]
      refine ⟨fun h m hn hk => ?_, fun h m hn hk => h m (by omega) (by omega)⟩
      obtain rfl | hm := Nat.eq_or_lt_of_le hn
      · exact Bool.eq_false_iff.2 pending
      · exact h m hm (by omega)

theorem firstLevel_eq_some {v : BitVec 64} {k n l : Nat} : firstLevel v k n = some l
    ↔ n ≤ l ∧ l < n + k ∧ v.getMsbD l = true ∧ ∀ m, n ≤ m → m < l → v.getMsbD m = false := by
  induction k generalizing n with
  | zero => exact ⟨fun h => (nomatch h), fun ⟨_, _, _⟩ => absurd (a := n ≤ l) ‹_› (by omega)⟩
  | succ k ih =>
    unfold firstLevel
    by_cases pending : v.getMsbD n = true
    · rw [if_pos pending, Option.some.injEq]
      constructor
      · rintro rfl
        exact ⟨Nat.le_refl n, by omega, pending, fun m _ _ => absurd (a := n ≤ m) ‹_› (by omega)⟩
      · rintro ⟨hn, -, -, before⟩
        obtain e | lt := Nat.eq_or_lt_of_le hn
        · exact e
        · rw [before n (Nat.le_refl n) lt] at pending
          cases pending
    · rw [if_neg pending, ih]
      constructor
      · rintro ⟨hn, hk, hl, before⟩
        refine ⟨by omega, by omega, hl, fun m hm lt => ?_⟩
        obtain rfl | hm := Nat.eq_or_lt_of_le hm
        · exact Bool.eq_false_iff.2 pending
        · exact before m hm lt
      · rintro ⟨hn, hk, hl, before⟩
        obtain rfl | hn := Nat.eq_or_lt_of_le hn
        · exact absurd hl pending
        · exact ⟨hn, by omega, hl, fun m hm lt => before m (by omega) lt⟩

theorem State.minPending_eq_none {s : State} : s.minPending = none ↔ ∀ n, n < 64 → s.eis.getMsbD n = false := by
  unfold State.minPending
  rw [firstLevel_eq_none]
  exact ⟨fun h n hn => h n (Nat.zero_le n) (by omega), fun h n _ hn => h n (by omega)⟩

theorem State.minPending_eq_some {s : State} {l : Nat} : s.minPending = some l
    ↔ l < 64 ∧ s.eis.getMsbD l = true ∧ ∀ m, m < l → s.eis.getMsbD m = false := by
  unfold State.minPending
  rw [firstLevel_eq_some]
  exact ⟨fun ⟨_, hl, bit, before⟩ => ⟨by omega, bit, fun m lt => before m (Nat.zero_le m) lt⟩,
    fun ⟨hl, bit, before⟩ => ⟨Nat.zero_le l, by omega, bit, fun m _ lt => before m lt⟩⟩

theorem getMsbD_levelBit (k : BitVec 6) {m : Nat} (hm : m < 64) : (levelBit k).getMsbD m = (m == k.toNat) := by
  have hk := k.isLt
  unfold levelBit
  rw [BitVec.getMsbD_eq_getLsbD, BitVec.getLsbD_shiftLeft, BitVec.getLsbD_one, Bool.eq_iff_iff]
  simp
  omega

/-- A level that is no longer pending. -/
theorem getMsbD_clearLevel (v : BitVec 64) (k : BitVec 6) {m : Nat} (hm : m < 64) :
    (v &&& ~~~ levelBit k).getMsbD m = (v.getMsbD m && !(m == k.toNat)) := by
  rw [BitVec.getMsbD_and, BitVec.getMsbD_not, getMsbD_levelBit k hm, decide_eq_true hm, Bool.true_and]

theorem levelBit_setWidth {v : Byte} (h : v.toNat < 64) : levelBit (v.setWidth 6) = 1#64 <<< (63 - v.toNat) := by
  unfold levelBit
  rw [BitVec.toNat_setWidth, Nat.mod_eq_of_lt h]

/-- Two sets of levels that meet. -/
theorem and_ne_zero_iff (v w : BitVec 64) :
    (v &&& w != 0) = true ↔ ∃ n, n < 64 ∧ v.getMsbD n = true ∧ w.getMsbD n = true := by
  have zero : v &&& w = 0 ↔ ∀ n, n < 64 → (v.getMsbD n && w.getMsbD n) = false := by
    constructor
    · intro h n _
      rw [← BitVec.getMsbD_and, h]
      exact BitVec.getMsbD_zero
    · intro h
      refine BitVec.eq_of_getMsbD_eq fun n hn => ?_
      rw [BitVec.getMsbD_and, h n hn]
      exact BitVec.getMsbD_zero.symm
  rw [bne_iff_ne, ne_eq, zero]
  simp

theorem State.externalSignal_power {s : State} (power : s.cfg.impl = .power) :
    s.externalSignal = true ↔ ∃ n, n < 64 ∧ s.eis.getMsbD n = true ∧ s.eim.getMsbD n = true := by
  rw [← and_ne_zero_iff]
  unfold State.externalSignal
  rw [power]

theorem State.externalSignal_power2 {s : State} (power2 : s.cfg.impl = .power2) :
    s.externalSignal = true ↔ ∃ n, n < 64 ∧ s.eis.getMsbD n = true ∧ n < s.cil.toNat := by
  unfold State.externalSignal
  rw [power2]
  cases h : s.minPending with
  | none =>
    refine ⟨fun e => (nomatch e), fun ⟨n, hn, bit, _⟩ => ?_⟩
    rw [State.minPending_eq_none.1 h n hn] at bit
    cases bit
  | some l =>
    obtain ⟨hl, bit, before⟩ := State.minPending_eq_some.1 h
    simp only [decide_eq_true_eq]
    refine ⟨fun lt => ⟨l, hl, bit, lt⟩, fun ⟨n, hn, set, lt⟩ => ?_⟩
    by_cases order : n < l
    · rw [before n order] at set
      cases set
    · omega

/-! #### ILCR -/

theorem State.readIlcr_rest (s : State) (n : Nat) :
    ({ s with draws := n } : State).readIlcr.2 = { s with
      eis := ({ s with draws := n } : State).readIlcr.2.eis
      draws := ({ s with draws := n } : State).readIlcr.2.draws } := by
  unfold State.readIlcr
  split <;> rfl

theorem State.takeIlcr_rest (s : State) :
    s.takeIlcr.2 = { s with eis := s.takeIlcr.2.eis, draws := s.takeIlcr.2.draws } := by
  unfold State.takeIlcr
  split
  · exact s.readIlcr_rest s.draws
  · simp only
    split
    · exact s.readIlcr_rest (s.draws + 1 + 1)
    · rfl

section

variable {s : State} {r : RegNum} (power2 : s.cfg.impl = .power2) (pr : s.msrPR = false) (own : s.cfg.OwnIlcr)

include power2 own

theorem sprTo_ilcr : sprTo s.cfg s.cfg.sprIlcr = some .ilcr := by
  rw [sprTo_eq_sprBoth, sprBoth_ilcr power2 own]
  intro h
  refine own ?_
  simp only [List.mem_cons, List.not_mem_nil, or_false] at h ⊢
  omega

theorem sprFrom_ilcr : sprFrom s.cfg s.cfg.sprIlcr = some .ilcr := by
  rw [sprFrom_eq_sprBoth, sprBoth_ilcr power2 own]
  intro h
  refine own ?_
  simp only [List.mem_cons, List.not_mem_nil, or_false] at h ⊢
  omega

include pr

theorem exec_mfspr_ilcr :
    exec (.mfspr r s.cfg.sprIlcr) s = .next (s.takeIlcr.2.setReg r s.takeIlcr.1).advance :=
  exec_mfspr r (sprFrom_ilcr power2 own) (may_privileged pr _ _)

theorem exec_mtspr_ilcr {t : State} (command : s.ilcrCommand (s.reg r) = some t) :
    exec (.mtspr r s.cfg.sprIlcr) s = .next { t with ilcrSettle := s.cfg.ilcrSettle + 1, pc := t.pc + 4 } := by
  refine exec_mtspr (t := { t with ilcrSettle := s.cfg.ilcrSettle + 1 }) (sprTo_ilcr power2 own)
    (may_privileged pr _ _) ?_
  unfold State.writeSpr
  rw [command]
  rfl

end

/-- Settles O43. -/
theorem interruptLevelsAndSignal : Obligations.InterruptLevelsAndSignal := by
  refine ⟨fun s r power2 pr own => ?_, fun s => ⟨State.externalSignal_power, State.externalSignal_power2⟩⟩
  have reads := exec_mfspr_ilcr (r := r) power2 pr own
  have command {t : State} (h : s.ilcrCommand (s.reg r) = some t) := exec_mtspr_ilcr power2 pr own h
  refine ⟨fun settled => ⟨fun empty => ?none, fun l hl bit before => ?level⟩, fun early => ?early, fun code => command ?cil,
    fun code level => command ?reset, fun code level => command ?post, fun code level => ?refused, fun code => command ?other⟩
  case none =>
    have none : s.takeIlcr = (0#16 ++ s.cil ++ 255#8, s) := by
      unfold State.takeIlcr State.readIlcr
      rw [if_pos settled, State.minPending_eq_none.2 fun n _ => by rw [empty]; exact BitVec.getMsbD_zero]
    rw [none] at reads
    exact completes_setReg reads rfl
  case level =>
    have found : s.takeIlcr = (0#16 ++ s.cil ++ BitVec.ofNat 8 l,
        { s with eis := s.eis &&& ~~~ levelBit (BitVec.ofNat 6 l) }) := by
      unfold State.takeIlcr State.readIlcr
      rw [if_pos settled, State.minPending_eq_some.2 ⟨hl, bit, before⟩]
    rw [found] at reads
    refine ⟨_, reads, State.reg_setReg_self _ r _, fun m hm => ?_, fun q hq => State.reg_setReg_of_ne _ _ hq, rfl⟩
    refine (getMsbD_clearLevel s.eis _ hm).trans ?_
    rw [BitVec.toNat_ofNat, Nat.mod_eq_of_lt hl]
  case early =>
    refine ⟨_, reads, fun q hq => (State.reg_setReg_of_ne _ _ hq).trans ?_, ?_⟩
    · rw [s.takeIlcr_rest]
      rfl
    · rw [s.takeIlcr_rest]
      rfl
  case cil =>
    unfold State.ilcrCommand
    rw [if_pos code]
  case reset =>
    unfold State.ilcrCommand
    rw [code, if_neg (by decide), if_pos rfl, if_pos level, levelBit_setWidth level]
  case post =>
    unfold State.ilcrCommand
    rw [code, if_neg (by decide), if_neg (by decide), if_pos rfl, if_pos level, levelBit_setWidth level]
  case refused =>
    refine exec_mtspr_refused (sprTo_ilcr power2 own) (may_privileged pr _ _) (Option.map_eq_none_iff.2 ?_)
    have above : ¬ (bitsAt (s.reg r) 24 8).toNat < 64 := by omega
    unfold State.ilcrCommand
    obtain code | code := code
    · rw [code, if_neg (by decide), if_pos rfl, if_neg above]
    · rw [code, if_neg (by decide), if_neg (by decide), if_pos rfl, if_neg above]
  case other =>
    unfold State.ilcrCommand
    rw [if_neg, if_neg, if_neg] <;>
    · intro e
      rw [e] at code
      exact absurd code (by decide)

end Sys2Proof.Machine

end

/-! ### The time base (R799 to R806) -/

section

namespace Sys2Proof.Machine

open Host (Outcome)

/-- RTCU counts, where it does, together with RTCL's return to 0. -/
theorem carry_cases (next rtcu : Word) (carry : Bool) :
    (if decide (next = 0) && carry then rtcu + 1 else rtcu) = rtcu
      ∨ (next = 0 ∧ (if decide (next = 0) && carry then rtcu + 1 else rtcu) = rtcu + 1) := by
  by_cases both : (decide (next = 0) && carry) = true
  · exact .inr ⟨of_decide_eq_true (Bool.and_eq_true_iff.1 both).1, if_pos both⟩
  · exact .inl (if_neg both)

/-- One unit of the Real-Time Clock (R800, R801). -/
theorem State.rtcTick_cases (s : State) :
    (s.rtcl.toNat < 999999744 → s.rtcTick = { s with rtcl := s.rtcl + 256 })
    ∧ (s.rtcl.toNat = 999999744 → s.rtcTick = { s with rtcl := 0, rtcu := s.rtcu + 1 })
    ∧ (999999744 < s.rtcl.toNat → (s.rtcTick.rtcl = 0 ∨ s.rtcTick.rtcl = s.rtcl + 256)
        ∧ (s.rtcTick.rtcu = s.rtcu ∨ (s.rtcTick.rtcl = 0 ∧ s.rtcTick.rtcu = s.rtcu + 1))) := by
  have terminal : rtclTerminal.toNat = 999999744 := rfl
  have eq_iff : s.rtcl = rtclTerminal ↔ s.rtcl.toNat = 999999744 := BitVec.toNat_inj.symm
  have lt_iff : s.rtcl < rtclTerminal ↔ s.rtcl.toNat < 999999744 := Iff.rfl
  unfold State.rtcTick
  refine ⟨fun below => ?_, fun at_ => ?_, fun above => ?_⟩
  · rw [if_neg (by rw [eq_iff]; omega), if_pos (lt_iff.2 below)]
  · rw [if_pos (eq_iff.2 at_)]
  · rw [if_neg (by rw [eq_iff]; omega), if_neg (by rw [lt_iff]; omega)]
    refine ⟨ite_eq_or_eq _ _ _, ?_⟩
    exact carry_cases _ _ _

theorem State.rtcTick_rest (s : State) :
    s.rtcTick = { s with rtcl := s.rtcTick.rtcl, rtcu := s.rtcTick.rtcu, draws := s.rtcTick.draws } := by
  unfold State.rtcTick
  split
  · rfl
  split <;> rfl

theorem State.rtcTick_agenda (s : State) (l : List Move) :
    ({ s with agenda := l } : State).rtcTick = { s.rtcTick with agenda := l } := by
  unfold State.rtcTick
  by_cases terminal : s.rtcl = rtclTerminal
  · rw [if_pos terminal, if_pos terminal]
  · rw [if_neg terminal, if_neg terminal]
    by_cases below : s.rtcl < rtclTerminal
    · rw [if_pos below, if_pos below]
    · rw [if_neg below, if_neg below]
      rfl

theorem State.decTick_eq (s : State) : s.decTick = { s with
    dec := s.dec - 256
    eis := if bitAt s.dec 0 = false ∧ bitAt (s.dec - 256) 0 = true then s.eis ||| 1#64 <<< (63 - s.eisbidDec.toNat)
      else s.eis } := by
  unfold State.decTick
  exact State.signalDec_when _ _ _

theorem State.tick_eq (s : State) : s.tick = { s with
    rtcl := s.rtcTick.rtcl
    rtcu := s.rtcTick.rtcu
    draws := s.rtcTick.draws
    dec := s.dec - 256
    eis := if bitAt s.dec 0 = false ∧ bitAt (s.dec - 256) 0 = true then s.eis ||| 1#64 <<< (63 - s.eisbidDec.toNat)
      else s.eis
    ioccs := s.ioccs.map Iocc.tick
    ticksRun := s.ticksRun + 1
    stepsRun := 0 } := by
  unfold State.tick
  rw [State.decTick_eq, State.rtcTick_rest]

theorem step_tick {s : State} {l : List Move} (h : s.agenda = .tick :: l) :
    step s = .next (if s.mayTick then { s.tick with agenda := l } else { s with agenda := l }) := by
  have moved : ({ s with agenda := l } : State).tick = { s.tick with agenda := l } := by
    unfold State.tick
    rw [State.rtcTick_agenda, State.decTick_eq, State.decTick_eq]
  unfold step
  rw [h]
  have move : runMove .tick { s with agenda := l }
      = .ok (if s.mayTick then ({ s with agenda := l } : State).tick else { s with agenda := l }) :=
    if_neg (by simp [survivesCheckStop])
  simp only [move, moved]

/-- Settles O44. -/
theorem timeBase : Obligations.TimeBase := by
  refine ⟨fun s l agenda => ⟨fun may => ?_, fun running limit => ?_⟩, fun s agenda due => ?_⟩
  · have ticks : s.mayTick = true := by
      unfold State.mayTick tickLimit
      simpa using may
    have runs := step_tick agenda
    rw [if_pos ticks] at runs
    obtain ⟨below, at_, above⟩ := s.rtcTick_cases
    rw [s.tick_eq] at runs
    refine ⟨_, runs, fun h => ?_, fun h => ?_, above, rfl, rfl, rfl⟩
    · rw [below h]
      exact ⟨rfl, rfl⟩
    · rw [at_ h]
      exact ⟨rfl, rfl⟩
  · have still : s.mayTick = false := by
      unfold State.mayTick tickLimit
      rw [running, Bool.false_or, decide_eq_false_iff_not]
      omega
    rw [step_tick agenda, still, if_neg Bool.false_ne_true]
  · have ticks : s.tickDue = true := decide_eq_true due
    unfold step
    obtain empty | ⟨l, cpu⟩ := agenda
    · rw [empty]
      exact if_pos ticks
    · rw [cpu]
      exact if_pos ticks

end Sys2Proof.Machine

end

/-! ### The moves of CR, XER and the MSR (R499 to R503) -/

section

namespace Sys2Proof.Machine

open Host (Outcome)

/-- The fields from `i` on, `n` of them, that a mask names. -/
theorem bitAt_crMask (fxm : BitVec 8) (n i : Nat) (h : i + n ≤ 8) (k : Nat) :
    bitAt (crMask fxm n i) k = (decide (i ≤ k / 4 ∧ k / 4 < i + n) && fxm.getMsbD (k / 4)) := by
  induction n generalizing i with
  | zero =>
    rw [decide_eq_false (by omega), Bool.false_and]
    exact bitAt_zero k
  | succ n ih =>
    unfold crMask
    rw [bitAt_or, ih (i + 1) (by omega)]
    have field : bitAt (if fxm.getMsbD i = true then fieldMask (4 * i) 4 else 0) k
        = (decide (k / 4 = i) && fxm.getMsbD (k / 4)) := by
      by_cases here : k / 4 = i
      · rw [decide_eq_true here, Bool.true_and, here]
        split
        · next set => rw [bitAt_fieldMask (by omega), set, decide_eq_true (by omega), decide_eq_true (by omega)]; rfl
        · next clear => rw [bitAt_zero, Bool.eq_false_iff.2 clear]
      · rw [decide_eq_false here, Bool.false_and]
        split
        · rw [bitAt_fieldMask (by omega), Bool.and_eq_false_iff, decide_eq_false_iff_not, decide_eq_false_iff_not]
          omega
        · exact bitAt_zero k
    rw [field, ← Bool.and_or_distrib_right]
    congr 1
    rw [Bool.eq_iff_iff, Bool.or_eq_true_iff, decide_eq_true_iff, decide_eq_true_iff, decide_eq_true_iff]
    omega

theorem bitAt_mtcrf (v w : Word) (fxm : BitVec 8) {n : Nat} (hn : n < 32) :
    bitAt (v &&& crMask fxm 8 0 ||| w &&& ~~~ crMask fxm 8 0) n
      = if fxm.getMsbD (n / 4) then bitAt v n else bitAt w n := by
  rw [bitAt_or, bitAt_and, bitAt_and, bitAt_not _ hn, bitAt_crMask fxm 8 0 (by omega) n,
    decide_eq_true (by omega), Bool.true_and]
  cases fxm.getMsbD (n / 4) <;> simp

/-! #### Words that are prefetched after mtmsr (R647) -/

/-- What prefetching under MSR(IR) = 0 may change. -/
def State.PrefetchesReal (s t : State) : Prop := t = { s with ic := t.ic, pf := t.pf, draws := t.draws }

theorem State.PrefetchesReal.trans {s t u : State} (h : s.PrefetchesReal t) (k : t.PrefetchesReal u) :
    s.PrefetchesReal u := by
  unfold State.PrefetchesReal at h k
  rw [h] at k
  exact k

/-- The instruction cache has lines of memory alone, and the prefetched words are words of memory. -/
structure State.OfMemory (t : State) : Prop where
  lines : ∀ d ∈ t.ic, d.bytes = t.memBytes (t.lineBase d.line) t.lineSize
  words : ∀ p ∈ t.pf, p.2 = (t.memByte p.1.toNat ++ t.memByte (p.1.toNat + 1))
    ++ (t.memByte (p.1.toNat + 2) ++ t.memByte (p.1.toNat + 3))

theorem State.fetchByte_ic {s t : State} {ra : Word} {b : Byte} (h : s.fetchByte ra = some (b, t)) :
    t = { s with ic := t.ic } := by
  unfold State.fetchByte State.fillInstr at h
  split at h
  · cases h; rfl
  · split at h
    · next filled =>
      split at filled
      · cases filled; cases h; rfl
      · cases filled
    · cases h

theorem State.fetchBytes_ic {n : Nat} {ra : Word} {s t : State} {l : List Byte}
    (h : State.fetchBytes n ra s = some (l, t)) : t = { s with ic := t.ic } := by
  induction n generalizing ra s l with
  | zero => cases h; rfl
  | succ n ih =>
    unfold State.fetchBytes at h
    split at h
    · cases h
    · next first =>
      split at h
      · cases h
      · next rest =>
        cases h
        have e := ih rest
        rw [State.fetchByte_ic first] at e
        exact e

theorem State.OfMemory.fetchByte {s t : State} (m : s.OfMemory) {ra : Word} {b : Byte}
    (h : s.fetchByte ra = some (b, t)) : b = s.memByte ra.toNat ∧ t.OfMemory := by
  unfold State.fetchByte at h
  split at h
  · next d cached =>
    cases h
    have line : d.line = s.lineOf ra := beq_iff_eq.1 (List.find?_some (p := fun d : ILine => d.line == s.lineOf ra) cached)
    refine ⟨?_, m⟩
    rw [m.lines d (List.mem_of_find?_eq_some cached), line]
    exact s.memBytes_line ra.toNat
  · split at h
    · next filled =>
      cases h
      unfold State.fillInstr at filled
      split at filled
      · cases filled
        refine ⟨rfl, fun d hd => ?_, m.words⟩
        obtain rfl | hd := List.mem_cons.1 hd
        · rfl
        · exact m.lines d hd
      · cases filled
    · cases h

theorem State.OfMemory.fetchBytes {n : Nat} {ra : Word} {s t : State} (m : s.OfMemory) {l : List Byte}
    (h : State.fetchBytes n ra s = some (l, t)) :
    l = (List.range n).map (fun k => s.memByte (ra + BitVec.ofNat 32 k).toNat) ∧ t.OfMemory := by
  induction n generalizing ra s l with
  | zero => cases h; exact ⟨rfl, m⟩
  | succ n ih =>
    unfold State.fetchBytes at h
    split at h
    · cases h
    · next first =>
      split at h
      · cases h
      · next rest =>
        cases h
        obtain ⟨byte, m1⟩ := m.fetchByte first
        obtain ⟨bytes, m2⟩ := ih m1 rest
        refine ⟨?_, m2⟩
        rw [bytes, byte, State.fetchByte_ic first, List.range_succ_eq_map, List.map_cons, List.map_map, ofNat_zero_add]
        refine congrArg _ (List.map_congr_left fun k _ => ?_)
        rw [one_add_ofNat]
        rfl

/-- The word of four bytes from a multiple of 4 on. -/
theorem wordOfBytes_aligned (byte : Nat → Byte) {a : Word} (aligned : a.toNat % 4 = 0) :
    wordOfBytes ((List.range 4).map fun k => byte (a + BitVec.ofNat 32 k).toNat)
      = (byte a.toNat ++ byte (a.toNat + 1)) ++ (byte (a.toNat + 2) ++ byte (a.toNat + 3)) := by
  have offset : ∀ k, k < 4 → (a + BitVec.ofNat 32 k).toNat = a.toNat + k := by
    intro k hk
    have := a.isLt
    rw [BitVec.toNat_add, BitVec.toNat_ofNat]
    omega
  simp only [List.range_succ, List.range_zero, List.map_nil, List.map_cons, List.nil_append, List.cons_append,
    offset 0 (by decide), offset 1 (by decide), offset 2 (by decide), offset 3 (by decide), Nat.add_zero]
  exact word_of_four _ _ _ _

/-- A word that enters the prefetch buffer in real mode. -/
theorem State.prefetchWord_real {s : State} (ea : Word) (ir : s.msrIR = false) :
    s.PrefetchesReal (s.prefetchWord ea) ∧ (s.OfMemory → (s.prefetchWord ea).OfMemory) := by
  unfold State.prefetchWord
  rw [fetchNow_real _ ir]
  unfold fetchReal
  cases h : s.fetchBytes 4 (wordAlign ea) with
  | none => exact ⟨rfl, id⟩
  | some r =>
    obtain ⟨l, u⟩ := r
    have rest := State.fetchBytes_ic h
    refine ⟨?_, fun m => ?_⟩
    · show _ = _
      rw [rest]
    · obtain ⟨bytes, m1⟩ := m.fetchBytes h
      refine ⟨m1.lines, fun p hp => ?_⟩
      obtain rfl | hp := List.mem_cons.1 hp
      · refine (congrArg wordOfBytes bytes).trans ?_
        rw [wordOfBytes_aligned s.memByte ((wordAlign_eq_iff _).1 (wordAlign_wordAlign ea)), rest]
        rfl
      · exact m1.words p hp

theorem State.refill_real (n : Nat) (ea : Word) {s : State} (ir : s.msrIR = false) :
    s.PrefetchesReal (State.refill n ea s) ∧ (s.OfMemory → (State.refill n ea s).OfMemory) := by
  induction n generalizing ea s with
  | zero => exact ⟨rfl, id⟩
  | succ n ih =>
    unfold State.refill
    have drawn : s.PrefetchesReal s.drawBit.2 := rfl
    have word : s.PrefetchesReal (if s.drawBit.1 then s.drawBit.2.prefetchWord ea else s.drawBit.2)
        ∧ (s.OfMemory → (if s.drawBit.1 then s.drawBit.2.prefetchWord ea else s.drawBit.2).OfMemory) := by
      split
      · obtain ⟨only, words⟩ := State.prefetchWord_real (s := s.drawBit.2) ea ir
        exact ⟨only, fun m => words ⟨m.lines, m.words⟩⟩
      · exact ⟨rfl, fun m => ⟨m.lines, m.words⟩⟩
    obtain ⟨only, words⟩ := word
    obtain ⟨only', words'⟩ := ih (ea + 4) (s := if s.drawBit.1 then s.drawBit.2.prefetchWord ea else s.drawBit.2)
      ((congrArg State.msrIR only).trans ir)
    exact ⟨only.trans only', fun m => words' (words m)⟩

/-- Settles O42. -/
theorem stateMoves : Obligations.StateMoves := by
  intro s r bf fxm
  refine ⟨⟨_, rfl, ?mcrxr⟩, ⟨_, rfl, fun n hn => bitAt_mtcrf _ _ _ hn, rfl⟩, completes_setReg rfl rfl,
    completes_setReg rfl rfl, fun pr => ?mtmsr⟩
  case mcrxr =>
    refine ⟨State.crField_setCrField_self _ bf _, fun f hf => State.crField_setCrField_of_ne _ _ hf,
      bitsAt_setBits s.xer (by decide) 0, ?_, rfl⟩
    exact bitsAt_setBits_of_disjoint s.xer (by decide) (by decide) 0 (.inl (by decide))
  case mtmsr =>
    let fetched := State.refill ({ s with pf := [] } : State).drawWord.1.toNat s.nia ({ s with pf := [] } : State).drawWord.2
    let u := ((s.withFetched fetched).setMsr (s.reg r)).advance
    refine ⟨u.afterMsr, privileged_on pr _, u, rfl, rfl, fun ir => ?_, rfl⟩
    have emptied : s.PrefetchesReal ({ s with pf := [] } : State).drawWord.2 := rfl
    obtain ⟨only, words⟩ := State.refill_real ({ s with pf := [] } : State).drawWord.1.toNat s.nia
      (s := ({ s with pf := [] } : State).drawWord.2) ir
    have real : fetched = { s with ic := fetched.ic, pf := fetched.pf, draws := fetched.draws } := emptied.trans only
    refine ⟨?_, fun empty p hp => ?_⟩
    · show ((s.withFetched fetched).setMsr (s.reg r)).advance = _
      rw [real]
      rfl
    · have noLine : ∀ d, d ∉ s.ic := fun d hd => by
        rw [empty] at hd
        cases hd
      have memory : fetched.OfMemory := words ⟨fun d hd => absurd hd (noLine d), fun p hp => (nomatch hp)⟩
      have word := memory.words p hp
      rw [real] at word
      exact word

end Sys2Proof.Machine

end

/-! ### Segment registers, the TLB and real addresses (R655 to R661) -/

section

namespace Sys2Proof.Machine

open Host (Outcome)

/-! #### Segment registers -/

theorem completes_setSegment {i : Instr} {s : State} {n : BitVec 4} {v : Word}
    (runs : exec i s = .next (s.setSegment n v).advance) : Completes i s fun t =>
      t.segment n = v ∧ (∀ j, j ≠ n → t.segment j = s.segment j) ∧ t = { s with sr := t.sr, pc := s.pc + 4 } :=
  ⟨_, runs, s.segment_setSegment_self n v, fun _ hj => s.segment_setSegment_of_ne v hj, rfl⟩

/-- mfsri (R658). -/
theorem mfsri_completes (s : State) (r ra rb : RegNum) : Completes (.mfsri r ra rb) s fun t =>
    t.reg r = segmentRead (s.segmentOf (s.eaX ra rb)) ∧ (ra ≠ 0 → ra ≠ r → t.reg ra = s.eaX ra rb)
      ∧ s.OnlyRegs t (if ra = 0 then [r] else [r, ra]) := by
  have only := (s.setReg_onlyGprs r (segmentRead (s.segmentOf (s.eaX ra rb)))).trans
    (State.updateLoad_onlyGprs _ ra r (s.eaX ra rb))
  refine ⟨_, rfl, ?_, fun h hr => State.reg_updateLoad _ _ h hr, State.OnlyGprs.onlyRegs ?_⟩
  · exact (State.reg_updateLoad_target _ ra r _).trans (s.reg_setReg_self r _)
  · by_cases h : ra = 0
    · rw [if_pos h] at only ⊢
      exact only
    · rw [if_neg h] at only ⊢
      exact only

/-! #### clcs and tlbi -/

theorem clcs_completes (s : State) (rt ra : RegNum) : Completes (.clcs rt ra) s fun t =>
    (12 ≤ ra.toNat → ra.toNat < 16 → t.reg rt = BitVec.ofNat 32 s.lineSize) ∧ (∀ r, r ≠ rt → t.reg r = s.reg r)
      ∧ t = { s with gpr := t.gpr, draws := t.draws, pc := s.pc + 4 } := by
  by_cases named : 12 ≤ ra.toNat ∧ ra.toNat < 16
  · exact ⟨_, if_pos named, fun _ _ => s.reg_setReg_self rt _, fun r hr => s.reg_setReg_of_ne _ hr, rfl⟩
  · exact ⟨_, if_neg named, fun h k => absurd ⟨h, k⟩ named, fun r hr => State.reg_setReg_of_ne _ _ hr, rfl⟩

theorem tlbi_completes {s : State} (ra rb : RegNum) (pr : s.msrPR = false) : Completes (.tlbi ra rb) s fun t =>
    (∀ e, e ∈ t.tlb ↔ e ∈ s.tlb
        ∧ ¬ (e.sid = bitsAt (s.segmentOf (s.eaX ra rb)) 8 24 ∧ e.vpi = bitsAt (s.eaX ra rb) 4 16))
      ∧ (ra ≠ 0 → t.reg ra = s.eaX ra rb) ∧ (∀ r, (ra = 0 ∨ r ≠ ra) → t.reg r = s.reg r)
      ∧ t = { s with gpr := t.gpr, tlb := t.tlb, pc := s.pc + 4 } := by
  let u := s.dropTlbPage (bitsAt (s.segmentOf (s.eaX ra rb)) 8 24) (bitsAt (s.eaX ra rb) 4 16)
  have only := u.updateBase_onlyGprs ra (s.eaX ra rb)
  refine ⟨(u.updateBase ra (s.eaX ra rb)).advance, privileged_on pr _, fun e => ?_,
    fun h => u.reg_updateBase _ h, fun r hr => only.others r ?_, ?_⟩
  · rw [only.rest]
    show e ∈ s.tlb.filter _ ↔ _
    rw [List.mem_filter]
    simp [imp_iff_not_or]
  · split
    · exact List.not_mem_nil
    · next h => exact fun e => hr.elim h fun ne => ne (List.mem_singleton.1 e)
  · show (u.updateBase ra (s.eaX ra rb)).advance = _
    rw [only.rest]
    rfl

/-! #### rac (R661) -/

/-- The real address that the look-up finds for an effective address. -/
def State.foundReal (s : State) (ea : Word) : Option Word :=
  if s.isIo ea then none
  else match (lookupPage (bitsAt (s.segmentOf ea) 8 24) (bitsAt ea 4 16) s).1 with
    | .entry x => some (x.rpn ++ bitsAt ea 20 12)
    | _ => none

theorem State.realAddress_eq (s : State) (ea : Word) :
    (s.realAddress ea).1 = s.foundReal ea ∧ s.Behind (s.realAddress ea).2 := by
  unfold State.realAddress State.foundReal
  by_cases io : s.isIo ea = true
  · rw [if_pos io, if_pos io]
    exact ⟨rfl, .refl s⟩
  · rw [if_neg io, if_neg io]
    have behind := lookupPage_behind (bitsAt (s.segmentOf ea) 8 24) (bitsAt ea 4 16) s
    generalize lookupPage (bitsAt (s.segmentOf ea) 8 24) (bitsAt ea 4 16) s = look at behind
    obtain ⟨found, u⟩ := look
    cases found with
    | entry e => exact ⟨rfl, behind.trans (u.failedAccess_behind e)⟩
    | notFound => exact ⟨rfl, behind⟩
    | loop => exact ⟨rfl, behind⟩

/-- The condition register after rac. -/
def State.recordFound (s : State) (found rc : Bool) : State :=
  let t := s.setCrBit 2 found
  if rc then
    t.drawBit.2.drawBit.2.setCrField 0 (crNibble t.drawBit.1 t.drawBit.2.drawBit.1 found t.drawBit.2.drawBit.2.xerSO)
  else t

theorem State.recordFound_spec (s : State) (found rc : Bool) :
    bitAt (s.recordFound found rc).cr 2 = found ∧ (rc = true → bitAt (s.recordFound found rc).cr 3 = s.xerSO)
      ∧ (rc = false → bitsAt (s.recordFound found rc).cr 0 2 = bitsAt s.cr 0 2
        ∧ bitAt (s.recordFound found rc).cr 3 = bitAt s.cr 3)
      ∧ (∀ f, f ≠ 0 → (s.recordFound found rc).crField f = s.crField f)
      ∧ s.recordFound found rc
        = { s with cr := (s.recordFound found rc).cr, draws := (s.recordFound found rc).draws } := by
  have field (f : CrField) (hf : f ≠ 0) : (s.setCrBit 2 found).crField f = s.crField f := by
    refine BitVec.eq_of_getMsbD_eq fun j hj => ?_
    have place : 2 ≠ 4 * f.toNat + j := fun e => hf (BitVec.eq_of_toNat_eq (show f.toNat = 0 by omega))
    have bound := CrField.bound f
    unfold State.crField
    rw [getMsbD_bitsAt _ bound hj, getMsbD_bitsAt _ bound hj]
    exact bitAt_setBit_of_ne s.cr (by decide) (by omega) place found
  cases rc with
  | false =>
    refine ⟨bitAt_setBit_self s.cr (by decide) found, fun h => (nomatch h), fun _ => ⟨?_, ?_⟩, field, rfl⟩
    · refine BitVec.eq_of_getMsbD_eq fun j hj => ?_
      rw [getMsbD_bitsAt _ (by decide) hj, getMsbD_bitsAt _ (by decide) hj]
      exact bitAt_setBit_of_ne s.cr (i := 2) (by decide) (by omega) (by omega) found
    · exact bitAt_setBit_of_ne s.cr (by decide) (by decide) (by decide) found
  | true =>
    have nibble : ∀ a b c d : Bool, (crNibble a b c d).getMsbD 2 = c ∧ (crNibble a b c d).getMsbD 3 = d := by decide
    have written (t : State) (v : BitVec 4) (j : Nat) (hj : j < 4) : bitAt (t.setCrField 0 v).cr j = v.getMsbD j := by
      refine (bitAt_setBits t.cr (i := 0) (n := 4) (by decide) v (j := j) (by omega)).trans ?_
      rw [if_pos ⟨Nat.zero_le j, by simpa using hj⟩]
      rfl
    refine ⟨?_, fun _ => ?_, fun h => (nomatch h), fun f hf => ?_, rfl⟩
    · exact (written _ _ 2 (by decide)).trans (nibble _ _ _ _).1
    · exact (written _ _ 3 (by decide)).trans (nibble _ _ _ _).2
    · exact (State.crField_setCrField_of_ne _ _ hf).trans (field f hf)

theorem rac_completes {s : State} (rt ra rb : RegNum) (rc : Bool) (pr : s.msrPR = false) :
    Completes (.rac rt ra rb rc) s fun t =>
      t.reg rt = (s.foundReal (s.eaX ra rb)).getD 0 ∧ bitAt t.cr 2 = (s.foundReal (s.eaX ra rb)).isSome
        ∧ (ra ≠ 0 → ra ≠ rt → t.reg ra = s.eaX ra rb) ∧ (∀ r, r ≠ rt → (ra = 0 ∨ r ≠ ra) → t.reg r = s.reg r)
        ∧ (rc = true → bitAt t.cr 3 = s.xerSO)
        ∧ (rc = false → bitsAt t.cr 0 2 = bitsAt s.cr 0 2 ∧ bitAt t.cr 3 = bitAt s.cr 3)
        ∧ (∀ f, f ≠ 0 → t.crField f = s.crField f)
        ∧ t = { s.withStorage t with gpr := t.gpr, cr := t.cr, pc := s.pc + 4 } := by
  have runs : exec (.rac rt ra rb rc) s = .next (State.recordFound
      (((s.realAddress (s.eaX ra rb)).2.setReg rt ((s.realAddress (s.eaX ra rb)).1.getD 0)).updateLoad ra rt (s.eaX ra rb))
      (s.realAddress (s.eaX ra rb)).1.isSome rc).advance := privileged_on pr _
  obtain ⟨found, behind⟩ := s.realAddress_eq (s.eaX ra rb)
  rw [found] at runs
  generalize (s.realAddress (s.eaX ra rb)).2 = u at runs behind
  have storage : u = s.withStorage u := behind.storage
  have reg (r : RegNum) : u.reg r = s.reg r := by rw [storage]; rfl
  have cr : u.cr = s.cr := by rw [storage]; rfl
  have xer : u.xer = s.xer := by rw [storage]; rfl
  have only := (u.setReg_onlyGprs rt ((s.foundReal (s.eaX ra rb)).getD 0)).trans
    (State.updateLoad_onlyGprs _ ra rt (s.eaX ra rb))
  have target : ((u.setReg rt ((s.foundReal (s.eaX ra rb)).getD 0)).updateLoad ra rt (s.eaX ra rb)).reg rt
      = (s.foundReal (s.eaX ra rb)).getD 0 := (State.reg_updateLoad_target _ ra rt _).trans (u.reg_setReg_self rt _)
  have base (h : ra ≠ 0) (hr : ra ≠ rt) : ((u.setReg rt ((s.foundReal (s.eaX ra rb)).getD 0)).updateLoad ra rt
      (s.eaX ra rb)).reg ra = s.eaX ra rb := State.reg_updateLoad _ _ h hr
  generalize (u.setReg rt ((s.foundReal (s.eaX ra rb)).getD 0)).updateLoad ra rt (s.eaX ra rb) = v at runs only target base
  obtain ⟨bit, so, kept, fields, rest⟩ := v.recordFound_spec (s.foundReal (s.eaX ra rb)).isSome rc
  generalize v.recordFound (s.foundReal (s.eaX ra rb)).isSome rc = w at runs bit so kept fields rest
  have regs (r : RegNum) : w.reg r = v.reg r := by rw [rest]; rfl
  have vcr : v.cr = s.cr := (congrArg State.cr only.rest).trans cr
  have vxer : v.xer = s.xer := (congrArg State.xer only.rest).trans xer
  refine ⟨_, runs, (regs rt).trans target, bit, fun h hr => (regs ra).trans (base h hr), fun r hr hra => ?_, fun h => ?_,
    fun h => ?_, fun f hf => ?_, ?_⟩
  · refine (regs r).trans ((only.others r ?_).trans (reg r))
    rw [List.mem_append, List.mem_singleton, not_or]
    refine ⟨hr, ?_⟩
    split
    · exact List.not_mem_nil
    · next h => exact fun e => hra.elim h fun ne => ne (List.mem_singleton.1 e)
  · exact (so h).trans (congrArg (bitAt · 0) vxer)
  · obtain ⟨low, last⟩ := kept h
    rw [vcr] at low last
    exact ⟨low, last⟩
  · exact (fields f hf).trans (congrArg (fun c => bitsAt c (4 * f.toNat) 4) vcr)
  · rw [rest, only.rest, storage]
    rfl

/-- Settles O46. -/
theorem segmentAndTranslationInstructions : Obligations.SegmentAndTranslationInstructions := by
  refine ⟨fun s r ra rb n => ⟨fun pr => completes_setSegment (privileged_on pr _),
    fun pr => completes_setSegment (privileged_on pr _), completes_setReg rfl rfl, mfsri_completes s r ra rb⟩,
    fun s rt ra rb rc => ⟨clcs_completes s rt ra, fun pr => tlbi_completes ra rb pr, fun pr => rac_completes rt ra rb rc pr⟩⟩

end Sys2Proof.Machine

end

/-! ### The cache instructions (R640 to R644, R654, R662) -/

section

namespace Sys2Proof.Machine

open Host (Outcome)

/-! #### Lines -/

/-- What loads find depends on the data cache, the store-backs begun, memory and the configuration. -/
theorem State.dataByte_congr {s t : State} {b : Word} (cfg : t.cfg = s.cfg)
    (line : t.dataLine (s.lineOf b) = s.dataLine (s.lineOf b))
    (under : t.underByte t.wb b.toNat = s.underByte s.wb b.toNat) : t.dataByte b = s.dataByte b := by
  rw [State.dataByte_eq, State.dataByte_eq, State.lineOf_congr cfg, State.lineOff_congr cfg, line, under]

theorem State.dataLine_dropData_self (s : State) (line : Nat) : (s.dropData line).dataLine line = none := by
  unfold State.dataLine State.dropData
  rw [List.find?_filter, List.find?_eq_none]
  simp

theorem State.dataLine_dropData_of_ne (s : State) {line l : Nat} (h : l ≠ line) :
    (s.dropData line).dataLine l = s.dataLine l := by
  unfold State.dataLine State.dropData
  rw [List.find?_filter]
  congr 1
  funext d
  by_cases e : d.line = l
  · simp [e, h]
  · simp [e]

theorem State.instrLine_dropInstr (s : State) (line : Nat) : (s.dropInstr line).instrLine line = none := by
  unfold State.instrLine State.dropInstr
  rw [List.find?_filter, List.find?_eq_none]
  simp

/-- The store-back that a modified line of the data cache begins. -/
def State.storeBackOf (s : State) (line : Nat) : List StoreBack :=
  match s.dataLine line with
  | some d => if d.modified then [⟨line, d.bytes⟩] else []
  | none => []

theorem State.storeBackIfModified_eq (s : State) (line : Nat) :
    s.storeBackIfModified line = { s with wb := s.wb ++ s.storeBackOf line } := by
  unfold State.storeBackIfModified State.storeBackOf
  cases s.dataLine line with
  | none => simp only [List.append_nil]
  | some d =>
    by_cases modified : d.modified = true
    · simp only [modified, if_true]
      rfl
    · simp only [modified, Bool.false_eq_true, if_false, List.append_nil]

theorem State.storeBackOf_line (s : State) (line : Nat) : ∀ e ∈ s.storeBackOf line, e.line = line := by
  unfold State.storeBackOf
  intro e he
  split at he
  · split at he
    · rw [List.mem_singleton.1 he]
    · cases he
  · cases he

theorem newestOf_append_other (size : Nat) (l m : List StoreBack) {a line : Nat} (h : a / size ≠ line)
    (hm : ∀ e ∈ m, e.line = line) : newestOf size (l ++ m) a = newestOf size l a := by
  have none : m.filter (fun e => e.line == a / size) = [] :=
    List.filter_eq_nil_iff.2 fun e he => by rw [hm e he, beq_iff_eq]; exact fun x => h x.symm
  unfold newestOf
  rw [List.filter_append, none, List.append_nil]

theorem newestOf_append_self (size : Nat) (l : List StoreBack) (e : StoreBack) {a : Nat} (h : e.line = a / size) :
    newestOf size (l ++ [e]) a = some e := by
  have last : [e].filter (fun x => x.line == a / size) = [e] :=
    List.filter_eq_self.2 fun x hx => by rw [List.mem_singleton.1 hx, beq_iff_eq, h]
  unfold newestOf
  rw [List.filter_append, last, List.getLast?_concat]

theorem State.underByte_append_other (s : State) {m : List StoreBack} {a line : Nat} (h : a / s.lineSize ≠ line)
    (hm : ∀ e ∈ m, e.line = line) : s.underByte (s.wb ++ m) a = s.underByte s.wb a := by
  unfold State.underByte
  rw [newestOf_append_other _ _ _ h hm]

/-! #### An instruction's end -/

/-- What a cache instruction may change before it updates its base register. -/
def State.CacheOnly (s t : State) : Prop := t = { s.withStorage t with ic := t.ic }

theorem State.updateBase_eq (s : State) (ra : RegNum) (ea : Word) :
    s.updateBase ra ea = { s with gpr := (s.updateBase ra ea).gpr } := (s.updateBase_onlyGprs ra ea).rest

/-- The registers after a cache instruction (R662): RA has the effective address, nothing else differs. -/
theorem State.CacheOnly.updates {s u : State} (h : s.CacheOnly u) (ra : RegNum) (ea : Word) :
    let t := (u.updateBase ra ea).advance
    (ra ≠ 0 → t.reg ra = ea) ∧ (∀ r, (ra = 0 ∨ r ≠ ra) → t.reg r = s.reg r)
      ∧ t = { s.withStorage t with gpr := t.gpr, ic := t.ic, pc := s.pc + 4 } := by
  have only := u.updateBase_onlyGprs ra ea
  have rest : u = { s.withStorage u with ic := u.ic } := h
  have reg (r : RegNum) : u.reg r = s.reg r := by rw [rest]; rfl
  refine ⟨fun hra => u.reg_updateBase ea hra, fun r hr => (only.others r ?_).trans (reg r), ?_⟩
  · split
    · exact List.not_mem_nil
    · next hra => exact fun e => hr.elim hra fun ne => ne (List.mem_singleton.1 e)
  · rw [only.rest, rest]
    rfl

theorem State.cacheInstr_io {s : State} {ra rb : RegNum} (h : s.isIo (s.eaX ra rb) = true) (store : Bool)
    (f : State → Nat → State) : s.cacheInstr ra rb store f = .next (s.updateBase ra (s.eaX ra rb)).advance := by
  have access : s.cacheAccess (s.eaX ra rb) store = .ok none s := if_pos h
  show (s.cacheAccess (s.eaX ra rb) store).outcome _ = _
  rw [access]
  rfl

theorem State.cacheInstr_real {s : State} {ra rb : RegNum} (real : s.RealMode (s.eaX ra rb) 1) (store : Bool)
    (f : State → Nat → State) : s.cacheInstr ra rb store f
      = .next ((f s (s.lineOf (s.eaX ra rb))).updateBase ra (s.eaX ra rb)).advance := by
  have noIo : s.isIo (s.eaX ra rb) = false := by
    have := real.noIo 0 (by decide)
    rwa [ofNat_zero_add] at this
  have addr : dataAddr (s.eaX ra rb) store s = (.real (s.eaX ra rb), s) :=
    (if_neg (Bool.eq_false_iff.1 noIo)).trans (if_neg (Bool.eq_false_iff.1 real.noTranslation))
  have access : s.cacheAccess (s.eaX ra rb) store = .ok (some (s.lineOf (s.eaX ra rb))) s := by
    unfold State.cacheAccess
    rw [if_neg (Bool.eq_false_iff.1 noIo), addr]
  show (s.cacheAccess (s.eaX ra rb) store).outcome _ = _
  rw [access]
  rfl

/-- A cache instruction in a memory segment in real mode: its effect on the line, and then RA. -/
theorem completes_real {i : Instr} {s : State} {ra rb : RegNum} {store : Bool} {f : State → Nat → State}
    {p : State → Prop} (real : s.RealMode (s.eaX ra rb) 1) (runs : exec i s = s.cacheInstr ra rb store f)
    (only : s.CacheOnly (f s (s.lineOf (s.eaX ra rb))))
    (h : ∀ g, p { f s (s.lineOf (s.eaX ra rb)) with gpr := g, pc := (f s (s.lineOf (s.eaX ra rb))).pc + 4 }) :
    Completes i s fun t =>
      ((ra ≠ 0 → t.reg ra = s.eaX ra rb) ∧ (∀ r, (ra = 0 ∨ r ≠ ra) → t.reg r = s.reg r)
        ∧ t = { s.withStorage t with gpr := t.gpr, ic := t.ic, pc := s.pc + 4 }) ∧ p t := by
  refine ⟨_, runs.trans (State.cacheInstr_real real store f), only.updates ra _, ?_⟩
  rw [State.updateBase_eq]
  exact h _

/-- A cache instruction in an I/O segment: RA alone. -/
theorem completes_io {i : Instr} {s : State} {ra rb : RegNum} {store : Bool} {f : State → Nat → State}
    (io : s.isIo (s.eaX ra rb) = true) (runs : exec i s = s.cacheInstr ra rb store f) : Completes i s fun t =>
      ((ra ≠ 0 → t.reg ra = s.eaX ra rb) ∧ (∀ r, (ra = 0 ∨ r ≠ ra) → t.reg r = s.reg r)
        ∧ t = { s.withStorage t with gpr := t.gpr, ic := t.ic, pc := s.pc + 4 })
      ∧ t.dc = s.dc ∧ t.ic = s.ic ∧ t.mem = s.mem ∧ t.wb = s.wb := by
  refine ⟨_, runs.trans (State.cacheInstr_io io store f), State.CacheOnly.updates (s := s) (u := s) rfl ra _, ?_⟩
  rw [s.updateBase_eq]
  exact ⟨rfl, rfl, rfl, rfl⟩

/-! #### The effects on lines -/

/-- What a line's bytes are to loads, for a modified line that is stored back and one that stays. -/
theorem State.dataByte_storeBack {s t : State} {line : Nat} (cfg : t.cfg = s.cfg) (mem : t.mem = s.mem)
    (wb : t.wb = s.wb ++ s.storeBackOf line) {b : Word} (h : s.lineOf b ≠ line)
    (other : t.dataLine (s.lineOf b) = s.dataLine (s.lineOf b)) : t.dataByte b = s.dataByte b := by
  refine State.dataByte_congr cfg other ?_
  have same : t.underByte t.wb b.toNat = s.underByte t.wb b.toNat := by
    unfold State.underByte State.memByte State.lineSize State.isRam
    rw [cfg, mem]
  rw [same, wb]
  exact s.underByte_append_other h (s.storeBackOf_line line)

/-- A line that is in the data cache, modified, or not there, is stored back: loads find the same bytes, in memory. -/
theorem State.dataByte_flushed {s t : State} {line : Nat} (cfg : t.cfg = s.cfg) (mem : t.mem = s.mem)
    (wb : t.wb = s.wb ++ s.storeBackOf line) (gone : t.dataLine line = none)
    (modified : ∀ d, s.dataLine line = some d → d.modified = true)
    (ram : ∀ k, k < s.lineSize → s.isRam (s.lineBase line + k) = true) {b : Word} (h : s.lineOf b = line) :
    t.dataByte b = s.dataByte b := by
  have place : s.lineBase line + s.lineOff b = b.toNat := by
    rw [← h]
    exact Nat.div_add_mod' _ _
  have same : t.underByte t.wb b.toNat = s.underByte t.wb b.toNat := by
    unfold State.underByte State.memByte State.lineSize State.isRam
    rw [cfg, mem]
  rw [State.dataByte_eq, State.dataByte_eq, State.lineOf_congr cfg, h, gone, same, wb]
  cases cached : s.dataLine line with
  | none =>
    unfold State.storeBackOf
    rw [cached, List.append_nil]
  | some d =>
    have newest : s.storeBackOf line = [⟨line, d.bytes⟩] := by
      unfold State.storeBackOf
      rw [cached]
      exact if_pos (modified d cached)
    have isRam : s.isRam b.toNat = true := place ▸ ram _ (Nat.mod_lt _ s.lineSize_pos)
    unfold State.underByte
    rw [newest, newestOf_append_self _ _ _ h.symm]
    exact if_pos isRam

theorem State.flushLine_eq (s : State) (line : Nat) : s.flushLine line = { s with
    wb := s.wb ++ s.storeBackOf line, dc := s.dc.filter fun d => d.line != line,
    ic := s.ic.filter fun d => d.line != line } := by
  unfold State.flushLine
  rw [State.storeBackIfModified_eq]
  rfl

theorem State.flushLine_spec (s : State) (line : Nat) :
    s.CacheOnly (s.flushLine line) ∧ (s.flushLine line).dataLine line = none ∧ (s.flushLine line).instrLine line = none
      ∧ (∀ b, s.lineOf b ≠ line → (s.flushLine line).dataByte b = s.dataByte b)
      ∧ (s.flushLine line).wb = s.wb ++ s.storeBackOf line
      ∧ ((∀ d, s.dataLine line = some d → d.modified = true) →
          (∀ k, k < s.lineSize → s.isRam (s.lineBase line + k) = true) → s.SameMemory (s.flushLine line)) := by
  have e := s.flushLine_eq line
  have gone : (s.flushLine line).dataLine line = none := by
    rw [e]
    exact s.dataLine_dropData_self line
  have others (l : Nat) (h : l ≠ line) : (s.flushLine line).dataLine l = s.dataLine l := by
    rw [e]
    exact s.dataLine_dropData_of_ne h
  have instr : (s.flushLine line).instrLine line = none := by
    rw [e]
    exact s.instrLine_dropInstr line
  generalize s.flushLine line = u at e gone others instr
  have cfg : u.cfg = s.cfg := by rw [e]
  have mem : u.mem = s.mem := by rw [e]
  have wb : u.wb = s.wb ++ s.storeBackOf line := by rw [e]
  have elsewhere (b : Word) (h : s.lineOf b ≠ line) : u.dataByte b = s.dataByte b :=
    State.dataByte_storeBack cfg mem wb h (others _ h)
  refine ⟨?_, gone, instr, elsewhere, wb, fun modified ram b => ?_⟩
  · unfold State.CacheOnly
    rw [e]
    rfl
  · by_cases h : s.lineOf b = line
    · exact State.dataByte_flushed cfg mem wb gone modified ram h
    · exact elsewhere b h

theorem State.invalidateLine_spec (s : State) (line : Nat) :
    s.CacheOnly (s.invalidateLine line) ∧ (s.invalidateLine line).dataLine line = none
      ∧ (s.invalidateLine line).instrLine line = none
      ∧ (∀ b, s.lineOf b ≠ line → (s.invalidateLine line).dataByte b = s.dataByte b)
      ∧ (s.invalidateLine line).wb = s.wb ∧ (s.invalidateLine line).mem = s.mem :=
  ⟨rfl, s.dataLine_dropData_self line, s.instrLine_dropInstr line,
    fun _ h => State.dataByte_congr rfl (s.dataLine_dropData_of_ne h) rfl, rfl, rfl⟩

/-- A line of the data cache once it is clean. -/
theorem State.dataLine_storeLine (s : State) (line l : Nat) : (s.storeLine line).dataLine l
    = (s.dataLine l).map fun d => if l = line then { d with modified := false } else d := by
  unfold State.storeLine State.dataLine
  show (s.dc.map _).find? _ = _
  rw [List.find?_map]
  have same : ((fun d => d.line == l) ∘ fun d : DLine => if d.line == line then { d with modified := false } else d)
      = fun d => d.line == l := by
    funext d
    simp only [Function.comp]
    split <;> rfl
  rw [same]
  cases found : s.dc.find? fun d => d.line == l with
  | none => rfl
  | some d =>
    have at_ : d.line = l := beq_iff_eq.1 (List.find?_some (p := fun d : DLine => d.line == l) found)
    simp [at_]

theorem State.storeLine_spec (s : State) (line : Nat) :
    s.CacheOnly (s.storeLine line) ∧ s.SameMemory (s.storeLine line) ∧ (s.storeLine line).ic = s.ic
      ∧ (s.storeLine line).wb = s.wb ++ s.storeBackOf line
      ∧ (s.storeLine line).dataLine line = (s.dataLine line).map fun d => { d with modified := false } := by
  have lines := s.dataLine_storeLine line
  have rest : s.storeLine line = { s with wb := s.wb ++ s.storeBackOf line, dc := (s.storeLine line).dc } := by
    unfold State.storeLine
    rw [State.storeBackIfModified_eq]
  generalize s.storeLine line = u at lines rest
  have cfg : u.cfg = s.cfg := by rw [rest]
  have wb : u.wb = s.wb ++ s.storeBackOf line := by rw [rest]
  refine ⟨?_, fun b => ?_, by rw [rest], wb, ?_⟩
  · unfold State.CacheOnly
    rw [rest]
    rfl
  · by_cases h : s.lineOf b = line
    · rw [State.dataByte_eq, State.dataByte_eq, State.lineOf_congr cfg, State.lineOff_congr cfg, lines, h]
      cases cached : s.dataLine line with
      | some d => simp
      | none =>
        have noStore : s.storeBackOf line = [] := by
          unfold State.storeBackOf
          rw [cached]
        rw [noStore, List.append_nil] at rest
        rw [rest]
        rfl
    · refine State.dataByte_storeBack cfg (by rw [rest]) wb h ?_
      rw [lines]
      simp [h]
  · rw [lines]
    simp

theorem State.zeroLine_spec {s : State} (canonical : Memory.wf s.mem = true) (line : Nat) :
    s.CacheOnly (s.zeroLine line) ∧ (∀ b, s.lineOf b = line → (s.zeroLine line).dataByte b = 0)
      ∧ (∀ b, s.lineOf b ≠ line → (s.zeroLine line).dataByte b = s.dataByte b) ∧ (s.zeroLine line).ic = s.ic := by
  obtain ⟨m, c, finished⟩ := s.finishLine_rest line
  have under (b : Word) : (s.finishLine line).underByte (s.finishLine line).wb b.toNat = s.underByte s.wb b.toNat :=
    State.underByte_finishLine line b.toNat canonical
  have e : s.zeroLine line = { s.finishLine line with
      dc := ⟨line, List.replicate s.lineSize 0, true⟩ :: s.dc.filter fun d => d.line != line } := by
    unfold State.zeroLine
    rw [finished]
    rfl
  rw [e]
  refine ⟨?_, fun b h => ?_, fun b h => ?_, ?_⟩
  · rw [finished]
    rfl
  · have cached : ({ s.finishLine line with
        dc := ⟨line, List.replicate s.lineSize 0, true⟩ :: s.dc.filter fun d => d.line != line } : State).dataLine line
        = some ⟨line, List.replicate s.lineSize 0, true⟩ := List.find?_cons_of_pos (beq_self_eq_true line)
    rw [State.dataByte_eq, State.lineOf_congr (s := s) (by rw [finished]), h, cached]
    rw [State.lineOff_congr (s := s) (by rw [finished])]
    exact List.getD_replicate _ (Nat.mod_lt b.toNat s.lineSize_pos)
  · refine State.dataByte_congr (by rw [finished]) ?_ (under b)
    refine (List.find?_cons_of_neg ?_).trans (s.dataLine_dropData_of_ne h)
    rw [beq_iff_eq]
    exact fun e => h e.symm
  · rw [finished]

/-- Settles O45. -/
theorem cacheInstructions : Obligations.CacheInstructions := by
  intro s ra rb canonical ea line updates elsewhere storeBack
  refine ⟨⟨_, rfl, rfl, State.finishWb_sameMemory canonical.mem, ?dcs⟩, rfl, fun i hi allowed io => ?io, fun real =>
    ⟨?clf, fun pr => ?cli, ?dclst, ?dclz⟩⟩
  case dcs =>
    obtain ⟨m, c, finished⟩ := State.finishAll_rest s.wb s
    unfold State.finishWb
    rw [finished]
    rfl
  case io =>
    simp only [List.mem_cons, List.not_mem_nil, or_false] at hi
    obtain rfl | rfl | rfl | rfl := hi
    · exact completes_io io rfl
    · exact completes_io io rfl
    · exact completes_io io rfl
    · exact completes_io io (privileged_on (allowed rfl) _)
  case clf =>
    obtain ⟨only, rest⟩ := s.flushLine_spec line
    exact completes_real (p := fun t => t.dataLine line = none ∧ t.instrLine line = none ∧ elsewhere t ∧ t.wb = s.wb ++ storeBack
      ∧ ((∀ d, s.dataLine line = some d → d.modified = true) →
        (∀ k, k < s.lineSize → s.isRam (s.lineBase line + k) = true) → s.SameMemory t)) real rfl only fun _ => rest
  case cli =>
    obtain ⟨only, rest⟩ := s.invalidateLine_spec line
    exact completes_real (p := fun t => t.dataLine line = none ∧ t.instrLine line = none ∧ elsewhere t ∧ t.wb = s.wb
      ∧ t.mem = s.mem) real (privileged_on pr _) only fun _ => rest
  case dclst =>
    obtain ⟨only, rest⟩ := s.storeLine_spec line
    exact completes_real (p := fun t => s.SameMemory t ∧ t.ic = s.ic ∧ t.wb = s.wb ++ storeBack
      ∧ t.dataLine line = (s.dataLine line).map fun d => { d with modified := false }) real rfl only fun _ => rest
  case dclz =>
    obtain ⟨only, rest⟩ := State.zeroLine_spec canonical.mem line
    exact completes_real (p := fun t => (∀ b, s.lineOf b = line → t.dataByte b = 0) ∧ elsewhere t ∧ t.ic = s.ic)
      real rfl only fun _ => rest

end Sys2Proof.Machine

end

/-! ### Singles in registers (R528, R529) -/

section

namespace Sys2Proof.Machine

/-- The magnitude that a single with biased exponent e and fraction f has in a register (R528). -/
def widenedMag (e f : Nat) : Nat :=
  if e = 255 then 2047 * 2 ^ 52 + f * 2 ^ 29
  else if e ≠ 0 then (e + 896) * 2 ^ 52 + f * 2 ^ 29
  else if f = 0 then 0
  else (874 + Nat.log2 f) * 2 ^ 52 + (f * 2 ^ (23 - Nat.log2 f) - 2 ^ 23) * 2 ^ 29

theorem toNat_fields (s : BitVec 1) (e : BitVec 11) (f : BitVec 23) :
    (s ++ e ++ f ++ 0#29 : DWord).toNat = s.toNat * 2 ^ 63 + (e.toNat * 2 ^ 52 + f.toNat * 2 ^ 29) := by
  have he := e.isLt
  have hf := f.isLt
  rw [BitVec.toNat_append, BitVec.toNat_append, BitVec.toNat_append, ← Nat.shiftLeft_add_eq_or_of_lt he,
    ← Nat.shiftLeft_add_eq_or_of_lt hf, BitVec.toNat_ofNat, Nat.zero_mod, Nat.or_zero]
  simp only [Nat.shiftLeft_eq]
  omega

/-- A fraction of a denormalized single, shifted until its first 1 is where a normalized number has it. -/
theorem normalized_fraction {f : Nat} (pos : f ≠ 0) (lt : f < 2 ^ 23) :
    Nat.log2 f ≤ 22 ∧ 2 ^ 23 ≤ f * 2 ^ (23 - Nat.log2 f) ∧ f * 2 ^ (23 - Nat.log2 f) < 2 ^ 24 := by
  have low : 2 ^ Nat.log2 f ≤ f := Nat.log2_self_le pos
  have high : f < 2 ^ (Nat.log2 f + 1) := Nat.lt_log2_self
  have bound : Nat.log2 f < 23 := (Nat.log2_lt pos).2 lt
  refine ⟨by omega, ?_, ?_⟩
  · calc 2 ^ 23 = 2 ^ Nat.log2 f * 2 ^ (23 - Nat.log2 f) := by rw [← pow_add]; congr 1; omega
      _ ≤ f * 2 ^ (23 - Nat.log2 f) := Nat.mul_le_mul_right _ low
  · calc f * 2 ^ (23 - Nat.log2 f) < 2 ^ (Nat.log2 f + 1) * 2 ^ (23 - Nat.log2 f) :=
          Nat.mul_lt_mul_of_pos_right high (Nat.two_pow_pos _)
      _ = 2 ^ 24 := by rw [← pow_add]; congr 1; omega

theorem widenedMag_finite {e f : Nat} (he : e < 255) (hf : f < 2 ^ 23) : widenedMag e f < infMag := by
  unfold widenedMag infMag
  rw [if_neg (by omega)]
  split
  · omega
  split
  · omega
  · next zero =>
    obtain ⟨bound, -, high⟩ := normalized_fraction zero hf
    omega

theorem widenedMag_lt {e f : Nat} (he : e < 256) (hf : f < 2 ^ 23) : widenedMag e f < 2 ^ 63 := by
  by_cases nan : e = 255
  · unfold widenedMag
    rw [if_pos nan]
    omega
  · exact (widenedMag_finite (by omega) hf).trans (by decide)

theorem toNat_doubleOfSingle (w : Word) : (doubleOfSingle w).toNat = (w.extractLsb' 31 1).toNat * 2 ^ 63
    + widenedMag (w.extractLsb' 23 8).toNat (w.extractLsb' 0 23).toNat := by
  have he := (w.extractLsb' 23 8).isLt
  have hf := (w.extractLsb' 0 23).isLt
  unfold doubleOfSingle widenedMag
  generalize w.extractLsb' 31 1 = s
  generalize (w.extractLsb' 23 8).toNat = e at he
  generalize w.extractLsb' 0 23 = f at hf
  simp only
  by_cases nan : e = 255
  · rw [if_pos nan, if_pos nan]
    exact toNat_fields s _ f
  rw [if_neg nan, if_neg nan]
  by_cases normal : e ≠ 0
  · rw [if_pos normal, if_pos normal, toNat_fields, BitVec.toNat_ofNat, Nat.mod_eq_of_lt (by omega)]
  rw [if_neg normal, if_neg normal]
  by_cases zero : f = 0
  · rw [if_pos zero, if_pos (by rw [zero]; rfl)]
    rw [BitVec.toNat_append, BitVec.toNat_ofNat, Nat.zero_mod, Nat.or_zero, Nat.shiftLeft_eq, Nat.add_zero]
  · have pos : f.toNat ≠ 0 := fun e => zero (BitVec.eq_of_toNat_eq e)
    obtain ⟨bound, low, high⟩ := normalized_fraction pos hf
    rw [if_neg zero, if_neg pos, toNat_fields, BitVec.toNat_ofNat, BitVec.toNat_ofNat, Nat.shiftLeft_eq]
    omega

/-- The sign, the exponent and the fraction of a single. -/
theorem fields_of_single (w : Word) :
    w.toNat = (w.extractLsb' 31 1).toNat * 2 ^ 31 + (w.extractLsb' 23 8).toNat * 2 ^ 23 + (w.extractLsb' 0 23).toNat
      ∧ (w.extractLsb' 31 1).toNat < 2 ∧ (w.extractLsb' 23 8).toNat < 256 ∧ (w.extractLsb' 0 23).toNat < 2 ^ 23 := by
  refine ⟨?_, BitVec.isLt _, BitVec.isLt _, BitVec.isLt _⟩
  have := w.isLt
  simp only [BitVec.extractLsb'_toNat, Nat.shiftRight_eq_div_pow]
  omega

theorem fpMag_doubleOfSingle (w : Word) :
    fpMag (doubleOfSingle w) = widenedMag (w.extractLsb' 23 8).toNat (w.extractLsb' 0 23).toNat := by
  have bound := widenedMag_lt (w.extractLsb' 23 8).isLt (w.extractLsb' 0 23).isLt
  rw [fpMag_eq_mod, toNat_doubleOfSingle]
  omega

theorem fpSign_doubleOfSingle (w : Word) : fpSign (doubleOfSingle w) = w.msb := by
  have bound := widenedMag_lt (w.extractLsb' 23 8).isLt (w.extractLsb' 0 23).isLt
  obtain ⟨fields, -, exponent, fraction⟩ := fields_of_single w
  rw [fpSign_eq, toNat_doubleOfSingle, BitVec.msb_eq_decide, decide_eq_decide]
  omega

/-! #### The word that is stored -/

/-- R529, of a sign and a magnitude. -/
theorem toNat_singleOfDouble (x : DWord) : (singleOfDouble x).toNat =
    if 896 < fpMag x / 2 ^ 52 ∨ fpMag x = 0 then x.toNat / 2 ^ 62 * 2 ^ 30 + x.toNat / 2 ^ 29 % 2 ^ 30
    else x.toNat / 2 ^ 63 * 2 ^ 31 + (2 ^ 52 + fpMag x % 2 ^ 52) / 2 ^ (897 - fpMag x / 2 ^ 52) / 2 ^ 29 % 2 ^ 23 := by
  have zero : x.extractLsb' 0 63 = 0 ↔ fpMag x = 0 := BitVec.toNat_inj.symm
  have hx := x.isLt
  unfold singleOfDouble
  simp only [fpExp_eq, fpFrac_eq, zero]
  split
  · rw [BitVec.toNat_append, ← Nat.shiftLeft_add_eq_or_of_lt (BitVec.isLt _), BitVec.extractLsb'_toNat,
      BitVec.extractLsb'_toNat]
    simp only [Nat.shiftLeft_eq, Nat.shiftRight_eq_div_pow]
    omega
  · rw [BitVec.toNat_append, BitVec.toNat_append, BitVec.toNat_ofNat, BitVec.toNat_ofNat, Nat.zero_mod, Nat.or_zero,
      ← Nat.shiftLeft_add_eq_or_of_lt (Nat.mod_lt _ (by decide)), BitVec.extractLsb'_toNat]
    simp only [Nat.shiftLeft_eq, Nat.shiftRight_eq_div_pow]
    omega

theorem singleOfDouble_doubleOfSingle (w : Word) : singleOfDouble (doubleOfSingle w) = w := by
  obtain ⟨fields, sign, exponent, fraction⟩ := fields_of_single w
  apply BitVec.eq_of_toNat_eq
  rw [toNat_singleOfDouble, fpMag_doubleOfSingle, toNat_doubleOfSingle, fields]
  generalize (w.extractLsb' 31 1).toNat = s at sign
  generalize (w.extractLsb' 23 8).toNat = e at exponent
  generalize (w.extractLsb' 0 23).toNat = f at fraction
  unfold widenedMag
  by_cases nan : e = 255
  · rw [if_pos nan, if_pos (by omega)]
    omega
  rw [if_neg nan]
  by_cases normal : e ≠ 0
  · rw [if_pos normal, if_pos (by omega)]
    omega
  rw [if_neg normal]
  by_cases zero : f = 0
  · rw [if_pos zero, if_pos (by omega)]
    omega
  · obtain ⟨bound, low, high⟩ := normalized_fraction zero fraction
    rw [if_neg zero, if_neg (by omega)]
    generalize shift : f * 2 ^ (23 - Nat.log2 f) = g at low high
    have exp : ((874 + Nat.log2 f) * 2 ^ 52 + (g - 2 ^ 23) * 2 ^ 29) / 2 ^ 52 = 874 + Nat.log2 f := by omega
    have frac : 2 ^ 52 + ((874 + Nat.log2 f) * 2 ^ 52 + (g - 2 ^ 23) * 2 ^ 29) % 2 ^ 52
        = f * 2 ^ 29 * 2 ^ (23 - Nat.log2 f) := by
      rw [mul_right_comm, shift]
      omega
    rw [exp, frac, show 897 - (874 + Nat.log2 f) = 23 - Nat.log2 f by omega,
      Nat.mul_div_cancel _ (Nat.two_pow_pos _)]
    omega

/-! #### The value of a single (R528) -/

theorem magValue_widenedMag {e f : Nat} (he : e < 255) (hf : f < 2 ^ 23) : magValue (widenedMag e f)
    = if e = 0 then (f : ℚ) * 2 ^ (-149 : ℤ) else (2 ^ 23 + f : ℚ) * 2 ^ ((e : ℤ) - 150) := by
  have two : (2 : ℚ) ≠ 0 := by norm_num
  unfold widenedMag
  rw [if_neg (by omega)]
  by_cases normal : e ≠ 0
  · rw [if_pos normal, if_neg normal, magValue_normal (by omega) (by omega),
      show ((e : ℤ) - 150) = 29 + (((e + 896 : Nat) : ℤ) - 1075) by push_cast; ring, zpow_add₀ two]
    push_cast
    ring
  rw [if_neg normal, if_pos (not_not.1 normal)]
  by_cases zero : f = 0
  · rw [if_pos zero, magValue_zero, zero, Nat.cast_zero, zero_mul]
  · obtain ⟨bound, low, high⟩ := normalized_fraction zero hf
    rw [if_neg zero, magValue_normal (by omega) (by omega),
      show 2 ^ 52 + (f * 2 ^ (23 - Nat.log2 f) - 2 ^ 23) * 2 ^ 29 = f * 2 ^ (23 - Nat.log2 f) * 2 ^ 29 by omega,
      show (-149 : ℤ) = ((23 - Nat.log2 f : Nat) : ℤ) + (29 + (((874 + Nat.log2 f : Nat) : ℤ) - 1075)) by omega,
      zpow_add₀ two, zpow_natCast, zpow_add₀ two]
    push_cast
    ring

/-- Settles O50. -/
theorem singlesSurviveRegisters : Obligations.SinglesSurviveRegisters := by
  intro w e f
  obtain ⟨-, -, exponent, fraction⟩ := fields_of_single w
  refine ⟨singleOfDouble_doubleOfSingle w, fun finite => ⟨?_, ?_⟩⟩
  · rw [fpFinite_iff, fpMag_doubleOfSingle]
    exact widenedMag_finite (by omega) fraction
  · rw [fpValue_eq, fpSign_doubleOfSingle, fpMag_doubleOfSingle, magValue_widenedMag (by omega) fraction]

end Sys2Proof.Machine

end

/-! ### Rounding to a multiple of a power of two (R530 to R532) -/

section

namespace Sys2Proof.Machine

section

variable {K : Type} [Field K] [LinearOrder K] [IsStrictOrderedRing K]

/-- `n` is the natural number that rounding in mode RN makes of the magnitude `x` of a number with this sign (R530). -/
structure RoundsNat (rn : BitVec 2) (sign : Bool) (n : Nat) (x : K) : Prop where
  nearest : rn = 0 → |(n : K) - x| ≤ 1 / 2 ∧ (|(n : K) - x| = 1 / 2 → n % 2 = 0)
  floor : rn = 1 ∨ (rn = 2 ∧ sign = true) ∨ (rn = 3 ∧ sign = false) → (n : K) ≤ x ∧ x < n + 1
  ceil : (rn = 2 ∧ sign = false) ∨ (rn = 3 ∧ sign = true) → x ≤ n ∧ (n : K) < x + 1

/-- The four modes, by what they do to a magnitude. -/
theorem mode_cases (rn : BitVec 2) (sign : Bool) : rn = 0
    ∨ (rn = 1 ∨ (rn = 2 ∧ sign = true) ∨ (rn = 3 ∧ sign = false)) ∨ (rn = 2 ∧ sign = false) ∨ (rn = 3 ∧ sign = true) := by
  revert rn sign
  decide

theorem RoundsNat.of_eq {rn : BitVec 2} {sign : Bool} {n : Nat} {x : K} (h : x = n) : RoundsNat rn sign n x := by
  subst h
  refine ⟨fun _ => ?_, fun _ => ⟨le_refl _, lt_add_one _⟩, fun _ => ⟨le_refl _, lt_add_one _⟩⟩
  rw [sub_self, abs_zero]
  exact ⟨by norm_num, fun e => absurd e (by norm_num)⟩

/-- A rounded number is less than one away. -/
theorem RoundsNat.near {rn : BitVec 2} {sign : Bool} {n : Nat} {x : K} (h : RoundsNat rn sign n x) :
    (n : K) < x + 1 ∧ x < n + 1 := by
  obtain mode | mode | mode := mode_cases rn sign
  · have := abs_le.1 (h.nearest mode).1
    constructor <;> linarith [this.1, this.2]
  · obtain ⟨low, high⟩ := h.floor mode
    exact ⟨by linarith, high⟩
  · obtain ⟨low, high⟩ := h.ceil mode
    exact ⟨high, by linarith⟩

/-- Rounding keeps the order with the natural numbers. -/
theorem RoundsNat.le_of_le {rn : BitVec 2} {sign : Bool} {n k : Nat} {x : K} (h : RoundsNat rn sign n x)
    (le : x ≤ k) : n ≤ k := by
  have : (n : K) < ((k + 1 : Nat) : K) := by push_cast; linarith [h.near.1]
  exact Nat.lt_succ_iff.1 (Nat.cast_lt.1 this)

theorem RoundsNat.ge_of_ge {rn : BitVec 2} {sign : Bool} {n k : Nat} {x : K} (h : RoundsNat rn sign n x)
    (le : (k : K) ≤ x) : k ≤ n := by
  have : (k : K) < ((n + 1 : Nat) : K) := by push_cast; linarith [h.near.2]
  exact Nat.lt_succ_iff.1 (Nat.cast_lt.1 this)

/-! #### The step (R531, R532) -/

omit [IsStrictOrderedRing K] in
theorem RoundsNat.of_nearest {rn : BitVec 2} {sign : Bool} {n : Nat} {x : K} (mode : rn = 0)
    (h : |(n : K) - x| ≤ 1 / 2 ∧ (|(n : K) - x| = 1 / 2 → n % 2 = 0)) : RoundsNat rn sign n x := by
  subst mode
  exact ⟨fun _ => h, fun m => absurd m (by simp), fun m => absurd m (by simp)⟩

omit [IsStrictOrderedRing K] in
theorem RoundsNat.of_floor {rn : BitVec 2} {sign : Bool} {n : Nat} {x : K}
    (mode : rn = 1 ∨ (rn = 2 ∧ sign = true) ∨ (rn = 3 ∧ sign = false)) (h : (n : K) ≤ x ∧ x < n + 1) :
    RoundsNat rn sign n x := by
  refine ⟨fun m => ?_, fun _ => h, fun m => ?_⟩
  · subst m
    simp at mode
  · obtain ⟨rfl, rfl⟩ | ⟨rfl, rfl⟩ := m
    · simp at mode
    · simp at mode

omit [IsStrictOrderedRing K] in
theorem RoundsNat.of_ceil {rn : BitVec 2} {sign : Bool} {n : Nat} {x : K}
    (mode : (rn = 2 ∧ sign = false) ∨ (rn = 3 ∧ sign = true)) (h : x ≤ n ∧ (n : K) < x + 1) :
    RoundsNat rn sign n x := by
  refine ⟨fun m => ?_, fun m => ?_, fun _ => h⟩
  · subst m
    simp at mode
  · obtain ⟨rfl, rfl⟩ | ⟨rfl, rfl⟩ := mode
    · simp at m
    · simp at m

theorem roundUp_floor {rn : BitVec 2} {sign : Bool}
    (mode : rn = 1 ∨ (rn = 2 ∧ sign = true) ∨ (rn = 3 ∧ sign = false)) (lsb g r s : Bool) :
    roundUp rn sign lsb g r s = false := by
  revert rn sign lsb g r s
  decide

theorem roundUp_ceil {rn : BitVec 2} {sign : Bool} (mode : (rn = 2 ∧ sign = false) ∨ (rn = 3 ∧ sign = true))
    (lsb g r s : Bool) : roundUp rn sign lsb g r s = (g || (r || s)) := by
  revert rn sign lsb g r s
  decide

/-- The nearest number: the Guard bit is one half. -/
theorem nearest_step {g rest : Bool} {m : Nat} {x t : K} (value : x = m + (if g then 1 / 2 else 0) + t) (nonneg : 0 ≤ t)
    (small : t < 1 / 2) (zero : t = 0 ↔ rest = false) :
    |((m + (g && (m % 2 == 1 || rest)).toNat : Nat) : K) - x| ≤ 1 / 2
      ∧ (|((m + (g && (m % 2 == 1 || rest)).toNat : Nat) : K) - x| = 1 / 2
        → (m + (g && (m % 2 == 1 || rest)).toNat) % 2 = 0) := by
  cases g with
  | false =>
    have dist : ((m + (false && (m % 2 == 1 || rest)).toNat : Nat) : K) - x = -t := by
      rw [value]
      simp
    rw [dist, abs_neg, abs_of_nonneg nonneg]
    exact ⟨small.le, fun e => absurd e small.ne⟩
  | true =>
    cases rest with
    | true =>
      have pos : 0 < t := lt_of_le_of_ne nonneg fun e => by have := zero.1 e.symm; cases this
      have dist : ((m + (true && (m % 2 == 1 || true)).toNat : Nat) : K) - x = 1 / 2 - t := by
        rw [value, Bool.or_true]
        push_cast
        simp
        ring
      rw [dist, abs_of_pos (by linarith)]
      exact ⟨by linarith, fun e => absurd e (by linarith)⟩
    | false =>
      have half : x = m + 1 / 2 := by
        rw [value, zero.2 rfl, add_zero]
        rfl
      rw [half, Bool.or_false, Bool.true_and]
      obtain even | odd := Nat.mod_two_eq_zero_or_one m
      · rw [even]
        refine ⟨?_, fun _ => by simpa using even⟩
        simp [abs_of_pos]
      · rw [odd]
        refine ⟨?_, fun _ => by simp; omega⟩
        rw [abs_of_pos] <;> · push_cast; simp; linarith

/-- A number that the Guard bit and what is below it add to `m`. -/
theorem roundUp_rounds {rn : BitVec 2} {sign g r s : Bool} {m : Nat} {x t : K}
    (value : x = m + (if g then 1 / 2 else 0) + t) (nonneg : 0 ≤ t) (small : t < 1 / 2) (zero : t = 0 ↔ (r || s) = false) :
    RoundsNat rn sign (m + (roundUp rn sign (m % 2 == 1) g r s).toNat) x
      ∧ (roundUp rn sign (m % 2 == 1) g r s = true ↔ x < ((m + (roundUp rn sign (m % 2 == 1) g r s).toNat : Nat) : K))
      ∧ ((g || r || s) = true ↔ ((m + (roundUp rn sign (m % 2 == 1) g r s).toNat : Nat) : K) ≠ x) := by
  have low : (m : K) ≤ x := by
    rw [value]
    split <;> linarith
  have high : x < m + 1 := by
    rw [value]
    split <;> linarith
  have exact_iff : x = m ↔ (g || (r || s)) = false := by
    rw [value, Bool.or_eq_false_iff, ← zero]
    cases g with
    | false => simp
    | true =>
      refine ⟨fun h => absurd h ?_, fun h => (nomatch h.1)⟩
      simp only [if_true]
      intro h
      linarith
  rw [Bool.or_assoc]
  -- what follows from the number that the step makes
  have rest (up : Bool) (implies : up = true → (g || (r || s)) = true) :
      (up = true ↔ x < ((m + up.toNat : Nat) : K)) ∧ ((g || (r || s)) = true ↔ ((m + up.toNat : Nat) : K) ≠ x) := by
    cases up with
    | false =>
      refine ⟨⟨fun h => (nomatch h), fun h => absurd h (not_lt.2 (by simpa using low))⟩, ?_⟩
      rw [← Bool.not_eq_false, ← exact_iff, Bool.toNat_false, Nat.add_zero]
      exact ⟨fun h e => h e.symm, fun h e => h e.symm⟩
    | true =>
      have above : x < ((m + true.toNat : Nat) : K) := by simpa using high
      exact ⟨⟨fun _ => above, fun _ => rfl⟩, ⟨fun _ e => absurd above (by rw [e]; exact lt_irrefl _), fun _ => implies rfl⟩⟩
  obtain mode | mode | mode := mode_cases rn sign
  · have step : roundUp rn sign (m % 2 == 1) g r s = (g && (m % 2 == 1 || (r || s))) := by
      rw [mode]
      simp [roundUp, Bool.or_assoc]
    rw [step]
    refine ⟨.of_nearest mode ?_, rest _ fun h => ?_⟩
    · exact nearest_step value nonneg small zero
    · rw [(Bool.and_eq_true_iff.1 h).1]
      rfl
  · rw [roundUp_floor mode]
    exact ⟨.of_floor mode (by simpa using ⟨low, high⟩), rest false fun h => (nomatch h)⟩
  · rw [roundUp_ceil mode]
    refine ⟨.of_ceil mode ?_, rest _ id⟩
    cases inexact : g || (r || s) with
    | false =>
      have e := exact_iff.2 inexact
      rw [e]
      simp
    | true =>
      have ne : x ≠ m := fun e => by rw [exact_iff.1 e] at inexact; cases inexact
      have lt : (m : K) < x := lt_of_le_of_ne low ne.symm
      simpa using ⟨high.le, lt⟩

/-! #### Exact magnitudes -/

/-- The magnitude that a value stands for: the one it has, or with `sticky` one strictly between it and the next (R531). -/
structure Exact.Holds (z : Exact) (v : K) : Prop where
  low : (z.mant : K) * 2 ^ z.exp ≤ v
  high : v < (z.mant + 1) * 2 ^ z.exp
  exact : v = z.mant * 2 ^ z.exp ↔ z.sticky = false

/-- The magnitude in units of the least significant bit. -/
theorem Exact.Holds.scaled {z : Exact} {v : K} (h : z.Holds v) :
    ∃ θ : K, v = (z.mant + θ) * 2 ^ z.exp ∧ 0 ≤ θ ∧ θ < 1 ∧ (θ = 0 ↔ z.sticky = false) := by
  have unit : (0 : K) < 2 ^ z.exp := zpow_pos (by norm_num) _
  have split : v = (z.mant + (v / 2 ^ z.exp - z.mant)) * 2 ^ z.exp := by
    rw [add_sub_cancel, div_mul_cancel₀ _ unit.ne']
  refine ⟨v / 2 ^ z.exp - z.mant, split, ?_, ?_, ?_⟩
  · rw [sub_nonneg, le_div_iff₀ unit]
    exact h.low
  · rw [sub_lt_iff_lt_add', div_lt_iff₀ unit]
    exact h.high
  · rw [← h.exact, sub_eq_zero, div_eq_iff unit.ne']

/-- The bits below the least significant one of `m / 2 ^ (d + 1)`: the Guard bit and the rest (R531). -/
theorem guard_split (m d : Nat) :
    m = (2 * (m / 2 ^ (d + 1)) + (m.testBit d).toNat) * 2 ^ d + m % 2 ^ d := by
  have quotient : m / 2 ^ (d + 1) = m / 2 ^ d / 2 := by rw [pow_succ, Nat.div_div_eq_div_mul]
  have bit : (m.testBit d).toNat = m / 2 ^ d % 2 := by rw [Nat.toNat_testBit]
  rw [quotient, bit]
  calc m = m / 2 ^ d * 2 ^ d + m % 2 ^ d := (Nat.div_add_mod' m _).symm
    _ = _ := by congr 2; omega

/-- The Round bit and what is below it: anything below the Guard bit. -/
theorem rest_eq (m d : Nat) : (decide (1 ≤ d) && m.testBit (d - 1) || m % 2 ^ (d - 1) != 0) = (m % 2 ^ d != 0) := by
  cases d with
  | zero => simp
  | succ d =>
    rw [Nat.mod_pow_succ, Nat.add_sub_cancel, Nat.testBit_eq_decide_div_mod_eq, Bool.eq_iff_iff]
    simp only [Nat.le_add_left, decide_true, Bool.true_and, Bool.or_eq_true_iff, decide_eq_true_eq, bne_iff_ne, ne_eq,
      Nat.add_eq_zero_iff, mul_eq_zero, Nat.two_pow_pos d |>.ne', false_or]
    omega

/-- Rounding to a multiple of `2 ^ q` (R530): the multiple, whether it was incremented, whether it is inexact. -/
theorem Exact.Holds.round {z : Exact} {v : K} (h : z.Holds v) (q : Int) (rn : BitVec 2)
    (precise : z.sticky = true → z.exp < q) :
    RoundsNat rn z.sign (z.round q rn).mant (v / 2 ^ q)
      ∧ ((z.round q rn).inc = true ↔ v / 2 ^ q < (z.round q rn).mant)
      ∧ ((z.round q rn).inexact = true ↔ ((z.round q rn).mant : K) ≠ v / 2 ^ q) := by
  have two : (2 : K) ≠ 0 := by norm_num
  by_cases le : q ≤ z.exp
  · have exact : z.sticky = false := Bool.eq_false_iff.2 fun s => absurd (precise s) (not_lt.2 le)
    have value : v / 2 ^ q = ((z.mant <<< (z.exp - q).toNat : Nat) : K) := by
      rw [h.exact.2 exact, mul_div_assoc, ← zpow_sub₀ two, Nat.shiftLeft_eq, ← Int.toNat_of_nonneg (sub_nonneg.2 le),
        zpow_natCast]
      push_cast
      rfl
    unfold Exact.round
    rw [if_pos le]
    refine ⟨.of_eq value, ?_, ?_⟩
    · simp only [value, lt_irrefl, Bool.false_eq_true]
    · simp only [value, exact, ne_eq, not_true_eq_false, Bool.false_eq_true]
  · obtain ⟨θ, value, nonneg, small, zero⟩ := h.scaled
    obtain ⟨d, hd⟩ : ∃ d : Nat, (q - z.exp).toNat = d + 1 := ⟨(q - z.exp).toNat - 1, by omega⟩
    have q_eq : q = z.exp + ((d + 1 : Nat) : Int) := by omega
    unfold Exact.round
    rw [if_neg le]
    simp only [hd, Nat.add_sub_cancel, Nat.shiftRight_eq_div_pow]
    have pos : (0 : K) < 2 ^ d := pow_pos (by norm_num) d
    have natSplit : (z.mant : K) = (2 * (z.mant / 2 ^ (d + 1) : Nat) + ((z.mant.testBit d).toNat : Nat)) * 2 ^ d
        + (z.mant % 2 ^ d : Nat) := by
      exact_mod_cast guard_split z.mant d
    have remLt : ((z.mant % 2 ^ d : Nat) : K) + 1 ≤ 2 ^ d := by
      exact_mod_cast Nat.succ_le_of_lt (Nat.mod_lt z.mant (Nat.two_pow_pos d))
    refine roundUp_rounds (t := ((z.mant % 2 ^ d : Nat) + θ) / 2 ^ (d + 1)) ?_ ?_ ?_ ?_
    · have quotient : v / 2 ^ q = (z.mant + θ) / 2 ^ (d + 1) := by
        rw [value, q_eq, zpow_add₀ two, zpow_natCast, mul_comm, mul_div_mul_left _ _ (zpow_ne_zero _ two)]
      rw [quotient, natSplit]
      cases z.mant.testBit d with
      | false =>
        simp only [Bool.toNat_false, Nat.cast_zero, Bool.false_eq_true, if_false]
        field_simp
        ring
      | true =>
        simp only [Bool.toNat_true, Nat.cast_one, if_true]
        field_simp
        ring
    · positivity
    · rw [div_lt_iff₀ (by positivity), pow_succ]
      linarith
    · have rest := rest_eq z.mant d
      rw [div_eq_zero_iff, or_iff_left (pow_ne_zero _ two), show d + 1 - 2 = d - 1 by omega,
        show decide (2 ≤ d + 1) = decide (1 ≤ d) from decide_eq_decide.2 (by omega), Bool.or_left_comm, rest,
        add_eq_zero_iff_of_nonneg (Nat.cast_nonneg _) nonneg, zero, Nat.cast_eq_zero, Bool.or_eq_false_iff, and_comm,
        bne_eq_false_iff_eq]

/-! #### A number of p significant bits (R530, R532) -/

theorem Exact.Holds.top {z : Exact} {v : K} (h : z.Holds v) (nonzero : z.mant ≠ 0) :
    2 ^ z.top ≤ v ∧ v < 2 ^ (z.top + 1) := by
  have two : (2 : K) ≠ 0 := by norm_num
  have unit : (0 : K) < 2 ^ z.exp := zpow_pos (by norm_num) _
  have low : ((2 ^ Nat.log2 z.mant : Nat) : K) ≤ z.mant := Nat.cast_le.2 (Nat.log2_self_le nonzero)
  have high : ((z.mant + 1 : Nat) : K) ≤ ((2 ^ (Nat.log2 z.mant + 1) : Nat) : K) := Nat.cast_le.2 Nat.lt_log2_self
  push_cast at low high
  unfold Exact.top
  constructor
  · rw [zpow_add₀ two, zpow_natCast, mul_comm]
    exact (mul_le_mul_of_nonneg_right low unit.le).trans h.low
  · rw [add_assoc, zpow_add₀ two, mul_comm, ← Nat.cast_succ, zpow_natCast]
    exact h.high.trans_le (mul_le_mul_of_nonneg_right high unit.le)

/-- A value rounded to p bits: `n` in units of the last of them, and 2 ^ p is written with one bit more. -/
structure Significand.Rounds (s : Significand) (z : Exact) (p : Nat) (rn : BitVec 2) (v : K) (n : Nat) : Prop where
  rounded : RoundsNat rn z.sign n (v / 2 ^ (z.top - (p - 1 : Nat)))
  least : ((2 ^ (p - 1) : Nat) : K) ≤ v / 2 ^ (z.top - (p - 1 : Nat))
  below : v / 2 ^ (z.top - (p - 1 : Nat)) < ((2 ^ p : Nat) : K)
  low : 2 ^ (p - 1) ≤ n
  high : n ≤ 2 ^ p
  inc : s.inc = true ↔ v / 2 ^ (z.top - (p - 1 : Nat)) < n
  inexact : s.inexact = true ↔ (n : K) ≠ v / 2 ^ (z.top - (p - 1 : Nat))
  written : (n < 2 ^ p ∧ s.mant = n ∧ s.exp = z.top) ∨ (n = 2 ^ p ∧ s.mant = 2 ^ (p - 1) ∧ s.exp = z.top + 1)

theorem Exact.Holds.scaled_top {z : Exact} {v : K} (h : z.Holds v) (nonzero : z.mant ≠ 0) {p : Nat} (hp : 1 ≤ p) :
    ((2 ^ (p - 1) : Nat) : K) ≤ v / 2 ^ (z.top - (p - 1 : Nat))
      ∧ v / 2 ^ (z.top - (p - 1 : Nat)) < ((2 ^ p : Nat) : K) := by
  have two : (2 : K) ≠ 0 := by norm_num
  have pos : (0 : K) < 2 ^ (z.top - (p - 1 : Nat)) := zpow_pos (by norm_num) _
  obtain ⟨low, high⟩ := h.top nonzero
  push_cast
  rw [le_div_iff₀ pos, div_lt_iff₀ pos, ← zpow_natCast, ← zpow_natCast, ← zpow_add₀ two, ← zpow_add₀ two]
  rw [show ((p - 1 : Nat) : Int) + (z.top - (p - 1 : Nat)) = z.top by ring,
    show (p : Int) + (z.top - (p - 1 : Nat)) = z.top + 1 by omega]
  exact ⟨low, high⟩

theorem Exact.Holds.roundTo {z : Exact} {v : K} (h : z.Holds v) (nonzero : z.mant ≠ 0) {p : Nat} (hp : 1 ≤ p)
    (precise : z.sticky = true → p ≤ Nat.log2 z.mant) (rn : BitVec 2) :
    ∃ n, (z.roundTo p rn).Rounds z p rn v n := by
  obtain ⟨rounded, inc, inexact⟩ := h.round (z.top - (p - 1 : Nat)) rn fun s => by
    have := precise s
    unfold Exact.top
    omega
  obtain ⟨low, high⟩ := h.scaled_top nonzero hp
  refine ⟨(z.round (z.top - (p - 1 : Nat)) rn).mant, ?_⟩
  have bound : (z.round (z.top - (p - 1 : Nat)) rn).mant ≤ 2 ^ p := rounded.le_of_le high.le
  unfold Exact.roundTo
  simp only
  by_cases carry : (z.round (z.top - (p - 1 : Nat)) rn).mant = 2 ^ p
  · rw [if_pos carry]
    exact ⟨rounded, low, high, rounded.ge_of_ge low, bound, inc, inexact, .inr ⟨carry, rfl, rfl⟩⟩
  · rw [if_neg carry]
    exact ⟨rounded, low, high, rounded.ge_of_ge low, bound, inc, inexact, .inl ⟨lt_of_le_of_ne bound carry, rfl, rfl⟩⟩

/-! #### Among numbers that are multiples of the unit, or small -/

/-- A number that is no larger than `least`, or a whole number. -/
def OnGrid (least : Nat) (u : K) : Prop := u ≤ least ∨ ∃ k : Int, u = k

theorem RoundsNat.floor_greatest {rn : BitVec 2} {sign : Bool} {n least : Nat} {x u : K}
    (mode : rn = 1 ∨ (rn = 2 ∧ sign = true) ∨ (rn = 3 ∧ sign = false)) (h : RoundsNat rn sign n x)
    (hl : (least : K) ≤ x) (hu : OnGrid least u) (le : u ≤ x) : u ≤ n := by
  obtain ⟨-, high⟩ := h.floor mode
  obtain small | ⟨k, rfl⟩ := hu
  · exact small.trans (Nat.cast_le.2 (h.ge_of_ge hl))
  · have : (k : K) < ((n + 1 : Int) : K) := by push_cast; linarith
    have : k ≤ (n : Int) := Int.lt_add_one_iff.1 (Int.cast_lt.1 this)
    exact_mod_cast this

theorem RoundsNat.ceil_least {rn : BitVec 2} {sign : Bool} {n least : Nat} {x u : K}
    (mode : (rn = 2 ∧ sign = false) ∨ (rn = 3 ∧ sign = true)) (h : RoundsNat rn sign n x)
    (hl : (least : K) ≤ x) (hu : OnGrid least u) (le : x ≤ u) : (n : K) ≤ u := by
  obtain ⟨-, high⟩ := h.ceil mode
  have integer : ∃ k : Int, u = k := by
    obtain small | integer := hu
    · exact ⟨least, by push_cast; exact le_antisymm small (hl.trans le)⟩
    · exact integer
  obtain ⟨k, rfl⟩ := integer
  have : ((n : Int) : K) < ((k + 1 : Int) : K) := by push_cast; linarith
  have : (n : Int) ≤ k := Int.lt_add_one_iff.1 (Int.cast_lt.1 this)
  exact_mod_cast this

/-- Two whole numbers are at least one apart, whatever lies between. -/
theorem int_far {n : Nat} (x : K) {k : Int} (ne : k ≠ n) :
    1 - |(n : K) - x| ≤ |(k : K) - x| := by
  have far : (1 : K) ≤ |(k : K) - n| := by
    have : 1 ≤ |k - (n : Int)| := Int.one_le_abs (sub_ne_zero.2 ne)
    exact_mod_cast this
  have : |(k : K) - n| ≤ |(k : K) - x| + |(n : K) - x| := by
    rw [abs_sub_comm (n : K) x]
    exact abs_sub_le _ _ _
  linarith

theorem RoundsNat.nearest_least {rn : BitVec 2} {sign : Bool} {n least : Nat} {x u : K} (mode : rn = 0)
    (h : RoundsNat rn sign n x) (hl : (least : K) ≤ x) (hu : OnGrid least u) : |(n : K) - x| ≤ |u - x| := by
  obtain ⟨near, -⟩ := h.nearest mode
  have whole (k : Int) : |(n : K) - x| ≤ |(k : K) - x| := by
    by_cases e : k = n
    · rw [e, Int.cast_natCast]
    · have := int_far x e
      linarith
  obtain small | ⟨k, rfl⟩ := hu
  · calc |(n : K) - x| ≤ |((least : Int) : K) - x| := whole least
      _ ≤ |u - x| := by
        rw [Int.cast_natCast, abs_of_nonpos (by linarith), abs_of_nonpos (by linarith)]
        linarith
  · exact whole k

theorem RoundsNat.tie_even {rn : BitVec 2} {sign : Bool} {n least : Nat} {x u : K} (mode : rn = 0)
    (h : RoundsNat rn sign n x) (hl : (least : K) ≤ x) (hu : OnGrid least u) (ne : u ≠ n)
    (tie : |u - x| = |(n : K) - x|) : n % 2 = 0 := by
  obtain ⟨near, even⟩ := h.nearest mode
  refine even (near.antisymm ?_)
  have whole (k : Int) (hk : k ≠ n) : |(k : K) - x| ≤ |(n : K) - x| → 1 / 2 ≤ |(n : K) - x| := fun le => by
    have := int_far x hk
    linarith
  obtain small | ⟨k, rfl⟩ := hu
  · have far : |((least : Int) : K) - x| ≤ |(n : K) - x| := by
      rw [← tie, Int.cast_natCast, abs_of_nonpos (by linarith), abs_of_nonpos (by linarith)]
      linarith
    by_cases e : (least : Int) = n
    · refine absurd ?_ ne
      have e' : (least : K) = n := by exact_mod_cast e
      rw [abs_of_nonpos (by linarith), abs_of_nonpos (by linarith)] at tie
      linarith
    · exact whole _ e far
  · exact whole k (fun e => ne (by rw [e, Int.cast_natCast])) tie.le

end

end Sys2Proof.Machine

end

/-! ### The numbers that rounding makes (R522, R530) -/

section

namespace Sys2Proof.Machine

/-! #### Numbers by sign, exponent and significand -/

/-- What a packed number is: its sign, its exponent and fraction, its magnitude. -/
theorem packNormal_spec (sign : Bool) {e : Int} {m : Nat} (he : -1022 ≤ e ∧ e ≤ 1023) (hm : 2 ^ 52 ≤ m ∧ m < 2 ^ 53) :
    fpSign (packNormal sign e m) = sign ∧ fpMag (packNormal sign e m) = (e + 1023).toNat * 2 ^ 52 + (m - 2 ^ 52) := by
  have assoc : packNormal sign e m = BitVec.ofBool sign ++ (BitVec.ofInt 11 (e + 1023) ++ BitVec.ofNat 52 m) :=
    BitVec.append_assoc
  obtain ⟨hs, hmag⟩ := sign_mag_append sign (BitVec.ofInt 11 (e + 1023) ++ BitVec.ofNat 52 m)
  rw [assoc]
  refine ⟨hs, hmag.trans ?_⟩
  rw [BitVec.toNat_append, ← Nat.shiftLeft_add_eq_or_of_lt (BitVec.isLt _), BitVec.toNat_ofInt, BitVec.toNat_ofNat,
    Nat.shiftLeft_eq]
  omega

theorem packTiny_spec (sign : Bool) {m : Nat} (hm : m ≤ 2 ^ 52) :
    fpSign (packTiny sign m) = sign ∧ fpMag (packTiny sign m) = m := by
  obtain ⟨hs, hmag⟩ := sign_mag_append sign (BitVec.ofNat 63 m)
  refine ⟨hs, hmag.trans ?_⟩
  rw [BitVec.toNat_ofNat]
  omega

/-- A magnitude with a sign. -/
def signed (sign : Bool) (v : ℚ) : ℚ := if sign then -v else v

theorem fpValue_signed (x : DWord) : fpValue x = signed (fpSign x) (magValue (fpMag x)) := by
  unfold signed
  cases h : fpSign x with
  | false => exact fpValue_of_positive h
  | true => exact fpValue_of_negative h

theorem abs_signed {v : ℚ} (sign : Bool) (h : 0 ≤ v) : |signed sign v| = v := by
  unfold signed
  split
  · rw [abs_neg, abs_of_nonneg h]
  · exact abs_of_nonneg h

theorem packNormal_value (sign : Bool) {e : Int} {m : Nat} (he : -1022 ≤ e ∧ e ≤ 1023) (hm : 2 ^ 52 ≤ m ∧ m < 2 ^ 53) :
    fpValue (packNormal sign e m) = signed sign ((m : ℚ) * 2 ^ (e - 52)) := by
  obtain ⟨hs, hmag⟩ := packNormal_spec sign he hm
  have exp : (((e + 1023).toNat : Nat) : Int) - 1075 = e - 52 := by omega
  rw [fpValue_signed, hs, hmag, magValue_normal (by omega) (by omega), exp, Nat.add_sub_cancel' hm.1]

theorem packTiny_value (sign : Bool) {m : Nat} (hm : m ≤ 2 ^ 52) :
    fpValue (packTiny sign m) = signed sign ((m : ℚ) * 2 ^ (-1074 : Int)) := by
  obtain ⟨hs, hmag⟩ := packTiny_spec sign hm
  rw [fpValue_signed, hs, hmag]
  obtain lt | rfl := Nat.lt_or_eq_of_le hm
  · rw [magValue_of_small lt]
  · rw [show 2 ^ 52 = 1 * 2 ^ 52 + 0 by rfl, magValue_normal (by decide) (by decide)]
    rfl

theorem packNormal_finite (sign : Bool) {e : Int} {m : Nat} (he : -1022 ≤ e ∧ e ≤ 1023)
    (hm : 2 ^ 52 ≤ m ∧ m < 2 ^ 53) : fpFinite (packNormal sign e m) = true := by
  rw [fpFinite_iff, (packNormal_spec sign he hm).2]
  unfold infMag
  omega

/-- A bit of the fraction. -/
theorem getLsbD_fraction (x : DWord) {k : Nat} (hk : k < 63) : x.getLsbD k = (fpMag x).testBit k := by
  rw [fpMag_eq_mod, Nat.testBit_mod_two_pow, decide_eq_true hk, Bool.true_and]
  rfl

/-! #### The grid of the numbers -/

theorem onGrid_whole (least a : Nat) {k : Int} (hk : 0 ≤ k) : OnGrid least ((a : ℚ) * 2 ^ k) := by
  refine .inr ⟨a * 2 ^ k.toNat, ?_⟩
  rw [← Int.toNat_of_nonneg hk, zpow_natCast, Int.toNat_natCast]
  push_cast
  rfl

theorem onGrid_small {least a : Nat} {k : Int} (hk : k ≤ 0) (ha : a ≤ least) : OnGrid least ((a : ℚ) * 2 ^ k) := by
  refine .inl ?_
  calc (a : ℚ) * 2 ^ k ≤ a * 1 := mul_le_mul_of_nonneg_left (zpow_le_one_of_nonpos₀ (by norm_num) hk) (Nat.cast_nonneg a)
    _ ≤ least := by rw [mul_one]; exact Nat.cast_le.2 ha

/-- A fraction that ends in 0s. -/
theorem fraction_units {f last : Nat} (hl : last ≤ 52) (hf : f < 2 ^ 52) (low : f % 2 ^ last = 0) :
    ∃ j, f = j * 2 ^ last ∧ j < 2 ^ (52 - last) := by
  refine ⟨f / 2 ^ last, (Nat.div_mul_cancel (Nat.dvd_of_mod_eq_zero low)).symm, Nat.div_lt_of_lt_mul ?_⟩
  rwa [← pow_add, Nat.add_sub_cancel' hl]

/-- The numbers whose fraction ends in 0s are, above a power of two, multiples of the unit that goes with it. -/
theorem magValue_onGrid {m last : Nat} (hl : last ≤ 52) (low : m % 2 ^ last = 0) {q : Int}
    (hq : -1074 + (last : Int) ≤ q) : OnGrid (2 ^ (52 - last)) (magValue m / 2 ^ q) := by
  obtain ⟨e, f, hf, rfl⟩ : ∃ e f, f < 2 ^ 52 ∧ m = e * 2 ^ 52 + f :=
    ⟨m / 2 ^ 52, m % 2 ^ 52, Nat.mod_lt _ (by decide), (Nat.div_add_mod' m _).symm⟩
  have two : (2 : ℚ) ≠ 0 := by norm_num
  have pow : 2 ^ 52 = 2 ^ (52 - last) * 2 ^ last := by rw [← pow_add, Nat.sub_add_cancel hl]
  have lowFraction : f % 2 ^ last = 0 := by
    rw [pow, ← Nat.mul_assoc, Nat.mul_add_mod_self_right] at low
    exact low
  obtain ⟨j, rfl, hj⟩ := fraction_units hl hf lowFraction
  -- so many units of the last bit of the fraction
  have units (a : Nat) (b : Int) : ((a * 2 ^ last : Nat) : ℚ) * 2 ^ b / 2 ^ q = a * 2 ^ (last + b - q) := by
    rw [zpow_sub₀ two, zpow_add₀ two, zpow_natCast]
    push_cast
    ring
  rcases Nat.eq_zero_or_pos e with rfl | he
  · rw [Nat.zero_mul, Nat.zero_add, magValue_of_small hf, units]
    exact onGrid_small (by omega) hj.le
  · rw [magValue_normal he hf, pow, ← Nat.add_mul, units]
    by_cases whole : 0 ≤ (last : Int) + ((e : Int) - 1075) - q
    · exact onGrid_whole _ _ whole
    · rw [show (last : Int) + ((e : Int) - 1075) - q = -1 + (last + ((e : Int) - 1075) - q + 1) by ring, zpow_add₀ two]
      refine .inl ?_
      have half : (2 : ℚ) ^ ((last : Int) + ((e : Int) - 1075) - q + 1) ≤ 1 :=
        zpow_le_one_of_nonpos₀ (by norm_num) (by omega)
      have bound : ((2 ^ (52 - last) + j : Nat) : ℚ) ≤ 2 * ((2 ^ (52 - last) : Nat) : ℚ) := by
        exact_mod_cast (by omega)
      rw [zpow_neg_one]
      have nonneg : (0 : ℚ) ≤ ((2 ^ (52 - last) + j : Nat) : ℚ) := Nat.cast_nonneg _
      nlinarith

/-- Every finite number is a multiple of 2^-1074. -/
theorem magValue_integer (m : Nat) : ∃ k : Nat, magValue m / 2 ^ (-1074 : Int) = k := by
  have two : (2 : ℚ) ≠ 0 := by norm_num
  obtain ⟨e, f, hf, rfl⟩ : ∃ e f, f < 2 ^ 52 ∧ m = e * 2 ^ 52 + f :=
    ⟨m / 2 ^ 52, m % 2 ^ 52, Nat.mod_lt _ (by decide), (Nat.div_add_mod' m _).symm⟩
  rcases Nat.eq_zero_or_pos e with rfl | he
  · rw [Nat.zero_mul, Nat.zero_add, magValue_of_small hf]
    exact ⟨f, mul_div_cancel_right₀ _ (zpow_ne_zero _ two)⟩
  · rw [magValue_normal he hf]
    refine ⟨(2 ^ 52 + f) * 2 ^ (e - 1), ?_⟩
    rw [mul_div_assoc, ← zpow_sub₀ two, show (e : Int) - 1075 - -1074 = ((e - 1 : Nat) : Int) by omega, zpow_natCast]
    push_cast
    rfl

/-! #### Rounded numbers (R530) -/

theorem signed_sub (sign : Bool) (a b : ℚ) : |signed sign a - signed sign b| = |a - b| := by
  unfold signed
  split
  · rw [neg_sub_neg, abs_sub_comm]
  · rfl

/-- A number seen from a sign: in units of `2 ^ q`, positive on its side. -/
def seen (sign : Bool) (q : Int) (y : DWord) : ℚ := signed sign (fpValue y) / 2 ^ q

theorem fpValue_seen (sign : Bool) (q : Int) (y : DWord) : fpValue y = signed sign (seen sign q y * 2 ^ q) := by
  unfold seen
  rw [div_mul_cancel₀ _ (two_zpow_pos q).ne']
  cases sign
  · rfl
  · exact (neg_neg _).symm

theorem seen_onGrid {least : Nat} {q : Int} {y : DWord} (sign : Bool)
    (grid : OnGrid least (magValue (fpMag y) / 2 ^ q)) : OnGrid least (seen sign q y) := by
  unfold seen
  by_cases same : sign = fpSign y
  · have magnitude : signed sign (fpValue y) = magValue (fpMag y) := by
      rw [fpValue_signed, ← same]
      cases sign
      · rfl
      · exact neg_neg _
    rw [magnitude]
    exact grid
  · have other : signed sign (fpValue y) = -magValue (fpMag y) := by
      rw [fpValue_signed, Bool.eq_not.2 same]
      cases fpSign y <;> rfl
    have nonneg := div_nonneg (magValue_nonneg (fpMag y)) (two_zpow_pos q).le
    rw [other, neg_div]
    exact .inl ((neg_nonpos.2 nonneg).trans (Nat.cast_nonneg _))

/-- A number with the sign of `v`, whose magnitude is `v`'s rounded in units of `2 ^ q`, is the one that rounding makes among
numbers which are multiples of the unit from `least` units on. -/
theorem roundedIn_of_roundsNat {p : DWord → Prop} {last : Nat} {rn : BitVec 2} {r : DWord} {sign : Bool} {n least : Nat}
    {v x : ℚ} {q : Int} (isIn : p r) (value : v = signed sign (x * 2 ^ q)) (result : fpValue r = signed sign (n * 2 ^ q))
    (rounded : RoundsNat rn sign n x) (large : (least : ℚ) ≤ x) (even : n % 2 = 0 → r.getLsbD last = false)
    (grid : ∀ y, p y → OnGrid least (magValue (fpMag y) / 2 ^ q)) : RoundedIn p last rn r v := by
  have unit := two_zpow_pos q
  have xNonneg : 0 ≤ x := (Nat.cast_nonneg least).trans large
  have onGrid (y : DWord) (hy : p y) : OnGrid least (seen sign q y) := seen_onGrid sign (grid y hy)
  have distance (y : DWord) : |fpValue y - v| = |seen sign q y - x| * 2 ^ q := by
    rw [value, fpValue_seen sign q y, signed_sub, ← sub_mul, abs_mul, abs_of_pos unit]
  have resultDistance : |fpValue r - v| = |(n : ℚ) - x| * 2 ^ q := by
    rw [value, result, signed_sub, ← sub_mul, abs_mul, abs_of_pos unit]
  have absValue : |v| = x * 2 ^ q := by rw [value, abs_signed sign (mul_nonneg xNonneg unit.le)]
  have absResult : |fpValue r| = n * 2 ^ q := by
    rw [result, abs_signed sign (mul_nonneg (Nat.cast_nonneg n) unit.le)]
  refine ⟨isIn, fun mode y hy => ?_, fun mode y hy ne tie => ?_, fun mode => ⟨?_, ?_, fun y hy le => ?_⟩, fun mode => ?_,
    fun mode => ?_⟩
  · rw [resultDistance, distance]
    exact mul_le_mul_of_nonneg_right (rounded.nearest_least mode large (onGrid y hy)) unit.le
  · rw [resultDistance, distance] at tie
    refine even (rounded.tie_even mode large (onGrid y hy) (fun e => ne ?_) (mul_right_cancel₀ unit.ne' tie))
    rw [result, fpValue_seen sign q y, e]
  · rw [absResult, absValue]
    exact mul_le_mul_of_nonneg_right (rounded.floor (.inl mode)).1 unit.le
  · have nonneg := mul_nonneg (mul_nonneg (Nat.cast_nonneg (α := ℚ) n) unit.le) (mul_nonneg xNonneg unit.le)
    rw [result, value]
    unfold signed
    split
    · rwa [neg_mul_neg]
    · exact nonneg
  · rw [abs_fpValue, absResult, ← div_le_iff₀ unit]
    refine rounded.floor_greatest (.inl mode) large (grid y hy) ?_
    rwa [div_le_iff₀ unit, ← abs_fpValue, ← absValue]
  · cases sign with
    | false =>
      have ceil := rounded.ceil (.inl ⟨mode, rfl⟩)
      rw [result, value]
      refine ⟨mul_le_mul_of_nonneg_right ceil.1 unit.le, fun y hy le => ?_⟩
      rw [fpValue_seen false q y] at le ⊢
      exact mul_le_mul_of_nonneg_right (rounded.ceil_least (.inl ⟨mode, rfl⟩) large (onGrid y hy)
        (le_of_mul_le_mul_right le unit)) unit.le
    | true =>
      have floor := rounded.floor (.inr (.inl ⟨mode, rfl⟩))
      rw [result, value]
      refine ⟨neg_le_neg (mul_le_mul_of_nonneg_right floor.1 unit.le), fun y hy le => ?_⟩
      rw [fpValue_seen true q y] at le ⊢
      exact neg_le_neg (mul_le_mul_of_nonneg_right (rounded.floor_greatest (.inr (.inl ⟨mode, rfl⟩)) large (onGrid y hy)
        (le_of_mul_le_mul_right (neg_le_neg_iff.1 le) unit)) unit.le)
  · cases sign with
    | true =>
      have ceil := rounded.ceil (.inr ⟨mode, rfl⟩)
      rw [result, value]
      refine ⟨neg_le_neg (mul_le_mul_of_nonneg_right ceil.1 unit.le), fun y hy le => ?_⟩
      rw [fpValue_seen true q y] at le ⊢
      exact neg_le_neg (mul_le_mul_of_nonneg_right (rounded.ceil_least (.inr ⟨mode, rfl⟩) large (onGrid y hy)
        (le_of_mul_le_mul_right (neg_le_neg_iff.1 le) unit)) unit.le)
    | false =>
      have floor := rounded.floor (.inr (.inr ⟨mode, rfl⟩))
      rw [result, value]
      refine ⟨mul_le_mul_of_nonneg_right floor.1 unit.le, fun y hy le => ?_⟩
      rw [fpValue_seen false q y] at le ⊢
      exact mul_le_mul_of_nonneg_right (rounded.floor_greatest (.inr (.inr ⟨mode, rfl⟩)) large (onGrid y hy)
        (le_of_mul_le_mul_right le unit)) unit.le

/-! #### Rounded integers (R530, R623) -/

/-- The whole number with a sign. -/
def signedInt (sign : Bool) (n : Nat) : Int := if sign then -(n : Int) else n

theorem cast_signedInt (sign : Bool) (n : Nat) : (signedInt sign n : ℚ) = signed sign n := by
  cases sign
  · rfl
  · exact Int.cast_neg _

theorem roundedInt_of_roundsNat {rn : BitVec 2} {sign : Bool} {n : Nat} {v x : ℚ} (nonneg : 0 ≤ x)
    (value : v = signed sign x) (rounded : RoundsNat rn sign n x) : RoundedInt rn (signedInt sign n) v := by
  have floor (mode : rn = 1 ∨ (rn = 2 ∧ sign = true) ∨ (rn = 3 ∧ sign = false)) : (n : Int) = ⌊x⌋ :=
    (Int.floor_eq_iff.2 (by exact_mod_cast rounded.floor mode)).symm
  have ceil (mode : (rn = 2 ∧ sign = false) ∨ (rn = 3 ∧ sign = true)) : (n : Int) = ⌈x⌉ := by
    obtain ⟨low, high⟩ := rounded.ceil mode
    refine (Int.ceil_eq_iff.2 ⟨?_, by exact_mod_cast low⟩).symm
    rw [Int.cast_natCast]
    linarith
  refine ⟨fun mode => ?_, fun mode => ?_, fun mode => ?_, fun mode => ?_⟩
  · obtain ⟨near, even⟩ := rounded.nearest mode
    rw [cast_signedInt, value, signed_sub]
    refine ⟨near, fun tie => ?_⟩
    have := even tie
    unfold signedInt
    split <;> omega
  · have whole := floor (.inl mode)
    cases sign with
    | false =>
      rw [value, show signed false x = x from rfl, if_pos nonneg]
      exact whole
    | true =>
      have negated : signedInt true n = ⌈-x⌉ := by rw [Int.ceil_neg, ← whole]; rfl
      rw [value]
      split
      · next zero =>
        have x0 : x = 0 := le_antisymm (neg_nonneg.1 zero) nonneg
        rw [negated, show signed true x = -x from rfl, x0, neg_zero, Int.ceil_zero, Int.floor_zero]
      · exact negated
  · cases sign with
    | false => rw [value]; exact ceil (.inl ⟨mode, rfl⟩)
    | true =>
      rw [value, show signed true x = -x from rfl, Int.ceil_neg, ← floor (.inr (.inl ⟨mode, rfl⟩))]
      rfl
  · cases sign with
    | false => rw [value]; exact floor (.inr (.inr ⟨mode, rfl⟩))
    | true =>
      rw [value, show signed true x = -x from rfl, Int.floor_neg, ← ceil (.inr ⟨mode, rfl⟩)]
      rfl

end Sys2Proof.Machine

end

/-! ### Exact results (R531, R552, R553) -/

section

namespace Sys2Proof.Machine

/-- The value has exactly this magnitude and sign. -/
structure Exact.Is (z : Exact) (v : ℚ) : Prop where
  precise : z.sticky = false
  value : v = signed z.sign ((z.mant : ℚ) * 2 ^ z.exp)

theorem Exact.Is.abs {z : Exact} {v : ℚ} (h : z.Is v) : |v| = (z.mant : ℚ) * 2 ^ z.exp := by
  rw [h.value, abs_signed _ (mul_nonneg (Nat.cast_nonneg _) (two_zpow_pos _).le)]

theorem Exact.Is.holds {z : Exact} {v : ℚ} (h : z.Is v) : z.Holds |v| := by
  rw [h.abs]
  refine ⟨le_refl _, mul_lt_mul_of_pos_right (lt_add_one _) (two_zpow_pos _), iff_of_true rfl h.precise⟩

/-- The value of a number (R523, R525). -/
theorem exactOf_is (x : DWord) : (exactOf x).Is (fpValue x) := by
  have sign : (exactOf x).sign = fpSign x := by
    unfold exactOf
    split <;> rfl
  refine ⟨by unfold exactOf; split <;> rfl, ?_⟩
  rw [sign, fpValue_signed]
  congr 1
  unfold exactOf magValue
  rw [fpExp_eq, fpFrac_eq]
  by_cases small : fpMag x / 2 ^ 52 = 0
  · rw [if_pos small, if_pos small, Nat.mod_eq_of_lt ((Nat.div_eq_zero_iff_lt (by decide)).1 small)]
  · rw [if_neg small, if_neg small]

theorem exactOf_sign (x : DWord) : (exactOf x).sign = fpSign x := by
  unfold exactOf
  split <;> rfl

theorem exactOf_bounds (x : DWord) : (exactOf x).mant < 2 ^ 53 ∧ -1074 ≤ (exactOf x).exp
    ∧ (fpFinite x = true → (exactOf x).exp ≤ 971) := by
  have frac : fpFrac x < 2 ^ 52 := by
    rw [fpFrac_eq]
    exact Nat.mod_lt _ (by decide)
  unfold exactOf
  split
  · exact ⟨by show fpFrac x < _; omega, le_refl _, fun _ => (by decide : (-1074 : Int) ≤ 971)⟩
  · refine ⟨by show 2 ^ 52 + fpFrac x < _; omega, by show -1074 ≤ (fpExp x : Int) - 1075; omega, fun finite => ?_⟩
    have : fpExp x < 2047 := by
      have := (fpFinite_iff x).1 finite
      rw [fpExp_eq]
      unfold infMag at this
      omega
    show (fpExp x : Int) - 1075 ≤ 971
    omega

theorem exactOf_mant_eq_zero (x : DWord) : (exactOf x).mant = 0 ↔ fpValue x = 0 := by
  rw [← abs_eq_zero, (exactOf_is x).abs, mul_eq_zero, or_iff_left (two_zpow_pos _).ne', Nat.cast_eq_zero]

/-! #### Sums, products, quotients -/

theorem Exact.scaled_value {z : Exact} {v : ℚ} (h : z.Is v) {e : Int} (le : e ≤ z.exp) : v = (z.scaled e : ℚ) * 2 ^ e := by
  have two : (2 : ℚ) ≠ 0 := by norm_num
  have magnitude : (z.mant : ℚ) * 2 ^ z.exp = ((z.mant <<< (z.exp - e).toNat : Nat) : ℚ) * 2 ^ e := by
    rw [Nat.shiftLeft_eq, Nat.cast_mul, Nat.cast_pow, Nat.cast_ofNat, mul_assoc, ← zpow_natCast, ← zpow_add₀ two,
      Int.toNat_of_nonneg (sub_nonneg.2 le), sub_add_cancel]
  rw [h.value, magnitude]
  unfold Exact.scaled signed
  cases z.sign
  · exact congrArg (· * (2 : ℚ) ^ e) (Int.cast_natCast _).symm
  · simp only [if_true]
    rw [Int.cast_neg, Int.cast_natCast, neg_mul]

theorem exactAdd_is (rn : BitVec 2) {a b : Exact} {v w : ℚ} (ha : a.Is v) (hb : b.Is w) :
    (exactAdd rn a b).Is (v + w) := by
  have sum : v + w = ((a.scaled (min a.exp b.exp) + b.scaled (min a.exp b.exp) : Int) : ℚ) * 2 ^ (min a.exp b.exp) := by
    rw [Exact.scaled_value ha (min_le_left a.exp b.exp), Exact.scaled_value hb (min_le_right a.exp b.exp), Int.cast_add,
      add_mul]
  refine ⟨rfl, sum.trans ?_⟩
  unfold exactAdd signed
  simp only
  generalize a.scaled (min a.exp b.exp) + b.scaled (min a.exp b.exp) = s
  by_cases zero : s = 0
  · simp [zero]
  · rw [if_neg zero]
    by_cases neg : s < 0
    · have : ((s.natAbs : Nat) : ℚ) = -s := by
        rw [Nat.cast_natAbs, abs_of_neg neg, Int.cast_neg]
      simp [neg, this]
    · have : ((s.natAbs : Nat) : ℚ) = s := by
        rw [Nat.cast_natAbs, abs_of_nonneg (not_lt.1 neg)]
      simp [neg, this]

theorem exactAdd_sign (rn : BitVec 2) {a b : Exact} {v w : ℚ} (ha : a.Is v) (hb : b.Is w) : (exactAdd rn a b).sign
    = if v + w = 0 then (if a.sign = b.sign then a.sign else rn == 3) else decide (v + w < 0) := by
  have unit := two_zpow_pos (min a.exp b.exp)
  have sum : v + w = ((a.scaled (min a.exp b.exp) + b.scaled (min a.exp b.exp) : Int) : ℚ) * 2 ^ (min a.exp b.exp) := by
    rw [Exact.scaled_value ha (min_le_left a.exp b.exp), Exact.scaled_value hb (min_le_right a.exp b.exp), Int.cast_add,
      add_mul]
  have zero : a.scaled (min a.exp b.exp) + b.scaled (min a.exp b.exp) = 0 ↔ v + w = 0 := by
    rw [sum, mul_eq_zero, or_iff_left unit.ne', Int.cast_eq_zero]
  have negative : a.scaled (min a.exp b.exp) + b.scaled (min a.exp b.exp) < 0 ↔ v + w < 0 := by
    rw [sum, ← not_le, ← not_le, mul_nonneg_iff_of_pos_right unit, Int.cast_nonneg_iff]
  unfold exactAdd
  simp only [zero, negative]

theorem exactMul_is {a b : Exact} {v w : ℚ} (ha : a.Is v) (hb : b.Is w) : (exactMul a b).Is (v * w) := by
  have two : (2 : ℚ) ≠ 0 := by norm_num
  refine ⟨rfl, ?_⟩
  rw [ha.value, hb.value]
  unfold exactMul signed
  simp only [zpow_add₀ two, Nat.cast_mul]
  cases a.sign <;> cases b.sign <;> simp <;> ring

end Sys2Proof.Machine

end

/-! ### Conversion to an integer (R621 to R627) -/

section

namespace Sys2Proof.Machine

/-- What a convert that is an invalid operation answers. -/
def invalidInt (ve : Bool) (w : Word) (inexact : Bool) (fprf : Option (BitVec 5)) : IntOut :=
  ⟨if ve then none else some w, vxCvi ||| (if inexact then xxBit else 0), if ve then none else fprf, false, false⟩

/-- The word of largest magnitude of a sign. -/
def intLimit (sign : Bool) : Word := if sign then 0x80000000 else 0x7FFFFFFF

theorem convertInt_nan {s : State} {x : DWord} (mode : BitVec 2) (h : isNan x = true) :
    convertInt s x mode = invalidInt s.fpVE 0x80000000 false (some 0b10001) := by
  have notInf : isInf x = false := Bool.eq_false_iff.2 fun inf => by
    rw [isNan_eq_false_of_isInf inf] at h
    cases h
  unfold convertInt
  simp only [notInf, h, Bool.false_eq_true, if_false, if_true]
  rfl

theorem convertInt_inf {s : State} {x : DWord} (mode : BitVec 2) (h : isInf x = true) :
    convertInt s x mode = invalidInt s.fpVE (intLimit (fpSign x)) false (some (fpClass x)) := by
  unfold convertInt
  simp only [h, if_true]
  rfl

/-- A finite number whose integer is no signed word. -/
theorem convertInt_large {s : State} {x : DWord} {mode : BitVec 2} (h : fpFinite x = true)
    (large : (if fpSign x then 2 ^ 31 else 2 ^ 31 - 1) < ((exactOf x).round 0 mode).mant) :
    convertInt s x mode
      = invalidInt s.fpVE (intLimit (fpSign x)) ((exactOf x).round 0 mode).inexact none := by
  unfold convertInt
  simp only [isInf_eq_false_of_finite h, isNan_eq_false_of_finite h, exactOf_sign, large, Bool.false_eq_true, if_false,
    if_true]
  unfold invalidInt
  rw [ite_self]
  rfl

theorem toInt_ofInt_of_fits {q : Int} (h : -2 ^ 31 ≤ q ∧ q ≤ 2 ^ 31 - 1) : (BitVec.ofInt 32 q).toInt = q := by
  obtain ⟨above, below⟩ := h
  rw [BitVec.toInt_ofInt]
  exact Int.bmod_eq_of_le (by omega) (by omega)

theorem convertInt_fits {s : State} {x : DWord} {mode : BitVec 2} (h : fpFinite x = true)
    (fits : ¬ (if fpSign x then 2 ^ 31 else 2 ^ 31 - 1) < ((exactOf x).round 0 mode).mant) :
    convertInt s x mode = ⟨some (BitVec.ofInt 32 (signedInt (fpSign x) ((exactOf x).round 0 mode).mant)),
      if ((exactOf x).round 0 mode).inexact then xxBit else 0, none, ((exactOf x).round 0 mode).inc,
      ((exactOf x).round 0 mode).inexact⟩ := by
  have word (n : Nat) : (if fpSign x then -BitVec.ofNat 32 n else BitVec.ofNat 32 n)
      = BitVec.ofInt 32 (signedInt (fpSign x) n) := by
    unfold signedInt
    split
    · rw [BitVec.ofInt_neg, BitVec.ofInt_natCast]
    · rw [BitVec.ofInt_natCast]
  unfold convertInt
  simp only [isInf_eq_false_of_finite h, isNan_eq_false_of_finite h, exactOf_sign, fits, Bool.false_eq_true, if_false]
  rw [word]

/-- The integer that a finite number is rounded to. -/
theorem round_integer (x : DWord) (mode : BitVec 2) :
    RoundedInt mode (signedInt (fpSign x) ((exactOf x).round 0 mode).mant) (fpValue x)
      ∧ (((exactOf x).round 0 mode).inc = true
        ↔ |fpValue x| < |((signedInt (fpSign x) ((exactOf x).round 0 mode).mant : Int) : ℚ)|)
      ∧ (((exactOf x).round 0 mode).inexact = true
        ↔ ((signedInt (fpSign x) ((exactOf x).round 0 mode).mant : Int) : ℚ) ≠ fpValue x) := by
  have is := exactOf_is x
  have value : fpValue x = signed (fpSign x) |fpValue x| := by
    rw [is.abs, is.value, exactOf_sign]
  obtain ⟨rounded, inc, inexact⟩ := is.holds.round 0 mode fun h => by
    rw [is.precise] at h
    cases h
  rw [zpow_zero, div_one] at rounded inc inexact
  rw [exactOf_sign] at rounded
  have nonneg : (0 : ℚ) ≤ ((exactOf x).round 0 mode).mant := Nat.cast_nonneg _
  refine ⟨roundedInt_of_roundsNat (abs_nonneg _) value rounded, ?_, ?_⟩
  · rw [inc, cast_signedInt, abs_signed _ nonneg]
  · rw [inexact, cast_signedInt]
    generalize (((exactOf x).round 0 mode).mant : ℚ) = n
    rw [value, abs_signed _ (abs_nonneg _)]
    unfold signed
    cases fpSign x
    · exact Iff.rfl
    · exact neg_inj.not.symm

theorem bitAt_inexactBit (b : Bool) : bitAt (if b then xxBit else 0) 6 = b ∧ bitAt (if b then xxBit else 0) 23 = false := by
  revert b
  decide

theorem convertOut_result (s : State) (x : DWord) (mode : BitVec 2) : (convertOut s x mode).result
    = (convertInt s x mode).low.map fun w => s.drawWord.1 ++ w := rfl

theorem convertOut_fprf (s : State) (x : DWord) (mode : BitVec 2) : (convertOut s x mode).fprf
    = if (convertInt s x mode).low.isNone then none
      else some ((convertInt s x mode).fprf.getD (s.drawWord.2.drawWord.1.extractLsb' 0 5)) := rfl

section

variable {s u : State} {x : DWord} {mode : BitVec 2} {frt : RegNum}
  (fpscr : u.fpscr = (convertOut s x mode).fpscr s.fpscr)
  (freg : u.freg frt = (convertOut s x mode).result.getD (s.freg frt))

include fpscr

theorem convert_inexact {b : Bool} (bits : bitAt (convertInt s x mode).bits 6 = b) :
    bitAt u.fpscr 6 = (bitAt s.fpscr 6 || b)
      ∧ ∀ n ∈ [3, 4, 5, 7, 8, 9, 10, 11, 12, 22], bitAt u.fpscr n = bitAt s.fpscr n := by
  have exception : ∀ n ∈ [3, 4, 5, 7, 8, 9, 10, 11, 12, 22], n ∈ exceptionBits ∧ n ∉ [6, 23] := by decide
  rw [fpscr]
  refine ⟨?_, fun n hn => FpOut.fpscr_kept (bitsIn_convertInt s x mode) (exception n hn).1 (exception n hn).2⟩
  rw [FpOut.fpscr_exception _ _ (by decide), ← bits]
  rfl

theorem convert_frFi : bitAt u.fpscr 13 = (convertInt s x mode).fr ∧ bitAt u.fpscr 14 = (convertInt s x mode).fi := by
  rw [fpscr, FpOut.fpscr_fr (onlyExceptions_convertOut s x mode), FpOut.fpscr_fi (onlyExceptions_convertOut s x mode)]
  exact ⟨rfl, rfl⟩

include freg

/-- What an invalid conversion leaves (R534, R535, decision D24). -/
theorem convert_invalid {w : Word} {b : Bool} {f : Option (BitVec 5)}
    (out : convertInt s x mode = invalidInt s.fpVE w b f) :
    (bitAt u.fpscr 23 = true ∧ bitAt u.fpscr 13 = false ∧ bitAt u.fpscr 14 = false
      ∧ (bitAt s.fpscr 24 = true → u.freg frt = s.freg frt ∧ bitsAt u.fpscr 15 5 = bitsAt s.fpscr 15 5)
      ∧ (bitAt s.fpscr 24 = false → (u.freg frt).extractLsb' 0 32 = w))
    ∧ (bitAt u.fpscr 6 = (bitAt s.fpscr 6 || b)
      ∧ ∀ n ∈ [3, 4, 5, 7, 8, 9, 10, 11, 12, 22], bitAt u.fpscr n = bitAt s.fpscr n)
    ∧ ∀ c, f = some c → bitAt s.fpscr 24 = false → bitsAt u.fpscr 15 5 = c := by
  have within := onlyExceptions_convertOut s x mode
  have sets : ∀ b : Bool, bitAt (invalidInt s.fpVE w b f).bits 6 = b ∧ bitAt (invalidInt s.fpVE w b f).bits 23 = true := by
    have mask : ∀ b : Bool, bitAt (vxCvi ||| (if b then xxBit else 0)) 6 = b
        ∧ bitAt (vxCvi ||| (if b then xxBit else 0)) 23 = true := by decide
    exact mask
  obtain ⟨fr, fi⟩ := convert_frFi fpscr
  have low : (convertInt s x mode).low = if s.fpVE then none else some w := by rw [out]; rfl
  refine ⟨⟨?_, by rw [fr, out]; rfl, by rw [fi, out]; rfl, fun enabled => ?_, fun disabled => ?_⟩,
    convert_inexact fpscr (by rw [out]; exact (sets b).1), fun c given disabled => ?_⟩
  · rw [fpscr, FpOut.fpscr_exception _ _ (by decide)]
    show (_ || bitAt (convertInt s x mode).bits 23) = true
    rw [out, (sets b).2, Bool.or_true]
  · have none : (convertInt s x mode).low = none := low.trans (if_pos enabled)
    rw [freg, fpscr, FpOut.fpscr_class within, convertOut_result, convertOut_fprf, none]
    exact ⟨rfl, rfl⟩
  · have some : (convertInt s x mode).low = some w := low.trans (if_neg (Bool.eq_false_iff.1 disabled))
    rw [freg, convertOut_result, some]
    exact BitVec.extractLsb'_append_eq_right
  · have some : (convertInt s x mode).low = some w := low.trans (if_neg (Bool.eq_false_iff.1 disabled))
    have class_ : (convertInt s x mode).fprf = .some c := by
      rw [out, given]
      exact if_neg (Bool.eq_false_iff.1 disabled)
    rw [fpscr, FpOut.fpscr_class within, convertOut_fprf, some, class_]
    rfl

end

/-- Settles O56. -/
theorem convertToInteger : Obligations.ConvertToInteger := by
  intro s frt frb rc fp x v p hp
  have ends : s.FloatEnds p.1 frt rc (convertOut s x p.2) := by
    simp only [List.mem_cons, List.not_mem_nil, or_false] at hp
    obtain rfl | rfl := hp
    · exact ends_fcir s frt frb rc
    · exact ends_fcirz s frt frb rc
  refine floatCompletes_of_ends fp ends fun u fpscr freg => ?_
  intro low fprf inexact invalid
  have limit (h : isNan x = false) :
      intLimit (fpSign x) = if isNan x ∨ fpSign x = true then 0x80000000#32 else 0x7FFFFFFF#32 := by
    rw [h]
    unfold intLimit
    simp
  refine ⟨fun nan => ?_, fun inf => ?_, fun finite => ?_⟩
  · obtain ⟨⟨vx, fr, fi, kept, word⟩, rest, class_⟩ := convert_invalid fpscr freg (convertInt_nan p.2 nan)
    exact ⟨⟨vx, fr, fi, kept, fun h => (word h).trans (if_pos (.inl nan)).symm⟩, rest, class_ _ rfl⟩
  · have notNan := isNan_eq_false_of_isInf inf
    obtain ⟨⟨vx, fr, fi, kept, word⟩, rest, class_⟩ := convert_invalid fpscr freg (convertInt_inf p.2 inf)
    refine ⟨⟨vx, fr, fi, kept, fun h => (word h).trans (limit notNan)⟩, rest, fun h => (class_ _ rfl h).trans ?_⟩
    unfold fpClass
    rw [if_neg (Bool.eq_false_iff.1 notNan), if_pos inf]
  · obtain ⟨rounded, inc, differs⟩ := round_integer x p.2
    have notNan := isNan_eq_false_of_finite finite
    refine ⟨_, rounded, ?_⟩
    have differs' : ((exactOf x).round 0 p.2).inexact
        = decide (((signedInt (fpSign x) ((exactOf x).round 0 p.2).mant : Int) : ℚ) ≠ v) := by
      rw [Bool.eq_iff_iff, decide_eq_true_iff]
      exact differs
    have range : (-2 ^ 31 ≤ signedInt (fpSign x) ((exactOf x).round 0 p.2).mant
        ∧ signedInt (fpSign x) ((exactOf x).round 0 p.2).mant ≤ 2 ^ 31 - 1)
        ↔ ¬ (if fpSign x then 2 ^ 31 else 2 ^ 31 - 1) < ((exactOf x).round 0 p.2).mant := by
      unfold signedInt
      cases fpSign x
      · simp only [Bool.false_eq_true, if_false]
        omega
      · simp only [if_true]
        omega
    by_cases fits : (if fpSign x then 2 ^ 31 else 2 ^ 31 - 1) < ((exactOf x).round 0 p.2).mant
    · obtain ⟨⟨vx, fr, fi, kept, word⟩, rest, -⟩ := convert_invalid fpscr freg (convertInt_large finite fits)
      rw [if_neg fun h => range.1 h fits]
      rw [differs'] at rest
      exact ⟨rest, vx, fr, fi, kept, fun h => (word h).trans (limit notNan)⟩
    · have out := convertInt_fits (s := s) finite fits
      obtain ⟨fr, fi⟩ := convert_frFi fpscr
      have rest := convert_inexact fpscr (b := ((exactOf x).round 0 p.2).inexact)
        (by rw [out]; exact (bitAt_inexactBit _).1)
      rw [if_pos (range.2 fits)]
      rw [differs'] at rest
      refine ⟨rest, ?_, ?_, ?_, ?_⟩
      · have word : low = BitVec.ofInt 32 (signedInt (fpSign x) ((exactOf x).round 0 p.2).mant) := by
          show (u.freg frt).extractLsb' 0 32 = _
          rw [freg, convertOut_result, out]
          exact BitVec.extractLsb'_append_eq_right
        exact (congrArg BitVec.toInt word).trans (toInt_ofInt_of_fits (range.2 fits))
      · have clear : bitAt (convertOut s x p.2).bits 23 = false := by
          show bitAt (convertInt s x p.2).bits 23 = false
          rw [out]
          exact (bitAt_inexactBit _).2
        rw [fpscr, FpOut.fpscr_exception _ _ (by decide), clear, Bool.or_false]
      · rw [fr, out, Bool.eq_iff_iff, decide_eq_true_iff]
        exact inc
      · rw [fi, out]
        exact differs'

end Sys2Proof.Machine

end

/-! ### A rounded result and what the FPSCR says of it (R532, R538, R540, R541) -/

section

namespace Sys2Proof.Machine

/-! #### Numbers of p significant bits -/

section

variable {K : Type} [Field K] [LinearOrder K] [IsStrictOrderedRing K]

omit [IsStrictOrderedRing K] in
theorem Significand.Rounds.bounds {z : Exact} {s : Significand} {rn : BitVec 2} {v : K} {n p : Nat} (hp : 1 ≤ p)
    (h : s.Rounds z p rn v n) : (2 ^ (p - 1) ≤ s.mant ∧ s.mant < 2 ^ p) ∧ z.top ≤ s.exp ∧ s.exp ≤ z.top + 1 := by
  have step : 2 ^ p = 2 ^ (p - 1) * 2 := by rw [← pow_succ, Nat.sub_add_cancel hp]
  have pos := Nat.two_pow_pos (p - 1)
  have low := h.low
  obtain ⟨lt, e, x⟩ | ⟨-, e, x⟩ := h.written
  · rw [e, x]
    exact ⟨⟨low, lt⟩, by omega, by omega⟩
  · rw [e, x]
    exact ⟨⟨le_refl _, by omega⟩, by omega, by omega⟩

omit [IsStrictOrderedRing K] in
/-- The number that is packed from a rounded significand, with its exponent moved by `k`; `last` is the place of the last
significant bit. -/
theorem Significand.Rounds.packed_value {z : Exact} {s : Significand} {rn : BitVec 2} {v : K} {n last m : Nat} {k : Int}
    (hl : last ≤ 50) (h : s.Rounds z (53 - last) rn v n) (hm : m = s.mant * 2 ^ last) (low : -1022 ≤ z.top + k)
    (high : s.exp + k ≤ 1023) :
    fpValue (packNormal z.sign (s.exp + k) m) = signed z.sign ((n : ℚ) * 2 ^ (z.top - (52 - last : Nat) + k))
      ∧ 2 ^ 52 ≤ m ∧ m < 2 ^ 53 := by
  have two : (2 : ℚ) ≠ 0 := by norm_num
  have places : 53 - last - 1 = 52 - last := by omega
  obtain ⟨mant, expLow, expHigh⟩ := h.bounds (by omega)
  rw [places] at mant
  have pow : 2 ^ (52 - last) * 2 ^ last = 2 ^ 52 := by rw [← pow_add, Nat.sub_add_cancel (by omega)]
  have pow' : 2 ^ (53 - last) * 2 ^ last = 2 ^ 53 := by rw [← pow_add, Nat.sub_add_cancel (by omega)]
  have hmant : 2 ^ 52 ≤ m ∧ m < 2 ^ 53 := by
    rw [hm, ← pow, ← pow']
    exact ⟨Nat.mul_le_mul_right _ mant.1, Nat.mul_lt_mul_of_pos_right mant.2 (Nat.two_pow_pos last)⟩
  refine ⟨?_, hmant⟩
  rw [packNormal_value _ ⟨by omega, high⟩ hmant]
  congr 1
  rw [hm, Nat.cast_mul, Nat.cast_pow, Nat.cast_ofNat, ← zpow_natCast, mul_assoc, ← zpow_add₀ two]
  obtain ⟨-, e, e'⟩ | ⟨e0, e, e'⟩ := h.written
  · rw [e, e', show (last : Int) + (z.top + k - 52) = z.top - (52 - last : Nat) + k by omega]
  · rw [e, e', e0, places, Nat.cast_pow, Nat.cast_pow, Nat.cast_ofNat, ← zpow_natCast, ← zpow_natCast, ← zpow_add₀ two,
      ← zpow_add₀ two]
    congr 1
    omega

end

/-- It is the rounded number times `2 ^ k`. -/
theorem Significand.Rounds.packed {z : Exact} {s : Significand} {rn : BitVec 2} {v : ℚ} {n last m : Nat} {k : Int}
    {P : DWord → Prop} (hl : last ≤ 50) (h : s.Rounds z (53 - last) rn |v| n) (value : v = signed z.sign |v|)
    (hm : m = s.mant * 2 ^ last) (low : -1022 ≤ z.top + k) (high : s.exp + k ≤ 1023)
    (isIn : P (packNormal z.sign (s.exp + k) m)) (fraction : ∀ y, P y → fpMag y % 2 ^ last = 0) :
    RoundedIn P last rn (packNormal z.sign (s.exp + k) m) (v * 2 ^ k)
      ∧ (s.inc = true ↔ |v * 2 ^ k| < |fpValue (packNormal z.sign (s.exp + k) m)|)
      ∧ (s.inexact = true ↔ fpValue (packNormal z.sign (s.exp + k) m) ≠ v * 2 ^ k) := by
  have two : (2 : ℚ) ≠ 0 := by norm_num
  have places : 53 - last - 1 = 52 - last := by omega
  obtain ⟨mant, expLow, expHigh⟩ := h.bounds (by omega)
  rw [places] at mant
  obtain ⟨result, hmant⟩ := h.packed_value hl hm low high
  obtain ⟨rounded, least, below, nLow, nHigh, inc, inexact, written⟩ := h
  rw [places] at rounded least inc inexact nLow
  generalize hx : |v| / 2 ^ (z.top - (52 - last : Nat)) = x at rounded least inc inexact
  have unit := two_zpow_pos (z.top - (52 - last : Nat) + k)
  have nonneg : 0 ≤ x := (Nat.cast_nonneg _).trans least
  have scaled : v * 2 ^ k = signed z.sign (x * 2 ^ (z.top - (52 - last : Nat) + k)) := by
    have : v = signed z.sign (x * 2 ^ (z.top - (52 - last : Nat))) := by
      rw [← hx, div_mul_cancel₀ _ (zpow_ne_zero _ two)]
      exact value
    rw [this, zpow_add₀ two]
    unfold signed
    split <;> ring
  have pow : 2 ^ (52 - last) * 2 ^ last = 2 ^ 52 := by rw [← pow_add, Nat.sub_add_cancel (by omega)]
  have exp : -1022 ≤ s.exp + k := by omega
  refine ⟨roundedIn_of_roundsNat isIn scaled result rounded least (fun even => ?_) fun y hy => ?_, ?_, ?_⟩
  · have mantEven : s.mant % 2 = 0 := by
      obtain ⟨-, e, -⟩ | ⟨-, e, -⟩ := written
      · rw [e, even]
      · rw [e, places, show 52 - last = 51 - last + 1 by omega, pow_succ, Nat.mul_mod_left]
    rw [getLsbD_fraction _ (by omega), (packNormal_spec _ ⟨exp, high⟩ hmant).2, hm, ← pow, ← Nat.mul_assoc, ← Nat.sub_mul,
      ← Nat.add_mul, Nat.testBit_eq_decide_div_mod_eq, Nat.mul_div_cancel _ (Nat.two_pow_pos last),
      decide_eq_false_iff_not, show 52 - last = 51 - last + 1 by omega, pow_succ]
    have least' := mant.1
    rw [show 52 - last = 51 - last + 1 by omega, pow_succ] at least'
    have := Nat.mul_mod_left ((s.exp + k + 1023).toNat * 2 ^ (51 - last)) 2
    rw [← Nat.mul_assoc]
    omega
  · exact magValue_onGrid (by omega) (fraction y hy) (by omega)
  · rw [inc, result, scaled, abs_signed _ (mul_nonneg nonneg unit.le),
      abs_signed _ (mul_nonneg (Nat.cast_nonneg n) unit.le), mul_lt_mul_iff_left₀ unit]
  · rw [inexact, result, scaled]
    unfold signed
    split
    · rw [ne_eq, ne_eq, neg_inj, mul_left_inj' unit.ne']
    · rw [ne_eq, ne_eq, mul_left_inj' unit.ne']

/-! #### Overflow (R538, R619) -/

/-- The signs of a number and of its magnitude. -/
theorem neg_iff_of_signed {sign : Bool} {v : ℚ} (value : v = signed sign |v|) (nonzero : v ≠ 0) :
    (v < 0 ↔ sign = true) ∧ (0 < v ↔ sign = false) := by
  have pos : 0 < |v| := abs_pos.2 nonzero
  cases sign with
  | false =>
    have : v = |v| := value
    rw [this]
    simp [pos, pos.le]
  | true =>
    have : v = -|v| := value
    rw [this]
    simp [pos, pos.le]

/-- Rounding to p bits passes an exponent exactly where `RoundsBeyond` says so. -/
theorem Significand.Rounds.beyond_iff {z : Exact} {s : Significand} {rn : BitVec 2} {v : ℚ} {n p : Nat} {e : Int}
    {most top : ℚ} (hp : 1 ≤ p) (h : s.Rounds z p rn |v| n) (value : v = signed z.sign |v|) (nonzero : v ≠ 0)
    (bounds : 2 ^ z.top ≤ |v| ∧ |v| < 2 ^ (z.top + 1)) (hmost : most = ((2 ^ p - 1 : Nat) : ℚ) * 2 ^ (e - (p - 1 : Nat)))
    (htop : top = 2 ^ (e + 1)) : e < s.exp ↔ RoundsBeyond rn most top v := by
  have two : (2 : ℚ) ≠ 0 := by norm_num
  have mono {a b : Int} (le : a ≤ b) : (2 : ℚ) ^ a ≤ 2 ^ b := zpow_le_zpow_right₀ (by norm_num) le
  have unit := two_zpow_pos (e - (p - 1 : Nat))
  have topUnits : (2 : ℚ) ^ (e + 1) = ((2 ^ p : Nat) : ℚ) * 2 ^ (e - (p - 1 : Nat)) := by
    rw [Nat.cast_pow, Nat.cast_ofNat, ← zpow_natCast, ← zpow_add₀ two]
    congr 1
    omega
  have one : 1 ≤ 2 ^ p := Nat.one_le_two_pow
  have mostUnits : most = (((2 ^ p : Nat) : ℚ) - 1) * 2 ^ (e - (p - 1 : Nat)) := by
    rw [hmost, Nat.cast_sub one, Nat.cast_one]
  unfold RoundsBeyond
  obtain above | at_ | under := lt_trichotomy e z.top
  · have big : top ≤ |v| := htop ▸ (mono (by omega : e + 1 ≤ z.top)).trans bounds.1
    refine iff_of_true ?_ (.inl big)
    obtain ⟨-, -, x⟩ | ⟨-, -, x⟩ := h.written <;> omega
  · subst at_
    have small : ¬ top ≤ |v| := not_le.2 (htop ▸ bounds.2)
    have exp : z.top < s.exp ↔ n = 2 ^ p := by
      obtain ⟨lt, -, x⟩ | ⟨e, -, x⟩ := h.written <;> omega
    have rounded := h.rounded
    have below := h.below
    have nHigh := h.high
    generalize hx : |v| / 2 ^ (z.top - (p - 1 : Nat)) = x at rounded below
    have vx : |v| = x * 2 ^ (z.top - (p - 1 : Nat)) := by rw [← hx, div_mul_cancel₀ _ unit.ne']
    have past : most < |v| ↔ ((2 ^ p : Nat) : ℚ) - 1 < x := by rw [mostUnits, vx, mul_lt_mul_iff_left₀ unit]
    have half : (most + top) / 2 ≤ |v| ↔ ((2 ^ p : Nat) : ℚ) - 1 / 2 ≤ x := by
      rw [mostUnits, htop, topUnits, vx, ← add_mul, div_eq_mul_inv, mul_right_comm, mul_le_mul_iff_left₀ unit]
      constructor <;> intro h <;> linarith
    obtain ⟨negative, positive⟩ := neg_iff_of_signed value nonzero
    rw [exp, past, half, negative, positive, or_iff_right small]
    have nCast : n ≠ 2 ^ p → (n : ℚ) ≤ ((2 ^ p : Nat) : ℚ) - 1 := fun ne => by
      have : ((n + 1 : Nat) : ℚ) ≤ ((2 ^ p : Nat) : ℚ) := Nat.cast_le.2 (by omega)
      push_cast at this ⊢
      linarith
    obtain mode | mode | mode := mode_cases rn z.sign
    · subst mode
      obtain ⟨near, even⟩ := rounded.nearest rfl
      obtain ⟨nearLow, nearHigh⟩ := abs_le.1 near
      constructor
      · intro e
        rw [e] at nearHigh
        exact ⟨by linarith, .inl ⟨rfl, by linarith⟩⟩
      · rintro ⟨-, ⟨-, le⟩ | ⟨mode, -⟩ | ⟨mode, -⟩⟩
        · by_contra ne
          have nLow := nCast ne
          have tie : |(n : ℚ) - x| = 1 / 2 := by
            rw [abs_of_nonpos (by linarith)]
            linarith
          have odd : n + 1 = 2 ^ p := by
            have : (n : ℚ) + 1 = ((2 ^ p : Nat) : ℚ) := by linarith
            exact_mod_cast this
          have twice : 2 ^ p = 2 ^ (p - 1) * 2 := by rw [← pow_succ, Nat.sub_add_cancel hp]
          have := even tie
          omega
        · exact absurd mode (by decide)
        · exact absurd mode (by decide)
    · refine iff_of_false (fun e => ?_) ?_
      · have := (rounded.floor mode).1
        rw [e] at this
        linarith
      · rintro ⟨-, ⟨rfl, -⟩ | ⟨rfl, sign⟩ | ⟨rfl, sign⟩⟩
        · simp at mode
        · simp [sign] at mode
        · simp [sign] at mode
    · obtain ⟨low, high⟩ := rounded.ceil mode
      constructor
      · intro e
        rw [e] at high
        exact ⟨by linarith, .inr mode⟩
      · rintro ⟨lt, -⟩
        by_contra ne
        have := nCast ne
        linarith
  · have small : |v| < 2 ^ e := bounds.2.trans_le (mono (by omega))
    have large : (2 : ℚ) ^ e ≤ most := by
      have bits : ((2 ^ (p - 1) : Nat) : ℚ) ≤ ((2 ^ p - 1 : Nat) : ℚ) := Nat.cast_le.2 (by
        have twice : 2 ^ p = 2 ^ (p - 1) * 2 := by rw [← pow_succ, Nat.sub_add_cancel hp]
        have := Nat.two_pow_pos (p - 1)
        omega)
      have whole : (2 : ℚ) ^ e = ((2 ^ (p - 1) : Nat) : ℚ) * 2 ^ (e - (p - 1 : Nat)) := by
        rw [Nat.cast_pow, Nat.cast_ofNat, ← zpow_natCast, ← zpow_add₀ two]
        congr 1
        omega
      rw [whole, hmost]
      exact mul_le_mul_of_nonneg_right bits unit.le
    refine iff_of_false ?_ ?_
    · obtain ⟨-, -, x⟩ | ⟨-, -, x⟩ := h.written <;> omega
    · rintro (le | ⟨lt, -⟩)
      · have : (2 : ℚ) ^ e ≤ top := htop ▸ mono (by omega)
        linarith
      · linarith

/-! #### FR, FI, OX, UX, XX (R541, R544) -/

theorem roundingFlags_of {o : FpOut} {before : Word} {exact rounded : ℚ} {inc inexact ox ux : Bool}
    (within : OnlyExceptions o.bits) (frFi : o.frFi = some (inc, inexact))
    (bits : bitAt o.bits 3 = ox ∧ bitAt o.bits 4 = ux ∧ bitAt o.bits 6 = inexact) (hinc : inc = true ↔ |exact| < |rounded|)
    (hinexact : inexact = true ↔ rounded ≠ exact) : RoundingFlags before (o.fpscr before) exact rounded ox ux := by
  obtain ⟨b3, b4, b6⟩ := bits
  have fr : o.fr before = inc := by unfold FpOut.fr; rw [frFi]; rfl
  have fi : o.fi before = inexact := by unfold FpOut.fi; rw [frFi]; rfl
  have decided : inexact = decide (rounded ≠ exact) := by rw [Bool.eq_iff_iff, decide_eq_true_iff]; exact hinexact
  refine ⟨?_, ?_, ?_, ?_, ?_⟩
  · rw [FpOut.fpscr_fr within, fr, Bool.eq_iff_iff, decide_eq_true_iff]
    exact hinc
  · rw [FpOut.fpscr_fi within, fi, decided]
  · rw [FpOut.fpscr_exception _ _ (by decide), b6, decided]
  · rw [FpOut.fpscr_exception _ _ (by decide), b3]
  · rw [FpOut.fpscr_exception _ _ (by decide), b4]

/-- The exception bits of a rounding that is neither an overflow nor an underflow. -/
theorem inexactBits : ∀ b : Bool, bitAt (if b then xxBit else 0) 3 = false ∧ bitAt (if b then xxBit else 0) 4 = false
    ∧ bitAt (if b then xxBit else 0) 6 = b := by decide

theorem underflowBits : ∀ b : Bool, bitAt (uxBit ||| if b then xxBit else 0) 3 = false
    ∧ bitAt (uxBit ||| if b then xxBit else 0) 4 = true ∧ bitAt (uxBit ||| if b then xxBit else 0) 6 = b := by decide

theorem overflowBits : ∀ b : Bool, bitAt (oxBit ||| if b then xxBit else 0) 3 = true
    ∧ bitAt (oxBit ||| if b then xxBit else 0) 4 = false ∧ bitAt (oxBit ||| if b then xxBit else 0) 6 = b := by decide

theorem tinyBits : ∀ b : Bool, bitAt (if b then uxBit ||| xxBit else 0) 3 = false
    ∧ bitAt (if b then uxBit ||| xxBit else 0) 4 = b ∧ bitAt (if b then uxBit ||| xxBit else 0) 6 = b := by decide

/-! #### What is rounded -/

/-- The exact result stands for `v`, and its sign is that of `v`, `zero` where `v` is 0; with more below it, it has more bits
than any rounding looks at; its exponent stays in the range of a result that is scaled by 2^1536 (R538, R540). -/
structure Exact.For (z : Exact) (v : ℚ) (zero : Bool) : Prop where
  holds : z.Holds |v|
  sign : z.sign = if v = 0 then zero else decide (v < 0)
  precise : z.sticky = true → 64 ≤ Nat.log2 z.mant
  low : z.mant ≠ 0 → -2500 ≤ z.top
  high : z.mant ≠ 0 → z.top ≤ 2500

theorem Exact.For.value {z : Exact} {v : ℚ} {zero : Bool} (h : z.For v zero) : v = signed z.sign |v| := by
  rw [h.sign]
  by_cases v0 : v = 0
  · rw [v0]
    unfold signed
    simp
  · rw [if_neg v0]
    unfold signed
    by_cases neg : v < 0
    · simp [neg, abs_of_neg neg]
    · simp [neg, abs_of_nonneg (not_lt.1 neg)]

theorem Exact.For.mant_eq_zero {z : Exact} {v : ℚ} {zero : Bool} (h : z.For v zero) : z.mant = 0 ↔ v = 0 := by
  have unit := two_zpow_pos z.exp
  rw [← abs_eq_zero]
  constructor
  · intro m0
    have exact : z.sticky = false := Bool.eq_false_iff.2 fun s => by
      have := h.precise s
      rw [m0] at this
      simp at this
    rw [h.holds.exact.2 exact, m0, Nat.cast_zero, zero_mul]
  · intro v0
    have low := h.holds.low
    rw [v0] at low
    have : (z.mant : ℚ) ≤ 0 := le_of_mul_le_mul_right (by rwa [zero_mul]) unit
    exact Nat.le_zero.1 (by exact_mod_cast this)

theorem maxDouble_eq : maxDouble = ((2 ^ 53 - 1 : Nat) : ℚ) * 2 ^ ((1023 : Int) - (53 - 1 : Nat)) := by
  have unit : (2 : ℚ) ^ ((1023 : Int) - (53 - 1 : Nat)) = 2 ^ 971 := by
    rw [← zpow_natCast]
    rfl
  rw [unit, Nat.cast_sub (by decide), sub_mul, Nat.cast_one, one_mul, Nat.cast_pow, Nat.cast_ofNat, ← pow_add]
  rfl

theorem le_maxDouble_of_small {v : ℚ} (h : |v| < 2 ^ (-1022 : Int)) : |v| ≤ maxDouble := by
  have small : (2 : ℚ) ^ (-1022 : Int) ≤ 1 := zpow_le_one_of_nonpos₀ (by norm_num) (by norm_num)
  have unit : (1 : ℚ) ≤ 2 ^ ((1023 : Int) - (53 - 1 : Nat)) := one_le_zpow₀ (by norm_num) (by norm_num)
  have bits : (1 : ℚ) ≤ ((2 ^ 53 - 1 : Nat) : ℚ) := by exact_mod_cast (by decide : 1 ≤ 2 ^ 53 - 1)
  have : (1 : ℚ) ≤ maxDouble := by
    rw [maxDouble_eq]
    nlinarith
  linarith

theorem large_of_beyond {rn : BitVec 2} {most top v : ℚ} (order : most < top) (h : RoundsBeyond rn most top v) :
    most < |v| := by
  obtain le | ⟨lt, -⟩ := h
  · exact order.trans_le le
  · exact lt

theorem maxDouble_lt : maxDouble < 2 ^ 1024 := by
  unfold maxDouble
  exact sub_lt_self _ (by positivity)

/-! #### The branches of the template (R550) -/

section

variable {z : Exact} {rn : BitVec 2} {oe ue : Bool}

theorem deliverExact_zero (h : z.mant = 0) :
    deliverExact z rn oe ue = delivered (fpZero z.sign) 0 (some (false, false)) := if_pos h

theorem deliverExact_tiny (h : z.mant ≠ 0) (tiny : z.top < -1022) : deliverExact z rn oe false
    = delivered (packTiny z.sign (z.round (-1074) rn).mant) (if (z.round (-1074) rn).inexact then uxBit ||| xxBit else 0)
        (some ((z.round (-1074) rn).inc, (z.round (-1074) rn).inexact)) := by
  unfold deliverExact
  simp only [h, tiny, if_false, decide_true, Bool.not_false, Bool.and_true, if_true]

theorem deliverExact_underflow (h : z.mant ≠ 0) (tiny : z.top < -1022) : deliverExact z rn oe true
    = delivered (packNormal z.sign ((z.roundTo 53 rn).exp + 1536) (z.roundTo 53 rn).mant)
        (uxBit ||| if (z.roundTo 53 rn).inexact then xxBit else 0)
        (some ((z.roundTo 53 rn).inc, (z.roundTo 53 rn).inexact)) := by
  unfold deliverExact
  simp only [h, tiny, if_false, Bool.not_true, Bool.and_false, Bool.false_eq_true, if_true]

theorem deliverExact_overflow (h : z.mant ≠ 0) (normal : ¬ z.top < -1022) (beyond : 1023 < (z.roundTo 53 rn).exp) :
    deliverExact z rn true ue
    = delivered (packNormal z.sign ((z.roundTo 53 rn).exp - 1536) (z.roundTo 53 rn).mant)
        (oxBit ||| if (z.roundTo 53 rn).inexact then xxBit else 0)
        (some ((z.roundTo 53 rn).inc, (z.roundTo 53 rn).inexact)) := by
  unfold deliverExact
  simp only [h, normal, beyond, if_false, decide_false, Bool.false_and, Bool.false_eq_true, if_true]

theorem deliverExact_overflow_disabled (h : z.mant ≠ 0) (normal : ¬ z.top < -1022)
    (beyond : 1023 < (z.roundTo 53 rn).exp) : deliverExact z rn false ue
    = delivered (overflowResult rn z.sign) (oxBit ||| xxBit) (some ((z.roundTo 53 rn).inc, true)) := by
  unfold deliverExact
  simp only [h, normal, beyond, if_false, decide_false, Bool.false_and, Bool.false_eq_true, if_true]

theorem deliverExact_normal (h : z.mant ≠ 0) (normal : ¬ z.top < -1022) (within : ¬ 1023 < (z.roundTo 53 rn).exp) :
    deliverExact z rn oe ue
    = delivered (packNormal z.sign (z.roundTo 53 rn).exp (z.roundTo 53 rn).mant)
        (if (z.roundTo 53 rn).inexact then xxBit else 0)
        (some ((z.roundTo 53 rn).inc, (z.roundTo 53 rn).inexact)) := by
  unfold deliverExact
  simp only [h, normal, within, if_false, decide_false, Bool.false_and, Bool.false_eq_true]

end

end Sys2Proof.Machine

end

/-! ### Arithmetic on finite numbers (R530 to R542, R593 to R600) -/

section

namespace Sys2Proof.Machine

section

variable {z : Exact} {v : ℚ} {zero : Bool} {before : Word} {o : FpOut}

theorem fpValue_fpZero (sign : Bool) : fpValue (fpZero sign) = 0 ∧ fpSign (fpZero sign) = sign := by
  obtain ⟨hs, hm⟩ := sign_mag_append sign 0#63
  exact ⟨(fpValue_eq_zero_iff _).2 hm, hs⟩

/-- Rounding to a multiple of 2^-1074: every number is one. -/
theorem Exact.For.roundsTo_tiny {rn : BitVec 2} (h : z.For v zero) {n : Nat} {r : DWord}
    (rounded : RoundsNat rn z.sign n (|v| / 2 ^ (-1074 : Int))) (finite : fpFinite r = true)
    (result : fpValue r = signed z.sign (n * 2 ^ (-1074 : Int))) (bit : r.getLsbD 0 = decide (n % 2 = 1)) :
    RoundsTo rn r v := by
  have unit := two_zpow_pos (-1074)
  refine roundedIn_of_roundsNat (least := 0) finite ?_ result rounded ?_ (fun even => ?_) fun y _ => ?_
  · rw [div_mul_cancel₀ _ unit.ne']
    exact h.value
  · rw [Nat.cast_zero]
    exact div_nonneg (abs_nonneg v) unit.le
  · rw [bit, even]
    rfl
  · obtain ⟨k, e⟩ := magValue_integer (fpMag y)
    exact .inr ⟨k, by rw [e, Int.cast_natCast]⟩

/-- A result in range: nothing is said of overflows. -/
theorem Delivers.of_inRange {after : Word} {r : DWord} (le : |v| ≤ maxDouble)
    (sign : fpSign r = if v = 0 then zero else decide (v < 0))
    (others : ∀ n ∈ [5, 7, 8, 9, 10, 11, 12, 22, 23], bitAt after n = bitAt before n)
    (inRange : (bitAt before 26 = false ∨ v = 0 ∨ 2 ^ (-1022 : ℤ) ≤ |v|) → RoundsTo (bitsAt before 30 2) r v
      ∧ RoundingFlags before after v (fpValue r) false (decide (|v| < 2 ^ (-1022 : ℤ) ∧ fpValue r ≠ v)))
    (underflow : bitAt before 26 = true → v ≠ 0 → |v| < 2 ^ (-1022 : ℤ) → RoundsTo (bitsAt before 30 2) r (v * 2 ^ 1536)
      ∧ RoundingFlags before after (v * 2 ^ 1536) (fpValue r) false true) : Delivers before after r v zero where
  sign := sign
  others := others
  inRange _ := inRange
  underflow := underflow
  notBeyond lt := absurd lt (not_lt.2 le)
  enabledOverflow _ beyond := absurd (large_of_beyond maxDouble_lt beyond) (not_lt.2 le)
  overflow _ beyond := absurd (large_of_beyond maxDouble_lt beyond) (not_lt.2 le)

/-- The bits that no rounding sets. -/
theorem kept_of_bitsIn (within : BitsIn [3, 4, 6] o.bits) :
    ∀ n ∈ [5, 7, 8, 9, 10, 11, 12, 22, 23], bitAt (o.fpscr before) n = bitAt before n := by
  have plain : ∀ n ∈ [5, 7, 8, 9, 10, 11, 12, 22, 23], n ∈ exceptionBits ∧ n ∉ [3, 4, 6] := by decide
  exact fun n hn => FpOut.fpscr_kept within (plain n hn).1 (plain n hn).2

theorem delivers_zero (h : z.For v zero) (v0 : v = 0) (bits : o.bits = 0) (frFi : o.frFi = some (false, false)) :
    Delivers before (o.fpscr before) (fpZero z.sign) v zero := by
  obtain ⟨value, sign⟩ := fpValue_fpZero z.sign
  have within : BitsIn [3, 4, 6] o.bits := by rw [bits]; exact bitsIn_zero _
  have finite : fpFinite (fpZero z.sign) = true := by
    rw [fpFinite_iff, (fpValue_eq_zero_iff _).1 value]
    decide
  have bit : (fpZero z.sign).getLsbD 0 = decide (0 % 2 = 1) := by
    cases z.sign <;> rfl
  have rounds : RoundsTo (bitsAt before 30 2) (fpZero z.sign) v := by
    refine h.roundsTo_tiny (n := 0) (.of_eq ?_) finite ?_ bit
    · rw [v0, abs_zero, zero_div, Nat.cast_zero]
    · rw [value]
      unfold signed
      simp
  have inRange : |v| ≤ maxDouble := le_maxDouble_of_small (by rw [v0, abs_zero]; exact two_zpow_pos _)
  refine .of_inRange inRange (sign.trans h.sign) (kept_of_bitsIn within) (fun _ => ⟨rounds, ?_⟩)
    fun _ ne => absurd v0 ne
  rw [value, v0, decide_eq_false (fun h => h.2 rfl)]
  exact roundingFlags_of (within.mono exception_rounding) frFi (by rw [bits]; decide) (by simp) (by simp)

theorem delivers_tiny (h : z.For v zero) (small : |v| < 2 ^ (-1022 : Int)) (nonzero : z.mant ≠ 0)
    (disabled : bitAt before 26 = false)
    (bits : o.bits = if (z.round (-1074) (bitsAt before 30 2)).inexact then uxBit ||| xxBit else 0)
    (frFi : o.frFi
      = some ((z.round (-1074) (bitsAt before 30 2)).inc, (z.round (-1074) (bitsAt before 30 2)).inexact)) :
    Delivers before (o.fpscr before) (packTiny z.sign (z.round (-1074) (bitsAt before 30 2)).mant) v zero := by
  have two : (2 : ℚ) ≠ 0 := by norm_num
  have unit := two_zpow_pos (-1074)
  obtain ⟨top, -⟩ := h.holds.top nonzero
  have precise : z.sticky = true → z.exp < -1074 := fun s => by
    have bound : z.top < -1022 := (zpow_lt_zpow_iff_right₀ (by norm_num)).1 (top.trans_lt small)
    have := h.precise s
    unfold Exact.top at bound
    omega
  obtain ⟨rounded, inc, inexact⟩ := h.holds.round (-1074) (bitsAt before 30 2) precise
  generalize z.round (-1074) (bitsAt before 30 2) = r at rounded inc inexact bits frFi
  have bound : r.mant ≤ 2 ^ 52 := rounded.le_of_le (by
    rw [div_le_iff₀ unit, Nat.cast_pow, Nat.cast_ofNat, ← zpow_natCast, ← zpow_add₀ two]
    exact small.le)
  obtain ⟨sign, mag⟩ := packTiny_spec z.sign bound
  have value := packTiny_value z.sign bound
  have within : BitsIn [3, 4, 6] o.bits := by
    obtain ⟨-, ux, xx⟩ := bitsIn_roundingBits (l := [3, 4, 6]) fun _ h => h
    rw [bits]
    exact (ux.or xx).ite (bitsIn_zero _)
  have finite : fpFinite (packTiny z.sign r.mant) = true := by
    rw [fpFinite_iff, mag]
    exact bound.trans_lt (by decide)
  have bit : (packTiny z.sign r.mant).getLsbD 0 = decide (r.mant % 2 = 1) := by
    rw [getLsbD_fraction _ (by decide), mag, Nat.testBit_zero]
  have nonneg : (0 : ℚ) ≤ r.mant * 2 ^ (-1074 : Int) := mul_nonneg (Nat.cast_nonneg _) unit.le
  have incremented : r.inc = true ↔ |v| < |fpValue (packTiny z.sign r.mant)| := by
    rw [inc, value, abs_signed _ nonneg, div_lt_iff₀ unit]
  have differs : r.inexact = true ↔ fpValue (packTiny z.sign r.mant) ≠ v := by
    rw [inexact, value, ne_eq, eq_div_iff unit.ne']
    conv_rhs => rw [h.value]
    unfold signed
    split
    · rw [ne_eq, neg_inj]
    · rfl
  refine .of_inRange (le_maxDouble_of_small small) (sign.trans h.sign) (kept_of_bitsIn within)
    (fun _ => ⟨h.roundsTo_tiny rounded finite value bit, ?_⟩) fun enabled => by rw [disabled] at enabled; cases enabled
  have ux : decide (|v| < 2 ^ (-1022 : Int) ∧ fpValue (packTiny z.sign r.mant) ≠ v) = r.inexact := by
    rw [Bool.eq_iff_iff, decide_eq_true_iff, differs]
    exact ⟨fun h => h.2, fun h => ⟨small, h⟩⟩
  rw [ux]
  exact roundingFlags_of (within.mono exception_rounding) frFi (by rw [bits]; exact tinyBits _) incremented differs

/-- The rounded significand, packed with its exponent moved by `k`. -/
theorem Exact.For.packed (h : z.For v zero) (nonzero : z.mant ≠ 0) (rn : BitVec 2) {k : Int} (low : -1022 ≤ z.top + k)
    (high : (z.roundTo 53 rn).exp + k ≤ 1023) :
    RoundsTo rn (packNormal z.sign ((z.roundTo 53 rn).exp + k) (z.roundTo 53 rn).mant) (v * 2 ^ k)
      ∧ ((z.roundTo 53 rn).inc = true ↔ |v * 2 ^ k|
        < |fpValue (packNormal z.sign ((z.roundTo 53 rn).exp + k) (z.roundTo 53 rn).mant)|)
      ∧ ((z.roundTo 53 rn).inexact = true
        ↔ fpValue (packNormal z.sign ((z.roundTo 53 rn).exp + k) (z.roundTo 53 rn).mant) ≠ v * 2 ^ k)
      ∧ fpSign (packNormal z.sign ((z.roundTo 53 rn).exp + k) (z.roundTo 53 rn).mant) = z.sign := by
  obtain ⟨n, rounds⟩ := h.holds.roundTo nonzero (p := 53) (by decide) (fun s => by have := h.precise s; omega) rn
  generalize z.roundTo 53 rn = s at rounds high
  obtain ⟨mant, expLow, expHigh⟩ := rounds.bounds (by decide)
  have finite := packNormal_finite z.sign ⟨by omega, high⟩ mant
  obtain ⟨rounded, inc, inexact⟩ := rounds.packed (last := 0) (P := (fpFinite · = true)) (m := s.mant) (by decide) h.value
    (Nat.mul_one _).symm low high finite fun y _ => Nat.mod_one _
  exact ⟨rounded, inc, inexact, (packNormal_spec z.sign ⟨by omega, high⟩ mant).1⟩

theorem Exact.For.beyond_iff (h : z.For v zero) (nonzero : z.mant ≠ 0) (rn : BitVec 2) :
    1023 < (z.roundTo 53 rn).exp ↔ RoundsBeyond rn maxDouble (2 ^ 1024) v := by
  obtain ⟨n, rounds⟩ := h.holds.roundTo nonzero (p := 53) (by decide) (fun s => by have := h.precise s; omega) rn
  exact rounds.beyond_iff (by decide) h.value (fun v0 => nonzero (h.mant_eq_zero.2 v0)) (h.holds.top nonzero)
    maxDouble_eq (by rw [← zpow_natCast]; rfl)

theorem delivers_underflow (h : z.For v zero) (small : |v| < 2 ^ (-1022 : Int)) (nonzero : z.mant ≠ 0)
    (enabled : bitAt before 26 = true)
    (bits : o.bits = uxBit ||| if (z.roundTo 53 (bitsAt before 30 2)).inexact then xxBit else 0)
    (frFi : o.frFi = some ((z.roundTo 53 (bitsAt before 30 2)).inc, (z.roundTo 53 (bitsAt before 30 2)).inexact)) :
    Delivers before (o.fpscr before) (packNormal z.sign ((z.roundTo 53 (bitsAt before 30 2)).exp + 1536)
      (z.roundTo 53 (bitsAt before 30 2)).mant) v zero := by
  obtain ⟨top, -⟩ := h.holds.top nonzero
  have bound : z.top < -1022 := (zpow_lt_zpow_iff_right₀ (by norm_num)).1 (top.trans_lt small)
  have low := h.low nonzero
  have exp : (z.roundTo 53 (bitsAt before 30 2)).exp ≤ z.top + 1 := by
    obtain ⟨n, rounds⟩ := h.holds.roundTo nonzero (p := 53) (by decide) (fun s => by have := h.precise s; omega)
      (bitsAt before 30 2)
    exact (rounds.bounds (by decide)).2.2
  obtain ⟨rounded, inc, inexact, sign⟩ := h.packed nonzero (bitsAt before 30 2) (k := 1536) (by omega) (by omega)
  have within : BitsIn [3, 4, 6] o.bits := by
    obtain ⟨-, ux, xx⟩ := bitsIn_roundingBits (l := [3, 4, 6]) fun _ h => h
    rw [bits]
    exact ux.or (xx.ite (bitsIn_zero _))
  have scale : v * 2 ^ (1536 : Int) = v * 2 ^ 1536 := rfl
  rw [scale] at rounded inc inexact
  refine .of_inRange (le_maxDouble_of_small small) (sign.trans h.sign) (kept_of_bitsIn within) (fun cases => ?_)
    fun _ _ _ => ⟨rounded, roundingFlags_of (within.mono exception_rounding) frFi (by rw [bits]; exact underflowBits _) inc
      inexact⟩
  obtain disabled | v0 | large := cases
  · rw [disabled] at enabled
    cases enabled
  · exact absurd (h.mant_eq_zero.2 v0) nonzero
  · exact absurd small (not_lt.2 large)

theorem delivers_normal (h : z.For v zero) (large : 2 ^ (-1022 : Int) ≤ |v|) (nonzero : z.mant ≠ 0)
    (inside : ¬ 1023 < (z.roundTo 53 (bitsAt before 30 2)).exp)
    (bits : o.bits = if (z.roundTo 53 (bitsAt before 30 2)).inexact then xxBit else 0)
    (frFi : o.frFi = some ((z.roundTo 53 (bitsAt before 30 2)).inc, (z.roundTo 53 (bitsAt before 30 2)).inexact)) :
    Delivers before (o.fpscr before)
      (packNormal z.sign (z.roundTo 53 (bitsAt before 30 2)).exp (z.roundTo 53 (bitsAt before 30 2)).mant) v zero := by
  obtain ⟨-, top⟩ := h.holds.top nonzero
  have bound : -1022 < z.top + 1 := (zpow_lt_zpow_iff_right₀ (by norm_num)).1 (large.trans_lt top)
  have notBeyond := (h.beyond_iff nonzero (bitsAt before 30 2)).not.1 inside
  obtain ⟨rounded, inc, inexact, sign⟩ := h.packed nonzero (bitsAt before 30 2) (k := 0) (by omega) (by omega)
  have within : BitsIn [3, 4, 6] o.bits := by
    obtain ⟨-, -, xx⟩ := bitsIn_roundingBits (l := [3, 4, 6]) fun _ h => h
    rw [bits]
    exact xx.ite (bitsIn_zero _)
  rw [zpow_zero, mul_one, add_zero] at rounded inc inexact
  rw [add_zero] at sign
  have flags := roundingFlags_of (before := before) (within.mono exception_rounding) frFi
    (by rw [bits]; exact inexactBits _) inc inexact
  refine ⟨sign.trans h.sign, kept_of_bitsIn within, fun _ _ => ⟨rounded, ?_⟩, fun _ _ small => absurd small (not_lt.2 large),
    fun _ _ => ⟨rounded, flags⟩, fun _ beyond => absurd beyond notBeyond, fun _ beyond => absurd beyond notBeyond⟩
  rw [decide_eq_false fun h => absurd h.1 (not_lt.2 large)]
  exact flags

theorem overflowResult_eq (rn : BitVec 2) (sign : Bool) : overflowResult rn sign = overflowed rn sign 0x7FEFFFFFFFFFFFFF
    ∧ fpSign (overflowResult rn sign) = sign := by
  revert rn sign
  decide

/-- What an overflow leaves, enabled or not: nothing is said of numbers in range. -/
theorem Delivers.of_beyond {after : Word} {r : DWord} (large : 2 ^ (-1022 : Int) ≤ |v|)
    (beyond : RoundsBeyond (bitsAt before 30 2) maxDouble (2 ^ 1024) v)
    (sign : fpSign r = if v = 0 then zero else decide (v < 0))
    (others : ∀ n ∈ [5, 7, 8, 9, 10, 11, 12, 22, 23], bitAt after n = bitAt before n)
    (enabled : bitAt before 25 = true → RoundsTo (bitsAt before 30 2) r (v / 2 ^ 1536)
      ∧ RoundingFlags before after (v / 2 ^ 1536) (fpValue r) true false)
    (disabled : bitAt before 25 = false → r = overflowed (bitsAt before 30 2) (decide (v < 0)) 0x7FEFFFFFFFFFFFFF
      ∧ bitAt after 3 = true ∧ bitAt after 4 = bitAt before 4 ∧ bitAt after 6 = true ∧ bitAt after 14 = true
      ∧ ∃ y, RoundsTo (bitsAt before 30 2) y (v / 2 ^ 1536) ∧ bitAt after 13 = decide (|v / 2 ^ 1536| < |fpValue y|)) :
    Delivers before after r v zero where
  sign := sign
  others := others
  inRange le := absurd (large_of_beyond maxDouble_lt beyond) (not_lt.2 le)
  underflow _ _ small := absurd small (not_lt.2 large)
  notBeyond _ h := absurd beyond h
  enabledOverflow h _ := enabled h
  overflow h _ := disabled h

/-- The rounded number over 2^1536. -/
theorem Exact.For.packed_over (h : z.For v zero) (nonzero : z.mant ≠ 0) (rn : BitVec 2)
    (beyond : 1023 < (z.roundTo 53 rn).exp) :
    RoundsTo rn (packNormal z.sign ((z.roundTo 53 rn).exp - 1536) (z.roundTo 53 rn).mant) (v / 2 ^ 1536)
      ∧ ((z.roundTo 53 rn).inc = true ↔ |v / 2 ^ 1536|
        < |fpValue (packNormal z.sign ((z.roundTo 53 rn).exp - 1536) (z.roundTo 53 rn).mant)|)
      ∧ ((z.roundTo 53 rn).inexact = true
        ↔ fpValue (packNormal z.sign ((z.roundTo 53 rn).exp - 1536) (z.roundTo 53 rn).mant) ≠ v / 2 ^ 1536)
      ∧ fpSign (packNormal z.sign ((z.roundTo 53 rn).exp - 1536) (z.roundTo 53 rn).mant) = z.sign := by
  have exp : (z.roundTo 53 rn).exp ≤ z.top + 1 := by
    obtain ⟨n, rounds⟩ := h.holds.roundTo nonzero (p := 53) (by decide) (fun s => by have := h.precise s; omega) rn
    exact (rounds.bounds (by decide)).2.2
  have high := h.high nonzero
  have scale : v / 2 ^ 1536 = v * 2 ^ (-1536 : Int) := by
    rw [zpow_neg, div_eq_mul_inv]
    rfl
  rw [scale, sub_eq_add_neg]
  exact h.packed nonzero rn (by omega) (by omega)

theorem delivers_overflow (h : z.For v zero) (large : 2 ^ (-1022 : Int) ≤ |v|) (nonzero : z.mant ≠ 0)
    (beyond : 1023 < (z.roundTo 53 (bitsAt before 30 2)).exp) (enabled : bitAt before 25 = true)
    (bits : o.bits = oxBit ||| if (z.roundTo 53 (bitsAt before 30 2)).inexact then xxBit else 0)
    (frFi : o.frFi = some ((z.roundTo 53 (bitsAt before 30 2)).inc, (z.roundTo 53 (bitsAt before 30 2)).inexact)) :
    Delivers before (o.fpscr before) (packNormal z.sign ((z.roundTo 53 (bitsAt before 30 2)).exp - 1536)
      (z.roundTo 53 (bitsAt before 30 2)).mant) v zero := by
  obtain ⟨rounded, inc, inexact, sign⟩ := h.packed_over nonzero (bitsAt before 30 2) beyond
  have within : BitsIn [3, 4, 6] o.bits := by
    obtain ⟨ox, -, xx⟩ := bitsIn_roundingBits (l := [3, 4, 6]) fun _ h => h
    rw [bits]
    exact ox.or (xx.ite (bitsIn_zero _))
  refine .of_beyond large ((h.beyond_iff nonzero _).1 beyond) (sign.trans h.sign) (kept_of_bitsIn within)
    (fun _ => ⟨rounded, ?_⟩) fun disabled => by rw [disabled] at enabled; cases enabled
  exact roundingFlags_of (within.mono exception_rounding) frFi (by rw [bits]; exact overflowBits _) inc inexact

theorem delivers_overflow_disabled (h : z.For v zero) (large : 2 ^ (-1022 : Int) ≤ |v|) (nonzero : z.mant ≠ 0)
    (beyond : 1023 < (z.roundTo 53 (bitsAt before 30 2)).exp) (disabled : bitAt before 25 = false)
    (bits : o.bits = oxBit ||| xxBit) (frFi : o.frFi = some ((z.roundTo 53 (bitsAt before 30 2)).inc, true)) :
    Delivers before (o.fpscr before) (overflowResult (bitsAt before 30 2) z.sign) v zero := by
  obtain ⟨rounded, inc, -, -⟩ := h.packed_over nonzero (bitsAt before 30 2) beyond
  obtain ⟨value, sign⟩ := overflowResult_eq (bitsAt before 30 2) z.sign
  have within : BitsIn [3, 4, 6] o.bits := by
    obtain ⟨ox, -, xx⟩ := bitsIn_roundingBits (l := [3, 4, 6]) fun _ h => h
    rw [bits]
    exact ox.or xx
  have set : bitAt (oxBit ||| xxBit) 3 = true ∧ bitAt (oxBit ||| xxBit) 4 = false ∧ bitAt (oxBit ||| xxBit) 6 = true := by
    decide
  have negative : z.sign = decide (v < 0) := h.sign.trans (if_neg fun v0 => nonzero (h.mant_eq_zero.2 v0))
  have fr : o.fr before = (z.roundTo 53 (bitsAt before 30 2)).inc := by unfold FpOut.fr; rw [frFi]; rfl
  have fi : o.fi before = true := by unfold FpOut.fi; rw [frFi]; rfl
  refine .of_beyond large ((h.beyond_iff nonzero _).1 beyond) (sign.trans h.sign) (kept_of_bitsIn within)
    (fun enabled => by rw [disabled] at enabled; cases enabled) fun _ => ⟨value.trans (by rw [negative]), ?_, ?_, ?_, ?_, _,
      rounded, ?_⟩
  · rw [FpOut.fpscr_exception _ _ (by decide), bits, set.1, Bool.or_true]
  · rw [FpOut.fpscr_exception _ _ (by decide), bits, set.2.1, Bool.or_false]
  · rw [FpOut.fpscr_exception _ _ (by decide), bits, set.2.2, Bool.or_true]
  · rw [FpOut.fpscr_fi (within.mono exception_rounding), fi]
  · rw [FpOut.fpscr_fr (within.mono exception_rounding), fr, Bool.eq_iff_iff, decide_eq_true_iff]
    exact inc

/-! #### The class of a result (R40) -/

theorem magValue_lt_normal {m : Nat} : magValue m < 2 ^ (-1022 : Int) ↔ m / 2 ^ 52 = 0 := by
  have least : magValue (2 ^ 52) = 2 ^ (-1022 : Int) := by
    have two : (2 : ℚ) ≠ 0 := by norm_num
    rw [show 2 ^ 52 = 1 * 2 ^ 52 + 0 by rfl, magValue_normal (by decide) (by decide), Nat.add_zero, Nat.cast_pow,
      Nat.cast_ofNat, ← zpow_natCast, ← zpow_add₀ two]
    rfl
  rw [← least, magValue_strictMono.lt_iff_lt, Nat.div_eq_zero_iff_lt (by decide)]

theorem fpClass_eq_resultClass {x : DWord} (h : isNan x = false) : fpClass x = resultClass x := by
  have zero : fpValue x = 0 ↔ isZero x = true := by rw [fpValue_eq_zero_iff, isZero_iff]
  have small : |fpValue x| < 2 ^ (-1022 : Int) ↔ fpExp x = 0 := by rw [abs_fpValue, fpExp_eq, magValue_lt_normal]
  unfold fpClass resultClass
  rw [h]
  simp only [zero, small, Bool.false_eq_true, if_false]
  by_cases inf : isInf x = true
  · simp only [inf, if_true]
  by_cases null : isZero x = true
  · simp only [inf, null, if_true, if_false, Bool.false_eq_true]
  by_cases denormal : fpExp x = 0
  · simp only [inf, null, denormal, if_true, if_false, Bool.false_eq_true]
  · simp only [inf, null, denormal, if_false, Bool.false_eq_true]

/-! #### The template as a whole (R550) -/

/-- An exact result is delivered: what the instruction leaves for `v`, whatever becomes of FPRF and of the sign afterwards. -/
theorem deliverExact_delivers (h : z.For v zero) (before : Word) :
    ∃ r bits frFi, deliverExact z (bitsAt before 30 2) (bitAt before 25) (bitAt before 26) = delivered r bits frFi
      ∧ ∀ o : FpOut, o.bits = bits → o.frFi = frFi → Delivers before (o.fpscr before) r v zero := by
  by_cases nonzero : z.mant = 0
  · exact ⟨_, _, _, deliverExact_zero nonzero, fun o => delivers_zero h (h.mant_eq_zero.1 nonzero)⟩
  obtain ⟨low, high⟩ := h.holds.top nonzero
  have top_iff : z.top < -1022 ↔ |v| < 2 ^ (-1022 : Int) := by
    constructor
    · intro lt
      exact high.trans_le (zpow_le_zpow_right₀ (by norm_num) (by omega))
    · intro lt
      exact (zpow_lt_zpow_iff_right₀ (by norm_num)).1 (low.trans_lt lt)
  by_cases tiny : z.top < -1022
  · have small := top_iff.1 tiny
    cases ue : bitAt before 26 with
    | false => exact ⟨_, _, _, deliverExact_tiny nonzero tiny, fun o => delivers_tiny h small nonzero ue⟩
    | true => exact ⟨_, _, _, deliverExact_underflow nonzero tiny, fun o => delivers_underflow h small nonzero ue⟩
  · have large := not_lt.1 (top_iff.not.1 tiny)
    by_cases beyond : 1023 < (z.roundTo 53 (bitsAt before 30 2)).exp
    · cases oe : bitAt before 25 with
      | true => exact ⟨_, _, _, deliverExact_overflow nonzero tiny beyond, fun o => delivers_overflow h large nonzero beyond oe⟩
      | false =>
        exact ⟨_, _, _, deliverExact_overflow_disabled nonzero tiny beyond,
          fun o => delivers_overflow_disabled h large nonzero beyond oe⟩
    · exact ⟨_, _, _, deliverExact_normal nonzero tiny beyond, fun o => delivers_normal h large nonzero beyond⟩

theorem isNan_overflowed (rn : BitVec 2) (negative : Bool) : isNan (overflowed rn negative 0x7FEFFFFFFFFFFFFF) = false := by
  revert rn negative
  decide

/-- No NaN is delivered. -/
theorem Delivers.isNan_eq_false {after : Word} {r : DWord} (h : Delivers before after r v zero) : isNan r = false := by
  have number {w : ℚ} (rounds : RoundsTo (bitsAt before 30 2) r w) : isNan r = false :=
    isNan_eq_false_of_finite rounds.isIn
  by_cases le : |v| ≤ maxDouble
  · by_cases plain : bitAt before 26 = false ∨ v = 0 ∨ 2 ^ (-1022 : Int) ≤ |v|
    · exact number (h.inRange le plain).1
    · rw [not_or, not_or, Bool.not_eq_false, not_le] at plain
      obtain ⟨enabled, nonzero, small⟩ := plain
      exact number (h.underflow enabled nonzero small).1
  · by_cases beyond : RoundsBeyond (bitsAt before 30 2) maxDouble (2 ^ 1024) v
    · cases oe : bitAt before 25 with
      | true => exact number (h.enabledOverflow oe beyond).1
      | false =>
        rw [(h.overflow oe beyond).1]
        exact isNan_overflowed _ _
    · exact number (h.notBeyond (not_le.1 le) beyond).1

end

/-! #### Instructions -/

section

variable {s : State} {i : Instr} {frt : RegNum} {rc zero : Bool} {z : Exact} {v : ℚ}

/-- An instruction that delivers an exact result. -/
theorem rounds_of_ends (fp : s.msrFP = true) (ends : s.FloatEnds i frt rc (deliverExact z s.fpRN s.fpOE s.fpUE))
    (h : z.For v zero) : FloatCompletes s i frt rc fun u =>
      Delivers s.fpscr u.fpscr (u.freg frt) v zero ∧ bitsAt u.fpscr 15 5 = resultClass (u.freg frt) := by
  obtain ⟨r, bits, frFi, out, delivers⟩ := deliverExact_delivers h s.fpscr
  have within := onlyExceptions_deliverExact z s.fpRN s.fpOE s.fpUE
  refine floatCompletes_of_ends fp ends fun u fpscr freg => ?_
  change deliverExact z s.fpRN s.fpOE s.fpUE = _ at out
  rw [out] at fpscr freg within
  have result : u.freg frt = r := freg
  have given := delivers (delivered r bits frFi) rfl rfl
  rw [fpscr, result]
  refine ⟨given, ?_⟩
  rw [FpOut.fpscr_class within, ← fpClass_eq_resultClass given.isNan_eq_false]
  rfl

theorem fpMag_negated (x : DWord) : fpMag (negated x) = fpMag x := congrArg BitVec.toNat (negated_sign x).2

theorem isNan_negated (x : DWord) : isNan (negated x) = isNan x := by
  rw [Bool.eq_iff_iff, isNan_iff, isNan_iff, fpMag_negated]

/-- The same, with the result negated (R554). -/
theorem negates_of_ends (fp : s.msrFP = true)
    (ends : s.FloatEnds i frt rc (negateIf true (deliverExact z s.fpRN s.fpOE s.fpUE))) (h : z.For v zero) :
    FloatCompletes s i frt rc fun u => Delivers s.fpscr u.fpscr (u.freg frt ^^^ 0x8000000000000000) v zero
      ∧ bitsAt u.fpscr 15 5 = resultClass (u.freg frt) := by
  obtain ⟨r, bits, frFi, out, delivers⟩ := deliverExact_delivers h s.fpscr
  have within := onlyExceptions_deliverExact z s.fpRN s.fpOE s.fpUE
  change deliverExact z s.fpRN s.fpOE s.fpUE = _ at out
  rw [out] at ends within
  have number := (delivers (delivered r bits frFi) rfl rfl).isNan_eq_false
  rw [negateIf_true, negate_delivered number] at ends
  refine floatCompletes_of_ends fp ends fun u fpscr freg => ?_
  have result : u.freg frt = negated r := freg
  have given := delivers (delivered (negated r) bits frFi) rfl rfl
  have twice : negated r ^^^ 0x8000000000000000 = r := by
    unfold negated
    rw [BitVec.xor_assoc, BitVec.xor_self, BitVec.xor_zero]
  rw [fpscr, result, twice]
  refine ⟨given, ?_⟩
  rw [FpOut.fpscr_class (o := delivered (negated r) bits frFi) within, ← fpClass_eq_resultClass ((isNan_negated r).trans number)]
  rfl

end

/-! #### Exact results in range of the template -/

theorem Exact.Is.isFor {z : Exact} {v : ℚ} {zero : Bool} (h : z.Is v) (sign : v = 0 → z.sign = zero)
    (low : -2500 ≤ z.exp) (high : |v| < 2 ^ (2500 : Int)) : z.For v zero where
  holds := h.holds
  sign := by
    by_cases v0 : v = 0
    · rw [if_pos v0, sign v0]
    · rw [if_neg v0]
      have value : v = signed z.sign |v| := by
        rw [h.abs]
        exact h.value
      obtain ⟨negative, -⟩ := neg_iff_of_signed value v0
      rw [Bool.eq_iff_iff, decide_eq_true_iff, negative]
  precise s := by
    rw [h.precise] at s
    cases s
  low _ := by
    unfold Exact.top
    omega
  high nonzero := by
    obtain ⟨top, -⟩ := h.holds.top nonzero
    exact ((zpow_lt_zpow_iff_right₀ (by norm_num)).1 (top.trans_lt high)).le

theorem abs_fpValue_lt {x : DWord} (h : fpFinite x = true) : |fpValue x| < 2 ^ (1024 : Int) := by
  obtain ⟨mant, -, exp⟩ := exactOf_bounds x
  have two : (2 : ℚ) ≠ 0 := by norm_num
  have mantissa : ((exactOf x).mant : ℚ) < 2 ^ (53 : Int) := by exact_mod_cast mant
  rw [(exactOf_is x).abs]
  calc ((exactOf x).mant : ℚ) * 2 ^ (exactOf x).exp < 2 ^ (53 : Int) * 2 ^ (exactOf x).exp :=
        mul_lt_mul_of_pos_right mantissa (two_zpow_pos _)
    _ ≤ 2 ^ (53 : Int) * 2 ^ (971 : Int) :=
        mul_le_mul_of_nonneg_left (zpow_le_zpow_right₀ (by norm_num) (exp h)) (two_zpow_pos _).le
    _ = 2 ^ (1024 : Int) := by rw [← zpow_add₀ two]; rfl

theorem exactDiv_fields (a b : Exact) : (exactDiv a b).sign = (a.sign != b.sign)
    ∧ (exactDiv a b).mant = a.mant <<< 118 / b.mant ∧ (exactDiv a b).exp = a.exp - b.exp - 118
    ∧ (exactDiv a b).sticky = (a.mant <<< 118 % b.mant != 0) := by
  unfold exactDiv
  generalize a.mant <<< 118 = n
  exact ⟨rfl, rfl, rfl, rfl⟩

theorem exactDiv_holds {a b : Exact} {v w : ℚ} (ha : a.Is v) (hb : b.Is w) (nonzero : b.mant ≠ 0) :
    (exactDiv a b).Holds |v / w| := by
  have two : (2 : ℚ) ≠ 0 := by norm_num
  have unit := two_zpow_pos (a.exp - b.exp - 118)
  have pos : (0 : ℚ) < b.mant := Nat.cast_pos.2 (Nat.pos_of_ne_zero nonzero)
  have value : |v / w| = ((a.mant <<< 118 : Nat) : ℚ) / b.mant * 2 ^ (a.exp - b.exp - 118) := by
    rw [abs_div, ha.abs, hb.abs, Nat.shiftLeft_eq, zpow_sub₀ two, zpow_sub₀ two, Nat.cast_mul, Nat.cast_pow,
      Nat.cast_ofNat, show (2 : ℚ) ^ (118 : Int) = 2 ^ 118 from rfl]
    field_simp
  have split : ((a.mant <<< 118 : Nat) : ℚ) / b.mant
      = ((a.mant <<< 118 / b.mant : Nat) : ℚ) + ((a.mant <<< 118 % b.mant : Nat) : ℚ) / b.mant := by
    have whole : ((a.mant <<< 118 : Nat) : ℚ)
        = ((a.mant <<< 118 / b.mant : Nat) : ℚ) * b.mant + ((a.mant <<< 118 % b.mant : Nat) : ℚ) := by
      exact_mod_cast (Nat.div_add_mod' _ _).symm
    rw [whole, add_div, mul_div_cancel_right₀ _ pos.ne']
  have less : ((a.mant <<< 118 % b.mant : Nat) : ℚ) / b.mant < 1 := by
    rw [div_lt_one pos]
    exact Nat.cast_lt.2 (Nat.mod_lt _ (Nat.pos_of_ne_zero nonzero))
  have nonneg : (0 : ℚ) ≤ ((a.mant <<< 118 % b.mant : Nat) : ℚ) / b.mant := div_nonneg (Nat.cast_nonneg _) pos.le
  obtain ⟨-, mant, exp, sticky⟩ := exactDiv_fields a b
  rw [value, split]
  refine ⟨?_, ?_, ?_⟩
  · rw [mant, exp]
    exact mul_le_mul_of_nonneg_right (le_add_of_nonneg_right nonneg) unit.le
  · rw [mant, exp]
    refine mul_lt_mul_of_pos_right ?_ unit
    linarith
  · rw [mant, exp, sticky, mul_left_inj' unit.ne', bne_eq_false_iff_eq, add_eq_left, div_eq_zero_iff, or_iff_left pos.ne',
      Nat.cast_eq_zero]

/-- The quotient of numbers that are not zero (R553, R596). -/
theorem exactDiv_for {a b : Exact} {v w : ℚ} {zero : Bool} (ha : a.Is v) (hb : b.Is w) (nonzero : w ≠ 0)
    (sign : (a.sign != b.sign) = zero) (bmant : b.mant < 2 ^ 53) (aexp : -1074 ≤ a.exp)
    (bexp : -1074 ≤ b.exp ∧ b.exp ≤ 971) (av : |v| < 2 ^ (1024 : Int)) : (exactDiv a b).For (v / w) zero := by
  have two : (2 : ℚ) ≠ 0 := by norm_num
  have mantNonzero : b.mant ≠ 0 := fun m0 => nonzero (by
    rw [hb.value, m0]
    unfold signed
    simp)
  have holds := exactDiv_holds ha hb mantNonzero
  have bpos := Nat.pos_of_ne_zero mantNonzero
  obtain ⟨signs, mant, exp, sticky⟩ := exactDiv_fields a b
  refine ⟨holds, ?_, fun s => ?_, fun _ => ?_, fun m0 => ?_⟩
  · by_cases v0 : v / w = 0
    · rw [if_pos v0, signs]
      exact sign
    · rw [if_neg v0, signs]
      have value : v / w = signed (a.sign != b.sign) |v / w| := by
        rw [abs_div, ha.abs, hb.abs]
        conv_lhs => rw [ha.value, hb.value]
        unfold signed
        cases a.sign <;> cases b.sign <;> simp [neg_div, div_neg]
      obtain ⟨negative, -⟩ := neg_iff_of_signed value v0
      rw [Bool.eq_iff_iff, decide_eq_true_iff, negative]
  · have more : a.mant <<< 118 % b.mant ≠ 0 := by
      rwa [sticky, bne_iff_ne] at s
    have apos : 1 ≤ a.mant := Nat.pos_of_ne_zero fun a0 => more (by rw [a0, Nat.zero_shiftLeft, Nat.zero_mod])
    have large : 2 ^ 64 ≤ a.mant <<< 118 / b.mant := by
      rw [Nat.le_div_iff_mul_le bpos, Nat.shiftLeft_eq]
      calc 2 ^ 64 * b.mant ≤ 2 ^ 64 * 2 ^ 53 := Nat.mul_le_mul_left _ bmant.le
        _ ≤ 1 * 2 ^ 118 := by decide
        _ ≤ a.mant * 2 ^ 118 := Nat.mul_le_mul_right _ apos
    rw [mant]
    exact (Nat.le_log2 (Nat.ne_of_gt ((Nat.two_pow_pos 64).trans_le large))).2 large
  · unfold Exact.top
    rw [exp]
    omega
  · obtain ⟨top, -⟩ := holds.top m0
    have least : (2 : ℚ) ^ (-1074 : Int) ≤ |w| := by
      rw [hb.abs]
      calc (2 : ℚ) ^ (-1074 : Int) ≤ 2 ^ b.exp := zpow_le_zpow_right₀ (by norm_num) bexp.1
        _ ≤ b.mant * 2 ^ b.exp := le_mul_of_one_le_left (two_zpow_pos _).le (by exact_mod_cast bpos)
    have bound : |v / w| < 2 ^ (2500 : Int) := by
      rw [abs_div, div_lt_iff₀ (abs_pos.2 nonzero)]
      calc |v| < 2 ^ (1024 : Int) := av
        _ ≤ 2 ^ (2500 : Int) * 2 ^ (-1074 : Int) := by
          rw [← zpow_add₀ two]
          exact zpow_le_zpow_right₀ (by norm_num) (by norm_num)
        _ ≤ 2 ^ (2500 : Int) * |w| := mul_le_mul_of_nonneg_left least (two_zpow_pos _).le
    exact ((zpow_lt_zpow_iff_right₀ (by norm_num)).1 (top.trans_lt bound)).le

/-! #### Sums, products, multiply-adds -/

theorem fpValue_negated (x : DWord) : fpValue (negated x) = -fpValue x := by
  rw [fpValue_signed, fpValue_signed, fpMag_negated, (negated_sign x).1]
  unfold signed
  cases fpSign x <;> simp

theorem fpFinite_negated (x : DWord) : fpFinite (negated x) = fpFinite x := by
  rw [Bool.eq_iff_iff, fpFinite_iff, fpFinite_iff, fpMag_negated]

/-- The sign of an exact zero that is a sum (R552). -/
def zeroSign (rn : BitVec 2) (x y : Bool) : Bool := if x = y then x else rn == 3

theorem exactAdd_for (rn : BitVec 2) {a b : Exact} {v w : ℚ} (ha : a.Is v) (hb : b.Is w) (aexp : -2500 ≤ a.exp)
    (bexp : -2500 ≤ b.exp) (av : |v| < 2 ^ (2499 : Int)) (bw : |w| < 2 ^ (2499 : Int)) :
    (exactAdd rn a b).For (v + w) (zeroSign rn a.sign b.sign) := by
  refine (exactAdd_is rn ha hb).isFor (fun v0 => ?_) (le_min aexp bexp) ?_
  · rw [exactAdd_sign rn ha hb, if_pos v0]
    rfl
  · have two : (2 : ℚ) ≠ 0 := by norm_num
    have twice : (2 : ℚ) ^ (2500 : Int) = 2 ^ (2499 : Int) + 2 ^ (2499 : Int) := by
      rw [← mul_two, ← zpow_add_one₀ two]
      rfl
    rw [twice]
    exact (abs_add_le v w).trans_lt (add_lt_add av bw)

theorem lt_of_abs_fpValue_lt {x : DWord} (h : fpFinite x = true) {k : Int} (hk : 1024 ≤ k) : |fpValue x| < 2 ^ k :=
  (abs_fpValue_lt h).trans_le (zpow_le_zpow_right₀ (by norm_num) hk)

theorem abs_product_lt {x y : DWord} (hx : fpFinite x = true) (hy : fpFinite y = true) :
    |fpValue x * fpValue y| < 2 ^ (2048 : Int) := by
  have two : (2 : ℚ) ≠ 0 := by norm_num
  rw [abs_mul, show (2048 : Int) = 1024 + 1024 by norm_num, zpow_add₀ two]
  exact mul_lt_mul'' (abs_fpValue_lt hx) (abs_fpValue_lt hy) (abs_nonneg _) (abs_nonneg _)

section

variable {s : State} {a b c : DWord}

theorem sum_for (rn : BitVec 2) (ha : fpFinite a = true) (hb : fpFinite b = true) :
    (exactAdd rn (exactOf a) (exactOf b)).For (fpValue a + fpValue b) (zeroSign rn (fpSign a) (fpSign b)) := by
  rw [← exactOf_sign a, ← exactOf_sign b]
  obtain ⟨-, aexp, -⟩ := exactOf_bounds a
  obtain ⟨-, bexp, -⟩ := exactOf_bounds b
  exact exactAdd_for rn (exactOf_is a) (exactOf_is b) (by omega) (by omega) (lt_of_abs_fpValue_lt ha (by norm_num))
    (lt_of_abs_fpValue_lt hb (by norm_num))

theorem product_for (ha : fpFinite a = true) (hc : fpFinite c = true) :
    (exactMul (exactOf a) (exactOf c)).For (fpValue a * fpValue c) (fpSign a != fpSign c) := by
  rw [← exactOf_sign a, ← exactOf_sign c]
  obtain ⟨-, aexp, -⟩ := exactOf_bounds a
  obtain ⟨-, cexp, -⟩ := exactOf_bounds c
  refine (exactMul_is (exactOf_is a) (exactOf_is c)).isFor (fun _ => rfl) ?_
    ((abs_product_lt ha hc).trans_le (zpow_le_zpow_right₀ (by norm_num) (by norm_num)))
  show -2500 ≤ (exactOf a).exp + (exactOf c).exp
  omega

theorem fused_for (rn : BitVec 2) (ha : fpFinite a = true) (hb : fpFinite b = true) (hc : fpFinite c = true) :
    (exactAdd rn (exactMul (exactOf a) (exactOf c)) (exactOf b)).For (fpValue a * fpValue c + fpValue b)
      (zeroSign rn (fpSign a != fpSign c) (fpSign b)) := by
  rw [← exactOf_sign a, ← exactOf_sign b, ← exactOf_sign c]
  obtain ⟨-, aexp, -⟩ := exactOf_bounds a
  obtain ⟨-, bexp, -⟩ := exactOf_bounds b
  obtain ⟨-, cexp, -⟩ := exactOf_bounds c
  refine exactAdd_for rn (exactMul_is (exactOf_is a) (exactOf_is c)) (exactOf_is b) ?_ (by omega)
    ((abs_product_lt ha hc).trans_le (zpow_le_zpow_right₀ (by norm_num) (by norm_num)))
    (lt_of_abs_fpValue_lt hb (by norm_num))
  show -2500 ≤ (exactOf a).exp + (exactOf c).exp
  omega

theorem quotient_for (ha : fpFinite a = true) (hb : fpFinite b = true) (nonzero : fpValue b ≠ 0) :
    (exactDiv (exactOf a) (exactOf b)).For (fpValue a / fpValue b) (fpSign a != fpSign b) := by
  obtain ⟨-, aexp, -⟩ := exactOf_bounds a
  obtain ⟨bmant, bexp, bhigh⟩ := exactOf_bounds b
  exact exactDiv_for (exactOf_is a) (exactOf_is b) nonzero (by rw [exactOf_sign, exactOf_sign]) bmant aexp
    ⟨bexp, bhigh hb⟩ (abs_fpValue_lt ha)

theorem fpSum_finite (ha : fpFinite a = true) (hb : fpFinite b = true) {ops : List DWord}
    (numbers : ∀ y ∈ ops, isNan y = false) :
    fpSum s a b ops = deliverExact (exactAdd s.fpRN (exactOf a) (exactOf b)) s.fpRN s.fpOE s.fpUE := by
  have infA := isInf_eq_false_of_finite ha
  have infB := isInf_eq_false_of_finite hb
  rw [fpSum_valid (fun inf _ => by rw [infA] at inf; cases inf) numbers, infA, infB, if_neg Bool.false_ne_true,
    if_neg Bool.false_ne_true]

theorem fpProduct_finite (ha : fpFinite a = true) (hc : fpFinite c = true) :
    fpProduct s a c = deliverExact (exactMul (exactOf a) (exactOf c)) s.fpRN s.fpOE s.fpUE := by
  have infA := isInf_eq_false_of_finite ha
  have infC := isInf_eq_false_of_finite hc
  have imz : zeroTimesInf a c = false := by
    unfold zeroTimesInf
    rw [infA, infC, Bool.and_false]
    rfl
  rw [fpProduct_valid imz (numbers_pair (isNan_eq_false_of_finite ha) (isNan_eq_false_of_finite hc)), infA, infC, Bool.or_self,
    if_neg Bool.false_ne_true]

theorem fpQuotient_finite (ha : fpFinite a = true) (hb : fpFinite b = true) (nonzero : fpValue b ≠ 0) :
    fpQuotient s a b = deliverExact (exactDiv (exactOf a) (exactOf b)) s.fpRN s.fpOE s.fpUE := by
  have infA := isInf_eq_false_of_finite ha
  have infB := isInf_eq_false_of_finite hb
  have zero : isZero b = false := Bool.eq_false_iff.2 fun z =>
    nonzero ((fpValue_eq_zero_iff b).2 ((isZero_iff b).1 z))
  rw [fpQuotient_valid (by rw [infA]; rfl) (by rw [zero, Bool.and_false])
    (numbers_pair (isNan_eq_false_of_finite ha) (isNan_eq_false_of_finite hb)), infA, infB, zero,
    if_neg Bool.false_ne_true, if_neg Bool.false_ne_true, if_neg Bool.false_ne_true]

theorem fpMulAdd_finite (minus neg : Bool) (ha : fpFinite a = true) (hb : fpFinite b = true) (hc : fpFinite c = true) :
    fpMulAdd s a b c minus neg = negateIf neg (deliverExact
      (exactAdd s.fpRN (exactMul (exactOf a) (exactOf c)) (exactOf (addend minus b))) s.fpRN s.fpOE s.fpUE) := by
  have infA := isInf_eq_false_of_finite ha
  have infB := isInf_eq_false_of_finite hb
  have infC := isInf_eq_false_of_finite hc
  have imz : zeroTimesInf a c = false := by
    unfold zeroTimesInf
    rw [infA, infC, Bool.and_false]
    rfl
  rw [fpMulAdd_valid minus neg imz (fun _ inf => by rw [infB] at inf; cases inf)
    (numbers_triple (isNan_eq_false_of_finite ha) (isNan_eq_false_of_finite hb) (isNan_eq_false_of_finite hc)), infA,
    infB, infC, Bool.or_self, if_neg Bool.false_ne_true, if_neg Bool.false_ne_true]

end

end Sys2Proof.Machine

end

/-! ### The square root, and the arithmetic instructions together (R593 to R600, R604) -/

section

namespace Sys2Proof.Machine

/-! #### The root to 64 bits (R604) -/

theorem sqrtFrom_spec {v : Nat} (n r : Nat) (low : r * r ≤ v) (high : v < (r + 2 ^ n) * (r + 2 ^ n)) :
    sqrtFrom v n r * sqrtFrom v n r ≤ v ∧ v < (sqrtFrom v n r + 1) * (sqrtFrom v n r + 1) := by
  induction n generalizing r with
  | zero => exact ⟨low, high⟩
  | succ n ih =>
    unfold sqrtFrom
    split
    · next le =>
      refine ih _ le ?_
      rwa [add_assoc, ← mul_two, ← pow_succ]
    · next gt => exact ih _ low (not_le.1 gt)

/-- What is under the root: an even power of two in front of it. -/
def rootOdd (z : Exact) : Nat := (z.exp % 2).toNat

def rootRadicand (z : Exact) : Nat := z.mant <<< (130 + rootOdd z)

theorem exactSqrt_eq (z : Exact) : exactSqrt z
    = ⟨z.sign, sqrtFrom (rootRadicand z) 96 0, (z.exp - rootOdd z) / 2 - 65,
      sqrtFrom (rootRadicand z) 96 0 * sqrtFrom (rootRadicand z) 96 0 != rootRadicand z⟩ := rfl

theorem exactSqrt_fields (z : Exact) : (exactSqrt z).sign = z.sign ∧ (exactSqrt z).mant = sqrtFrom (rootRadicand z) 96 0
    ∧ (exactSqrt z).exp = (z.exp - rootOdd z) / 2 - 65
    ∧ (exactSqrt z).sticky = ((exactSqrt z).mant * (exactSqrt z).mant != rootRadicand z) := by
  rw [exactSqrt_eq]
  generalize sqrtFrom (rootRadicand z) 96 0 = r
  exact ⟨rfl, rfl, rfl, rfl⟩

theorem rootRadicand_bounds {z : Exact} (nonzero : z.mant ≠ 0) (small : z.mant < 2 ^ 53) :
    2 ^ 130 ≤ rootRadicand z ∧ rootRadicand z < 2 ^ 184 := by
  have odd : rootOdd z ≤ 1 := by unfold rootOdd; omega
  have pos : 1 ≤ z.mant := Nat.pos_of_ne_zero nonzero
  unfold rootRadicand
  rw [Nat.shiftLeft_eq]
  constructor
  · calc 2 ^ 130 ≤ 2 ^ (130 + rootOdd z) := Nat.pow_le_pow_right (by decide) (by omega)
      _ ≤ z.mant * 2 ^ (130 + rootOdd z) := Nat.le_mul_of_pos_left _ pos
  · calc z.mant * 2 ^ (130 + rootOdd z) < 2 ^ 53 * 2 ^ (130 + rootOdd z) :=
          Nat.mul_lt_mul_of_pos_right small (Nat.two_pow_pos _)
      _ ≤ 2 ^ 53 * 2 ^ 131 := Nat.mul_le_mul_left _ (Nat.pow_le_pow_right (by decide) (by omega))
      _ = 2 ^ 184 := by rw [← pow_add]

theorem exactSqrt_square {z : Exact} (nonzero : z.mant ≠ 0) (small : z.mant < 2 ^ 53) :
    (exactSqrt z).mant * (exactSqrt z).mant ≤ rootRadicand z
      ∧ rootRadicand z < ((exactSqrt z).mant + 1) * ((exactSqrt z).mant + 1) := by
  rw [(exactSqrt_fields z).2.1]
  refine sqrtFrom_spec 96 0 (Nat.zero_le _) ((rootRadicand_bounds nonzero small).2.trans_le ?_)
  rw [Nat.zero_add, ← pow_add]
  exact Nat.pow_le_pow_right (by decide) (by decide)

theorem exactSqrt_mant {z : Exact} (nonzero : z.mant ≠ 0) (small : z.mant < 2 ^ 53) :
    2 ^ 65 ≤ (exactSqrt z).mant ∧ (exactSqrt z).mant < 2 ^ 92 := by
  obtain ⟨low, high⟩ := exactSqrt_square nonzero small
  obtain ⟨least, most⟩ := rootRadicand_bounds nonzero small
  constructor
  · refine Nat.lt_succ_iff.1 (Nat.mul_self_lt_mul_self_iff.1 ?_)
    rw [← pow_add]
    exact least.trans_lt high
  · refine Nat.mul_self_lt_mul_self_iff.1 ?_
    rw [← pow_add]
    exact low.trans_lt most

theorem exactSqrt_log2 {z : Exact} (nonzero : z.mant ≠ 0) (small : z.mant < 2 ^ 53) :
    65 ≤ Nat.log2 (exactSqrt z).mant ∧ Nat.log2 (exactSqrt z).mant < 92 := by
  obtain ⟨low, high⟩ := exactSqrt_mant nonzero small
  have ne : (exactSqrt z).mant ≠ 0 := Nat.ne_of_gt ((Nat.two_pow_pos 65).trans_le low)
  exact ⟨(Nat.le_log2 ne).2 low, (Nat.log2_lt ne).2 high⟩

/-- The real root, between the two numbers of its bits. -/
theorem exactSqrt_holds {z : Exact} {b : ℚ} (h : z.Is b) (nonneg : 0 ≤ b) (nonzero : z.mant ≠ 0)
    (small : z.mant < 2 ^ 53) : (exactSqrt z).Holds (√(b : ℝ)) := by
  have two : (2 : ℝ) ≠ 0 := by norm_num
  have unit : (0 : ℝ) < 2 ^ (exactSqrt z).exp := zpow_pos (by norm_num) _
  obtain ⟨-, -, exp, sticky⟩ := exactSqrt_fields z
  have value : √(b : ℝ) = √(rootRadicand z : ℝ) * 2 ^ (exactSqrt z).exp := by
    have square : (b : ℝ) = (rootRadicand z : ℝ) * (2 ^ (exactSqrt z).exp) ^ 2 := by
      have magnitude : b = (z.mant : ℚ) * 2 ^ z.exp := by rw [← h.abs, abs_of_nonneg nonneg]
      have odd : z.exp = (rootOdd z : Int) + 2 * ((exactSqrt z).exp + 65) := by
        rw [exp]
        unfold rootOdd
        omega
      rw [magnitude]
      unfold rootRadicand
      rw [Nat.shiftLeft_eq, ← zpow_natCast, ← zpow_mul]
      push_cast
      rw [← zpow_natCast (2 : ℝ), mul_assoc, ← zpow_add₀ two, odd]
      congr 2
      push_cast
      omega
    rw [square, Real.sqrt_mul (Nat.cast_nonneg _), Real.sqrt_sq unit.le]
  obtain ⟨low, high⟩ := exactSqrt_square nonzero small
  have nonnegRoot : (0 : ℝ) ≤ (exactSqrt z).mant := Nat.cast_nonneg _
  have exact_iff : √(rootRadicand z : ℝ) = (exactSqrt z).mant ↔ (exactSqrt z).sticky = false := by
    rw [sticky, bne_eq_false_iff_eq, Real.sqrt_eq_iff_mul_self_eq (Nat.cast_nonneg _) nonnegRoot]
    rw [eq_comm]
    exact_mod_cast Iff.rfl
  rw [value]
  refine ⟨mul_le_mul_of_nonneg_right (Real.le_sqrt_of_sq_le ?_) unit.le,
    mul_lt_mul_of_pos_right ((Real.sqrt_lt' (by linarith)).2 ?_) unit, ?_⟩
  · rw [sq]
    exact_mod_cast low
  · rw [sq]
    exact_mod_cast high
  · rw [mul_left_inj' unit.ne', exact_iff]

/-! #### Numbers and the root -/

section

variable {b y : ℚ}

theorem le_root_iff (hb : 0 ≤ b) (hy : 0 ≤ y) : (y : ℝ) ≤ √(b : ℝ) ↔ y ^ 2 ≤ b := by
  rw [Real.le_sqrt (by exact_mod_cast hy) (by exact_mod_cast hb)]
  exact_mod_cast Iff.rfl

theorem root_le_iff (hy : 0 ≤ y) : √(b : ℝ) ≤ y ↔ b ≤ y ^ 2 := by
  rw [Real.sqrt_le_left (by exact_mod_cast hy)]
  exact_mod_cast Iff.rfl

theorem root_eq_iff (hb : 0 ≤ b) (hy : 0 ≤ y) : (y : ℝ) = √(b : ℝ) ↔ y ^ 2 = b := by
  rw [le_antisymm_iff, le_antisymm_iff, le_root_iff hb hy, root_le_iff hy]

end

/-- `r` is the number that rounding makes of the root of `b` (R530), as the obligation says it. -/
structure RoundedRoot (rn : BitVec 2) (r b : ℚ) : Prop where
  nearest : rn = 0 → ∀ y, fpFinite y = true → 0 ≤ fpValue y →
    (fpValue y < r → ((fpValue y + r) / 2) ^ 2 ≤ b) ∧ (r < fpValue y → b ≤ ((fpValue y + r) / 2) ^ 2)
  floor : rn = 1 ∨ rn = 3 →
    r ^ 2 ≤ b ∧ ∀ y, fpFinite y = true → 0 ≤ fpValue y → fpValue y ^ 2 ≤ b → fpValue y ≤ r
  ceil : rn = 2 → b ≤ r ^ 2 ∧ ∀ y, fpFinite y = true → 0 ≤ fpValue y → b ≤ fpValue y ^ 2 → r ≤ fpValue y

/-- The middle between the nearest number and another lies on the other's side. -/
theorem middle_of_nearest {n u x : ℝ} (near : |n - x| ≤ |u - x|) :
    (u < n → (u + n) / 2 ≤ x) ∧ (n < u → x ≤ (u + n) / 2) := by
  constructor
  · intro lt
    by_contra above
    have gt := not_le.1 above
    rw [abs_of_pos (by linarith)] at near
    have : |u - x| < n - x := abs_lt.2 ⟨by linarith, by linarith⟩
    linarith
  · intro lt
    by_contra above
    have gt := not_le.1 above
    rw [abs_of_neg (a := n - x) (by linarith)] at near
    have : |u - x| < -(n - x) := abs_lt.2 ⟨by linarith, by linarith⟩
    linarith

theorem OnGrid.cast {least : Nat} {u : ℚ} (h : OnGrid least u) : OnGrid least (u : ℝ) := by
  obtain le | ⟨k, rfl⟩ := h
  · exact .inl (by exact_mod_cast le)
  · exact .inr ⟨k, by push_cast; rfl⟩

/-- A number of units of `2 ^ q` that the root was rounded to, among numbers that are multiples of the unit from `least`
units on. -/
theorem roundedRoot_of_roundsNat {rn : BitVec 2} {n least : Nat} {b : ℚ} {q : Int} (hb : 0 ≤ b)
    (rounded : RoundsNat rn false n (√(b : ℝ) / 2 ^ q)) (large : (least : ℝ) ≤ √(b : ℝ) / 2 ^ q)
    (grid : ∀ y, OnGrid least (magValue (fpMag y) / 2 ^ q)) : RoundedRoot rn (n * 2 ^ q) b := by
  have unit : (0 : ℝ) < 2 ^ q := zpow_pos (by norm_num) _
  have nonneg : (0 : ℚ) ≤ n * 2 ^ q := mul_nonneg (Nat.cast_nonneg _) (two_zpow_pos q).le
  have units : (((n * 2 ^ q : ℚ)) : ℝ) = n * 2 ^ q := by push_cast; rfl
  have value (y : DWord) : (fpValue y : ℝ) = ((fpValue y / 2 ^ q : ℚ) : ℝ) * 2 ^ q := by
    push_cast
    rw [div_mul_cancel₀ _ unit.ne']
  have onGrid (y : DWord) (hy : 0 ≤ fpValue y) : OnGrid least ((fpValue y / 2 ^ q : ℚ) : ℝ) := by
    rw [← abs_of_nonneg hy, abs_fpValue]
    exact (grid y).cast
  refine ⟨fun mode y _ hy => ?_, fun mode => ⟨?_, fun y _ hy le => ?_⟩, fun mode => ⟨?_, fun y _ hy le => ?_⟩⟩
  · obtain ⟨below, above⟩ := middle_of_nearest (rounded.nearest_least mode large (onGrid y hy))
    have half : (((fpValue y + n * 2 ^ q) / 2 : ℚ) : ℝ) = (((fpValue y / 2 ^ q : ℚ) : ℝ) + n) / 2 * 2 ^ q := by
      rw [Rat.cast_div, Rat.cast_add, value y, units]
      push_cast
      ring
    have order (u v : ℚ) : u < v ↔ (u : ℝ) < v := by exact_mod_cast Iff.rfl
    have halfNonneg : 0 ≤ (fpValue y + n * 2 ^ q) / 2 := by linarith
    rw [order, order, units, value y, mul_lt_mul_iff_left₀ unit, mul_lt_mul_iff_left₀ unit, ← le_root_iff hb halfNonneg,
      ← root_le_iff halfNonneg, half, ← le_div_iff₀ unit, ← div_le_iff₀ unit]
    exact ⟨below, above⟩
  · rw [← le_root_iff hb nonneg, units, ← le_div_iff₀ unit]
    exact (rounded.floor (mode.imp_right fun m => .inr ⟨m, rfl⟩)).1
  · rw [← le_root_iff hb hy, value y, ← le_div_iff₀ unit] at le
    have := rounded.floor_greatest (mode.imp_right fun m => .inr ⟨m, rfl⟩) large (onGrid y hy) le
    rw [← div_le_iff₀ (two_zpow_pos q)]
    exact_mod_cast this
  · rw [← root_le_iff nonneg, units, ← div_le_iff₀ unit]
    exact (rounded.ceil (.inl ⟨mode, rfl⟩)).1
  · rw [← root_le_iff hy, value y, ← div_le_iff₀ unit] at le
    have := rounded.ceil_least (.inl ⟨mode, rfl⟩) large (onGrid y hy) le
    rw [← le_div_iff₀ (two_zpow_pos q)]
    exact_mod_cast this

/-! #### What fsqrt delivers (R604) -/

/-- The root of a number that is not zero. -/
theorem deliverExact_sqrt {x : DWord} (finite : fpFinite x = true) (nonneg : 0 ≤ fpValue x) (nonzero : fpValue x ≠ 0)
    (sign : fpSign x = false) (rn : BitVec 2) (oe ue : Bool) :
    ∃ r inc inexact, deliverExact (exactSqrt (exactOf x)) rn oe ue
        = delivered r (if inexact then xxBit else 0) (some (inc, inexact))
      ∧ fpFinite r = true ∧ fpSign r = false ∧ 0 ≤ fpValue r ∧ RoundedRoot rn (fpValue r) (fpValue x)
      ∧ inc = decide (fpValue x < fpValue r ^ 2) ∧ inexact = decide (fpValue r ^ 2 ≠ fpValue x) := by
  have mantNonzero : (exactOf x).mant ≠ 0 := (exactOf_mant_eq_zero x).not.2 nonzero
  obtain ⟨small, expLow, expHigh⟩ := exactOf_bounds x
  have holds := exactSqrt_holds (exactOf_is x) nonneg mantNonzero small
  obtain ⟨bitsLow, bitsHigh⟩ := exactSqrt_log2 mantNonzero small
  obtain ⟨signs, -, exp, -⟩ := exactSqrt_fields (exactOf x)
  have rootNonzero : (exactSqrt (exactOf x)).mant ≠ 0 := fun m0 => by
    rw [m0] at bitsLow
    simp at bitsLow
  have positive : (exactSqrt (exactOf x)).sign = false := signs.trans ((exactOf_sign x).trans sign)
  have odd : rootOdd (exactOf x) ≤ 1 := by unfold rootOdd; omega
  have top : -1022 ≤ (exactSqrt (exactOf x)).top ∧ (exactSqrt (exactOf x)).top ≤ 1000 := by
    have := expHigh finite
    unfold Exact.top
    omega
  obtain ⟨n, rounds⟩ := holds.roundTo rootNonzero (p := 53) (by decide) (fun _ => by omega) rn
  generalize exactSqrt (exactOf x) = z at *
  obtain ⟨mant, roundedLow, roundedHigh⟩ := rounds.bounds (by decide)
  obtain ⟨value, -⟩ := rounds.packed_value (last := 0) (k := 0) (m := (z.roundTo 53 rn).mant) (by decide)
    (Nat.mul_one _).symm (by omega) (by omega)
  have delivers := deliverExact_normal (z := z) (rn := rn) (oe := oe) (ue := ue) rootNonzero (by omega) (by omega)
  have finiteRoot := packNormal_finite z.sign (e := (z.roundTo 53 rn).exp) ⟨by omega, by omega⟩ mant
  have signRoot := (packNormal_spec z.sign (e := (z.roundTo 53 rn).exp) ⟨by omega, by omega⟩ mant).1
  rw [add_zero] at value
  generalize packNormal z.sign (z.roundTo 53 rn).exp (z.roundTo 53 rn).mant = r at *
  have result : fpValue r = n * 2 ^ (z.top - 52) := by
    rw [value, positive, add_zero]
    rfl
  have unit : (0 : ℝ) < 2 ^ (z.top - 52) := zpow_pos (by norm_num) _
  have nonnegRoot : 0 ≤ fpValue r := by
    rw [result]
    exact mul_nonneg (Nat.cast_nonneg _) (two_zpow_pos _).le
  have resultReal : (fpValue r : ℝ) = n * 2 ^ (z.top - 52) := by
    rw [result]
    push_cast
    rfl
  obtain ⟨rounded, least, -, -, -, inc, inexact, -⟩ := rounds
  rw [positive] at rounded
  refine ⟨r, _, _, delivers, finiteRoot, signRoot.trans positive, nonnegRoot, ?_, ?_, ?_⟩
  · rw [result]
    refine roundedRoot_of_roundsNat nonneg rounded least fun y => magValue_onGrid (last := 0) (by decide) (Nat.mod_one _) ?_
    show (-1074 : Int) ≤ z.top - 52
    omega
  · rw [Bool.eq_iff_iff, decide_eq_true_iff, inc, ← not_le (b := fpValue x), ← le_root_iff nonneg nonnegRoot, not_le, resultReal]
    exact div_lt_iff₀ unit
  · rw [Bool.eq_iff_iff, decide_eq_true_iff, inexact, ne_eq, ne_eq, ← root_eq_iff nonneg nonnegRoot, resultReal]
    exact (eq_div_iff unit.ne').not

/-- The root of a zero is that zero (R553). -/
theorem deliverExact_of_zero {x : DWord} (zero : fpValue x = 0) (rn : BitVec 2) (oe ue : Bool) :
    deliverExact (exactOf x) rn oe ue = delivered x 0 (some (false, false)) := by
  obtain ⟨value, sign⟩ := fpValue_fpZero (fpSign x)
  have same : fpZero (fpSign x) = x :=
    eq_of_sign_mag sign (((fpValue_eq_zero_iff _).1 value).trans ((fpValue_eq_zero_iff _).1 zero).symm)
  rw [deliverExact_zero ((exactOf_mant_eq_zero x).2 zero), exactOf_sign, same]

/-! #### fsqrt -/

/-- What the obligation says of a root with this FPSCR after it. -/
structure IsRoot (before after : Word) (r x : DWord) : Prop where
  finite : fpFinite r = true
  nonneg : 0 ≤ fpValue r
  classed : bitsAt after 15 5 = resultClass r
  zero : fpValue x = 0 → r = x
  sign : fpValue x ≠ 0 → fpSign r = false
  fr : bitAt after 13 = decide (fpValue x < fpValue r ^ 2)
  fi : bitAt after 14 = decide (fpValue r ^ 2 ≠ fpValue x)
  xx : bitAt after 6 = (bitAt before 6 || decide (fpValue r ^ 2 ≠ fpValue x))
  kept : ∀ n ∈ [3, 4, 5, 7, 8, 9, 10, 11, 12, 22, 23], bitAt after n = bitAt before n
  rounded : RoundedRoot (bitsAt before 30 2) (fpValue r) (fpValue x)

/-- A zero is its own root, in every mode. -/
theorem roundedRoot_zero (rn : BitVec 2) : RoundedRoot rn 0 0 := by
  refine ⟨fun _ y _ hy => ⟨fun lt => absurd hy (not_le.2 lt), fun _ => sq_nonneg _⟩,
    fun _ => ⟨by norm_num, fun y _ _ le => ?_⟩, fun _ => ⟨by norm_num, fun y _ hy _ => hy⟩⟩
  exact (pow_eq_zero_iff (two_ne_zero)).1 (le_antisymm le (sq_nonneg _)) |>.le

theorem isRoot_delivered {before : Word} {r x : DWord} {inc inexact : Bool}
    (finite : fpFinite r = true) (nonneg : 0 ≤ fpValue r) (zero : fpValue x = 0 → r = x)
    (sign : fpValue x ≠ 0 → fpSign r = false) (rounded : RoundedRoot (bitsAt before 30 2) (fpValue r) (fpValue x))
    (hinc : inc = decide (fpValue x < fpValue r ^ 2)) (hinexact : inexact = decide (fpValue r ^ 2 ≠ fpValue x)) :
    IsRoot before ((delivered r (if inexact then xxBit else 0) (some (inc, inexact))).fpscr before) r x := by
  have within : BitsIn [6] (delivered r (if inexact then xxBit else 0) (some (inc, inexact))).bits := by
    show BitsIn [6] (if inexact then xxBit else 0)
    refine BitsIn.ite ?_ (bitsIn_zero _)
    intro n hn out
    revert n
    decide
  have only : OnlyExceptions (delivered r (if inexact then xxBit else 0) (some (inc, inexact))).bits :=
    within.mono (by decide)
  have plain : ∀ n ∈ [3, 4, 5, 7, 8, 9, 10, 11, 12, 22, 23], n ∈ exceptionBits ∧ n ∉ [6] := by decide
  refine ⟨finite, nonneg, ?_, zero, sign, ?_, ?_, ?_, fun n hn => ?_, rounded⟩
  · rw [FpOut.fpscr_class only, ← fpClass_eq_resultClass (isNan_eq_false_of_finite finite)]
    rfl
  · rw [FpOut.fpscr_fr only, ← hinc]
    rfl
  · rw [FpOut.fpscr_fi only, ← hinexact]
    rfl
  · rw [FpOut.fpscr_exception _ _ (by decide), ← hinexact]
    exact congrArg (bitAt before 6 || ·) (inexactBits inexact).2.2
  · exact FpOut.fpscr_kept within (plain n hn).1 (plain n hn).2

variable {s : State} {frt frb : RegNum} {rc : Bool}

theorem fsqrt_completes (fp : s.msrFP = true) (finite : fpFinite (s.freg frb) = true) (nonneg : 0 ≤ fpValue (s.freg frb)) :
    FloatCompletes s (.fsqrt frt frb rc) frt rc fun u => IsRoot s.fpscr u.fpscr (u.freg frt) (s.freg frb) := by
  have ends := ends_fsqrt s frt frb rc
  generalize s.freg frb = x at *
  have nan := isNan_eq_false_of_finite finite
  have inf := isInf_eq_false_of_finite finite
  by_cases zero : fpValue x = 0
  · have isZero : isZero x = true := (isZero_iff x).2 ((fpValue_eq_zero_iff x).1 zero)
    rw [fpSquareRoot_valid (.inr isZero) nan, inf, isZero, if_neg Bool.false_ne_true, if_pos rfl, deliverExact_of_zero zero]
      at ends
    refine floatCompletes_of_ends fp ends fun u fpscr freg => ?_
    have result : u.freg frt = x := freg
    rw [fpscr, result]
    refine isRoot_delivered (inexact := false) finite nonneg (fun _ => rfl) (fun h => absurd zero h) ?_ ?_ ?_
    · rw [zero]
      exact roundedRoot_zero _
    · rw [zero]
      simp
    · rw [zero]
      simp
  · have isZero : isZero x = false := Bool.eq_false_iff.2 fun z => zero ((fpValue_eq_zero_iff x).2 ((isZero_iff x).1 z))
    have value : fpValue x = signed (fpSign x) |fpValue x| := by rw [abs_fpValue, ← fpValue_signed]
    have sign : fpSign x = false := (neg_iff_of_signed value zero).2.1 (lt_of_le_of_ne nonneg (Ne.symm zero))
    obtain ⟨r, inc, inexact, delivers, finiteRoot, signRoot, nonnegRoot, rounded, hinc, hinexact⟩ :=
      deliverExact_sqrt finite nonneg zero sign s.fpRN s.fpOE s.fpUE
    rw [fpSquareRoot_valid (.inl sign) nan, inf, isZero, if_neg Bool.false_ne_true, if_neg Bool.false_ne_true, delivers]
      at ends
    refine floatCompletes_of_ends fp ends fun u fpscr freg => ?_
    have result : u.freg frt = r := freg
    rw [fpscr, result]
    exact isRoot_delivered finiteRoot nonnegRoot (fun h => absurd h zero) (fun _ => signRoot) rounded hinc hinexact

/-! #### The arithmetic instructions together -/

theorem addend_value (minus : Bool) (b : DWord) : fpValue (addend minus b) = if minus then -fpValue b else fpValue b := by
  unfold addend
  split
  · exact fpValue_negated b
  · rfl

theorem addend_finite (minus : Bool) (b : DWord) : fpFinite (addend minus b) = fpFinite b := by
  rw [Bool.eq_iff_iff, fpFinite_iff, fpFinite_iff, addend_mag]

section

variable {fra frc : RegNum}

/-- The exact result of a multiply-add. -/
theorem multiplyAdd_for (minus : Bool) (fa : fpFinite (s.freg fra) = true) (fb : fpFinite (s.freg frb) = true)
    (fc : fpFinite (s.freg frc) = true) :
    (exactAdd s.fpRN (exactMul (exactOf (s.freg fra)) (exactOf (s.freg frc))) (exactOf (addend minus (s.freg frb)))).For
      (fpValue (s.freg fra) * fpValue (s.freg frc) + fpValue (addend minus (s.freg frb)))
      (zeroSign s.fpRN (fpSign (s.freg fra) != fpSign (s.freg frc)) (fpSign (addend minus (s.freg frb)))) :=
  fused_for s.fpRN fa ((addend_finite _ _).trans fb) fc

/-- fma and fms. -/
theorem multiplyAdd_rounds (fp : s.msrFP = true) (minus : Bool) (fa : fpFinite (s.freg fra) = true)
    (fb : fpFinite (s.freg frb) = true) (fc : fpFinite (s.freg frc) = true) {i : Instr}
    (ends : s.FloatEnds i frt rc (fpMulAdd s (s.freg fra) (s.freg frb) (s.freg frc) minus false)) :
    FloatCompletes s i frt rc fun u => Delivers s.fpscr u.fpscr (u.freg frt)
        (fpValue (s.freg fra) * fpValue (s.freg frc) + fpValue (addend minus (s.freg frb)))
        (zeroSign s.fpRN (fpSign (s.freg fra) != fpSign (s.freg frc)) (fpSign (addend minus (s.freg frb))))
      ∧ bitsAt u.fpscr 15 5 = resultClass (u.freg frt) := by
  rw [fpMulAdd_finite minus false fa fb fc, negateIf_false] at ends
  exact rounds_of_ends fp ends (multiplyAdd_for minus fa fb fc)

/-- fnma and fnms. -/
theorem multiplyAdd_negates (fp : s.msrFP = true) (minus : Bool) (fa : fpFinite (s.freg fra) = true)
    (fb : fpFinite (s.freg frb) = true) (fc : fpFinite (s.freg frc) = true) {i : Instr}
    (ends : s.FloatEnds i frt rc (fpMulAdd s (s.freg fra) (s.freg frb) (s.freg frc) minus true)) :
    FloatCompletes s i frt rc fun u => Delivers s.fpscr u.fpscr (u.freg frt ^^^ 0x8000000000000000)
        (fpValue (s.freg fra) * fpValue (s.freg frc) + fpValue (addend minus (s.freg frb)))
        (zeroSign s.fpRN (fpSign (s.freg fra) != fpSign (s.freg frc)) (fpSign (addend minus (s.freg frb))))
      ∧ bitsAt u.fpscr 15 5 = resultClass (u.freg frt) := by
  rw [fpMulAdd_finite minus true fa fb fc] at ends
  exact negates_of_ends fp ends (multiplyAdd_for minus fa fb fc)

end

/-- Settles O52: each instruction delivers an exact result that stands for its value, and what is delivered is rounded. -/
theorem arithmeticRounds : Obligations.ArithmeticRounds := by
  intro s frt fra frb frc rc fp
  simp only
  refine ⟨fun fa fb => ⟨?_, ?_, fun nonzero => ?_⟩, fun fa fc => ?_, fun fa fb fc => ⟨?_, ?_, ?_, ?_⟩, fun fb nonneg => ?_⟩
  · have ends := ends_fa s frt fra frb rc
    rw [fpSum_finite fa fb (numbers_pair (isNan_eq_false_of_finite fa) (isNan_eq_false_of_finite fb))] at ends
    exact rounds_of_ends fp ends (sum_for _ fa fb)
  · have ends := ends_fs s frt fra frb rc
    have finite : fpFinite (negated (s.freg frb)) = true := (fpFinite_negated _).trans fb
    rw [fpSum_finite fa finite (numbers_pair (isNan_eq_false_of_finite fa) (isNan_eq_false_of_finite fb))] at ends
    have difference := sum_for s.fpRN fa finite
    rw [fpValue_negated, ← sub_eq_add_neg, (negated_sign _).1] at difference
    exact rounds_of_ends fp ends difference
  · have ends := ends_fd s frt fra frb rc
    rw [fpQuotient_finite fa fb nonzero] at ends
    exact rounds_of_ends fp ends (quotient_for fa fb nonzero)
  · have ends := ends_fm s frt fra frc rc
    rw [fpProduct_finite fa fc] at ends
    exact rounds_of_ends fp ends (product_for fa fc)
  · exact multiplyAdd_rounds fp false fa fb fc (ends_fma s frt fra frb frc rc)
  · have rounds := multiplyAdd_rounds fp true fa fb fc (ends_fms s frt fra frb frc rc)
    rw [addend_value, if_pos rfl, ← sub_eq_add_neg, addend_sign, Bool.bne_true] at rounds
    exact rounds
  · exact multiplyAdd_negates fp false fa fb fc (ends_fnma s frt fra frb frc rc)
  · have negates := multiplyAdd_negates fp true fa fb fc (ends_fnms s frt fra frb frc rc)
    rw [addend_value, if_pos rfl, ← sub_eq_add_neg, addend_sign, Bool.bne_true] at negates
    exact negates
  · obtain ⟨u, runs, only, root⟩ := fsqrt_completes (frt := frt) (rc := rc) fp fb nonneg
    exact ⟨u, runs, only, root.finite, root.nonneg, root.classed, root.zero, root.sign, root.fr, root.fi, root.xx, root.kept,
      root.rounded.nearest, root.rounded.floor, root.rounded.ceil⟩

end Sys2Proof.Machine

end

/-! ### Round to single (R601, R610 to R620) -/

section

namespace Sys2Proof.Machine

/-! #### Singles among the doubles -/

theorem fraction_low_iff (x : DWord) : x.extractLsb' 0 29 = 0 ↔ fpMag x % 2 ^ 29 = 0 := by
  rw [← BitVec.toNat_inj, BitVec.extractLsb'_toNat, fpMag_eq_mod, Nat.mod_mod_of_dvd _ (by decide), Nat.shiftRight_zero]
  rfl

theorem fpClass_normal {x : DWord} (finite : fpFinite x = true) (normal : fpExp x ≠ 0) :
    fpClass x = if fpSign x then 0b01000 else 0b00100 := by
  have zero : isZero x = false := Bool.eq_false_iff.2 fun z => normal (by rw [fpExp_eq, (isZero_iff x).1 z]; rfl)
  unfold fpClass
  rw [isNan_eq_false_of_finite finite, isInf_eq_false_of_finite finite, zero, if_neg normal, if_neg Bool.false_ne_true,
    if_neg Bool.false_ne_true, if_neg Bool.false_ne_true]

/-- A double with the significand of a single. -/
theorem packNormal_single (sign : Bool) {e : Int} {m : Nat} (he : -1022 ≤ e ∧ e ≤ 1023) (hm : 2 ^ 23 ≤ m ∧ m < 2 ^ 24) :
    fpSign (packNormal sign e (m <<< 29)) = sign ∧ fpExp (packNormal sign e (m <<< 29)) = (e + 1023).toNat
      ∧ (packNormal sign e (m <<< 29)).extractLsb' 0 29 = 0 ∧ fpFinite (packNormal sign e (m <<< 29)) = true := by
  have shifted : m <<< 29 = m * 2 ^ 29 := Nat.shiftLeft_eq _ _
  have bounds : 2 ^ 52 ≤ m <<< 29 ∧ m <<< 29 < 2 ^ 53 := by omega
  obtain ⟨hs, hmag⟩ := packNormal_spec sign he bounds
  refine ⟨hs, ?_, ?_, packNormal_finite sign he bounds⟩
  · rw [fpExp_eq, hmag]
    omega
  · rw [fraction_low_iff, hmag]
    omega

/-- The double for a small multiple of 2^-149. -/
theorem packSingleTiny_spec (sign : Bool) {m : Nat} (hm : m ≤ 2 ^ 23) :
    fpSign (packSingleTiny sign m) = sign ∧ fpFinite (packSingleTiny sign m) = true
      ∧ fpValue (packSingleTiny sign m) = signed sign ((m : ℚ) * 2 ^ (-149 : Int)) := by
  by_cases m0 : m = 0
  · obtain ⟨value, sign_⟩ := fpValue_fpZero sign
    have packed : packSingleTiny sign m = fpZero sign := if_pos m0
    rw [packed, value, m0, Nat.cast_zero, zero_mul]
    refine ⟨sign_, ?_, by unfold signed; simp⟩
    rw [fpFinite_iff, (fpValue_eq_zero_iff _).1 value]
    decide
  · have packed : packSingleTiny sign m = packNormal sign ((Nat.log2 m : Int) - 149) (m <<< (52 - Nat.log2 m)) := if_neg m0
    have two : (2 : ℚ) ≠ 0 := by norm_num
    have low := Nat.log2_self_le m0
    have high : m < 2 ^ (Nat.log2 m + 1) := Nat.lt_log2_self
    have log : Nat.log2 m ≤ 23 := (Nat.pow_le_pow_iff_right (by decide)).1 (low.trans hm)
    rw [packed]
    generalize Nat.log2 m = k at *
    have bounds : 2 ^ 52 ≤ m <<< (52 - k) ∧ m <<< (52 - k) < 2 ^ 53 := by
      have whole : 2 ^ k * 2 ^ (52 - k) = 2 ^ 52 := by rw [← pow_add, Nat.add_sub_cancel' (by omega)]
      have more : 2 ^ (k + 1) * 2 ^ (52 - k) = 2 ^ 53 := by rw [← pow_add]; congr 1; omega
      rw [Nat.shiftLeft_eq, ← whole, ← more]
      exact ⟨Nat.mul_le_mul_right _ low, Nat.mul_lt_mul_of_pos_right high (Nat.two_pow_pos _)⟩
    have exp : -1022 ≤ (k : Int) - 149 ∧ (k : Int) - 149 ≤ 1023 := by omega
    refine ⟨(packNormal_spec sign exp bounds).1, packNormal_finite sign exp bounds, ?_⟩
    rw [packNormal_value sign exp bounds, Nat.shiftLeft_eq, Nat.cast_mul, Nat.cast_pow, Nat.cast_ofNat, ← zpow_natCast,
      mul_assoc, ← zpow_add₀ two]
    congr 3
    omega

theorem maxSingle_eq : maxSingle = ((2 ^ 24 - 1 : Nat) : ℚ) * 2 ^ ((127 : Int) - (24 - 1 : Nat)) := by
  have unit : (2 : ℚ) ^ ((127 : Int) - (24 - 1 : Nat)) = 2 ^ 104 := by
    rw [← zpow_natCast]
    rfl
  rw [unit, Nat.cast_sub (by decide), sub_mul, Nat.cast_one, one_mul, Nat.cast_pow, Nat.cast_ofNat, ← pow_add]
  rfl

theorem maxSingle_lt : maxSingle < 2 ^ 128 := sub_lt_self _ (by positivity)

theorem lt_maxSingle_of_small {v : ℚ} (h : |v| < 2 ^ (-126 : Int)) : |v| < maxSingle := by
  have small : (2 : ℚ) ^ (-126 : Int) ≤ 1 := zpow_le_one_of_nonpos₀ (by norm_num) (by norm_num)
  have : (1 : ℚ) ≤ maxSingle := by
    unfold maxSingle
    norm_num
  linarith

theorem singleOverflow_eq : ∀ (rn : BitVec 2) (sign : Bool),
    singleOverflow rn sign = overflowed rn sign 0x47EFFFFFE0000000 ∧ isNan (singleOverflow rn sign) = false := by decide

/-- The normalized singles lie in the range of singles. -/
theorem normalSingle_bounds {x : DWord} (h : NormalSingle x) :
    2 ^ (-126 : Int) ≤ |fpValue x| ∧ |fpValue x| ≤ maxSingle := by
  obtain ⟨low, high, fraction⟩ := h
  rw [fraction_low_iff] at fraction
  rw [fpExp_eq] at low high
  have two : (2 : ℚ) ≠ 0 := by norm_num
  have least : magValue (897 * 2 ^ 52 + 0) = 2 ^ (-126 : Int) := by
    rw [magValue_normal (by decide) (by decide), Nat.add_zero, Nat.cast_pow, Nat.cast_ofNat, ← zpow_natCast, ← zpow_add₀ two]
    rfl
  have most : magValue (1150 * 2 ^ 52 + (2 ^ 52 - 2 ^ 29)) = maxSingle := by
    rw [magValue_normal (by decide) (by decide), maxSingle]
    norm_num
  rw [abs_fpValue, ← least, ← most]
  exact ⟨magValue_strictMono.monotone (by omega), magValue_strictMono.monotone (by omega)⟩

/-- Rounding keeps a number that is one of those it rounds to. -/
theorem RoundedIn.value_eq {P : DWord → Prop} {last : Nat} {rn : BitVec 2} {r x : DWord}
    (h : RoundedIn P last rn r (fpValue x)) (isIn : P x) : fpValue r = fpValue x := by
  have modes : ∀ m : BitVec 2, m = 0 ∨ m = 1 ∨ m = 2 ∨ m = 3 := by decide
  obtain rfl | rfl | rfl | rfl := modes rn
  · have near := h.nearest rfl x isIn
    rw [sub_self, abs_zero] at near
    exact sub_eq_zero.1 (abs_eq_zero.1 (le_antisymm near (abs_nonneg _)))
  · obtain ⟨le, side, most⟩ := h.towardZero rfl
    obtain same | opposite := abs_eq_abs.1 (le_antisymm le (most x isIn le_rfl))
    · exact same
    · rw [opposite] at side ⊢
      nlinarith [sq_nonneg (fpValue x)]
  · exact le_antisymm ((h.up rfl).2 x isIn le_rfl) (h.up rfl).1
  · exact le_antisymm (h.down rfl).1 ((h.down rfl).2 x isIn le_rfl)

theorem fpValue_sign (x : DWord) : fpValue x = signed (fpSign x) |fpValue x| := by
  rw [abs_fpValue, ← fpValue_signed]

theorem eq_of_fpValue_eq {x y : DWord} (h : fpValue x = fpValue y) (nonzero : fpValue y ≠ 0) : x = y := by
  refine eq_of_sign_mag ?_ (magValue_strictMono.injective ?_)
  · have negX := (neg_iff_of_signed (fpValue_sign x) (h ▸ nonzero)).1
    have negY := (neg_iff_of_signed (fpValue_sign y) nonzero).1
    rw [Bool.eq_iff_iff, ← negX, ← negY, h]
  · rw [← abs_fpValue, ← abs_fpValue, h]

/-! #### What the rounding of a finite number leaves (R611 to R614, R619) -/

/-- A result of 24 bits: the rounded number, its class and what the FPSCR says of the rounding. -/
structure SingleRounded (before after : Word) (P : DWord → Prop) (x r : DWord) (w : ℚ) (ox ux : Bool) : Prop where
  rounded : RoundedIn P 29 (bitsAt before 30 2) r w
  classed : bitsAt after 15 5 = if fpSign x then 0b01000 else 0b00100
  flags : RoundingFlags before after w (fpValue r) ox ux

section

variable {x : DWord} {rn : BitVec 2}

theorem exactOf_rounds (nonzero : fpValue x ≠ 0) (rn : BitVec 2) :
    ∃ n, ((exactOf x).roundTo 24 rn).Rounds (exactOf x) 24 rn |fpValue x| n :=
  (exactOf_is x).holds.roundTo ((exactOf_mant_eq_zero x).not.2 nonzero) (by decide)
    (fun h => by rw [(exactOf_is x).precise] at h; cases h) rn

theorem exactOf_top (nonzero : fpValue x ≠ 0) :
    2 ^ (exactOf x).top ≤ |fpValue x| ∧ |fpValue x| < 2 ^ ((exactOf x).top + 1) :=
  (exactOf_is x).holds.top ((exactOf_mant_eq_zero x).not.2 nonzero)

theorem exactOf_top_lt_iff (nonzero : fpValue x ≠ 0) (e : Int) : (exactOf x).top < e ↔ |fpValue x| < 2 ^ e := by
  obtain ⟨low, high⟩ := exactOf_top nonzero
  constructor
  · intro lt
    exact high.trans_le (zpow_le_zpow_right₀ (by norm_num) (by omega))
  · intro lt
    exact (zpow_lt_zpow_iff_right₀ (by norm_num)).1 (low.trans_lt lt)

theorem exactOf_top_bounds (finite : fpFinite x = true) (nonzero : fpValue x ≠ 0) :
    -1074 ≤ (exactOf x).top ∧ (exactOf x).top < 1024 := by
  obtain ⟨-, exp, -⟩ := exactOf_bounds x
  refine ⟨?_, (exactOf_top_lt_iff nonzero 1024).2 (abs_fpValue_lt finite)⟩
  unfold Exact.top
  omega

theorem exactOf_value (x : DWord) : fpValue x = signed (exactOf x).sign |fpValue x| := by
  rw [exactOf_sign]
  exact fpValue_sign x

theorem beyondSingle_iff (nonzero : fpValue x ≠ 0) (rn : BitVec 2) :
    127 < ((exactOf x).roundTo 24 rn).exp ↔ RoundsBeyond rn maxSingle (2 ^ 128) (fpValue x) := by
  obtain ⟨n, rounds⟩ := exactOf_rounds nonzero rn
  exact rounds.beyond_iff (by decide) (exactOf_value x) nonzero (exactOf_top nonzero) maxSingle_eq
    (by rw [← zpow_natCast]; rfl)

end

/-- A significand of 24 bits, packed with its exponent moved by `k`. -/
theorem singleRounded_packed {before : Word} {x : DWord} {k : Int} {P : DWord → Prop} {ox ux : Bool} {o : FpOut}
    {r : Significand} (hr : (exactOf x).roundTo 24 (bitsAt before 30 2) = r) (nonzero : fpValue x ≠ 0)
    (low : -1022 ≤ (exactOf x).top + k) (high : r.exp + k ≤ 1023)
    (isIn : ∀ y, fpFinite y = true → y.extractLsb' 0 29 = 0 → fpExp y = (r.exp + k + 1023).toNat → P y)
    (fraction : ∀ y, P y → y.extractLsb' 0 29 = 0)
    (fprf : o.fprf = some (fpClass (packNormal (exactOf x).sign (r.exp + k) (r.mant <<< 29))))
    (frFi : o.frFi = some (r.inc, r.inexact)) (within : BitsIn [3, 4, 6] o.bits)
    (bits : bitAt o.bits 3 = ox ∧ bitAt o.bits 4 = ux ∧ bitAt o.bits 6 = r.inexact) :
    SingleRounded before (o.fpscr before) P x (packNormal (exactOf x).sign (r.exp + k) (r.mant <<< 29))
      (fpValue x * 2 ^ k) ox ux := by
  have only : OnlyExceptions o.bits := within.mono exception_rounding
  obtain ⟨n, rounds⟩ := exactOf_rounds nonzero (bitsAt before 30 2)
  rw [hr] at rounds
  obtain ⟨mant, expLow, -⟩ := rounds.bounds (by decide)
  obtain ⟨sign, exp, lowBits, finite⟩ := packNormal_single (exactOf x).sign (e := r.exp + k) ⟨by omega, high⟩ mant
  obtain ⟨rounded, inc, inexact⟩ := Significand.Rounds.packed (last := 29) (by decide) rounds (exactOf_value x)
    (Nat.shiftLeft_eq _ _) low high (isIn _ finite lowBits exp) fun y hy => (fraction_low_iff y).1 (fraction y hy)
  refine ⟨rounded, ?_, roundingFlags_of only frFi bits inc inexact⟩
  rw [FpOut.fpscr_class only, fprf, fpClass_normal finite (by rw [exp]; omega), sign, exactOf_sign]
  rfl

/-! #### The branches (R611 to R614, R619) -/

section

variable {s : State} {x : DWord}

theorem roundSingleFinite_tiny (small : (exactOf x).top < -126) (disabled : s.fpUE = false) : roundSingleFinite s x
    = ⟨some (packSingleTiny (exactOf x).sign ((exactOf x).round (-149) s.fpRN).mant),
      if ((exactOf x).round (-149) s.fpRN).inexact then uxBit ||| xxBit else 0,
      some (singleTinyClass (exactOf x).sign ((exactOf x).round (-149) s.fpRN).mant),
      some (((exactOf x).round (-149) s.fpRN).inc, ((exactOf x).round (-149) s.fpRN).inexact)⟩ := by
  unfold roundSingleFinite
  simp only [small, disabled, decide_true, Bool.not_false, Bool.and_true, if_true]

theorem roundSingleFinite_underflow (small : (exactOf x).top < -126) (enabled : s.fpUE = true) : roundSingleFinite s x
    = delivered (packNormal (exactOf x).sign (((exactOf x).roundTo 24 s.fpRN).exp + 192)
        (((exactOf x).roundTo 24 s.fpRN).mant <<< 29))
      (uxBit ||| if ((exactOf x).roundTo 24 s.fpRN).inexact then xxBit else 0)
      (some (((exactOf x).roundTo 24 s.fpRN).inc, ((exactOf x).roundTo 24 s.fpRN).inexact)) := by
  unfold roundSingleFinite
  simp only [small, enabled, Bool.not_true, Bool.and_false, Bool.false_eq_true, if_false, if_true]

theorem roundSingleFinite_overflow (large : ¬ (exactOf x).top < -126)
    (beyond : 127 < ((exactOf x).roundTo 24 s.fpRN).exp) (enabled : s.fpOE = true) : roundSingleFinite s x
    = delivered (packNormal (exactOf x).sign (((exactOf x).roundTo 24 s.fpRN).exp - 192)
        (((exactOf x).roundTo 24 s.fpRN).mant <<< 29))
      (oxBit ||| if ((exactOf x).roundTo 24 s.fpRN).inexact then xxBit else 0)
      (some (((exactOf x).roundTo 24 s.fpRN).inc, ((exactOf x).roundTo 24 s.fpRN).inexact)) := by
  unfold roundSingleFinite
  simp only [large, beyond, enabled, decide_false, Bool.false_and, Bool.false_eq_true, if_false, if_true]

theorem roundSingleFinite_overflow_disabled (large : ¬ (exactOf x).top < -126)
    (beyond : 127 < ((exactOf x).roundTo 24 s.fpRN).exp) (disabled : s.fpOE = false) : roundSingleFinite s x
    = delivered (singleOverflow s.fpRN (exactOf x).sign) (oxBit ||| xxBit)
      (some (if 127 < (exactOf x).top then bitAt s.fpscr 13 else ((exactOf x).roundTo 24 s.fpRN).inc, true)) := by
  unfold roundSingleFinite
  simp only [large, beyond, disabled, decide_false, Bool.false_and, Bool.false_eq_true, if_false, if_true]

theorem roundSingleFinite_normal (large : ¬ (exactOf x).top < -126)
    (inside : ¬ 127 < ((exactOf x).roundTo 24 s.fpRN).exp) : roundSingleFinite s x
    = delivered (packNormal (exactOf x).sign ((exactOf x).roundTo 24 s.fpRN).exp
        (((exactOf x).roundTo 24 s.fpRN).mant <<< 29))
      (if ((exactOf x).roundTo 24 s.fpRN).inexact then xxBit else 0)
      (some (((exactOf x).roundTo 24 s.fpRN).inc, ((exactOf x).roundTo 24 s.fpRN).inexact)) := by
  unfold roundSingleFinite
  simp only [large, inside, decide_false, Bool.false_and, Bool.false_eq_true, if_false]

end

/-! #### What frsp leaves for a finite number -/

section

variable {s u : State} {x : DWord} {frt : RegNum} (fpscr : u.fpscr = (roundSingleFinite s x).fpscr s.fpscr)
  (freg : u.freg frt = (roundSingleFinite s x).result.getD (s.freg frt)) (finite : fpFinite x = true)
  (nonzero : fpValue x ≠ 0)

include fpscr freg nonzero

theorem frsp_inRange (large : 2 ^ (-126 : Int) ≤ |fpValue x|)
    (inside : ¬ RoundsBeyond s.fpRN maxSingle (2 ^ 128) (fpValue x)) :
    SingleRounded s.fpscr u.fpscr NormalSingle x (u.freg frt) (fpValue x) false false := by
  have top := (exactOf_top_lt_iff nonzero (-126)).not.2 (not_lt.2 large)
  have exp := (beyondSingle_iff nonzero s.fpRN).not.2 inside
  have within := bitsIn_roundSingleFinite s x
  rw [roundSingleFinite_normal top exp] at fpscr freg within
  have bounds : (exactOf x).top ≤ ((exactOf x).roundTo 24 s.fpRN).exp := by
    obtain ⟨n, rounds⟩ := exactOf_rounds nonzero s.fpRN
    exact (rounds.bounds (by decide)).2.1
  rw [fpscr, show u.freg frt = _ from freg]
  have packed := singleRounded_packed (before := s.fpscr) (k := 0) (P := NormalSingle)
    (r := (exactOf x).roundTo 24 s.fpRN) rfl nonzero (by omega) (by omega) (fun y _ low exponent => ⟨by omega, by omega, low⟩) (fun y h => h.2.2) (by rw [add_zero]; rfl) rfl within
      (inexactBits _)
  rw [add_zero, zpow_zero, mul_one] at packed
  exact packed

include finite in
theorem frsp_underflow (small : |fpValue x| < 2 ^ (-126 : Int)) (enabled : s.fpUE = true) :
    SingleRounded s.fpscr u.fpscr SinglePrecision x (u.freg frt) (fpValue x * 2 ^ 192) false true := by
  have top := (exactOf_top_lt_iff nonzero (-126)).2 small
  obtain ⟨least, -⟩ := exactOf_top_bounds finite nonzero
  have within := bitsIn_roundSingleFinite s x
  rw [roundSingleFinite_underflow top enabled] at fpscr freg within
  have bounds : ((exactOf x).roundTo 24 s.fpRN).exp ≤ (exactOf x).top + 1 := by
    obtain ⟨n, rounds⟩ := exactOf_rounds nonzero s.fpRN
    exact (rounds.bounds (by decide)).2.2
  rw [fpscr, show u.freg frt = _ from freg]
  exact singleRounded_packed (before := s.fpscr) (k := 192) (P := SinglePrecision)
    (r := (exactOf x).roundTo 24 s.fpRN) rfl nonzero (by omega) (by omega) (fun y number low _ => ⟨number, low⟩) (fun y h => h.2) rfl rfl within (underflowBits _)

include finite in
theorem frsp_overflow (beyond : RoundsBeyond s.fpRN maxSingle (2 ^ 128) (fpValue x)) (enabled : s.fpOE = true) :
    SingleRounded s.fpscr u.fpscr SinglePrecision x (u.freg frt) (fpValue x / 2 ^ 192) true false := by
  have large := large_of_beyond maxSingle_lt beyond
  have top := (exactOf_top_lt_iff nonzero (-126)).not.2 fun small => absurd (lt_maxSingle_of_small small) (not_lt.2 large.le)
  obtain ⟨-, most⟩ := exactOf_top_bounds finite nonzero
  have exp := (beyondSingle_iff nonzero s.fpRN).2 beyond
  have within := bitsIn_roundSingleFinite s x
  rw [roundSingleFinite_overflow top exp enabled] at fpscr freg within
  have bounds : ((exactOf x).roundTo 24 s.fpRN).exp ≤ (exactOf x).top + 1 := by
    obtain ⟨n, rounds⟩ := exactOf_rounds nonzero s.fpRN
    exact (rounds.bounds (by decide)).2.2
  have scale : fpValue x / 2 ^ 192 = fpValue x * 2 ^ (-192 : Int) := by
    rw [zpow_neg, div_eq_mul_inv]
    rfl
  rw [fpscr, show u.freg frt = _ from freg, scale]
  exact singleRounded_packed (before := s.fpscr) (k := -192) (P := SinglePrecision)
    (r := (exactOf x).roundTo 24 s.fpRN) rfl nonzero (by omega) (by omega) (fun y number low _ => ⟨number, low⟩) (fun y h => h.2) rfl rfl within (overflowBits _)

theorem frsp_overflow_disabled (beyond : RoundsBeyond s.fpRN maxSingle (2 ^ 128) (fpValue x)) (disabled : s.fpOE = false) :
    u.freg frt = overflowed s.fpRN (decide (fpValue x < 0)) 0x47EFFFFFE0000000
      ∧ bitsAt u.fpscr 15 5 = resultClass (u.freg frt)
      ∧ bitAt u.fpscr 3 = true ∧ bitAt u.fpscr 4 = bitAt s.fpscr 4 ∧ bitAt u.fpscr 6 = true
      ∧ bitAt u.fpscr 14 = true ∧ bitAt u.fpscr 13 = (decide (|fpValue x| < 2 ^ 128) || bitAt s.fpscr 13) := by
  have large := large_of_beyond maxSingle_lt beyond
  have top := (exactOf_top_lt_iff nonzero (-126)).not.2 fun small => absurd (lt_maxSingle_of_small small) (not_lt.2 large.le)
  have exp := (beyondSingle_iff nonzero s.fpRN).2 beyond
  have within := (bitsIn_roundSingleFinite s x).mono exception_rounding
  have negative : decide (fpValue x < 0) = (exactOf x).sign := by
    rw [Bool.eq_iff_iff, decide_eq_true_iff, (neg_iff_of_signed (exactOf_value x) nonzero).1]
  -- between the largest single and 2^128 the carry to 2^128 is an increment
  have fr : (if 127 < (exactOf x).top then bitAt s.fpscr 13 else ((exactOf x).roundTo 24 s.fpRN).inc)
      = (decide (|fpValue x| < 2 ^ 128) || bitAt s.fpscr 13) := by
    have bound : |fpValue x| < 2 ^ 128 ↔ ¬ 127 < (exactOf x).top := by
      rw [not_lt, ← Int.lt_add_one_iff]
      exact (exactOf_top_lt_iff nonzero 128).symm
    by_cases above : 127 < (exactOf x).top
    · rw [if_pos above, decide_eq_false (fun lt => bound.1 lt above), Bool.false_or]
    · obtain ⟨n, rounds⟩ := exactOf_rounds nonzero s.fpRN
      obtain ⟨-, -, same⟩ | ⟨carry, -, -⟩ := rounds.written
      · omega
      · rw [if_neg above, decide_eq_true (bound.2 above), Bool.true_or, rounds.inc, carry]
        exact rounds.below
  have set : bitAt (oxBit ||| xxBit) 3 = true ∧ bitAt (oxBit ||| xxBit) 4 = false ∧ bitAt (oxBit ||| xxBit) 6 = true := by
    decide
  obtain ⟨value, number⟩ := singleOverflow_eq s.fpRN (exactOf x).sign
  rw [roundSingleFinite_overflow_disabled top exp disabled] at fpscr freg within
  rw [fpscr, show u.freg frt = _ from freg]
  refine ⟨value.trans (by rw [negative]), ?_, ?_, ?_, ?_, ?_, ?_⟩
  · rw [FpOut.fpscr_class within]
    exact fpClass_eq_resultClass number
  · rw [FpOut.fpscr_exception _ _ (by decide)]
    exact Bool.or_eq_true_iff.2 (.inr set.1)
  · rw [FpOut.fpscr_exception _ _ (by decide)]
    exact (congrArg (bitAt s.fpscr 4 || ·) set.2.1).trans (Bool.or_false _)
  · rw [FpOut.fpscr_exception _ _ (by decide)]
    exact Bool.or_eq_true_iff.2 (.inr set.2.2)
  · rw [FpOut.fpscr_fi within]
    rfl
  · rw [FpOut.fpscr_fr within, ← fr]
    rfl

/-- Below the normalized singles the number is rounded to a multiple of 2^-149 (R611, R612). -/
theorem frsp_tiny (small : |fpValue x| < 2 ^ (-126 : Int)) (disabled : s.fpUE = false) : ∃ q : ℤ,
    RoundedInt s.fpRN q (fpValue x * 2 ^ 149) ∧ fpFinite (u.freg frt) = true
      ∧ fpValue (u.freg frt) = q * 2 ^ (-149 : ℤ) ∧ fpSign (u.freg frt) = fpSign x
      ∧ RoundingFlags s.fpscr u.fpscr (fpValue x) (fpValue (u.freg frt)) false (decide (fpValue (u.freg frt) ≠ fpValue x))
      ∧ bitsAt u.fpscr 15 5 = if q = 0 then (if fpSign x then 0b10010 else 0b00010)
        else if |q| = 2 ^ 23 then (if fpSign x then 0b01000 else 0b00100) else if fpSign x then 0b11000 else 0b10100 := by
  have two : (2 : ℚ) ≠ 0 := by norm_num
  have unit := two_zpow_pos (-149)
  have top := (exactOf_top_lt_iff nonzero (-126)).2 small
  have within := (bitsIn_roundSingleFinite s x).mono exception_rounding
  have is := exactOf_is x
  obtain ⟨rounded, inc, inexact⟩ := is.holds.round (-149) s.fpRN fun h => by
    rw [is.precise] at h
    cases h
  rw [exactOf_sign] at rounded
  rw [roundSingleFinite_tiny top disabled, exactOf_sign] at fpscr freg within
  generalize (exactOf x).round (-149) s.fpRN = r at *
  have scaled : fpValue x * 2 ^ 149 = signed (fpSign x) (|fpValue x| / 2 ^ (-149 : Int)) := by
    have units : (2 : ℚ) ^ (-149 : Int) = (2 ^ 149)⁻¹ := by rw [zpow_neg]; rfl
    rw [units, div_inv_eq_mul]
    conv_lhs => rw [fpValue_sign x]
    unfold signed
    split
    · exact neg_mul _ _
    · rfl
  have bound : r.mant ≤ 2 ^ 23 := rounded.le_of_le (by
    rw [div_le_iff₀ unit, Nat.cast_pow, Nat.cast_ofNat, ← zpow_natCast, ← zpow_add₀ two]
    exact small.le)
  obtain ⟨sign, number, value⟩ := packSingleTiny_spec (fpSign x) bound
  have result : u.freg frt = packSingleTiny (fpSign x) r.mant := freg
  have nonneg : (0 : ℚ) ≤ r.mant * 2 ^ (-149 : Int) := mul_nonneg (Nat.cast_nonneg _) unit.le
  have differs : r.inexact = true ↔ fpValue (packSingleTiny (fpSign x) r.mant) ≠ fpValue x := by
    rw [inexact, value, ne_eq, eq_div_iff unit.ne']
    conv_rhs => rw [fpValue_sign x]
    unfold signed
    split
    · rw [ne_eq, neg_inj]
    · rfl
  have flag : decide (fpValue (packSingleTiny (fpSign x) r.mant) ≠ fpValue x) = r.inexact := by
    rw [Bool.eq_iff_iff, decide_eq_true_iff, differs]
  rw [fpscr, result]
  refine ⟨signedInt (fpSign x) r.mant, roundedInt_of_roundsNat (div_nonneg (abs_nonneg _) unit.le) scaled rounded, number,
    ?_, sign, ?_, ?_⟩
  · rw [value, cast_signedInt]
    unfold signed
    split
    · exact (neg_mul _ _).symm
    · rfl
  · rw [flag]
    refine roundingFlags_of within rfl (tinyBits _) ?_ differs
    rw [inc, value, abs_signed _ nonneg, div_lt_iff₀ unit]
  · have zero : signedInt (fpSign x) r.mant = 0 ↔ r.mant = 0 := by
      unfold signedInt
      split <;> omega
    have full : |signedInt (fpSign x) r.mant| = 2 ^ 23 ↔ 2 ^ 23 ≤ r.mant := by
      have magnitude : |signedInt (fpSign x) r.mant| = (r.mant : Int) := by
        unfold signedInt
        split
        · rw [abs_neg, Nat.abs_cast]
        · exact Nat.abs_cast _
      rw [magnitude]
      omega
    rw [FpOut.fpscr_class within]
    show singleTinyClass (fpSign x) r.mant = _
    unfold singleTinyClass
    simp only [zero, full]

omit fpscr freg in
/-- A number that is a single in range stays as it is. -/
theorem frsp_single (single : NormalSingle x) (rounded : SingleRounded s.fpscr u.fpscr NormalSingle x (u.freg frt) (fpValue x)
    false false) : u.freg frt = x ∧ bitAt u.fpscr 6 = bitAt s.fpscr 6 := by
  have value := rounded.rounded.value_eq single
  refine ⟨eq_of_fpValue_eq value nonzero, ?_⟩
  rw [rounded.flags.xx, value, decide_eq_false (fun ne => ne rfl), Bool.or_false]

end

/-! #### The dispatch (R610, R615 to R618) -/

section

variable {s : State} {x : DWord}

theorem roundSingle_exact (h : isInf x = true ∨ isZero x = true) : roundSingle s x = delivered x 0 none := by
  have number : isNan x = false := by
    obtain inf | zero := h
    · exact isNan_eq_false_of_isInf inf
    · exact isNan_eq_false_of_isZero zero
  have quiet : isSnan x = false := Bool.eq_false_iff.2 fun snan => by
    rw [isNan_of_isSnan snan] at number
    cases number
  unfold roundSingle
  rw [quiet, number, Bool.or_eq_true_iff.2 h, if_neg Bool.false_ne_true, if_neg Bool.false_ne_true, if_pos rfl]

theorem roundSingle_finite (finite : fpFinite x = true) (nonzero : fpValue x ≠ 0) :
    roundSingle s x = roundSingleFinite s x := by
  have number := isNan_eq_false_of_finite finite
  have quiet : isSnan x = false := Bool.eq_false_iff.2 fun snan => by
    rw [isNan_of_isSnan snan] at number
    cases number
  have zero : isZero x = false := Bool.eq_false_iff.2 fun z => nonzero ((fpValue_eq_zero_iff x).2 ((isZero_iff x).1 z))
  unfold roundSingle
  rw [quiet, number, isInf_eq_false_of_finite finite, zero, if_neg Bool.false_ne_true, if_neg Bool.false_ne_true,
    Bool.or_self, if_neg Bool.false_ne_true]

theorem roundSingle_quiet (nan : isNan x = true) (quiet : isSnan x = false) :
    roundSingle s x = ⟨some (singleNan x), 0, some 0b10001, none⟩ := by
  unfold roundSingle
  rw [quiet, nan, if_neg Bool.false_ne_true, if_pos rfl]

theorem roundSingle_signaling (snan : isSnan x = true) : roundSingle s x
    = if s.fpVE then ⟨none, vxSnan, none, none⟩ else ⟨some (singleNan (quieted x)), vxSnan, some 0b10001, none⟩ := by
  unfold roundSingle
  rw [snan, if_pos rfl]

end

/-- Nothing is rounded and nothing is invalid: the FPSCR keeps its exception bits, FR and FI. -/
theorem fpscr_quiet {o : FpOut} {before : Word} (bits : o.bits = 0) (frFi : o.frFi = none) :
    ∀ n ∈ [0, 3, 4, 5, 6, 7, 8, 9, 10, 11, 12, 13, 14, 22, 23], bitAt (o.fpscr before) n = bitAt before n := by
  have only : OnlyExceptions o.bits := by rw [bits]; exact bitsIn_zero _
  have none : BitsIn [] o.bits := by rw [bits]; exact bitsIn_zero _
  have cases_ : ∀ n ∈ [0, 3, 4, 5, 6, 7, 8, 9, 10, 11, 12, 13, 14, 22, 23], n = 0 ∨ n = 13 ∨ n = 14 ∨ n ∈ exceptionBits := by
    decide
  intro n hn
  obtain rfl | rfl | rfl | exception := cases_ n hn
  · exact FpOut.fpscr_fx_of_none bits
  · rw [FpOut.fpscr_fr only]
    unfold FpOut.fr
    rw [frFi]
    rfl
  · rw [FpOut.fpscr_fi only]
    unfold FpOut.fi
    rw [frFi]
    rfl
  · exact FpOut.fpscr_kept none exception (fun h => nomatch h)

/-- A signaling NaN (R536, R618). -/
theorem frsp_signaling {s u : State} {x : DWord} {frt : RegNum} (snan : isSnan x = true)
    (fpscr : u.fpscr = (roundSingle s x).fpscr s.fpscr) (freg : u.freg frt = (roundSingle s x).result.getD (s.freg frt)) :
    bitAt u.fpscr 7 = true ∧ (∀ n ∈ [3, 4, 5, 6, 8, 9, 10, 11, 12, 13, 14, 22, 23], bitAt u.fpscr n = bitAt s.fpscr n)
      ∧ (bitAt s.fpscr 24 = false → u.freg frt = singleNan (quieted x) ∧ bitsAt u.fpscr 15 5 = 0b10001)
      ∧ (bitAt s.fpscr 24 = true → u.freg frt = s.freg frt ∧ bitsAt u.fpscr 15 5 = bitsAt s.fpscr 15 5) := by
  have branch := roundSingle_signaling (s := s) snan
  have bits : (roundSingle s x).bits = vxSnan := by rw [branch]; split <;> rfl
  have frFi : (roundSingle s x).frFi = none := by rw [branch]; split <;> rfl
  have within : BitsIn [7] (roundSingle s x).bits := by rw [bits]; exact bitsIn_bitMask (by decide) (by decide)
  have only : OnlyExceptions (roundSingle s x).bits := within.mono (by decide)
  have cases_ : ∀ n ∈ [3, 4, 5, 6, 8, 9, 10, 11, 12, 13, 14, 22, 23], n = 13 ∨ n = 14 ∨ n ∈ exceptionBits ∧ n ∉ [7] := by
    decide
  refine ⟨?_, fun n hn => ?_, fun disabled => ?_, fun enabled => ?_⟩
  · rw [fpscr, FpOut.fpscr_exception _ _ (by decide), bits]
    exact Bool.or_eq_true_iff.2 (.inr (by decide))
  · rw [fpscr]
    obtain rfl | rfl | ⟨exception, other⟩ := cases_ n hn
    · rw [FpOut.fpscr_fr only]
      unfold FpOut.fr
      rw [frFi]
      rfl
    · rw [FpOut.fpscr_fi only]
      unfold FpOut.fi
      rw [frFi]
      rfl
    · exact FpOut.fpscr_kept within exception other
  · have ve : s.fpVE = false := disabled
    rw [ve, if_neg Bool.false_ne_true] at branch
    rw [branch] at fpscr freg only
    rw [fpscr, FpOut.fpscr_class only]
    exact ⟨freg, rfl⟩
  · have ve : s.fpVE = true := enabled
    rw [ve, if_pos rfl] at branch
    rw [branch] at fpscr freg only
    rw [fpscr, FpOut.fpscr_class only]
    exact ⟨freg, rfl⟩

/-- Settles O55: a case for each kind of operand, and for a finite one a case for each branch of the rounding. -/
theorem roundToSingle : Obligations.RoundToSingle := by
  intro s frt frb rc fp level x v rn oe ue
  have ends : s.FloatEnds (.frsp frt frb rc) frt rc (roundSingle s x) := by
    obtain ends | ⟨erratum, -⟩ := ends_frsp s frt frb rc
    · exact ends
    · rw [level] at erratum
      cases erratum
  refine floatCompletes_of_ends fp ends fun u fpscr freg => ?_
  simp only
  have exact_ (h : isInf x = true ∨ isZero x = true) : u.freg frt = x
      ∧ (∀ n ∈ [0, 3, 4, 5, 6, 7, 8, 9, 10, 11, 12, 13, 14, 22, 23], bitAt u.fpscr n = bitAt s.fpscr n)
      ∧ bitsAt u.fpscr 15 5 = fpClass x := by
    rw [roundSingle_exact h] at fpscr freg
    rw [fpscr]
    exact ⟨freg, fpscr_quiet rfl rfl, FpOut.fpscr_class (bitsIn_zero _)⟩
  refine ⟨fun zero => ?_, fun inf => ?_, fun nan quiet => ?_, fun snan => ?_, fun finite => ?_⟩
  · obtain ⟨result, quiet, class_⟩ := exact_ (.inr zero)
    refine ⟨result, quiet, class_.trans ?_⟩
    unfold fpClass
    rw [isNan_eq_false_of_isZero zero, isInf_eq_false_of_isZero zero, zero]
    rfl
  · obtain ⟨result, quiet, class_⟩ := exact_ (.inl inf)
    refine ⟨result, quiet, class_.trans ?_⟩
    unfold fpClass
    rw [isNan_eq_false_of_isInf inf, inf]
    rfl
  · rw [roundSingle_quiet nan quiet] at fpscr freg
    rw [fpscr]
    exact ⟨freg, fpscr_quiet rfl rfl, FpOut.fpscr_class (bitsIn_zero _)⟩
  · exact frsp_signaling snan fpscr freg
  · by_cases zero : v = 0
    · obtain ⟨-, quiet, -⟩ := exact_ (.inr ((isZero_iff x).2 ((fpValue_eq_zero_iff x).1 zero)))
      have among : ∀ n ∈ [5, 7, 8, 9, 10, 11, 12, 22, 23],
          n ∈ [0, 3, 4, 5, 6, 7, 8, 9, 10, 11, 12, 13, 14, 22, 23] := by decide
      have small : |v| < 2 ^ (-126 : ℤ) := by rw [zero, abs_zero]; exact two_zpow_pos _
      have inside : ¬ RoundsBeyond rn maxSingle (2 ^ 128) v := fun beyond =>
        absurd (lt_maxSingle_of_small small) (not_lt.2 (large_of_beyond maxSingle_lt beyond).le)
      refine ⟨fun n hn => quiet n (among n hn), fun large => absurd small (not_lt.2 large), fun _ ne => absurd zero ne,
        fun _ ne => absurd zero ne, fun large => absurd (lt_maxSingle_of_small small) (not_lt.2 large.le),
        fun _ beyond => absurd beyond inside, fun _ beyond => absurd beyond inside, fun _ exp => ?_⟩
      rw [fpExp_eq, (fpValue_eq_zero_iff x).1 zero] at exp
      exact absurd exp (by decide)
    · rw [roundSingle_finite finite zero] at fpscr freg
      have clause {P : DWord → Prop} {w : ℚ} {ox ux : Bool} (h : SingleRounded s.fpscr u.fpscr P x (u.freg frt) w ox ux) :
          RoundedIn P 29 rn (u.freg frt) w ∧ (bitsAt u.fpscr 15 5 = if fpSign x then 0b01000 else 0b00100)
            ∧ RoundingFlags s.fpscr u.fpscr w (fpValue (u.freg frt)) ox ux := ⟨h.rounded, h.classed, h.flags⟩
      have inRange (large : 2 ^ (-126 : ℤ) ≤ |v|) (inside : ¬ RoundsBeyond rn maxSingle (2 ^ 128) v) :=
        frsp_inRange fpscr freg zero large inside
      have inside (le : |v| ≤ maxSingle) : ¬ RoundsBeyond rn maxSingle (2 ^ 128) v := fun beyond =>
        absurd (large_of_beyond maxSingle_lt beyond) (not_lt.2 le)
      refine ⟨?_, fun large le => clause (inRange large (inside le)),
        fun enabled _ small => clause (frsp_underflow fpscr freg finite zero small enabled), fun disabled _ small => ?_,
        fun large notBeyond => clause (inRange ?_ notBeyond),
        fun enabled beyond => clause (frsp_overflow fpscr freg finite zero beyond enabled),
        fun disabled beyond => frsp_overflow_disabled fpscr freg zero beyond disabled, fun low expLow expHigh => ?_⟩
      · rw [fpscr]
        exact kept_of_bitsIn (bitsIn_roundSingleFinite s x)
      · obtain ⟨q, rounded, number, value, sign, flags, class_⟩ := frsp_tiny fpscr freg zero small disabled
        refine ⟨q, rounded, number, value, sign, flags, ?_⟩
        split
        · next q0 => rwa [if_pos q0] at class_
        · next q0 =>
          rw [if_neg q0] at class_
          split
          · next full => rwa [if_pos full] at class_
          · next full => rwa [if_neg full] at class_
      · exact not_lt.1 fun small => absurd (lt_maxSingle_of_small small) (not_lt.2 large.le)
      · have single : NormalSingle x := ⟨expLow, expHigh, low⟩
        obtain ⟨large, le⟩ := normalSingle_bounds single
        exact frsp_single zero single (inRange large (inside le))

end Sys2Proof.Machine

end

/-! ### The processor's accesses to an IOCC (R822 to R831, R855, R883, R897, R935, R946) -/

section

namespace Sys2Proof.Machine

/-! #### Word accesses to an I/O segment (R110) -/

section

variable {s u : State} {r ra : RegNum} {d : BitVec 16}

theorem not_alignIoTrap (aligned : (s.eaD ra d).toNat % 4 = 0) : s.alignIoTrap (s.eaD ra d) 4 = false := by
  simp [State.alignIoTrap, unaligned, aligned]

theorem exec_l_io {l : List Byte} (io : s.isIo (s.eaD ra d) = true) (aligned : (s.eaD ra d).toNat % 4 = 0)
    (access : ioAccess (s.eaD ra d) 4 none none s = .ok l u) :
    exec (.l r ra d) s = .next (u.setReg r (wordOfBytes l)).advance := by
  have got : s.ioGot (s.eaD ra d) 4 none none = .ok l u := by rw [State.ioGot, access]
  simp [exec_l, State.loadInto, State.fixedLoad, io, not_alignIoTrap aligned, got, Res.outcome, loadZero]

theorem exec_l_ioError {l : List Byte} (io : s.isIo (s.eaD ra d) = true) (aligned : (s.eaD ra d).toNat % 4 = 0)
    (access : ioAccess (s.eaD ra d) 4 none none s = .err l u) :
    exec (.l r ra d) s = .next (u.dataStorage .io false (s.eaD ra d)) := by
  have got : s.ioGot (s.eaD ra d) 4 none none = .fail .io (s.eaD ra d) l u := by rw [State.ioGot, access]
  simp [exec_l, State.loadInto, State.fixedLoad, io, not_alignIoTrap aligned, got, Res.outcome]

theorem exec_st_io (io : s.isIo (s.eaD ra d) = true) (aligned : (s.eaD ra d).toNat % 4 = 0)
    (access : ioAccess (s.eaD ra d) 4 (some (toBytes 4 (s.reg r))) none s = .ok [] u) :
    exec (.st r ra d) s = .next u.advance := by
  have length : (toBytes 4 (s.reg r)).length = 4 := rfl
  have got : s.ioGot (s.eaD ra d) 4 (some (toBytes 4 (s.reg r))) none = .ok [] u := by rw [State.ioGot, access]
  simp [exec_st, State.storeFrom, State.fixedStore, io, length, not_alignIoTrap aligned, got, endIoStore, Res.outcome]

end

/-! #### The first IOCC -/

theorem State.iocc_head {s : State} {x : Iocc} {l : List Iocc} (h : s.ioccs = x :: l) : s.iocc 0 = x := by
  unfold State.iocc
  rw [h]
  rfl

theorem State.onIocc_head {s : State} {x : Iocc} {l : List Iocc} (h : s.ioccs = x :: l) (f : Iocc → Iocc) :
    s.onIocc 0 f = { s with ioccs := f x :: l } := by
  unfold State.onIocc State.setIocc
  rw [State.iocc_head h, h]
  rfl

theorem takeFault_none {s : State} {codes : List (BitVec 4)} (h : codes.contains (s.iocc 0).fault = false) :
    takeFault 0 codes s = none := by
  unfold takeFault
  simp only [h, Bool.false_eq_true, if_false]

/-- The access at `ea` is to the first IOCC, no delay runs and no hardware fault waits. -/
structure State.AtIocc (s : State) (x : Iocc) (l : List Iocc) (ea : Word) : Prop where
  ioccs : s.ioccs = x :: l
  delay : x.delay = 0
  fault : x.fault = 0
  io : bitAt (s.segmentOf ea) 0 = true
  unit : bitsAt (s.segmentOf ea) 4 8 = 0x20
  reserved : s.segmentOf ea &&& 0x3003FF10 = 0
  noTimeDelay : isTimeDelay s (s.segmentOf ea) ea = false

/-- It is to the control space with K = 0. -/
structure State.AtControl (s : State) (x : Iocc) (l : List Iocc) (ea : Word) : Prop extends s.AtIocc x l ea where
  control : bitAt (s.segmentOf ea) 24 = true
  key : bitAt (s.segmentOf ea) 1 = false

section

variable {s : State} {x : Iocc} {l : List Iocc} {ea : Word} {store : Option (List Byte)}

theorem State.AtIocc.isIo (h : s.AtIocc x l ea) : s.isIo ea = true := h.io

theorem State.AtIocc.iocc (h : s.AtIocc x l ea) : s.iocc 0 = x := State.iocc_head h.ioccs

theorem State.AtIocc.waits (h : s.AtIocc x l ea) : waitDelay 0 s = s := by
  unfold waitDelay
  rw [h.iocc, h.delay]
  rfl

/-- A running delay and a time delay command aside, the access goes where its segment register says (R830). -/
theorem State.AtIocc.ioAccess_eq (h : s.AtIocc x l ea) (n : Nat) (store : Option (List Byte)) :
    ioAccess ea n store none s = if bitAt (s.segmentOf ea) 24 then
        if bitAt (s.segmentOf ea) 1 then ioErr 0 (some 1) s else controlAccess 0 ea n store s
      else ioccAccess 0 (s.segmentOf ea) ea n store none s := by
  have waits := h.waits
  have unit : (bitsAt (s.segmentOf ea) 4 8).toNat = 0x20 := by rw [h.unit]; rfl
  have reserved : ¬ s.segmentOf ea &&& segmentReservedMask ≠ 0 := fun ne => ne h.reserved
  have present : 0x20 ≤ 0x20 ∧ 0x20 < 0x24 ∧ 0x20 < 0x20 + s.ioccs.length := by
    rw [h.ioccs, List.length_cons]
    omega
  have access : ioAccess ea n store none s = ioccAccess 0 (s.segmentOf ea) ea n store none s := by
    unfold ioAccess
    simp only [unit]
    rw [if_neg (by decide), if_pos present]
  rw [access]
  split
  · next control =>
    unfold ioccAccess
    rw [if_neg reserved]
    simp only [waits, h.noTimeDelay, control, Bool.false_eq_true, if_false, if_true]
  · rfl

theorem State.AtControl.ioAccess_eq (h : s.AtControl x l ea) (n : Nat) (store : Option (List Byte)) :
    ioAccess ea n store none s = controlAccess 0 ea n store s := by
  rw [h.toAtIocc.ioAccess_eq, if_pos h.control, if_neg (by rw [h.key]; exact Bool.false_ne_true)]

theorem State.AtIocc.noFault (h : s.AtIocc x l ea) {codes : List (BitVec 4)} (hc : codes.contains 0 = false) :
    takeFault 0 codes s = none :=
  takeFault_none (by rwa [h.iocc, h.fault])

end

/-! #### Addresses in the control space (R825) -/

theorem toNat_address (ea : Word) : (bitsAt ea 4 28).toNat = ea.toNat % 2 ^ 28 := by
  simp [bitsAt]

theorem toNat_addressTop (ea : Word) : (bitsAt ea 8 2).toNat = ea.toNat / 2 ^ 22 % 4 := by
  simp [bitsAt, BitVec.extractLsb'_toNat, Nat.shiftRight_eq_div_pow]

theorem toNat_addressLow (ea : Word) : (bitsAt ea 30 2).toNat = ea.toNat % 4 := by
  simp [bitsAt]

/-- The TCW table is where bits 8 and 9 are both 1. -/
theorem addressTop_ne {ea : Word} (h : (bitsAt ea 4 28).toNat / 2 ^ 22 % 4 ≠ 3) : bitsAt ea 8 2 ≠ 3 := by
  intro e
  have top := congrArg BitVec.toNat e
  rw [toNat_addressTop] at top
  rw [toNat_address] at h
  refine h ?_
  have three : (3 : BitVec 2).toNat = 3 := rfl
  omega

theorem addressLow_eq {ea : Word} (h : ea.toNat % 4 = 0) : bitsAt ea 30 2 = 0 :=
  BitVec.eq_of_toNat_eq (by rw [toNat_addressLow, h]; rfl)

/-- The registers proper. -/
theorem controlAccess_register {s : State} {ea : Word} {store : Option (List Byte)} {a : Nat} {r : IocReg}
    (address : (bitsAt ea 4 28).toNat = a) (place : 0x0400000 ≤ a ∧ a < 0x0400090 ∧ a % 4 = 0) (found : iocRegAt a = some r) :
    controlAccess 0 ea 4 store s = iocRegister 0 r (store.map wordOfBytes) s := by
  obtain ⟨low, high, aligned⟩ := place
  have top : bitsAt ea 8 2 ≠ 3 := addressTop_ne (by omega)
  have same : a / 4 * 4 = a := by omega
  unfold controlAccess
  simp only [address]
  rw [if_neg top, if_neg (by omega), if_neg (by omega), if_neg (by omega), if_neg (by omega), same, found]
  exact if_pos ⟨trivial, aligned⟩

theorem controlAccess_tcw {s : State} {ea : Word} {store : Option (List Byte)} (top : bitsAt ea 8 2 = 3)
    (aligned : bitsAt ea 30 2 = 0) (noFault : takeFault 0 [9, 0xF] s = none) :
    controlAccess 0 ea 4 store s = tcwWords 0 store 1 (bitsAt ea 10 20).toNat [] s := by
  unfold controlAccess tcwAccess
  simp only [top, if_true, aligned, noFault]
  rfl

theorem controlAccess_tag {s : State} {ea : Word} {store : Option (List Byte)} {j : Nat} (hj : j < 8192)
    (address : (bitsAt ea 4 28).toNat = 0x0800000 + 4 * j) (noFault : takeFault 0 [0xF] s = none)
    (own : (s.iocc 0).tablesInMemory = false) : controlAccess 0 ea 4 store s
      = match store with
        | none => loaded (cellRead 0 (s.iocc 0).tag j) s
        | some bytes => .ok [] (s.onIocc 0 fun x => { x with tag := cellWrite 0 x.tag j (wordOfBytes bytes) }) := by
  have top : bitsAt ea 8 2 ≠ 3 := addressTop_ne (by omega)
  have inOwnRam : (s.iocc 0).tagsInMemory = false := by unfold Iocc.tagsInMemory; rw [own]; rfl
  have index : (0x0800000 + 4 * j - 0x0800000) / 4 = j := by omega
  unfold controlAccess tagAccess
  simp only [address]
  rw [if_neg top, if_neg (by omega), if_pos (by omega), if_neg (by omega)]
  simp only [noFault, index, tagWord, setTagWord, inOwnRam, Bool.false_eq_true, if_false]
  cases store <;> rfl

theorem controlAccess_nvram {s : State} {ea : Word} {store : Option (List Byte)} {o : Nat}
    (address : (bitsAt ea 4 28).toNat = 0x0A00000 + o) (inside : o < 0x200000) :
    controlAccess 0 ea 4 store s = nvramAccess o 4 store s := by
  have top : bitsAt ea 8 2 ≠ 3 := addressTop_ne (by omega)
  unfold controlAccess
  simp only [address]
  rw [if_neg top, if_pos (by omega), Nat.add_sub_cancel_left]

/-- The registers of the channels, whose addresses were lost (R883, R884). -/
theorem controlAccess_channel {s : State} {ea : Word} {store : Option (List Byte)} {c : BitVec 4}
    (top : bitsAt ea 8 2 ≠ 3) (place : (bitsAt ea 4 28).toNat < 0x0400090
      ∨ 0x0400100 ≤ (bitsAt ea 4 28).toNat ∧ (bitsAt ea 4 28).toNat < 0x0800000)
    (noRegister : iocRegAt ((bitsAt ea 4 28).toNat / 4 * 4) = none)
    (lost : lostAt s.cfg.lost (bitsAt ea 4 28) = some (.channelReg, c)) (aligned : bitsAt ea 30 2 = 0) :
    controlAccess 0 ea 4 store s = channelRegister 0 c (bitsAt ea 28 2) (store.map wordOfBytes) s := by
  unfold controlAccess
  simp only
  rw [if_neg top, if_neg (by omega), if_neg (by omega), if_neg (by omega), if_neg (by omega), noRegister]
  simp only [lost]
  exact if_pos ⟨rfl, aligned⟩

/-! #### Loads and stores of the control space -/

/-- What a word load leaves that changes nothing but its target. -/
def LoadsWord (s : State) (r ra : RegNum) (d : BitVec 16) (v : Word) : Prop :=
  Completes (.l r ra d) s fun t => t.reg r = v ∧ (∀ q, q ≠ r → t.reg q = s.reg q) ∧ t = { s with gpr := t.gpr, pc := s.pc + 4 }

section

variable {s u : State} {x : Iocc} {l : List Iocc} {r ra : RegNum} {d : BitVec 16} {v : Word}

theorem State.AtControl.exec_l (h : s.AtControl x l (s.eaD ra d)) (aligned : (s.eaD ra d).toNat % 4 = 0)
    (access : controlAccess 0 (s.eaD ra d) 4 none s = loaded v u) :
    exec (.l r ra d) s = .next (u.setReg r v).advance := by
  rw [exec_l_io h.isIo aligned ((h.ioAccess_eq 4 none).trans access), wordOfBytes_toBytes]

theorem State.AtControl.loadsWord_bytes (h : s.AtControl x l (s.eaD ra d)) (aligned : (s.eaD ra d).toNat % 4 = 0)
    {bytes : List Byte} (access : controlAccess 0 (s.eaD ra d) 4 none s = .ok bytes s) :
    LoadsWord s r ra d (wordOfBytes bytes) :=
  ⟨_, exec_l_io h.isIo aligned ((h.ioAccess_eq 4 none).trans access), State.reg_setReg_self _ r _,
    fun _ other => State.reg_setReg_of_ne _ _ other, rfl⟩

theorem State.AtControl.loadsWord (h : s.AtControl x l (s.eaD ra d)) (aligned : (s.eaD ra d).toNat % 4 = 0)
    (access : controlAccess 0 (s.eaD ra d) 4 none s = loaded v s) : LoadsWord s r ra d v := by
  have loads := h.loadsWord_bytes (r := r) aligned access
  rwa [wordOfBytes_toBytes] at loads

theorem State.AtControl.exec_st (h : s.AtControl x l (s.eaD ra d)) (aligned : (s.eaD ra d).toNat % 4 = 0)
    (access : controlAccess 0 (s.eaD ra d) 4 (some (toBytes 4 (s.reg r))) s = .ok [] u) :
    exec (.st r ra d) s = .next u.advance :=
  exec_st_io h.isIo aligned ((h.ioAccess_eq 4 _).trans access)

/-- A store that changes the IOCC. -/
theorem State.AtControl.exec_st_iocc (h : s.AtControl x l (s.eaD ra d)) (aligned : (s.eaD ra d).toNat % 4 = 0)
    {f : Iocc → Iocc}
    (access : controlAccess 0 (s.eaD ra d) 4 (some (toBytes 4 (s.reg r))) s = .ok [] (s.onIocc 0 f)) :
    exec (.st r ra d) s = .next { s with ioccs := f x :: l, pc := s.pc + 4 } := by
  rw [h.exec_st aligned access, State.onIocc_head h.ioccs]
  rfl

end

theorem map_wordOfBytes (v : Word) : (some (toBytes 4 v)).map wordOfBytes = some v := congrArg some (wordOfBytes_toBytes v)

/-! #### The TCW table (R850, R855) -/

section

variable {s : State} {p n : Nat}

theorem ntcw_eq {x : Iocc} (listed : bitAt x.cfgReg 25 = true ∨ (bitsAt x.cfgReg 9 3).toNat < 6) : x.ntcw
    = some (if bitAt x.cfgReg 25 then 8 * 1024 * 2 ^ (bitsAt x.cfgReg 9 3).toNat
      else (32 * 2 ^ (bitsAt x.cfgReg 9 3).toNat - 8) * 1024) := by
  unfold Iocc.ntcw
  by_cases without : x.withoutTags = true
  · have bit : bitAt x.cfgReg 25 = true := without
    rw [if_pos without, if_pos bit]
    rfl
  · have bit : ¬ bitAt x.cfgReg 25 = true := without
    have code : x.sizeCode < 6 := listed.resolve_left bit
    rw [if_neg without, if_neg bit, if_pos code]
    rfl

theorem tcwLookup_own (entries : (s.iocc 0).ntcw = some n) (lt : p < n) (own : (s.iocc 0).tablesInMemory = false) :
    tcwLookup 0 p s = .tcw (cellRead 0 (s.iocc 0).tcw p) := by
  unfold tcwLookup
  simp only [entries, not_le.2 lt, own, if_false, Bool.false_eq_true]

theorem tcwLookup_absent (entries : (s.iocc 0).ntcw = some n) (le : n ≤ p) : tcwLookup 0 p s = .absent := by
  unfold tcwLookup
  simp only [entries, le, if_true]

/-- With buffers a TCW reads as it is (R851). -/
theorem tcwWords_load {t : Word} (found : tcwLookup 0 p s = .tcw t) (buffered : bitsAt (s.iocc 0).cfgReg 26 2 = 0) :
    tcwWords 0 none 1 p [] s = loaded t s := by
  have mode : (s.iocc 0).bufferMode ≠ .unbuffered := by
    unfold Iocc.bufferMode
    rw [if_pos buffered]
    decide
  unfold tcwWords
  simp only [found, tcwLoaded, mode, if_false]
  rfl

theorem tcwWords_store {t v : Word} (found : tcwLookup 0 p s = .tcw t) (own : (s.iocc 0).tablesInMemory = false) :
    tcwWords 0 (some (toBytes 4 v)) 1 p [] s = .ok [] (s.onIocc 0 fun x => { x with tcw := cellWrite 0 x.tcw p v }) := by
  have word : (toBytes 4 v).take 4 = toBytes 4 v := rfl
  unfold tcwWords
  simp only [found, setTcw, own, word, wordOfBytes_toBytes, Bool.false_eq_true, if_false]
  rfl

theorem tcwWords_absent {store : Option (List Byte)} (absent : tcwLookup 0 p s = .absent) :
    tcwWords 0 store 1 p [] s = ioErrPart 0 1 [] s := by
  unfold tcwWords
  simp only [absent]

end

/-! #### I/O exceptions (R698, R699, R835) -/

theorem logCsr15_frame (k : Nat) (code : Option (BitVec 4)) (s : State) : (logCsr15 k code s).gpr = s.gpr
    ∧ (logCsr15 k code s).pc = s.pc ∧ (logCsr15 k code s).msrIP = s.msrIP := by
  cases code with
  | none => exact ⟨rfl, rfl, rfl⟩
  | some c =>
    unfold logCsr15
    simp only
    split
    · exact ⟨rfl, rfl, rfl⟩
    · exact ⟨rfl, rfl, rfl⟩

theorem Iocc.csr_setCsr_self (x : Iocc) (c : BitVec 4) (v : Word) : (x.setCsr c v).csr c = v :=
  Vector.getElem_set_self _

/-- CSR15 takes the code where it has none and no invalid operation is lost. -/
theorem logCsr15_code {s : State} {x : Iocc} {l : List Iocc} (h : s.ioccs = x :: l) (empty : bitsAt (x.csr 15) 0 4 = 0)
    (kept : s.cfg.devInvopLost = false) (c : BitVec 4) :
    bitsAt (((logCsr15 0 (some c) s).iocc 0).csr 15) 0 4 = c := by
  have logged : logCsr15 0 (some c) s = State.onIocc s.drawWord.2 0
      fun x => x.setCsr 15 (c ++ bitsAt ((s.iocc 0).csr 15) 4 2 ++ s.drawWord.1.extractLsb' 0 26) := by
    unfold logCsr15
    simp only [State.iocc_head h, empty, kept, decide_true, Bool.false_and, Bool.not_false, Bool.and_self, if_true]
  have ioccs : s.drawWord.2.ioccs = x :: l := h
  rw [logged, State.onIocc_head ioccs, State.iocc_head rfl, Iocc.csr_setCsr_self, BitVec.append_assoc]
  exact BitVec.extractLsb'_append_eq_left

/-- An I/O exception of a word load (R698, R699). -/
theorem ioException {s u : State} {r ra : RegNum} {d : BitVec 16} {l : List Byte} {code : Option (BitVec 4)}
    (io : s.isIo (s.eaD ra d) = true) (aligned : (s.eaD ra d).toNat % 4 = 0)
    (access : ioAccess (s.eaD ra d) 4 none none s = .err l u) (logs : u = logCsr15 0 code s) :
    Completes (.l r ra d) s fun t => bitsAt t.dsisr 0 15 = 0b100000000000000 ∧ t.dar = s.eaD ra d ∧ t.srr0 = wordAlign s.pc
      ∧ t.pc = (if s.msrIP then 0xFFF00300 else 0x300) ∧ t.gpr = s.gpr ∧ t.ioccs = u.ioccs := by
  obtain ⟨gpr, pc, ip⟩ := logCsr15_frame 0 code s
  rw [← logs] at gpr pc ip
  obtain ⟨dsisr, dar, srr0, vector, regs, -⟩ :=
    State.StorageOnly.dataStorage (s := u) (u := u) rfl .io false (s.eaD ra d)
  exact ⟨_, exec_l_ioError io aligned access, dsisr, dar, srr0.trans (congrArg wordAlign pc),
    vector.trans (by rw [ip]), regs.trans gpr, State.interrupt_ioccs _ _ _ _⟩

/-! #### NVRAM (R946) -/

/-- Bytes stored from `off` on. -/
theorem cellRead_stored {m : List Host.Cell} (h : Memory.wf m = true) (off n : Nat) (f : Nat → Byte) :
    Memory.wf ((List.range n).foldl (fun m i => cellWrite 0 m (off + i) (f i)) m) = true
      ∧ ∀ k, cellRead 0 ((List.range n).foldl (fun m i => cellWrite 0 m (off + i) (f i)) m) k
        = if off ≤ k ∧ k < off + n then f (k - off) else cellRead 0 m k := by
  induction n with
  | zero => exact ⟨h, fun k => (if_neg (by omega)).symm⟩
  | succ n ih =>
    obtain ⟨wf, read⟩ := ih
    rw [List.range_succ, List.foldl_append]
    refine ⟨Memory.wf_cellWrite wf _ _, fun k => ?_⟩
    refine (cellRead_cellWrite (off + n) k (f n) wf).trans ?_
    by_cases last : k = off + n
    · rw [if_pos last, if_pos (by omega), last, Nat.add_sub_cancel_left]
    · rw [if_neg last, read]
      exact if_congr (by omega) rfl rfl

theorem nvramAccess_load {s : State} {off : Nat} (fits : off + 4 ≤ s.cfg.nvramBytes) : nvramAccess off 4 none s
    = .ok [cellRead 0 s.nvram (off + 0), cellRead 0 s.nvram (off + 1), cellRead 0 s.nvram (off + 2),
      cellRead 0 s.nvram (off + 3)] s := by
  unfold nvramAccess
  rw [if_neg (not_lt.2 fits)]
  rfl

theorem nvramAccess_store {s : State} {off : Nat} {bytes : List Byte} (four : bytes.length = 4)
    (fits : off + 4 ≤ s.cfg.nvramBytes) : nvramAccess off 4 (some bytes) s = .ok [] { s with
      nvram := (List.range 4).foldl (fun m i => cellWrite 0 m (off + i) (bytes.getD i 0)) s.nvram } := by
  unfold nvramAccess
  rw [if_neg (not_lt.2 fits)]
  simp only [four]

/-! #### The clauses of the control space -/

section

variable {s : State} {x : Iocc} {l : List Iocc} {r ra : RegNum} {d : BitVec 16} {a : Nat}

theorem config_loads (h : s.AtControl x l (s.eaD ra d)) (address : (bitsAt (s.eaD ra d) 4 28).toNat = 0x0400010) :
    LoadsWord s r ra d x.cfgReg := by
  have place := toNat_address (s.eaD ra d)
  refine h.loadsWord (by omega) ?_
  rw [controlAccess_register address (by decide) rfl, ← h.iocc]
  rfl

theorem enable_stores (h : s.AtControl x l (s.eaD ra d)) (address : (bitsAt (s.eaD ra d) 4 28).toNat = 0x0400080) :
    exec (.st r ra d) s
      = .next { s with ioccs := { x with en := (s.reg r).extractLsb' 16 16 } :: l, pc := s.pc + 4 } := by
  have place := toNat_address (s.eaD ra d)
  refine h.exec_st_iocc (f := fun x => { x with en := (s.reg r).extractLsb' 16 16 }) (by omega) ?_
  rw [controlAccess_register address (by decide) rfl, map_wordOfBytes]
  rfl

theorem tcw_clause (h : s.AtControl x l (s.eaD ra d)) {p n : Nat} (hp : (bitsAt (s.eaD ra d) 10 20).toNat = p)
    (top : bitsAt (s.eaD ra d) 8 2 = 3) (low : bitsAt (s.eaD ra d) 30 2 = 0) (buffered : bitsAt x.cfgReg 26 2 = 0)
    (entries : x.ntcw = some n) :
    (p < n → bitAt x.cfgReg 23 = false → LoadsWord s r ra d (cellRead 0 x.tcw p) ∧ exec (.st r ra d) s
        = .next { s with ioccs := { x with tcw := cellWrite 0 x.tcw p (s.reg r) } :: l, pc := s.pc + 4 })
      ∧ (n ≤ p → bitsAt (x.csr 15) 0 4 = 0 → s.cfg.devInvopLost = false → Completes (.l r ra d) s fun t =>
        bitsAt t.dsisr 0 15 = 0b100000000000000 ∧ t.gpr = s.gpr ∧ bitsAt ((t.iocc 0).csr 15) 0 4 = 1) := by
  have aligned : (s.eaD ra d).toNat % 4 = 0 := by rw [← toNat_addressLow, low]; rfl
  have access (store : Option (List Byte)) : controlAccess 0 (s.eaD ra d) 4 store s = tcwWords 0 store 1 p [] s := by
    rw [← hp]
    exact controlAccess_tcw top low (h.noFault (by decide))
  rw [← h.iocc] at entries buffered
  refine ⟨fun lt own => ?_, fun le empty kept => ?_⟩
  · rw [← h.iocc] at own
    have found := tcwLookup_own entries lt own
    refine ⟨h.loadsWord aligned ?_, h.exec_st_iocc aligned ?_ (f := fun x => { x with tcw := cellWrite 0 x.tcw p (s.reg r) })⟩
    · rw [access, tcwWords_load found buffered, h.iocc]
    · rw [access, tcwWords_store found own]
  · have error : ioAccess (s.eaD ra d) 4 none none s = .err [] (logCsr15 0 (some 1) s) := by
      rw [h.ioAccess_eq, access, tcwWords_absent (tcwLookup_absent entries le)]
      rfl
    obtain ⟨t, runs, dsisr, -, -, -, gpr, ioccs⟩ := ioException (r := r) h.isIo aligned error rfl
    refine ⟨t, runs, dsisr, gpr, ?_⟩
    rw [State.iocc, ioccs]
    exact logCsr15_code h.ioccs empty kept 1

theorem tag_clause (h : s.AtControl x l (s.eaD ra d)) {j : Nat} (hj : j < 8192)
    (address : (bitsAt (s.eaD ra d) 4 28).toNat = 0x0800000 + 4 * j) (own : bitAt x.cfgReg 23 = false) :
    LoadsWord s r ra d (cellRead 0 x.tag j) ∧ exec (.st r ra d) s
      = .next { s with ioccs := { x with tag := cellWrite 0 x.tag j (s.reg r) } :: l, pc := s.pc + 4 } := by
  have place := toNat_address (s.eaD ra d)
  rw [← h.iocc] at own
  have access (store : Option (List Byte)) := controlAccess_tag (store := store) hj address (h.noFault (by decide)) own
  refine ⟨h.loadsWord (by omega) ?_,
    h.exec_st_iocc (by omega) ?_ (f := fun x => { x with tag := cellWrite 0 x.tag j (s.reg r) })⟩
  · rw [access, h.iocc]
  · rw [access]
    simp only [wordOfBytes_toBytes]

theorem nvram_clause (h : s.AtControl x l (s.eaD ra d)) (wf : Memory.wf s.nvram = true) {o : Nat}
    (address : (bitsAt (s.eaD ra d) 4 28).toNat = 0x0A00000 + 4 * o) (fits : 4 * o + 4 ≤ s.cfg.nvramBytes)
    (inside : 4 * o < 0x200000) :
    LoadsWord s r ra d ((cellRead 0 s.nvram (4 * o) ++ cellRead 0 s.nvram (4 * o + 1))
        ++ (cellRead 0 s.nvram (4 * o + 2) ++ cellRead 0 s.nvram (4 * o + 3)))
      ∧ Completes (.st r ra d) s fun t =>
        (List.range 4).map (fun i => cellRead 0 t.nvram (4 * o + i)) = wordBytes (s.reg r)
          ∧ (∀ i, i < 4 * o ∨ 4 * o + 4 ≤ i → cellRead 0 t.nvram i = cellRead 0 s.nvram i)
          ∧ t = { s with nvram := t.nvram, pc := s.pc + 4 } := by
  have place := toNat_address (s.eaD ra d)
  have aligned : (s.eaD ra d).toNat % 4 = 0 := by omega
  obtain ⟨-, read⟩ := cellRead_stored wf (4 * o) 4 fun i => (toBytes 4 (s.reg r)).getD i 0
  refine ⟨?_, ⟨_, h.exec_st aligned ((controlAccess_nvram address inside).trans (nvramAccess_store rfl fits)), ?_,
    fun i hi => ?_, rfl⟩⟩
  · rw [← word_of_four]
    exact h.loadsWord_bytes aligned ((controlAccess_nvram address inside).trans (nvramAccess_load fits))
  · rw [← toBytes_four_eq]
    refine (List.map_congr_left fun i hi => ?_).trans (?_ : (List.range 4).map (fun i => (toBytes 4 (s.reg r)).getD i 0) = _)
    · have lt : i < 4 := List.mem_range.1 hi
      exact (read (4 * o + i)).trans (by rw [if_pos (by omega), Nat.add_sub_cancel_left])
    · rfl
  · exact (read i).trans (if_neg (by omega))

theorem channel_clause (h : s.AtControl x l (s.eaD ra d)) {c : BitVec 4} (top : bitsAt (s.eaD ra d) 8 2 ≠ 3)
    (place : (bitsAt (s.eaD ra d) 4 28).toNat < 0x0400090
      ∨ 0x0400100 ≤ (bitsAt (s.eaD ra d) 4 28).toNat ∧ (bitsAt (s.eaD ra d) 4 28).toNat < 0x0800000)
    (noRegister : iocRegAt ((bitsAt (s.eaD ra d) 4 28).toNat / 4 * 4) = none)
    (lost : lostAt s.cfg.lost (bitsAt (s.eaD ra d) 4 28) = some (.channelReg, c)) :
    (bitsAt (s.eaD ra d) 28 4 = 0 →
      Completes (.l r ra d) s (fun t => t.reg r = x.csr c ∧ (∀ q, q ≠ r → t.reg q = s.reg q)
        ∧ t = { s with gpr := t.gpr, csrTouched := true, pc := s.pc + 4 })
      ∧ exec (.st r ra d) s
        = .next { s with ioccs := x.setCsr c (s.reg r) :: l, csrTouched := true, pc := s.pc + 4 })
    ∧ (bitsAt (s.eaD ra d) 28 4 = 4 → LoadsWord s r ra d (x.reg4 c)
      ∧ exec (.st r ra d) s = .next { s with ioccs := x.setReg4 c (s.reg r) :: l, pc := s.pc + 4 }) := by
  -- bits 28 and 29 name the register
  have access {field : BitVec 4} (e : bitsAt (s.eaD ra d) 28 4 = field) (low : field.toNat % 4 = 0)
      (store : Option (List Byte)) : controlAccess 0 (s.eaD ra d) 4 store s
        = channelRegister 0 c (BitVec.ofNat 2 (field.toNat / 4)) (store.map wordOfBytes) s
        ∧ (s.eaD ra d).toNat % 4 = 0 := by
    have bits : (s.eaD ra d).toNat % 16 = field.toNat := by rw [← e]; simp [bitsAt]
    have aligned : (s.eaD ra d).toNat % 4 = 0 := by omega
    have register : bitsAt (s.eaD ra d) 28 2 = BitVec.ofNat 2 (field.toNat / 4) := by
      apply BitVec.eq_of_toNat_eq
      simp [bitsAt, BitVec.extractLsb'_toNat, Nat.shiftRight_eq_div_pow]
      omega
    exact ⟨by rw [controlAccess_channel top place noRegister lost (addressLow_eq aligned), register], aligned⟩
  refine ⟨fun e => ⟨?_, ?_⟩, fun e => ⟨?_, ?_⟩⟩
  · obtain ⟨runs, aligned⟩ := access e (by decide) none
    refine ⟨_, h.exec_l (u := { s with csrTouched := true }) (v := x.csr c) aligned ?_, State.reg_setReg_self _ r _,
      fun _ other => State.reg_setReg_of_ne _ _ other, rfl⟩
    rw [runs, ← h.iocc]
    rfl
  · obtain ⟨runs, aligned⟩ := access e (by decide) (some (toBytes 4 (s.reg r)))
    have ioccs : ({ s with csrTouched := true } : State).ioccs = x :: l := h.ioccs
    rw [h.exec_st (u := State.onIocc { s with csrTouched := true } 0 fun x => x.setCsr c (s.reg r)) aligned ?_,
      State.onIocc_head ioccs]
    · rfl
    · rw [runs, map_wordOfBytes]
      rfl
  · obtain ⟨runs, aligned⟩ := access e (by decide) none
    refine h.loadsWord aligned ?_
    rw [runs, ← h.iocc]
    rfl
  · obtain ⟨runs, aligned⟩ := access e (by decide) (some (toBytes 4 (s.reg r)))
    refine h.exec_st_iocc (f := fun x => x.setReg4 c (s.reg r)) aligned ?_
    rw [runs, map_wordOfBytes]
    rfl

end

/-! #### Bus I/O space (R823, R831) -/

section

variable {s : State} {x : Iocc} {l : List Iocc} {ea ba : Word}

/-- An access to bus I/O space in standard bus mode, with no limit check and no error waiting in CSR15. -/
theorem State.AtIocc.ioAccess_bus (h : s.AtIocc x l ea) (control : bitAt (s.segmentOf ea) 24 = false)
    (standard : bitAt (s.segmentOf ea) 25 = false) (key : bitAt (s.segmentOf ea) 1 = false)
    (empty : bitsAt (x.csr 15) 0 4 = 0) (address : bitsAt (s.segmentOf ea) 28 4 ++ bitsAt ea 4 28 = ba)
    (small : ba.toNat < 0x10000) (n : Nat) (store : Option (List Byte)) : ioAccess ea n store none s
      = busTransfer 0 .io ba n store none (bitAt (s.segmentOf ea) 13) (bitAt (s.segmentOf ea) 12) s := by
  have reserved : ¬ s.segmentOf ea &&& segmentReservedMask ≠ 0 := fun ne => ne h.reserved
  have target : busTarget (s.segmentOf ea) ea = .io ba := by
    unfold busTarget
    rw [standard, if_neg Bool.false_ne_true]
    simp only [address, small, if_true]
  rw [h.ioAccess_eq, if_neg (by rw [control]; exact Bool.false_ne_true)]
  unfold ioccAccess
  rw [if_neg reserved]
  simp only [h.waits, h.noTimeDelay, h.iocc, control, empty, target, key, ne_eq, not_true_eq_false, decide_false,
    Bool.and_false, Bool.false_and, Bool.false_eq_true, if_false]

/-- One cycle moves an aligned word that a word-wide device answers. -/
theorem busTransfer_word {slot : BitVec 4} {b0 b1 b2 b3 : Byte} {rest : List BusAnswer} (iocc : s.iocc 0 = x)
    (aligned : ba.toNat % 4 = 0) (answered : x.allHeld .io ba = false) (present : x.slotHeld slot = false)
    (answer : s.busIn = ⟨slot, .word, .data [b0, b1, b2, b3]⟩ :: rest) (inc ac : Bool) :
    busTransfer 0 .io ba 4 none none inc ac s = .ok [b0, b1, b2, b3] { s with
      busIn := rest, busLog := ⟨0, .io, ba, false, true, [b0, b1, b2, b3]⟩ :: s.busLog, draws := s.draws + 4 } := by
  have taken : s.takeAnswer 0 .io ba = (⟨slot, .word, .data [b0, b1, b2, b3]⟩, { s with busIn := rest }) := by
    unfold State.takeAnswer
    rw [iocc, answered, if_neg Bool.false_ne_true, answer]
    simp only [present, Bool.false_eq_true, if_false]
  have size : cycleSize 4 ba 4 = 4 := by
    unfold cycleSize
    simp [aligned]
  unfold busTransfer busCycles
  simp only [taken, BusWidth.bytes, size]
  rfl

theorem bus_clause {r ra : RegNum} {d : BitVec 16} {slot : BitVec 4} {b0 b1 b2 b3 : Byte} {rest : List BusAnswer}
    (h : s.AtIocc x l (s.eaD ra d)) (control : bitAt (s.segmentOf (s.eaD ra d)) 24 = false)
    (standard : bitAt (s.segmentOf (s.eaD ra d)) 25 = false) (key : bitAt (s.segmentOf (s.eaD ra d)) 1 = false)
    (empty : bitsAt (x.csr 15) 0 4 = 0)
    (address : bitsAt (s.segmentOf (s.eaD ra d)) 28 4 ++ bitsAt (s.eaD ra d) 4 28 = ba) (small : ba.toNat < 0x10000)
    (aligned : (s.eaD ra d).toNat % 4 = 0) (answered : x.allHeld .io ba = false) (present : x.slotHeld slot = false)
    (answer : s.busIn = ⟨slot, .word, .data [b0, b1, b2, b3]⟩ :: rest) : Completes (.l r ra d) s fun t =>
      t.reg r = (b0 ++ b1) ++ (b2 ++ b3) ∧ (∀ q, q ≠ r → t.reg q = s.reg q) ∧ t = { s with
        gpr := t.gpr, busIn := rest, busLog := ⟨0, .io, ba, false, true, [b0, b1, b2, b3]⟩ :: s.busLog
        draws := t.draws, pc := s.pc + 4 } := by
  have busAligned : ba.toNat % 4 = 0 := by
    have place := toNat_address (s.eaD ra d)
    rw [← address, BitVec.toNat_append, ← Nat.shiftLeft_add_eq_or_of_lt (BitVec.isLt _), Nat.shiftLeft_eq]
    omega
  have access := (h.ioAccess_bus control standard key empty address small 4 none).trans
    (busTransfer_word h.iocc busAligned answered present answer _ _)
  refine ⟨_, exec_l_io h.isIo aligned access, ?_, fun _ other => State.reg_setReg_of_ne _ _ other, rfl⟩
  exact (State.reg_setReg_self _ r _).trans (word_of_four b0 b1 b2 b3)

end

end Sys2Proof.Machine

end

/-! ### DMA slaves without buffers (R901, R904, R909, R911) -/

section

namespace Sys2Proof.Machine

/-! #### Counting and reloading change no byte of memory -/

/-- Loads look where they looked, and the trace has grown. -/
structure State.LogsOn (s t : State) : Prop where
  cfg : t.cfg = s.cfg
  mem : t.mem = s.mem
  dc : t.dc = s.dc
  wb : t.wb = s.wb
  log : ∀ e ∈ s.busLog, e ∈ t.busLog

section

variable {s t u : State}

theorem State.LogsOn.refl (s : State) : s.LogsOn s := ⟨rfl, rfl, rfl, rfl, fun _ h => h⟩

theorem State.LogsOn.trans (h : s.LogsOn t) (h' : t.LogsOn u) : s.LogsOn u :=
  ⟨h'.cfg.trans h.cfg, h'.mem.trans h.mem, h'.dc.trans h.dc, h'.wb.trans h.wb, fun e he => h'.log e (h.log e he)⟩

theorem State.LogsOn.sameMemory (h : s.LogsOn t) : s.SameMemory t := State.sameMemory_of h.cfg h.mem h.dc h.wb

theorem State.logsOn_onIocc (s : State) (k : Nat) (f : Iocc → Iocc) : s.LogsOn (s.onIocc k f) :=
  ⟨rfl, rfl, rfl, rfl, fun _ h => h⟩

theorem State.logsOn_logBus (s : State) (k : Nat) (sp : BusSpace) (a : Word) (store feedback : Bool) (bytes : List Byte) :
    s.LogsOn (s.logBus k sp a store feedback bytes) := ⟨rfl, rfl, rfl, rfl, fun _ h => List.mem_cons_of_mem _ h⟩

theorem dmaErr_logsOn (k : Nat) (c code : BitVec 4) (s : State) : s.LogsOn (dmaErr k c code s) :=
  (s.logsOn_onIocc k _).trans (State.logsOn_logBus _ _ _ _ _ _ _)

theorem takeFault_logsOn {k : Nat} {codes : List (BitVec 4)} {code : BitVec 4} (h : takeFault k codes s = some (code, t)) :
    s.LogsOn t := by
  unfold takeFault at h
  simp only at h
  split at h
  · cases h
    exact s.logsOn_onIocc k _
  · cases h

theorem reloadTag_logsOn (k : Nat) (c : BitVec 4) (j : BitVec 12) (s : State) : s.LogsOn (reloadTag k c j s) := by
  unfold reloadTag
  split
  · next taken => exact (takeFault_logsOn taken).trans (dmaErr_logsOn _ _ _ _)
  · split
    · exact s.logsOn_onIocc k _
    · exact dmaErr_logsOn _ _ _ _

end

/-! #### The registers of a channel -/

theorem Iocc.reg4_setReg4 (x : Iocc) (c : BitVec 4) (v : Word) : (x.setReg4 c v).reg4 c = v := Vector.getElem_set_self _
theorem Iocc.csr_setReg4 (x : Iocc) (c : BitVec 4) (v : Word) : (x.setReg4 c v).csr c = x.csr c := rfl

theorem toNat_highField (v : Word) : (bitsAt v 0 20).toNat = v.toNat / 2 ^ 12 := by
  have := v.isLt
  simp [bitsAt, BitVec.extractLsb'_toNat, Nat.shiftRight_eq_div_pow]
  omega

theorem toNat_lowField (v : Word) : (bitsAt v 20 12).toNat = v.toNat % 2 ^ 12 := by
  simp [bitsAt]

/-- The count of the length goes down in the low-order bits. -/
theorem setBits_sub_one {v : Word} (h : bitsAt v 20 12 ≠ 0) : setBits v 20 12 (bitsAt v 20 12 - 1) = v - 1 := by
  have high := congrArg BitVec.toNat (bitsAt_setBits_of_disjoint v (i := 20) (n := 12) (k := 0) (m := 20) (by decide)
    (by decide) (bitsAt v 20 12 - 1) (.inr (by decide)))
  have low := congrArg BitVec.toNat (bitsAt_setBits v (i := 20) (n := 12) (by decide) (bitsAt v 20 12 - 1))
  have nonzero : v.toNat % 2 ^ 12 ≠ 0 := fun e => h (BitVec.eq_of_toNat_eq ((toNat_lowField v).trans e))
  have less : (bitsAt v 20 12 - 1).toNat = v.toNat % 2 ^ 12 - 1 := by
    have one : (1 : BitVec 12).toNat = 1 := rfl
    rw [BitVec.toNat_sub, toNat_lowField, one]
    omega
  rw [toNat_highField, toNat_highField] at high
  rw [toNat_lowField, less] at low
  apply BitVec.eq_of_toNat_eq
  have one : (1 : Word).toNat = 1 := rfl
  have := v.isLt
  rw [BitVec.toNat_sub, one]
  omega

/-! #### One byte moves (R904) -/

/-- The state after an unbuffered request of one byte, before the registers of the channel change. -/
def slaveMoved (s : State) (toMemory : Bool) (a : Word) (v : Byte) : State :=
  let s1 := (s.drawBytes 1).2
  if toMemory then (s1.storeReal a v).logBus 0 .io a false true [v]
  else (s1.loadReal a).2.logBus 0 .io a true true [(s1.loadReal a).1]

section

variable {s : State} {c : BitVec 4} {v : Byte} {pause : State → Break}

theorem fillBytes_one (v : Byte) (s : State) : fillBytes 1 [v] s = ([v], (s.drawBytes 1).2) := rfl

theorem unbufferedTags {x : Iocc} (h : bitsAt x.cfgReg 25 3 = 1) : x.bufferMode = .unbuffered ∧ x.withoutTags = false := by
  have code := congrArg BitVec.toNat h
  have mode : bitsAt x.cfgReg 26 2 = 1 := by
    apply BitVec.eq_of_toNat_eq
    simp [bitsAt, BitVec.extractLsb'_toNat, Nat.shiftRight_eq_div_pow] at code ⊢
    omega
  have tags : bitAt x.cfgReg 25 = false := by
    have bit := getMsbD_bitsAt x.cfgReg (i := 25) (n := 3) (by decide) (j := 0) (by decide)
    rw [h] at bit
    exact bit.symm
  refine ⟨?_, tags⟩
  unfold Iocc.bufferMode
  rw [mode]
  rfl

theorem slaveCount_one (a : Word) (left : Nat) : slaveCount 1 a left = 1 := by
  unfold slaveCount
  simp

theorem slaveTransfer_byte (unbuffered : (s.iocc 0).bufferMode = .unbuffered) (toMemory : Bool) (a : Word) :
    slaveTransfer 0 c true toMemory a 1 [v] pause s = .go (slaveMoved s toMemory a v) := by
  have mode : (State.iocc (s.drawBytes 1).2 0).bufferMode = .unbuffered := unbuffered
  have notBuffered : (BufferMode.unbuffered == BufferMode.buffered) = false := by decide
  have address : BitVec.ofNat 32 a.toNat = a := by rw [BitVec.ofNat_toNat, BitVec.setWidth_eq]
  unfold slaveTransfer slaveMoved
  simp only [fillBytes_one, if_true, slaveMove, mode, notBuffered, sysWrite, sysRead, address, Bool.false_eq_true, if_false]
  cases toMemory <;> rfl

/-- A request of a byte-wide device on an enabled channel without buffers, for system memory. -/
theorem slaveRequest_byte (unbuffered : bitsAt (s.iocc 0).cfgReg 25 3 = 1) (noError : bitsAt ((s.iocc 0).csr c) 0 2 = 0)
    (enabled : bitAt ((s.iocc 0).csr c) 3 = true) (slave : bitAt ((s.iocc 0).csr c) 4 = true)
    (system : bitAt ((s.iocc 0).csr c) 5 = true) : slaveRequest 0 c 1 [v] pause s
      = .ok (slaveNextTags 0 c ((s.iocc 0).csr c) ((s.iocc 0).reg4 c) 1
        (slaveMoved s (bitAt ((s.iocc 0).csr c) 7) ((s.iocc 0).reg4 c) v)) := by
  obtain ⟨mode, tags⟩ := unbufferedTags unbuffered
  have listed : ¬ BufferMode.unbuffered = BufferMode.reserved := by decide
  unfold slaveRequest
  simp only [slave, mode, listed, noError, enabled, tags, Bool.not_true, Bool.false_eq_true, if_false, ne_eq,
    not_true_eq_false]
  unfold slaveRequestTags
  simp only [slaveCount_one, system, slaveTransfer_byte mode]
  rfl

end

/-! #### The registers after a byte (R901) -/

/-- What the byte that moved leaves: the IOCCs as they were, and the byte where it went. -/
theorem slaveMoved_spec {s : State} {a : Word} {v : Byte} (wf : Memory.wf s.mem = true) (readable : s.Readable a 1)
    (noRom : s.NoRom a 1) (toMemory : Bool) : (slaveMoved s toMemory a v).ioccs = s.ioccs
      ∧ if toMemory then (slaveMoved s toMemory a v).dataByte a = v
            ∧ ∀ b, b ≠ a → (slaveMoved s toMemory a v).dataByte b = s.dataByte b
          else s.SameMemory (slaveMoved s toMemory a v)
            ∧ (⟨0, .io, a, true, true, [s.dataByte a]⟩ : BusEvent) ∈ (slaveMoved s toMemory a v).busLog := by
  have line := readable 0 (by decide)
  have rom := noRom 0 (by decide)
  rw [show a + BitVec.ofNat 32 0 = a from BitVec.add_zero a] at line rom
  have drawn : s.SameMemory (s.drawBytes 1).2 := fun _ => rfl
  cases toMemory with
  | true =>
    obtain ⟨storage, -, -, byte⟩ := State.storeReal_spec (s := (s.drawBytes 1).2) wf v line rom
    refine ⟨storage.ioccs, ?_⟩
    rw [if_pos rfl]
    refine ⟨(byte a).trans (if_pos rfl), fun b ne => (byte b).trans (if_neg ne)⟩
  | false =>
    obtain ⟨got, storage, -, -, same⟩ := State.loadReal_spec (s := (s.drawBytes 1).2) wf line
    refine ⟨storage.ioccs, ?_⟩
    rw [if_neg Bool.false_ne_true]
    refine ⟨same, ?_⟩
    show _ ∈ _ :: _
    rw [got]
    exact List.mem_cons_self

section

variable {s : State} {x : Iocc} {l : List Iocc} {c : BitVec 4} {w a : Word}

/-- The IOCC after the counts of one byte. -/
def slaveCounted (x : Iocc) (c : BitVec 4) (w a : Word) : Iocc :=
  (x.setReg4 c (a + 1)).setCsr c (setBits w 20 12 (bitsAt w 20 12 - 1))

/-- The end of the length is signalled where bit 6 asks for it, and at the end of a chain. -/
def slavePulsed (c : BitVec 4) (w : Word) (expired : Bool) (s : State) : State :=
  if expired && (bitAt w 6 || bitsAt w 8 12 == 0xFFF) then s.pulse 0 .terminalCount c else s

/-- What follows the last byte of the length, or of a page. -/
def slaveEnds (c : BitVec 4) (w : Word) (expired : Bool) (s : State) : State :=
  if bitsAt w 8 12 = 0xFFF then (slavePulsed c w expired s).onIocc 0 fun x => x.setCsr c (setBit (x.csr c) 3 false)
  else reloadTag 0 c (bitsAt w 8 12) (slavePulsed c w expired s)

theorem slaveNextTags_eq (unbuffered : x.bufferMode = .unbuffered) (h : s.ioccs = x :: l) :
    slaveNextTags 0 c w a 1 s = if 1 == (bitsAt w 20 12).toNat + 1 || (a + 1).toNat % 4096 == 0 then
        slaveEnds c w (1 == (bitsAt w 20 12).toNat + 1) { s with ioccs := slaveCounted x c w a :: l }
      else { s with ioccs := slaveCounted x c w a :: l } := by
  have counted : (s.onIocc 0 fun x => (x.setReg4 c (a + 1)).setCsr c (setBits w 20 12 (bitsAt w 20 12 - 1)))
      = { s with ioccs := slaveCounted x c w a :: l } := State.onIocc_head h _
  have mode : (State.iocc { s with ioccs := slaveCounted x c w a :: l } 0).bufferMode = .unbuffered := unbuffered
  have ends (n : Nat) : endLine 0 c n { s with ioccs := slaveCounted x c w a :: l }
      = { s with ioccs := slaveCounted x c w a :: l } := by
    unfold endLine
    rw [mode, show (BufferMode.unbuffered == BufferMode.buffered) = false by decide, Bool.and_false,
      if_neg Bool.false_ne_true]
  unfold slaveNextTags
  rw [show BitVec.ofNat 32 1 = 1 from rfl, show BitVec.ofNat 12 1 = 1 from rfl]
  simp only
  rw [counted, ends]
  rfl

theorem slavePulsed_ioccs (c : BitVec 4) (w : Word) (expired : Bool) (s : State) :
    (slavePulsed c w expired s).ioccs = s.ioccs := by
  unfold slavePulsed
  split <;> rfl

theorem slaveEnds_logsOn (c : BitVec 4) (w : Word) (expired : Bool) (s : State) : s.LogsOn (slaveEnds c w expired s) := by
  have pulsed : s.LogsOn (slavePulsed c w expired s) := by
    unfold slavePulsed
    split
    · exact s.logsOn_logBus _ _ _ _ _ _
    · exact .refl s
  unfold slaveEnds
  split
  · exact pulsed.trans (State.logsOn_onIocc _ _ _)
  · exact pulsed.trans (reloadTag_logsOn _ _ _ _)

theorem slaveNextTags_logsOn (unbuffered : x.bufferMode = .unbuffered) (h : s.ioccs = x :: l) :
    s.LogsOn (slaveNextTags 0 c w a 1 s) := by
  have counted : s.LogsOn { s with ioccs := slaveCounted x c w a :: l } := ⟨rfl, rfl, rfl, rfl, fun _ h => h⟩
  rw [slaveNextTags_eq unbuffered h]
  split
  · exact counted.trans (slaveEnds_logsOn _ _ _ _)
  · exact counted

/-- In the middle of the length and of the page. -/
theorem slaveNextTags_within (unbuffered : x.bufferMode = .unbuffered) (h : s.ioccs = x :: l)
    (more : bitsAt w 20 12 ≠ 0) (inPage : (a.toNat + 1) % 4096 ≠ 0) :
    (slaveNextTags 0 c w a 1 s).ioccs = (x.setReg4 c (a + 1)).setCsr c (w - 1) :: l := by
  have notExpired : (1 == (bitsAt w 20 12).toNat + 1) = false := by
    rw [beq_eq_false_iff_ne]
    intro e
    exact more (BitVec.eq_of_toNat_eq (by rw [show (0 : BitVec 12).toNat = 0 from rfl]; omega))
  have notPage : ((a + 1).toNat % 4096 == 0) = false := by
    rw [beq_eq_false_iff_ne, BitVec.toNat_add, show (1 : Word).toNat = 1 from rfl]
    omega
  rw [slaveNextTags_eq unbuffered h, notExpired, notPage, Bool.or_self, if_neg Bool.false_ne_true, ← setBits_sub_one more]
  rfl

theorem slaveNextTags_expired (unbuffered : x.bufferMode = .unbuffered) (h : s.ioccs = x :: l)
    (last : bitsAt w 20 12 = 0) :
    slaveNextTags 0 c w a 1 s = slaveEnds c w true { s with ioccs := slaveCounted x c w a :: l } := by
  have expired : (1 == (bitsAt w 20 12).toNat + 1) = true := by rw [last]; rfl
  rw [slaveNextTags_eq unbuffered h, expired, Bool.true_or, if_pos rfl]

/-- The fields of the Channel Status register after the last byte: the count has wrapped around. -/
theorem slaveCounted_csr (last : bitsAt w 20 12 = 0) : bitsAt ((slaveCounted x c w a).csr c) 20 12 = 0xFFF
    ∧ ∀ i n, i + n ≤ 20 → bitsAt ((slaveCounted x c w a).csr c) i n = bitsAt w i n := by
  unfold slaveCounted
  rw [Iocc.csr_setCsr_self]
  refine ⟨?_, fun i n hn => bitsAt_setBits_of_disjoint w (by decide) (by omega) _ (.inr hn)⟩
  rw [bitsAt_setBits w (by decide), last]
  rfl

theorem slaveCounted_reg4 (x : Iocc) (c : BitVec 4) (w a : Word) : (slaveCounted x c w a).reg4 c = a + 1 :=
  Iocc.reg4_setReg4 x c (a + 1)

/-- The end of a chain of tags. -/
theorem slaveEnds_chain (chainEnd : bitsAt w 8 12 = 0xFFF) (h : s.ioccs = x :: l) :
    bitAt (((slaveEnds c w true s).iocc 0).csr c) 3 = false ∧ ((slaveEnds c w true s).iocc 0).reg4 c = x.reg4 c
      ∧ (⟨0, .terminalCount, c.setWidth 32, false, true, []⟩ : BusEvent) ∈ (slaveEnds c w true s).busLog := by
  have pulsed : (s.pulse 0 .terminalCount c).ioccs = x :: l := h
  have ends : slaveEnds c w true s
      = State.onIocc (s.pulse 0 .terminalCount c) 0 fun x => x.setCsr c (setBit (x.csr c) 3 false) := by
    unfold slaveEnds slavePulsed
    rw [chainEnd, if_pos rfl, if_pos (by rw [beq_self_eq_true, Bool.or_true]; rfl)]
  rw [ends, State.onIocc_head pulsed, State.iocc_head rfl, Iocc.csr_setCsr_self]
  exact ⟨bitAt_setBit_self _ (by decide) _, rfl, List.mem_cons_self⟩

/-- An error of code 1110 that waits is reported by the reload (R911). -/
theorem reloadTag_fault {j : BitVec 12} (waits : x.fault = 0b1110) (h : s.ioccs = x :: l) :
    ((reloadTag 0 c j s).iocc 0).csr c = setBits (x.csr c) 0 4 0b1110 ∧ ((reloadTag 0 c j s).iocc 0).reg4 c = x.reg4 c
      ∧ ((reloadTag 0 c j s).iocc 0).fault = 0
      ∧ (⟨0, .terminalCount, c.setWidth 32, false, true, []⟩ : BusEvent) ∈ (reloadTag 0 c j s).busLog := by
  have taken : takeFault 0 [0xE] s = some (0xE, { s with ioccs := { x with fault := 0 } :: l }) := by
    unfold takeFault
    rw [State.onIocc_head h, State.iocc_head h, waits]
    rfl
  have ends : reloadTag 0 c j s = dmaErr 0 c 0xE { s with ioccs := { x with fault := 0 } :: l } := by
    unfold reloadTag
    rw [taken]
  have ioccs : ({ s with ioccs := { x with fault := 0 } :: l } : State).ioccs = { x with fault := 0 } :: l := rfl
  rw [ends]
  unfold dmaErr
  rw [State.onIocc_head ioccs]
  refine ⟨?_, ?_, ?_, List.mem_cons_self⟩
  · rw [State.iocc_head rfl, Iocc.csr_setCsr_self]
    rfl
  · rw [State.iocc_head rfl]
    rfl
  · rw [State.iocc_head rfl]
    rfl

/-- The next tag (R901), in the IOCC's own RAM. -/
theorem reloadTag_own {j : BitVec 12} (noError : x.fault ≠ 0b1110) (own : bitAt x.cfgReg 23 = false) (h : s.ioccs = x :: l) :
    ((reloadTag 0 c j s).iocc 0).csr c = bitsAt (x.csr c) 0 5 ++ bitsAt (cellRead 0 x.tag (2 * j.toNat)) 5 27
      ∧ ((reloadTag 0 c j s).iocc 0).reg4 c = cellRead 0 x.tag (2 * j.toNat + 1) := by
  have iocc := State.iocc_head h
  have none : takeFault 0 [0xE] s = none := takeFault_none (by
    rw [iocc, List.contains_cons, List.contains_nil, Bool.or_false]
    exact beq_eq_false_iff_ne.2 noError)
  have table (n : Nat) : tagWord 0 n s = some (cellRead 0 x.tag n) := by
    have inOwnRam : x.tagsInMemory = false := by
      unfold Iocc.tagsInMemory Iocc.tablesInMemory
      rw [own]
      rfl
    unfold tagWord
    simp only [iocc, inOwnRam, Bool.false_eq_true, if_false]
  have ends : reloadTag 0 c j s = s.onIocc 0 fun x => (x.setCsr c (bitsAt (x.csr c) 0 5
      ++ bitsAt (cellRead 0 (s.iocc 0).tag (2 * j.toNat)) 5 27)).setReg4 c (cellRead 0 (s.iocc 0).tag (2 * j.toNat + 1)) := by
    unfold reloadTag
    rw [none, iocc]
    simp only [table]
  rw [ends, State.onIocc_head h, iocc, State.iocc_head rfl, Iocc.csr_setReg4, Iocc.csr_setCsr_self, Iocc.reg4_setReg4]
  exact ⟨rfl, rfl⟩

theorem slaveEnds_reloads {expired : Bool} (notLast : bitsAt w 8 12 ≠ 0xFFF) :
    slaveEnds c w expired s = reloadTag 0 c (bitsAt w 8 12) (slavePulsed c w expired s) := if_neg notLast

end

/-! #### The obligation -/

/-- One request for one byte. -/
theorem dma_clause {s : State} {x : Iocc} {l : List Iocc} {c : BitVec 4} {v : Byte} (h : s.ioccs = x :: l)
    (canonical : s.Canonical) (unbuffered : bitsAt x.cfgReg 25 3 = 1) (noError : bitsAt (x.csr c) 0 2 = 0)
    (enabled : bitAt (x.csr c) 3 = true) (slave : bitAt (x.csr c) 4 = true) (system : bitAt (x.csr c) 5 = true)
    (readable : s.Readable (x.reg4 c) 1) (noRom : s.NoRom (x.reg4 c) 1) :
    ∃ u, (∀ pause, slaveRequest 0 c 1 [v] pause s = .ok u)
      ∧ (if bitAt (x.csr c) 7 then u.dataByte (x.reg4 c) = v ∧ ∀ b, b ≠ x.reg4 c → u.dataByte b = s.dataByte b
        else s.SameMemory u ∧ (⟨0, .io, x.reg4 c, true, true, [s.dataByte (x.reg4 c)]⟩ : BusEvent) ∈ u.busLog)
      ∧ ∃ m : State, m.ioccs = x :: l ∧ u = slaveNextTags 0 c (x.csr c) (x.reg4 c) 1 m := by
  have iocc := State.iocc_head h
  obtain ⟨mode, -⟩ := unbufferedTags unbuffered
  obtain ⟨ioccs, moved⟩ := slaveMoved_spec (v := v) canonical.mem readable noRom (bitAt (x.csr c) 7)
  rw [h] at ioccs
  have logs : State.LogsOn _ (slaveNextTags 0 c (x.csr c) (x.reg4 c) 1 (slaveMoved s (bitAt (x.csr c) 7) (x.reg4 c) v)) :=
    slaveNextTags_logsOn mode ioccs
  have same := logs.sameMemory
  refine ⟨_, fun pause => ?_, ?_, _, ioccs, rfl⟩
  · rw [slaveRequest_byte (by rwa [iocc]) (by rwa [iocc]) (by rwa [iocc]) (by rwa [iocc]) (by rwa [iocc]), iocc]
  · split
    · next into =>
      rw [if_pos into] at moved
      exact ⟨(same _).trans moved.1, fun b ne => (same b).trans (moved.2 b ne)⟩
    · next out =>
      rw [if_neg out] at moved
      exact ⟨fun b => (same b).trans (moved.1 b), logs.log _ moved.2⟩

/-- Settles O60: a lemma for each clause about the control space, bus I/O space and a DMA slave. -/
theorem ioccFacilities : Obligations.IoccFacilities := by
  refine ⟨?_, ?_⟩
  · intro s x l r ra d ioccs delay fault canonical ea a sr loads stores v io unit reserved noTimeDelay
    have atIocc : s.AtIocc x l ea := ⟨ioccs, delay, fault, io, unit, reserved, noTimeDelay⟩
    refine ⟨fun control key => ?_, fun control key aligned => ?_, ?_⟩
    · have h : s.AtControl x l ea := ⟨atIocc, control, key⟩
      refine ⟨config_loads h, enable_stores h, ?_, fun j hj address own => tag_clause h hj address own,
        fun o address fits inside => nvram_clause h canonical.nvram address fits inside,
        fun c top place noRegister lost => channel_clause h top place noRegister lost⟩
      intro p code n top low buffered listed
      exact tcw_clause h rfl top low buffered (ntcw_eq listed)
    · have error : ioAccess ea 4 none none s = .err [] (logCsr15 0 (some 1) s) := by
        rw [atIocc.ioAccess_eq, if_pos control, if_pos key]
        rfl
      obtain ⟨t, runs, dsisr, dar, srr0, pc, gpr, -⟩ := ioException (r := r) atIocc.isIo aligned error rfl
      exact ⟨t, runs, dsisr, dar, srr0, pc, gpr⟩
    · intro slot b0 b1 b2 b3 rest ba control standard key empty small aligned answered present answer
      exact bus_clause atIocc control standard key empty rfl small aligned answered present answer
  · intro s x l c v ioccs canonical w a count moves unbuffered noError enabled slave system readable noRom
    obtain ⟨mode, -⟩ := unbufferedTags unbuffered
    obtain ⟨u, runs, moved, m, mIoccs, ends⟩ :=
      dma_clause (v := v) ioccs canonical unbuffered noError enabled slave system readable noRom
    have counted : ({ m with ioccs := slaveCounted x c w a :: l } : State).ioccs = slaveCounted x c w a :: l := rfl
    have pulsed := (slavePulsed_ioccs c w true { m with ioccs := slaveCounted x c w a :: l }).trans counted
    refine ⟨u, runs, moved, fun more inPage => ?_, fun last chainEnd => ?_, fun last notLast waits => ?_,
      fun last notLast noFault own => ?_⟩
    · rw [ends]
      exact slaveNextTags_within mode mIoccs more inPage
    · rw [ends, slaveNextTags_expired mode mIoccs last]
      obtain ⟨disabled, reg4, event⟩ := slaveEnds_chain (c := c) chainEnd counted
      exact ⟨disabled, reg4.trans (slaveCounted_reg4 x c w a), event⟩
    · rw [ends, slaveNextTags_expired mode mIoccs last, slaveEnds_reloads notLast]
      obtain ⟨csr, reg4, fault, event⟩ :=
        reloadTag_fault (x := slaveCounted x c w a) (c := c) (j := bitsAt w 8 12) waits pulsed
      obtain ⟨wrapped, others⟩ := slaveCounted_csr (x := x) (c := c) (a := a) last
      refine ⟨?_, ?_, ?_, reg4.trans (slaveCounted_reg4 x c w a), fault, event⟩
      · rw [csr]
        exact bitsAt_setBits _ (by decide) _
      · rw [csr, bitsAt_setBits_of_disjoint _ (by decide) (by decide) _ (.inl (by decide))]
        exact others 4 16 (by decide)
      · rw [csr, bitsAt_setBits_of_disjoint _ (by decide) (by decide) _ (.inl (by decide))]
        exact wrapped
    · rw [ends, slaveNextTags_expired mode mIoccs last, slaveEnds_reloads notLast]
      obtain ⟨csr, reg4⟩ :=
        reloadTag_own (x := slaveCounted x c w a) (c := c) (j := bitsAt w 8 12) noFault own pulsed
      obtain ⟨-, others⟩ := slaveCounted_csr (x := x) (c := c) (a := a) last
      refine ⟨?_, ?_, reg4⟩
      · rw [csr]
        exact BitVec.extractLsb'_append_eq_left.trans (others 0 5 (by decide))
      · rw [csr]
        exact BitVec.extractLsb'_append_eq_right

end Sys2Proof.Machine

end
